-- ==== Sys2Proof/Word.lean ====
section
/-! DEFINITION. The plainest data of the model: sparse maps in one canonical form, lane masks, and
little-endian bytes (spec 00 R3). -/

set_option linter.unusedVariables false

namespace Sys2Proof

abbrev Word := BitVec 32
abbrev DWord := BitVec 64
/-- A set of lanes of one group: bit i is lane i (02 R14). -/
abbrev Mask := BitVec 64

/-- A sparse map from numbers to words of `w` bits: a list of pairs, keys strictly rising, no pair
whose value is 0, so that equal maps are equal lists. A key that is not listed reads as 0. -/
abbrev SMap (w : Nat) := List (Nat × BitVec w)

namespace SMap

def get {w : Nat} : SMap w → Nat → BitVec w
  | [], _ => 0
  | (k, v) :: m, j => if k = j then v else get m j

/-- Put `(k, v)` before the first larger key; the key is not in the list. -/
def ins {w : Nat} : SMap w → Nat → BitVec w → SMap w
  | [], k, v => [(k, v)]
  | (j, u) :: m, k, v => if k < j then (k, v) :: (j, u) :: m else (j, u) :: ins m k v

def erase {w : Nat} : SMap w → Nat → SMap w
  | [], _ => []
  | (j, u) :: m, k => if j = k then erase m k else (j, u) :: erase m k

def set {w : Nat} (m : SMap w) (k : Nat) (v : BitVec w) : SMap w :=
  if v = 0 then erase m k else ins (erase m k) k v

/-- Every listed key is above `lo` (none: no bound), keys rise strictly, no value is 0. -/
def wfFrom {w : Nat} : Option Nat → SMap w → Bool
  | _, [] => true
  | lo, (k, v) :: m => (match lo with | none => true | some l => decide (l < k)) && v != 0 && wfFrom (some k) m

def wf {w : Nat} (m : SMap w) : Bool := wfFrom none m

/-- Write `f i` at key `base + i` for each `i < n` with `p i`. -/
def setMany {w : Nat} (m : SMap w) (base : Nat) (p : Nat → Bool) (f : Nat → BitVec w) : Nat → SMap w
  | 0 => m
  | n + 1 => let m' := setMany m base p f n; if p n then set m' (base + n) (f n) else m'

end SMap

/-- Lane `i` is in the set. -/
def Mask.has (m : Mask) (i : Nat) : Bool := m.getLsbD i

def Mask.one (i : Nat) : Mask := BitVec.ofNat 64 (2 ^ i)

/-- Lanes 0 to n - 1. -/
def Mask.upto (n : Nat) : Mask := BitVec.ofNat 64 (2 ^ n - 1)

/-- The lanes below `n` for which `p` holds. -/
def Mask.ofFn (p : Nat → Bool) : Nat → Mask
  | 0 => 0
  | n + 1 => if p n then Mask.ofFn p n ||| Mask.one n else Mask.ofFn p n

/-- The lanes of the set, ascending. -/
def Mask.lanes (m : Mask) : List Nat := (List.range 64).filter (fun i => m.has i)

def Mask.card (m : Mask) : Nat := (Mask.lanes m).length

/-- The lowest lane of the set (0 when it is empty). -/
def Mask.low (m : Mask) : Nat := (Mask.lanes m).headD 0

/-- Little-endian value of a list of bytes. -/
def leNat : List (BitVec 8) → Nat
  | [] => 0
  | b :: bs => b.toNat + 256 * leNat bs

/-- The `n` low bytes of `x`, least significant first. -/
def leBytes : Nat → Nat → List (BitVec 8)
  | 0, _ => []
  | n + 1, x => BitVec.ofNat 8 x :: leBytes n (x / 256)

/-- `count` bytes of `bs` from offset `off`, as a little-endian number. -/
def leField (bs : List (BitVec 8)) (off count : Nat) : Nat := leNat ((bs.drop off).take count)

/-- Bits `hi` down to `lo` of a number. -/
def bitsOf (x hi lo : Nat) : Nat := x / 2 ^ lo % 2 ^ (hi - lo + 1)

def pairW (hi lo : Word) : DWord := hi.setWidth 64 <<< 32 ||| lo.setWidth 64
def loW (x : DWord) : Word := x.setWidth 32
def hiW (x : DWord) : Word := (x >>> 32).setWidth 32

/-- The first element of a list with key `k`, or a default. -/
def findD {α : Type} (p : α → Bool) (d : α) : List α → α
  | [] => d
  | a :: l => if p a then a else findD p d l

/-- Change the first element with `p`; append `f d` when there is none. -/
def modD {α : Type} (p : α → Bool) (d : α) (f : α → α) : List α → List α
  | [] => [f d]
  | a :: l => if p a then f a :: l else a :: modD p d f l

/-- Change every element with `p`. -/
def modAll {α : Type} (p : α → Bool) (f : α → α) (l : List α) : List α :=
  l.map (fun a => if p a then f a else a)

end Sys2Proof
end

