-- ==== Sys2Proof/Config.lean ====
section
/-! DEFINITION. What one part fixes and the values the spec leaves open. An `opaque` constant has no
body: no proof can see its value, and a statement about the machine holds whatever it is. -/

namespace Sys2Proof.Config

/-- A choice the spec leaves unspecified (02 R30, 14 R255 and others), for the free-value count,
a number that says which choice it is, and a lane. DESIGN CHOICE, log entries 4 and 6. -/
opaque freeBit : Nat → Nat → Nat → Bool

/-- How many clk beyond its issue clk the n-th step of the machine takes. DESIGN CHOICE, log entry 5. -/
opaque extraClk : Nat → Nat

/-- How much a stall counter of a cause 0-3 advances in the n-th step: the waits behind it are not part of the
model's time (13 R217). DESIGN CHOICE, log entry 5. -/
opaque stallClk : Nat → Nat → Nat

/-- A word the spec calls undefined or does not state, for the free-value count and a number that says which.
DESIGN CHOICE, log entry 4. -/
opaque freeWord : Nat → Nat → BitVec 32

/-- The n-th 256-bit value the true random number generator of the Kiln draws (22 R383). DESIGN CHOICE, log entry 8. -/
opaque trng : Nat → Nat

/-- The fused unique device seed, and the DER encoding of the identity public key (22 R384). DESIGN CHOICE, log entry 8. -/
opaque deviceSeed : BitVec 256
opaque identityKey : List (BitVec 8)

/-- The signature of a message of bytes under the identity key with a salt: 512 bytes as one number (22 R401). DESIGN CHOICE, log entry 8. -/
opaque sign : List (BitVec 8) → Nat → Nat

/-- The firmware image that a RESET at a free-value count starts (22 R408). DESIGN CHOICE, log entry 8. -/
opaque firmwareImage : Nat → List (BitVec 8)

/-- The response to an SPDM request, signed with the alias key that CDI0 gives and certified with the firmware measurement; the
protocol's messages lie outside the spec (22 R384, R386). DESIGN CHOICE, log entry 8. -/
opaque spdmResponse : Nat → BitVec 512 → BitVec 512 → Nat → Nat

/-- What the tag of a stored line is XORed with, by its key, version and address: the spec names no block for it (22 R380). DESIGN CHOICE, log entry 8. -/
opaque linePad : BitVec 256 → Nat → Nat → Nat

/-- Byte `i` of a ciphertext written at a free-value count (19 R343). DESIGN CHOICE, log entry 8. -/
opaque cipherByte : Nat → Nat → BitVec 8

/-- The DRAM bank that holds a bonded DRAM frame, and the channel of a bank (22 R404-R406); the spec gives no
layout. DESIGN CHOICE, log entry 8. -/
opaque dramBank : Nat → Nat
opaque bankChannel : Nat → Nat

/-- The row of its bank that holds a DRAM line (22 R404). DESIGN CHOICE, log entry 8. -/
opaque dramRow : Nat → Nat

/-- Spare rows of a DRAM bank and banks of a channel (22 R404, R405); the spec gives no number. DESIGN CHOICE, log entry 8. -/
opaque spareRows : Nat → Nat
opaque channelBanks : Nat

/-- The fused maximum of the core voltage, in mV (22 R409). DESIGN CHOICE, log entry 8. -/
opaque voltageMax : Nat

/-- The completion timeout, in clk, that a value other than 0 of the timeout field selects (22 R390). DESIGN CHOICE, log entry 8. -/
opaque timeoutClk : Nat → Nat

end Sys2Proof.Config
end

