-- ==== Sys2Proof/Syntax.lean ====
section
/-! DEFINITION. The operations of the part: one constructor of `Instr` for each row of the opcode
table: 167 instruction words (03 R45, R46), the reserved opcode (R47), the matrix commands (R48), the
cards (R49), the steep commands (R52) and the events of the device (file 95). Register numbers are
plain numbers; `WellFormed` bounds them. -/

namespace Sys2Proof

/-- The E bit and the guard field G of an instruction word (03 R38). -/
structure Hdr where
  e : Bool
  g : Nat
  deriving DecidableEq, Repr

/-- `VADD`, `VSUB` forms (05 R79) -/
inductive AddK where
  | i32 | si32 | su32 | i16x2
  deriving DecidableEq, Repr

/-- `VMUL` forms (05 R80) -/
inductive MulK where
  | lo | hiI32 | hiU32 | i16x2
  deriving DecidableEq, Repr

/-- right shifts: logical, arithmetic (05 R83) -/
inductive ShrK where
  | l | a
  deriving DecidableEq, Repr

/-- signed or unsigned comparison (05 R84) -/
inductive SgnK where
  | i32 | u32
  deriving DecidableEq, Repr

/-- `VSHI` kinds (05 R86) -/
inductive ShiK where
  | shl | shrL | shrA | rotr
  deriving DecidableEq, Repr

/-- float formats of the arithmetic entries (03 R45) -/
inductive FmtK where
  | f32 | f16x2 | bf16x2
  deriving DecidableEq, Repr

/-- rounding of conversions (03 R45) -/
inductive Rnd where
  | rne | rtz | rdn | rup
  deriving DecidableEq, Repr

/-- kinds of `VCVT` (03 R45) -/
inductive CvtKind where
  | i32 | u32 | f32 | f16 | bf16 | e4m3 | e5m2
  deriving DecidableEq, Repr

/-- directions of `VCVT6` (03 R45) -/
inductive Cvt6K where
  | toE3m2 | toE2m3 | fromE3m2 | fromE2m3
  deriving DecidableEq, Repr

/-- `VPKH` forms (09 R166) -/
inductive PkhK where
  | f16x2 | bf16x2
  deriving DecidableEq, Repr

/-- `VUPKH` forms (09 R167) -/
inductive UpkhK where
  | loF16 | hiF16 | loBf16 | hiBf16
  deriving DecidableEq, Repr

/-- lane compare kinds (05 R105) -/
inductive CmpK where
  | i32 | u32 | f32
  deriving DecidableEq, Repr

/-- predicate logic (05 R108) -/
inductive LogK where
  | and | or | xor | andn
  deriving DecidableEq, Repr

/-- predicate moves (05 R109) -/
inductive MovK where
  | cpy | not | set | clr
  deriving DecidableEq, Repr

/-- `VRED` forms (09 R176) -/
inductive RedK where
  | addI32 | minI32 | maxI32 | addF32
  deriving DecidableEq, Repr

/-- access sizes of `VLD`, `VLDNF`, `VST` (14 R250) -/
inductive MemK where
  | b8 | b16 | w32 | w64
  deriving DecidableEq, Repr

/-- packed blocks of `VLDN`, `VSTN` (14 R254) -/
inductive PackK where
  | n4 | n6 | n8
  deriving DecidableEq, Repr

/-- `VATADD` forms (14 R256) -/
inductive AtAddK where
  | i32 | u64 | f32
  deriving DecidableEq, Repr

/-- `VATMM` forms (14 R257) -/
inductive AtMmK where
  | minI32 | maxI32 | maxF32 | minF32
  deriving DecidableEq, Repr

/-- `VATBIT` forms (14 R258) -/
inductive AtBitK where
  | and | or | xor | exch
  deriving DecidableEq, Repr

/-- `VCAS` forms (14 R259) -/
inductive CasK where
  | w32 | w64
  deriving DecidableEq, Repr

/-- order hints (03 R41) -/
inductive Hint where
  | plain | acquire | release | nontemporal
  deriving DecidableEq, Repr

/-- wake kinds of `VSUSP` (17 R299) -/
inductive SuspK where
  | explicit | frameLoad
  deriving DecidableEq, Repr

/-- `SADD`, `SSUB` forms (05 R89) -/
inductive SAddK where
  | i32 | u64 | su32
  deriving DecidableEq, Repr

/-- `SMUL` forms (05 R90) -/
inductive SMulK where
  | lo | hiI32 | hiU32 | u64lo
  deriving DecidableEq, Repr

/-- uniform compare kinds (05 R110) -/
inductive SCmpK where
  | i32 | u32 | u64
  deriving DecidableEq, Repr

/-- `QANY` forms (05 R112) -/
inductive AnyK where
  | any | all | none
  deriving DecidableEq, Repr

/-- `XGET` forms (05 R102) -/
inductive XgetK where
  | base | stride
  deriving DecidableEq, Repr

/-- fence scopes (13 R229) -/
inductive Scope where
  | lane | group | team | core | device | system
  deriving DecidableEq, Repr

/-- fence kinds (13 R230) -/
inductive FenceK where
  | acq | rel | acqrel | sc
  deriving DecidableEq, Repr

/-- paths a `FENCE` names: scratch, engine, host (03 R46) -/
inductive PathMask where
  | s | e | se | h | sh | eh | seh
  deriving DecidableEq, Repr

/-- engines of `FORK` (11 R184) -/
inductive ForkK where
  | me | ce | both
  deriving DecidableEq, Repr

/-- `BINQ` forms (17 R302) -/
inductive BinqK where
  | occupancy | wake
  deriving DecidableEq, Repr

/-- `TLBI` forms (20 R360) -/
inductive TlbiK where
  | one | all
  deriving DecidableEq, Repr

/-- where `HRET` resumes (01 R12) -/
inductive HretK where
  | saved | uniform | vector
  deriving DecidableEq, Repr

/-- `TCOLOP` operations (11 R208) -/
inductive ColOpK where
  | addF32 | addI32 | maxF32 | set
  deriving DecidableEq, Repr

/-- The address field of format M (03 R41): an affine register, or the vector pair v(2n):v(2n+1). -/
inductive Adr where
  | aff (x : Nat)
  | pair (n : Nat)
  deriving DecidableEq, Repr

/-- One footprint entry of a card (03 R49): kind 0 unused, 1 R, 2 W, 3 F. -/
structure Footprint where
  kind : Nat
  base : Nat
  len : Nat
  deriving DecidableEq, Repr

/-- A copy job card as read from its 128 bytes (03 R49), with the shape record read for it (R50).
`bad` says that the bytes or the record break R49 or R50 (R51). -/
structure Card where
  addr : BitVec 64
  raw : List (BitVec 8)
  opcode : Nat
  csumKind : Nat
  chainIn : Bool
  chainOut : Bool
  compare : Bool
  esizeLog : Nat
  signal : Nat
  keySlot : Nat
  source : BitVec 64
  dest : BitVec 64
  next : BitVec 64
  tagAddr : BitVec 64
  iv : Nat
  csum : BitVec 32
  footprints : List Footprint
  collective : BitVec 64
  membership : Nat
  collOp : Nat
  extents : List Nat
  srcStrides : List Int
  dstStrides : List Int
  perm : List Nat
  bad : Bool
  deriving DecidableEq, Repr

/-- One grant extent (19 R322). -/
structure Extent where
  first : Nat
  count : Nat
  r : Bool
  w : Bool
  x : Bool
  shared : Bool
  deriving DecidableEq, Repr

/-- The quotas of an owner that the host changes (19 R321, 22 R385). -/
structure Quotas where
  sp : Nat
  sram : Nat
  frames : Nat
  linkShare : Nat
  ceSlots : Nat
  deriving DecidableEq, Repr

/-- What an inbound access of a peer does (15 R281, R284, R285). `stream`: bytes of a COLL stream of `total`
bytes, from byte `pos` of it; `arrive`: the OR of arrival bits that ends the stream which began at `start`. -/
inductive PeerOp where
  | read (size : Nat)
  | write (data : List (BitVec 8))
  | stream (pos total : Nat) (data : List (BitVec 8))
  | arrive (bits : BitVec 32) (start : Nat)
  | add (k : AtAddK) (v : BitVec 64)
  | minmax (k : AtMmK) (v : BitVec 32)
  | bit (k : AtBitK) (v : BitVec 32)
  | cas (k : CasK) (compare new : BitVec 64)
  deriving DecidableEq, Repr

/-- The quantities with fuse-set ceilings (22 R409). -/
inductive Regulator where
  | clock | power | voltage | pcie | psiek
  deriving DecidableEq, Repr

/-- The operations and events of the part, one for each row of the opcode table. -/
inductive Instr where
  | vadd (h : Hdr) (d a b : Nat) (k : AddK)
  | vsub (h : Hdr) (d a b : Nat) (k : AddK)
  | vmul (h : Hdr) (d a b : Nat) (k : MulK)
  | vmad (h : Hdr) (d a b : Nat)
  | vand (h : Hdr) (d a b : Nat)
  | vor (h : Hdr) (d a b : Nat)
  | vxor (h : Hdr) (d a b : Nat)
  | vandn (h : Hdr) (d a b : Nat)
  | vshl (h : Hdr) (d a b : Nat)
  | vshr (h : Hdr) (d a b : Nat) (k : ShrK)
  | vmin (h : Hdr) (d a b : Nat) (k : SgnK)
  | vmax (h : Hdr) (d a b : Nat) (k : SgnK)
  | vaddi (h : Hdr) (d a : Nat) (imm : BitVec 8)
  | vshi (h : Hdr) (d a : Nat) (k : ShiK) (n : Nat)
  | vmovi (h : Hdr) (d : Nat) (imm : BitVec 14)
  | vmov (h : Hdr) (d a : Nat)
  | vnot (h : Hdr) (d a : Nat)
  | vneg (h : Hdr) (d a : Nat)
  | vabs (h : Hdr) (d a : Nat)
  | vpopc (h : Hdr) (d a : Nat)
  | vclz (h : Hdr) (d a : Nat)
  | vbrev (h : Hdr) (d a : Nat)
  | vsext8 (h : Hdr) (d a : Nat)
  | vsext16 (h : Hdr) (d a : Nat)
  | vfadd (h : Hdr) (d a b : Nat) (k : FmtK)
  | vfsub (h : Hdr) (d a b : Nat) (k : FmtK)
  | vfmul (h : Hdr) (d a b : Nat) (k : FmtK)
  | vfma (h : Hdr) (d a b : Nat) (k : FmtK)
  | vfmin (h : Hdr) (d a b : Nat) (k : FmtK)
  | vfmax (h : Hdr) (d a b : Nat) (k : FmtK)
  | vfabs (h : Hdr) (d a : Nat) (k : FmtK)
  | vfneg (h : Hdr) (d a : Nat) (k : FmtK)
  | vfrint (h : Hdr) (d a : Nat) (k : FmtK)
  | vfcls (h : Hdr) (d a : Nat) (k : FmtK)
  | vfscl (h : Hdr) (d a b : Nat)
  | vmovl (h : Hdr) (d : Nat) (lit : BitVec 32)
  | vcvt (h : Hdr) (d a : Nat) (dst src : CvtKind) (r : Rnd)
  | vcvt6 (h : Hdr) (d a : Nat) (k : Cvt6K) (r : Rnd)
  | vqnt (h : Hdr) (d a n f : Nat)
  | vdqnt (h : Hdr) (d a n f : Nat)
  | vpkh (h : Hdr) (d a b : Nat) (k : PkhK)
  | vupkh (h : Hdr) (d a : Nat) (k : UpkhK)
  | vcmpeq (h : Hdr) (d a b : Nat) (k : CmpK)
  | vcmpne (h : Hdr) (d a b : Nat) (k : CmpK)
  | vcmplt (h : Hdr) (d a b : Nat) (k : CmpK)
  | vcmple (h : Hdr) (d a b : Nat) (k : CmpK)
  | vsel (h : Hdr) (d a b : Nat)
  | plog (h : Hdr) (d a b : Nat) (k : LogK)
  | pmov (h : Hdr) (d a : Nat) (k : MovK)
  | vshfl (h : Hdr) (d a b : Nat)
  | vshflx (h : Hdr) (d a n : Nat)
  | vshflu (h : Hdr) (d a n : Nat)
  | vshfld (h : Hdr) (d a n : Nat)
  | vballot (h : Hdr) (d a : Nat)
  | vred (h : Hdr) (d a : Nat) (k : RedK)
  | vaff (h : Hdr) (d a : Nat)
  | vbcast (h : Hdr) (d a : Nat)
  | vld (h : Hdr) (d : Nat) (a : Adr) (l : Nat) (k : MemK) (t : Hint)
  | vldnf (h : Hdr) (d : Nat) (a : Adr) (l : Nat) (k : MemK) (t : Hint)
  | vst (h : Hdr) (d : Nat) (a : Adr) (l : Nat) (k : MemK) (t : Hint)
  | vldn (h : Hdr) (d : Nat) (a : Adr) (l : Nat) (k : PackK) (t : Hint)
  | vstn (h : Hdr) (d : Nat) (a : Adr) (l : Nat) (k : PackK) (t : Hint)
  | vatadd (h : Hdr) (d : Nat) (a : Adr) (l : Nat) (k : AtAddK) (t : Hint)
  | vatmm (h : Hdr) (d : Nat) (a : Adr) (l : Nat) (k : AtMmK) (t : Hint)
  | vatbit (h : Hdr) (d : Nat) (a : Adr) (l : Nat) (k : AtBitK) (t : Hint)
  | vcas (h : Hdr) (d : Nat) (a : Adr) (l : Nat) (k : CasK) (t : Hint)
  | vldxW (h : Hdr) (d x o l : Nat)
  | vldxD (h : Hdr) (d x o l : Nat)
  | vstxW (h : Hdr) (d x o l : Nat)
  | vstxD (h : Hdr) (d x o l : Nat)
  | vldf (h : Hdr) (d : Nat) (a : Adr) (l : Nat) (t : Hint)
  | vtrd (h : Hdr) (t : Nat) (c : Bool) (i n v : Nat)
  | vtwr (h : Hdr) (t : Nat) (c : Bool) (i n v : Nat)
  | vtaddF32 (h : Hdr) (t : Nat) (c : Bool) (i n v : Nat)
  | vtmaxF32 (h : Hdr) (t : Nat) (c : Bool) (i n v : Nat)
  | vyield (h : Hdr)
  | vbr (h : Hdr) (off : BitVec 20)
  | vjtab (h : Hdr) (a b : Nat)
  | vcall (h : Hdr) (off : BitVec 20)
  | vcallx (h : Hdr) (a : Nat)
  | vret (h : Hdr)
  | vsusp (h : Hdr) (d a : Nat) (k : SuspK)
  | vspawn (h : Hdr) (d a b : Nat)
  | vexit (h : Hdr)
  | vrcp (h : Hdr) (d a : Nat)
  | vrsq (h : Hdr) (d a : Nat)
  | vsqrt (h : Hdr) (d a : Nat)
  | vexp2 (h : Hdr) (d a : Nat)
  | vlog2 (h : Hdr) (d a : Nat)
  | vtanh (h : Hdr) (d a : Nat)
  | vdiv (h : Hdr) (d a b : Nat)
  | sadd (h : Hdr) (d a b : Nat) (k : SAddK)
  | ssub (h : Hdr) (d a b : Nat) (k : SAddK)
  | smul (h : Hdr) (d a b : Nat) (k : SMulK)
  | sand (h : Hdr) (d a b : Nat)
  | sor (h : Hdr) (d a b : Nat)
  | sxor (h : Hdr) (d a b : Nat)
  | sshl (h : Hdr) (d a b : Nat)
  | sshr (h : Hdr) (d a b : Nat) (k : ShrK)
  | smin (h : Hdr) (d a b : Nat) (k : SgnK)
  | smax (h : Hdr) (d a b : Nat) (k : SgnK)
  | saddi (h : Hdr) (d a : Nat) (imm : BitVec 8)
  | smovi (h : Hdr) (d : Nat) (imm : BitVec 14)
  | smovl (h : Hdr) (d : Nat) (lit : BitVec 32)
  | smov (h : Hdr) (d a : Nat)
  | snot (h : Hdr) (d a : Nat)
  | spopc (h : Hdr) (d a : Nat)
  | sclz (h : Hdr) (d a : Nat)
  | sreadl (h : Hdr) (d a b : Nat)
  | slui (h : Hdr) (d : Nat) (imm : BitVec 14)
  | xset (h : Hdr) (d a b : Nat)
  | xaddb (h : Hdr) (d b : Nat)
  | xaddbi (h : Hdr) (d : Nat) (imm : BitVec 8)
  | xstr (h : Hdr) (d b : Nat)
  | xget (h : Hdr) (d a : Nat) (k : XgetK)
  | xadd (h : Hdr) (d a b : Nat)
  | xmuls (h : Hdr) (d : Nat) (imm : BitVec 8)
  | scmpeq (h : Hdr) (d a b : Nat) (k : SCmpK)
  | scmpne (h : Hdr) (d a b : Nat) (k : SCmpK)
  | scmplt (h : Hdr) (d a b : Nat) (k : SCmpK)
  | scmple (h : Hdr) (d a b : Nat) (k : SCmpK)
  | qlog (h : Hdr) (d a b : Nat) (k : LogK)
  | qany (h : Hdr) (d a : Nat) (k : AnyK)
  | qmov (h : Hdr) (d a : Nat) (k : MovK)
  | bra (h : Hdr) (off : BitVec 20)
  | brx (h : Hdr) (a : Nat)
  | barg (h : Hdr)
  | bar (h : Hdr) (nowait : Bool) (id : Nat)
  | fence (h : Hdr) (p : PathMask) (k : FenceK) (sc : Scope)
  | nop (h : Hdr)
  | end_ (h : Hdr)
  | waitt (h : Hdr) (a : Nat)
  | launch (h : Hdr) (d a : Nat)
  | fork (h : Hdr) (a b : Nat) (k : ForkK)
  | rdv (h : Hdr) (id : Nat)
  | cpy (h : Hdr) (d a : Nat)
  | cpyw (h : Hdr) (d a : Nat)
  | rbind (h : Hdr) (d a : Nat)
  | rpub (h : Hdr) (d n : Nat)
  | rwaitf (h : Hdr) (d n : Nat)
  | steep (h : Hdr) (d a b : Nat)
  | meas (h : Hdr) (d a b : Nat)
  | trap (h : Hdr) (code : BitVec 14)
  | cbegin (h : Hdr) (off : BitVec 20)
  | cend (h : Hdr)
  | tlbw (h : Hdr) (d a : Nat)
  | tlbi (h : Hdr) (a : Nat) (k : TlbiK)
  | pgreq (h : Hdr) (d a : Nat)
  | framea (h : Hdr) (d : Nat)
  | framef (h : Hdr) (d a : Nat)
  | migr (h : Hdr) (d a b : Nat)
  | csrr (h : Hdr) (d : Nat) (csr : BitVec 12)
  | csrw (h : Hdr) (d : Nat) (csr : BitVec 12)
  | hret (h : Hdr) (a : Nat) (k : HretK)
  | halto (h : Hdr) (a : Nat)
  | discard (h : Hdr) (d a b : Nat)
  | bincfg (h : Hdr) (d a b : Nat)
  | binwake (h : Hdr) (d a : Nat)
  | binflush (h : Hdr) (d : Nat)
  | binq (h : Hdr) (d a : Nat) (k : BinqK)
  | frameld (h : Hdr)
  | tbind (h : Hdr) (d a : Nat)
  | tzero (h : Hdr) (d : Nat)
  | tcolop (h : Hdr) (d a b : Nat) (k : ColOpK)
  | tload (h : Hdr) (d a : Nat)
  | tstore (h : Hdr) (d a : Nat)
  | tacc (h : Hdr) (d a : Nat)
  | reservedOpcode (w : BitVec 32)
  | mxcfg (sp aSlot bSlot : Nat) (paired : Bool) (k : Nat)
  | mxzero (sp acc : Nat)
  | mxwait (sp ring n : Nat)
  | mxrel (sp ring n : Nat)
  | mxmma (sp acc ra rb k : Nat)
  | mxdrain (sp acc slot : Nat) (ring : Bool) (target : Nat)
  | mxloop (sp count back : Nat)
  | mxsig (sp id : Nat)
  | mxfence (sp : Nat)
  | mxend (sp : Nat)
  | mxIllegalCommand (sp : Nat) (w : BitVec 64)
  | copy (chain : Nat) (c : Card)
  | copyAead (chain : Nat) (c : Card)
  | fill (chain : Nat) (c : Card)
  | post (chain : Nat) (c : Card)
  | bcast (chain : Nat) (c : Card)
  | sig (chain : Nat) (c : Card)
  | promise (chain : Nat)
  | stpFill (job : Nat)
  | stpAddF32 (job : Nat)
  | stpScale (job : Nat)
  | stpMaxfold (job : Nat)
  | stpSumx (job : Nat)
  | stpCvt (job : Nat)
  | stpXsum (job : Nat)
  | runStart (sp : Nat)
  | reset (imageOk : Bool) (version step : Nat)
  | spStart (sp : Nat)
  | meWake (sp : Nat)
  | forcedRunBoundary (sp : Nat)
  | memoryResult (gid lane reg : Nat)
  | vldfDelivery (team bin row : Nat) (inCask : Bool)
  | waittDeadline (gid : Nat)
  | gtcmpMatch (gid : Nat)
  | promiseMissed (gid : Nat)
  | flushTimer (team bin : Nat)
  | binLaunch (team bin : Nat)
  | caskRefill (team bin : Nat)
  | missQueued (owner : Nat)
  | walkHandlerLaunch (owner : Nat)
  | pageHandlerLaunch (sp : Nat)
  | requestHandlerLaunch (owner : Nat)
  | haltRecord (owner : Nat)
  | trapRecord (owner : Nat)
  | syscallSlotPoll (owner : Nat)
  | teamPlacement (grid : Nat)
  | gangStart (grid : Nat)
  | gangAgeing (owner : Nat)
  | launchAccept (owner : Nat)
  | teamRetire (team : Nat)
  | gridCompletion (grid : Nat)
  | receiptWrite (grid : Nat)
  | preemption (sp : Nat) (incoming : Option Nat)
  | bankSwap (sp : Nat)
  | contextSpill (sp : Nat)
  | contextFill (sp ctx : Nat)
  | teamEviction (team : Nat)
  | teamRestore (team : Nat)
  | rackingEnd (owner : Nat) (va : BitVec 64)
  | peerLost (dev cause : Nat)
  | portDown (port : Nat)
  | flitReceive (port seq : Nat) (crcOk tagOk : Bool) (corrected : Nat)
  | peerAccess (dev owner offset : Nat) (op : PeerOp)
  | packetReceive (flow epoch ctr : Nat) (tagOk : Bool) (addr : Nat) (isWrite : Bool)
  | keyRegisterLoad (port owner : Nat)
  | hostCompletion (owner : Nat) (request : Nat) (kBit : Bool) (integrityOk linkOk errorStatus : Bool)
  | completionTimeout (owner request : Nat)
  | keySetErase (owner : Nat)
  | lockWalker (owner : Nat)
  | lq (owner : Nat) (va : BitVec 64)
  | reply (owner : Nat) (seq : BitVec 32)
  | hatom (owner : Nat) (v : BitVec 32)
  | registerPageWrite (owner offset width : Nat) (v : BitVec 64)
  | lockedRegisterWrite (owner : Nat) (reg : Nat) (v : BitVec 32)
  | telemetryRead (owner offset width : Nat)
  | lockInterface (owner : Nat)
  | startInterface (owner : Nat)
  | stopInterface (owner : Nat)
  | kSetGo (owner : Nat)
  | spdmRequest (request : Nat)
  | createOwner (desc : List (BitVec 8)) (tenantKey : List (BitVec 8))
  | destroyOwner (owner : Nat)
  | grant (owner : Nat) (extents : List Extent)
  | quota (owner : Nat) (q : Quotas)
  | peer (owner : Nat) (table : List Nat)
  | slotAssign (owner : Nat) (slots : List Nat)
  | diag (owner : Option Nat)
  | logRead (violations : Bool)
  | setReceiptRing (owner : Nat) (va : BitVec 64) (count : Nat)
  | keyPut (owner slot : Nat) (key : BitVec 256) (authenticated : Bool)
  | allow (owner : Nat) (list : BitVec 32) (authenticated : Bool)
  | worldShare (owner dev : Nat) (key : BitVec 256)
  | fusedMinimumRaise (version : Nat) (signed : Bool)
  | regulatorSetting (q : Regulator) (value : Nat)
  | kilnLockstepMismatch
  | rowRemap (bank row : Nat) (bad : List Nat)
  | bondSteering (channel bond : Nat)
  | coreRetire (core : Nat)
  | governorStep (die step : Nat)
  | currentClamp
  | thermtrip
  deriving DecidableEq, Repr

end Sys2Proof
end

