-- ==== Sys2Proof/WellFormed.lean ====
section
/-! DEFINITION. Well-formed instructions: every field in the range its encoding has, and the static
checks of 03 R42, R43, R45 and R46 (ILLEGAL_OP under R47). The checks that need the allocation (R33)
are made by the meanings. -/

set_option linter.unusedVariables false

namespace Sys2Proof

def Hdr.wf (h : Hdr) : Bool := decide (h.g < 8)

def Adr.wf : Adr → Bool
  | .aff x => decide (x < 16)
  | .pair n => decide (n < 32)

/-- Sub-field value of AddK. -/
def AddK.code : AddK → Nat
  | .i32 => 0
  | .si32 => 1
  | .su32 => 2
  | .i16x2 => 3

/-- Sub-field value of MulK. -/
def MulK.code : MulK → Nat
  | .lo => 0
  | .hiI32 => 1
  | .hiU32 => 2
  | .i16x2 => 3

/-- Sub-field value of ShrK. -/
def ShrK.code : ShrK → Nat
  | .l => 0
  | .a => 1

/-- Sub-field value of SgnK. -/
def SgnK.code : SgnK → Nat
  | .i32 => 0
  | .u32 => 1

/-- Sub-field value of ShiK. -/
def ShiK.code : ShiK → Nat
  | .shl => 0
  | .shrL => 1
  | .shrA => 2
  | .rotr => 3

/-- Sub-field value of FmtK. -/
def FmtK.code : FmtK → Nat
  | .f32 => 0
  | .f16x2 => 1
  | .bf16x2 => 2

/-- Sub-field value of Rnd. -/
def Rnd.code : Rnd → Nat
  | .rne => 0
  | .rtz => 1
  | .rdn => 2
  | .rup => 3

/-- Sub-field value of CvtKind. -/
def CvtKind.code : CvtKind → Nat
  | .i32 => 0
  | .u32 => 1
  | .f32 => 2
  | .f16 => 3
  | .bf16 => 4
  | .e4m3 => 5
  | .e5m2 => 6

/-- Sub-field value of Cvt6K. -/
def Cvt6K.code : Cvt6K → Nat
  | .toE3m2 => 0
  | .toE2m3 => 1
  | .fromE3m2 => 2
  | .fromE2m3 => 3

/-- Sub-field value of PkhK. -/
def PkhK.code : PkhK → Nat
  | .f16x2 => 0
  | .bf16x2 => 1

/-- Sub-field value of UpkhK. -/
def UpkhK.code : UpkhK → Nat
  | .loF16 => 0
  | .hiF16 => 1
  | .loBf16 => 2
  | .hiBf16 => 3

/-- Sub-field value of CmpK. -/
def CmpK.code : CmpK → Nat
  | .i32 => 0
  | .u32 => 1
  | .f32 => 2

/-- Sub-field value of LogK. -/
def LogK.code : LogK → Nat
  | .and => 0
  | .or => 1
  | .xor => 2
  | .andn => 3

/-- Sub-field value of MovK. -/
def MovK.code : MovK → Nat
  | .cpy => 0
  | .not => 1
  | .set => 2
  | .clr => 3

/-- Sub-field value of RedK. -/
def RedK.code : RedK → Nat
  | .addI32 => 0
  | .minI32 => 1
  | .maxI32 => 2
  | .addF32 => 3

/-- Sub-field value of MemK. -/
def MemK.code : MemK → Nat
  | .b8 => 0
  | .b16 => 1
  | .w32 => 2
  | .w64 => 3

/-- Sub-field value of PackK. -/
def PackK.code : PackK → Nat
  | .n4 => 0
  | .n6 => 1
  | .n8 => 2

/-- Sub-field value of AtAddK. -/
def AtAddK.code : AtAddK → Nat
  | .i32 => 0
  | .u64 => 1
  | .f32 => 2

/-- Sub-field value of AtMmK. -/
def AtMmK.code : AtMmK → Nat
  | .minI32 => 0
  | .maxI32 => 1
  | .maxF32 => 2
  | .minF32 => 3

/-- Sub-field value of AtBitK. -/
def AtBitK.code : AtBitK → Nat
  | .and => 0
  | .or => 1
  | .xor => 2
  | .exch => 3

/-- Sub-field value of CasK. -/
def CasK.code : CasK → Nat
  | .w32 => 0
  | .w64 => 1

/-- Sub-field value of Hint. -/
def Hint.code : Hint → Nat
  | .plain => 0
  | .acquire => 1
  | .release => 2
  | .nontemporal => 3

/-- Sub-field value of SuspK. -/
def SuspK.code : SuspK → Nat
  | .explicit => 0
  | .frameLoad => 1

/-- Sub-field value of SAddK. -/
def SAddK.code : SAddK → Nat
  | .i32 => 0
  | .u64 => 1
  | .su32 => 2

/-- Sub-field value of SMulK. -/
def SMulK.code : SMulK → Nat
  | .lo => 0
  | .hiI32 => 1
  | .hiU32 => 2
  | .u64lo => 3

/-- Sub-field value of SCmpK. -/
def SCmpK.code : SCmpK → Nat
  | .i32 => 0
  | .u32 => 1
  | .u64 => 2

/-- Sub-field value of AnyK. -/
def AnyK.code : AnyK → Nat
  | .any => 0
  | .all => 1
  | .none => 2

/-- Sub-field value of XgetK. -/
def XgetK.code : XgetK → Nat
  | .base => 0
  | .stride => 1

/-- Sub-field value of Scope. -/
def Scope.code : Scope → Nat
  | .lane => 0
  | .group => 1
  | .team => 2
  | .core => 3
  | .device => 4
  | .system => 5

/-- Sub-field value of FenceK. -/
def FenceK.code : FenceK → Nat
  | .acq => 0
  | .rel => 1
  | .acqrel => 2
  | .sc => 3

/-- Sub-field value of PathMask. -/
def PathMask.code : PathMask → Nat
  | .s => 1
  | .e => 2
  | .se => 3
  | .h => 4
  | .sh => 5
  | .eh => 6
  | .seh => 7

/-- Sub-field value of ForkK. -/
def ForkK.code : ForkK → Nat
  | .me => 1
  | .ce => 2
  | .both => 3

/-- Sub-field value of BinqK. -/
def BinqK.code : BinqK → Nat
  | .occupancy => 0
  | .wake => 1

/-- Sub-field value of TlbiK. -/
def TlbiK.code : TlbiK → Nat
  | .one => 0
  | .all => 1

/-- Sub-field value of HretK. -/
def HretK.code : HretK → Nat
  | .saved => 0
  | .uniform => 1
  | .vector => 2

/-- Sub-field value of ColOpK. -/
def ColOpK.code : ColOpK → Nat
  | .addF32 => 0
  | .addI32 => 1
  | .maxF32 => 2
  | .set => 3

/-- The CSR numbers of 20 R367. -/
def csrKnown (n : BitVec 12) : Bool :=
  [0x001, 0x002, 0x003, 0x010, 0x011, 0x012, 0x020, 0x021, 0x022, 0x030, 0x031,
   0x040, 0x041, 0x042, 0x043, 0x044, 0x045, 0x0C8, 0x0D0].contains n.toNat

/-- The CSRs that 20 R367 gives as R/W. -/
def csrWritable (n : BitVec 12) : Bool := [0x001, 0x002, 0x003, 0x012, 0x022, 0x0C8].contains n.toNat

/-- A card constructor carries a card of its own kind (03 R49). -/
def Card.isKind (c : Card) (op collOp : Nat) : Bool := c.opcode == op && (op != 4 || c.collOp == collOp)

/-- The instruction is one the encoding can hold (03 R41-R43, R48). -/
def Instr.wf : Instr → Bool
  | .vadd h d a b _ => h.wf && decide (d < 64) && decide (a < 64) && decide (b < 64)
  | .vsub h d a b _ => h.wf && decide (d < 64) && decide (a < 64) && decide (b < 64)
  | .vmul h d a b _ => h.wf && decide (d < 64) && decide (a < 64) && decide (b < 64)
  | .vmad h d a b => h.wf && decide (d < 64) && decide (a < 64) && decide (b < 64)
  | .vand h d a b => h.wf && decide (d < 64) && decide (a < 64) && decide (b < 64)
  | .vor h d a b => h.wf && decide (d < 64) && decide (a < 64) && decide (b < 64)
  | .vxor h d a b => h.wf && decide (d < 64) && decide (a < 64) && decide (b < 64)
  | .vandn h d a b => h.wf && decide (d < 64) && decide (a < 64) && decide (b < 64)
  | .vshl h d a b => h.wf && decide (d < 64) && decide (a < 64) && decide (b < 64)
  | .vshr h d a b _ => h.wf && decide (d < 64) && decide (a < 64) && decide (b < 64)
  | .vmin h d a b _ => h.wf && decide (d < 64) && decide (a < 64) && decide (b < 64)
  | .vmax h d a b _ => h.wf && decide (d < 64) && decide (a < 64) && decide (b < 64)
  | .vaddi h d a _ => h.wf && decide (d < 64) && decide (a < 64)
  | .vshi h d a _ n => h.wf && decide (d < 64) && decide (a < 64) && decide (n < 32)
  | .vmovi h d _ => h.wf && decide (d < 64)
  | .vmov h d a => h.wf && decide (d < 64) && decide (a < 64)
  | .vnot h d a => h.wf && decide (d < 64) && decide (a < 64)
  | .vneg h d a => h.wf && decide (d < 64) && decide (a < 64)
  | .vabs h d a => h.wf && decide (d < 64) && decide (a < 64)
  | .vpopc h d a => h.wf && decide (d < 64) && decide (a < 64)
  | .vclz h d a => h.wf && decide (d < 64) && decide (a < 64)
  | .vbrev h d a => h.wf && decide (d < 64) && decide (a < 64)
  | .vsext8 h d a => h.wf && decide (d < 64) && decide (a < 64)
  | .vsext16 h d a => h.wf && decide (d < 64) && decide (a < 64)
  | .vfadd h d a b _ => h.wf && decide (d < 64) && decide (a < 64) && decide (b < 64)
  | .vfsub h d a b _ => h.wf && decide (d < 64) && decide (a < 64) && decide (b < 64)
  | .vfmul h d a b _ => h.wf && decide (d < 64) && decide (a < 64) && decide (b < 64)
  | .vfma h d a b _ => h.wf && decide (d < 64) && decide (a < 64) && decide (b < 64)
  | .vfmin h d a b _ => h.wf && decide (d < 64) && decide (a < 64) && decide (b < 64)
  | .vfmax h d a b _ => h.wf && decide (d < 64) && decide (a < 64) && decide (b < 64)
  | .vfabs h d a _ => h.wf && decide (d < 64) && decide (a < 64)
  | .vfneg h d a _ => h.wf && decide (d < 64) && decide (a < 64)
  | .vfrint h d a _ => h.wf && decide (d < 64) && decide (a < 64)
  | .vfcls h d a _ => h.wf && decide (d < 64) && decide (a < 64)
  | .vfscl h d a b => h.wf && decide (d < 64) && decide (a < 64) && decide (b < 64)
  | .vmovl h d _ => h.wf && decide (d < 64)
  | .vcvt h d a dst src _ => h.wf && decide (d < 64) && decide (a < 64) && dst != src
  | .vcvt6 h d a k r => h.wf && decide (d < 64) && decide (a < 64) && (k.code < 2 || r == .rne)
  | .vqnt h d a n f => h.wf && decide (d < 64) && decide (a < 64) && decide (n < 32) && decide (f < 8)
  | .vdqnt h d a n f => h.wf && decide (d < 64) && decide (a < 64) && decide (n < 32) && decide (f < 8)
  | .vpkh h d a b _ => h.wf && decide (d < 64) && decide (a < 64) && decide (b < 64)
  | .vupkh h d a _ => h.wf && decide (d < 64) && decide (a < 64)
  | .vcmpeq h d a b _ => h.wf && decide (d < 64) && decide (a < 64) && decide (b < 64)
  | .vcmpne h d a b _ => h.wf && decide (d < 64) && decide (a < 64) && decide (b < 64)
  | .vcmplt h d a b _ => h.wf && decide (d < 64) && decide (a < 64) && decide (b < 64)
  | .vcmple h d a b _ => h.wf && decide (d < 64) && decide (a < 64) && decide (b < 64)
  | .vsel h d a b => h.wf && decide (d < 64) && decide (a < 64) && decide (b < 64) && decide (h.g < 7)
  | .plog h d a b _ => h.wf && decide (d < 64) && decide (a < 64) && decide (b < 64)
  | .pmov h d a k => h.wf && decide (d < 64) && decide (a < 64) && (k.code < 2 || a == 0)
  | .vshfl h d a b => h.wf && decide (d < 64) && decide (a < 64) && decide (b < 64)
  | .vshflx h d a n => h.wf && decide (d < 64) && decide (a < 64) && decide (n < 64)
  | .vshflu h d a n => h.wf && decide (d < 64) && decide (a < 64) && decide (n < 64)
  | .vshfld h d a n => h.wf && decide (d < 64) && decide (a < 64) && decide (n < 64)
  | .vballot h d a => h.wf && decide (d < 64) && decide (a < 64)
  | .vred h d a _ => h.wf && decide (d < 64) && decide (a < 64)
  | .vaff h d a => h.wf && decide (d < 64) && decide (a < 16)
  | .vbcast h d a => h.wf && decide (d < 64) && decide (a < 64)
  | .vld h d a l _ t => h.wf && decide (d < 64) && a.wf && decide (l < 16) && t != .release
  | .vldnf h d a l _ t => h.wf && decide (d < 64) && a.wf && decide (l < 16) && t != .release
  | .vst h d a l _ t => h.wf && decide (d < 64) && a.wf && decide (l < 16) && t != .acquire
  | .vldn h d a l _ t => h.wf && decide (d < 64) && a.wf && decide (l < 16) && t != .release
  | .vstn h d a l _ t => h.wf && decide (d < 64) && a.wf && decide (l < 16) && t != .acquire
  | .vatadd h d a l _ t => h.wf && decide (d < 64) && a.wf && decide (l < 16) && t != .nontemporal
  | .vatmm h d a l _ t => h.wf && decide (d < 64) && a.wf && decide (l < 16) && t != .nontemporal
  | .vatbit h d a l _ t => h.wf && decide (d < 64) && a.wf && decide (l < 16) && t != .nontemporal
  | .vcas h d a l _ t => h.wf && decide (d < 64) && a.wf && decide (l < 16) && t != .nontemporal
  | .vldxW h d x o l => h.wf && decide (d < 64) && decide (x < 16) && decide (o < 64) && decide (l < 16)
  | .vldxD h d x o l => h.wf && decide (d < 64) && decide (x < 16) && decide (o < 64) && decide (l < 16)
  | .vstxW h d x o l => h.wf && decide (d < 64) && decide (x < 16) && decide (o < 64) && decide (l < 16)
  | .vstxD h d x o l => h.wf && decide (d < 64) && decide (x < 16) && decide (o < 64) && decide (l < 16)
  | .vldf h d a l t => h.wf && decide (d < 64) && a.wf && decide (l < 16) && t != .release
  | .vtrd h t _ i n v => h.wf && decide (t < 16) && decide (i < 32) && decide (n < 16) && decide (v < 64)
  | .vtwr h t _ i n v => h.wf && decide (t < 16) && decide (i < 32) && decide (n < 16) && decide (v < 64)
  | .vtaddF32 h t _ i n v => h.wf && decide (t < 16) && decide (i < 32) && decide (n < 16) && decide (v < 64)
  | .vtmaxF32 h t _ i n v => h.wf && decide (t < 16) && decide (i < 32) && decide (n < 16) && decide (v < 64)
  | .vyield h => h.wf
  | .vbr h _ => h.wf
  | .vjtab h a b => h.wf && decide (a < 64) && decide (b < 64)
  | .vcall h _ => h.wf
  | .vcallx h a => h.wf && decide (a < 64)
  | .vret h => h.wf
  | .vsusp h d a _ => h.wf && decide (d < 64) && decide (a < 16)
  | .vspawn h d a b => h.wf && decide (d < 64) && decide (a < 16) && decide (b < 64)
  | .vexit h => h.wf
  | .vrcp h d a => h.wf && decide (d < 64) && decide (a < 64)
  | .vrsq h d a => h.wf && decide (d < 64) && decide (a < 64)
  | .vsqrt h d a => h.wf && decide (d < 64) && decide (a < 64)
  | .vexp2 h d a => h.wf && decide (d < 64) && decide (a < 64)
  | .vlog2 h d a => h.wf && decide (d < 64) && decide (a < 64)
  | .vtanh h d a => h.wf && decide (d < 64) && decide (a < 64)
  | .vdiv h d a b => h.wf && decide (d < 64) && decide (a < 64) && decide (b < 64)
  | .sadd h d a b _ => h.wf && decide (d < 64) && decide (a < 64) && decide (b < 64)
  | .ssub h d a b _ => h.wf && decide (d < 64) && decide (a < 64) && decide (b < 64)
  | .smul h d a b _ => h.wf && decide (d < 64) && decide (a < 64) && decide (b < 64)
  | .sand h d a b => h.wf && decide (d < 64) && decide (a < 64) && decide (b < 64)
  | .sor h d a b => h.wf && decide (d < 64) && decide (a < 64) && decide (b < 64)
  | .sxor h d a b => h.wf && decide (d < 64) && decide (a < 64) && decide (b < 64)
  | .sshl h d a b => h.wf && decide (d < 64) && decide (a < 64) && decide (b < 64)
  | .sshr h d a b _ => h.wf && decide (d < 64) && decide (a < 64) && decide (b < 64)
  | .smin h d a b _ => h.wf && decide (d < 64) && decide (a < 64) && decide (b < 64)
  | .smax h d a b _ => h.wf && decide (d < 64) && decide (a < 64) && decide (b < 64)
  | .saddi h d a _ => h.wf && decide (d < 64) && decide (a < 64)
  | .smovi h d _ => h.wf && decide (d < 64)
  | .smovl h d _ => h.wf && decide (d < 64)
  | .smov h d a => h.wf && decide (d < 64) && decide (a < 64)
  | .snot h d a => h.wf && decide (d < 64) && decide (a < 64)
  | .spopc h d a => h.wf && decide (d < 64) && decide (a < 64)
  | .sclz h d a => h.wf && decide (d < 64) && decide (a < 64)
  | .sreadl h d a b => h.wf && decide (d < 64) && decide (a < 64) && decide (b < 64)
  | .slui h d _ => h.wf && decide (d < 64)
  | .xset h d a b => h.wf && decide (d < 16) && decide (a < 64) && decide (b < 64)
  | .xaddb h d b => h.wf && decide (d < 16) && decide (b < 64)
  | .xaddbi h d _ => h.wf && decide (d < 16)
  | .xstr h d b => h.wf && decide (d < 16) && decide (b < 64)
  | .xget h d a _ => h.wf && decide (d < 64) && decide (a < 16)
  | .xadd h d a b => h.wf && decide (d < 16) && decide (a < 16) && decide (b < 16)
  | .xmuls h d _ => h.wf && decide (d < 16)
  | .scmpeq h d a b _ => h.wf && decide (d < 16) && decide (a < 64) && decide (b < 64)
  | .scmpne h d a b _ => h.wf && decide (d < 16) && decide (a < 64) && decide (b < 64)
  | .scmplt h d a b _ => h.wf && decide (d < 16) && decide (a < 64) && decide (b < 64)
  | .scmple h d a b _ => h.wf && decide (d < 16) && decide (a < 64) && decide (b < 64)
  | .qlog h d a b _ => h.wf && decide (d < 16) && decide (a < 16) && decide (b < 16)
  | .qany h d a _ => h.wf && decide (d < 16) && decide (a < 64)
  | .qmov h d a k => h.wf && decide (d < 16) && decide (a < 16) && (k.code < 2 || a == 0)
  | .bra h _ => h.wf
  | .brx h a => h.wf && decide (a < 64)
  | .barg h => h.wf
  | .bar h _ id => h.wf && decide (id < 16)
  | .fence h _ _ _ => h.wf
  | .nop h => h.wf
  | .end_ h => h.wf
  | .waitt h a => h.wf && decide (a < 64)
  | .launch h d a => h.wf && decide (d < 64) && decide (a < 64)
  | .fork h a b _ => h.wf && decide (a < 64) && decide (b < 64)
  | .rdv h id => h.wf && decide (id < 8)
  | .cpy h d a => h.wf && decide (d < 64) && decide (a < 64)
  | .cpyw h d a => h.wf && decide (d < 64) && decide (a < 64)
  | .rbind h d a => h.wf && decide (d < 8) && decide (a < 64)
  | .rpub h d n => h.wf && decide (d < 8) && decide (0 < n) && decide (n < 256)
  | .rwaitf h d n => h.wf && decide (d < 8) && decide (0 < n) && decide (n < 256)
  | .steep h d a b => h.wf && decide (d < 64) && decide (a < 64) && decide (b < 64)
  | .meas h d a b => h.wf && decide (d < 64) && decide (a < 64) && decide (b < 64)
  | .trap h _ => h.wf
  | .cbegin h _ => h.wf
  | .cend h => h.wf
  | .tlbw h d a => h.wf && decide (d < 64) && decide (a < 64)
  | .tlbi h a k => h.wf && decide (a < 64) && (k != .all || a == 0)
  | .pgreq h d a => h.wf && decide (d < 64) && decide (a < 64)
  | .framea h d => h.wf && decide (d < 64)
  | .framef h d a => h.wf && decide (d < 64) && decide (a < 64)
  | .migr h d a b => h.wf && decide (d < 64) && decide (a < 64) && decide (b < 64)
  | .csrr h d csr => h.wf && decide (d < 64) && csrKnown csr
  | .csrw h d csr => h.wf && decide (d < 64) && csrWritable csr
  | .hret h a k => h.wf && decide (a < 64) && (k != .saved || a == 0)
  | .halto h a => h.wf && decide (a < 64)
  | .discard h d a b => h.wf && decide (d < 64) && decide (a < 64) && decide (b < 64)
  | .bincfg h d a b => h.wf && decide (d < 16) && decide (a < 16) && decide (b < 64)
  | .binwake h d a => h.wf && decide (d < 16) && decide (a < 64)
  | .binflush h d => h.wf && decide (d < 16)
  | .binq h d a _ => h.wf && decide (d < 64) && decide (a < 16)
  | .frameld h => h.wf && h.g == 7
  | .tbind h d a => h.wf && decide (d < 16) && decide (a < 64)
  | .tzero h d => h.wf && decide (d < 16)
  | .tcolop h d a b _ => h.wf && decide (d < 16) && decide (a < 64) && decide (b < 64)
  | .tload h d a => h.wf && decide (d < 16) && decide (a < 64)
  | .tstore h d a => h.wf && decide (d < 16) && decide (a < 64)
  | .tacc h d a => h.wf && decide (d < 16) && decide (a < 16)
  | .reservedOpcode _ => true
  | .mxcfg sp a b _ k => decide (sp < 1024) && decide (a < 8) && decide (b < 8) && decide (0 < k) && decide (k < 65536)
  | .mxzero sp a => decide (sp < 1024) && decide (a < 16)
  | .mxwait sp r n => decide (sp < 1024) && decide (r < 8) && decide (0 < n) && decide (n < 65536)
  | .mxrel sp r n => decide (sp < 1024) && decide (r < 8) && decide (0 < n) && decide (n < 65536)
  | .mxmma sp a x y k => decide (sp < 1024) && decide (a < 16) && decide (x < 8) && decide (y < 8) && decide (0 < k) && decide (k < 65536)
  | .mxdrain sp a f r t => decide (sp < 1024) && decide (a < 16) && decide (f < 8) && (if r then decide (t < 8) else decide (t < 16))
  | .mxloop sp n k => decide (sp < 1024) && decide (0 < n) && decide (n < 65536) && decide (0 < k) && decide (k < 65536)
  | .mxsig sp i => decide (sp < 1024) && decide (i < 8)
  | .mxfence sp => decide (sp < 1024)
  | .mxend sp => decide (sp < 1024)
  | .mxIllegalCommand sp _ => decide (sp < 1024)
  | .copy _ c => c.isKind 1 0
  | .copyAead _ c => c.isKind 2 0
  | .fill _ c => c.isKind 3 0
  | .post _ c => c.isKind 4 1
  | .bcast _ c => c.isKind 4 2
  | .sig _ c => c.isKind 5 0
  | .promise _ => true
  | .stpFill _ => true
  | .stpAddF32 _ => true
  | .stpScale _ => true
  | .stpMaxfold _ => true
  | .stpSumx _ => true
  | .stpCvt _ => true
  | .stpXsum _ => true
  | .runStart sp => decide (sp < 1024)
  | .memoryResult _ _ _ => true
  | .vldfDelivery _ _ _ _ => true
  | .waittDeadline _ => true
  | .gtcmpMatch _ => true
  | .promiseMissed _ => true
  | .flushTimer _ _ => true
  | .binLaunch _ _ => true
  | .caskRefill _ _ => true
  | .missQueued _ => true
  | .walkHandlerLaunch _ => true
  | .pageHandlerLaunch sp => decide (sp < 1024)
  | .requestHandlerLaunch _ => true
  | .haltRecord _ => true
  | .trapRecord _ => true
  | .syscallSlotPoll _ => true
  | .teamPlacement _ => true
  | .gangStart _ => true
  | .gangAgeing _ => true
  | .launchAccept _ => true
  | .teamRetire _ => true
  | .gridCompletion _ => true
  | .receiptWrite _ => true
  | .preemption sp _ => decide (sp < 1024)
  | .bankSwap sp => decide (sp < 1024)
  | .contextSpill sp => decide (sp < 1024)
  | .contextFill sp _ => decide (sp < 1024)
  | .teamEviction _ => true
  | .teamRestore _ => true
  | .rackingEnd _ _ => true
  | .peerLost _ _ => true
  | .portDown p => decide (p < 16)
  | .flitReceive p _ _ _ _ => decide (p < 16)
  | .peerAccess _ _ _ _ => true
  | .packetReceive _ _ _ _ _ _ => true
  | .keyRegisterLoad _ _ => true
  | .hostCompletion _ _ _ _ _ _ => true
  | .completionTimeout _ _ => true
  | .keySetErase _ => true
  | .lockWalker _ => true
  | .lq _ _ => true
  | .reply _ _ => true
  | .hatom _ _ => true
  | .registerPageWrite _ _ _ _ => true
  | .lockedRegisterWrite _ _ _ => true
  | .telemetryRead _ _ _ => true
  | .lockInterface _ => true
  | .startInterface _ => true
  | .stopInterface _ => true
  | .kSetGo _ => true
  | .spdmRequest _ => true
  | .createOwner _ _ => true
  | .destroyOwner _ => true
  | .grant _ _ => true
  | .quota _ _ => true
  | .peer _ _ => true
  | .slotAssign _ _ => true
  | .diag _ => true
  | .logRead _ => true
  | .setReceiptRing _ _ _ => true
  | .keyPut _ _ _ _ => true
  | .allow _ _ _ => true
  | .worldShare _ _ _ => true
  | .fusedMinimumRaise _ _ => true
  | .regulatorSetting _ _ => true
  | .kilnLockstepMismatch => true
  | .rowRemap _ _ _ => true
  | .bondSteering _ _ => true
  | .coreRetire c => decide (c < 256)
  | .governorStep _ _ => true
  | .currentClamp => true
  | .thermtrip => true
  | .reset _ _ _ => true
  | .spStart sp => decide (sp < 1024)
  | .meWake sp => decide (sp < 1024)
  | .forcedRunBoundary sp => decide (sp < 1024)

end Sys2Proof
end

