-- ==== Sys2Proof/Decode.lean ====
section
/-! DEFINITION. The decoder of instruction words, matrix commands and cards, total on any bits, and
after it the encoder, both written from the encoding tables of 03 R38-R52. -/

set_option linter.unusedVariables false

namespace Sys2Proof

/-- Why an instruction word is no instruction; each is ILLEGAL_OP under 03 R47. -/
inductive DecodeError where
  | reservedOp     -- OP not in the map of its S
  | reservedSub    -- a reserved sub-field value
  | nonzeroField   -- a must-be-zero field is not zero
  | outOfRange     -- a field of an always-allocated class is out of range (R42)
  | badHint        -- an order hint that is not accepted (R43)
  | selUnguarded   -- `VSEL` with G = 7
  | badAddress     -- address code 48-63
  | guarded        -- `FRAMELD` with G other than 7 (17 R303)
  | badCsr         -- a CSR number not in 20 R367, or not writable
  | noBytes        -- fewer than four bytes
  deriving DecidableEq, Repr

/-- The field of `n` bits at bit `lo`. -/
def fld (w lo n : Nat) : Nat := w / 2 ^ lo % 2 ^ n

def need (c : Bool) (e : DecodeError) (r : Except DecodeError Instr) : Except DecodeError Instr :=
  if c then r else .error e

def sub {α : Type} (o : Option α) (e : DecodeError) (f : α → Except DecodeError Instr) :
    Except DecodeError Instr :=
  match o with
  | none => .error e
  | some a => f a

def bit (b : Bool) : Nat := if b then 1 else 0

def Adr.code : Adr → Nat
  | .aff x => x
  | .pair n => 16 + n

/-- The address field of format M (03 R41). -/
def Adr.ofCode (n : Nat) : Option Adr :=
  if n < 16 then some (.aff n) else if n < 48 then some (.pair (n - 16)) else none

def AddK.ofCode : Nat → Option AddK
  | 0 => some .i32
  | 1 => some .si32
  | 2 => some .su32
  | 3 => some .i16x2
  | _ => none

def MulK.ofCode : Nat → Option MulK
  | 0 => some .lo
  | 1 => some .hiI32
  | 2 => some .hiU32
  | 3 => some .i16x2
  | _ => none

def ShrK.ofCode : Nat → Option ShrK
  | 0 => some .l
  | 1 => some .a
  | _ => none

def SgnK.ofCode : Nat → Option SgnK
  | 0 => some .i32
  | 1 => some .u32
  | _ => none

def ShiK.ofCode : Nat → Option ShiK
  | 0 => some .shl
  | 1 => some .shrL
  | 2 => some .shrA
  | 3 => some .rotr
  | _ => none

def FmtK.ofCode : Nat → Option FmtK
  | 0 => some .f32
  | 1 => some .f16x2
  | 2 => some .bf16x2
  | _ => none

def Rnd.ofCode : Nat → Option Rnd
  | 0 => some .rne
  | 1 => some .rtz
  | 2 => some .rdn
  | 3 => some .rup
  | _ => none

def CvtKind.ofCode : Nat → Option CvtKind
  | 0 => some .i32
  | 1 => some .u32
  | 2 => some .f32
  | 3 => some .f16
  | 4 => some .bf16
  | 5 => some .e4m3
  | 6 => some .e5m2
  | _ => none

def Cvt6K.ofCode : Nat → Option Cvt6K
  | 0 => some .toE3m2
  | 1 => some .toE2m3
  | 2 => some .fromE3m2
  | 3 => some .fromE2m3
  | _ => none

def PkhK.ofCode : Nat → Option PkhK
  | 0 => some .f16x2
  | 1 => some .bf16x2
  | _ => none

def UpkhK.ofCode : Nat → Option UpkhK
  | 0 => some .loF16
  | 1 => some .hiF16
  | 2 => some .loBf16
  | 3 => some .hiBf16
  | _ => none

def CmpK.ofCode : Nat → Option CmpK
  | 0 => some .i32
  | 1 => some .u32
  | 2 => some .f32
  | _ => none

def LogK.ofCode : Nat → Option LogK
  | 0 => some .and
  | 1 => some .or
  | 2 => some .xor
  | 3 => some .andn
  | _ => none

def MovK.ofCode : Nat → Option MovK
  | 0 => some .cpy
  | 1 => some .not
  | 2 => some .set
  | 3 => some .clr
  | _ => none

def RedK.ofCode : Nat → Option RedK
  | 0 => some .addI32
  | 1 => some .minI32
  | 2 => some .maxI32
  | 3 => some .addF32
  | _ => none

def MemK.ofCode : Nat → Option MemK
  | 0 => some .b8
  | 1 => some .b16
  | 2 => some .w32
  | 3 => some .w64
  | _ => none

def PackK.ofCode : Nat → Option PackK
  | 0 => some .n4
  | 1 => some .n6
  | 2 => some .n8
  | _ => none

def AtAddK.ofCode : Nat → Option AtAddK
  | 0 => some .i32
  | 1 => some .u64
  | 2 => some .f32
  | _ => none

def AtMmK.ofCode : Nat → Option AtMmK
  | 0 => some .minI32
  | 1 => some .maxI32
  | 2 => some .maxF32
  | 3 => some .minF32
  | _ => none

def AtBitK.ofCode : Nat → Option AtBitK
  | 0 => some .and
  | 1 => some .or
  | 2 => some .xor
  | 3 => some .exch
  | _ => none

def CasK.ofCode : Nat → Option CasK
  | 0 => some .w32
  | 1 => some .w64
  | _ => none

def Hint.ofCode : Nat → Option Hint
  | 0 => some .plain
  | 1 => some .acquire
  | 2 => some .release
  | 3 => some .nontemporal
  | _ => none

def SuspK.ofCode : Nat → Option SuspK
  | 0 => some .explicit
  | 1 => some .frameLoad
  | _ => none

def SAddK.ofCode : Nat → Option SAddK
  | 0 => some .i32
  | 1 => some .u64
  | 2 => some .su32
  | _ => none

def SMulK.ofCode : Nat → Option SMulK
  | 0 => some .lo
  | 1 => some .hiI32
  | 2 => some .hiU32
  | 3 => some .u64lo
  | _ => none

def SCmpK.ofCode : Nat → Option SCmpK
  | 0 => some .i32
  | 1 => some .u32
  | 2 => some .u64
  | _ => none

def AnyK.ofCode : Nat → Option AnyK
  | 0 => some .any
  | 1 => some .all
  | 2 => some .none
  | _ => Option.none

def XgetK.ofCode : Nat → Option XgetK
  | 0 => some .base
  | 1 => some .stride
  | _ => none

def Scope.ofCode : Nat → Option Scope
  | 0 => some .lane
  | 1 => some .group
  | 2 => some .team
  | 3 => some .core
  | 4 => some .device
  | 5 => some .system
  | _ => none

def FenceK.ofCode : Nat → Option FenceK
  | 0 => some .acq
  | 1 => some .rel
  | 2 => some .acqrel
  | 3 => some .sc
  | _ => none

def PathMask.ofCode : Nat → Option PathMask
  | 1 => some .s
  | 2 => some .e
  | 3 => some .se
  | 4 => some .h
  | 5 => some .sh
  | 6 => some .eh
  | 7 => some .seh
  | _ => none

def ForkK.ofCode : Nat → Option ForkK
  | 1 => some .me
  | 2 => some .ce
  | 3 => some .both
  | _ => none

def BinqK.ofCode : Nat → Option BinqK
  | 0 => some .occupancy
  | 1 => some .wake
  | _ => none

def TlbiK.ofCode : Nat → Option TlbiK
  | 0 => some .one
  | 1 => some .all
  | _ => none

def HretK.ofCode : Nat → Option HretK
  | 0 => some .saved
  | 1 => some .uniform
  | 2 => some .vector
  | _ => none

def ColOpK.ofCode : Nat → Option ColOpK
  | 0 => some .addF32
  | 1 => some .addI32
  | 2 => some .maxF32
  | 3 => some .set
  | _ => none

/-- The family at OP 0x0F of the lane map: field b selects the member. -/
def decodeLaneFam0F (h : Hdr) (w : Nat) : Nat → Except DecodeError Instr
  | 0 => need (fld w 0 2 == 0) .nonzeroField (.ok (.vmov h (fld w 14 6) (fld w 8 6)))
  | 1 => need (fld w 0 2 == 0) .nonzeroField (.ok (.vnot h (fld w 14 6) (fld w 8 6)))
  | 2 => need (fld w 0 2 == 0) .nonzeroField (.ok (.vneg h (fld w 14 6) (fld w 8 6)))
  | 3 => need (fld w 0 2 == 0) .nonzeroField (.ok (.vabs h (fld w 14 6) (fld w 8 6)))
  | 4 => need (fld w 0 2 == 0) .nonzeroField (.ok (.vpopc h (fld w 14 6) (fld w 8 6)))
  | 5 => need (fld w 0 2 == 0) .nonzeroField (.ok (.vclz h (fld w 14 6) (fld w 8 6)))
  | 6 => need (fld w 0 2 == 0) .nonzeroField (.ok (.vbrev h (fld w 14 6) (fld w 8 6)))
  | 7 => need (fld w 0 2 == 0) .nonzeroField (.ok (.vsext8 h (fld w 14 6) (fld w 8 6)))
  | 8 => need (fld w 0 2 == 0) .nonzeroField (.ok (.vsext16 h (fld w 14 6) (fld w 8 6)))
  | _ => .error .reservedSub

/-- The family at OP 0x16 of the lane map: field b selects the member. -/
def decodeLaneFam16 (h : Hdr) (w : Nat) : Nat → Except DecodeError Instr
  | 0 => sub (FmtK.ofCode (fld w 0 2)) .reservedSub (fun k => .ok (.vfabs h (fld w 14 6) (fld w 8 6) k))
  | 1 => sub (FmtK.ofCode (fld w 0 2)) .reservedSub (fun k => .ok (.vfneg h (fld w 14 6) (fld w 8 6) k))
  | 2 => sub (FmtK.ofCode (fld w 0 2)) .reservedSub (fun k => .ok (.vfrint h (fld w 14 6) (fld w 8 6) k))
  | 3 => sub (FmtK.ofCode (fld w 0 2)) .reservedSub (fun k => .ok (.vfcls h (fld w 14 6) (fld w 8 6) k))
  | _ => .error .reservedSub

/-- The lane-set map (03 R45). -/
def decodeLane (h : Hdr) (w lit : Nat) : Nat → Except DecodeError Instr
  | 0x00 => sub (AddK.ofCode (fld w 0 2)) .reservedSub (fun k => .ok (.vadd h (fld w 14 6) (fld w 8 6) (fld w 2 6) k))
  | 0x01 => sub (AddK.ofCode (fld w 0 2)) .reservedSub (fun k => .ok (.vsub h (fld w 14 6) (fld w 8 6) (fld w 2 6) k))
  | 0x02 => sub (MulK.ofCode (fld w 0 2)) .reservedSub (fun k => .ok (.vmul h (fld w 14 6) (fld w 8 6) (fld w 2 6) k))
  | 0x03 => need (fld w 0 2 == 0) .nonzeroField (.ok (.vmad h (fld w 14 6) (fld w 8 6) (fld w 2 6)))
  | 0x04 => need (fld w 0 2 == 0) .nonzeroField (.ok (.vand h (fld w 14 6) (fld w 8 6) (fld w 2 6)))
  | 0x05 => need (fld w 0 2 == 0) .nonzeroField (.ok (.vor h (fld w 14 6) (fld w 8 6) (fld w 2 6)))
  | 0x06 => need (fld w 0 2 == 0) .nonzeroField (.ok (.vxor h (fld w 14 6) (fld w 8 6) (fld w 2 6)))
  | 0x07 => need (fld w 0 2 == 0) .nonzeroField (.ok (.vandn h (fld w 14 6) (fld w 8 6) (fld w 2 6)))
  | 0x08 => need (fld w 0 2 == 0) .nonzeroField (.ok (.vshl h (fld w 14 6) (fld w 8 6) (fld w 2 6)))
  | 0x09 => sub (ShrK.ofCode (fld w 0 2)) .reservedSub (fun k => .ok (.vshr h (fld w 14 6) (fld w 8 6) (fld w 2 6) k))
  | 0x0A => sub (SgnK.ofCode (fld w 0 2)) .reservedSub (fun k => .ok (.vmin h (fld w 14 6) (fld w 8 6) (fld w 2 6) k))
  | 0x0B => sub (SgnK.ofCode (fld w 0 2)) .reservedSub (fun k => .ok (.vmax h (fld w 14 6) (fld w 8 6) (fld w 2 6) k))
  | 0x0C => .ok (.vaddi h (fld w 14 6) (fld w 8 6) (BitVec.ofNat 8 (fld w 0 8)))
  | 0x0D => need (fld w 7 1 == 0) .nonzeroField (sub (ShiK.ofCode (fld w 5 2)) .reservedSub (fun k => .ok (.vshi h (fld w 14 6) (fld w 8 6) k (fld w 0 5))))
  | 0x0E => .ok (.vmovi h (fld w 14 6) (BitVec.ofNat 14 (fld w 0 14)))
  | 0x0F => decodeLaneFam0F h w (fld w 2 6)
  | 0x10 => sub (FmtK.ofCode (fld w 0 2)) .reservedSub (fun k => .ok (.vfadd h (fld w 14 6) (fld w 8 6) (fld w 2 6) k))
  | 0x11 => sub (FmtK.ofCode (fld w 0 2)) .reservedSub (fun k => .ok (.vfsub h (fld w 14 6) (fld w 8 6) (fld w 2 6) k))
  | 0x12 => sub (FmtK.ofCode (fld w 0 2)) .reservedSub (fun k => .ok (.vfmul h (fld w 14 6) (fld w 8 6) (fld w 2 6) k))
  | 0x13 => sub (FmtK.ofCode (fld w 0 2)) .reservedSub (fun k => .ok (.vfma h (fld w 14 6) (fld w 8 6) (fld w 2 6) k))
  | 0x14 => sub (FmtK.ofCode (fld w 0 2)) .reservedSub (fun k => .ok (.vfmin h (fld w 14 6) (fld w 8 6) (fld w 2 6) k))
  | 0x15 => sub (FmtK.ofCode (fld w 0 2)) .reservedSub (fun k => .ok (.vfmax h (fld w 14 6) (fld w 8 6) (fld w 2 6) k))
  | 0x16 => decodeLaneFam16 h w (fld w 2 6)
  | 0x17 => need (fld w 0 2 == 0) .nonzeroField (.ok (.vfscl h (fld w 14 6) (fld w 8 6) (fld w 2 6)))
  | 0x18 => need (fld w 0 14 == 0) .nonzeroField (.ok (.vmovl h (fld w 14 6) (BitVec.ofNat 32 lit)))
  | 0x20 => sub (CvtKind.ofCode (fld w 5 3)) .reservedSub (fun dst => sub (CvtKind.ofCode (fld w 2 3)) .reservedSub (fun src => sub (Rnd.ofCode (fld w 0 2)) .reservedSub (fun r => need (dst != src) .reservedSub (.ok (.vcvt h (fld w 14 6) (fld w 8 6) dst src r)))))
  | 0x21 => need (fld w 4 4 == 0) .nonzeroField (sub (Cvt6K.ofCode (fld w 2 2)) .reservedSub (fun k => sub (Rnd.ofCode (fld w 0 2)) .reservedSub (fun r => need ((k.code < 2 || r == .rne)) .reservedSub (.ok (.vcvt6 h (fld w 14 6) (fld w 8 6) k r)))))
  | 0x22 => .ok (.vqnt h (fld w 14 6) (fld w 8 6) (fld w 3 5) (fld w 0 3))
  | 0x23 => .ok (.vdqnt h (fld w 14 6) (fld w 8 6) (fld w 3 5) (fld w 0 3))
  | 0x24 => sub (PkhK.ofCode (fld w 0 2)) .reservedSub (fun k => .ok (.vpkh h (fld w 14 6) (fld w 8 6) (fld w 2 6) k))
  | 0x25 => need (fld w 2 6 == 0) .nonzeroField (sub (UpkhK.ofCode (fld w 0 2)) .reservedSub (fun k => .ok (.vupkh h (fld w 14 6) (fld w 8 6) k)))
  | 0x28 => sub (CmpK.ofCode (fld w 0 2)) .reservedSub (fun k => .ok (.vcmpeq h (fld w 14 6) (fld w 8 6) (fld w 2 6) k))
  | 0x29 => sub (CmpK.ofCode (fld w 0 2)) .reservedSub (fun k => .ok (.vcmpne h (fld w 14 6) (fld w 8 6) (fld w 2 6) k))
  | 0x2A => sub (CmpK.ofCode (fld w 0 2)) .reservedSub (fun k => .ok (.vcmplt h (fld w 14 6) (fld w 8 6) (fld w 2 6) k))
  | 0x2B => sub (CmpK.ofCode (fld w 0 2)) .reservedSub (fun k => .ok (.vcmple h (fld w 14 6) (fld w 8 6) (fld w 2 6) k))
  | 0x2C => need (fld w 0 2 == 0) .nonzeroField (need (decide (h.g < 7)) .selUnguarded (.ok (.vsel h (fld w 14 6) (fld w 8 6) (fld w 2 6))))
  | 0x2D => sub (LogK.ofCode (fld w 0 2)) .reservedSub (fun k => .ok (.plog h (fld w 14 6) (fld w 8 6) (fld w 2 6) k))
  | 0x2E => need (fld w 2 6 == 0) .nonzeroField (sub (MovK.ofCode (fld w 0 2)) .reservedSub (fun k => need ((k.code < 2 || fld w 8 6 == 0)) .nonzeroField (.ok (.pmov h (fld w 14 6) (fld w 8 6) k))))
  | 0x30 => need (fld w 0 2 == 0) .nonzeroField (.ok (.vshfl h (fld w 14 6) (fld w 8 6) (fld w 2 6)))
  | 0x31 => need (fld w 6 2 == 0) .nonzeroField (.ok (.vshflx h (fld w 14 6) (fld w 8 6) (fld w 0 6)))
  | 0x32 => need (fld w 6 2 == 0) .nonzeroField (.ok (.vshflu h (fld w 14 6) (fld w 8 6) (fld w 0 6)))
  | 0x33 => need (fld w 6 2 == 0) .nonzeroField (.ok (.vshfld h (fld w 14 6) (fld w 8 6) (fld w 0 6)))
  | 0x34 => need (fld w 2 6 == 0) .nonzeroField (need (fld w 0 2 == 0) .nonzeroField (.ok (.vballot h (fld w 14 6) (fld w 8 6))))
  | 0x35 => need (fld w 2 6 == 0) .nonzeroField (sub (RedK.ofCode (fld w 0 2)) .reservedSub (fun k => .ok (.vred h (fld w 14 6) (fld w 8 6) k)))
  | 0x36 => need (decide (fld w 8 6 < 16)) .outOfRange (need (fld w 2 6 == 0) .nonzeroField (need (fld w 0 2 == 0) .nonzeroField (.ok (.vaff h (fld w 14 6) (fld w 8 6)))))
  | 0x37 => need (fld w 2 6 == 0) .nonzeroField (need (fld w 0 2 == 0) .nonzeroField (.ok (.vbcast h (fld w 14 6) (fld w 8 6))))
  | 0x38 => sub (Adr.ofCode (fld w 8 6)) .badAddress (fun a => sub (MemK.ofCode (fld w 2 2)) .reservedSub (fun k => sub (Hint.ofCode (fld w 0 2)) .reservedSub (fun t => need (t != .release) .badHint (.ok (.vld h (fld w 14 6) a (fld w 4 4) k t)))))
  | 0x39 => sub (Adr.ofCode (fld w 8 6)) .badAddress (fun a => sub (MemK.ofCode (fld w 2 2)) .reservedSub (fun k => sub (Hint.ofCode (fld w 0 2)) .reservedSub (fun t => need (t != .release) .badHint (.ok (.vldnf h (fld w 14 6) a (fld w 4 4) k t)))))
  | 0x3A => sub (Adr.ofCode (fld w 8 6)) .badAddress (fun a => sub (MemK.ofCode (fld w 2 2)) .reservedSub (fun k => sub (Hint.ofCode (fld w 0 2)) .reservedSub (fun t => need (t != .acquire) .badHint (.ok (.vst h (fld w 14 6) a (fld w 4 4) k t)))))
  | 0x3B => sub (Adr.ofCode (fld w 8 6)) .badAddress (fun a => sub (PackK.ofCode (fld w 2 2)) .reservedSub (fun k => sub (Hint.ofCode (fld w 0 2)) .reservedSub (fun t => need (t != .release) .badHint (.ok (.vldn h (fld w 14 6) a (fld w 4 4) k t)))))
  | 0x3C => sub (Adr.ofCode (fld w 8 6)) .badAddress (fun a => sub (PackK.ofCode (fld w 2 2)) .reservedSub (fun k => sub (Hint.ofCode (fld w 0 2)) .reservedSub (fun t => need (t != .acquire) .badHint (.ok (.vstn h (fld w 14 6) a (fld w 4 4) k t)))))
  | 0x3D => sub (Adr.ofCode (fld w 8 6)) .badAddress (fun a => sub (AtAddK.ofCode (fld w 2 2)) .reservedSub (fun k => sub (Hint.ofCode (fld w 0 2)) .reservedSub (fun t => need (t != .nontemporal) .badHint (.ok (.vatadd h (fld w 14 6) a (fld w 4 4) k t)))))
  | 0x3E => sub (Adr.ofCode (fld w 8 6)) .badAddress (fun a => sub (AtMmK.ofCode (fld w 2 2)) .reservedSub (fun k => sub (Hint.ofCode (fld w 0 2)) .reservedSub (fun t => need (t != .nontemporal) .badHint (.ok (.vatmm h (fld w 14 6) a (fld w 4 4) k t)))))
  | 0x3F => sub (Adr.ofCode (fld w 8 6)) .badAddress (fun a => sub (AtBitK.ofCode (fld w 2 2)) .reservedSub (fun k => sub (Hint.ofCode (fld w 0 2)) .reservedSub (fun t => need (t != .nontemporal) .badHint (.ok (.vatbit h (fld w 14 6) a (fld w 4 4) k t)))))
  | 0x40 => sub (Adr.ofCode (fld w 8 6)) .badAddress (fun a => sub (CasK.ofCode (fld w 2 2)) .reservedSub (fun k => sub (Hint.ofCode (fld w 0 2)) .reservedSub (fun t => need (t != .nontemporal) .badHint (.ok (.vcas h (fld w 14 6) a (fld w 4 4) k t)))))
  | 0x41 => .ok (.vldxW h (fld w 14 6) (fld w 10 4) (fld w 4 6) (fld w 0 4))
  | 0x42 => .ok (.vldxD h (fld w 14 6) (fld w 10 4) (fld w 4 6) (fld w 0 4))
  | 0x43 => .ok (.vstxW h (fld w 14 6) (fld w 10 4) (fld w 4 6) (fld w 0 4))
  | 0x44 => .ok (.vstxD h (fld w 14 6) (fld w 10 4) (fld w 4 6) (fld w 0 4))
  | 0x45 => need (fld w 2 2 == 2) .reservedSub (sub (Adr.ofCode (fld w 8 6)) .badAddress (fun a => sub (Hint.ofCode (fld w 0 2)) .reservedSub (fun t => need (t != .release) .badHint (.ok (.vldf h (fld w 14 6) a (fld w 4 4) t)))))
  | 0x50 => .ok (.vtrd h (fld w 16 4) (fld w 15 1 == 1) (fld w 10 5) (fld w 6 4) (fld w 0 6))
  | 0x51 => .ok (.vtwr h (fld w 16 4) (fld w 15 1 == 1) (fld w 10 5) (fld w 6 4) (fld w 0 6))
  | 0x52 => .ok (.vtaddF32 h (fld w 16 4) (fld w 15 1 == 1) (fld w 10 5) (fld w 6 4) (fld w 0 6))
  | 0x53 => .ok (.vtmaxF32 h (fld w 16 4) (fld w 15 1 == 1) (fld w 10 5) (fld w 6 4) (fld w 0 6))
  | 0x57 => need (fld w 0 20 == 0) .nonzeroField (.ok (.vyield h))
  | 0x58 => .ok (.vbr h (BitVec.ofNat 20 (fld w 0 20)))
  | 0x59 => need (fld w 14 6 == 0) .nonzeroField (need (fld w 0 2 == 0) .nonzeroField (.ok (.vjtab h (fld w 8 6) (fld w 2 6))))
  | 0x5A => .ok (.vcall h (BitVec.ofNat 20 (fld w 0 20)))
  | 0x5B => need (fld w 14 6 == 0) .nonzeroField (need (fld w 2 6 == 0) .nonzeroField (need (fld w 0 2 == 0) .nonzeroField (.ok (.vcallx h (fld w 8 6)))))
  | 0x5C => need (fld w 0 20 == 0) .nonzeroField (.ok (.vret h))
  | 0x5D => need (decide (fld w 8 6 < 16)) .outOfRange (need (fld w 2 6 == 0) .nonzeroField (sub (SuspK.ofCode (fld w 0 2)) .reservedSub (fun k => .ok (.vsusp h (fld w 14 6) (fld w 8 6) k))))
  | 0x5E => need (decide (fld w 8 6 < 16)) .outOfRange (need (fld w 0 2 == 0) .nonzeroField (.ok (.vspawn h (fld w 14 6) (fld w 8 6) (fld w 2 6))))
  | 0x5F => need (fld w 0 20 == 0) .nonzeroField (.ok (.vexit h))
  | 0x60 => need (fld w 2 6 == 0) .nonzeroField (need (fld w 0 2 == 0) .nonzeroField (.ok (.vrcp h (fld w 14 6) (fld w 8 6))))
  | 0x61 => need (fld w 2 6 == 0) .nonzeroField (need (fld w 0 2 == 0) .nonzeroField (.ok (.vrsq h (fld w 14 6) (fld w 8 6))))
  | 0x62 => need (fld w 2 6 == 0) .nonzeroField (need (fld w 0 2 == 0) .nonzeroField (.ok (.vsqrt h (fld w 14 6) (fld w 8 6))))
  | 0x63 => need (fld w 2 6 == 0) .nonzeroField (need (fld w 0 2 == 0) .nonzeroField (.ok (.vexp2 h (fld w 14 6) (fld w 8 6))))
  | 0x64 => need (fld w 2 6 == 0) .nonzeroField (need (fld w 0 2 == 0) .nonzeroField (.ok (.vlog2 h (fld w 14 6) (fld w 8 6))))
  | 0x65 => need (fld w 2 6 == 0) .nonzeroField (need (fld w 0 2 == 0) .nonzeroField (.ok (.vtanh h (fld w 14 6) (fld w 8 6))))
  | 0x66 => need (fld w 0 2 == 0) .nonzeroField (.ok (.vdiv h (fld w 14 6) (fld w 8 6) (fld w 2 6)))
  | _ => .error .reservedOp

/-- The family at OP 0x0D of the uni map: field b selects the member. -/
def decodeUniFam0D (h : Hdr) (w : Nat) : Nat → Except DecodeError Instr
  | 0 => need (fld w 0 2 == 0) .nonzeroField (.ok (.smov h (fld w 14 6) (fld w 8 6)))
  | 1 => need (fld w 0 2 == 0) .nonzeroField (.ok (.snot h (fld w 14 6) (fld w 8 6)))
  | 2 => need (fld w 0 2 == 0) .nonzeroField (.ok (.spopc h (fld w 14 6) (fld w 8 6)))
  | 3 => need (fld w 0 2 == 0) .nonzeroField (.ok (.sclz h (fld w 14 6) (fld w 8 6)))
  | _ => .error .reservedSub

/-- The uniform-set map (03 R46). -/
def decodeUni (h : Hdr) (w lit : Nat) : Nat → Except DecodeError Instr
  | 0x00 => sub (SAddK.ofCode (fld w 0 2)) .reservedSub (fun k => .ok (.sadd h (fld w 14 6) (fld w 8 6) (fld w 2 6) k))
  | 0x01 => sub (SAddK.ofCode (fld w 0 2)) .reservedSub (fun k => .ok (.ssub h (fld w 14 6) (fld w 8 6) (fld w 2 6) k))
  | 0x02 => sub (SMulK.ofCode (fld w 0 2)) .reservedSub (fun k => .ok (.smul h (fld w 14 6) (fld w 8 6) (fld w 2 6) k))
  | 0x03 => need (fld w 0 2 == 0) .nonzeroField (.ok (.sand h (fld w 14 6) (fld w 8 6) (fld w 2 6)))
  | 0x04 => need (fld w 0 2 == 0) .nonzeroField (.ok (.sor h (fld w 14 6) (fld w 8 6) (fld w 2 6)))
  | 0x05 => need (fld w 0 2 == 0) .nonzeroField (.ok (.sxor h (fld w 14 6) (fld w 8 6) (fld w 2 6)))
  | 0x06 => need (fld w 0 2 == 0) .nonzeroField (.ok (.sshl h (fld w 14 6) (fld w 8 6) (fld w 2 6)))
  | 0x07 => sub (ShrK.ofCode (fld w 0 2)) .reservedSub (fun k => .ok (.sshr h (fld w 14 6) (fld w 8 6) (fld w 2 6) k))
  | 0x08 => sub (SgnK.ofCode (fld w 0 2)) .reservedSub (fun k => .ok (.smin h (fld w 14 6) (fld w 8 6) (fld w 2 6) k))
  | 0x09 => sub (SgnK.ofCode (fld w 0 2)) .reservedSub (fun k => .ok (.smax h (fld w 14 6) (fld w 8 6) (fld w 2 6) k))
  | 0x0A => .ok (.saddi h (fld w 14 6) (fld w 8 6) (BitVec.ofNat 8 (fld w 0 8)))
  | 0x0B => .ok (.smovi h (fld w 14 6) (BitVec.ofNat 14 (fld w 0 14)))
  | 0x0C => need (fld w 0 14 == 0) .nonzeroField (.ok (.smovl h (fld w 14 6) (BitVec.ofNat 32 lit)))
  | 0x0D => decodeUniFam0D h w (fld w 2 6)
  | 0x0E => need (fld w 0 2 == 0) .nonzeroField (.ok (.sreadl h (fld w 14 6) (fld w 8 6) (fld w 2 6)))
  | 0x0F => .ok (.slui h (fld w 14 6) (BitVec.ofNat 14 (fld w 0 14)))
  | 0x10 => need (decide (fld w 14 6 < 16)) .outOfRange (need (fld w 0 2 == 0) .nonzeroField (.ok (.xset h (fld w 14 6) (fld w 8 6) (fld w 2 6))))
  | 0x11 => need (decide (fld w 14 6 < 16)) .outOfRange (need (fld w 8 6 == 0) .nonzeroField (need (fld w 0 2 == 0) .nonzeroField (.ok (.xaddb h (fld w 14 6) (fld w 2 6)))))
  | 0x12 => need (decide (fld w 14 6 < 16)) .outOfRange (need (fld w 8 6 == 0) .nonzeroField (.ok (.xaddbi h (fld w 14 6) (BitVec.ofNat 8 (fld w 0 8)))))
  | 0x13 => need (decide (fld w 14 6 < 16)) .outOfRange (need (fld w 8 6 == 0) .nonzeroField (need (fld w 0 2 == 0) .nonzeroField (.ok (.xstr h (fld w 14 6) (fld w 2 6)))))
  | 0x14 => need (decide (fld w 8 6 < 16)) .outOfRange (need (fld w 2 6 == 0) .nonzeroField (sub (XgetK.ofCode (fld w 0 2)) .reservedSub (fun k => .ok (.xget h (fld w 14 6) (fld w 8 6) k))))
  | 0x15 => need (decide (fld w 14 6 < 16)) .outOfRange (need (decide (fld w 8 6 < 16)) .outOfRange (need (decide (fld w 2 6 < 16)) .outOfRange (need (fld w 0 2 == 0) .nonzeroField (.ok (.xadd h (fld w 14 6) (fld w 8 6) (fld w 2 6))))))
  | 0x16 => need (decide (fld w 14 6 < 16)) .outOfRange (need (fld w 8 6 == 0) .nonzeroField (.ok (.xmuls h (fld w 14 6) (BitVec.ofNat 8 (fld w 0 8)))))
  | 0x18 => need (decide (fld w 14 6 < 16)) .outOfRange (sub (SCmpK.ofCode (fld w 0 2)) .reservedSub (fun k => .ok (.scmpeq h (fld w 14 6) (fld w 8 6) (fld w 2 6) k)))
  | 0x19 => need (decide (fld w 14 6 < 16)) .outOfRange (sub (SCmpK.ofCode (fld w 0 2)) .reservedSub (fun k => .ok (.scmpne h (fld w 14 6) (fld w 8 6) (fld w 2 6) k)))
  | 0x1A => need (decide (fld w 14 6 < 16)) .outOfRange (sub (SCmpK.ofCode (fld w 0 2)) .reservedSub (fun k => .ok (.scmplt h (fld w 14 6) (fld w 8 6) (fld w 2 6) k)))
  | 0x1B => need (decide (fld w 14 6 < 16)) .outOfRange (sub (SCmpK.ofCode (fld w 0 2)) .reservedSub (fun k => .ok (.scmple h (fld w 14 6) (fld w 8 6) (fld w 2 6) k)))
  | 0x1C => need (decide (fld w 14 6 < 16)) .outOfRange (need (decide (fld w 8 6 < 16)) .outOfRange (need (decide (fld w 2 6 < 16)) .outOfRange (sub (LogK.ofCode (fld w 0 2)) .reservedSub (fun k => .ok (.qlog h (fld w 14 6) (fld w 8 6) (fld w 2 6) k)))))
  | 0x1D => need (decide (fld w 14 6 < 16)) .outOfRange (need (fld w 2 6 == 0) .nonzeroField (sub (AnyK.ofCode (fld w 0 2)) .reservedSub (fun k => .ok (.qany h (fld w 14 6) (fld w 8 6) k))))
  | 0x1E => need (decide (fld w 14 6 < 16)) .outOfRange (need (decide (fld w 8 6 < 16)) .outOfRange (need (fld w 2 6 == 0) .nonzeroField (sub (MovK.ofCode (fld w 0 2)) .reservedSub (fun k => need ((k.code < 2 || fld w 8 6 == 0)) .nonzeroField (.ok (.qmov h (fld w 14 6) (fld w 8 6) k))))))
  | 0x20 => .ok (.bra h (BitVec.ofNat 20 (fld w 0 20)))
  | 0x21 => need (fld w 14 6 == 0) .nonzeroField (need (fld w 2 6 == 0) .nonzeroField (need (fld w 0 2 == 0) .nonzeroField (.ok (.brx h (fld w 8 6)))))
  | 0x22 => need (fld w 0 20 == 0) .nonzeroField (.ok (.barg h))
  | 0x23 => need (fld w 14 6 == 0) .nonzeroField (need (fld w 8 6 == 0) .nonzeroField (need (fld w 5 3 == 0) .nonzeroField (.ok (.bar h (fld w 4 1 == 1) (fld w 0 4)))))
  | 0x24 => need (fld w 14 6 == 0) .nonzeroField (need (fld w 8 6 == 0) .nonzeroField (sub (PathMask.ofCode (fld w 5 3)) .reservedSub (fun p => sub (FenceK.ofCode (fld w 3 2)) .reservedSub (fun k => sub (Scope.ofCode (fld w 0 3)) .reservedSub (fun sc => .ok (.fence h p k sc))))))
  | 0x25 => need (fld w 0 20 == 0) .nonzeroField (.ok (.nop h))
  | 0x26 => need (fld w 0 20 == 0) .nonzeroField (.ok (.end_ h))
  | 0x27 => need (fld w 14 6 == 0) .nonzeroField (need (fld w 2 6 == 0) .nonzeroField (need (fld w 0 2 == 0) .nonzeroField (.ok (.waitt h (fld w 8 6)))))
  | 0x28 => need (fld w 2 6 == 0) .nonzeroField (need (fld w 0 2 == 0) .nonzeroField (.ok (.launch h (fld w 14 6) (fld w 8 6))))
  | 0x30 => need (fld w 14 6 == 0) .nonzeroField (sub (ForkK.ofCode (fld w 0 2)) .reservedSub (fun k => .ok (.fork h (fld w 8 6) (fld w 2 6) k)))
  | 0x31 => need (fld w 14 6 == 0) .nonzeroField (need (fld w 8 6 == 0) .nonzeroField (need (fld w 3 5 == 0) .nonzeroField (.ok (.rdv h (fld w 0 3)))))
  | 0x32 => need (fld w 2 6 == 0) .nonzeroField (need (fld w 0 2 == 0) .nonzeroField (.ok (.cpy h (fld w 14 6) (fld w 8 6))))
  | 0x33 => need (fld w 2 6 == 0) .nonzeroField (need (fld w 0 2 == 0) .nonzeroField (.ok (.cpyw h (fld w 14 6) (fld w 8 6))))
  | 0x34 => need (decide (fld w 14 6 < 8)) .outOfRange (need (fld w 2 6 == 0) .nonzeroField (need (fld w 0 2 == 0) .nonzeroField (.ok (.rbind h (fld w 14 6) (fld w 8 6)))))
  | 0x35 => need (decide (fld w 14 6 < 8)) .outOfRange (need (fld w 8 6 == 0) .nonzeroField (need (decide (0 < fld w 0 8)) .reservedSub (.ok (.rpub h (fld w 14 6) (fld w 0 8)))))
  | 0x36 => need (decide (fld w 14 6 < 8)) .outOfRange (need (fld w 8 6 == 0) .nonzeroField (need (decide (0 < fld w 0 8)) .reservedSub (.ok (.rwaitf h (fld w 14 6) (fld w 0 8)))))
  | 0x37 => need (fld w 0 2 == 0) .nonzeroField (.ok (.steep h (fld w 14 6) (fld w 8 6) (fld w 2 6)))
  | 0x38 => need (fld w 0 2 == 0) .nonzeroField (.ok (.meas h (fld w 14 6) (fld w 8 6) (fld w 2 6)))
  | 0x40 => need (fld w 14 6 == 0) .nonzeroField (.ok (.trap h (BitVec.ofNat 14 (fld w 0 14))))
  | 0x41 => .ok (.cbegin h (BitVec.ofNat 20 (fld w 0 20)))
  | 0x42 => need (fld w 0 20 == 0) .nonzeroField (.ok (.cend h))
  | 0x43 => need (fld w 2 6 == 0) .nonzeroField (need (fld w 0 2 == 0) .nonzeroField (.ok (.tlbw h (fld w 14 6) (fld w 8 6))))
  | 0x44 => need (fld w 14 6 == 0) .nonzeroField (need (fld w 2 6 == 0) .nonzeroField (sub (TlbiK.ofCode (fld w 0 2)) .reservedSub (fun k => need ((k != .all || fld w 8 6 == 0)) .nonzeroField (.ok (.tlbi h (fld w 8 6) k)))))
  | 0x45 => need (fld w 2 6 == 0) .nonzeroField (need (fld w 0 2 == 0) .nonzeroField (.ok (.pgreq h (fld w 14 6) (fld w 8 6))))
  | 0x46 => need (fld w 8 6 == 0) .nonzeroField (need (fld w 2 6 == 0) .nonzeroField (need (fld w 0 2 == 0) .nonzeroField (.ok (.framea h (fld w 14 6)))))
  | 0x47 => need (fld w 2 6 == 0) .nonzeroField (need (fld w 0 2 == 0) .nonzeroField (.ok (.framef h (fld w 14 6) (fld w 8 6))))
  | 0x48 => need (fld w 0 2 == 0) .nonzeroField (.ok (.migr h (fld w 14 6) (fld w 8 6) (fld w 2 6)))
  | 0x49 => need (fld w 12 2 == 0) .nonzeroField (need (csrKnown (BitVec.ofNat 12 (fld w 0 12))) .badCsr (.ok (.csrr h (fld w 14 6) (BitVec.ofNat 12 (fld w 0 12)))))
  | 0x4A => need (fld w 12 2 == 0) .nonzeroField (need (csrWritable (BitVec.ofNat 12 (fld w 0 12))) .badCsr (.ok (.csrw h (fld w 14 6) (BitVec.ofNat 12 (fld w 0 12)))))
  | 0x4B => need (fld w 14 6 == 0) .nonzeroField (need (fld w 2 6 == 0) .nonzeroField (sub (HretK.ofCode (fld w 0 2)) .reservedSub (fun k => need ((k != .saved || fld w 8 6 == 0)) .nonzeroField (.ok (.hret h (fld w 8 6) k)))))
  | 0x4C => need (fld w 14 6 == 0) .nonzeroField (need (fld w 2 6 == 0) .nonzeroField (need (fld w 0 2 == 0) .nonzeroField (.ok (.halto h (fld w 8 6)))))
  | 0x4D => need (fld w 0 2 == 0) .nonzeroField (.ok (.discard h (fld w 14 6) (fld w 8 6) (fld w 2 6)))
  | 0x50 => need (decide (fld w 14 6 < 16)) .outOfRange (need (decide (fld w 8 6 < 16)) .outOfRange (need (fld w 0 2 == 0) .nonzeroField (.ok (.bincfg h (fld w 14 6) (fld w 8 6) (fld w 2 6)))))
  | 0x51 => need (decide (fld w 14 6 < 16)) .outOfRange (need (fld w 2 6 == 0) .nonzeroField (need (fld w 0 2 == 0) .nonzeroField (.ok (.binwake h (fld w 14 6) (fld w 8 6)))))
  | 0x52 => need (decide (fld w 14 6 < 16)) .outOfRange (need (fld w 8 6 == 0) .nonzeroField (need (fld w 2 6 == 0) .nonzeroField (need (fld w 0 2 == 0) .nonzeroField (.ok (.binflush h (fld w 14 6))))))
  | 0x53 => need (decide (fld w 8 6 < 16)) .outOfRange (need (fld w 2 6 == 0) .nonzeroField (sub (BinqK.ofCode (fld w 0 2)) .reservedSub (fun k => .ok (.binq h (fld w 14 6) (fld w 8 6) k))))
  | 0x54 => need (fld w 0 20 == 0) .nonzeroField (need (h.g == 7) .guarded (.ok (.frameld h)))
  | 0x60 => need (decide (fld w 14 6 < 16)) .outOfRange (need (fld w 2 6 == 0) .nonzeroField (need (fld w 0 2 == 0) .nonzeroField (.ok (.tbind h (fld w 14 6) (fld w 8 6)))))
  | 0x61 => need (decide (fld w 14 6 < 16)) .outOfRange (need (fld w 8 6 == 0) .nonzeroField (need (fld w 2 6 == 0) .nonzeroField (need (fld w 0 2 == 0) .nonzeroField (.ok (.tzero h (fld w 14 6))))))
  | 0x62 => need (decide (fld w 14 6 < 16)) .outOfRange (sub (ColOpK.ofCode (fld w 0 2)) .reservedSub (fun k => .ok (.tcolop h (fld w 14 6) (fld w 8 6) (fld w 2 6) k)))
  | 0x63 => need (decide (fld w 14 6 < 16)) .outOfRange (need (fld w 2 6 == 0) .nonzeroField (need (fld w 0 2 == 0) .nonzeroField (.ok (.tload h (fld w 14 6) (fld w 8 6)))))
  | 0x64 => need (decide (fld w 14 6 < 16)) .outOfRange (need (fld w 2 6 == 0) .nonzeroField (need (fld w 0 2 == 0) .nonzeroField (.ok (.tstore h (fld w 14 6) (fld w 8 6)))))
  | 0x65 => need (decide (fld w 14 6 < 16)) .outOfRange (need (decide (fld w 8 6 < 16)) .outOfRange (need (fld w 2 6 == 0) .nonzeroField (need (fld w 0 2 == 0) .nonzeroField (.ok (.tacc h (fld w 14 6) (fld w 8 6))))))
  | _ => .error .reservedOp

/-- The instruction of a word, `lit` being the word after it (03 R38, R44). -/
def decodeWord (w lit : Nat) : Except DecodeError Instr :=
  let h : Hdr := ⟨fld w 30 1 == 1, fld w 27 3⟩
  if fld w 31 1 = 0 then decodeLane h w lit (fld w 20 7) else decodeUni h w lit (fld w 20 7)

/-- What an issued word runs: the instruction it decodes to, or RESERVED_OPCODE (03 R47). -/
def decodeIssued (w lit : Nat) : Instr :=
  match decodeWord w lit with
  | .ok i => i
  | .error _ => .reservedOpcode (BitVec.ofNat 32 w)

/-- The instruction at the head of a list of bytes in the order the memory holds them, with the bytes
after it: words are little-endian (03 R39), and `VMOVL` and `SMOVL` take the next word too (R44). -/
def decodeBytes (bs : List (BitVec 8)) : Except DecodeError (Instr × List (BitVec 8)) :=
  if bs.length < 4 then .error .noBytes
  else
    match decodeWord (leField bs 0 4) (leField bs 4 4) with
    | .error e => .error e
    | .ok (.vmovl h d lit) => .ok (.vmovl h d lit, bs.drop 8)
    | .ok (.smovl h d lit) => .ok (.smovl h d lit, bs.drop 8)
    | .ok i => .ok (i, bs.drop 4)

/-- The instruction whose bits are `w`, numbered as the opcode table numbers them. -/
def decodeTableWord (nbits w : Nat) : Option Instr :=
  match decodeBytes (leBytes 8 (w % 2 ^ nbits)) with
  | .ok (i, _) => some i
  | .error _ => none

/-- A matrix command of 64 bits (03 R48). -/
def decodeMx (sp w : Nat) : Instr :=
  let ill := Instr.mxIllegalCommand sp (BitVec.ofNat 64 w)
  let z (l : List (Nat × Nat)) : Bool := l.all (fun p => fld w p.1 p.2 == 0)
  let n := fld w 32 16
  match fld w 58 6 with
  | 0x01 => if z [(48, 3), (0, 32)] && n != 0 then .mxcfg sp (fld w 55 3) (fld w 52 3) (fld w 51 1 == 1) n else ill
  | 0x02 => if z [(0, 54)] then .mxzero sp (fld w 54 4) else ill
  | 0x03 => if z [(0, 32)] && n != 0 then .mxmma sp (fld w 54 4) (fld w 51 3) (fld w 48 3) n else ill
  | 0x04 => if z [(54, 4), (48, 3), (0, 32)] && n != 0 then .mxwait sp (fld w 51 3) n else ill
  | 0x05 => if z [(54, 4), (48, 3), (0, 32)] && n != 0 then .mxrel sp (fld w 51 3) n else ill
  | 0x06 =>
      if z [(0, 46)] && (fld w 50 1 == 0 || fld w 49 1 == 0)
      then .mxdrain sp (fld w 54 4) (fld w 51 3) (fld w 50 1 == 1) (fld w 46 4) else ill
  | 0x07 => if z [(48, 10), (16, 16)] && n != 0 && fld w 0 16 != 0 then .mxloop sp n (fld w 0 16) else ill
  | 0x08 => if z [(0, 55)] then .mxsig sp (fld w 55 3) else ill
  | 0x09 => if z [(0, 58)] then .mxfence sp else ill
  | 0x0A => if z [(0, 58)] then .mxend sp else ill
  | _ => ill

/-- A signed 64-bit number. -/
def s64 (n : Nat) : Int := if n < 2 ^ 63 then (n : Int) else (n : Int) - 2 ^ 64

/-- The three fields of a shape record, and whether it breaks 03 R50. -/
structure Shape where
  extents : List Nat
  src : List Int
  dst : List Int
  perm : List Nat
  bad : Bool
  deriving DecidableEq, Repr

/-- The dimension count that the first byte of a shape record gives (03 R50). -/
def shapeDims (hdr : List (BitVec 8)) : Nat := (leField hdr 0 1)

/-- A shape record from its bytes (03 R50). -/
def decodeShape (bs : List (BitVec 8)) : Shape :=
  let n := leField bs 0 1
  let ix := List.range n
  let ext := ix.map (fun k => leField bs (8 + 24 * k) 4)
  let pw := leField bs (8 + 24 * n) 8
  let nib := fun k => pw / 16 ^ k % 16
  let perm := ix.map nib
  { extents := ext
    src := ix.map (fun k => s64 (leField bs (16 + 24 * k) 8))
    dst := ix.map (fun k => s64 (leField bs (24 + 24 * k) 8))
    perm := perm
    bad := n == 0 || decide (16 < n) || leField bs 1 7 != 0 || ext.any (· == 0)
      || ix.any (fun k => leField bs (12 + 24 * k) 4 != 0)
      || ix.any (fun k => !(perm.contains k))
      || (List.range 16).any (fun k => decide (n ≤ k) && nib k != 0) }

/-- One footprint entry from its 12 bytes (03 R49). -/
def decodeFootprint (bs : List (BitVec 8)) : Footprint :=
  let b := leField bs 0 8
  { kind := b / 2 ^ 62, base := b % 2 ^ 57, len := leField bs 8 4 }

/-- A card from its 128 bytes and its shape record (03 R49-R51, 15 R273). A footprint below the count whose kind is 0 makes it
invalid: the spec does not say whether it is skipped (DESIGN CHOICE, log entry 37). -/
def decodeCard (addr : BitVec 64) (bs : List (BitVec 8)) (sh : Shape) : Card :=
  let op := leField bs 0 1
  let fl := leField bs 1 1
  let es := leField bs 2 1
  let fc := leField bs 3 1
  let sg := leField bs 4 2
  let ks := leField bs 6 2
  let fp := fun k => (bs.drop (0x40 + 12 * k)).take 12
  let fw := fun k => leField (fp k) 0 8
  let aead := op == 2
  let coll := op == 4
  let bytes := (sh.extents.foldl (· * ·) 1) * 2 ^ (es % 4)
  { addr, raw := bs, opcode := op, csumKind := fl % 4
    chainIn := fl / 4 % 2 == 1, chainOut := fl / 8 % 2 == 1, compare := fl / 16 % 2 == 1
    esizeLog := es % 4, signal := sg, keySlot := ks
    source := BitVec.ofNat 64 (leField bs 8 8), dest := BitVec.ofNat 64 (leField bs 0x10 8)
    next := BitVec.ofNat 64 (leField bs 0x20 8), tagAddr := BitVec.ofNat 64 (leField bs 0x28 8)
    iv := (((bs.drop 0x30).take 12).foldl (fun acc b => acc * 256 + b.toNat) 0)
    csum := BitVec.ofNat 32 (leField bs 0x3C 4)
    footprints := (List.range (fc % 8)).map (fun k => decodeFootprint (fp k))
    collective := BitVec.ofNat 64 (leField bs 0x70 8), membership := leField bs 0x78 4
    collOp := leField bs 0x7C 2
    extents := sh.extents, srcStrides := sh.src, dstStrides := sh.dst, perm := sh.perm
    bad := addr.toNat % 128 != 0 || op == 0 || decide (5 < op) || fl % 4 == 3 || decide (32 ≤ fl)
      || decide (4 ≤ es) || decide (4 < fc) || decide (8 < sg)
      || (if aead then decide (4095 < ks) else ks != 0)
      || (!aead && (leField bs 0x28 8 != 0 || leField bs 0x30 12 != 0))
      || (!coll && (leField bs 0x70 8 != 0 || leField bs 0x78 4 != 0 || leField bs 0x7C 2 != 0))
      || (coll && leField bs 0x7C 2 != 1 && leField bs 0x7C 2 != 2)
      || leField bs 0x7E 2 != 0
      || (List.range 4).any (fun k =>
            if k < fc then fw k / 2 ^ 62 == 0 || fw k / 2 ^ 57 % 32 != 0 else leField (fp k) 0 12 != 0)
      || (op == 5 && (leField bs 8 8 != 0 || leField bs 0x10 8 != 0 || leField bs 0x18 8 != 0 || leField bs 0x3C 4 != 0))
      || (op != 5 && (leField bs 0x18 8 % 8 != 0 || sh.bad))
      || (fl % 4 == 0 && decide (4 ≤ fl))
      || (aead && decide (2 ^ 36 - 32 < bytes)) }

/-! ## The encoder -/

/-- A word from S, the header, OP and the operand area (03 R38). -/
def encWord (s : Nat) (h : Hdr) (op area : Nat) : Nat :=
  s * 2147483648 + bit h.e * 1073741824 + h.g * 134217728 + op * 1048576 + area

/-- The two 32-bit words of a matrix command, low word first (03 R48). -/
def encMx (op fields : Nat) : List Nat :=
  let w := op * 2 ^ 58 + fields
  [w % 2 ^ 32, w / 2 ^ 32]

/-- The words of an instruction, a matrix command or a card; an event has none. -/
def encode : Instr → List Nat
  | .vadd h d a b k => [encWord 0 h 0x00 (d * 16384 + a * 256 + b * 4 + k.code)]
  | .vsub h d a b k => [encWord 0 h 0x01 (d * 16384 + a * 256 + b * 4 + k.code)]
  | .vmul h d a b k => [encWord 0 h 0x02 (d * 16384 + a * 256 + b * 4 + k.code)]
  | .vmad h d a b => [encWord 0 h 0x03 (d * 16384 + a * 256 + b * 4)]
  | .vand h d a b => [encWord 0 h 0x04 (d * 16384 + a * 256 + b * 4)]
  | .vor h d a b => [encWord 0 h 0x05 (d * 16384 + a * 256 + b * 4)]
  | .vxor h d a b => [encWord 0 h 0x06 (d * 16384 + a * 256 + b * 4)]
  | .vandn h d a b => [encWord 0 h 0x07 (d * 16384 + a * 256 + b * 4)]
  | .vshl h d a b => [encWord 0 h 0x08 (d * 16384 + a * 256 + b * 4)]
  | .vshr h d a b k => [encWord 0 h 0x09 (d * 16384 + a * 256 + b * 4 + k.code)]
  | .vmin h d a b k => [encWord 0 h 0x0A (d * 16384 + a * 256 + b * 4 + k.code)]
  | .vmax h d a b k => [encWord 0 h 0x0B (d * 16384 + a * 256 + b * 4 + k.code)]
  | .vaddi h d a imm => [encWord 0 h 0x0C (d * 16384 + a * 256 + imm.toNat)]
  | .vshi h d a k n => [encWord 0 h 0x0D (d * 16384 + a * 256 + k.code * 32 + n)]
  | .vmovi h d imm => [encWord 0 h 0x0E (d * 16384 + imm.toNat)]
  | .vmov h d a => [encWord 0 h 0x0F (d * 16384 + a * 256)]
  | .vnot h d a => [encWord 0 h 0x0F (d * 16384 + a * 256 + 4)]
  | .vneg h d a => [encWord 0 h 0x0F (d * 16384 + a * 256 + 8)]
  | .vabs h d a => [encWord 0 h 0x0F (d * 16384 + a * 256 + 12)]
  | .vpopc h d a => [encWord 0 h 0x0F (d * 16384 + a * 256 + 16)]
  | .vclz h d a => [encWord 0 h 0x0F (d * 16384 + a * 256 + 20)]
  | .vbrev h d a => [encWord 0 h 0x0F (d * 16384 + a * 256 + 24)]
  | .vsext8 h d a => [encWord 0 h 0x0F (d * 16384 + a * 256 + 28)]
  | .vsext16 h d a => [encWord 0 h 0x0F (d * 16384 + a * 256 + 32)]
  | .vfadd h d a b k => [encWord 0 h 0x10 (d * 16384 + a * 256 + b * 4 + k.code)]
  | .vfsub h d a b k => [encWord 0 h 0x11 (d * 16384 + a * 256 + b * 4 + k.code)]
  | .vfmul h d a b k => [encWord 0 h 0x12 (d * 16384 + a * 256 + b * 4 + k.code)]
  | .vfma h d a b k => [encWord 0 h 0x13 (d * 16384 + a * 256 + b * 4 + k.code)]
  | .vfmin h d a b k => [encWord 0 h 0x14 (d * 16384 + a * 256 + b * 4 + k.code)]
  | .vfmax h d a b k => [encWord 0 h 0x15 (d * 16384 + a * 256 + b * 4 + k.code)]
  | .vfabs h d a k => [encWord 0 h 0x16 (d * 16384 + a * 256 + k.code)]
  | .vfneg h d a k => [encWord 0 h 0x16 (d * 16384 + a * 256 + 4 + k.code)]
  | .vfrint h d a k => [encWord 0 h 0x16 (d * 16384 + a * 256 + 8 + k.code)]
  | .vfcls h d a k => [encWord 0 h 0x16 (d * 16384 + a * 256 + 12 + k.code)]
  | .vfscl h d a b => [encWord 0 h 0x17 (d * 16384 + a * 256 + b * 4)]
  | .vmovl h d lit => [encWord 0 h 0x18 (d * 16384), lit.toNat]
  | .vcvt h d a dst src r => [encWord 0 h 0x20 (d * 16384 + a * 256 + dst.code * 32 + src.code * 4 + r.code)]
  | .vcvt6 h d a k r => [encWord 0 h 0x21 (d * 16384 + a * 256 + k.code * 4 + r.code)]
  | .vqnt h d a n f => [encWord 0 h 0x22 (d * 16384 + a * 256 + n * 8 + f)]
  | .vdqnt h d a n f => [encWord 0 h 0x23 (d * 16384 + a * 256 + n * 8 + f)]
  | .vpkh h d a b k => [encWord 0 h 0x24 (d * 16384 + a * 256 + b * 4 + k.code)]
  | .vupkh h d a k => [encWord 0 h 0x25 (d * 16384 + a * 256 + k.code)]
  | .vcmpeq h d a b k => [encWord 0 h 0x28 (d * 16384 + a * 256 + b * 4 + k.code)]
  | .vcmpne h d a b k => [encWord 0 h 0x29 (d * 16384 + a * 256 + b * 4 + k.code)]
  | .vcmplt h d a b k => [encWord 0 h 0x2A (d * 16384 + a * 256 + b * 4 + k.code)]
  | .vcmple h d a b k => [encWord 0 h 0x2B (d * 16384 + a * 256 + b * 4 + k.code)]
  | .vsel h d a b => [encWord 0 h 0x2C (d * 16384 + a * 256 + b * 4)]
  | .plog h d a b k => [encWord 0 h 0x2D (d * 16384 + a * 256 + b * 4 + k.code)]
  | .pmov h d a k => [encWord 0 h 0x2E (d * 16384 + a * 256 + k.code)]
  | .vshfl h d a b => [encWord 0 h 0x30 (d * 16384 + a * 256 + b * 4)]
  | .vshflx h d a n => [encWord 0 h 0x31 (d * 16384 + a * 256 + n)]
  | .vshflu h d a n => [encWord 0 h 0x32 (d * 16384 + a * 256 + n)]
  | .vshfld h d a n => [encWord 0 h 0x33 (d * 16384 + a * 256 + n)]
  | .vballot h d a => [encWord 0 h 0x34 (d * 16384 + a * 256)]
  | .vred h d a k => [encWord 0 h 0x35 (d * 16384 + a * 256 + k.code)]
  | .vaff h d a => [encWord 0 h 0x36 (d * 16384 + a * 256)]
  | .vbcast h d a => [encWord 0 h 0x37 (d * 16384 + a * 256)]
  | .vld h d a l k t => [encWord 0 h 0x38 (d * 16384 + a.code * 256 + l * 16 + k.code * 4 + t.code)]
  | .vldnf h d a l k t => [encWord 0 h 0x39 (d * 16384 + a.code * 256 + l * 16 + k.code * 4 + t.code)]
  | .vst h d a l k t => [encWord 0 h 0x3A (d * 16384 + a.code * 256 + l * 16 + k.code * 4 + t.code)]
  | .vldn h d a l k t => [encWord 0 h 0x3B (d * 16384 + a.code * 256 + l * 16 + k.code * 4 + t.code)]
  | .vstn h d a l k t => [encWord 0 h 0x3C (d * 16384 + a.code * 256 + l * 16 + k.code * 4 + t.code)]
  | .vatadd h d a l k t => [encWord 0 h 0x3D (d * 16384 + a.code * 256 + l * 16 + k.code * 4 + t.code)]
  | .vatmm h d a l k t => [encWord 0 h 0x3E (d * 16384 + a.code * 256 + l * 16 + k.code * 4 + t.code)]
  | .vatbit h d a l k t => [encWord 0 h 0x3F (d * 16384 + a.code * 256 + l * 16 + k.code * 4 + t.code)]
  | .vcas h d a l k t => [encWord 0 h 0x40 (d * 16384 + a.code * 256 + l * 16 + k.code * 4 + t.code)]
  | .vldxW h d x o l => [encWord 0 h 0x41 (d * 16384 + x * 1024 + o * 16 + l)]
  | .vldxD h d x o l => [encWord 0 h 0x42 (d * 16384 + x * 1024 + o * 16 + l)]
  | .vstxW h d x o l => [encWord 0 h 0x43 (d * 16384 + x * 1024 + o * 16 + l)]
  | .vstxD h d x o l => [encWord 0 h 0x44 (d * 16384 + x * 1024 + o * 16 + l)]
  | .vldf h d a l t => [encWord 0 h 0x45 (d * 16384 + a.code * 256 + l * 16 + 8 + t.code)]
  | .vtrd h t c i n v => [encWord 0 h 0x50 (t * 65536 + bit c * 32768 + i * 1024 + n * 64 + v)]
  | .vtwr h t c i n v => [encWord 0 h 0x51 (t * 65536 + bit c * 32768 + i * 1024 + n * 64 + v)]
  | .vtaddF32 h t c i n v => [encWord 0 h 0x52 (t * 65536 + bit c * 32768 + i * 1024 + n * 64 + v)]
  | .vtmaxF32 h t c i n v => [encWord 0 h 0x53 (t * 65536 + bit c * 32768 + i * 1024 + n * 64 + v)]
  | .vyield h => [encWord 0 h 0x57 (0)]
  | .vbr h off => [encWord 0 h 0x58 (off.toNat)]
  | .vjtab h a b => [encWord 0 h 0x59 (a * 256 + b * 4)]
  | .vcall h off => [encWord 0 h 0x5A (off.toNat)]
  | .vcallx h a => [encWord 0 h 0x5B (a * 256)]
  | .vret h => [encWord 0 h 0x5C (0)]
  | .vsusp h d a k => [encWord 0 h 0x5D (d * 16384 + a * 256 + k.code)]
  | .vspawn h d a b => [encWord 0 h 0x5E (d * 16384 + a * 256 + b * 4)]
  | .vexit h => [encWord 0 h 0x5F (0)]
  | .vrcp h d a => [encWord 0 h 0x60 (d * 16384 + a * 256)]
  | .vrsq h d a => [encWord 0 h 0x61 (d * 16384 + a * 256)]
  | .vsqrt h d a => [encWord 0 h 0x62 (d * 16384 + a * 256)]
  | .vexp2 h d a => [encWord 0 h 0x63 (d * 16384 + a * 256)]
  | .vlog2 h d a => [encWord 0 h 0x64 (d * 16384 + a * 256)]
  | .vtanh h d a => [encWord 0 h 0x65 (d * 16384 + a * 256)]
  | .vdiv h d a b => [encWord 0 h 0x66 (d * 16384 + a * 256 + b * 4)]
  | .sadd h d a b k => [encWord 1 h 0x00 (d * 16384 + a * 256 + b * 4 + k.code)]
  | .ssub h d a b k => [encWord 1 h 0x01 (d * 16384 + a * 256 + b * 4 + k.code)]
  | .smul h d a b k => [encWord 1 h 0x02 (d * 16384 + a * 256 + b * 4 + k.code)]
  | .sand h d a b => [encWord 1 h 0x03 (d * 16384 + a * 256 + b * 4)]
  | .sor h d a b => [encWord 1 h 0x04 (d * 16384 + a * 256 + b * 4)]
  | .sxor h d a b => [encWord 1 h 0x05 (d * 16384 + a * 256 + b * 4)]
  | .sshl h d a b => [encWord 1 h 0x06 (d * 16384 + a * 256 + b * 4)]
  | .sshr h d a b k => [encWord 1 h 0x07 (d * 16384 + a * 256 + b * 4 + k.code)]
  | .smin h d a b k => [encWord 1 h 0x08 (d * 16384 + a * 256 + b * 4 + k.code)]
  | .smax h d a b k => [encWord 1 h 0x09 (d * 16384 + a * 256 + b * 4 + k.code)]
  | .saddi h d a imm => [encWord 1 h 0x0A (d * 16384 + a * 256 + imm.toNat)]
  | .smovi h d imm => [encWord 1 h 0x0B (d * 16384 + imm.toNat)]
  | .smovl h d lit => [encWord 1 h 0x0C (d * 16384), lit.toNat]
  | .smov h d a => [encWord 1 h 0x0D (d * 16384 + a * 256)]
  | .snot h d a => [encWord 1 h 0x0D (d * 16384 + a * 256 + 4)]
  | .spopc h d a => [encWord 1 h 0x0D (d * 16384 + a * 256 + 8)]
  | .sclz h d a => [encWord 1 h 0x0D (d * 16384 + a * 256 + 12)]
  | .sreadl h d a b => [encWord 1 h 0x0E (d * 16384 + a * 256 + b * 4)]
  | .slui h d imm => [encWord 1 h 0x0F (d * 16384 + imm.toNat)]
  | .xset h d a b => [encWord 1 h 0x10 (d * 16384 + a * 256 + b * 4)]
  | .xaddb h d b => [encWord 1 h 0x11 (d * 16384 + b * 4)]
  | .xaddbi h d imm => [encWord 1 h 0x12 (d * 16384 + imm.toNat)]
  | .xstr h d b => [encWord 1 h 0x13 (d * 16384 + b * 4)]
  | .xget h d a k => [encWord 1 h 0x14 (d * 16384 + a * 256 + k.code)]
  | .xadd h d a b => [encWord 1 h 0x15 (d * 16384 + a * 256 + b * 4)]
  | .xmuls h d imm => [encWord 1 h 0x16 (d * 16384 + imm.toNat)]
  | .scmpeq h d a b k => [encWord 1 h 0x18 (d * 16384 + a * 256 + b * 4 + k.code)]
  | .scmpne h d a b k => [encWord 1 h 0x19 (d * 16384 + a * 256 + b * 4 + k.code)]
  | .scmplt h d a b k => [encWord 1 h 0x1A (d * 16384 + a * 256 + b * 4 + k.code)]
  | .scmple h d a b k => [encWord 1 h 0x1B (d * 16384 + a * 256 + b * 4 + k.code)]
  | .qlog h d a b k => [encWord 1 h 0x1C (d * 16384 + a * 256 + b * 4 + k.code)]
  | .qany h d a k => [encWord 1 h 0x1D (d * 16384 + a * 256 + k.code)]
  | .qmov h d a k => [encWord 1 h 0x1E (d * 16384 + a * 256 + k.code)]
  | .bra h off => [encWord 1 h 0x20 (off.toNat)]
  | .brx h a => [encWord 1 h 0x21 (a * 256)]
  | .barg h => [encWord 1 h 0x22 (0)]
  | .bar h nowait id => [encWord 1 h 0x23 (bit nowait * 16 + id)]
  | .fence h p k sc => [encWord 1 h 0x24 (p.code * 32 + k.code * 8 + sc.code)]
  | .nop h => [encWord 1 h 0x25 (0)]
  | .end_ h => [encWord 1 h 0x26 (0)]
  | .waitt h a => [encWord 1 h 0x27 (a * 256)]
  | .launch h d a => [encWord 1 h 0x28 (d * 16384 + a * 256)]
  | .fork h a b k => [encWord 1 h 0x30 (a * 256 + b * 4 + k.code)]
  | .rdv h id => [encWord 1 h 0x31 (id)]
  | .cpy h d a => [encWord 1 h 0x32 (d * 16384 + a * 256)]
  | .cpyw h d a => [encWord 1 h 0x33 (d * 16384 + a * 256)]
  | .rbind h d a => [encWord 1 h 0x34 (d * 16384 + a * 256)]
  | .rpub h d n => [encWord 1 h 0x35 (d * 16384 + n)]
  | .rwaitf h d n => [encWord 1 h 0x36 (d * 16384 + n)]
  | .steep h d a b => [encWord 1 h 0x37 (d * 16384 + a * 256 + b * 4)]
  | .meas h d a b => [encWord 1 h 0x38 (d * 16384 + a * 256 + b * 4)]
  | .trap h code => [encWord 1 h 0x40 (code.toNat)]
  | .cbegin h off => [encWord 1 h 0x41 (off.toNat)]
  | .cend h => [encWord 1 h 0x42 (0)]
  | .tlbw h d a => [encWord 1 h 0x43 (d * 16384 + a * 256)]
  | .tlbi h a k => [encWord 1 h 0x44 (a * 256 + k.code)]
  | .pgreq h d a => [encWord 1 h 0x45 (d * 16384 + a * 256)]
  | .framea h d => [encWord 1 h 0x46 (d * 16384)]
  | .framef h d a => [encWord 1 h 0x47 (d * 16384 + a * 256)]
  | .migr h d a b => [encWord 1 h 0x48 (d * 16384 + a * 256 + b * 4)]
  | .csrr h d csr => [encWord 1 h 0x49 (d * 16384 + csr.toNat)]
  | .csrw h d csr => [encWord 1 h 0x4A (d * 16384 + csr.toNat)]
  | .hret h a k => [encWord 1 h 0x4B (a * 256 + k.code)]
  | .halto h a => [encWord 1 h 0x4C (a * 256)]
  | .discard h d a b => [encWord 1 h 0x4D (d * 16384 + a * 256 + b * 4)]
  | .bincfg h d a b => [encWord 1 h 0x50 (d * 16384 + a * 256 + b * 4)]
  | .binwake h d a => [encWord 1 h 0x51 (d * 16384 + a * 256)]
  | .binflush h d => [encWord 1 h 0x52 (d * 16384)]
  | .binq h d a k => [encWord 1 h 0x53 (d * 16384 + a * 256 + k.code)]
  | .frameld h => [encWord 1 h 0x54 (0)]
  | .tbind h d a => [encWord 1 h 0x60 (d * 16384 + a * 256)]
  | .tzero h d => [encWord 1 h 0x61 (d * 16384)]
  | .tcolop h d a b k => [encWord 1 h 0x62 (d * 16384 + a * 256 + b * 4 + k.code)]
  | .tload h d a => [encWord 1 h 0x63 (d * 16384 + a * 256)]
  | .tstore h d a => [encWord 1 h 0x64 (d * 16384 + a * 256)]
  | .tacc h d a => [encWord 1 h 0x65 (d * 16384 + a * 256)]
  | .reservedOpcode w => [w.toNat]
  | .mxcfg _ a b p k => encMx 0x01 (a * 2 ^ 55 + b * 2 ^ 52 + bit p * 2 ^ 51 + k * 2 ^ 32)
  | .mxzero _ a => encMx 0x02 (a * 2 ^ 54)
  | .mxwait _ r n => encMx 0x04 (r * 2 ^ 51 + n * 2 ^ 32)
  | .mxrel _ r n => encMx 0x05 (r * 2 ^ 51 + n * 2 ^ 32)
  | .mxmma _ a x y k => encMx 0x03 (a * 2 ^ 54 + x * 2 ^ 51 + y * 2 ^ 48 + k * 2 ^ 32)
  | .mxdrain _ a f r t => encMx 0x06 (a * 2 ^ 54 + f * 2 ^ 51 + bit r * 2 ^ 50 + t * 2 ^ 46)
  | .mxloop _ n k => encMx 0x07 (n * 2 ^ 32 + k)
  | .mxsig _ i => encMx 0x08 (i * 2 ^ 55)
  | .mxfence _ => encMx 0x09 0
  | .mxend _ => encMx 0x0A 0
  | .mxIllegalCommand _ w => [w.toNat % 2 ^ 32, w.toNat / 2 ^ 32]
  | .copy _ c | .copyAead _ c | .fill _ c | .post _ c | .bcast _ c | .sig _ c =>
      (List.range 32).map (fun k => leField c.raw (4 * k) 4)
  | .promise _ => []
  | .stpFill _ => []
  | .stpAddF32 _ => []
  | .stpScale _ => []
  | .stpMaxfold _ => []
  | .stpSumx _ => []
  | .stpCvt _ => []
  | .stpXsum _ => []
  | .runStart _ => []
  | .memoryResult _ _ _ => []
  | .vldfDelivery _ _ _ _ => []
  | .waittDeadline _ => []
  | .gtcmpMatch _ => []
  | .promiseMissed _ => []
  | .flushTimer _ _ => []
  | .binLaunch _ _ => []
  | .caskRefill _ _ => []
  | .missQueued _ => []
  | .walkHandlerLaunch _ => []
  | .pageHandlerLaunch _ => []
  | .requestHandlerLaunch _ => []
  | .haltRecord _ => []
  | .trapRecord _ => []
  | .syscallSlotPoll _ => []
  | .teamPlacement _ => []
  | .gangStart _ => []
  | .gangAgeing _ => []
  | .launchAccept _ => []
  | .teamRetire _ => []
  | .gridCompletion _ => []
  | .receiptWrite _ => []
  | .preemption _ _ => []
  | .bankSwap _ => []
  | .contextSpill _ => []
  | .contextFill _ _ => []
  | .teamEviction _ => []
  | .teamRestore _ => []
  | .rackingEnd _ _ => []
  | .peerLost _ _ => []
  | .portDown _ => []
  | .flitReceive _ _ _ _ _ => []
  | .peerAccess _ _ _ _ => []
  | .packetReceive _ _ _ _ _ _ => []
  | .keyRegisterLoad _ _ => []
  | .hostCompletion _ _ _ _ _ _ => []
  | .completionTimeout _ _ => []
  | .keySetErase _ => []
  | .lockWalker _ => []
  | .lq _ _ => []
  | .reply _ _ => []
  | .hatom _ _ => []
  | .registerPageWrite _ _ _ _ => []
  | .lockedRegisterWrite _ _ _ => []
  | .telemetryRead _ _ _ => []
  | .lockInterface _ => []
  | .startInterface _ => []
  | .stopInterface _ => []
  | .kSetGo _ => []
  | .spdmRequest _ => []
  | .createOwner _ _ => []
  | .destroyOwner _ => []
  | .grant _ _ => []
  | .quota _ _ => []
  | .peer _ _ => []
  | .slotAssign _ _ => []
  | .diag _ => []
  | .logRead _ => []
  | .setReceiptRing _ _ _ => []
  | .keyPut _ _ _ _ => []
  | .allow _ _ _ => []
  | .worldShare _ _ _ => []
  | .fusedMinimumRaise _ _ => []
  | .regulatorSetting _ _ => []
  | .kilnLockstepMismatch => []
  | .rowRemap _ _ _ => []
  | .bondSteering _ _ => []
  | .coreRetire _ => []
  | .governorStep _ _ => []
  | .currentClamp => []
  | .thermtrip => []
  | .reset _ _ _ => []
  | .spStart _ => []
  | .meWake _ => []
  | .forcedRunBoundary _ => []

end Sys2Proof
end

