-- ==== Sys2Proof/Machine/State.lean ====
section
/-! DEFINITION. The state of the machine: every piece of state the spec gives the part, as plain data,
and the state right after reset. INVENTORY.md lists each field with its rule and its reset value. -/

set_option linter.unusedVariables false

namespace Sys2Proof.Machine

/-- The causes of 20 R351. -/
inductive Cause where
  | walk | page | illegalOp | illegalReg | jtabRange | tileRange | promiseMissed | timer | poison
  | align | fenceViolation | atomicUnsupported | sdc
  deriving DecidableEq, Repr

/-- One outstanding memory result of one lane (02 R29-R31). `left`: instructions the lane may still
complete before it waits; `clob`: an instruction of the window wrote the register (R30). `isPred`: the
flag of `VLDNF`. `frame`: the data of a `VLDF` that may go to a frame row (17 R298), `pc` its address
and `addr` its access address; `poisoned`: that data arrived poisoned. `path`: 0 DRAM, 1 scratch, 2 host
memory, 3 a peer (13 R229). `iid`: the issue that it belongs to (02 R20). -/
structure OutRes where
  lane : Nat
  reg : Nat
  isPred : Bool
  data : Word
  left : Nat
  clob : Bool
  frame : Bool
  pc : DWord
  addr : DWord
  poisoned : Bool
  path : Nat
  iid : Nat
  deriving DecidableEq, Repr

/-- An issue of a memory instruction whose result has not come: the lanes it belongs to and the registers it names
(02 R20), with the paths of its accesses. It comes for all of them at one moment. -/
structure Pend where
  iid : Nat
  lanes : Mask
  regs : List Nat
  paths : List Nat
  deriving DecidableEq, Repr

/-- What the lanes of a waiting issue set wait for; they issue their instruction again once it holds
(02 R26). -/
inductive WaitCond where
  | engines (id : Nat)            -- `RDV` (11 R188)
  | meIdle                        -- `FORK` (11 R184)
  | ceSlot                        -- a CE queue slot (13 R216)
  | chain (core ticket : Nat)     -- `CPYW`, the core that gave the ticket (15 R267; 19 R348)
  | ringFree (ring n : Nat)       -- `RWAITF` (11 R193)
  | racking (first last : Nat)    -- a migrating page, by page number (19 R333)
  | refill (bin : Nat)            -- a cask refill (17 R292)
  | hostPath                      -- a host access while the TDI is not in RUN (22 R387)
  | regs (l : List Nat)           -- uniform registers that a promise or a status still has to reach (02 R28)
  | results (m : Mask)            -- every outstanding memory result of some lanes (02 R31)
  | steeps (m : Mask)             -- the steep commands of some lanes (13 R236, R238)
  | requests (n : Nat)            -- room for `n` more requests of the core (00 R2)
  | portKey (core : Nat)          -- the owner's world key in the port of a core (22 R378)
  deriving DecidableEq, Repr

structure Wait where
  lanes : Mask
  cond : WaitCond
  deriving DecidableEq, Repr

/-- What a group is: started with its team, launched from a bin (17 R295), or a handler group serving
misses (19 R330), a fault batch (18 R314) or page requests (19 R331). -/
inductive GroupKind where
  | team | bin | walk | page | request
  deriving DecidableEq, Repr

/-- What lane `lane` of a handler group serves: for a fault batch the parked lanes `mask` of group
`gid`, the address of each in `addrs` and of the lowest in `addr`; for a miss or a request its page and its number `mid` in the queue. `cut`: the lanes whose service an unwind has cancelled (06 R123; 19 R338). -/
structure Served where
  lane : Nat
  mid : Nat
  gid : Nat
  mask : Mask
  page : Nat
  addr : DWord
  write : Bool
  fetch : Bool
  cut : Mask
  addrs : SMap 64
  deriving DecidableEq, Repr

/-- A group (02 R13) with its lanes' registers. `live` holds the live and the held lanes, `fbin` the
lanes parked in the owner's fault bin, `binned` those that left into a team bin; every other lane of
the group is retired (02 R18). A vector register `v(r)` of lane `i` lies at key `64 r + i`; the call
stack entry `k` of lane `i` at key `16 i + k`. `walkPage`: one more than the page a lane waits for in the
fault bin or for a full miss queue; `armed`: GTMR has not reached GTCMP since it was written (19 R347); `stall`: the CYC at which
the run's word began to wait (02 R26); `moving`: the lanes whose `TLOAD` or `TSTORE` has begun and is not complete, `xfer`
elements being moved (11 R208); `placed`: its order among the groups placed or launched on its SP (13 R217); `cpyAt`: one more than the core whose ticket a lane waits for in `CPYW` (19 R348). -/
structure Group where
  gid : Nat
  kind : GroupKind
  owner : Nat
  grid : Nat
  team : Nat
  gnum : Nat
  sp : Nat
  slot : Nat
  width : Nat
  vregs : Nat
  sregs : Nat
  prio : Nat
  pc : SMap 64
  csp : SMap 8
  cstk : SMap 64
  v : SMap 32
  p : SMap 64
  s : SMap 32
  q : BitVec 16
  xb : SMap 64
  xs : SMap 32
  live : Mask
  fbin : Mask
  binned : Mask
  hlv : Bool
  hl : Mask
  savedPc : SMap 64
  barg : Mask
  barWait : SMap 64
  yielded : Mask
  yrem : SMap 64
  asleep : Mask
  deadline : SMap 64
  mqWait : Mask
  walkPage : SMap 64
  waits : List Wait
  outst : List OutRes
  await : List Pend
  frm : Word
  fstat : Word
  cause : Word
  tval : DWord
  tlane : DWord
  gtmr : DWord
  gtcmp : DWord
  tmp : Bool
  ceinj : Word
  cstack : List DWord
  xfer : Nat
  moving : Mask
  trap : Option (Nat × Mask)
  bin : Nat
  rows : List (Nat × Nat)
  frameldDone : Bool
  started : Bool
  inRun : Bool
  iss : Mask
  ipc : DWord
  runLen : Nat
  stall : Option DWord
  waitClk : Nat
  served : List Served
  armed : Bool
  placed : Nat
  cpyAt : SMap 16
  deriving DecidableEq, Repr

/-- A bound tile (11 R206). -/
structure Tile where
  num : Nat
  base : DWord
  rows : Nat
  cols : Nat
  pitch : Nat
  kind : Nat
  deriving DecidableEq, Repr

/-- A bound ring and its counters (11 R189, R191). -/
structure Ring where
  num : Nat
  base : DWord
  stride : Nat
  slots : Nat
  pubd : Word
  cons : Word
  freed : Word
  deriving DecidableEq, Repr

/-- Row states of a bin (17 R294). -/
inductive RowState where
  | free | asleep | loading | woken | launched
  deriving DecidableEq, Repr

/-- A row of a bin's tile, or a cask row (17 R293). `pend`: the `VLDF` data still to come: column (64
when it goes nowhere), data, poison; `rid`: the host request that this data still belongs to, 0 for none (22 R390). -/
structure Row where
  num : Nat
  st : RowState
  poison : Bool
  pend : Option (Nat × Word × Bool)
  rid : Nat
  deriving DecidableEq, Repr

/-- A configured bin (17 R293). `rows` lists the tile rows that are not FREE; `cask` the occupied cask
rows in the order written; `due`: a launch is due (R295). -/
structure Bin where
  num : Nat
  tile : Nat
  resume : DWord
  live : DWord
  caskAddr : DWord
  caskRows : Nat
  rows : List Row
  cask : List Row
  timer : Nat
  due : Bool
  refill : Bool
  deriving DecidableEq, Repr

/-- A team (02 R13, 17 R307-R308). Banks are numbered 48 * core + bank in allocation order, own slice
first; arrival bits of barrier `b` and group `g` lie at key `16 b + g`. Its place in the owner's save area
is `saveLen` bytes at offset `saveOff` (19 R342). -/
structure Team where
  tid : Nat
  grid : Nat
  owner : Nat
  num : Nat
  core : Nat
  paired : Bool
  sps : List Nat
  banks : List Nat
  partnerBanks : List Nat
  tiles : List Tile
  rings : List Ring
  bins : List Bin
  arrived : SMap 64
  saveOff : Nat
  saveLen : Nat
  deriving DecidableEq, Repr

/-- A launch record (17 R305). -/
structure LaunchRec where
  paired : Bool
  matrix : Bool
  entry : DWord
  teams : Nat
  width : Nat
  groups : Nat
  vregs : Nat
  sregs : Nat
  banks : Nat
  slots : Nat
  prio : Nat
  gang : Nat
  formats : List Nat
  argAddr : DWord
  argLen : Nat
  resCount : Nat
  resTable : DWord
  htab : DWord
  reserve : DWord
  compl : DWord
  manifest : DWord
  manifestCount : Nat
  deriving DecidableEq, Repr

/-- A termination by a cause without a handler, as it is reported (01 R11). -/
structure Ended where
  gnum : Nat
  cause : Word
  tval : DWord
  tlane : DWord
  deriving DecidableEq, Repr

/-- A grid with its measurement context (22 R397, R398); it leaves the list when the context is released, or, `released`, when the last
handler group that was launched for it has gone: its handler table, formats and arguments stay that group's (19 R330, R331).
`complWord`: the completion word's value, 0 until it has been written; `gangWait`: CYC at which its next gang
began to wait. `handlers` is the table the CP read at launch
(20 R352); `done`: completed (17 R416); `device`: started by `LAUNCH`; `nextTeam`: the next team to place (17 R307); `seq`: the free-value count
at its launch, for the code it fetches (03 R39); `ended`: the terminations of its groups (01 R11). -/
structure Grid where
  gid : Nat
  owner : Nat
  record : LaunchRec
  raw : List (BitVec 8)
  args : List Word
  handlers : List DWord
  results : List (DWord × Nat)
  number : Nat
  chain : BitVec 512
  meas : List (DWord × Nat)
  unreadable : Nat
  startCyc : Option DWord
  endCyc : DWord
  nextTeam : Nat
  terminated : Bool
  discarded : Nat
  gangReserved : List Nat
  gangWait : Nat
  aged : Bool
  complWord : Word
  done : Bool
  device : Bool
  seq : Nat
  ended : List Ended
  released : Bool
  deriving DecidableEq, Repr

/-- One loop-stack entry of an ME (11 R201). -/
structure Loop where
  addr : DWord
  left : Nat
  deriving DecidableEq, Repr

/-- The matrix unit of an SP (11 R182, R185). Accumulator element [m][n] of a(k) lies at key
4096 k + 64 m + n; `written`: bit k, a(k) was written since it was last set to +0.0 (R202). `state`,
`code` and `sig` are the fields of MXSTAT. `follower`: held by the pair (R203); `pair`: the number of the pair that the unit belongs to, 0 for none. `word`: the command that the ME has read and not
completed, which it reads once (03 R48); `mma`: the counters of both rings at the claim of an MXMMA whose k-blocks are not all
summed, and the block that is next (R199, R205). -/
structure Me where
  pc : DWord
  first : DWord
  loops : List Loop
  configured : Bool
  aSlot : Nat
  bSlot : Nat
  paired : Bool
  k : Nat
  idx : List Nat
  state : Nat
  code : Nat
  nv : Bool
  of : Bool
  uf : Bool
  nx : Bool
  sig : BitVec 8
  cmd : Nat
  acc : SMap 32
  written : BitVec 16
  grid : Nat
  team : Nat
  gid : Nat
  forkChain : Option Nat
  wakeAt : DWord
  follower : Bool
  pair : Nat
  missing : Bool
  word : Option DWord
  mma : Option (Word × Word × Nat)
  deriving DecidableEq, Repr

/-- A sub-partition (02 R27; 19 R341; 22 R402, R413). `owner`: its last holder, whose translations its core
still holds; `shadow`: groups in the shadow bank, with `shadowMe` of owner `shadowOwner` (0: the bank is empty), `filled`: they are
the context that comes in; `incoming`: the context asked for by a pre-emption; `freed`: a swap at the host's command left the SP idle (19 R324); `swapClk`: clk until its banks have swapped; `nextClk`: the CYC from which it
issues its next word; `began`: a run began there in this clk (13 R217); `sdc`: it has had an SDC (22 R402). -/
structure Sp where
  num : Nat
  up : Bool
  quarantined : Bool
  owner : Nat
  me : Me
  shadow : List Group
  shadowMe : Me
  shadowOwner : Nat
  filled : Bool
  freed : Bool
  preempt : Bool
  incoming : Option Nat
  swapClk : Nat
  nextClk : DWord
  began : Bool
  sdc : Bool
  deriving DecidableEq, Repr

/-- What a sealed card's access met at its check, which the card holds until it ends (21 R372): a key, a discarded page, a path that is
gone, a lost peer. -/
inductive Held where
  | at (key : Nat)
  | zero
  | dead
  | lost
  deriving DecidableEq, Repr

/-- How far a card has come that waits for a page (15 R275): the accesses made, `pos`; the elements read, each with its number, bytes and
poison, the latest first, and those written; the bytes it has written as they were before it wrote them (15 R269); the key ranges written
with good data. Of a COLL card also its descriptor as read, what has gone out to its members, the status that has given, and the status it
is logged with once it ends (15 R283-R286); of a sealed card what its accesses met, and whether it has used its IV (15 R272). -/
structure Prog where
  pos : Nat
  data : List (Nat × List (BitVec 8) × Bool)
  written : List Nat
  before : List (Nat × BitVec 8)
  wrote : List (Nat × Nat)
  desc : List (BitVec 8)
  out : Nat
  st : Nat
  ending : Option Nat
  held : List Held
  ivUsed : Bool
  deriving DecidableEq, Repr

/-- A chain of cards (15 R264-R268): `status` none while it runs; `after` the chain u of R266 (0 none);
`deck`: the cards read so far, each once, and the sum of their costs; `readAt`: the card to read next, `raw`: its 128 bytes once they
are read, `deckEnd`: the status the reading stopped with (03 R49); `read`: its promise stands; `promReg` the register pair the promise still has to reach; `seq`: the
free-value count at its submission; `stopped`: a halt of its owner has stopped its card (18 R316); `prog`: its card has begun. -/
structure Chain where
  cid : Nat
  core : Nat
  owner : Nat
  grid : Nat
  team : Nat
  ticket : Nat
  first : DWord
  card : DWord
  cards : Nat
  read : Bool
  submitCyc : DWord
  after : Nat
  promise : DWord
  missed : Bool
  status : Option Nat
  csum : Word
  csumKind : Nat
  chainOut : Bool
  runJ : Nat
  word : Nat
  inj : Option (Nat × Nat)
  fork : Bool
  raised : BitVec 8
  group : Nat
  promReg : Option Nat
  waitPage : Bool
  deck : List Card
  readAt : DWord
  raw : List (BitVec 8)
  cost : Nat
  deckEnd : Option Nat
  seq : Nat
  stopped : Bool
  prog : Option Prog
  deriving DecidableEq, Repr

/-- A steep command handed to the DS (15 R276): `va` the address it names, which its footprint covers (13 R235),
`addr` the same byte in the global window; `lanes` submitted it; `held`: its owner halted while a DS edge held it back, so it stays
queued (18 R316). -/
structure SteepJob where
  jid : Nat
  core : Nat
  owner : Nat
  grid : Nat
  gid : Nat
  lanes : Mask
  addr : DWord
  cmd : Word
  operand : Word
  dst : Nat
  seq : Nat
  va : DWord
  held : Bool
  deriving DecidableEq, Repr

/-- A racking migration (19 R333): `round` rounds are copied, the first when it begins unless the path of its page does not flow;
`marked` are the lines that the next one copies; `frozen`: it is the last, and writes wait. -/
structure Racking where
  owner : Nat
  core : Nat
  gid : Nat
  dst : Nat
  page : Nat
  oldFrame : Nat
  newFrame : Nat
  marked : List Nat
  round : Nat
  frozen : Bool
  deriving DecidableEq, Repr

/-- An SRAM bank (13 R221, R222; 22 R403). `words`: the CYC of its latest uncorrectable words, at most three. -/
structure Bank where
  num : Nat
  fence : Nat
  failed : Bool
  words : List DWord
  deriving DecidableEq, Repr

/-- A DRAM row that has returned corrected or uncorrectable lines: `times` are the CYC of its latest corrections, at most eight (22
R404). -/
structure RowErrs where
  bank : Nat
  row : Nat
  bad : Bool
  times : List DWord
  deriving DecidableEq, Repr

/-- A bond that has had corrected errors: the CYC of the latest, at most 1,025; `untrained`: it failed training (22 R405). -/
structure BondErrs where
  channel : Nat
  bond : Nat
  untrained : Bool
  times : List DWord
  deriving DecidableEq, Repr

/-- Page state of a TLB entry (19 R325). -/
inductive PageState where
  | resident | absent | discarded | migrating
  deriving DecidableEq, Repr

/-- A TLB entry of an owner with the cores that hold it (19 R325, R327, R328). `page`: the number of its
first 64 KiB page; `big`: 2 MiB. -/
structure Tlb where
  page : Nat
  big : Bool
  pin : Bool
  st : PageState
  ord : Nat
  r : Bool
  w : Bool
  x : Bool
  frame : Nat
  cores : List Nat
  deriving DecidableEq, Repr

/-- An entry of the miss queue (19 R329): a miss, or a request; `mid` is its number. -/
structure Miss where
  mid : Nat
  page : Nat
  request : Bool
  cores : List Nat
  sp : Nat
  claimed : Bool
  write : Bool
  fetch : Bool
  engine : Bool
  grid : Nat
  deriving DecidableEq, Repr

/-- A fault batch waiting for the handler slot of an SP (18 R313, R314): the pages of one issue's parked
lanes, each with its lanes and the address of the lowest; the address of every lane in `addrs`. -/
structure Batch where
  sp : Nat
  gid : Nat
  grid : Nat
  pages : List (Nat × Mask × DWord)
  write : Bool
  fetch : Bool
  addrs : SMap 64
  deriving DecidableEq, Repr

/-- The halt of an owner (18 R316, R318). `written`: its record stands in the ring; `ctr`: the free-value count at the halt. -/
structure Halt where
  kind : Nat
  detail : Nat
  cyc : DWord
  addr : DWord
  pc : DWord
  core : Nat
  spByte : Nat
  cause : Word
  reasonWord : Word
  written : Bool
  ctr : Nat
  deriving DecidableEq, Repr

/-- TDI states (22 R387, R392). -/
inductive Tdi where
  | unlocked | locked | run | error
  deriving DecidableEq, Repr

/-- A record waiting for its syscall-ring slot (20 R354): its first 64 bytes; `gid` the trapping group. -/
structure RingRec where
  seq : Nat
  bytes : List (BitVec 8)
  gid : Option Nat
  deriving DecidableEq, Repr

/-- The word of an atomic on the host: its key, its bytes, and its value before the atomic and after it. -/
structure HostWord where
  key : Nat
  bytes : Nat
  old : Nat
  new : Nat
  deriving DecidableEq, Repr

/-- A non-posted host request of a lane on a TDI, of the issue `iid`: it is outstanding until its result comes or it times out, whatever
becomes of its group (22 R390). `word`: of an atomic, which the host may or may not have performed (22 R391). `home`: the address of an
instruction without lookahead, behind which the lane waits. -/
structure HostReq where
  rid : Nat
  iid : Nat
  oldSet : Bool
  issued : DWord
  gid : Nat
  lane : Nat
  addr : DWord
  word : Option HostWord
  home : Option DWord
  deriving DecidableEq, Repr

/-- A device launch that the CP has not dealt with: the launching group, its grid and SP, the register its status goes to, and
the record's address (17 R311). -/
structure DevLaunch where
  gid : Nat
  grid : Nat
  sp : Nat
  dst : Nat
  va : DWord
  deriving DecidableEq, Repr

/-- An owner (19 R321, R322). `devLaunches`: device launches that wait for their record; `launches`: host launches in the order of their writes to LQ; `replies`: signals of
replies the CP has not dealt with; `cpAsked`: pages the CP has requested for the work it is at (22 R397); `missSeq`: the entries its miss queue has had; `recent`: the (core, page) pairs translated, the most recent first, for the
replacement of R327; `lockDigest`: the digest taken at the last lock; `lost`: peers lost to this owner alone (15 R282); `finalNumber`
and `finalChain`: the number and the chain of the launch completed last (19 R321); `msix`: the times its VF's vector was raised (22 R386); `exports`: where each 64 KiB of the owner's
export to its peers begins (15 R281). -/
structure Owner where
  id : Nat
  worldSlot : Nat
  quotas : Quotas
  rect : List Nat
  htab : DWord
  missQueueVa : DWord
  saveVa : DWord
  saveLen : Nat
  ringVa : DWord
  ringRecords : Nat
  stallVa : DWord
  reserve : List (Nat × Nat)
  grants : List Extent
  peers : List Nat
  launchCounter : Nat
  finalNumber : Nat
  finalChain : BitVec 512
  allotment : List Nat
  held : List Nat
  tlb : List Tlb
  recent : List (Nat × Nat)
  misses : List Miss
  missWaiting : List Miss
  missSeq : Nat
  batches : List Batch
  halt : Option Halt
  ringSeq : Nat
  ringWaiting : List RingRec
  pollAt : DWord
  replies : List Word
  stall : List DWord
  contextBytes : DWord
  devLaunches : List DevLaunch
  launches : List DWord
  cpAsked : List Nat
  receiptVa : DWord
  receiptCount : Nat
  lastReceipt : Nat
  tdi : Tdi
  lockDigest : Option (BitVec 512)
  hatom : Word
  atomicEnable : Bool
  lockedRegs : List Word
  kOld : Bool
  kCur : Bool
  kSwitchAt : DWord
  hostReqs : List HostReq
  allowList : Word
  denied : Nat
  epoch : Nat
  tenantKey : List (BitVec 8)
  actSp : DWord
  actRun : DWord
  bwDram : DWord
  bwHost : DWord
  bwPeer : DWord
  tickets : SMap 32
  exports : List Nat
  lost : List Nat
  peerKeys : List (Nat × BitVec 256)
  msix : Nat
  deriving DecidableEq, Repr

/-- A slot of the key store (22 R383). Kind 0 empty, 1 world key, 2 AEAD key. `next`: a key whose load waits for the end of a card (21
R375). -/
structure KeySlot where
  num : Nat
  key : BitVec 256
  kind : Nat
  owner : Nat
  lastIv : Nat
  next : Option (BitVec 256)
  deriving DecidableEq, Repr

/-- A port key register (22 R378), with the counters of the flows it has sent. -/
structure PortKey where
  port : Nat
  owner : Nat
  epoch : Nat
  lastUse : DWord
  sent : SMap 64
  deriving DecidableEq, Repr

/-- The receiving side of a flow (22 R379). -/
structure Flow where
  flow : Nat
  epoch : Nat
  expected : Nat
  deriving DecidableEq, Repr

/-- A Psiek port (15 R280; 22 R417). State 0 down, 1 training, 2 up. -/
structure Port where
  num : Nat
  state : Nat
  replays : Nat
  sameReplays : Nat
  fec : Nat
  seq : Nat
  deriving DecidableEq, Repr

/-- An inbound COLL stream (15 R285): the destination range by its offset in the owner's export, and how many of its bytes have
come. -/
structure Inbound where
  dev : Nat
  owner : Nat
  start : Nat
  len : Nat
  got : Nat
  deriving DecidableEq, Repr

/-- Entries of the event log (22 R407). -/
inductive Event where
  | corrected | rebuilt | remap | bond | retired | quarantine | cipher | request
  deriving DecidableEq, Repr

/-- Entries of the violation log (22 R407). -/
structure Violation where
  cyc : DWord
  addr : DWord
  target : Nat
  requester : Nat
  reqOwner : Nat
  reason : Nat
  deriving DecidableEq, Repr

/-- A saved context of an SP, or the image of an evicted team (19 R341-R345): its groups, MEs and, for an
eviction, its team and bank contents, beside the image of `len` bytes at `va` in the owner's save area. A context has one record
for each team on the SP. `was`: the groups at the save, beside `groups` as events have changed them since; `ctr`: the free-value
count at the save. -/
structure Saved where
  ctx : Nat
  owner : Nat
  eviction : Bool
  va : DWord
  len : Nat
  sp : Nat
  groups : List Group
  mes : List Me
  team : Option Team
  bankBytes : SMap 8
  was : List Group
  ctr : Nat
  deriving DecidableEq, Repr

/-- Faults of a hardware nature (19 R339; 13 R222; 11 R199; 22 R380): the outside puts them in `State.upsets`
by a turn, they strike the next step of an agent and are gone after it (DESIGN CHOICE, log entry 11). -/
inductive Upset where
  | mismatchOnce                 -- the main and check copies differ, the retry agrees
  | sdc                          -- the mismatch persists (19 R339)
  | meResidue                    -- a residue mismatch of the ME persists (11 R199)
  | uncorrectable (addr : Nat)   -- a block that cannot be corrected or rebuilt (13 R222)
  | hostError                    -- an error completion from the host (13 R218)
  | unsupportedRequest           -- an AtomicOp completes with Unsupported Request (14 R260)
  | exportRefused (dev : Nat)    -- the peer refuses an access beyond its export (15 R281)
  | badFlit                      -- a flit that fails its world tag (22 R381)
  | badPacket (block : Nat) (write : Bool)   -- a packet that fails R379 of chapter 22: a read of the block is poisoned, a write is lost
  deriving DecidableEq, Repr

/-- Answers the Kiln gives a request (22 R385). -/
inductive Answer where
  | none
  | ok
  | error
  | diagnostics (bytes : List (BitVec 8))
  | bringUp (step unit : Nat)
  | log (bytes : List (BitVec 8))
  | word (v : DWord)
  | spdm (n : Nat)
  | data (bytes : List (BitVec 8)) (poisoned : Bool)
  deriving DecidableEq, Repr

/-- Which agent moves next, or what the outside world does next (DESIGN CHOICE, log entry 9). -/
inductive Turn where
  | issue (sp : Nat)      -- the SP issues the next word of its run, or starts one
  | me (sp : Nat)         -- the ME of the SP executes its next command
  | card (chain : Nat)    -- the CE runs the chain's next card
  | steep (job : Nat)     -- a bank performs a steep command
  | event (i : Instr)     -- an event of the device or its outside
  | upset (u : Upset)     -- a fault that strikes the next agent that moves
  | idle                  -- a clk in which nothing moves
  | secded (bank : Nat)   -- a bank returns an uncorrectable word, which is rebuilt (13 R222)
  | outside (key : Nat) (bytes : List (BitVec 8))   -- the host or a peer writes its own memory
  | sense (pwr : Word) (temp : List Word) (link : Word)   -- power, temperatures and link as they are (22 R417)
  | routes (r : List (Nat × List Nat))      -- the host's route table: the ports of each peer (15 R280)
  | exportMap (owner : Nat) (l : List Nat)  -- the export of an owner to its peers (15 R281)
  | register (owner reg : Nat) (v : Word)   -- a locked register changes by another path (22 R388)
  | load (owner frame : Nat) (bytes : List (BitVec 8))   -- the loader places a frame, which the owner then holds (20 R350)
  | descriptor (owner : Nat)                -- the host reads an owner descriptor through the Kiln (19 R321)
  | selfTest (banks sps : List Nat)         -- banks and SPs that fail their test at bring-up (22 R414)
  | corrected (bank row bond : Nat)         -- the ECC of a DRAM line corrects an error of a bond (22 R404, R405)
  | training (bonds : List (Nat × Nat))     -- bonds that fail training at bring-up (22 R405, R414)
  | session (dev : Nat)                     -- the Kiln of a peer has authenticated itself in a session (22 R385)
  | worldEnd (owner dev : Nat)              -- the Kiln of a peer reports the owner's world there halted or destroyed (15 R282)
  deriving DecidableEq, Repr

/-- The machine. `stale`: for a word of memory, by its key over 4, what it held before a write that some reader may still miss, and
the free-value count at that write (03 R39, R49); `versions`: the write versions of the DRAM lines (22 R380); `worldEnds`: worlds of owners that
the Kiln of a peer has reported halted or destroyed (15 R282); `firmware`, `cdi0`: the measurement of the running firmware and what
the ROM derived, `seedLocked`: the seed fuses are locked (22 R384, R408); `failUnit`: the unit that failed at bring-up (22 R414); `rowErrs`, `bondErrs`: what the DRAM's ECC has found (22 R404, R405); `tagFails`: the lines, by their keys over 64, under another world's key (22 R380); `sessions`: the peers whose Kilns have authenticated themselves (22 R385);
`stepAt`: the CYC from which the arithmetic clock may be stepped again (22 R413). -/
structure State where
  cur : Group
  groups : List Group
  teams : List Team
  grids : List Grid
  owners : List Owner
  sps : List Sp
  chains : List Chain
  steeps : List SteepJob
  rackings : List Racking
  banks : List Bank
  mem : SMap 8
  stale : List (Nat × Word × Nat)
  versions : SMap 64
  poison : List Nat
  saved : List Saved
  keys : List KeySlot
  portKeys : List PortKey
  flows : List Flow
  ports : List Port
  lostPeers : List Nat
  worldEnds : List (Nat × Nat)
  routes : List (Nat × List Nat)
  inbound : List Inbound
  events : List Event
  violations : List Violation
  remaps : List (Nat × Nat)
  failedBonds : List (Nat × Nat)
  rowErrs : List RowErrs
  tagFails : List Nat
  bondErrs : List BondErrs
  sessions : List Nat
  retiredBanks : List Nat
  retiredCores : List Nat
  sdcCount : Nat
  meWake : SMap 64
  kilnStopped : Bool
  bringUp : Nat
  spAt : DWord
  minVersion : Nat
  version : Nat
  firmware : BitVec 512
  cdi0 : BitVec 512
  seedLocked : Bool
  failUnit : Nat
  stepAt : DWord
  regs : List Nat
  pwr : Word
  temp : List Word
  aclk : List Nat
  link : Word
  powerOff : Bool
  cyc : DWord
  answer : Answer
  nextId : Nat
  nextSeq : Nat
  freeCtr : Nat
  turns : List Turn
  upsets : List Upset
  deriving DecidableEq, Repr

/-- Why a step ends in a fault. No instruction and no event raises one. -/
inductive Fault where
  | powerRemoved   -- raised by `step` of a part whose power THERMTRIP# has removed, until a RESET (22 R412): safe, nothing runs there
  deriving DecidableEq, Repr

/-- Why a step is refused. -/
inductive Refusal where
  | notModelled (mnemonic : String)   -- an arm of `exec` without a meaning: safe, the machine stops
  deriving DecidableEq, Repr

/-- A group with no live lane and every register at the values of 02 R15 for width `w`. -/
def Group.empty : Group :=
  { gid := 0, kind := .team, owner := 0, grid := 0, team := 0, gnum := 0, sp := 0, slot := 0
    width := 32, vregs := 64, sregs := 64, prio := 0
    pc := [], csp := [], cstk := [], v := [], p := [], s := [], q := 0, xb := [], xs := [(15, 1)]
    live := 0, fbin := 0, binned := 0, hlv := false, hl := 0, savedPc := []
    barg := 0, barWait := [], yielded := 0, yrem := [], asleep := 0, deadline := [], mqWait := 0, walkPage := []
    waits := [], outst := [], await := [], frm := 0, fstat := 0, cause := 0, tval := 0, tlane := 0
    gtmr := 0, gtcmp := 0, tmp := false, ceinj := 0, cstack := [], xfer := 0, moving := 0, trap := none
    bin := 0, rows := [], frameldDone := false, started := false
    inRun := false, iss := 0, ipc := 0, runLen := 0, stall := none, waitClk := 0, served := [], armed := false, placed := 0
    cpyAt := [] }

def Me.idle : Me :=
  { pc := 0, first := 0, loops := [], configured := false, aSlot := 0, bSlot := 0, paired := false, k := 0
    idx := [], state := 0, code := 0, nv := false, of := false, uf := false, nx := false, sig := 0, cmd := 0
    acc := [], written := 0, grid := 0, team := 0, gid := 0, forkChain := none, wakeAt := 0, follower := false, pair := 0
    missing := false, word := none, mma := none }

def Sp.down : Sp :=
  { num := 0, up := false, quarantined := false, owner := 0, me := Me.idle, shadow := [], shadowMe := Me.idle, shadowOwner := 0
    filled := false, freed := false, preempt := false, incoming := none, swapClk := 0, nextClk := 0, began := false, sdc := false }

def Owner.none : Owner :=
  { id := 0, worldSlot := 0, quotas := ⟨0, 0, 0, 0, 0⟩, rect := [0, 0, 0, 0], htab := 0, missQueueVa := 0
    saveVa := 0, saveLen := 0, ringVa := 0, ringRecords := 0, stallVa := 0, reserve := [], grants := []
    peers := [], launchCounter := 0, finalNumber := 0, finalChain := 0, allotment := [], held := [], tlb := [], recent := [], misses := []
    missWaiting := [], missSeq := 0, batches := [], halt := Option.none, ringSeq := 0, ringWaiting := []
    pollAt := 0, replies := [], stall := [0, 0, 0, 0, 0, 0], contextBytes := 0, devLaunches := [], launches := [], cpAsked := [], receiptVa := 0
    receiptCount := 0, lastReceipt := 0, tdi := .unlocked, lockDigest := Option.none, hatom := 0, atomicEnable := false
    lockedRegs := [], kOld := false, kCur := false, kSwitchAt := 0, hostReqs := [], allowList := 0, denied := 0
    epoch := 1, tenantKey := [], actSp := 0, actRun := 0, bwDram := 0, bwHost := 0, bwPeer := 0
    tickets := [], exports := [], lost := [], peerKeys := [], msix := 0 }

def LaunchRec.none : LaunchRec :=
  { paired := false, matrix := false, entry := 0, teams := 1, width := 32, groups := 1, vregs := 64, sregs := 64
    banks := 0, slots := 1, prio := 0, gang := 0, formats := [], argAddr := 0, argLen := 0, resCount := 0
    resTable := 0, htab := 0, reserve := 0, compl := 0, manifest := 0, manifestCount := 0 }

def Grid.none : Grid :=
  { gid := 0, owner := 0, record := LaunchRec.none, raw := [], args := [], handlers := [], results := []
    number := 0, chain := 0, meas := [], unreadable := 0, startCyc := Option.none, endCyc := 0, nextTeam := 0
    terminated := false, discarded := 0, gangReserved := [], gangWait := 0, aged := false, complWord := 0
    done := false, device := false, seq := 0, ended := [], released := false }

def Team.none : Team :=
  { tid := 0, grid := 0, owner := 0, num := 0, core := 0, paired := false, sps := [], banks := []
    partnerBanks := [], tiles := [], rings := [], bins := [], arrived := [], saveOff := 0, saveLen := 0 }

/-- The machine right after reset: no owner, no group, nothing listed in memory, CYC 0, every unit
down (22 R413, R414; 19 R346). The issue slot holds a group with no live lane. Values the spec does not give at reset (the
issue slot's registers, PWR, TEMP, LINK, ACLK, the regulators): DESIGN CHOICE, log entry 2. -/
def State.reset : State :=
  { cur := Group.empty, groups := [], teams := [], grids := [], owners := [], sps := [], chains := []
    steeps := [], rackings := [], banks := [], mem := [], stale := [], versions := [], poison := [], saved := [], keys := [], portKeys := []
    flows := [], ports := [], lostPeers := [], worldEnds := [], routes := [], inbound := [], events := [], violations := [], remaps := []
    failedBonds := [], rowErrs := [], tagFails := [], bondErrs := [], sessions := [], retiredBanks := [], retiredCores := [], sdcCount := 0, meWake := [], kilnStopped := false
    bringUp := 0, spAt := 0, minVersion := 0, version := 0, firmware := 0, cdi0 := 0, seedLocked := false
    failUnit := 0, stepAt := 0, regs := [0, 0, 0, 0, 0], pwr := 0, temp := [0, 0, 0]
    aclk := [16, 16], link := 0, powerOff := false, cyc := 0, answer := .none, nextId := 1, nextSeq := 0
    freeCtr := 0, turns := [], upsets := [] }

end Sys2Proof.Machine
end

