-- ==== Sys2Proof/Machine/Ops.lean ====
section
/-! DEFINITION. The shared operations: finding and changing the parts of the state, register access with
the lookahead windows, moving PCs, lane states, barriers, retirement, taking an exception, the unwind, the
halt, and the return from handler level. -/

set_option linter.unusedVariables false

namespace Sys2Proof.Machine

abbrev Out := Host.Outcome State Fault Refusal

/-! ## Finding and changing parts of the state -/

def State.ownerOf (s : State) (id : Nat) : Owner := findD (·.id == id) Owner.none s.owners
def State.gridOf (s : State) (id : Nat) : Grid := findD (·.gid == id) Grid.none s.grids
def State.teamOf (s : State) (id : Nat) : Team := findD (·.tid == id) Team.none s.teams
def State.spOf (s : State) (n : Nat) : Sp := findD (·.num == n) Sp.down s.sps
def State.bankOf (s : State) (n : Nat) : Bank := findD (·.num == n) ⟨0, 0, false, []⟩ s.banks
def State.chainOf (s : State) (id : Nat) : Option Chain := s.chains.find? (·.cid == id)

def State.modOwner (s : State) (id : Nat) (f : Owner → Owner) : State :=
  { s with owners := modAll (·.id == id) f s.owners }
def State.modGrid (s : State) (id : Nat) (f : Grid → Grid) : State :=
  { s with grids := modAll (·.gid == id) f s.grids }
def State.modTeam (s : State) (id : Nat) (f : Team → Team) : State :=
  { s with teams := modAll (·.tid == id) f s.teams }
def State.modSp (s : State) (n : Nat) (f : Sp → Sp) : State :=
  { s with sps := modD (·.num == n) { Sp.down with num := n } f s.sps }
def State.modMe (s : State) (n : Nat) (f : Me → Me) : State := s.modSp n (fun p => { p with me := f p.me })
def State.modChain (s : State) (id : Nat) (f : Chain → Chain) : State :=
  { s with chains := modAll (·.cid == id) f s.chains }
def State.modBank (s : State) (n : Nat) (f : Bank → Bank) : State :=
  { s with banks := modD (·.num == n) ⟨n, 0, false, []⟩ f s.banks }

/-- Every resident group, the one in the issue slot first. -/
def State.allGroups (s : State) : List Group := s.cur :: s.groups

def State.groupOf (s : State) (gid : Nat) : Option Group := s.allGroups.find? (·.gid == gid)

/-- Change the groups with `p`, the one in the issue slot among them. -/
def State.modGroups (s : State) (p : Group → Bool) (f : Group → Group) : State :=
  { s with cur := if p s.cur then f s.cur else s.cur, groups := modAll p f s.groups }

/-- Change the groups with `p` wherever their contexts are: resident, in a shadow bank or saved. -/
def State.modContexts (s : State) (p : Group → Bool) (f : Group → Group) : State :=
  { (s.modGroups p f) with
    sps := s.sps.map (fun (x : Sp) => { x with shadow := modAll p f x.shadow })
    saved := s.saved.map (fun (x : Saved) => { x with groups := modAll p f x.groups }) }

/-- Change the group with a number. -/
def State.modGid (s : State) (gid : Nat) (f : Group → Group) : State := s.modContexts (fun g => g.gid == gid) f

/-- The team of a saved context's record, 0 for a record of handler groups. -/
def Saved.tid (x : Saved) : Nat :=
  match x.groups with
  | g :: _ => g.team
  | [] => (x.mes.headD Me.idle).team

/-- Every ME program there is, also those that are switched out: an SP's, the one in its shadow bank, those of saved contexts. -/
def State.allMes (s : State) : List Me := s.sps.map (·.me) ++ s.sps.map (·.shadowMe) ++ s.saved.flatMap (·.mes)

/-- Every group, also those that are switched out. -/
def State.contextGroups (s : State) : List Group := s.allGroups ++ s.sps.flatMap (·.shadow) ++ s.saved.flatMap (·.groups)

def State.modCur (s : State) (f : Group → Group) : State := { s with cur := f s.cur }

/-- The core of an SP: SPs are numbered 4 * core + SP number (00 R2). -/
def coreOf (sp : Nat) : Nat := sp / 4

def State.curOwner (s : State) : Owner := s.ownerOf s.cur.owner
def State.curGrid (s : State) : Grid := s.gridOf s.cur.grid
def State.curTeam (s : State) : Team := s.teamOf s.cur.team
def State.curCore (s : State) : Nat := coreOf s.cur.sp

/-- The group still has a lane (06 R124). -/
def Group.alive (g : Group) : Bool := g.live ||| g.fbin != 0

/-- Held lanes: at handler level, the live lanes that are no handler lanes (01 R11). -/
def Group.held (g : Group) : Mask := if g.hlv then g.live &&& ~~~g.hl else 0

/-- Bring a group into the issue slot. A group that has no lane left is not kept. -/
def State.focus (s : State) (gid : Nat) : State :=
  if s.cur.gid = gid then s
  else match s.groups.find? (·.gid == gid) with
    | some g =>
      let rest := s.groups.filter (·.gid != gid)
      { s with cur := g, groups := if s.cur.alive then s.cur :: rest else rest }
    | none => s

/-- Do something to the state with a group in the issue slot, and bring the other group back. -/
def State.onGroup (s : State) (gid : Nat) (f : State → State) : State := (f (s.focus gid)).focus s.cur.gid

/-! ## Registers -/

/-- `v(r)` of lane `i` as the register file holds it. -/
def Group.vraw (g : Group) (r i : Nat) : Word := g.v.get (64 * r + i)

/-- The number of the free choice that operand `n` makes over an outstanding result: one for each result and each
read (02 R30). These numbers are odd; every other free choice has an even one. -/
def OutRes.choice (e : OutRes) (n : Nat) : Nat := 2 * (2 * (64 * (32 * e.iid + n) + e.reg) + (if e.isPred then 1 else 0)) + 1

/-- Operand `n` of the instruction, `v(r)` of lane `i`: inside a lookahead window each outstanding
result of the register may be seen or not (02 R30); data that is held for a row is not in the register (17 R298). -/
def State.vreg (s : State) (n r i : Nat) : Word :=
  s.cur.outst.foldl
    (fun acc e => if e.lane = i ∧ e.reg = r ∧ e.isPred = false ∧ e.frame = false ∧ Config.freeBit s.freeCtr (e.choice n) i = true
      then e.data else acc)
    (s.cur.vraw r i)

/-- The even-odd vector pair at `r` of lane `i`. -/
def State.vpair (s : State) (n r i : Nat) : DWord := pairW (s.vreg (n + 8) (r + 1) i) (s.vreg n r i)

/-- The lanes in which predicate `r` reads as set, under the lookahead windows. -/
def State.preg (s : State) (n r : Nat) : Mask :=
  s.cur.outst.foldl
    (fun acc e => if e.isPred = true ∧ e.reg = r ∧ Config.freeBit s.freeCtr (e.choice n) e.lane = true
      then (if e.data = 0 then acc &&& ~~~Mask.one e.lane else acc ||| Mask.one e.lane) else acc)
    (s.cur.p.get r)

def Group.sreg (g : Group) (r : Nat) : Word := g.s.get r
def Group.spair (g : Group) (r : Nat) : DWord := pairW (g.sreg (r + 1)) (g.sreg r)
def Group.qbit (g : Group) (r : Nat) : Bool := g.q.getLsbD r

/-- Lane `i` of affine register `x` (02 R34). -/
def Group.affine (g : Group) (x i : Nat) : DWord :=
  g.xb.get x + BitVec.ofNat 64 i * (g.xs.get x).signExtend 64

/-- A write to `v(r)` inside a window leaves either value (02 R30). -/
def markClob (isPred : Bool) (m : Mask) (r : Nat) (l : List OutRes) : List OutRes :=
  l.map (fun e => if e.reg = r ∧ e.isPred = isPred ∧ m.has e.lane = true then { e with clob := true } else e)

/-- `v(r)[i] := f i` in the lanes of `m`. -/
def Group.setV (g : Group) (m : Mask) (r : Nat) (f : Nat → Word) : Group :=
  { g with v := g.v.setMany (64 * r) m.has f 64, outst := markClob false m r g.outst }

/-- `p(r)` takes the bits of `x` in the lanes of `m`. -/
def Group.setP (g : Group) (m : Mask) (r : Nat) (x : Mask) : Group :=
  { g with p := g.p.set r ((g.p.get r &&& ~~~m) ||| (x &&& m)), outst := markClob true m r g.outst }

def Group.setS (g : Group) (r : Nat) (x : Word) : Group := { g with s := g.s.set r x }
def Group.setSPair (g : Group) (r : Nat) (x : DWord) : Group := (g.setS r (loW x)).setS (r + 1) (hiW x)
def Group.setQ (g : Group) (r : Nat) (b : Bool) : Group :=
  { g with q := if b then g.q ||| BitVec.ofNat 16 (2 ^ r) else g.q &&& ~~~BitVec.ofNat 16 (2 ^ r) }
def Group.setX (g : Group) (r : Nat) (base : DWord) (stride : Word) : Group :=
  { g with xb := g.xb.set r base, xs := g.xs.set r stride }

/-! ## PCs and lookahead windows -/

def Group.setPc (g : Group) (m : Mask) (f : Nat → DWord) : Group :=
  { g with pc := g.pc.setMany 0 m.has f 64 }

/-- Deliver one outstanding result into the registers (02 R29, R30). -/
def Group.deliver (ctr : Nat) (g : Group) (e : OutRes) : Group :=
  let use := !e.clob || Config.freeBit ctr (e.choice 31) e.lane
  if use = false then g
  else if e.isPred then
    { g with
      p := g.p.set e.reg
        (if e.data = 0 then g.p.get e.reg &&& ~~~Mask.one e.lane else g.p.get e.reg ||| Mask.one e.lane) }
  else { g with v := g.v.set (64 * e.reg + e.lane) e.data }

/-- A result whose window is used up and which can be written before it is seen to come, since its lane waits until then: not one that a
completion of the host can still fail, and not data that may go to a row. -/
def OutRes.early (e : OutRes) : Bool := e.left == 0 && !e.frame && e.path != 2

/-- Deliver the outstanding results with `p`. -/
def Group.deliverIf (ctr : Nat) (g : Group) (p : OutRes → Bool) : Group :=
  let h := (g.outst.filter p).foldl (Group.deliver ctr) g
  { h with outst := g.outst.filter (fun e => !p e) }

/-- Every outstanding result is delivered; what arrived poisoned reaches no register (13 R223). -/
def Group.deliverAll (ctr : Nat) (g : Group) : Group :=
  { g.deliverIf ctr (fun e => !e.poisoned) with outst := [], await := [] }

/-- The lanes of `m` complete one instruction: their windows count it, and a result whose window is
used up is delivered, since the lane's next instruction waits for it (02 R29). Data of a `VLDF` waits
for the next word (17 R298), and data of the host for its completion, which may still fail (22 R390). -/
def Group.complete (ctr : Nat) (g : Group) (m : Mask) : Group :=
  let g : Group := { g with outst := g.outst.map (fun e => if m.has e.lane = true then { e with left := e.left - 1 } else e) }
  g.deliverIf ctr (fun e => m.has e.lane && e.early)

/-- The lanes of `m` move to `ipc + len` having completed the word. -/
def State.goOn (s : State) (m : Mask) (len : Nat) : State :=
  { s with cur := (s.cur.complete s.freeCtr m).setPc m (fun _ => s.cur.ipc + BitVec.ofNat 64 len) }

/-- The lanes of `m` move to `f i` having completed the word. -/
def State.goTo (s : State) (m : Mask) (f : Nat → DWord) : State :=
  { s with cur := (s.cur.complete s.freeCtr m).setPc m f }

/-- The run of the group in the issue slot ends. -/
def State.endRun (s : State) : State := { s with cur := { s.cur with inRun := false } }

/-- Lanes whose data of an issue may go to a row (17 R298). -/
def Group.forRow (g : Group) (iid : Nat) : Mask := Mask.ofFn (fun i => g.outst.any (fun e => e.iid == iid && e.lane == i && e.frame)) 64

/-- The lanes of an issue whose result has not come that have no word left that need not wait for it (02 R29); data that may go to a row
is waited for by none (17 R298). -/
def Group.spent (g : Group) (p : Pend) : Mask :=
  p.lanes &&& ~~~Mask.ofFn (fun i => g.outst.any (fun e => e.iid == p.iid && e.lane == i && e.left != 0)) 64 &&& ~~~g.forRow p.iid

/-- The lanes that a result still to come keeps from being ready: it has not come, and no word is left that need not
wait for it (02 R18, R20, R29). -/
def Group.unready (g : Group) : Mask := g.await.foldl (fun (m : Mask) p => m ||| g.spent p) 0

/-- Lanes of `m` with a result still to come, frame data aside (02 R31; 17 R298). -/
def Group.awaited (g : Group) (m : Mask) : Mask :=
  (g.await.foldl (fun (x : Mask) p => x ||| (p.lanes &&& ~~~g.forRow p.iid)) 0) &&& m

/-- Lanes of `m` no longer await issue `iid`. -/
def Group.unawait (g : Group) (iid : Nat) (m : Mask) : Group :=
  { g with await := (g.await.map (fun x => if x.iid = iid then { x with lanes := x.lanes &&& ~~~m } else x)).filter (fun x => x.lanes != 0) }

/-- Data held for a row that goes to none after all goes to v(d) as `VLD.W32` delivers it: readers wait under the window (17 R298; 16 R291).
What has arrived poisoned is consumed and reaches no register. Answers those lanes and the lowest entry's address; with `back` a lane that
still stands behind its `VLDF` stays at it (14 R247). -/
def State.releaseFrames (s : State) (back : Bool) (hit : OutRes → Bool) : State × Mask × DWord :=
  let out := s.cur.outst.filter (fun e => e.frame && hit e)
  let bad := out.filter (·.poisoned)
  let g := s.cur
  let g1 : Group := { g with
    outst := (g.outst.filter (fun e => !(e.frame && hit e && e.poisoned))).map (fun e => if e.frame && hit e then { e with frame := false } else e)
    pc := if back then bad.foldl (fun (m : SMap 64) (e : OutRes) => if m.get e.lane = e.pc + 4 then m.set e.lane e.pc else m) g.pc else g.pc }
  let g2 := bad.foldl (fun (u : Group) e => u.unawait e.iid (Mask.one e.lane)) g1
  if out = [] then (s, 0, 0)
  else
    ({ s with cur := g2.deliverIf s.freeCtr (fun (e : OutRes) => out.any (fun (f : OutRes) => f.lane == e.lane && f.iid == e.iid) &&
        (e.early || !(g.await.any (·.iid == e.iid)))) },
      Mask.ofFn (fun k => bad.any (fun e => e.lane == k)) 64, (bad.map (·.addr)).headD 0)

/-- The results of the issues with `p` come, for all their lanes at one moment (02 R20). -/
def Group.arriveIf (ctr : Nat) (g : Group) (p : Nat → Bool) : Group :=
  { g.deliverIf ctr (fun e => p e.iid && !e.frame) with await := g.await.filter (fun x => !(p x.iid)) }

/-- The lanes of `m` have all their outstanding results (02 R31). -/
def State.settle (s : State) (m : Mask) : State :=
  { s with cur := { (s.cur.deliverIf s.freeCtr (fun e => m.has e.lane)) with
      await := (s.cur.await.map (fun x => { x with lanes := x.lanes &&& ~~~m })).filter (fun x => x.lanes != 0) } }

/-! ## Guards and the allocation -/

/-- The lane set's active lanes (03 R40). -/
def State.active (s : State) (h : Hdr) : Mask :=
  if h.g = 7 then s.cur.iss else s.cur.iss &&& s.preg 15 h.g

/-- The uniform set's guard (03 R40). -/
def State.uguard (s : State) (h : Hdr) : Bool := h.g == 7 || s.cur.qbit h.g

/-- `n` vector registers from `r` lie in the allocation (02 R33). -/
def Group.vOk (g : Group) (r n : Nat) : Bool := decide (r + n ≤ g.vregs)
def Group.sOk (g : Group) (r n : Nat) : Bool := decide (r + n ≤ g.sregs)
def Group.vPairOk (g : Group) (r : Nat) : Bool := r % 2 == 0 && g.vOk r 2
def Group.sPairOk (g : Group) (r : Nat) : Bool := r % 2 == 0 && g.sOk r 2

/-! ## Barriers, retirement and parking -/

/-- The group barrier releases when every live or held lane has arrived (06 R128). -/
def Group.bargCheck (ctr : Nat) (g : Group) : Group :=
  if g.barg ≠ 0 ∧ g.live &&& ~~~g.barg = 0 then
    { (g.complete ctr g.barg).setPc g.barg (fun i => g.pc.get i + 4) with barg := 0 }
  else g

/-- The groups of a team (team groups and bin-launched groups) that have live lanes. -/
def State.inTeam (tid : Nat) (g : Group) : Bool := g.team == tid && tid != 0

/-- Lanes waiting at barrier `b` are released (06 R129). -/
def Group.barRelease (ctr b : Nat) (g : Group) : Group :=
  let w := g.barWait.get b
  { (g.complete ctr w).setPc w (fun i => g.pc.get i + 4) with barWait := g.barWait.set b 0 }

def State.barComplete (s : State) (tid b : Nat) : Bool :=
  s.contextGroups.all (fun g => !(State.inTeam tid g) ||
    g.live &&& ~~~((s.teamOf tid).arrived.get (16 * b + g.gnum)) == 0)

/-- check(b) of 06 R129. Groups that are switched out still belong to their team (19 R341). -/
def State.barCheck (s : State) (tid b : Nat) : State :=
  if s.barComplete tid b then
    (s.modContexts (State.inTeam tid) (Group.barRelease s.freeCtr b)).modTeam tid
      (fun t => { t with arrived := t.arrived.setMany (16 * b) (fun _ => true) (fun _ => 0) 16 })
  else s

/-- Every barrier of the team is re-checked. -/
def State.barCheckAll (s : State) (tid : Nat) : State :=
  (List.range 16).foldl (fun s b => s.barCheck tid b) s

/-- The lanes of `m` of a group lose their barrier arrivals and waits (06 R131). -/
def Group.withdraw (g : Group) (m : Mask) : Group :=
  { g with barg := g.barg &&& ~~~m
           barWait := (List.range 16).foldl (fun w b => w.set b (w.get b &&& ~~~m)) g.barWait }

def State.withdrawTeam (s : State) (gnum : Nat) (m : Mask) : State :=
  s.modTeam s.cur.team (fun t => { t with
    arrived := (List.range 16).foldl (fun w b => w.set (16 * b + gnum) (w.get (16 * b + gnum) &&& ~~~m)) t.arrived })

/-- Withdraw the arrivals of lanes of the group in the issue slot and check every barrier again. -/
def State.withdrawLanes (s : State) (m : Mask) : State :=
  let s := (s.modCur (fun g => (g.withdraw m))).withdrawTeam s.cur.gnum m
  (s.modCur (Group.bargCheck s.freeCtr)).barCheckAll s.cur.team

/-- All yields clear together when every live lane is yielded; a yield ends once the other live lanes
have issued (02 R22). -/
def Group.yieldCheck (g : Group) : Group :=
  let y := Mask.ofFn (fun i => g.yielded.has i && (g.yrem.get i &&& g.live != 0)) 64
  if y = g.live then { g with yielded := 0 } else { g with yielded := y }

/-- Lanes of the group leave: what a lane of `m` holds is dropped. -/
def Group.leave (g : Group) (m : Mask) : Group :=
  { g with moving := g.moving &&& ~~~m, xfer := if g.moving &&& ~~~m = 0 then 0 else g.xfer
           live := g.live &&& ~~~m, hl := g.hl &&& ~~~m, asleep := g.asleep &&& ~~~m
           mqWait := g.mqWait &&& ~~~m, yielded := g.yielded &&& ~~~m
           waits := g.waits.map (fun w => { w with lanes := w.lanes &&& ~~~m })
           outst := g.outst.filter (fun e => !(m.has e.lane))
           await := (g.await.map (fun x => { x with lanes := x.lanes &&& ~~~m })).filter (fun x => x.lanes != 0) }

/-- Leave handler level: the held lanes are released (01 R12). -/
def Group.leaveHandler (g : Group) : Group := { g with hlv := false, hl := 0, savedPc := [] }

/-- What the end of a group does to what it served or held: rows of a bin group that did not execute
`FRAMELD` are WOKEN again (17 R294); a walk handler's claims return (19 R330); lanes that are still parked and whose handler lane
did not reach `HRET` are offered again (18 R314); requests are finished (19 R331). -/
def State.releaseServed (s : State) (g : Group) (lanes : Mask) : State :=
  let mine := g.served.filter (fun v => lanes.has v.lane)
  let claims := fun (m : Miss) => mine.any (fun v => v.mid == m.mid && v.page == m.page)
  match g.kind with
  | .walk =>
      s.modOwner g.owner (fun o => { o with
        misses := (o.misses.filter (fun m => !m.request && claims m)).map (fun m => { m with claimed := false }) ++
          o.misses.filter (fun m => m.request || !(claims m)) })
  | .request =>
      s.modOwner g.owner (fun o => { o with misses := o.misses.filter (fun m => !(m.request && m.claimed && claims m)) })
  | .page =>
      match mine.filter (fun v => v.mask != 0) with
      | [] => s
      | v :: l =>
        s.modOwner g.owner (fun o => { o with
          batches :=
            { sp := g.sp, gid := v.gid, grid := g.grid
              pages := (v :: l).map (fun v => (v.page, v.mask, v.addr)), write := v.write, fetch := v.fetch, addrs := v.addrs } :: o.batches })
  | _ => s

/-- The rows of a bin group that never executed `FRAMELD` return to WOKEN (17 R294). -/
def State.returnRows (s : State) (g : Group) : State :=
  if g.kind = .bin ∧ g.frameldDone = false then
    s.modTeam g.team (fun t => { t with
      bins := t.bins.map (fun b =>
        if b.num == g.bin then
          { b with
            rows := b.rows.map (fun r =>
              if g.rows.any (fun x => x.2 == r.num) && r.st == .launched then { r with st := .woken } else r) }
        else b) })
  else s

/-- A group that has no live, held or fault-bin lane retires (06 R124). -/
def State.groupEnd (s : State) : State :=
  if s.cur.alive then s
  else (s.returnRows s.cur).endRun

/-- Lanes of the group in the issue slot retire or park. When no handler lane remains live, the group
leaves handler level (06 R122); a walk or PAGE handler group stays at handler level (19 R334). -/
def State.dropLanes (s : State) (m : Mask) : State :=
  let s := s.releaseServed s.cur m
  let s := s.withdrawLanes m
  let s := s.modCur (fun g => (g.leave m).yieldCheck)
  let s := { s with cur := { s.cur with served := s.cur.served.filter (fun v => !(m.has v.lane)) } }
  let s := (s.modCur (Group.bargCheck s.freeCtr)).barCheckAll s.cur.team
  let s := s.modCur (fun g => if g.hlv && g.hl == 0 && (g.kind == .team || g.kind == .bin) then g.leaveHandler else g)
  s.groupEnd

/-- Lanes of a group leave its fault batches: they are no longer served, and the lowest of those still parked is the one whose address a
handler lane has (06 R123; 18 R314). -/
def State.cancelFaults (s : State) (gid : Nat) (m : Mask) : State :=
  let clear := fun (b : Batch) =>
    if b.gid = gid then { b with pages := (b.pages.map (fun p => (p.1, p.2.1 &&& ~~~m, b.addrs.get (p.2.1 &&& ~~~m).low))).filter (fun p => p.2.1 != 0) } else b
  let s := s.modOwner s.cur.owner (fun o => { o with batches := (o.batches.map clear).filter (fun b => b.pages != []) })
  s.modContexts (fun g => g.kind == .page) (fun g => { g with
    served := g.served.map (fun v => if v.gid = gid then { v with mask := v.mask &&& ~~~m, addr := v.addrs.get (v.mask &&& ~~~m).low } else v) })

/-- The service of parked lanes is cancelled for good: a wake that is still to come has no effect on them (06 R123; 19 R338). -/
def State.cutService (s : State) (gid : Nat) (m : Mask) : State :=
  (s.cancelFaults gid m).modContexts (fun g => g.kind == .page) (fun g => { g with
    served := g.served.map (fun v => if v.gid = gid then { v with cut := v.cut ||| m } else v) })

/-- Every lane of the group retires: `END` (06 R123), or a termination. -/
def State.retireGroup (s : State) : State :=
  let all := s.cur.live ||| s.cur.fbin
  let s := s.cancelFaults s.cur.gid s.cur.fbin
  let s := s.modCur (fun g => { g with outst := [], await := [], fbin := 0 })
  let s := s.modCur (fun g => { g with trap := none })
  (s.dropLanes all).endRun

/-! ## Taking an exception (01 R11; 19 R334-R340) -/

def Cause.code : Cause → Nat
  | .walk => 1 | .page => 2 | .illegalOp => 3 | .illegalReg => 4 | .jtabRange => 5 | .tileRange => 6
  | .promiseMissed => 7 | .timer => 8 | .poison => 9 | .align => 10 | .fenceViolation => 11
  | .atomicUnsupported => 12 | .sdc => 13

/-- The handler-table entry of a cause; SDC goes through the POISON entry (20 R351). -/
def Cause.entry : Cause → Nat
  | .sdc => 9
  | c => c.code

/-- The handler address of a cause under the grid's table, 0 for none (20 R352). -/
def State.handlerOf (s : State) (grid : Nat) (c : Cause) : DWord :=
  ((s.gridOf grid).handlers.getD c.entry 0)

/-- CAUSE, TVAL and TLANE are set (19 R334). -/
def Group.saveCause (g : Group) (c : Cause) (tval : DWord) (lanes : Mask) : Group :=
  { g with cause := BitVec.ofNat 32 c.code, tval := tval, tlane := lanes }

/-- The raising lanes take the handler address, the others are held (01 R11). -/
def Group.enterHandler (g : Group) (c : Cause) (tval : DWord) (lanes : Mask) (handler : DWord) : Group :=
  let g := g.saveCause c tval lanes
  { g.setPc lanes (fun _ => handler) with
    hlv := true, hl := lanes, savedPc := SMap.setMany ([] : SMap 64) 0 lanes.has (fun i => g.pc.get i) 64, inRun := false }

/-- The groups of an owner stop: runs are cut, outstanding results are delivered (18 R316); the data of a `VLDF` whose next word has not
come is kept for it (17 R298). -/
def Group.freeze (ctr : Nat) (g : Group) : Group :=
  { g.deliverIf ctr (fun e => !e.frame) with await := [], inRun := false }

/-- A recursive fault or a `HALTO` on SP `sp` names the record instead of one of the same clk on a higher core or SP (18 R320; 20
R356). -/
def Halt.outranked (h : Halt) (cyc : DWord) (kind sp : Nat) : Bool :=
  h.cyc == cyc && !h.written && decide (h.kind ≤ 2) && decide (kind ≤ 2) && decide (sp < 4 * h.core + h.spByte % 4)

/-- OWNER_HALTED by the steps of 18 R316. Only the first halt counts, those of its clk in the order of R320. Every group of the owner
stops, also one that is switched out. -/
def State.haltOwner (s : State) (owner kind detail : Nat) (addr pc : DWord) (cause reason : Word) (sp : Nat)
    (handlerSlot : Bool) : State :=
  let spByte := sp % 4 + (if handlerSlot then 128 else 0)
  match (s.ownerOf owner).halt with
  | some h =>
    if h.outranked s.cyc kind sp then
      s.modOwner owner (fun o => { o with halt := some { h with kind, detail, addr, pc, core := coreOf sp, spByte, cause, reasonWord := reason } })
    else s
  | none =>
    let h : Halt :=
      { kind, detail, cyc := s.cyc, addr, pc, core := coreOf sp, spByte, cause, reasonWord := reason, written := false, ctr := s.freeCtr }
    (s.modGroups (fun g => g.owner == owner) (Group.freeze s.freeCtr)).modOwner owner
      (fun o => { o with halt := some h })

/-- The owner's groups issue no more. In the clk of a fault, words of its other SPs still do: its halt is not known there yet. -/
def State.stopped (s : State) (owner : Nat) : Bool :=
  match (s.ownerOf owner).halt with
  | some h => !(h.cyc == s.cyc && decide (h.kind ≤ 2) && !h.written)
  | none => false

def Group.inSlot (g : Group) : Bool := g.kind == .walk || g.kind == .page || g.kind == .request

/-- A recursive fault of the group in the issue slot: no lane moves and no register is written (18 R316). -/
def State.recursiveFault (s : State) (detail : Nat) (addr : DWord) : State :=
  s.haltOwner s.cur.owner 1 detail addr s.cur.ipc s.cur.cause 0 s.cur.sp s.cur.inSlot

/-- The detail of a recursive fault for a cause (18 R315). -/
def Cause.detail : Cause → Nat
  | .poison | .sdc => 4
  | .walk | .page => 2
  | _ => 3

/-- A group without a handler for its cause is terminated, which its grid reports with CAUSE, TVAL and TLANE (01 R11). -/
def State.terminate (s : State) (c : Cause) (tval : DWord) (lanes : Mask) : State :=
  ((s.modCur (fun g => g.saveCause c tval lanes)).modGrid s.cur.grid (fun g => { g with
    terminated := true, ended := g.ended ++ [⟨s.cur.gnum, BitVec.ofNat 32 c.code, tval, lanes⟩] })).retireGroup

/-- TAKE A CAUSE in the group in the issue slot: CAUSE, TVAL and TLANE are saved, the raising lanes take
the handler-table entry as their PC, the group enters handler level and its other lanes are held. At
handler level it is a recursive fault; without a handler the group is terminated. -/
def State.raise (s : State) (c : Cause) (tval : DWord) (lanes : Mask) : State :=
  if s.cur.hlv then s.recursiveFault c.detail tval
  else if s.handlerOf s.cur.grid c = 0 then s.terminate c tval lanes
  else s.modCur (fun g => g.enterHandler c tval lanes (s.handlerOf s.cur.grid c))

/-- A cause of the word itself: TVAL its address, TLANE the issue set (03 R47). -/
def State.raiseWord (s : State) (c : Cause) : State := s.raise c s.cur.ipc s.cur.iss

/-- An unwind event: poison consumed, or an SDC (19 R338). -/
def State.unwind (s : State) (c : Cause) (tval : DWord) (lanes : Mask) : State :=
  if s.cur.hlv then s.recursiveFault 4 tval
  else match s.cur.cstack.reverse with
    | [] => s.raise c tval lanes
    | top :: _ =>
      let s := s.cutService s.cur.gid s.cur.fbin
      let s := s.modCur (Group.deliverAll s.freeCtr)
      let s := s.modCur (fun g => { g with live := g.live ||| g.fbin, fbin := 0, xfer := 0, moving := 0 })
      let s := s.modCur (fun g => ((g.setPc g.live (fun _ => top)).saveCause c tval lanes))
      let s := s.modCur (fun g => { g with cstack := g.cstack.dropLast, yielded := 0, asleep := 0, waits := [], mqWait := 0, walkPage := [], cpyAt := [], inRun := false })
      s.withdrawLanes s.cur.live

/-- Lanes moved away from a tile transfer give it up (11 R208). -/
def Group.giveUpMove (g : Group) (m : Mask) : Group :=
  if g.moving &&& m = 0 then g else { g with moving := 0, xfer := 0 }

/-- The lanes of `m` move to new PCs under a handler's direction: those that wait at a barrier lose their
arrival there, sleeps and waits end; an arrival without waiting and a yield stay (06 R131). -/
def State.moveLanes (s : State) (m : Mask) (f : Nat → DWord) : State :=
  let gone := s.cur.barWait
  let s := s.modTeam s.cur.team (fun t => { t with
    arrived := (List.range 16).foldl (fun w b =>
      w.set (16 * b + s.cur.gnum) (w.get (16 * b + s.cur.gnum) &&& ~~~(m &&& gone.get b))) t.arrived })
  let s := s.modCur (fun g => { (((g.giveUpMove m).withdraw m).setPc m f) with
    asleep := g.asleep &&& ~~~m, mqWait := g.mqWait &&& ~~~m, cpyAt := g.cpyAt.setMany 0 m.has (fun _ => 0) 64
    waits := g.waits.map (fun w => { w with lanes := w.lanes &&& ~~~m }) })
  (s.modCur (Group.bargCheck s.freeCtr)).barCheckAll s.cur.team

/-! ## Meanings of the common shapes -/

/-- A lane-set word: the allocation check of R33, then the effect in the active lanes, and every lane of
the issue set goes on (03 R40, R47; 05 R74). -/
def State.laneOp (s : State) (h : Hdr) (ok : Bool) (f : State → Mask → State) (len : Nat := 4) : State :=
  if ok then (f s (s.active h)).goOn s.cur.iss len else s.raiseWord .illegalReg

/-- A lane-set word that writes `v(d)` with a function of the state before it (05 R74). -/
def State.laneAlu (s : State) (h : Hdr) (ok : Bool) (d : Nat) (f : Nat → Word) (len : Nat := 4) : State :=
  if ok then (s.modCur (fun g => g.setV (s.active h) d f)).goOn s.cur.iss len else s.raiseWord .illegalReg

/-- A lane-set word that writes `p(d)`. -/
def State.lanePred (s : State) (h : Hdr) (ok : Bool) (d : Nat) (x : Mask) : State :=
  if ok then (s.modCur (fun g => g.setP (s.active h) d x)).goOn s.cur.iss 4 else s.raiseWord .illegalReg

/-- A uniform-set word: the allocation check, then the effect once when the guard holds (05 R75). -/
def State.uniOp (s : State) (h : Hdr) (ok : Bool) (f : State → State) (len : Nat := 4) : State :=
  if ok then
    (if s.uguard h then (f s).goOn s.cur.iss len else s.goOn s.cur.iss len)
  else s.raiseWord .illegalReg

/-- A uniform-set word that changes the group's registers only. -/
def State.uniAlu (s : State) (h : Hdr) (ok : Bool) (f : Group → Group) (len : Nat := 4) : State :=
  s.uniOp h ok (fun t => t.modCur f) len

/-- The lanes of `m` stay at the word and wait (02 R26). -/
def State.waitFor (s : State) (m : Mask) (c : WaitCond) : State :=
  s.modCur (fun g => { g with waits := ⟨m, c⟩ :: g.waits })

end Sys2Proof.Machine
end

