-- ==== Sys2Proof/Machine/Memory.lean ====
section
/-! DEFINITION. Memory: the address map, translation, bank fences, poison, reads and writes, the miss
queue and the page requests (13 R219-R225; 14 R245-R248; 19 R325-R332). One byte of bonded DRAM or host
memory is keyed by its 52-bit physical address, a byte of SRAM by its address in the global window, and a byte
of a peer, above them, by the owner, the device and the offset in the export. -/

set_option linter.unusedVariables false

namespace Sys2Proof.Machine

/-! ## Bytes -/

/-- The bytes of memory, in the canonical form of `SMap`; an unlisted byte reads 0: SRAM and bonded
DRAM as R134, R322 and R376 leave them; host and peer memory DESIGN CHOICE, log entry 3. -/
abbrev Memory := SMap 8

def Memory.wf (m : Memory) : Bool := SMap.wf m

/-- `n` bytes from key `a`. -/
def Memory.bytes (m : Memory) (a : Nat) : Nat → List (BitVec 8)
  | 0 => []
  | n + 1 => m.get a :: Memory.bytes m (a + 1) n

def Memory.write (m : Memory) (a : Nat) : List (BitVec 8) → Memory
  | [] => m
  | b :: bs => Memory.write (m.set a b) (a + 1) bs

/-! ## Poison blocks (13 R223) -/

def blockOf (key : Nat) : Nat := key / 64

/-- A DRAM channel of which a third bond has failed (22 R405). -/
def State.channelDead (s : State) (ch : Nat) : Bool :=
  decide (3 ≤ (s.failedBonds.filter (fun x => x.1 == ch)).length)

/-- A frame of a retired bank or channel: reads poisoned, writes discarded (22 R406). -/
def State.frameLost (s : State) (key : Nat) : Bool :=
  decide (key < 2 ^ 48) &&
    ((s.retiredBanks != [] && s.retiredBanks.contains (Config.dramBank (key / 65536))) ||
      (s.failedBonds != [] && s.channelDead (Config.bankChannel (Config.dramBank (key / 65536)))))

/-- The first byte of the global SRAM window (13 R219). -/
def globalBase : Nat := 0x01F0000000000000

/-- A failed SRAM bank whose words can no longer be rebuilt: a second bank of its group of 12 has failed
(13 R222). -/
def State.bankLost (s : State) (bank : Nat) : Bool :=
  s.banks.any (fun b => b.num == bank && b.failed) &&
    s.banks.any (fun b => b.failed && b.num != bank && b.num / 12 == bank / 12)

def State.keyLost (s : State) (key : Nat) : Bool :=
  if globalBase ≤ key then s.bankLost ((key - globalBase) / 0x400000 * 48 + (key - globalBase) % 0x400000 / 0x10000)
  else s.frameLost key

def State.poisoned (s : State) (key n : Nat) : Bool :=
  (List.range (blockOf (key + n - 1) - blockOf key + 1)).any (fun i =>
    s.poison.contains (blockOf key + i) || s.upsets.contains (.badPacket (blockOf key + i) false)) ||
    s.keyLost key

/-- The free-value counts from which words still to be read may be old: the launches of the grids, the submissions of the chains. -/
def State.readers (s : State) : List Nat :=
  (s.grids.filter (fun g => !g.done)).map (·.seq) ++ (s.chains.filter (fun c => c.status.isNone)).map (·.seq)

/-- What the words that a write of `n` bytes at a key touches hold before it, for reads that still see it: one entry of a word serves
every reader that is older than it (03 R39, R49). -/
def State.noteStale (s : State) (key n : Nat) : List (Nat × Word × Nat) :=
  match s.readers with
  | [] => []
  | r :: rs =>
    let ws := (List.range ((key + n - 1) / 4 + 1 - key / 4)).map (· + key / 4)
    let last := rs.foldl max r
    let first := rs.foldl min r
    (ws.filter (fun w => !(s.stale.any (fun e => e.1 == w && decide (last < e.2.2))))).map
        (fun w => (w, BitVec.ofNat 32 (leNat (Memory.bytes s.mem (4 * w) 4)), s.freeCtr)) ++
      s.stale.filter (fun e => decide (first < e.2.2))

/-- What word `w` of memory, by its key over 4, held before its first write after the free-value count `seq`, when there was one
(03 R39, R49). -/
def State.heldBefore (s : State) (seq w : Nat) : Option Word :=
  (s.stale.reverse.find? (fun e => e.1 == w && decide (seq < e.2.2))).map (fun e => e.2.1)

/-- The write versions once `n` bytes at a key are written: that of each DRAM line they touch advances (22 R380). -/
def State.writtenLines (s : State) (key n : Nat) : SMap 64 :=
  if key < 2 ^ 48 ∧ n ≠ 0 then
    (List.range ((key + n - 1) / 64 + 1 - key / 64)).foldl (fun (m : SMap 64) k => m.set (key / 64 + k) (m.get (key / 64 + k) + 1)) s.versions
  else s.versions

/-- Where the versions of a whole frame stand that was written to zero: beyond those of the lines. -/
def frameVersion (frame : Nat) : Nat := 2 ^ 42 + frame

/-- The write version of a DRAM line, by its key over 64 (22 R380). -/
def State.lineVersion (s : State) (line : Nat) : DWord := s.versions.get line + s.versions.get (frameVersion (line / 1024))

/-- Words of one frame, by its keys over 65,536, come to another with what they held before (03 R39, R49; 19 R333). -/
def State.moveStale (s : State) (old new : Nat) : State :=
  { s with stale := (s.stale.filter (fun e => e.1 / 16384 != new)).flatMap (fun e =>
      if e.1 / 16384 = old then [e, (16384 * new + e.1 % 16384, e.2)] else [e]) }

/-- A key of a peer's memory whose device has not shared the owner's world key: the world tags of packets either way fail, so a read delivers
poison and a write is discarded (22 R379, R381, R385). -/
def State.keyless (s : State) (key : Nat) : Bool :=
  decide (2 ^ 57 ≤ key) && !((findD (·.id == (key - 2 ^ 57) / 2 ^ 64) Owner.none s.owners).peerKeys.any (fun x => x.1 == (key - 2 ^ 57) / 2 ^ 32 % 2 ^ 32))

/-- Write bytes at a key in one access: a write of a whole block clears its poison, a partial write leaves
it (13 R223); writes to a lost frame are discarded (22 R406). -/
def State.writeKey (s : State) (key : Nat) (bs : List (BitVec 8)) : State :=
  if s.frameLost key || s.keyless key || s.upsets.contains (.badPacket (blockOf key) true) then s
  else { s with mem := Memory.write s.mem key bs
                stale := s.noteStale key bs.length
                versions := s.writtenLines key bs.length
                poison := s.poison.filter (fun b => !(decide (key ≤ 64 * b) && decide (64 * b + 64 ≤ key + bs.length))) }

def State.addPoison (s : State) (b : Nat) : State :=
  if s.poison.contains b then s else { s with poison := b :: s.poison }

/-- Poison every block that the range touches. -/
def State.poisonRange (s : State) (key n : Nat) : State :=
  (List.range (blockOf (key + n - 1) - blockOf key + 1)).foldl (fun s i => s.addPoison (blockOf key + i)) s

/-- Several writes that count as one store or one engine write: a block they cover whole, none of them
poisoned, loses its poison (13 R223; DEDUCED, log entry 13). -/
def State.clearCovered (s : State) (ws : List (Nat × Nat)) : State :=
  { s with poison := s.poison.filter (fun b => !((List.range 64).all (fun j =>
      ws.any (fun w => decide (w.1 ≤ 64 * b + j) && decide (64 * b + j < w.1 + w.2))))) }

/-! ## The address map -/

def sramBase : Nat := 0x01E0000000000000
def vaTop : Nat := 0x0200000000000000

/-- The key of a byte of bank `48 c + b`. -/
def bankKey (bank off : Nat) : Nat := globalBase + bank / 48 * 0x400000 + bank % 48 * 0x10000 + off

/-- What the address map gives for an address (13 R219, R220). -/
inductive Where where
  | bank (bank off : Nat)
  | va                       -- translated
  | beyond                   -- bits 63:57 not zero
  | fenced                   -- no bank there
  deriving DecidableEq, Repr

/-- The window map. `t`: the team whose local window is meant. In a paired team "its core" is the leader for every lane: the own slice
is the leader's banks and the partner part the follower's (07 R134; 13 R220). DESIGN CHOICE, log entry 37. -/
def whereIs (t : Team) (va : DWord) : Where :=
  let a := va.toNat
  if vaTop ≤ a then .beyond
  else if a < sramBase then .va
  else if a < globalBase then
    let o := a - sramBase
    if o < 0x300000 then
      match t.banks[o / 65536]? with
      | some b => .bank b (o % 65536)
      | none => .fenced
    else if 0x400000 ≤ o ∧ o < 0x700000 then
      match t.partnerBanks[(o - 0x400000) / 65536]? with
      | some b => .bank b (o % 65536)
      | none => .fenced
    else .fenced
  else
    let o := a - globalBase
    if o / 0x400000 < 256 ∧ o % 0x400000 < 0x300000 then
      .bank (o / 0x400000 * 48 + o % 0x400000 / 65536) (o % 65536)
    else .fenced

/-! ## Translation -/

def Tlb.covers (e : Tlb) (page : Nat) : Bool := if e.big then e.page / 32 == page / 32 else e.page == page

/-- The number under which the command processor's translations are kept: it uses any entry of the owner. -/
def cpCore : Nat := 256

/-- The entry a core holds for a page; its PIN entries came with the owner's first SP there (19 R323, R327). -/
def Owner.entry (o : Owner) (core page : Nat) : Option Tlb :=
  o.tlb.find? (fun e => e.covers page && (core == cpCore || e.cores.contains core))

/-- The physical address of a byte under an entry (19 R322, R325). -/
def Tlb.key (e : Tlb) (a : Nat) : Nat :=
  (e.frame + (if e.big then a / 65536 % 32 else 0)) * 65536 + a % 65536

/-- Outcomes of translating one access (14 R248). -/
inductive Xl where
  | ok (key : Nat)
  | zero                     -- a discarded page read
  | walk
  | page
  | fence
  | hostWait                 -- the owner's host path does not flow yet (22 R387)
  | hostDead                 -- the TDI is in ERROR, or the peer is lost: reads poisoned, writes discarded
  | frozen                   -- a write to a page whose last lines are being copied (19 R333)
  deriving DecidableEq, Repr

inductive Mode where
  | read | write | fetch
  deriving DecidableEq, Repr

/-- A key of host memory; a physical address of a peer frame; a key of a peer's memory (13 R229; 19 R322). -/
def isHostKey (key : Nat) : Bool := key / 2 ^ 48 == 0xE
def isPeerPa (pa : Nat) : Bool := pa / 2 ^ 48 == 0xF
def peerBase : Nat := 2 ^ 57
def isPeerKey (key : Nat) : Bool := decide (peerBase ≤ key)

/-- The device a peer address names (15 R281); none when the index is past the peer table. -/
def Owner.peerOf (o : Owner) (pa : Nat) : Option Nat := o.peers[pa / 2 ^ 32 % 65536]?

/-- The key of a byte of the export that device `dev` holds for the owner (15 R281). -/
def Owner.peerKey (o : Owner) (dev pa : Nat) : Nat := peerBase + (o.id * 2 ^ 32 + dev) * 2 ^ 32 + pa % 2 ^ 32

/-- The peer is lost, to every owner or to this one (15 R282). -/
def State.lostFor (s : State) (o : Owner) (dev : Nat) : Bool := s.lostPeers.contains dev || o.lost.contains dev

/-- A physical address as the host path and the export see it. A peer frame whose index lies past the peer table is refused: the
spec gives no outcome for it (15 R281). DESIGN CHOICE, log entry 37. -/
def State.pathOf (s : State) (o : Owner) (key : Nat) : Xl :=
  if isHostKey key then
    (match o.tdi with
     | .run => .ok key
     | .error => .hostDead
     | _ => .hostWait)
  else if isPeerPa key then
    (match o.peerOf key with
     | none => .fence
     | some d =>
       if s.upsets.contains (.exportRefused d) then .fence
       else if s.lostFor o d then .hostDead else .ok (o.peerKey d key))
  else .ok key

/-- Translate one byte address for an owner on a core (13 R219-R221; 14 R248; 03 R39). An atomic is translated as a write: that it
needs W and not R is the model's choice (14 R248). DESIGN CHOICE, log entry 37. -/
def State.xlate (s : State) (o : Owner) (t : Team) (core : Nat) (m : Mode) (va : DWord) : Xl :=
  match whereIs t va with
  | .beyond => .page
  | .fenced => .fence
  | .bank b off =>
      if m = .fetch then .fence
      else if (s.bankOf b).fence = o.id then .ok (bankKey b off) else .fence
  | .va =>
      match o.entry core (va.toNat / 65536) with
      | none => .walk
      | some e =>
        if e.ord = 3 then .page
        else match e.st with
          | .absent => .page
          | .discarded => if m = .read then .zero else .page
          | _ =>
            let right := match m with | .read => e.r | .write => e.w | .fetch => e.x
            if !right then .page
            else if m = .write && s.rackings.any (fun r => r.frozen && r.owner == o.id && r.page == va.toNat / 65536) then .frozen
            else s.pathOf o (e.key va.toNat)

/-- The bytes of memory of an owner's reserve at `va`, through its reserve list (19 R323). -/
def State.reserveBytes (s : State) (o : Owner) (va : DWord) (n : Nat) : Option (List (BitVec 8)) :=
  (o.reserve.find? (fun r => r.1 == va.toNat / 65536)).map (fun r =>
    Memory.bytes s.mem (r.2 * 65536 + va.toNat % 65536) n)

/-- The 16 entries of a handler table of 128 bytes (20 R352). -/
def tableEntries (bs : List (BitVec 8)) : List DWord :=
  (List.range 16).map (fun k => BitVec.ofNat 64 (leField bs (8 * k) 8))

/-- The handler table that serves work of a grid: the grid's, or the descriptor's once the grid has completed
or when there is none (20 R352; 19 R330). -/
def State.tableFor (s : State) (owner grid : Nat) : List DWord :=
  let g := s.gridOf grid
  if g.gid != 0 && !g.done then g.handlers
  else ((s.reserveBytes (s.ownerOf owner) (s.ownerOf owner).htab 128).map tableEntries).getD []

/-- Without a WALK entry an engine job that misses ends with PAGE (19 R330). -/
def State.walkless (s : State) (owner grid : Nat) : Bool := (s.tableFor owner grid).getD 1 0 == 0

/-- The address's translation is a PIN entry of the owner (18 R315). -/
def State.inReserve (s : State) (o : Owner) (core : Nat) (va : DWord) : Bool :=
  decide (va.toNat < sramBase) &&
    (match o.entry core (va.toNat / 65536) with | some e => e.pin | none => false)

/-- The recursive-fault detail of a failed reserve check: 2 for an address that has no translation, else 1
(18 R315). -/
def State.reserveDetail (s : State) (o : Owner) (core : Nat) (va : DWord) : Nat :=
  if decide (va.toNat < sramBase) && (o.entry core (va.toNat / 65536)).isNone then 2 else 1

/-! ## The miss queue (19 R329) -/

def pageVa (page : Nat) : DWord := BitVec.ofNat 64 (page * 65536)

/-- A page of the range is migrating (19 R333). -/
def State.migrating (s : State) (owner first last : Nat) : Bool :=
  s.rackings.any (fun r => r.owner == owner && decide (first ≤ r.page) && decide (r.page ≤ last))

/-- A miss or request joins the entry of its page and kind, or makes one; none when the queue is full. The queue stands beside memory: the
bytes of it in the reserve are not written, and an owner that writes them, whose translation is then undefined (19 R329), changes nothing.
DESIGN CHOICE, log entry 37. -/
def Owner.enqueue (o : Owner) (m : Miss) : Option Owner :=
  if o.misses.any (fun e => e.page == m.page && e.request == m.request) then
    some { o with misses := o.misses.map (fun e =>
      if e.page = m.page ∧ e.request = m.request then
        { e with cores := if m.cores.all e.cores.contains then e.cores else e.cores ++ m.cores
                 write := e.write || m.write, fetch := e.fetch || m.fetch, engine := e.engine || m.engine }
      else e) }
  else if o.misses.length < 1024 then some { o with misses := o.misses ++ [{ m with mid := o.missSeq }], missSeq := o.missSeq + 1 }
  else none

/-- Queue a miss of an engine or of the CP; when the queue is full it waits (19 R329). -/
def State.queueMiss (s : State) (owner : Nat) (m : Miss) : State :=
  s.modOwner owner (fun o => match o.enqueue m with
    | some o' => o'
    | none => if o.missWaiting.contains m then o else { o with missWaiting := o.missWaiting ++ [m] })

/-- Queue a page request (20 R361); nothing happens when the queue is full. -/
def State.queueRequest (s : State) (owner : Nat) (m : Miss) : State :=
  s.modOwner owner (fun o => (o.enqueue { m with request := true }).getD o)

/-- An engine's miss on a page. -/
def engineMiss (core sp page grid : Nat) (write : Bool) : Miss :=
  { mid := 0, page, request := false, cores := [core], sp, claimed := false, write, fetch := false, engine := true, grid }

/-! ## Recency (19 R327) -/

def Owner.touch (o : Owner) (core page : Nat) : Owner :=
  { o with recent := (core, page) :: o.recent.filter (· != (core, page)) }

/-! ## Counting traffic (22 R417) -/

def Owner.countBytes (o : Owner) (key n : Nat) : Owner :=
  if isHostKey key then { o with bwHost := o.bwHost + BitVec.ofNat 64 n }
  else if isPeerKey key then { o with bwPeer := o.bwPeer + BitVec.ofNat 64 n }
  else if key < 2 ^ 48 then { o with bwDram := o.bwDram + BitVec.ofNat 64 n }
  else o

/-- The number under which a Psiek flow for an owner is kept, from a peer or to it: above those of the core ports, by the devices' and the
slot's numbers (22 R381). -/
def Owner.psiekFlow (o : Owner) (dev : Nat) (out : Bool) : Nat := (if out then 2 ^ 60 else 0) + 2 ^ 32 + 2 ^ 32 * o.worldSlot + dev

def State.flowOf (s : State) (flow : Nat) : Flow := findD (·.flow == flow) ⟨flow, 0, 0⟩ s.flows

def State.setFlow (s : State) (f : Flow) : State :=
  { s with flows := modD (·.flow == f.flow) f (fun _ => f) s.flows }

/-- A request and its response have gone between an owner and a peer, one packet on the flow of each direction: their counters move on (22
R379, R381). -/
def State.psiekPackets (s : State) (o : Owner) (dev : Nat) : State :=
  [true, false].foldl (fun (t : State) out =>
    let f := t.flowOf (o.psiekFlow dev out)
    t.setFlow { f with expected := f.expected + 1 }) s

/-- The core whose port stands before a key: that of an SRAM bank. -/
def keyCore (key : Nat) : Option Nat := if globalBase ≤ key ∧ key < peerBase then some ((key - globalBase) / 0x400000) else none

/-- A port of a core holds the world key of an owner, without which no packet of the owner passes it (22 R378). -/
def State.portHas (s : State) (owner core : Nat) : Bool := s.portKeys.any (fun k => k.port == core && k.owner == owner)

/-- The traffic of an owner has used the port of a core. -/
def State.touchPort (s : State) (owner core : Nat) : State :=
  { s with portKeys := s.portKeys.map (fun (k : PortKey) => if k.port = core ∧ k.owner = owner then { k with lastUse := s.cyc } else k) }

/-- The port of another core before a key that lacks the owner's key: the access waits there (22 R378). -/
def State.shutPort (s : State) (owner core key : Nat) : Option Nat :=
  (keyCore key).filter (fun c => c != core && !(s.portHas owner c))

/-- A row has returned a line that could not be corrected (22 R404). -/
def State.badRow (s : State) (bank row : Nat) : State :=
  { s with rowErrs := modD (fun e => e.bank == bank && e.row == row) ⟨bank, row, true, []⟩ (fun e => { e with bad := true }) s.rowErrs }

/-- Lines that an access touches and whose tags fail are reported as uncorrectable errors (22 R380). -/
def State.reportTags (s : State) (key n : Nat) : State :=
  (s.tagFails.filter (fun b => decide (key / 64 ≤ b) && decide (b ≤ (key + n - 1) / 64) && s.poison.contains b)).foldl (fun (t : State) b =>
    t.badRow (Config.dramBank (b / 1024)) (Config.dramRow b)) s

/-- Bytes of an owner have moved: they are counted, the entry of their page and the ports on the way have been used, and a line whose tag
fails is reported (22 R417, R378, R380, R381; 19 R327). -/
def State.traffic (s : State) (owner key n core page : Nat) : State :=
  let t := (s.modOwner owner (fun o => (o.countBytes key n).touch core page)).reportTags key n
  let t := match keyCore key with
    | some c => if c = core then t else t.touchPort owner c
    | none => t
  if isPeerKey key then t.psiekPackets (s.ownerOf owner) ((key - peerBase) / 2 ^ 32 % 2 ^ 32) else t

/-- A violation entry (22 R407). -/
def State.logViolation (s : State) (v : Violation) : State :=
  { s with violations := (v :: s.violations).take 256 }

def State.logEvent (s : State) (e : Event) : State := { s with events := (e :: s.events).take 1024 }

/-- The Kiln quarantines an SP after an SDC; a second one on another SP of its core quarantines the whole core. Its
groups are to be switched out (22 R402; 19 R339). -/
def State.quarantine (s : State) (sp : Nat) : State :=
  let others := (List.range 4).any (fun k => 4 * coreOf sp + k != sp && (s.spOf (4 * coreOf sp + k)).sdc)
  let hit := if others then (List.range 4).map (fun k => 4 * coreOf sp + k) else [sp]
  let s1 := hit.foldl (fun (t : State) p => t.modSp p (fun q => { q with quarantined := true, preempt := true, incoming := none, filled := false })) s
  ({ (s1.modSp sp (fun q => { q with sdc := true })) with sdcCount := s1.sdcCount + 1 }).logEvent .quarantine

/-- The owner of the target of a fenced access, 0 when no bank is there (22 R407). -/
def State.fenceTarget (s : State) (t : Team) (va : DWord) : Nat :=
  match whereIs t va with
  | .bank b _ => (s.bankOf b).fence
  | _ => 0

/-- The requester field of a violation (22 R407). -/
def requester (kind core sp : Nat) : Nat := kind + 256 * core + 65536 * (sp % 4)

/-- The lines of 256 bytes of a page that a write of `n` bytes at a key touches. -/
def touchedLines (key n : Nat) : List Nat :=
  (List.range ((key % 65536 + n - 1) / 256 + 1 - key % 65536 / 256)).map (· + key % 65536 / 256)

/-- The keys of a frame's bytes over 65,536: those of a peer frame lie in the peer's export. -/
def Owner.frameBase (o : Owner) (frame : Nat) : Nat :=
  if isPeerPa (65536 * frame) then (match o.peerOf (65536 * frame) with | some d => o.peerKey d (65536 * frame) / 65536 | Option.none => frame)
  else frame

/-- The lines written while their page migrates are marked for the next round (19 R333). -/
def State.markRacking (s : State) (owner key n : Nat) : State :=
  { s with rackings := s.rackings.map (fun r =>
      if r.owner = owner ∧ key / 65536 = (s.ownerOf owner).frameBase r.oldFrame then
        { r with marked := (touchedLines key n).filter (fun x => !(r.marked.contains x)) ++ r.marked } else r) }

/-! ## Engine and CP accesses (15 R275) -/

/-- The parts of a range of bytes that lie in one page each. -/
def pageParts (va : DWord) (n : Nat) : List (DWord × Nat) :=
  let p := va.toNat / 65536
  if n = 0 then []
  else (List.range ((va.toNat % 65536 + n - 1) / 65536 + 1)).map (fun i =>
    let a := max va.toNat (65536 * (p + i))
    (BitVec.ofNat 64 a, min (va.toNat + n) (65536 * (p + i + 1)) - a))

/-- What an engine's access to `n` bytes meets; they do not cross a page or a bank. -/
inductive EngAcc where
  | ok (key : Nat)
  | zero
  | miss
  | page
  | fence
  | dead
  | wait
  deriving DecidableEq, Repr

def State.engXlate (s : State) (owner : Nat) (t : Team) (core : Nat) (m : Mode) (va : DWord) : EngAcc :=
  match s.xlate (s.ownerOf owner) t core m va with
  | .ok k => if (s.shutPort owner core k).isSome then .wait else .ok k
  | .zero => .zero
  | .walk => .miss
  | .page => .page
  | .fence => .fence
  | .hostWait => .wait
  | .hostDead => .dead
  | .frozen => .wait

/-- Bytes of owner memory read piece by piece: the bytes that can be read (0 for the others), the first
page that misses, whether some byte cannot be read, and whether a block is poisoned. -/
structure ReadBack where
  bytes : List (BitVec 8)
  missPage : Option Nat
  absent : Option Nat
  bad : Bool
  poison : Bool
  wait : Bool
  deriving DecidableEq, Repr

/-- A read of `n` bytes at a key delivers poison: a block is poisoned, the host answers with an error completion, or a peer's packet fails
its world tag (13 R218, R223; 22 R381). -/
def State.badRead (s : State) (key n : Nat) : Bool :=
  s.poisoned key n || (isHostKey key && s.upsets.contains .hostError) || (isPeerKey key && s.upsets.contains .badFlit) || s.keyless key

/-- Read `n` bytes at `va` for an engine, one byte at a time. -/
def State.readVa (s : State) (owner : Nat) (t : Team) (core : Nat) (va : DWord) : Nat → ReadBack
  | 0 => ⟨[], none, none, false, false, false⟩
  | n + 1 =>
    let r := s.readVa owner t core (va + 1) n
    match s.engXlate owner t core .read va with
    | .ok k =>
        { r with bytes := (if s.badRead k 1 then 0 else s.mem.get k) :: r.bytes, poison := r.poison || s.badRead k 1 }
    | .zero => { r with bytes := 0 :: r.bytes, bad := true }
    | .miss => { r with bytes := 0 :: r.bytes, missPage := some (va.toNat / 65536), bad := true }
    | .page =>
        { r with bytes := 0 :: r.bytes, bad := true
                 absent := if va.toNat < sramBase then some (va.toNat / 65536) else r.absent }
    | .fence => { r with bytes := 0 :: r.bytes, bad := true }
    | .dead => { r with bytes := 0 :: r.bytes, poison := true }
    | .wait => { r with bytes := 0 :: r.bytes, wait := true }

/-- Write bytes at `va` for an engine; bytes that are not translated for the write are not written. -/
def State.writeVa (s : State) (owner : Nat) (t : Team) (core : Nat) (va : DWord) : List (BitVec 8) → State
  | [] => s
  | b :: bs =>
    let s' := match s.engXlate owner t core .write va with
      | .ok k => (s.writeKey k [b]).markRacking owner k 1
      | _ => s
    s'.writeVa owner t core (va + 1) bs

/-- The first byte of a range that an engine cannot write, with what it meets. -/
def State.writeCheck (s : State) (owner : Nat) (t : Team) (core : Nat) (va : DWord) : Nat → Option (DWord × EngAcc)
  | 0 => none
  | n + 1 =>
    match s.engXlate owner t core .write va with
    | .ok _ => s.writeCheck owner t core (va + 1) n
    | x => some (va, x)

end Sys2Proof.Machine
end

