-- ==== Sys2Proof/Machine/Operands.lean ====
section
/-! DEFINITION. The operand forms: addresses of the memory formats (14 R245), immediates (03 R41), branch
targets (06 R116), and register pairs. -/

set_option linter.unusedVariables false

namespace Sys2Proof.Machine

/-- A[i] of format M: the affine register read at issue, or the vector pair (14 R245). -/
def State.addrM (s : State) (a : Adr) (i : Nat) : DWord :=
  match a with
  | .aff x => s.cur.affine x i
  | .pair n => s.vpair 2 (2 * n) i

/-- The pair of an address lies in the allocation (14 R245). -/
def Group.adrOk (g : Group) : Adr → Bool
  | .aff _ => true
  | .pair n => g.vOk (2 * n) 2

/-- A[i] of format MX: the affine address plus the unsigned offset register (14 R245). -/
def State.addrMX (s : State) (x o i : Nat) : DWord := s.cur.affine x i + (s.vreg 3 o i).setWidth 64

/-- What the word at an address is: a `VSUSP` with wake kind 1 or not; none when it cannot be fetched now (17 R298). -/
def State.suspAt (s : State) (va : DWord) : Option Bool :=
  match s.xlate s.curOwner s.curTeam s.curCore .fetch va with
  | .ok k => some (match decodeWord (leNat (Memory.bytes s.mem k 4)) 0 with
      | .ok (.vsusp _ _ _ .frameLoad) => true
      | _ => false)
  | _ => none

/-- The result is data of a `VLDF` that the lane's next word, a `VSUSP` with wake kind 1, takes for a frame row (17
R298); a lane that was moved elsewhere since has another next word (01 R12). While that word cannot be fetched, what it is stays
undecided: the data is kept, and who reads v(d) from another lane waits (05 R96). -/
def State.frameHeld (s : State) (e : OutRes) : Bool :=
  e.frame && s.cur.pc.get e.lane == e.pc + 4 && (s.suspAt (e.pc + 4)).getD true

/-- imm8 and imm14 sign-extended to 32 bits (03 R41). -/
def imm8 (v : BitVec 8) : Word := v.signExtend 32
def imm14 (v : BitVec 14) : Word := v.signExtend 32

/-- The J-format target: the word's address + 4 × offset (03 R41; 06 R116). -/
def jTarget (pc : DWord) (off : BitVec 20) : DWord := pc + off.signExtend 64 * 4

/-- A PC with bits 1:0 zero (03 R39). -/
def aligned4 (a : DWord) : Bool := a.toNat % 4 == 0

/-- Bytes of an access of `VLD`, `VLDNF`, `VST` (14 R246). -/
def memBytes : MemK → Nat
  | .b8 => 1 | .b16 => 2 | .w32 => 4 | .w64 => 8

/-- Data registers of an access: a pair for 64 bits (14 R250). -/
def Group.dataOk (g : Group) (wide : Bool) (d : Nat) : Bool := if wide then g.vPairOk d else g.vOk d 1

/-- Bits per field of a packed block (14 R254). -/
def packBits : PackK → Nat
  | .n4 => 4 | .n6 => 6 | .n8 => 8

/-- Bytes of a packed block, and its alignment (14 R246, R254). -/
def packBytes : PackK → Nat
  | .n4 => 16 | .n6 => 24 | .n8 => 32
def packAlign : PackK → Nat
  | .n4 => 16 | .n6 => 8 | .n8 => 32

end Sys2Proof.Machine
end

