-- ==== Sys2Proof/Machine/Access.lean ====
section
/-! DEFINITION. The access of a lane memory instruction: how its lanes are sorted by cause, which of them
are performed, and what is raised or parked (14 R247, R248; 18 R313-R315; 19 R329). -/

set_option linter.unusedVariables false

namespace Sys2Proof.Machine

/-- The first cause a lane meets, or that its access is performed (14 R247). -/
inductive LaneClass where
  | ok (key : Nat)
  | zero               -- performed, reads 0 (14 R248)
  | dead               -- performed on a path that is gone: reads poisoned, writes discarded (13 R218)
  | fence
  | align
  | atomic
  | walk
  | page
  | wait               -- the host path does not flow (22 R387)
  | frozen             -- a write to a page whose last lines are being copied (19 R333)
  deriving DecidableEq, Repr

def LaneClass.isOk : LaneClass → Bool
  | .ok _ => true
  | _ => false

def LaneClass.key : LaneClass → Nat
  | .ok k => k
  | _ => 0

/-- An atomic of `n` bytes on a host page can be no AtomicOp there: it has no such form, or the interface, once locked, has
the enable bit or the completer's width off (14 R260; 22 R389). -/
def Owner.noAtomic (o : Owner) (n : Nat) (form : Bool) : Bool :=
  !form || (o.lockDigest.isSome && (!o.atomicEnable || !(o.hatom.getLsbD (if n = 8 then 1 else 0))))

/-- The page of an address is host memory for the owner. -/
def State.onHost (s : State) (o : Owner) (core : Nat) (va : DWord) : Bool :=
  match o.entry core (va.toNat / 65536) with
  | some e => isHostKey (e.key va.toNat)
  | none => false

/-- Sort one lane (14 R247): a fenced bank, alignment, an atomic without AtomicOp, then translation.
`atom`: bytes of an atomic and whether it has an AtomicOp (14 R260). -/
def State.classify (s : State) (m : Mode) (al : Nat) (atom : Option (Nat × Bool)) (va : DWord) : LaneClass :=
  let o := s.curOwner
  match s.xlate o s.curTeam s.curCore m va with
  | .fence => .fence
  | x =>
    if va.toNat % al ≠ 0 then .align
    else
      let bars := match atom with
        | some (n, form) => o.noAtomic n form
        | none => false
      match x with
      | .ok k =>
          if isHostKey k then
            (if bars || (atom.isSome && s.upsets.contains .unsupportedRequest) then .atomic
             else if (m != .write || atom.isSome) && s.upsets.contains .hostError then .dead else .ok k)
          else if (m != .write || atom.isSome) && ((isPeerKey k && s.upsets.contains .badFlit) || s.keyless k) then .dead
          else if (s.shutPort o.id s.curCore k).isSome then .wait
          else .ok k
      | .zero => .zero
      | .walk => .walk
      | .page => .page
      | .hostWait => if bars then .atomic else .wait
      | .hostDead => if bars && s.onHost o s.curCore va then .atomic else .dead
      | .frozen => if bars && s.onHost o s.curCore va then .atomic else .frozen
      | .fence => .fence

/-- At handler level an address an instruction names must lie in the pinned reserve (18 R315). -/
def State.named (s : State) (va : DWord) (t : State) : State :=
  if s.cur.hlv && !(s.inReserve s.curOwner s.curCore va) then
    s.recursiveFault (s.reserveDetail s.curOwner s.curCore va) va
  else t

/-- The same for several addresses: the detail is the first of R315's order, 1 before 2. -/
def State.namedAll (s : State) (vas : List DWord) (t : State) : State :=
  let out := if s.cur.hlv then vas.filter (fun va => !(s.inReserve s.curOwner s.curCore va)) else []
  match out.filter (fun va => s.reserveDetail s.curOwner s.curCore va == 1) ++ out with
  | [] => t
  | va :: _ => s.recursiveFault (s.reserveDetail s.curOwner s.curCore va) va

/-- Distinct numbers of a list, ascending. -/
def sortNat (l : List Nat) : List Nat :=
  l.foldl (fun acc n => if acc.contains n then acc else acc.filter (· < n) ++ [n] ++ acc.filter (n < ·)) []

/-- Put a lane somewhere into a list, the place chosen by free bits: any order can come out (14 R255). -/
def freeInsert (ctr k i : Nat) : List Nat → List Nat
  | [] => [i]
  | j :: l => if Config.freeBit ctr (2 * k) j then i :: j :: l else j :: freeInsert ctr (k + 1) i l

def freeOrder (ctr : Nat) (l : List Nat) : List Nat :=
  l.foldl (fun acc i => freeInsert ctr (100000 + 100 * i) i acc) []

/-- Lanes park in the owner's fault bin (18 R313): they leave the issue set, withdraw arrivals, keep PC and
outstanding results. -/
def State.park (s : State) (m : Mask) : State :=
  if m = 0 then s
  else
    let s := s.withdrawLanes m
    let s := s.modCur (fun g => { g with live := g.live &&& ~~~m, fbin := g.fbin ||| m, iss := g.iss &&& ~~~m
                                         mqWait := g.mqWait &&& ~~~m })
    (s.modCur (fun g => (g.yieldCheck).bargCheck s.freeCtr)).barCheckAll s.cur.team

/-- Lanes that miss: their misses join the queue and they park; a full queue keeps them live and waiting
(19 R329). Without a WALK handler the group is terminated (19 R330). -/
def State.parkWalk (s : State) (m : Mask) (page : Nat → Nat) (write fetch : Bool) : State :=
  let m := m &&& s.cur.live
  if m = 0 then s
  else if s.handlerOf s.cur.grid .walk = 0 then s.terminate .walk (pageVa (page m.low)) m
  else
    let s := s.modCur (fun g => { g with
      walkPage := g.walkPage.setMany 0 m.has (fun i => BitVec.ofNat 64 (page i + 1)) 64 })
    m.lanes.foldl (fun (s : State) i =>
      let ms : Miss := { mid := 0, page := page i, request := false, cores := [s.curCore], sp := s.cur.sp, claimed := false
                         write, fetch, engine := false, grid := s.cur.grid }
      match s.curOwner.enqueue ms with
      | some o => (s.modOwner s.cur.owner (fun _ => o)).park (Mask.one i)
      | none =>
        (s.queueMiss s.cur.owner ms).modCur (fun g => { g with mqWait := g.mqWait ||| Mask.one i })) s

/-- Lanes that meet PAGE park as one fault batch of their issue (18 R313, R314). Without a PAGE handler the
group is terminated. -/
def State.parkPage (s : State) (m : Mask) (va : Nat → DWord) (write fetch : Bool) : State :=
  let m := m &&& s.cur.live
  if m = 0 then s
  else if s.handlerOf s.cur.grid .page = 0 then s.terminate .page (va m.low) m
  else
    let pg := fun i => (va i).toNat / 65536
    let pages := sortNat (m.lanes.map pg)
    let entry := fun p =>
      let ls := Mask.ofFn (fun i => m.has i && pg i == p) 64
      (p, ls, va ls.low)
    let addrs := SMap.setMany ([] : SMap 64) 0 m.has va 64
    let b : Batch := { sp := s.cur.sp, gid := s.cur.gid, grid := s.cur.grid, pages := pages.map entry, write, fetch, addrs }
    (s.modOwner s.cur.owner (fun o => { o with batches := o.batches ++ [b] })).park m

/-- The set of active lanes of a class. -/
def laneSet (act : Mask) (p : Nat → Bool) : Mask := Mask.ofFn (fun i => act.has i && p i) 64

/-- A part of one lane's access: a block that crosses a page has two, each of which obeys its own page (13 R225). -/
structure Part where
  va : DWord
  len : Nat
  cls : LaneClass
  deriving DecidableEq, Repr

/-- The class of a whole access: a cause of any part, in the order of 14 R247, else what its parts do together. -/
def partsClass (l : List Part) : LaneClass :=
  let any := fun (c : LaneClass) => l.any (fun p => p.cls == c)
  if any .fence then .fence
  else if any .align then .align
  else if any .atomic then .atomic
  else match l.find? (fun p => p.cls == .walk || p.cls == .page) with
    | some p => p.cls
    | none =>
      if any .wait then .wait
      else if any .frozen then .frozen
      else match l.find? (fun p => p.cls.isOk) with
        | some p => p.cls
        | none => if any .dead then .dead else .zero

/-- The address of the part that has the class of the whole access: for a block whose second part meets the cause, the page boundary
where that part begins, which is its TVAL, its fault address and what a log says (14 R245, R247). DESIGN CHOICE, log entry 37. -/
def partsVa (l : List Part) : DWord := (findD (fun p => p.cls == partsClass l) (l.headD ⟨0, 0, .zero⟩) l).va

/-- At handler level, the first event of an issue in the order of 18 R315, when there is one. -/
def State.handlerFault (s : State) (act : Mask) (parts : Nat → List Part) (pois : Mask) : Option (Nat × DWord) :=
  let o := s.curOwner
  let outs := fun i => (parts i).filter (fun p => !(s.inReserve o s.curCore p.va))
  let outPart := fun i => ((outs i).filter (fun p => s.reserveDetail o s.curCore p.va == 1) ++ outs i).head?
  let va := fun i => match outPart i with | some p => p.va | none => partsVa (parts i)
  let is := fun (c : LaneClass) => laneSet act (fun i => partsClass (parts i) == c)
  let out := laneSet act (fun i => (outPart i).isSome)
  let out1 := laneSet out (fun i => s.reserveDetail o s.curCore (va i) == 1)
  let tr := is .walk ||| is .page
  let other := is .fence ||| is .align ||| is .atomic
  if pois &&& ~~~out ≠ 0 then some (4, va (pois &&& ~~~out).low)
  else if out1 ≠ 0 then some (1, va out1.low)
  else if out ||| tr ≠ 0 then some (2, va (out ||| tr).low)
  else if other ≠ 0 then some (3, va other.low)
  else none

/-- A fenced bank logs every access of a lane that it refuses (13 R221, R227; 22 R407). -/
def State.logFences (s : State) (m : Mask) (va : Nat → DWord) : State :=
  m.lanes.foldl (fun (t : State) i =>
    t.logViolation { cyc := s.cyc, addr := va i, target := s.fenceTarget s.curTeam (va i), requester := requester 1 s.curCore s.cur.sp
                     reqOwner := s.cur.owner, reason := 1 }) s

/-- Lanes that meet PAGE or WALK park. -/
def State.parkAccess (s : State) (act : Mask) (cls : Nat → LaneClass) (va : Nat → DWord) (write : Bool) : State :=
  (s.parkPage (laneSet act (fun i => cls i == .page)) va write false).parkWalk (laneSet act (fun i => cls i == .walk))
    (fun i => (va i).toNat / 65536) write false

/-- The lanes of an issue whose accesses cannot flow yet: to a host path that is not open (22 R387), through a port that lacks the owner's key
(22 R378), or a write to a page whose last lines are being copied (19 R333). -/
def stalled (act : Mask) (cls : Nat → LaneClass) : Mask := laneSet act (fun i => cls i == .wait || cls i == .frozen)

/-- Some accesses of an issue cannot flow yet: the rest of the issue set waits at the word, since no lane leaves it and the result comes for
all of them at one moment (02 R19, R20). Lanes that meet PAGE or WALK park, unless another lane meets a cause, which is raised once the
accesses that wait have been performed (14 R247). -/
def State.stallAccess (s : State) (act : Mask) (cls : Nat → LaneClass) (va : Nat → DWord) (write cause : Bool) : State :=
  let t := if cause then s else s.parkAccess act cls va write
  let w := laneSet act (fun i => cls i == .wait)
  let port := fun i => match s.xlate s.curOwner s.curTeam s.curCore (if write then .write else .read) (va i) with
    | .ok k => s.shutPort s.cur.owner s.curCore k
    | _ => none
  let t := if laneSet w (fun i => (port i).isNone) = 0 then t else t.waitFor t.cur.iss .hostPath
  let t := (sortNat (w.lanes.filterMap port)).foldl (fun (t : State) c => t.waitFor t.cur.iss (.portKey c)) t
  (sortNat ((laneSet act (fun i => cls i == .frozen)).lanes.map (fun i => (va i).toNat / 65536))).foldl (fun (t : State) p =>
    t.waitFor t.cur.iss (.racking p p)) t

/-- The end of a memory instruction: performed lanes go on, the causes are raised in the order of 14 R247, and
lanes that meet WALK or PAGE park. `counts`: one lane for each access. -/
def State.finishAccess (s : State) (act pois : Mask) (cls : Nat → LaneClass) (va : Nat → DWord) (counts : Nat → Bool)
    (write : Bool) : State :=
  let is := fun (c : LaneClass) => laneSet act (fun i => cls i == c)
  let f := is .fence
  let a := is .align
  let t := is .atomic
  let s := s.logFences (laneSet f counts) va
  if pois ≠ 0 then s.unwind .poison (va pois.low) pois
  else if f ≠ 0 then s.raise .fenceViolation (va f.low) f
  else if a ≠ 0 then s.raise .align (va a.low) a
  else if t ≠ 0 then s.raise .atomicUnsupported (va t.low) t
  else s.stallAccess act cls va write false

/-- A lane memory instruction. `va2`: where a block goes on when it crosses a page. `perform` carries out one lane's access at
a key and answers the state and the lane's result entries; lanes act in the order `freeOrd` says. `onZero` is the result of a
lane that reads a discarded page. -/
structure LaneMem where
  mode : Mode
  reads : Bool
  align : Nat
  size : Nat
  atom : Option (Nat × Bool)
  va : Nat → DWord
  va2 : Nat → Option DWord
  perform : State → Nat → Nat → State × List OutRes
  onZero : Nat → List OutRes
  /-- the key ranges lane `i` writes at a key -/
  wrote : Nat → Nat → List (Nat × Nat)
  /-- the access of lane `i` is counted; that of a block is counted once -/
  counts : Nat → Bool
  pageIsZero : Bool
  freeOrd : Bool

/-- Where an access of `n` bytes continues on the next page, if it crosses. -/
def crossVa (va : DWord) (n : Nat) : Option DWord :=
  if va.toNat / 65536 = (va.toNat + n - 1) / 65536 then none
  else some (BitVec.ofNat 64 ((va.toNat / 65536 + 1) * 65536))

/-- A misaligned access runs on into a fenced bank, which comes before its ALIGN (14 R247). -/
def State.spills (s : State) (m : Mode) (va : DWord) (n : Nat) : Bool :=
  match crossVa va n with
  | some v => s.xlate s.curOwner s.curTeam s.curCore m v == .fence
  | none => false

/-- The parts of lane `i`'s access. The no-fault load takes PAGE as a read of 0 (14 R251). -/
def State.laneParts (s : State) (x : LaneMem) (i : Nat) : List Part :=
  let cls := fun va =>
    let c := s.classify x.mode x.align x.atom va
    if x.pageIsZero && c == .page then LaneClass.zero else c
  match x.va2 i with
  | none => [⟨x.va i, x.size, if s.spills x.mode (x.va i) x.size then .fence else cls (x.va i)⟩]
  | some v => [⟨x.va i, v.toNat - (x.va i).toNat, cls (x.va i)⟩, ⟨v, x.size - (v.toNat - (x.va i).toNat), cls v⟩]

/-- The part reads poisoned data. -/
def State.partPoisoned (s : State) (p : Part) : Bool := p.cls == .dead || (p.cls.isOk && s.poisoned p.cls.key p.len)

/-- The word of an atomic at a key of the host, performed between two states. -/
def hostWord (atom : Option (Nat × Bool)) (s t : State) (key : Nat) : Option HostWord :=
  match atom with
  | some (n, _) => if isHostKey key then some ⟨key, n, leNat (Memory.bytes s.mem key n), leNat (Memory.bytes t.mem key n)⟩ else none
  | none => none

/-- Host reads and atomics are non-posted requests on the TDI, outstanding until they complete or time out (22 R390). -/
def State.noteHost (s : State) (words : Nat → Option HostWord) (l : List OutRes) : State :=
  let out := l.filter (fun e => e.path == 2)
  (sortNat (out.map (·.lane))).foldl (fun (t : State) i =>
    let e := out.find? (fun e => e.lane == i)
    { t.modOwner t.cur.owner (fun o => { o with
        hostReqs := o.hostReqs ++ [⟨t.nextId, s.freeCtr, false, t.cyc, t.cur.gid, i, (e.map (·.addr)).getD 0, words i,
          (e.filter (fun e => e.left == 0 && !e.frame)).map (·.pc)⟩] }) with nextId := t.nextId + 1 }) s

/-- Two results go to one register of one lane. -/
def OutRes.sameReg (e f : OutRes) : Bool := e.lane == f.lane && e.reg == f.reg && e.isPred == f.isPred && !e.frame && !f.frame

/-- A result that goes to a register which an earlier one has still to reach: the register holds either value afterwards
(02 R30). -/
def OutRes.over (ctr : Nat) (old : List OutRes) (f : OutRes) : OutRes :=
  old.foldl (fun (x : OutRes) e => if e.sameReg f && Config.freeBit ctr (e.choice 30) e.lane then { x with data := e.data } else x) f

/-- Results join the outstanding ones, and their issue is awaited. -/
def Group.addOut (ctr : Nat) (g : Group) (l : List OutRes) : Group :=
  { g with
    outst := g.outst.map (fun e => if l.any e.sameReg then { e with clob := true } else e) ++ l.map (OutRes.over ctr g.outst)
    await := if l = [] then g.await else g.await ++ [{
      iid := ctr, lanes := Mask.ofFn (fun i => l.any (fun e => e.lane == i)) 64
      regs := sortNat (l.map (·.reg)), paths := sortNat (l.map (·.path)) }] }

/-- Add the results of the performed lanes: a result with no lookahead is written at once, and its lane waits for the issue
(02 R20, R29). -/
def State.addResults (s : State) (words : Nat → Option HostWord) (l : List OutRes) : State :=
  (s.modCur (fun g =>
    (g.addOut s.freeCtr l).deliverIf s.freeCtr (fun e => e.early && e.iid == s.freeCtr))).noteHost words l

/-- A lane memory instruction. At handler level an issue of which one lane's access is a recursive fault performs none: R247 performs
the remaining lanes' and R316 says that the word does not complete (14 R247; 18 R316). DESIGN CHOICE, log entry 37. -/
def State.laneMem (s : State) (h : Hdr) (ok : Bool) (x : LaneMem) : State :=
  if !ok then s.raiseWord .illegalReg
  else
    let act := s.active h
    let parts := s.laneParts x
    let cls := fun i => partsClass (parts i)
    let done := fun i => (cls i).isOk || cls i == .zero || cls i == .dead
    let pois := if x.reads then laneSet act (fun i => done i && (parts i).any s.partPoisoned) else 0
    match (if s.cur.hlv then s.handlerFault act parts pois else none) with
    | some (d, a) => s.recursiveFault d a
    | none =>
      if stalled act cls ≠ 0 then
        s.stallAccess act cls (fun i => partsVa (parts i)) (x.mode == .write)
          (pois ||| laneSet act (fun i => cls i == .fence || cls i == .align || cls i == .atomic) != 0)
      else
      let fin := laneSet act done &&& ~~~pois
      let s := (pois.lanes.flatMap parts).foldl (fun (t : State) q => if q.cls.isOk then t.reportTags q.cls.key q.len else t) s
      let s0 := s.goOn ((s.cur.iss &&& ~~~act) ||| fin) 4
      let lanes := (laneSet fin (fun i => (cls i).isOk)).lanes
      let order := if x.freeOrd then freeOrder s.freeCtr lanes else lanes
      let (s1, res, words) := order.foldl (fun (p : State × List OutRes × List (Nat × Option HostWord)) i =>
        let (t, r) := x.perform p.1 i (cls i).key
        let w := hostWord x.atom p.1 t (cls i).key
        let t := (parts i).foldl (fun (t : State) q => if q.cls.isOk then
          t.traffic s.cur.owner q.cls.key (if x.counts i then q.len else 0) s.curCore (q.va.toNat / 65536) else t) t
        (t, p.2.1 ++ r, (i, w) :: p.2.2)) (s0, [], [])
      -- the stores of one issue count as one store
      let s1 := if x.mode = .write && !x.reads then s1.clearCovered (lanes.flatMap (fun i => x.wrote i (cls i).key)) else s1
      let zs := (laneSet fin (fun i => cls i == .zero)).lanes.flatMap x.onZero
      let ds := if x.mode = .read then (laneSet fin (fun i => cls i == .dead)).lanes.flatMap
        (fun i => (x.onZero i).map (fun e => { e with poisoned := true })) else []
      (s1.addResults (fun i => ((words.find? (fun w => w.1 == i)).bind (·.2))) (res ++ zs ++ ds)).finishAccess act pois cls (fun i => partsVa (parts i)) x.counts (x.mode == .write)

end Sys2Proof.Machine
end

