-- ==== Sys2Proof/Machine/Bins.lean ====
section
/-! DEFINITION. Bins and tasks: BINCFG, VSUSP, VSPAWN, BINWAKE, BINFLUSH, BINQ, FRAMELD and the bin
controller's events (17 R293-R304; 16 R289-R292). -/

set_option linter.unusedVariables false

namespace Sys2Proof.Machine

/-! ## Tiles as bins see them -/

def Team.tile (t : Team) (n : Nat) : Option Tile := t.tiles.find? (·.num == n)
def Team.bin (t : Team) (n : Nat) : Option Bin := t.bins.find? (·.num == n)
def Team.setBin (t : Team) (b : Bin) : Team := { t with bins := b :: t.bins.filter (·.num != b.num) }
def State.modBin (s : State) (tid n : Nat) (f : Bin → Bin) : State :=
  s.modTeam tid (fun t => { t with bins := modAll (·.num == n) f t.bins })

/-- Bytes of an element of a tile (11 R206). -/
def Tile.size (t : Tile) : Nat := if t.kind = 0 then 4 else if t.kind = 3 then 1 else 2

/-- Address of element [r][c] (11 R206). -/
def Tile.at (t : Tile) (r c : Nat) : DWord := t.base + BitVec.ofNat 64 (r * t.pitch + c * t.size)

/-- The bytes from `va`, `n` of them, lie in the team's banks through its local window. -/
def Team.holds (t : Team) (va : DWord) (n : Nat) : Bool :=
  let lo := va.toNat
  let hi := lo + n - 1
  let inBank := fun a => match whereIs t (BitVec.ofNat 64 a) with | .bank _ _ => true | _ => false
  decide (sramBase ≤ lo) && decide (hi < globalBase) && lo / 0x400000 == hi / 0x400000 && inBank lo && inBank hi

/-- The tile lies in the team's banks. A binding shows that (11 R206); a base that the owner has rewritten in an image need not: its
accesses meet the bank fences (07 R134; 19 R345). -/
def Team.reaches (tm : Team) (t : Tile) : Bool := tm.holds t.base ((t.rows - 1) * t.pitch + t.cols * t.size)

/-- Elements [r][c] and [r][0] up to a row's end lie in the team's banks. -/
def Team.holdsElem (tm : Team) (t : Tile) (r c : Nat) : Bool := tm.holds (t.at r c) t.size
def Team.holdsRow (tm : Team) (t : Tile) (r : Nat) : Bool := t.cols == 0 || tm.holds (t.at r 0) (t.cols * t.size)

/-- Lanes of `m` meet the fence of a bank at `va` (13 R221). -/
def State.fencedAt (s : State) (va : DWord) (m : Mask) : State :=
  (s.logFences (Mask.one m.low) (fun _ => va)).raise .fenceViolation va m

/-- The key of a team-local byte, 0 when it is in no bank of the team. -/
def localKey (t : Team) (va : DWord) : Nat :=
  match whereIs t va with
  | .bank b off => bankKey b off
  | _ => 0

/-- Team-local bytes with the keys where they lie: a range that ends a bank goes on in the team's next one (13 R220). -/
def localPieces (t : Team) (va : DWord) (bs : List (BitVec 8)) : List (Nat × List (BitVec 8)) :=
  let n := 65536 - va.toNat % 65536
  if bs.length ≤ n then [(localKey t va, bs)]
  else [(localKey t va, bs.take n), (localKey t (va + BitVec.ofNat 64 n), bs.drop n)]

/-- `n` team-local bytes, and whether one of them is poisoned. -/
def State.localBytes (s : State) (t : Team) (va : DWord) (n : Nat) : List (BitVec 8) × Bool :=
  let ps := (localPieces t va (List.replicate n 0)).map (fun p => (p.1, p.2.length))
  (ps.flatMap (fun p => Memory.bytes s.mem p.1 p.2), ps.any (fun p => s.poisoned p.1 p.2))

def State.elem (s : State) (tm : Team) (t : Tile) (r c : Nat) : Nat :=
  leNat (Memory.bytes s.mem (localKey tm (t.at r c)) t.size)

def State.setElem (s : State) (tm : Team) (t : Tile) (r c : Nat) (x : Nat) : State :=
  s.writeKey (localKey tm (t.at r c)) (leBytes t.size x)

/-- Highest set bit plus one (0 for none). -/
def bitLen (m : DWord) : Nat := (List.range 64).foldl (fun acc i => if m.getLsbD i then i + 1 else acc) 0

/-- The checks of a bin's tile (17 R297). -/
def tileFits (t : Option Tile) (live : DWord) (vregs : Nat) : Bool :=
  match t with
  | none => false
  | some t => t.kind == 0 && live != 0 && decide (bitLen live ≤ t.cols) && decide (bitLen live ≤ vregs)

def Bin.occupied (b : Bin) : Bool := b.rows.any (fun r => r.st != .free) || b.cask != []

/-- `BINCFG` (17 R297). -/
def execBincfg (h : Hdr) (d a b : Nat) (s : State) : Out :=
  let g := s.cur
  let live := g.spair (b + 2)
  let resume := g.spair b
  let cask := g.spair (b + 4)
  let rows := (g.sreg (b + 6)).toNat
  let tm := s.curTeam
  let bad := (match tm.bin d with | some x => x.occupied | none => false)
    || !(tileFits (tm.tile a) live g.vregs) || !(aligned4 resume) || decide (65536 < rows)
    || (decide (0 < rows) && cask.toNat % 256 != 0)
  .next (
    if !(b % 8 == 0 && g.sOk b 7) then s.raiseWord .illegalReg
    else if !(s.uguard h) then s.goOn g.iss 4
    else if bad then s.raiseWord .tileRange
    else (s.modTeam g.team (fun t => t.setBin
        { num := d, tile := a, resume, live, caskAddr := cask, caskRows := rows, rows := [], cask := [], timer := 0
          due := false, refill := false })).goOn g.iss 4)

/-! ## Row states -/

def Bin.row (b : Bin) (r : Nat) : RowState := (findD (·.num == r) ⟨r, .free, false, none, 0⟩ b.rows).st

/-- Rows in state WOKEN of the tile (17 R295). -/
def Bin.wokenRows (b : Bin) (n : Nat) : List Nat := (List.range n).filter (fun r => b.row r == .woken)

def Bin.setRow (b : Bin) (r : Row) : Bin :=
  { b with rows := (if r.st = .free then [] else [r]) ++ b.rows.filter (·.num != r.num) }

/-- The flush timer resets when the number of woken rows rises from 0, and stops at 0 (17 R295). -/
def Bin.retime (before after : Bin) (n : Nat) : Bin :=
  if before.wokenRows n = [] ∧ after.wokenRows n ≠ [] then { after with timer := 0 } else after

/-- A launch becomes due when as many rows are WOKEN as the grid is wide (17 R295). -/
def Bin.checkDue (b : Bin) (n w : Nat) : Bin := if w ≤ (b.wokenRows n).length then { b with due := true } else b

/-- Where a lane's row goes: a free tile row, else a free cask row (16 R291). A tile row that a waiting refill has still to take is free to
a `VSUSP` or `VSPAWN` of another group: DESIGN CHOICE, log entry 37. -/
inductive Place where
  | tile (r : Nat)
  | cask (r : Nat)
  | nowhere
  deriving DecidableEq, Repr

def Bin.place (b : Bin) (rows : Nat) : Place :=
  match (List.range rows).find? (fun r => b.row r == .free) with
  | some r => .tile r
  | none =>
    match (List.range (b.cask.length + 1)).find? (fun r => !(b.cask.any (·.num == r))) with
    | some r => if r < b.caskRows then .cask r else .nowhere
    | none => .nowhere

/-- The bytes of a row: 64 words, columns past the tile's width zero (16 R290). -/
def rowBytes (cols : Nat) (f : Nat → Word) : List (BitVec 8) :=
  (List.range 64).flatMap (fun c => leBytes 4 (if c < cols then (f c).toNat else 0))

/-- What becomes of a lane's row: it has a place, the suspend fails, its cask row cannot be written yet (16 R291, R292), or its place is a
tile row that an image has taken out of the team's banks: the lane meets the fence there (13 R221; 19 R345). -/
inductive Placed where
  | yes
  | no
  | wait (c : WaitCond)
  | fenced (va : DWord)
  deriving DecidableEq, Repr

/-- What has become of the rows of an issue: the lanes whose row has a place, what the word waits for, the lanes that meet a fence, and its
address. -/
structure Places where
  done : Mask
  late : Option WaitCond
  fence : Mask
  at' : DWord
  deriving DecidableEq, Repr

/-- What a write to an owner's page waits for, as an access of a CE does: the end of a racking, or the host path (19 R333; 22 R387). -/
def State.writeWait (s : State) (owner : Nat) (va : DWord) : WaitCond :=
  let p := va.toNat / 65536
  if s.migrating owner p p then .racking p p else .hostPath

/-- A page request for an address, as `PGREQ` queues it: none at or above 0x01E0_0000_0000_0000 (20 R361). -/
def State.askFor (s : State) (owner : Nat) (m : Miss) (va : DWord) : State :=
  if sramBase ≤ va.toNat then s else s.queueRequest owner m

/-- Put one lane's row into the bin: state, columns, and the data still to come, whose column the delivery alone writes (16
R291). Answers whether it was placed (17 R299, R301). A cask row is written as a CE writes (16 R292; 15 R275): on a path that is gone
the write is discarded. -/
def State.placeRow (s : State) (tid bn : Nat) (st : RowState) (col : Nat → Word) (pend : Option (Nat × Word × Bool))
    (rid : Nat) : State × Placed :=
  let tm := s.teamOf tid
  let skip : Option Nat := pend.map (fun p => p.1)
  match tm.bin bn with
  | none => (s, .no)
  | some b =>
    match tm.tile b.tile with
    | none => (s, .no)
    | some t =>
      match b.place t.rows with
      | .tile r =>
        if !(tm.holdsRow t r) then (s, .fenced (t.at r 0)) else
        let cs := (List.range t.cols).filter (fun c => skip != some c)
        let s := (cs.foldl (fun s c => s.setElem tm t r c (col c).toNat) s).clearCovered
          (cs.map (fun c => ((localKey tm (t.at r c), t.size) : Nat × Nat)))
        let b2 := (Bin.retime b (b.setRow ⟨r, st, false, pend, rid⟩) t.rows).checkDue t.rows s.cur.width
        (s.modTeam tid (fun t => t.setBin b2), .yes)
      | .cask r =>
        let va := b.caskAddr + BitVec.ofNat 64 (256 * r)
        let join := fun (u : State) => (u.modTeam tid (fun t => t.setBin { b with cask := b.cask ++ [⟨r, st, false, pend, rid⟩] }), Placed.yes)
        (match s.engXlate s.cur.owner tm s.curCore .write va with
         | .ok k =>
            let bs := rowBytes t.cols col
            join ((match skip with
              | some c => if c < t.cols then (s.writeKey k (bs.take (4 * c))).writeKey (k + 4 * c + 4) (bs.drop (4 * c + 4)) else s.writeKey k bs
              | none => s.writeKey k bs).markRacking s.cur.owner k 256)
         | .dead => join s
         | .wait => (s, .wait (s.writeWait s.cur.owner va))
         | _ =>
            (s.askFor s.cur.owner (engineMiss s.curCore s.cur.sp (va.toNat / 65536) s.cur.grid true) va, .no))
      | .nowhere => (s, .no)

/-- Is the bin usable now: configured, and its tile still passes the checks (17 R297). -/
def State.binOk (s : State) (bn : Nat) : Bool :=
  match s.curTeam.bin bn with
  | none => false
  | some b => match s.curTeam.tile b.tile with
    | none => false
    | some t => tileFits (some t) b.live s.cur.vregs

/-- Data of the `VLDF` held for a lane's row (17 R298). -/
def Group.heldFor (g : Group) (i : Nat) : Option OutRes :=
  g.outst.find? (fun e => e.frame && e.lane == i && e.pc + 4 == g.ipc)

/-- The host request whose data a result is, 0 for none. -/
def State.hostRid (s : State) (e : OutRes) : Nat :=
  ((s.curOwner.hostReqs.find? (fun r => r.gid == s.cur.gid && r.lane == e.lane && r.iid == e.iid)).map (·.rid)).getD 0

/-- Held data of lanes that no row takes goes to v(d), where readers wait for it; when it has arrived poisoned it is consumed there, each
lane's PC as it stands (17 R298). -/
def State.deliverHeld (s : State) (m : Mask) : State :=
  let (t, bad, va) := s.releaseFrames false (fun e => m.has e.lane)
  if bad = 0 then t else t.unwind .poison va bad

/-- Lane `i`'s predicate `d` says whether its row has a place; of a lane that meets a fence it is not written. A word that waits for a cask
row places none and issues again. -/
def State.placed (s : State) (d i : Nat) (r : Placed) (acc : Places) : State × Places :=
  match r with
  | .yes => (s.modCur (fun g => g.setP (Mask.one i) d (Mask.one i)), { acc with done := acc.done ||| Mask.one i })
  | .no => (s.modCur (fun g => g.setP (Mask.one i) d 0), acc)
  | .wait c => (s, { acc with late := some c })
  | .fenced va => (s, { acc with fence := acc.fence ||| Mask.one i, at' := va })

/-- `VSUSP` (17 R299). -/
def execVsusp (h : Hdr) (d a : Nat) (k : SuspK) (s : State) : Out :=
  let act := s.active h
  .next (
    if act = 0 then (s.goOn s.cur.iss 4).deliverHeld s.cur.iss
    else if s.cur.hlv then s.raiseWord .illegalOp
    else if !(s.binOk a) then s.raiseWord .tileRange
    else
      -- results other than data held for the row (02 R31)
      let s0 := s.modCur (fun g => g.deliverIf s.freeCtr (fun e =>
        act.has e.lane && !(e.frame && k == .frameLoad && e.pc + 4 == g.ipc)))
      let live := (match s.curTeam.bin a with | some b => b.live | none => 0)
      let (s1, ps) := act.lanes.foldl (fun (p : State × Places) i =>
        let t := p.1
        let held := if k = .frameLoad then t.cur.heldFor i else none
        let col := fun c => if live.getLsbD c then t.cur.vraw c i else 0
        let st := match held, k with
          | some _, _ => RowState.loading
          | none, .frameLoad => .woken
          | none, .explicit => .asleep
        let pend := held.map (fun e => ((if live.getLsbD e.reg then e.reg else 64), e.data, e.poisoned))
        let (u, r) := t.placeRow s.cur.team a st col pend ((held.map s.hostRid).getD 0)
        u.placed d i r p.2) (s0, ⟨0, none, 0, 0⟩)
      let done := ps.done
      -- guarded-off lanes and lanes whose suspend failed go on
      let stay := s.cur.iss &&& ~~~done &&& ~~~ps.fence
      let s2 := s1.modCur (fun g => { g with outst := g.outst.filter (fun e => !(e.frame && done.has e.lane)) })
      let s3 := s2.goOn stay 4
      let s4 := if done = 0 then s3
        else (s3.modCur (fun g => { g with binned := g.binned ||| done })).dropLanes done
      match ps.late with
      | some c => s.waitFor s.cur.iss c
      | none => if ps.fence = 0 then s4.deliverHeld stay else s4.fencedAt ps.at' ps.fence)

/-- The j-th set bit of a mask has index `c`: the number of set bits below `c`. -/
def rank (m : DWord) (c : Nat) : Nat := (List.range c).foldl (fun acc i => if m.getLsbD i then acc + 1 else acc) 0

/-- `VSPAWN` (17 R301). -/
def execVspawn (h : Hdr) (d a b : Nat) (s : State) : Out :=
  let act := s.active h
  let live := (match s.curTeam.bin a with | some x => x.live | none => 0)
  .next (
    if !(s.cur.vOk b 1) then s.raiseWord .illegalReg
    else if act = 0 then s.goOn s.cur.iss 4
    else if s.cur.hlv then s.raiseWord .illegalOp
    else if (s.curTeam.bin a).isSome && !(s.cur.vOk b (rank live 64)) then s.raiseWord .illegalReg
    else if !(s.binOk a) then s.raiseWord .tileRange
    else
      let s0 := s.settle act
      let (s1, ps) := act.lanes.foldl (fun (p : State × Places) i =>
        let col := fun c => if live.getLsbD c then p.1.cur.vraw (b + rank live c) i else 0
        let (u, r) := p.1.placeRow s.cur.team a .woken col none 0
        u.placed d i r p.2) (s0, ⟨0, none, 0, 0⟩)
      match ps.late with
      | some c => s.waitFor s.cur.iss c
      | none => if ps.fence = 0 then s1.goOn s.cur.iss 4 else (s1.goOn (s.cur.iss &&& ~~~ps.fence) 4).fencedAt ps.at' ps.fence)

/-! ## Waking, flushing, querying -/

/-- Change rows of a bin of the team and see whether a launch becomes due. -/
def State.editBin (s : State) (tid bn w : Nat) (f : Bin → Bin) : State :=
  let tm := s.teamOf tid
  match tm.bin bn with
  | none => s
  | some b =>
    let n := (match tm.tile b.tile with | some t => t.rows | none => 0)
    s.modTeam tid (fun t => t.setBin ((Bin.retime b (f b) n).checkDue n w))

def execBinwake (h : Hdr) (d a : Nat) (s : State) : Out :=
  .next (s.uniOp h (s.cur.sPairOk a) (fun t =>
    let m := t.cur.spair a
    t.editBin t.cur.team d t.cur.width (fun b => { b with
      rows := b.rows.map (fun r => if m.getLsbD r.num && r.st == .asleep then { r with st := .woken } else r) })))

def execBinflush (h : Hdr) (d : Nat) (s : State) : Out :=
  .next (s.uniOp h true (fun t => t.modBin t.cur.team d (fun b =>
    if b.rows.any (·.st == .woken) then { b with due := true } else b)))

def execBinq (h : Hdr) (d a : Nat) (k : BinqK) (s : State) : Out :=
  .next (s.uniAlu h (s.cur.sPairOk d) (fun g => g.setSPair d
    (match s.curTeam.bin a with
     | none => 0
     | some b => Mask.ofFn (fun r => (match k with
         | .occupancy => b.row r != .free
         | .wake => b.row r == .woken)) 64)))

/-! ## FRAMELD and the refill -/

/-- The bin controller cannot reach a cask row: a miss joins the owner's queue, else it asks for the page, and waits (16
R292). -/
def State.binAsks (s : State) (tm : Team) (x : EngAcc) (va : DWord) (write : Bool) : State :=
  let m := engineMiss tm.core (tm.sps.headD 0) (va.toNat / 65536) tm.grid write
  match x with
  | .miss => if s.walkless tm.owner tm.grid then s.askFor tm.owner m va else s.queueMiss tm.owner m
  | .wait => s
  | _ => s.askFor tm.owner m va

/-- A bank answers the bin controller with an error (13 R221; 22 R407). -/
def State.fencedRow (s : State) (tm : Team) (va : DWord) : State :=
  s.logViolation { cyc := s.cyc, addr := va, target := s.fenceTarget tm va, requester := requester 3 tm.core 0, reqOwner := tm.owner, reason := 1 }

/-- Refill free tile rows from the cask, the oldest first (16 R292). It stops, and waits, at a row whose
page is not translated. A tile row that an image has taken out of the team's banks takes none, and the cask row stays: the bank's error
response is logged (13 R221; 19 R345). DESIGN CHOICE, log entry 37. -/
def State.refillOne (s : State) (tid bn : Nat) : State × Bool :=
  let tm := s.teamOf tid
  match tm.bin bn with
  | none => (s, false)
  | some b =>
    match tm.tile b.tile, b.cask with
    | some t, c :: rest =>
      (match (List.range t.rows).find? (fun r => b.row r == .free) with
       | none => (s, false)
       | some r =>
        if !(tm.holdsRow t r) then (s.fencedRow tm (t.at r 0), false) else
        let core := tm.core
        let va := b.caskAddr + BitVec.ofNat 64 (256 * c.num)
        let move := fun (u : State) (col : Nat → Nat) (bad : Bool) =>
          let u := ((List.range t.cols).foldl (fun u k => u.setElem tm t r k (col k)) u).clearCovered
            ((List.range t.cols).map (fun k => ((localKey tm (t.at r k), t.size) : Nat × Nat)))
          let b2 := { (b.setRow { c with num := r, poison := c.poison || bad }) with cask := rest }
          ((u.modTeam tid (fun x => x.setBin ((Bin.retime b b2 t.rows).checkDue t.rows (u.gridOf tm.grid).record.width))), true)
        (match s.engXlate tm.owner tm core .read va with
         | .ok k => move s (fun j => leNat (Memory.bytes s.mem (k + 4 * j) 4)) (s.badRead k 256)
         | .zero => move s (fun _ => 0) false
         | .dead => move s (fun _ => 0) true
         | x => (s.binAsks tm x va false, false)))
    | _, _ => (s, false)

def State.refillAll (s : State) (tid bn : Nat) : Nat → State
  | 0 => s
  | n + 1 => let (t, ok) := s.refillOne tid bn; if ok then t.refillAll tid bn n else t

/-- A refill still has a cask row to move and a free tile row for it. -/
def State.refillPending (s : State) (tid bn : Nat) : Bool :=
  let tm := s.teamOf tid
  match tm.bin bn with
  | none => false
  | some b => match tm.tile b.tile with
    | none => false
    | some t => b.cask != [] && (match (List.range t.rows).find? (fun r => b.row r == .free) with
      | some r => tm.holdsRow t r
      | none => false)

/-- `FRAMELD` (17 R303). TVAL of the poison is column 0 of the first poisoned row in lane order, and the lanes that consume it stay at the
word, whose second execution is ILLEGAL_OP: DESIGN CHOICE, log entry 37. So do lanes whose row lies in no bank of the team's, which meet the
fence (13 R221; 19 R345). -/
def execFrameld (h : Hdr) (s : State) : Out :=
  let g := s.cur
  let tm := s.curTeam
  .next (
    if g.hlv || g.kind != .bin || g.frameldDone then s.raiseWord .illegalOp
    else match tm.bin g.bin with
      | none => s.raiseWord .illegalOp
      | some b => match tm.tile b.tile with
        | none => s.raiseWord .tileRange
        | some t =>
          let cols := (List.range 64).filter (fun c => b.live.getLsbD c)
          let fen := g.rows.filter (fun r => !(tm.holdsRow t r.2))
          let rows := g.rows.filter (fun r => tm.holdsRow t r.2)
          let off := fun (l : List (Nat × Nat)) => Mask.ofFn (fun i => l.any (·.1 == i)) 64
          let s1 := cols.foldl (fun (u : State) c => u.modCur (fun g =>
            g.setV (off rows) c (fun j => BitVec.ofNat 32 (s.elem tm t ((rows.find? (·.1 == j)).map (·.2) |>.getD 0) c)))) s
          let bad := rows.filter (fun r => (findD (·.num == r.2) ⟨r.2, .free, false, none, 0⟩ b.rows).poison
            || cols.any (fun c => s.poisoned (localKey tm (t.at r.2 c)) 4))
          let s2 := s1.modBin g.team b.num (fun b => { b with
            rows := b.rows.filter (fun r => !(g.rows.any (·.2 == r.num))) })
          let s3 := (s2.modCur (fun g => { g with frameldDone := true })).refillAll g.team b.num 64
          let s4 := s3.goOn (g.iss &&& ~~~(off bad) &&& ~~~(off fen)) 4
          let s5 := if s4.refillPending g.team b.num then
              (s4.modBin g.team b.num (fun b => { b with refill := true })).waitFor g.iss (.refill b.num)
            else s4
          match bad, fen with
          | [], [] => s5
          | [], r :: _ => s5.fencedAt (t.at r.2 0) (off fen)
          | r :: _, _ => s5.unwind .poison (t.at r.2 0) (off bad))

/-- CASK_REFILL: the bin controller goes on with a waiting refill (16 R292). -/
def execCaskRefill (team bin : Nat) (s : State) : Out :=
  let s1 := s.refillAll team bin 64
  .next (
    if (s.ownerOf (s.teamOf team).owner).halt.isSome then s
    else if s1.refillPending team bin then s1 else s1.modBin team bin (fun b => { b with refill := false }))

/-- VLDF_DELIVERY: held data arrives for a row (17 R294). Data for a cask row waits until its page can be written (16 R292); on
a path that is gone it is lost. -/
def execVldfDelivery (team bin row : Nat) (inCask : Bool) (s : State) : Out :=
  let tm := s.teamOf team
  let w := (s.gridOf tm.grid).record.width
  .next (match tm.bin bin with
    | none => s
    | some b =>
      let l := if inCask then b.cask else b.rows
      match l.find? (fun r => r.num == row && r.st == .loading), tm.tile b.tile with
      | some r, some t =>
        let (c, x, bad) := r.pend.getD (64, 0, false)
        let r' : Row := { r with st := .woken, poison := r.poison || bad, pend := none, rid := 0 }
        let s := s.modOwner tm.owner (fun o => { o with hostReqs := o.hostReqs.filter (fun q => r.rid == 0 || q.rid != r.rid) })
        if inCask then
          let va := b.caskAddr + BitVec.ofNat 64 (256 * row + 4 * c)
          let done := fun (u : State) => u.modBin team bin (fun b => { b with cask := b.cask.map (fun q => if q.num = row then r' else q) })
          if 64 ≤ c then done s
          else match s.engXlate tm.owner tm tm.core .write va with
            | .ok k => done ((s.writeKey k (leBytes 4 x.toNat)).markRacking tm.owner k 4)
            | .dead => done s
            | e => s.binAsks tm e va true
        else
          let s1 := if t.cols ≤ c then s else if tm.holdsElem t row c then s.setElem tm t row c x.toNat else s.fencedRow tm (t.at row c)
          s1.editBin team bin w (fun b => b.setRow r')
      | _, _ => s)

/-- FLUSH_TIMER: at 2,048 clk with woken rows a launch is due (17 R295). -/
def execFlushTimer (team bin : Nat) (s : State) : Out :=
  .next (s.modBin team bin (fun b => if 2048 ≤ b.timer && b.rows.any (·.st == .woken) then { b with due := true } else b))

/-! ## Bin launches -/

/-- Lanes of an SP's resident groups (02 R35); handler groups lie outside. -/
def State.lanesOn (s : State) (sp : Nat) : Nat :=
  ((s.allGroups.filter (fun g => g.sp == sp && g.alive && !g.inSlot)).map (·.width)).sum

/-- The lowest slot of an SP that no resident group holds (02 R27). -/
def State.freeSlot (s : State) (sp : Nat) : Nat :=
  ((List.range 65).find? (fun k => !(s.allGroups.any (fun g => g.sp == sp && g.alive && g.slot == k)))).getD 64

/-- A new group of a grid with the values of 02 R15, the grid's argument block from s0 upward (01 R7). -/
def newGroup (gid : Nat) (kind : GroupKind) (gr : Grid) (owner team tnum gnum sp slot : Nat) (entry : DWord) (cyc : DWord) :
    Group :=
  let w := gr.record.width
  { Group.empty with
    gid, kind, owner, grid := gr.gid, team, gnum, sp, slot, width := w
    vregs := gr.record.vregs, sregs := gr.record.sregs, prio := gr.record.prio
    pc := SMap.setMany ([] : SMap 64) 0 (fun _ => true) (fun _ => entry) w
    s := SMap.setMany ([] : SMap 32) 0 (fun _ => true) (fun k => gr.args.getD k 0) gr.args.length
    xb := (SMap.set (SMap.set ([] : SMap 64) 14 (BitVec.ofNat 64 tnum)) 13 (BitVec.ofNat 64 gnum))
    live := Mask.upto w, waitClk := cyc.toNat, placed := gid }

/-- A free group number of the team: no live group of it holds it, be it switched out (17 R295). -/
def State.freeGnum (s : State) (tid : Nat) : Option Nat :=
  (List.range 16).find? (fun n => !(s.contextGroups.any (fun g => g.team == tid && g.gnum == n && g.alive && !g.inSlot)))

def State.freshId (s : State) : Nat × State := (s.nextId, { s with nextId := s.nextId + 1 })

/-- A launch of the bin is due: it became so, or as many rows are WOKEN as the grid is wide (17 R295). -/
def State.binDue (s : State) (tm : Team) (b : Bin) : Bool :=
  b.due || (match tm.tile b.tile with
    | some t => decide ((s.gridOf tm.grid).record.width ≤ (b.wokenRows t.rows).length)
    | none => false)

end Sys2Proof.Machine
end

