-- ==== Sys2Proof/Machine/Crypto.lean ====
section
/-! DEFINITION. The algorithms the spec names by their standards: CRC-32C (15 R274), AES-256-GCM (15 R272),
SHA-512 (22 R397), PRESUMED, log entry 7; and the ciphers of the ports and of the memory slice made from them (22 R378, R380). -/

set_option linter.unusedVariables false

namespace Sys2Proof.Machine

abbrev Byte := BitVec 8

/-! ## CRC-32C (15 R274) -/

def crcBits : Nat → Word → Word
  | 0, r => r
  | n + 1, r => crcBits n ((r >>> 1) ^^^ (if r.getLsbD 0 then 0x82F63B78 else 0))

def crcByte (r : Word) (x : Byte) : Word := crcBits 8 (r ^^^ x.setWidth 32)

/-- The running CRC `c` over more stream bytes. -/
def crc32c (c : Word) (bs : List Byte) : Word := ~~~(bs.foldl crcByte (~~~c))

/-! ## AES-256 -/

/-- Multiplication by x in GF(2^8). -/
def xtime (a : Byte) : Byte := (a <<< 1) ^^^ (if a.getLsbD 7 then 0x1B else 0)

def gmulBits : Nat → Byte → Byte → Byte
  | 0, _, _ => 0
  | n + 1, a, b => (if b.getLsbD 0 then a else 0) ^^^ gmulBits n (xtime a) (b >>> 1)

def gmul (a b : Byte) : Byte := gmulBits 8 a b

/-- The inverse a^254 in GF(2^8), 0 for 0. -/
def ginv (a : Byte) : Byte :=
  let a2 := gmul a a
  let a4 := gmul a2 a2
  let a8 := gmul a4 a4
  let a16 := gmul a8 a8
  let a32 := gmul a16 a16
  let a64 := gmul a32 a32
  let a128 := gmul a64 a64
  gmul a128 (gmul a64 (gmul a32 (gmul a16 (gmul a8 (gmul a4 a2)))))

def sbox (a : Byte) : Byte :=
  let b := ginv a
  b ^^^ b.rotateLeft 1 ^^^ b.rotateLeft 2 ^^^ b.rotateLeft 3 ^^^ b.rotateLeft 4 ^^^ 0x63

/-- The next word of the key schedule: `prev` the word before, `back` the word eight before. -/
def keyWord (i : Nat) (rcon : Byte) (prev back : List Byte) : List Byte :=
  let t :=
    if i % 8 = 0 then
      match (prev.drop 1 ++ prev.take 1).map sbox with
      | b :: bs => (b ^^^ rcon) :: bs
      | [] => []
    else if i % 8 = 4 then prev.map sbox else prev
  List.zipWith (· ^^^ ·) t back

/-- The key schedule, newest word first. -/
def keyWords : Nat → Nat → Byte → List (List Byte) → List (List Byte)
  | 0, _, _, ws => ws
  | n + 1, i, rcon, ws =>
    keyWords n (i + 1) (if i % 8 = 0 then xtime rcon else rcon) (keyWord i rcon (ws.getD 0 []) (ws.getD 7 []) :: ws)

/-- Cut a list into words of four. -/
def quads : Nat → List Byte → List (List Byte)
  | 0, _ => []
  | n + 1, bs => bs.take 4 :: quads n (bs.drop 4)

/-- The 60 words of the expanded 256-bit key, in order. -/
def keySchedule (key : List Byte) : List (List Byte) := (keyWords 52 8 1 (quads 8 key).reverse).reverse

def shiftRows (st : List Byte) : List Byte := (List.range 16).map (fun i => st.getD ((i + 4 * (i % 4)) % 16) 0)

def mixColumn (c : List Byte) : List Byte :=
  (List.range 4).map (fun i =>
    gmul 2 (c.getD i 0) ^^^ gmul 3 (c.getD ((i + 1) % 4) 0) ^^^ c.getD ((i + 2) % 4) 0 ^^^ c.getD ((i + 3) % 4) 0)

def addKey (ks : List (List Byte)) (r : Nat) (st : List Byte) : List Byte :=
  List.zipWith (· ^^^ ·) st (((ks.drop (4 * r)).take 4).flatten)

def aesRounds (ks : List (List Byte)) : Nat → Nat → List Byte → List Byte
  | 0, r, st => addKey ks r (shiftRows (st.map sbox))
  | n + 1, r, st => aesRounds ks n (r + 1) (addKey ks r ((quads 4 (shiftRows (st.map sbox))).flatMap mixColumn))

/-- AES-256 of one block under an expanded key. -/
def aesBlock (ks : List (List Byte)) (blk : List Byte) : List Byte := aesRounds ks 13 1 (addKey ks 0 blk)

/-! ## GCM -/

/-- Big-endian value of bytes and back. -/
def beNat (bs : List Byte) : Nat := bs.foldl (fun acc b => acc * 256 + b.toNat) 0
def beBytes (n x : Nat) : List Byte := (leBytes n x).reverse

/-- Product in GF(2^128) as GCM orders its bits: bit 127 of the number is the first. -/
def ghMulBits (y : BitVec 128) : Nat → BitVec 128 → BitVec 128 → BitVec 128
  | 0, _, z => z
  | n + 1, v, z =>
    ghMulBits y n ((v >>> 1) ^^^ (if v.getLsbD 0 then BitVec.ofNat 128 (0xE1 * 2 ^ 120) else 0))
      (if y.getLsbD n then z ^^^ v else z)

def ghMul (x y : BitVec 128) : BitVec 128 := ghMulBits y 128 x 0

/-- Blocks of 16 bytes, the last one completed with zeros. -/
def blocks16 : Nat → List Byte → List (List Byte)
  | 0, _ => []
  | n + 1, bs => ((bs.take 16) ++ List.replicate (16 - bs.length) 0) :: blocks16 n (bs.drop 16)

def ghash (h : BitVec 128) (blks : List (List Byte)) : BitVec 128 :=
  blks.foldl (fun acc b => ghMul (acc ^^^ BitVec.ofNat 128 (beNat b)) h) 0

/-- AES-256-GCM with a 96-bit IV and no additional data: the stream XORed with the key stream, and the tag
of a ciphertext. -/
def gcmXor (ks : List (List Byte)) (iv : List Byte) (bs : List Byte) : List Byte :=
  let n := (bs.length + 15) / 16
  let stream := (List.range n).flatMap (fun i => aesBlock ks (iv ++ beBytes 4 (i + 2)))
  List.zipWith (· ^^^ ·) bs stream

def gcmTag (ks : List (List Byte)) (iv : List Byte) (ct : List Byte) : List Byte :=
  let h := BitVec.ofNat 128 (beNat (aesBlock ks (List.replicate 16 0)))
  let n := (ct.length + 15) / 16
  let s := ghash h (blocks16 n ct ++ [beBytes 8 0 ++ beBytes 8 (8 * ct.length)])
  List.zipWith (· ^^^ ·) (beBytes 16 s.toNat) (aesBlock ks (iv ++ beBytes 4 1))

/-- Key bytes of a 256-bit key whose first byte is the lowest. -/
def keyBytes (k : BitVec 256) : List Byte := leBytes 32 k.toNat

/-! ## The port cipher (22 R378, R381) -/

/-- The counter block of a flow's packet: flow, epoch, counter, and the block's number. -/
def packetBlock (flow epoch ctr k : Nat) : List Byte := beBytes 4 flow ++ beBytes 3 epoch ++ beBytes 8 ctr ++ beBytes 1 k

/-- A packet of 16 to 256 bytes as it leaves a port, under the world key of its owner; a second time, it gives the packet back. -/
def packetCipher (ks : List (List Byte)) (flow epoch ctr : Nat) (bs : List Byte) : List Byte :=
  List.zipWith (· ^^^ ·) bs ((List.range ((bs.length + 15) / 16)).flatMap (fun k => aesBlock ks (packetBlock flow epoch ctr k)))

/-- A 64-bit tag over additional data and a ciphertext: bits 63:0 of their GHASH XOR a pad. -/
def tag64 (ks : List (List Byte)) (pad : Nat) (ad ct : List Byte) : Nat :=
  let h := BitVec.ofNat 128 (beNat (aesBlock ks (List.replicate 16 0)))
  let part := fun (bs : List Byte) => blocks16 ((bs.length + 15) / 16) bs
  ((ghash h (part ad ++ part ct ++ [beBytes 8 (8 * ad.length) ++ beBytes 8 (8 * ct.length)])).toNat ^^^ pad) % 2 ^ 64

/-- The tag of a packet with a header; a flit of Psiek carries it as its world tag. -/
def packetTag (ks : List (List Byte)) (flow epoch ctr : Nat) (header ct : List Byte) : Nat :=
  tag64 ks (beNat (aesBlock ks (packetBlock flow epoch ctr 0xFF))) header ct

/-! ## The cipher of the memory slice (22 R380) -/

/-- The counter block of a stored line: version, 16 zero bits, bits 51:6 of its address, and the block's number. -/
def lineBlock (version addr k : Nat) : List Byte := beBytes 8 version ++ beBytes 2 0 ++ beBytes 6 (addr / 64 % 2 ^ 46 * 4 + k)

/-- A line of 64 bytes as it is stored. -/
def lineCipher (ks : List (List Byte)) (version addr : Nat) (bs : List Byte) : List Byte :=
  List.zipWith (· ^^^ ·) bs ((List.range 4).flatMap (fun k => aesBlock ks (lineBlock version addr k)))

/-- The tag in a line's sideband. -/
def lineTag (ks : List (List Byte)) (pad version addr : Nat) (ct : List Byte) : Nat :=
  tag64 ks pad (beBytes 8 addr ++ beBytes 8 version) ct

/-! ## SHA-512 -/

/-- The largest r with r^k ≤ x, bit by bit from bit n - 1. -/
def rootBits (k x : Nat) : Nat → Nat → Nat
  | 0, r => r
  | n + 1, r => rootBits k x n (if (r + 2 ^ n) ^ k ≤ x then r + 2 ^ n else r)

def isPrime (n : Nat) : Bool := decide (2 ≤ n) && (List.range n).all (fun d => decide (d < 2) || n % d != 0)

def primes (count : Nat) : List Nat := ((List.range 410).filter isPrime).take count

/-- Fractional bits of the square roots of the first 8 primes, and of the cube roots of the first 80. -/
def shaInit : List DWord := (primes 8).map (fun p => BitVec.ofNat 64 (rootBits 2 (p * 2 ^ 128) 70 0))
def shaK : List DWord := (primes 80).map (fun p => BitVec.ofNat 64 (rootBits 3 (p * 2 ^ 192) 70 0))

/-- The message schedule, newest word first. -/
def shaSched : Nat → List DWord → List DWord
  | 0, ws => ws
  | n + 1, ws =>
    let a := ws.getD 1 0
    let b := ws.getD 14 0
    let s1 := a.rotateRight 19 ^^^ a.rotateRight 61 ^^^ (a >>> 6)
    let s0 := b.rotateRight 1 ^^^ b.rotateRight 8 ^^^ (b >>> 7)
    shaSched n ((s1 + ws.getD 6 0 + s0 + ws.getD 15 0) :: ws)

def shaRound (h : List DWord) (kw : DWord) : List DWord :=
  match h with
  | [a, b, c, d, e, f, g, hh] =>
    let s1 := e.rotateRight 14 ^^^ e.rotateRight 18 ^^^ e.rotateRight 41
    let ch := (e &&& f) ^^^ (~~~e &&& g)
    let t1 := hh + s1 + ch + kw
    let s0 := a.rotateRight 28 ^^^ a.rotateRight 34 ^^^ a.rotateRight 39
    let maj := (a &&& b) ^^^ (a &&& c) ^^^ (b &&& c)
    [t1 + s0 + maj, a, b, c, d + t1, e, f, g]
  | _ => h

/-- Big-endian 64-bit words of a block. -/
def words8 : Nat → List Byte → List DWord
  | 0, _ => []
  | n + 1, bs => BitVec.ofNat 64 (beNat (bs.take 8)) :: words8 n (bs.drop 8)

def shaBlock (h : List DWord) (blk : List Byte) : List DWord :=
  let w := (shaSched 64 (words8 16 blk).reverse).reverse
  List.zipWith (· + ·) h ((List.zipWith (· + ·) w shaK).foldl shaRound h)

def shaBlocks : Nat → List DWord → List Byte → List DWord
  | 0, h, _ => h
  | n + 1, h, bs => shaBlocks n (shaBlock h (bs.take 128)) (bs.drop 128)

/-- SHA-512 of a message of bytes: 64 bytes. -/
def sha512 (m : List Byte) : List Byte :=
  let pad := (239 - m.length % 128) % 128
  let bs := m ++ [0x80] ++ List.replicate pad 0 ++ beBytes 16 (8 * m.length)
  (shaBlocks (bs.length / 128) shaInit bs).flatMap (fun w => beBytes 8 w.toNat)

/-- HMAC-SHA-512 under a key of at most 128 bytes (22 R384). -/
def hmac512 (key m : List Byte) : List Byte :=
  let k := key ++ List.replicate (128 - key.length) 0
  sha512 (k.map (· ^^^ 0x5C) ++ sha512 (k.map (· ^^^ 0x36) ++ m))

/-- A 512-bit value as the number its 64 bytes give, the first byte lowest. -/
def sha512Num (m : List Byte) : BitVec 512 := BitVec.ofNat 512 (leNat (sha512 m))

end Sys2Proof.Machine
end

