-- ==== Sys2Proof/Machine/Flags.lean ====
section
/-! DEFINITION. The exception flags of FSTAT and their sticky rule (08 R139, R140). -/

set_option linter.unusedVariables false

namespace Sys2Proof.Machine

/-- Flags in the layout of FSTAT. -/
abbrev Flags := Word

def fNX : Flags := 1
def fUF : Flags := 2
def fOF : Flags := 4
def fDZ : Flags := 8
def fNV : Flags := 16
def fNC : Flags := 32

/-- The flag `f` when `b` holds. -/
def fIf (b : Bool) (f : Flags) : Flags := if b then f else 0

/-- The OR of the flags of the lanes of `m`, once per issue (R140). -/
def flagsOf (m : Mask) (f : Nat → Flags) : Flags := m.lanes.foldl (fun acc i => acc ||| f i) 0

/-- Flags are sticky: an instruction only sets them (R140). -/
def Group.addFlags (g : Group) (f : Flags) : Group := { g with fstat := g.fstat ||| f }

end Sys2Proof.Machine
end

