-- ==== Sys2Proof/Machine/Float.lean ====
section
/-! DEFINITION. Floating-point arithmetic: the formats and their codes (08 R136-R143), the conversion rule
(R144), the exact operations with one rounding (09 R156-R162, R172, R173), the B4 block and its quantiser
(08 R146-R149). A finite value is sign, natural significand and integer exponent, so every operation is
exact until its one rounding. -/

set_option linter.unusedVariables false

namespace Sys2Proof.Machine

/-- The binary float kinds of R136. -/
inductive FK where
  | f32 | f16 | bf16 | e4m3 | e5m2 | e3m2 | e2m3
  deriving DecidableEq, Repr

def FK.mb : FK → Nat
  | .f32 => 23 | .f16 => 10 | .bf16 => 7 | .e4m3 => 3 | .e5m2 => 2 | .e3m2 => 2 | .e2m3 => 3
def FK.eb : FK → Nat
  | .f32 => 8 | .f16 => 5 | .bf16 => 8 | .e4m3 => 4 | .e5m2 => 5 | .e3m2 => 3 | .e2m3 => 2
def FK.bias : FK → Nat
  | .f32 => 127 | .f16 => 15 | .bf16 => 127 | .e4m3 => 7 | .e5m2 => 15 | .e3m2 => 3 | .e2m3 => 1
def FK.width (k : FK) : Nat := 1 + k.eb + k.mb
/-- The kind has infinities, and NaN codes with a payload. -/
def FK.ieee : FK → Bool
  | .f32 | .f16 | .bf16 | .e5m2 => true
  | _ => false
/-- The code of the largest finite value. -/
def FK.maxCode : FK → Nat
  | .f32 => 0x7F7FFFFF | .f16 => 0x7BFF | .bf16 => 0x7F7F | .e4m3 => 0x7E | .e5m2 => 0x7B | .e3m2 => 0x1F | .e2m3 => 0x1F
/-- The code of infinity, for the kinds that have it. -/
def FK.infCode (k : FK) : Nat := (2 ^ k.eb - 1) * 2 ^ k.mb
/-- Exponent of the unit of the subnormals. -/
def FK.qmin (k : FK) : Int := 1 - (k.bias : Int) - k.mb

def signBit (k : FK) (s : Bool) : Nat := if s then 2 ^ (k.eb + k.mb) else 0

/-- A float value: a NaN with its sign and its M field left-aligned to 23 bits, an infinity, or
(-1)^s × m × 2^e. -/
inductive FVal where
  | nan (sig s : Bool) (pay : Nat)
  | inf (s : Bool)
  | fin (s : Bool) (m : Nat) (e : Int)
  deriving DecidableEq, Repr

def FVal.isNan : FVal → Bool
  | .nan _ _ _ => true
  | _ => false
def FVal.isSig : FVal → Bool
  | .nan sig _ _ => sig
  | _ => false
def FVal.sign : FVal → Bool
  | .nan _ s _ => s
  | .inf s => s
  | .fin s _ _ => s
def FVal.isInf : FVal → Bool
  | .inf _ => true
  | _ => false
def FVal.isZero : FVal → Bool
  | .fin _ m _ => m == 0
  | _ => false
/-- The canonical NaN (R138). -/
def FVal.canon : FVal := .nan false false 0
def FVal.quiet : FVal → FVal
  | .nan _ s p => .nan false s p
  | x => x
def FVal.neg : FVal → FVal
  | .nan g s p => .nan g s p
  | .inf s => .inf (!s)
  | .fin s m e => .fin (!s) m e
def FVal.abs : FVal → FVal
  | .nan g s p => .nan g s p
  | .inf _ => .inf false
  | .fin _ m e => .fin false m e

/-- The value of a code of a kind; higher bits are ignored (R136, R137, R141-R143). -/
def decodeF (k : FK) (x : Nat) : FVal :=
  let s := x.testBit (k.eb + k.mb)
  let e := x / 2 ^ k.mb % 2 ^ k.eb
  let m := x % 2 ^ k.mb
  if k.ieee && e == 2 ^ k.eb - 1 then
    (if m = 0 then .inf s else .nan (!(m.testBit (k.mb - 1))) s (m * 2 ^ (23 - k.mb)))
  else if k == .e4m3 && x % 128 == 127 then .nan false s 0
  else if e = 0 then .fin s m k.qmin
  else .fin s (m + 2 ^ k.mb) (k.qmin + e - 1)

/-- The code of a NaN in a kind that has one (R138, R141, R142). -/
def nanCode (k : FK) (s : Bool) (pay : Nat) : Nat :=
  match k with
  | .e4m3 => signBit k s + 0x7F
  | .e5m2 => signBit k s + 0x7E
  | _ =>
    let p := pay / 2 ^ (23 - k.mb)
    signBit k s + k.infCode + (p % 2 ^ (k.mb - 1)) + 2 ^ (k.mb - 1)

/-! ## Rounding (R139, R144) -/

/-- Round up the magnitude: `q` the kept part, `rem` of `2^sh` the rest. -/
def roundUp (rm : Rnd) (s : Bool) (q rem half : Nat) : Bool :=
  match rm with
  | .rne => decide (half < rem) || (rem == half && q % 2 == 1)
  | .rtz => false
  | .rdn => s && rem != 0
  | .rup => !s && rem != 0

/-- m × 2^e rounded to a multiple of 2^q: the count, and whether it is exact. Below a quarter of the unit
no power is formed. -/
def roundQ (rm : Rnd) (s : Bool) (m : Nat) (e q : Int) : Nat × Bool :=
  if q ≤ e then (m * 2 ^ (e - q).toNat, true)
  else
    let sh := (q - e).toNat
    if m.log2 + 2 < sh then (if roundUp rm s 0 (if m = 0 then 0 else 1) 2 then 1 else 0, m == 0)
    else
      let k := m / 2 ^ sh
      let rem := m % 2 ^ sh
      (if roundUp rm s k rem (2 ^ (sh - 1)) then k + 1 else k, rem == 0)

/-- Tininess after rounding as an operation of arithmetic detects it: rounded to the precision with an unbounded exponent, the value
lies below the smallest normal number (R140, R156). DEDUCED, log entry 39. -/
def tiny (k : FK) (rm : Rnd) (s : Bool) (m : Nat) (e : Int) : Bool :=
  let top := e + m.log2
  let emin : Int := 1 - (k.bias : Int)
  if emin ≤ top then false
  else if top < emin - 1 then true
  else decide ((roundQ rm s m e (top - k.mb)).1 < 2 ^ (k.mb + 1))

/-- The overflow result (R144). -/
def overflowCode (k : FK) (rm : Rnd) (sat s : Bool) : Nat :=
  if k == .e4m3 && !sat then signBit k s + 0x7F
  else if sat || !k.ieee then signBit k s + k.maxCode
  else
    let inf := match rm with
      | .rne => true
      | .rtz => false
      | .rdn => s
      | .rup => !s
    signBit k s + (if inf then k.infCode else k.maxCode)

/-- A finite value delivered to a kind (R144, from `r := x rounded by rm`). `conv`: by a conversion, whose UF looks at r itself. -/
def deliverFin (conv : Bool) (k : FK) (rm : Rnd) (sat s : Bool) (m : Nat) (e : Int) : Nat × Flags :=
  if m = 0 then (signBit k s, 0)
  else
    let q := max k.qmin (e + m.log2 - k.mb)
    let (r, exact) := roundQ rm s m e q
    -- a carry out of the significand moves into the exponent field by itself
    let code : Int := (q - k.qmin) * 2 ^ k.mb + r
    if (k.maxCode : Int) < code then (overflowCode k rm sat s, fOF ||| fNX)
    else
      (signBit k s + code.toNat, fIf (!exact) fNX |||
        fIf (!exact && (if conv then decide (code < 2 ^ k.mb) else tiny k rm s m e)) fUF)

/-- A value delivered to a kind: cvt of R144, or the one rounding of arithmetic (R156). -/
def deliverTo (conv : Bool) (x : FVal) (k : FK) (rm : Rnd) (sat nanSat : Bool) : Nat × Flags :=
  match x with
  | .nan sig s p =>
      if (k.ieee || k == .e4m3) && !nanSat then (nanCode k s p, fIf sig fNV)
      else (signBit k s + k.maxCode, fIf sig fNV ||| fNC)
  | .inf s =>
      if k.ieee && !sat then (signBit k s + k.infCode, 0)
      else if k == .e4m3 && !sat then (signBit k s + 0x7F, fNV)
      else (signBit k s + k.maxCode, fNX)
  | .fin s m e => deliverFin conv k rm sat s m e

/-- cvt of R144. -/
def cvt (x : FVal) (k : FK) (rm : Rnd) (sat nanSat : Bool) : Nat × Flags := deliverTo true x k rm sat nanSat

/-- Deliver a result of arithmetic: one rounding to the kind (R156). -/
def deliverF (k : FK) (rm : Rnd) (x : FVal × Flags) : Nat × Flags :=
  let (c, f) := deliverTo false x.1 k rm false false
  (c, x.2 ||| f)

/-! ## Exact operations (R156, R159) -/

/-- The first NaN operand, quieted, and NV when one signals (R138). -/
def firstNan (l : List FVal) : Option (FVal × Flags) :=
  match l.find? FVal.isNan with
  | some x => some (x.quiet, fIf (l.any FVal.isSig) fNV)
  | none => none

/-- Sum of two finite values with the zero rule of R156. -/
def addFin (rm : Rnd) (s1 : Bool) (m1 : Nat) (e1 : Int) (s2 : Bool) (m2 : Nat) (e2 : Int) : FVal :=
  let e := min e1 e2
  let x : Int := (if s1 then -1 else 1) * (m1 * 2 ^ (e1 - e).toNat : Nat)
  let y : Int := (if s2 then -1 else 1) * (m2 * 2 ^ (e2 - e).toNat : Nat)
  let z := x + y
  if z = 0 then
    (if m1 == 0 && m2 == 0 && s1 == s2 then .fin s1 0 0 else .fin (rm == .rdn) 0 0)
  else .fin (decide (z < 0)) z.natAbs e

def addX (rm : Rnd) (x y : FVal) : FVal × Flags :=
  match firstNan [x, y] with
  | some r => r
  | none =>
    match x, y with
    | .inf s, .inf t => if s = t then (.inf s, 0) else (.canon, fNV)
    | .inf s, _ => (.inf s, 0)
    | _, .inf t => (.inf t, 0)
    | .fin s m e, .fin t n f => (addFin rm s m e t n f, 0)
    | _, _ => (.canon, 0)

/-- Exact product of values that are no NaN. -/
def mulNN (x y : FVal) : FVal × Flags :=
  let s := x.sign != y.sign
  match x, y with
  | .fin _ m e, .fin _ n f => (.fin s (m * n) (e + f), 0)
  | _, _ => if x.isZero || y.isZero then (.canon, fNV) else (.inf s, 0)

def mulX (x y : FVal) : FVal × Flags :=
  match firstNan [x, y] with
  | some r => r
  | none => mulNN x y

/-- a × b + d, one rounding later: a NaN among a, b first; ∞ × 0 is invalid whatever d is (R159). -/
def fmaX (rm : Rnd) (a b d : FVal) : FVal × Flags :=
  let bad := !a.isNan && !b.isNan && (mulNN a b).2 == fNV
  match firstNan [a, b, d] with
  | some (r, f) => (r, f ||| fIf bad fNV)
  | none =>
    let (p, f) := mulNN a b
    if bad then (.canon, fNV) else addX rm p d

/-- Order of two values that are no NaN: -1, 0 or 1; −0 equals +0. -/
def cmpF (x y : FVal) : Int :=
  let key : FVal → FVal → Int → Int → Int := fun x y a b => if a < b then -1 else if b < a then 1 else 0
  match x, y with
  | .inf s, .inf t => key x y (if s then 0 else 1) (if t then 0 else 1)
  | .inf s, _ => if s then -1 else 1
  | _, .inf t => if t then 1 else -1
  | .fin s m e, .fin t n f =>
      let q := min e f
      key x y ((if s then -1 else 1) * (m * 2 ^ (e - q).toNat : Nat)) ((if t then -1 else 1) * (n * 2 ^ (f - q).toNat : Nat))
  | _, _ => 0

/-- x is the smaller for `VFMIN`: −0 is below +0 (R160). -/
def leF (x y : FVal) : Bool :=
  let c := cmpF x y
  decide (c < 0) || (c == 0 && (x.sign || !y.sign))

def minX (x y : FVal) : FVal × Flags :=
  let f := fIf (x.isSig || y.isSig) fNV
  if x.isNan then (if y.isNan then .canon else y, f)
  else if y.isNan then (x, f)
  else (if leF x y then x else y, f)

def maxX (x y : FVal) : FVal × Flags :=
  let f := fIf (x.isSig || y.isSig) fNV
  if x.isNan then (if y.isNan then .canon else y, f)
  else if y.isNan then (x, f)
  else (if leF x y then y else x, f)

/-- Rounded to an integral value; no NX (R161). -/
def rintX (rm : Rnd) (x : FVal) : FVal × Flags :=
  match x with
  | .nan sig s p => (.nan false s p, fIf sig fNV)
  | .inf s => (.inf s, 0)
  | .fin s m e => (.fin s (roundQ rm s m e 0).1 0, 0)

/-- a × 2^n for a signed 32-bit n (R162). -/
def scaleX (x : FVal) (n : Int) : FVal × Flags :=
  match x with
  | .nan sig s p => (.nan false s p, fIf sig fNV)
  | .fin s m e => (.fin s m (e + n), 0)
  | y => (y, 0)

/-- The class of a code (R161). -/
def classOf (k : FK) (x : Nat) : Nat :=
  match decodeF k x with
  | .nan sig _ _ => if sig then 8 else 9
  | .inf s => if s then 0 else 7
  | .fin s m _ =>
      if m = 0 then (if s then 3 else 4)
      else if m < 2 ^ k.mb then (if s then 2 else 5)
      else (if s then 1 else 6)

/-! ## Special functions (R172, R173)

A result that is not a dyadic number is given by a value just above its truncation, at least eight bits
below the last bit of FP32: it rounds in every mode as the exact value does. -/

/-- The truncation `m × 2^e` of an inexact positive value: a number strictly between it and the next. -/
def above (s : Bool) (m : Nat) (e : Int) (exact : Bool) : FVal :=
  if exact then .fin s m e else .fin s (4 * m + 1) (e - 2)

/-- Square root of a natural number, `n` result bits. -/
def isqrtBits (x : Nat) : Nat → Nat → Nat
  | 0, r => r
  | n + 1, r => isqrtBits x n (if (r + 2 ^ n) * (r + 2 ^ n) ≤ x then r + 2 ^ n else r)

def isqrt (x : Nat) : Nat := isqrtBits x (x.log2 / 2 + 1) 0

def divFin (s : Bool) (m : Nat) (e : Int) (n : Nat) (f : Int) : FVal :=
  let k := n.log2 + 40
  let q := m * 2 ^ k / n
  above s q (e - f - k) (q * n == m * 2 ^ k)

def divX (x y : FVal) : FVal × Flags :=
  match firstNan [x, y] with
  | some r => r
  | none =>
    let s := x.sign != y.sign
    match x, y with
    | .inf _, .inf _ => (.canon, fNV)
    | .inf _, _ => (.inf s, 0)
    | _, .inf _ => (.fin s 0 0, 0)
    | .fin _ m e, .fin _ n f =>
        if n = 0 then (if m = 0 then (.canon, fNV) else (.inf s, fDZ))
        else if m = 0 then (.fin s 0 0, 0)
        else (divFin s m e n f, 0)
    | _, _ => (.canon, 0)

def rcpX (x : FVal) : FVal × Flags := divX (.fin false 1 0) x

/-- An even exponent: m × 2^e = m' × 2^(2h). -/
def evenExp (m : Nat) (e : Int) : Nat × Int := if e % 2 = 0 then (m, e / 2) else (2 * m, (e - 1) / 2)

def sqrtX (x : FVal) : FVal × Flags :=
  match x with
  | .nan sig s p => (.nan false s p, fIf sig fNV)
  | .inf s => if s then (.canon, fNV) else (.inf false, 0)
  | .fin s m e =>
      if m = 0 then (.fin s 0 0, 0)
      else if s then (.canon, fNV)
      else
        let (n, h) := evenExp m e
        let r := isqrt (n * 4 ^ 40)
        (above false r (h - 40) (r * r == n * 4 ^ 40), 0)

def rsqX (x : FVal) : FVal × Flags :=
  match x with
  | .nan sig s p => (.nan false s p, fIf sig fNV)
  | .inf s => if s then (.canon, fNV) else (.fin false 0 0, 0)
  | .fin s m e =>
      if m = 0 then (.inf s, fDZ)
      else if s then (.canon, fNV)
      else
        let (n, h) := evenExp m e
        let r := isqrt (4 ^ 72 / n)
        (above false r (-h - 72) (r * r * n == 4 ^ 72), 0)

/-- Fractional bits of the fixed-point numbers below. -/
def fixBits : Nat := 320

/-- ln 2 = 2 atanh(1/3), in fixed point: the sum over odd powers of 1/3, `n` terms from the k-th. -/
def ln2Sum : Nat → Nat → Nat → Nat
  | 0, _, _ => 0
  | n + 1, k, t => t / (2 * k + 1) + ln2Sum n (k + 1) (t / 9)

def ln2Fix : Nat := ln2Sum 110 0 (2 * 2 ^ fixBits / 3)

/-- exp of a fixed-point x below 1: `n` terms of the series from the k-th term `t`. -/
def expSum (x : Nat) : Nat → Nat → Nat → Nat
  | 0, _, _ => 0
  | n + 1, k, t => t + expSum x n (k + 1) (t * x / 2 ^ fixBits / (k + 1))

def expFix (x : Nat) : Nat := expSum x 70 0 (2 ^ fixBits)

/-- 2^a (R172): exact for integers, else 2^n × 2^f with 0 < f < 1. -/
def exp2X (x : FVal) : FVal × Flags :=
  match x with
  | .nan sig s p => (.nan false s p, fIf sig fNV)
  | .inf s => if s then (.fin false 0 0, 0) else (.inf false, 0)
  | .fin s m e =>
      if 0 ≤ e then
        let n : Int := (m * 2 ^ e.toNat : Nat)
        (.fin false 1 (if s then -n else n), 0)
      else
        let sh := (-e).toNat
        if m % 2 ^ sh = 0 then
          let n : Int := (m / 2 ^ sh : Nat)
          (.fin false 1 (if s then -n else n), 0)
        else
          let n : Int := if s then -((m / 2 ^ sh : Nat) : Int) - 1 else (m / 2 ^ sh : Nat)
          let r := m % 2 ^ sh
          let f := if s then 2 ^ sh - r else r
          (above false (expFix (f * ln2Fix / 2 ^ sh)) (n - fixBits) false, 0)

/-- `n` binary digits of log2 of a fixed-point x with 1 ≤ x < 2. -/
def log2Bits : Nat → Nat → Nat → Nat
  | 0, _, acc => acc
  | n + 1, x, acc =>
    let y := x * x / 2 ^ fixBits
    if 2 * 2 ^ fixBits ≤ y then log2Bits n (y / 2) (2 * acc + 1) else log2Bits n y (2 * acc)

/-- log2 a (R172): exact for powers of two. -/
def log2X (x : FVal) : FVal × Flags :=
  match x with
  | .nan sig s p => (.nan false s p, fIf sig fNV)
  | .inf s => if s then (.canon, fNV) else (.inf false, 0)
  | .fin s m e =>
      if m = 0 then (.inf true, fDZ)
      else if s then (.canon, fNV)
      else
        let l := m.log2
        let n := e + l
        if m = 2 ^ l then (.fin (decide (n < 0)) n.natAbs 0, 0)
        else
          let frac := log2Bits 128 (m * 2 ^ fixBits / 2 ^ l) 0
          -- the value lies strictly between v and v + 1, in units of 2^-128
          let v : Int := n * 2 ^ 128 + frac
          if 0 ≤ v then (above false v.toNat (-128) false, 0)
          else (above true (-v - 1).toNat (-128) false, 0)

/-- tanh a (R172): just below |a| for small a, just below 1 for large a, else (E − 1) / (E + 1) with
E = exp(2|a|). -/
def tanhX (x : FVal) : FVal × Flags :=
  match x with
  | .nan sig s p => (.nan false s p, fIf sig fNV)
  | .inf s => (.fin s 1 0, 0)
  | .fin s m e =>
      if m = 0 then (.fin s 0 0, 0)
      else
        let top := e + m.log2
        if top < -40 then (.fin s (m * 2 ^ 64 - 1) (e - 64), 0)
        else if 6 ≤ top then (.fin s (2 ^ 64 - 1) (-64), 0)
        else
          let x2 := if 0 ≤ e then 2 * m * 2 ^ e.toNat * 2 ^ fixBits else 2 * m * 2 ^ fixBits / 2 ^ (-e).toNat
          let n := x2 / ln2Fix
          let ex := expFix (x2 % ln2Fix) * 2 ^ n
          (above s ((ex - 2 ^ fixBits) * 2 ^ 200 / (ex + 2 ^ fixBits)) (-200) false, 0)

/-! ## FP32 words and the packed forms -/

def f32 (x : Word) : FVal := decodeF .f32 x.toNat

/-- A result delivered as an FP32 word. -/
def toF32 (rm : Rnd) (x : FVal × Flags) : Word × Flags :=
  let (c, f) := deliverF .f32 rm x
  (BitVec.ofNat 32 c, f)

def f32Add (rm : Rnd) (a b : Word) : Word × Flags := toF32 rm (addX rm (f32 a) (f32 b))
def f32Sub (rm : Rnd) (a b : Word) : Word × Flags := toF32 rm (addX rm (f32 a) (f32 b).neg)
def f32Mul (rm : Rnd) (a b : Word) : Word × Flags := toF32 rm (mulX (f32 a) (f32 b))
def f32Max (a b : Word) : Word × Flags := toF32 .rne (maxX (f32 a) (f32 b))
def f32Min (a b : Word) : Word × Flags := toF32 .rne (minX (f32 a) (f32 b))

/-- The rounding mode of FRM (R139). -/
def rndOf (n : Nat) : Rnd :=
  match n % 4 with
  | 0 => .rne
  | 1 => .rtz
  | 2 => .rdn
  | _ => .rup

def Group.rm (g : Group) : Rnd := rndOf g.frm.toNat

def FmtK.fk : FmtK → FK
  | .f32 => .f32 | .f16x2 => .f16 | .bf16x2 => .bf16

/-- Apply an element operation to one or two elements of a register; flags are ORed (R156). -/
def elems (k : FmtK) (f : FK → Nat → Nat → Nat → Nat × Flags) (a b d : Word) : Word × Flags :=
  match k with
  | .f32 => let (c, g) := f .f32 a.toNat b.toNat d.toNat; (BitVec.ofNat 32 c, g)
  | _ =>
    let lo := f (FmtK.fk k) (a.toNat % 65536) (b.toNat % 65536) (d.toNat % 65536)
    let hi := f (FmtK.fk k) (a.toNat / 65536) (b.toNat / 65536) (d.toNat / 65536)
    (BitVec.ofNat 32 (lo.1 + 65536 * hi.1), lo.2 ||| hi.2)

/-! ## The B4 block (R146-R149) -/

/-- Magnitudes of the codes 0-7, in eighths (R147). -/
def b4Mags : Nat → List Nat
  | 0 => [0, 8, 16, 24, 32, 40, 48, 56]
  | 1 => [0, 4, 8, 12, 16, 24, 32, 48]
  | 2 => [0, 1, 2, 4, 8, 16, 32, 64]
  | _ => [0, 8, 16, 24, 32, 48, 64, 96]

/-- The value of a code of type `t`, times 2^(x − 31) (R147, R148). -/
def b4Value (t c : Nat) (x : Nat) : FVal :=
  let e : Int := (x : Int) - 34
  if t = 0 then
    (if c < 8 then .fin false (8 * c) e else .fin true (8 * (16 - c)) e)
  else .fin (decide (8 ≤ c)) ((b4Mags t).getD (c % 8) 0) e

/-- An element of a block with scale byte `sb` (R146-R148). -/
def b4Elem (sb c : Nat) : FVal := if sb % 64 = 63 then .canon else b4Value (sb / 64) c (sb % 64)

/-- The index of the magnitude nearest y, both in the same unit; a tie goes to the even index, and a value
above the list takes its last. -/
def nearestMag (mags : List Nat) (y : Nat) : Nat :=
  ((List.range mags.length).foldl (fun (best : Nat × Nat) i =>
    let m := mags.getD i 0
    let d := if m ≤ y then y - m else m - y
    if i = 0 then (0, d)
    else if d < best.2 || (d == best.2 && i % 2 == 0) then (i, d) else best) (0, 0)).1

/-- One element for the quantiser: sign, magnitude in units of 2^-149, infinite. -/
structure QElem where
  s : Bool
  n : Nat
  inf : Bool
  deriving DecidableEq, Repr

def qElem (x : Word) : QElem :=
  match f32 x with
  | .nan _ s _ => ⟨s, 0, true⟩
  | .inf s => ⟨s, 0, true⟩
  | .fin s m e => ⟨s, m * 2 ^ (e + 149).toNat, false⟩

/-- The smallest X in 0-62 with amax ≤ Mt × 2^(X − 31), from `x` on; 62 if there is none (R149). -/
def scaleFor (mt8 amax : Nat) : Nat → Nat → Nat
  | 0, x => x
  | n + 1, x => if amax ≤ mt8 * 2 ^ (x + 115) then x else scaleFor mt8 amax n (x + 1)

/-- One candidate type: X, the codes, the error in units of 2^-149 (none: infinite), and OF. -/
def quantType (e : List QElem) (t : Nat) : Nat × List Nat × Option Nat × Bool :=
  let mt8 := (b4Mags t).getD 7 0
  let anyInf := e.any (·.inf)
  let amax := (e.map (·.n)).foldl max 0
  let x := if anyInf then 62 else if amax = 0 then 0 else scaleFor mt8 amax 62 0
  let u := 2 ^ (x + 115)
  let mags := (b4Mags t).map (· * u)
  let idx := fun (q : QElem) => if q.inf then 7 else nearestMag mags q.n
  let code := fun (q : QElem) =>
    let i := idx q
    if i = 0 then 0 else if q.s then (if t = 0 then 16 - i else 8 + i) else i
  let dist := fun (q : QElem) =>
    let m := mags.getD (idx q) 0
    if m ≤ q.n then q.n - m else m - q.n
  (x, e.map code, if anyInf then none else some (e.map dist).sum,
    anyInf || e.any (fun q => decide (mt8 * 2 ^ (62 + 115) < q.n)))

def errLess : Option Nat → Option Nat → Bool
  | some a, some b => decide (a < b)
  | some _, none => true
  | none, _ => false

/-- The quantiser of R149: the scale byte, the 32 codes and the flags. `type` 0-3, or 4 for AUTO. -/
def quantise (e : List Word) (type : Nat) (nanSat : Bool) : Nat × List Nat × Flags :=
  let v := e.map f32
  let hasNan := v.any FVal.isNan
  if hasNan && !nanSat then
    ((if type < 4 then type else 0) * 64 + 63, e.map (fun _ => 0), fIf (v.any FVal.isSig) fNV)
  else
    let q := e.map qElem
    let pick := fun (best : Nat × (Nat × List Nat × Option Nat × Bool)) (t : Nat) =>
      let c := quantType q t
      if errLess c.2.2.1 best.2.2.2.1 then (t, c) else best
    let first := if type < 4 then type else 0
    let best := (if type < 4 then [] else [1, 2, 3]).foldl pick (first, quantType q first)
    (best.1 * 64 + best.2.1, best.2.2.1,
      fIf hasNan fNC ||| fIf best.2.2.2.2 fOF ||| fIf (best.2.2.2.1 != some 0) fNX)

/-! ## Format slots (R150-R152) -/

/-- Kinds of a format slot. -/
inductive SlotKind where
  | flt (k : FK)
  | b4
  deriving DecidableEq, Repr

structure Slot where
  kind : SlotKind
  type : Nat
  rnd : Rnd
  sat : Bool
  nanSat : Bool
  deriving DecidableEq, Repr

/-- The kind of a 4-bit kind code; codes from 8 up never pass the launch check (R151). -/
def slotKind : Nat → SlotKind
  | 0 => .flt .f32 | 1 => .flt .f16 | 2 => .flt .bf16 | 3 => .flt .e4m3 | 4 => .flt .e5m2 | 5 => .flt .e3m2
  | 6 => .flt .e2m3 | _ => .b4

/-- A format-slot word (R151). -/
def decodeSlot (w : Nat) : Slot :=
  { kind := slotKind (bitsOf w 15 12), type := bitsOf w 11 9, rnd := rndOf (bitsOf w 8 7)
    sat := w.testBit 6, nanSat := w.testBit 5 }

/-- A slot word without a reserved value, and with 0 where a field does not apply (R150, R151). -/
def slotWordOk (w : Nat) : Bool :=
  let k := bitsOf w 15 12
  let ty := bitsOf w 11 9
  bitsOf w 4 0 == 0 && decide (k ≤ 7) &&
    (if k = 7 then decide (ty ≤ 4) else ty == 0) &&
    (if k = 0 ∨ k = 7 then bitsOf w 8 7 == 0 else true) &&
    (if k = 0 ∨ k = 5 ∨ k = 6 ∨ k = 7 then bitsOf w 6 6 == 0 else true) &&
    (if k = 0 ∨ k = 5 ∨ k = 6 then bitsOf w 5 5 == 0 else true)

/-- Format slot `n` of the grid; an undeclared slot is F32. -/
def Grid.slot (g : Grid) (n : Nat) : Slot := decodeSlot (g.record.formats.getD n 0)

/-- cvt to a slot's float kind: E3M2 and E2M3 always saturate, with R144's NaN rule; F32 copies (R150, R152). -/
def slotCvt (sl : Slot) (k : FK) (x : Word) : Nat × Flags :=
  if k = .f32 then (x.toNat, 0) else cvt (f32 x) k sl.rnd sl.sat sl.nanSat

end Sys2Proof.Machine
end

