-- ==== Sys2Proof/Machine/IntLane.lean ====
section
/-! DEFINITION. The lane integer, logic, compare and predicate instructions (05 R74-R88, R105-R109). The
F32 compare is in Machine/FloatLane.lean's arithmetic; here it is taken as a function. -/

set_option linter.unusedVariables false

namespace Sys2Proof.Machine

/-! ## Arithmetic on one word -/

/-- `sat_s` and `sat_u` (05 R78). -/
def satS (x : Int) : Word := if x < -2147483648 then 0x80000000 else if 2147483647 < x then 0x7FFFFFFF else BitVec.ofInt 32 x
def satU (x : Int) : Word := if x < 0 then 0 else if 4294967295 < x then 0xFFFFFFFF else BitVec.ofInt 32 x

/-- Apply a function to both 16-bit halves; nothing passes between them (05 R79). -/
def halves (f : BitVec 16 → BitVec 16 → BitVec 16) (a b : Word) : Word :=
  (f (a.extractLsb' 16 16) (b.extractLsb' 16 16)) ++ (f (a.extractLsb' 0 16) (b.extractLsb' 0 16))

/-- `VADD` (05 R79). -/
def addK : AddK → Word → Word → Word
  | .i32, a, b => a + b
  | .si32, a, b => satS (a.toInt + b.toInt)
  | .su32, a, b => satU ((a.toNat : Int) + b.toNat)
  | .i16x2, a, b => halves (· + ·) a b

/-- `VSUB` (05 R79). -/
def subK : AddK → Word → Word → Word
  | .i32, a, b => a - b
  | .si32, a, b => satS (a.toInt - b.toInt)
  | .su32, a, b => satU ((a.toNat : Int) - b.toNat)
  | .i16x2, a, b => halves (· - ·) a b

/-- `VMUL` (05 R80). -/
def mulK : MulK → Word → Word → Word
  | .lo, a, b => a * b
  | .hiI32, a, b => BitVec.ofInt 32 (a.toInt * b.toInt / 4294967296)
  | .hiU32, a, b => BitVec.ofNat 32 (a.toNat * b.toNat / 4294967296)
  | .i16x2, a, b => halves (· * ·) a b

/-- Shifts by an amount modulo 32 (05 R83). -/
def shl32 (a : Word) (n : Nat) : Word := a <<< (n % 32)
def shr32 : ShrK → Word → Nat → Word
  | .l, a, n => a >>> (n % 32)
  | .a, a, n => a.sshiftRight (n % 32)

/-- `VSHI` (05 R86). -/
def shiK : ShiK → Word → Nat → Word
  | .shl, a, n => shl32 a n
  | .shrL, a, n => shr32 .l a n
  | .shrA, a, n => shr32 .a a n
  | .rotr, a, n => a.rotateRight (n % 32)

/-- `VMIN`, `VMAX` (05 R84). -/
def minK : SgnK → Word → Word → Word
  | .i32, a, b => if a.toInt ≤ b.toInt then a else b
  | .u32, a, b => if a.toNat ≤ b.toNat then a else b
def maxK : SgnK → Word → Word → Word
  | .i32, a, b => if b.toInt ≤ a.toInt then a else b
  | .u32, a, b => if b.toNat ≤ a.toNat then a else b

/-- Number of one bits below bit `n`. -/
def popc (a : Word) : Nat → Nat
  | 0 => 0
  | n + 1 => popc a n + (if a.getLsbD n then 1 else 0)

/-- Zero bits from bit `n - 1` down to the highest one bit (05 R88). -/
def clz (a : Word) : Nat → Nat
  | 0 => 0
  | n + 1 => if a.getLsbD n then 0 else 1 + clz a n

def brev (a : Word) : Word := a.reverse

/-! ## The instructions -/

/-- Three-register format A. -/
def State.vvv (s : State) (d a b : Nat) : Bool := s.cur.vOk d 1 && s.cur.vOk a 1 && s.cur.vOk b 1
def State.vv (s : State) (d a : Nat) : Bool := s.cur.vOk d 1 && s.cur.vOk a 1

/-- `v(d) := f a b` in each active lane. -/
def State.lane2 (s : State) (h : Hdr) (d a b : Nat) (f : Word → Word → Word) : State :=
  s.laneAlu h (s.vvv d a b) d (fun i => f (s.vreg 1 a i) (s.vreg 2 b i))

/-- `v(d) := f a` in each active lane. -/
def State.lane1 (s : State) (h : Hdr) (d a : Nat) (f : Word → Word) : State :=
  s.laneAlu h (s.vv d a) d (fun i => f (s.vreg 1 a i))

def execVadd (h : Hdr) (d a b : Nat) (k : AddK) (s : State) : Out := .next (s.lane2 h d a b (addK k))
def execVsub (h : Hdr) (d a b : Nat) (k : AddK) (s : State) : Out := .next (s.lane2 h d a b (subK k))
def execVmul (h : Hdr) (d a b : Nat) (k : MulK) (s : State) : Out := .next (s.lane2 h d a b (mulK k))

/-- d is read as the addend (05 R81). -/
def execVmad (h : Hdr) (d a b : Nat) (s : State) : Out :=
  .next (s.laneAlu h (s.vvv d a b) d (fun i => s.vreg 1 a i * s.vreg 2 b i + s.vreg 3 d i))

def execVand (h : Hdr) (d a b : Nat) (s : State) : Out := .next (s.lane2 h d a b (· &&& ·))
def execVor (h : Hdr) (d a b : Nat) (s : State) : Out := .next (s.lane2 h d a b (· ||| ·))
def execVxor (h : Hdr) (d a b : Nat) (s : State) : Out := .next (s.lane2 h d a b (· ^^^ ·))
def execVandn (h : Hdr) (d a b : Nat) (s : State) : Out := .next (s.lane2 h d a b (fun x y => x &&& ~~~y))
def execVshl (h : Hdr) (d a b : Nat) (s : State) : Out := .next (s.lane2 h d a b (fun x y => shl32 x y.toNat))
def execVshr (h : Hdr) (d a b : Nat) (k : ShrK) (s : State) : Out :=
  .next (s.lane2 h d a b (fun x y => shr32 k x y.toNat))
def execVmin (h : Hdr) (d a b : Nat) (k : SgnK) (s : State) : Out := .next (s.lane2 h d a b (minK k))
def execVmax (h : Hdr) (d a b : Nat) (k : SgnK) (s : State) : Out := .next (s.lane2 h d a b (maxK k))
def execVaddi (h : Hdr) (d a : Nat) (imm : BitVec 8) (s : State) : Out := .next (s.lane1 h d a (· + imm8 imm))
def execVshi (h : Hdr) (d a : Nat) (k : ShiK) (n : Nat) (s : State) : Out := .next (s.lane1 h d a (fun x => shiK k x n))
def execVmovi (h : Hdr) (d : Nat) (imm : BitVec 14) (s : State) : Out :=
  .next (s.laneAlu h (s.cur.vOk d 1) d (fun _ => imm14 imm))
def execVmov (h : Hdr) (d a : Nat) (s : State) : Out := .next (s.lane1 h d a id)
def execVnot (h : Hdr) (d a : Nat) (s : State) : Out := .next (s.lane1 h d a (fun x => ~~~x))
def execVneg (h : Hdr) (d a : Nat) (s : State) : Out := .next (s.lane1 h d a (fun x => 0 - x))
def execVabs (h : Hdr) (d a : Nat) (s : State) : Out :=
  .next (s.lane1 h d a (fun x => if x.toInt < 0 then 0 - x else x))
def execVpopc (h : Hdr) (d a : Nat) (s : State) : Out := .next (s.lane1 h d a (fun x => BitVec.ofNat 32 (popc x 32)))
def execVclz (h : Hdr) (d a : Nat) (s : State) : Out := .next (s.lane1 h d a (fun x => BitVec.ofNat 32 (clz x 32)))
def execVbrev (h : Hdr) (d a : Nat) (s : State) : Out := .next (s.lane1 h d a brev)
def execVsext8 (h : Hdr) (d a : Nat) (s : State) : Out :=
  .next (s.lane1 h d a (fun x => (x.setWidth 8).signExtend 32))
def execVsext16 (h : Hdr) (d a : Nat) (s : State) : Out :=
  .next (s.lane1 h d a (fun x => (x.setWidth 16).signExtend 32))

/-- The word after the instruction is its literal; the next instruction is at the address + 8 (03 R44; 09 R163). -/
def execVmovl (h : Hdr) (d : Nat) (lit : Word) (s : State) : Out :=
  .next (s.laneAlu h (s.cur.vOk d 1) d (fun _ => lit) 8)

/-! ## Predicates -/

/-- G names the selecting predicate; every lane of the issue set is written (05 R107). -/
def execVsel (h : Hdr) (d a b : Nat) (s : State) : Out :=
  .next (if s.vvv d a b then
      (s.modCur (fun g => g.setV s.cur.iss d (fun i =>
        if (s.preg 15 h.g).has i then s.vreg 1 a i else s.vreg 2 b i))).goOn s.cur.iss 4
    else s.raiseWord .illegalReg)

/-- Predicate logic (05 R108). -/
def logK : LogK → Mask → Mask → Mask
  | .and, a, b => a &&& b
  | .or, a, b => a ||| b
  | .xor, a, b => a ^^^ b
  | .andn, a, b => a &&& ~~~b

def execPlog (h : Hdr) (d a b : Nat) (k : LogK) (s : State) : Out :=
  .next (s.lanePred h true d (logK k (s.preg 1 a) (s.preg 2 b)))

/-- Predicate moves (05 R109). -/
def movK : MovK → Mask → Mask
  | .cpy, a => a
  | .not, a => ~~~a
  | .set, _ => BitVec.allOnes 64
  | .clr, _ => 0

def execPmov (h : Hdr) (d a : Nat) (k : MovK) (s : State) : Out :=
  .next (s.lanePred h true d (movK k (s.preg 1 a)))

end Sys2Proof.Machine
end

