-- ==== Sys2Proof/Machine/FloatLane.lean ====
section
/-! DEFINITION. The float, conversion, quantising, special-function and lane-exchange instructions, and the
lane compares (09 R156-R178; 05 R105, R106). -/

set_option linter.unusedVariables false

namespace Sys2Proof.Machine

/-- A lane-set word that writes `v(d)` and ORs the flags of its active lanes into FSTAT (09 R156; 08 R140). -/
def State.laneFloat (s : State) (h : Hdr) (ok : Bool) (d : Nat) (f : Nat → Word × Flags) : State :=
  if ok then
    (s.modCur (fun g => (g.setV (s.active h) d (fun i => (f i).1)).addFlags
      (flagsOf (s.active h) (fun i => (f i).2)))).goOn s.cur.iss 4
  else s.raiseWord .illegalReg

/-- A binary element operation in a float kind. -/
def State.float2 (s : State) (h : Hdr) (d a b : Nat) (k : FmtK) (f : FVal → FVal → FVal × Flags) : State :=
  s.laneFloat h (s.vvv d a b) d (fun i =>
    elems k (fun k x y _ => deliverF k s.cur.rm (f (decodeF k x) (decodeF k y))) (s.vreg 1 a i) (s.vreg 2 b i) 0)

/-- A unary operation on the codes of the elements. -/
def State.float1 (s : State) (h : Hdr) (d a : Nat) (k : FmtK) (f : FK → Nat → Nat × Flags) : State :=
  s.laneFloat h (s.vv d a) d (fun i => elems k (fun k x _ _ => f k x) (s.vreg 1 a i) 0 0)

/-! ## Arithmetic (R159-R162) -/

def execVfadd (h : Hdr) (d a b : Nat) (k : FmtK) (s : State) : Out := .next (s.float2 h d a b k (addX s.cur.rm))

/-- A difference is the sum with the second operand negated; a NaN operand keeps its sign (R156, R138). -/
def execVfsub (h : Hdr) (d a b : Nat) (k : FmtK) (s : State) : Out :=
  .next (s.float2 h d a b k (fun x y => addX s.cur.rm x y.neg))
def execVfmul (h : Hdr) (d a b : Nat) (k : FmtK) (s : State) : Out := .next (s.float2 h d a b k mulX)

/-- d is read as the addend (R159). -/
def execVfma (h : Hdr) (d a b : Nat) (k : FmtK) (s : State) : Out :=
  .next (s.laneFloat h (s.vvv d a b) d (fun i =>
    elems k (fun k x y z => deliverF k s.cur.rm (fmaX s.cur.rm (decodeF k x) (decodeF k y) (decodeF k z)))
      (s.vreg 1 a i) (s.vreg 2 b i) (s.vreg 3 d i)))
def execVfmin (h : Hdr) (d a b : Nat) (k : FmtK) (s : State) : Out := .next (s.float2 h d a b k minX)
def execVfmax (h : Hdr) (d a b : Nat) (k : FmtK) (s : State) : Out := .next (s.float2 h d a b k maxX)

/-- The sign bit alone changes, in NaNs too (R161). -/
def execVfabs (h : Hdr) (d a : Nat) (k : FmtK) (s : State) : Out :=
  .next (s.float1 h d a k (fun k x => (x % signBit k true, 0)))
def execVfneg (h : Hdr) (d a : Nat) (k : FmtK) (s : State) : Out :=
  .next (s.float1 h d a k (fun k x => (x ^^^ signBit k true, 0)))
def execVfrint (h : Hdr) (d a : Nat) (k : FmtK) (s : State) : Out :=
  .next (s.float1 h d a k (fun k x => deliverF k s.cur.rm (rintX s.cur.rm (decodeF k x))))
def execVfcls (h : Hdr) (d a : Nat) (k : FmtK) (s : State) : Out :=
  .next (s.float1 h d a k (fun k x => (2 ^ classOf k x, 0)))

/-- a × 2^S(b) (R162). -/
def execVfscl (h : Hdr) (d a b : Nat) (s : State) : Out :=
  .next (s.laneFloat h (s.vvv d a b) d (fun i =>
    toF32 s.cur.rm (scaleX (f32 (s.vreg 1 a i)) (s.vreg 2 b i).toInt)))

/-! ## Conversions (R164-R167) -/

/-- The float kind of a `VCVT` kind; none for the integers. -/
def cvtFk : CvtKind → Option FK
  | .i32 => none | .u32 => none | .f32 => some .f32 | .f16 => some .f16 | .bf16 => some .bf16
  | .e4m3 => some .e4m3 | .e5m2 => some .e5m2

/-- The integer a register holds as a kind. -/
def cvtInt (k : CvtKind) (x : Word) : Int := if k = .i32 then x.toInt else x.toNat

def cvtMin : CvtKind → Int
  | .i32 => -2147483648
  | _ => 0
def cvtMax : CvtKind → Int
  | .i32 => 2147483647
  | _ => 4294967295

/-- An integer delivered as an integer kind: the nearer bound with NV outside the range. -/
def cvtClamp (k : CvtKind) (y : Int) (exact : Bool) : Word × Flags :=
  if y < (cvtMin k) then (BitVec.ofInt 32 (cvtMin k), fNV)
  else if (cvtMax k) < y then (BitVec.ofInt 32 (cvtMax k), fNV)
  else (BitVec.ofInt 32 y, fIf (!exact) fNX)

/-- A float value to an integer kind (R164). -/
def floatToInt (x : FVal) (k : CvtKind) (rm : Rnd) : Word × Flags :=
  match x with
  | .nan _ _ _ => (0, fNV)
  | .inf s => (BitVec.ofInt 32 (if s then (cvtMin k) else (cvtMax k)), fNV)
  | .fin s m e =>
      let (n, exact) := roundQ rm s m e 0
      cvtClamp k (if s then -(n : Int) else n) exact

/-- `VCVT` (R164). -/
def cvtWord (dst src : CvtKind) (rm : Rnd) (x : Word) : Word × Flags :=
  match cvtFk dst, cvtFk src with
  | some d, some k => let (c, f) := cvt (decodeF k x.toNat) d rm false false; (BitVec.ofNat 32 c, f)
  | some d, none =>
      let v := cvtInt src x
      let (c, f) := cvt (.fin (decide (v < 0)) v.natAbs 0) d rm false false
      (BitVec.ofNat 32 c, f)
  | none, some k => floatToInt (decodeF k x.toNat) dst rm
  | none, none => cvtClamp dst (cvtInt src x) true

def execVcvt (h : Hdr) (d a : Nat) (dst src : CvtKind) (r : Rnd) (s : State) : Out :=
  .next (s.laneFloat h (s.vv d a) d (fun i => cvtWord dst src r (s.vreg 1 a i)))

/-- `VCVT6` (R165). -/
def cvt6Word (k : Cvt6K) (rm : Rnd) (x : Word) : Word × Flags :=
  let enc := fun k => let (c, f) := cvt (f32 x) k rm true true; (BitVec.ofNat 32 c, f)
  let dec := fun k => (BitVec.ofNat 32 (cvt (decodeF k x.toNat) .f32 .rne false false).1, (0 : Flags))
  match k with
  | .toE3m2 => enc .e3m2
  | .toE2m3 => enc .e2m3
  | .fromE3m2 => dec .e3m2
  | .fromE2m3 => dec .e2m3

def execVcvt6 (h : Hdr) (d a : Nat) (k : Cvt6K) (r : Rnd) (s : State) : Out :=
  .next (s.laneFloat h (s.vv d a) d (fun i => cvt6Word k r (s.vreg 1 a i)))

/-- `VPKH` (R166). -/
def execVpkh (h : Hdr) (d a b : Nat) (k : PkhK) (s : State) : Out :=
  let fk := match k with | .f16x2 => FK.f16 | .bf16x2 => FK.bf16
  .next (s.laneFloat h (s.vvv d a b) d (fun i =>
    let lo := cvt (f32 (s.vreg 1 a i)) fk s.cur.rm false false
    let hi := cvt (f32 (s.vreg 2 b i)) fk s.cur.rm false false
    (BitVec.ofNat 32 (lo.1 + 65536 * hi.1), lo.2 ||| hi.2)))

/-- `VUPKH` (R167). -/
def upkhWord (k : UpkhK) (x : Word) : Word × Flags :=
  let go := fun (k : FK) (c : Nat) => let (r, f) := cvt (decodeF k c) .f32 .rne false false; (BitVec.ofNat 32 r, f)
  match k with
  | .loF16 => go .f16 (x.toNat % 65536)
  | .hiF16 => go .f16 (x.toNat / 65536)
  | .loBf16 => go .bf16 (x.toNat % 65536)
  | .hiBf16 => go .bf16 (x.toNat / 65536)

def execVupkh (h : Hdr) (d a : Nat) (k : UpkhK) (s : State) : Out :=
  .next (s.laneFloat h (s.vv d a) d (fun i => upkhWord k (s.vreg 1 a i)))

/-! ## Quantising lanes into blocks (R168-R170) -/

/-- The elements of block `k`: +0.0 where no active lane supplies one (R168). -/
def State.blockElems (s : State) (act : Mask) (a k : Nat) : List Word :=
  (List.range 32).map (fun j => if act.has (32 * k + j) then s.vreg 1 a (32 * k + j) else 0)

/-- `VQNT` (R169). -/
def execVqnt (h : Hdr) (d a n f : Nat) (s : State) : Out :=
  let sl := s.curGrid.slot f
  let ok := s.vv d a && s.cur.sOk n 1
  let act := s.active h
  .next (match sl.kind with
    | .b4 =>
        if !ok then s.raiseWord .illegalReg
        else if act = 0 then s.goOn s.cur.iss 4
        else
          let q0 := quantise (s.blockElems act a 0) sl.type sl.nanSat
          let q1 := quantise (s.blockElems act a 1) sl.type sl.nanSat
          let wide := s.cur.width == 64
          (s.modCur (fun g =>
            ((g.setV act d (fun i =>
                BitVec.ofNat 32 ((if i < 32 then q0.2.1 else q1.2.1).getD (i % 32) 0))).setS n
              (BitVec.ofNat 32 (q0.1 + (if wide then 256 * q1.1 else 0)))).addFlags
                (q0.2.2 ||| (if wide then q1.2.2 else 0)))).goOn s.cur.iss 4
    | .flt k => s.laneFloat h ok d (fun i =>
        let (c, f) := slotCvt sl k (s.vreg 1 a i)
        (BitVec.ofNat 32 c, f)))

/-- `VDQNT` (R170). -/
def execVdqnt (h : Hdr) (d a n f : Nat) (s : State) : Out :=
  let sl := s.curGrid.slot f
  .next (s.laneFloat h (s.vv d a && s.cur.sOk n 1) d (fun i =>
    match sl.kind with
    | .b4 =>
        let sb := (s.cur.sreg n).toNat / 2 ^ (8 * (i / 32)) % 256
        (BitVec.ofNat 32 (cvt (b4Elem sb ((s.vreg 1 a i).toNat % 16)) .f32 .rne false false).1, 0)
    | .flt .f32 => (s.vreg 1 a i, 0)
    | .flt k => let (c, f) := cvt (decodeF k (s.vreg 1 a i).toNat) .f32 .rne false false; (BitVec.ofNat 32 c, f)))

/-! ## Compares (05 R105, R106) -/

/-- A lane compare: on integers, or on FP32 values with `un` the answer when a NaN is compared and `sig`
whether a quiet NaN sets NV. -/
def State.laneCmp (s : State) (h : Hdr) (d a b : Nat) (k : CmpK) (f : Int → Bool) (un sig : Bool) : State :=
  let x := fun i => s.vreg 1 a i
  let y := fun i => s.vreg 2 b i
  let sgn : Int → Int → Int := fun p q => if p < q then -1 else if q < p then 1 else 0
  let one : Nat → Bool × Flags := fun i =>
    match k with
    | .i32 => (f (sgn (x i).toInt (y i).toInt), 0)
    | .u32 => (f (sgn (x i).toNat (y i).toNat), 0)
    | .f32 =>
        let p := f32 (x i)
        let q := f32 (y i)
        if p.isNan || q.isNan then (un, fIf (sig || p.isSig || q.isSig) fNV) else (f (cmpF p q), 0)
  if s.cur.vOk a 1 && s.cur.vOk b 1 then
    (s.modCur (fun g => (g.setP (s.active h) d (Mask.ofFn (fun i => (one i).1) 64)).addFlags
      (flagsOf (s.active h) (fun i => (one i).2)))).goOn s.cur.iss 4
  else s.raiseWord .illegalReg

def execVcmpeq (h : Hdr) (d a b : Nat) (k : CmpK) (s : State) : Out := .next (s.laneCmp h d a b k (· == 0) false false)
def execVcmpne (h : Hdr) (d a b : Nat) (k : CmpK) (s : State) : Out := .next (s.laneCmp h d a b k (· != 0) true false)
def execVcmplt (h : Hdr) (d a b : Nat) (k : CmpK) (s : State) : Out :=
  .next (s.laneCmp h d a b k (fun c => decide (c < 0)) false true)
def execVcmple (h : Hdr) (d a b : Nat) (k : CmpK) (s : State) : Out :=
  .next (s.laneCmp h d a b k (fun c => decide (c ≤ 0)) false true)

/-! ## Special functions (R172, R173) -/

/-- A special function of one FP32 operand. -/
def State.special (s : State) (h : Hdr) (d a : Nat) (f : FVal → FVal × Flags) : State :=
  s.laneFloat h (s.vv d a) d (fun i => toF32 s.cur.rm (f (f32 (s.vreg 1 a i))))

def execVrcp (h : Hdr) (d a : Nat) (s : State) : Out := .next (s.special h d a rcpX)
def execVrsq (h : Hdr) (d a : Nat) (s : State) : Out := .next (s.special h d a rsqX)
def execVsqrt (h : Hdr) (d a : Nat) (s : State) : Out := .next (s.special h d a sqrtX)
def execVexp2 (h : Hdr) (d a : Nat) (s : State) : Out := .next (s.special h d a exp2X)
def execVlog2 (h : Hdr) (d a : Nat) (s : State) : Out := .next (s.special h d a log2X)
def execVtanh (h : Hdr) (d a : Nat) (s : State) : Out := .next (s.special h d a tanhX)
def execVdiv (h : Hdr) (d a b : Nat) (s : State) : Out := .next (s.float2 h d a b .f32 divX)

/-! ## Lane exchange (R157, R158, R174-R178) -/

/-- A permute: lane `i` takes v(a) of lane `src i`. Outstanding results of source lanes outside the issue
set are waited for (R158); data held for a frame row goes to no register (17 R298). -/
def State.permute (s : State) (h : Hdr) (ok : Bool) (d a : Nat) (src : Nat → Nat) : State :=
  if ok then
    let act := s.active h
    let from' := act.lanes.map src
    let s1 := s.modCur (fun g => g.deliverIf s.freeCtr (fun e =>
      !(s.cur.iss.has e.lane) && e.reg == a && !e.isPred && from'.contains e.lane && !(s.frameHeld e)))
    (s1.modCur (fun g => g.setV act d (fun i => s1.vreg 1 a (src i)))).goOn s.cur.iss 4
  else s.raiseWord .illegalReg

def execVshfl (h : Hdr) (d a b : Nat) (s : State) : Out :=
  .next (s.permute h (s.vvv d a b) d a (fun i => (s.vreg 2 b i).toNat % s.cur.width))
def execVshflx (h : Hdr) (d a n : Nat) (s : State) : Out :=
  .next (s.permute h (s.vv d a) d a (fun i => (i ^^^ n) % s.cur.width))
def execVshflu (h : Hdr) (d a n : Nat) (s : State) : Out :=
  .next (s.permute h (s.vv d a) d a (fun i => if i < n then i else i - n))
def execVshfld (h : Hdr) (d a n : Nat) (s : State) : Out :=
  .next (s.permute h (s.vv d a) d a (fun i => if s.cur.width ≤ i + n then i else i + n))

/-- `VBALLOT`: in a 64-lane group d is an even pair (R175). -/
def execVballot (h : Hdr) (d a : Nat) (s : State) : Out :=
  let act := s.active h
  let x := act &&& s.preg 1 a
  let wide := s.cur.width == 64
  .next (
    if !(if wide then s.cur.sPairOk d else s.cur.sOk d 1) then s.raiseWord .illegalReg
    else if act = 0 then s.goOn s.cur.iss 4
    else (s.modCur (fun g => if wide then g.setSPair d x else g.setS d (loW x))).goOn s.cur.iss 4)

/-- The fixed binary tree over 2^n leaves from `off` (R176). -/
def treeFold {α : Type} (f : α → α → α) (leaf : Nat → α) : Nat → Nat → α
  | 0, off => leaf off
  | n + 1, off => f (treeFold f leaf n off) (treeFold f leaf n (off + 2 ^ n))

/-- The operation of a node of `VRED`. -/
def redK (k : RedK) (rm : Rnd) (x y : Word × Flags) : Word × Flags :=
  match k with
  | .addI32 => (x.1 + y.1, 0)
  | .minI32 => (minK .i32 x.1 y.1, 0)
  | .maxI32 => (maxK .i32 x.1 y.1, 0)
  | .addF32 => let (r, f) := f32Add rm x.1 y.1; (r, x.2 ||| y.2 ||| f)

def redIdentity : RedK → Word
  | .addI32 => 0
  | .minI32 => 0x7FFFFFFF
  | .maxI32 => 0x80000000
  | .addF32 => 0x80000000

def execVred (h : Hdr) (d a : Nat) (k : RedK) (s : State) : Out :=
  let act := s.active h
  .next (
    if !(s.cur.sOk d 1 && s.cur.vOk a 1) then s.raiseWord .illegalReg
    else if act = 0 then s.goOn s.cur.iss 4
    else
      let leaf := fun i => (if act.has i then s.vreg 1 a i else redIdentity k, (0 : Flags))
      let (r, f) := treeFold (redK k s.cur.rm) leaf s.cur.width.log2 0
      (s.modCur (fun g => (g.setS d r).addFlags f)).goOn s.cur.iss 4)

def execVaff (h : Hdr) (d a : Nat) (s : State) : Out :=
  .next (s.laneAlu h (s.cur.vOk d 1) d (fun i => loW (s.cur.affine a i)))
def execVbcast (h : Hdr) (d a : Nat) (s : State) : Out :=
  .next (s.laneAlu h (s.cur.vOk d 1 && s.cur.sOk a 1) d (fun _ => s.cur.sreg a))

end Sys2Proof.Machine
end

