-- ==== Sys2Proof/Machine/Tiles.lean ====
section
/-! DEFINITION. Tiles, slices and rings as the groups use them (11 R189-R193, R206-R209). -/

set_option linter.unusedVariables false

namespace Sys2Proof.Machine

/-! ## Plain reads of a uniform instruction -/

/-- What a plain read by the issue set gives. -/
inductive UniRead where
  | got (bytes : List (BitVec 8)) (s : State)
  | stop (s : State)

/-- A uniform instruction reads `n` bytes at `va`; a cause concerns every lane of the issue set, which stays
at the word (11 R207, R208; 18 R315). -/
def State.readUni (s : State) (va : DWord) (n al : Nat) : UniRead :=
  let c := s.classify .read al none va
  let pois := c == .dead || (c.isOk && s.poisoned c.key n)
  let m := if pois then s.cur.iss else 0
  match (if s.cur.hlv then s.handlerFault s.cur.iss (fun _ => [⟨va, n, c⟩]) m else none) with
  | some (d, a) => .stop (s.recursiveFault d a)
  | none =>
    if pois then .stop (s.unwind .poison va s.cur.iss)
    else match c with
      | .ok k => .got (Memory.bytes s.mem k n) (s.traffic s.cur.owner k n s.curCore (va.toNat / 65536))
      | .zero => .got (List.replicate n 0) s
      | _ => .stop (s.finishAccess s.cur.iss 0 (fun _ => c) (fun _ => va) (fun i => i == s.cur.iss.low) false)

/-! ## TBIND (R206, R207) -/

def tileOf (num : Nat) (bs : List (BitVec 8)) : Tile :=
  { num, base := BitVec.ofNat 64 (leField bs 0 8), rows := leField bs 8 2, cols := leField bs 10 2
    pitch := leField bs 12 2, kind := leField bs 14 1 }

/-- The checks of R206. -/
def Team.tileOk (tm : Team) (t : Tile) (reserved : Nat) : Bool :=
  t.base.toNat % 4 == 0 && decide (1 ≤ t.rows) && decide (t.rows ≤ 64) && decide (1 ≤ t.cols) && decide (t.cols ≤ 64) &&
    t.pitch % 4 == 0 && decide (t.kind ≤ 3) && decide (t.cols * t.size ≤ t.pitch) && reserved == 0 &&
    tm.reaches t

/-- The tile is the frame tile of a bin with occupied rows (R207). -/
def Team.frameBusy (tm : Team) (n : Nat) : Bool := tm.bins.any (fun b => b.tile == n && b.occupied)

def execTbind (h : Hdr) (d a : Nat) (s : State) : Out :=
  .next (
    if !(s.cur.sPairOk a) then s.raiseWord .illegalReg
    else if !(s.uguard h) then s.goOn s.cur.iss 4
    else
      let va := s.cur.spair a
      if va.toNat % 16 ≠ 0 then s.named va (s.raiseWord .tileRange)
      else match s.readUni va 16 16 with
        | .stop t => t
        | .got bs t =>
          let tile := tileOf d bs
          if s.curTeam.tileOk tile (leField bs 15 1) && !(s.curTeam.frameBusy d) then
            (t.modTeam s.cur.team (fun tm => { tm with tiles := tile :: tm.tiles.filter (·.num != d) })).goOn s.cur.iss 4
          else t.raiseWord .tileRange)

/-! ## TZERO, TCOLOP, TLOAD, TSTORE (R208) -/

/-- At handler level a tile access is outside the pinned reserve (18 R315). -/
def State.tileAccess (s : State) (va : DWord) (t : State) : State := if s.cur.hlv then s.recursiveFault 1 va else t

/-- All elements of a tile, row-major. -/
def Tile.cells (t : Tile) : List (Nat × Nat) :=
  (List.range t.rows).flatMap (fun r => (List.range t.cols).map (fun c => (r, c)))

/-- The key ranges of elements of a tile. -/
def Tile.ranges (t : Tile) (tm : Team) (cells : List (Nat × Nat)) : List (Nat × Nat) :=
  cells.map (fun x => (localKey tm (t.at x.1 x.2), t.size))

def State.elemPoisoned (s : State) (tm : Team) (t : Tile) (r c : Nat) : Bool := s.poisoned (localKey tm (t.at r c)) t.size

/-- The first of the elements that lies outside the team's banks. -/
def Team.outside (tm : Team) (t : Tile) (cells : List (Nat × Nat)) : Option DWord :=
  if tm.reaches t then Option.none else (cells.find? (fun x => !(tm.holdsElem t x.1 x.2))).map (fun x => t.at x.1 x.2)

/-- A uniform tile instruction: its register check, its guard, the bound tile, and the fence, before which none of its elements `cells` is
accessed (13 R221). -/
def State.tileOp (s : State) (h : Hdr) (ok : Bool) (d : Nat) (cells : Tile → List (Nat × Nat)) (f : Tile → State) : State :=
  if !ok then s.raiseWord .illegalReg
  else if !(s.uguard h) then s.goOn s.cur.iss 4
  else match s.curTeam.tile d with
    | none => s.raiseWord .tileRange
    | some t =>
      match (if s.cur.hlv then none else s.curTeam.outside t (cells t)) with
      | some va => s.fencedAt va s.cur.iss
      | none => f t

def execTzero (h : Hdr) (d : Nat) (s : State) : Out :=
  .next (s.tileOp h true d Tile.cells (fun t => s.tileAccess t.base
    (if s.curTeam.frameBusy d then s.raiseWord .tileRange
     else ((t.cells.foldl (fun u x => u.setElem s.curTeam t x.1 x.2 0) s).clearCovered (t.ranges s.curTeam t.cells)).goOn s.cur.iss 4)))

/-- The operation of `TCOLOP` on an element `e` and the value `x`. -/
def colK (k : ColOpK) (rm : Rnd) (e x : Word) : Word × Flags :=
  match k with
  | .addF32 => f32Add rm e x
  | .addI32 => (e + x, 0)
  | .maxF32 => f32Max e x
  | .set => (x, 0)

/-- The rows `TCOLOP` acts on: the occupied ones of a bin's frame tile, else all (R208). A tile that is the frame tile of several bins has
the occupied rows of each of them. DESIGN CHOICE, log entry 37. -/
def Team.colRows (tm : Team) (t : Tile) : List Nat :=
  let bs := tm.bins.filter (·.tile == t.num)
  if bs = [] then List.range t.rows else (List.range t.rows).filter (fun r => bs.any (fun b => b.row r != .free))

def execTcolop (h : Hdr) (d a b : Nat) (k : ColOpK) (s : State) : Out :=
  .next (s.tileOp h (s.cur.sOk a 1 && s.cur.sOk b 1) d
   (fun t => if t.cols ≤ (s.cur.sreg a).toNat then [] else (s.curTeam.colRows t).map (fun r => (r, (s.cur.sreg a).toNat))) (fun t =>
    let tm := s.curTeam
    let c := (s.cur.sreg a).toNat
    let x := s.cur.sreg b
    let rows := tm.colRows t
    if t.cols ≤ c then s.raiseWord .tileRange
    else s.tileAccess (t.at 0 c)
      (if t.kind ≠ 0 then s.raiseWord .tileRange
       else match (if k = .set then none else rows.find? (fun r => s.elemPoisoned tm t r c)) with
       | some r => s.unwind .poison (t.at r c) s.cur.iss
       | .none =>
        let one := fun r => colK k s.cur.rm (BitVec.ofNat 32 (s.elem tm t r c)) x
        let s1 := rows.foldl (fun u r => u.setElem tm t r c (one r).1.toNat) s
        (s1.modCur (fun g => g.addFlags (rows.foldl (fun acc r => acc ||| (one r).2) 0))).goOn s.cur.iss 4)))

/-- Move the elements from the `xfer`-th on between a tile and dense memory, `n` of them at most; the
class of the first one that is not moved, its address and whether it is poison stop the move (R208). -/
def State.moveElems (s : State) (load : Bool) (tm : Team) (t : Tile) (va : DWord) :
    Nat → Nat → State × Nat × Option (LaneClass × DWord × Bool)
  | 0, i => (s, i, none)
  | n + 1, i =>
    let r := i / t.cols
    let c := i % t.cols
    let a := va + BitVec.ofNat 64 (i * t.size)
    let cls := s.classify (if load then .read else .write) t.size none a
    let pois := if load then cls == .dead || (cls.isOk && s.poisoned cls.key t.size) else s.elemPoisoned tm t r c
    if pois then (s, i, some (cls, a, true))
    else match cls with
      | .ok k =>
          let s1 := if load then s.setElem tm t r c (leNat (Memory.bytes s.mem k t.size))
            else (s.writeKey k (leBytes t.size (s.elem tm t r c))).markRacking s.cur.owner k t.size
          (s1.traffic s.cur.owner k t.size s.curCore (a.toNat / 65536)).moveElems load tm t va n (i + 1)
      | .zero => (s.setElem tm t r c 0).moveElems load tm t va n (i + 1)
      | .dead => s.moveElems load tm t va n (i + 1)
      | _ => (s, i, some (cls, a, false))

/-- `TLOAD` and `TSTORE`: the count of moved elements and the lanes that move them are part of the group's context, so that no
element moves twice and no other word of the group issues before the end. -/
def State.tileMove (s : State) (h : Hdr) (d a : Nat) (load : Bool) : State :=
  s.tileOp h (s.cur.sPairOk a) d Tile.cells (fun t =>
    let va := s.cur.spair a
    s.tileAccess t.base
      (if va.toNat % t.size ≠ 0 then s.raise .align va s.cur.iss
       else
        let (s1, i, stop) := s.moveElems load s.curTeam t va (t.rows * t.cols - s.cur.xfer) s.cur.xfer
        match stop with
        | none => (s1.modCur (fun g => { g with xfer := 0, moving := 0 })).goOn s.cur.iss 4
        | some (cls, x, pois) =>
          let s2 := s1.modCur (fun g => { g with xfer := i, moving := g.iss })
          if pois then s2.unwind .poison (if load then x else t.at (i / t.cols) (i % t.cols)) s.cur.iss
          else s2.finishAccess s.cur.iss 0 (fun _ => cls) (fun _ => x) (fun i => i == s.cur.iss.low) (!load)))

def execTload (h : Hdr) (d a : Nat) (s : State) : Out := .next (s.tileMove h d a true)
def execTstore (h : Hdr) (d a : Nat) (s : State) : Out := .next (s.tileMove h d a false)

/-! ## TACC -/

/-- Element [m][n] of accumulator `k`. -/
def Me.elem (e : Me) (k m n : Nat) : Word := e.acc.get (4096 * k + 64 * m + n)

/-- The float kind of a tile's elements; B8 has none. -/
def Tile.fk (t : Tile) : Option FK :=
  match t.kind with
  | 0 => some .f32
  | 1 => some .f16
  | 2 => some .bf16
  | _ => none

def execTacc (h : Hdr) (d a : Nat) (s : State) : Out :=
  .next (
    if !s.curGrid.record.matrix then s.raiseWord .illegalOp
    else s.tileOp h true d Tile.cells (fun t => s.tileAccess t.base
     (match (if t.rows = 64 ∧ t.cols = 64 then t.fk else none) with
      | none => s.raiseWord .tileRange
      | some k =>
        let me := (s.spOf s.cur.sp).me
        let one := fun (x : Nat × Nat) =>
          let e := me.elem a x.1 x.2
          if k = .f32 then (e.toNat, (0 : Flags)) else cvt (f32 e) k s.cur.rm false false
        let s1 := t.cells.foldl (fun u x => u.setElem s.curTeam t x.1 x.2 (one x).1) s
        ((s1.clearCovered (t.ranges s.curTeam t.cells)).modCur (fun g => g.addFlags (t.cells.foldl (fun acc x => acc ||| (one x).2) 0))).goOn s.cur.iss 4)))

/-! ## Slices (R209) -/

/-- A slice: its lanes act on the elements of one row or column. `perform` changes the state for one lane;
`zero` for a lane beyond the tile. -/
def State.slice (s : State) (h : Hdr) (tn : Nat) (col : Bool) (i n v : Nat) (fold reads stores : Bool)
    (perform : State → Tile → Nat → Nat → Nat → State) (beyond : State → Nat → State) : State :=
  let act := s.active h
  let tm := s.curTeam
  let bad := s.raise .tileRange s.cur.ipc act
  if !(s.cur.vOk v 1 && s.cur.sOk i 1) then s.raiseWord .illegalReg
  else if act = 0 then s.goOn s.cur.iss 4
  else match tm.tile tn with
    | none => bad
    | some t =>
      let q := (s.cur.sreg i + BitVec.ofNat 32 n).toNat
      if (if col then t.cols else t.rows) ≤ q then bad
      else
        let rc := fun l => if col then (l, q) else (q, l)
        let inside := laneSet act (fun l => decide ((rc l).1 < t.rows) && decide ((rc l).2 < t.cols))
        let out := if tm.reaches t then 0 else laneSet inside (fun l => !(tm.holdsElem t (rc l).1 (rc l).2))
        let pois := if reads then laneSet (inside &&& ~~~out) (fun l => s.elemPoisoned tm t (rc l).1 (rc l).2) else 0
        let good := inside &&& ~~~pois &&& ~~~out
        let va := fun l => t.at (rc l).1 (rc l).2
        if s.cur.hlv && inside != 0 then s.recursiveFault 1 (t.at (rc inside.low).1 (rc inside.low).2)
        else if fold ∧ t.kind = 3 then bad
        else
          let s1 := good.lanes.foldl (fun u l => perform u t (rc l).1 (rc l).2 l) s
          let s1 := if stores then s1.clearCovered (t.ranges tm (good.lanes.map rc)) else s1
          let s2 := (act &&& ~~~inside).lanes.foldl beyond s1
          let s3 := (s2.goOn (s.cur.iss &&& ~~~pois &&& ~~~out) 4).logFences out va
          if pois ≠ 0 then s3.unwind .poison (va pois.low) pois
          else if out ≠ 0 then s3.raise .fenceViolation (va out.low) out
          else s3

/-- Change one lane of a vector register and OR flags. -/
def State.setLane (s : State) (r i : Nat) (x : Word × Flags) : State :=
  s.modCur (fun g => (g.setV (Mask.one i) r (fun _ => x.1)).addFlags x.2)

/-- `VTRD`: 16-bit elements widen to FP32; a lane beyond the tile reads 0. -/
def execVtrd (h : Hdr) (t : Nat) (c : Bool) (i n v : Nat) (s : State) : Out :=
  .next (s.slice h t c i n v false true false
    (fun u tl r k l =>
      let e := s.elem s.curTeam tl r k
      u.setLane v l (match tl.kind with
        | 1 => let (x, f) := cvt (decodeF .f16 e) .f32 .rne false false; (BitVec.ofNat 32 x, f)
        | 2 => let (x, f) := cvt (decodeF .bf16 e) .f32 .rne false false; (BitVec.ofNat 32 x, f)
        | _ => (BitVec.ofNat 32 e, 0)))
    (fun u l => u.setLane v l (0, 0)))

/-- What `VTWR` writes for a register value. -/
def tileValue (t : Tile) (rm : Rnd) (x : Word) : Nat × Flags :=
  match t.kind with
  | 1 => cvt (f32 x) .f16 rm false false
  | 2 => cvt (f32 x) .bf16 rm false false
  | 3 => (x.toNat % 256, 0)
  | _ => (x.toNat, 0)

def execVtwr (h : Hdr) (t : Nat) (c : Bool) (i n v : Nat) (s : State) : Out :=
  .next (s.slice h t c i n v false false true
    (fun u tl r k l =>
      let (x, f) := tileValue tl s.cur.rm (s.vreg 1 v l)
      (u.setElem s.curTeam tl r k x).modCur (fun g => g.addFlags f))
    (fun u _ => u))

/-- A fold of a register into a float element: one rounding to the tile's kind, of arithmetic, or with `conv` the conversion of 08 R144. -/
def State.foldElem (s u : State) (conv : Bool) (tl : Tile) (r k : Nat) (f : FVal → FVal → FVal × Flags) (x : Word) : State :=
  let fk := tl.fk.getD .f32
  let v := f (decodeF fk (u.elem s.curTeam tl r k)) (f32 x)
  let (y, g) := deliverTo conv v.1 fk s.cur.rm false false
  (u.setElem s.curTeam tl r k y).modCur (fun q => q.addFlags (v.2 ||| g))

def execVtaddF32 (h : Hdr) (t : Nat) (c : Bool) (i n v : Nat) (s : State) : Out :=
  .next (s.slice h t c i n v true true false
    (fun u tl r k l => s.foldElem u false tl r k (addX s.cur.rm) (s.vreg 1 v l)) (fun u _ => u))

def execVtmaxF32 (h : Hdr) (t : Nat) (c : Bool) (i n v : Nat) (s : State) : Out :=
  .next (s.slice h t c i n v true true false
    (fun u tl r k l => s.foldElem u true tl r k maxX (s.vreg 1 v l)) (fun u _ => u))

/-! ## Rings (R189-R193) -/

def Team.ring (t : Team) (n : Nat) : Option Ring := t.rings.find? (·.num == n)
def Team.setRing (t : Team) (r : Ring) : Team := { t with rings := r :: t.rings.filter (·.num != r.num) }

/-- Free slots S − (P − F). -/
def Ring.free (r : Ring) : Nat := r.slots - (r.pubd - r.freed).toNat

def ringOf (num : Nat) (bs : List (BitVec 8)) : Ring :=
  { num, base := BitVec.ofNat 64 (leField bs 0 8), stride := leField bs 8 4, slots := leField bs 12 1
    pubd := 0, cons := 0, freed := 0 }

/-- The checks of R189. -/
def Team.ringOk (tm : Team) (r : Ring) (reserved : Nat) : Bool :=
  r.base.toNat % 16 == 0 && r.stride % 16 == 0 && decide (16 ≤ r.stride) && decide (1 ≤ r.slots) && reserved == 0 &&
    tm.holds r.base (r.slots * r.stride)

/-- An ME program of the team is RUN or WAIT, be it switched out (R190). -/
def State.meBusy (s : State) (tid : Nat) : Bool :=
  s.allMes.any (fun e => e.team == tid && (e.state == 1 || e.state == 2))

def execRbind (h : Hdr) (d a : Nat) (s : State) : Out :=
  .next (
    if !(s.cur.sPairOk a) then s.raiseWord .illegalReg
    else if !(s.uguard h) then s.goOn s.cur.iss 4
    else
      let va := s.cur.spair a
      if va.toNat % 16 ≠ 0 then s.named va (s.raiseWord .tileRange)
      else match s.readUni va 16 16 with
        | .stop t => t
        | .got bs t =>
          let r := ringOf d bs
          if s.curTeam.ringOk r (leField bs 13 3) && !(s.meBusy s.cur.team) then
            (t.modTeam s.cur.team (fun tm => tm.setRing r)).goOn s.cur.iss 4
          else t.raiseWord .tileRange)

def execRpub (h : Hdr) (d n : Nat) (s : State) : Out :=
  .next (
    if !(s.uguard h) then s.goOn s.cur.iss 4
    else match s.curTeam.ring d with
      | none => s.raiseWord .tileRange
      | some r =>
        if r.free < n then s.raiseWord .tileRange
        else (s.modTeam s.cur.team (fun tm => tm.setRing { r with pubd := r.pubd + BitVec.ofNat 32 n })).goOn s.cur.iss 4)

def execRwaitf (h : Hdr) (d n : Nat) (s : State) : Out :=
  .next (
    if !(s.uguard h) then s.goOn s.cur.iss 4
    else match s.curTeam.ring d with
      | none => s.raiseWord .tileRange
      | some r =>
        if r.slots < n then s.raiseWord .tileRange
        else if n ≤ r.free then s.goOn s.cur.iss 4
        else s.waitFor s.cur.iss (.ringFree d n))

end Sys2Proof.Machine
end

