-- ==== Sys2Proof/Machine/Chains.lean ====
section
/-! DEFINITION. The copy engine: submission, tickets, promises, `CPY` and `CPYW`, the dependence scheduler,
and what a card does (15 R264-R275, R281-R286; 12 R212-R214; 21 R372-R374). A card is one step, but for what it has to
wait for. -/

set_option linter.unusedVariables false

namespace Sys2Proof

/-! ## What a card says (03 R49; 15 R269) -/

/-- Pairs of source and destination offsets in walk order, outermost dimension first. -/
def walkDims : List (Nat × Int × Int) → List (Int × Int)
  | [] => [(0, 0)]
  | (n, a, b) :: ds => (List.range n).flatMap (fun (i : Nat) => (walkDims ds).map (fun p => (p.1 + (i : Int) * a, p.2 + (i : Int) * b)))

def Card.walk (c : Card) : List (Int × Int) :=
  walkDims ((c.perm.reverse).map (fun k => (c.extents.getD k 0, c.srcStrides.getD k 0, c.dstStrides.getD k 0)))

def Card.esize (c : Card) : Nat := 2 ^ c.esizeLog

def Card.srcVa (c : Card) (p : Int × Int) : DWord := c.source + BitVec.ofInt 64 p.1
def Card.dstVa (c : Card) (p : Int × Int) : DWord := c.dest + BitVec.ofInt 64 p.2

/-- Alignment of R269; FILL is checked on its destination only (R271). -/
def Card.misaligned (c : Card) (fill : Bool) : Bool :=
  let e : Int := c.esize
  c.dest.toNat % c.esize != 0 || c.dstStrides.any (fun x => x % e != 0) ||
    (!fill && (c.source.toNat % c.esize != 0 || c.srcStrides.any (fun x => x % e != 0)))

def Card.bytes (c : Card) : Nat := c.extents.foldl (· * ·) 1 * c.esize

/-- One access of a COPY or FILL card: an element is read, or written. -/
inductive CardMove where
  | rd (i : Nat)
  | wr (i : Nat)
  deriving DecidableEq, Repr

/-- The dimension by which the CE stages a transpose, if it does: another one than the innermost has a destination stride of the
element size, and the innermost has not (15 R270). The first such in walk order. -/
def Card.stageDim (c : Card) : Option Nat :=
  match c.perm with
  | [] => none
  | k :: ks => if c.dstStrides.getD k 0 = c.esize then none else ks.find? (fun q => c.dstStrides.getD q 0 == (c.esize : Int))

/-- How far apart in the walk two elements are that differ by one in dimension `k`. -/
def Card.pitch (c : Card) (k : Nat) : Nat := (c.perm.takeWhile (· != k)).foldl (fun acc q => acc * c.extents.getD q 0) 1

/-- The accesses of a tile of at most 64 elements along the innermost dimension and 16 steps of dimension `q`: its reads, then its
writes, contiguous ones together (15 R270). -/
def Card.tileMoves (c : Card) (q at' n m : Nat) : List CardMove :=
  (List.range m).flatMap (fun j => (List.range n).map (fun i => CardMove.rd (at' + i + j * c.pitch q))) ++
    (List.range n).flatMap (fun i => (List.range m).map (fun j => CardMove.wr (at' + i + j * c.pitch q)))

/-- The accesses of a card in stream order. -/
def Card.inOrder (c : Card) : List CardMove := (List.range c.walk.length).flatMap (fun i => [CardMove.rd i, CardMove.wr i])

/-- The accesses of a card in the order in which the CE makes them: an element read, then written, in walk order, or the tiles of a
staged transpose, whose order R270 leaves open. Writes of one card are unordered (15 R269), so which elements an access that stops the
card leaves written is open too: those before it in this order. DESIGN CHOICE, log entry 37. -/
def Card.moves (c : Card) : List CardMove :=
  match c.stageDim with
  | none => c.inOrder
  | some q =>
    let n := c.extents.getD (c.perm.headD 0) 0
    let m := c.extents.getD q 0
    -- the elements at which both dimensions stand at their start
    let roots := (List.range c.walk.length).filter (fun i => i % n == 0 && i / c.pitch q % m == 0)
    roots.flatMap (fun r => (List.range ((m + 15) / 16)).flatMap (fun b => (List.range ((n + 63) / 64)).flatMap (fun a =>
      c.tileMoves q (r + 64 * a + 16 * b * c.pitch q) (min 64 (n - 64 * a)) (min 16 (m - 16 * b)))))

/-- The addresses of a sealed card's check: each element's source and destination, then the tag, the last as a source. -/
def Card.sealedAt (c : Card) : List (DWord × Bool) :=
  (c.walk.flatMap (fun e => [(c.srcVa e, false), (c.dstVa e, true)])) ++ [(c.tagAddr, false)]

/-- The reads of a COLL card: its whole stream, before anything goes out, so that an element whose bytes the card itself writes is the
old one, as R269 allows. DESIGN CHOICE, log entry 37. -/
def Card.reads (c : Card) : List CardMove := (List.range c.walk.length).map CardMove.rd

/-- The address the next write of a list of accesses goes to. -/
def Card.nextWrite (c : Card) (ms : List CardMove) : Option DWord :=
  ms.findSome? (fun m => match m with | .wr i => some (c.dstVa (c.walk.getD i (0, 0))) | .rd _ => none)

/-- Do two footprints overlap in a way that has an edge? -/
def Footprint.edge (a b : Footprint) : Bool :=
  decide (a.base < b.base + b.len) && decide (b.base < a.base + a.len) &&
    !(a.kind == 1 && b.kind == 1) && !(a.kind == 3 && b.kind == 3)

/-- Which operation the card a chain has reached is (03 R49); a card that is none is ended as CARD_INVALID
by the meaning of COPY (R51). -/
def Card.instr (chain : Nat) (c : Card) : Instr :=
  match c.opcode with
  | 2 => .copyAead chain c
  | 3 => .fill chain c
  | 4 => if c.collOp = 2 then .bcast chain c else .post chain c
  | 5 => .sig chain c
  | _ => .copy chain c

end Sys2Proof

namespace Sys2Proof.Machine

/-! ## Queue slots and tickets (13 R216; 15 R265, R267) -/

/-- CE queue slots an owner holds on a core: chains, steep commands, racking migrations. -/
def State.slotsHeld (s : State) (owner core : Nat) : Nat :=
  (s.chains.filter (fun c => c.owner == owner && c.core == core && c.status.isNone)).length +
    (s.steeps.filter (fun j => j.owner == owner && j.core == core)).length +
    (s.rackings.filter (fun r => r.owner == owner && r.core == core)).length

def State.slotFree (s : State) (owner core : Nat) : Bool :=
  decide (s.slotsHeld owner core < (s.ownerOf owner).quotas.ceSlots)

/-- The last ticket an owner took on a core lies at key `core`; key 256 + core is 1 once they have wrapped. -/
def Owner.lastTicket (o : Owner) (core : Nat) : Word := o.tickets.get core
def Owner.wrapped (o : Owner) (core : Nat) : Bool := o.tickets.get (256 + core) != 0

/-- The next ticket; 0 is skipped (15 R265). -/
def nextTicket (t : Word) : Word := if t + 1 = 0 then 1 else t + 1

/-- How many tickets ago `t` was issued; none when it has not been issued. -/
def Owner.ticketAge (o : Owner) (core : Nat) (t : Word) : Option Nat :=
  let l := (o.lastTicket core).toNat
  if t = 0 then Option.none
  else if t.toNat ≤ l then some (l - t.toNat)
  else if o.wrapped core then some (l + 2 ^ 32 - 1 - t.toNat)
  else Option.none

def State.chainAt (s : State) (owner core : Nat) (t : Word) : Option Chain :=
  s.chains.find? (fun c => c.owner == owner && c.core == core && c.ticket == t.toNat)

/-- Chains whose tickets have expired are forgotten. -/
def State.pruneChains (s : State) (owner core : Nat) : State :=
  let o := s.ownerOf owner
  { s with chains := s.chains.filter (fun c =>
      !(c.owner == owner && c.core == core && c.status.isSome) ||
        (match o.ticketAge core (BitVec.ofNat 32 c.ticket) with | some a => decide (a < 1024) | _ => false)) }

/-- Submit the chain at `va` for the group in the issue slot (15 R265): it takes a ticket, and CEINJ when it
is armed (12 R212). Answers the chain's number and its ticket. -/
def State.submit (s : State) (va : DWord) (fork : Bool) (promReg : Option Nat) : State × Nat × Word :=
  let o := s.curOwner
  let core := s.curCore
  let t := nextTicket (o.lastTicket core)
  let inj := s.cur.ceinj
  let (cid, s1) := s.freshId
  let prev := (s.chains.filter (fun c => c.owner == o.id && c.core == core && c.status.isNone)).foldl
    (fun acc c => max acc c.cid) 0
  let c : Chain :=
    { cid, core, owner := o.id, grid := s.cur.grid, team := s.cur.team, ticket := t.toNat, first := va, card := va
      cards := 0, read := false, submitCyc := s.cyc, after := prev, promise := 0, missed := false, status := Option.none
      csum := 0, csumKind := 0, chainOut := false, runJ := 0, word := 0
      inj := if inj.getLsbD 31 then some ((inj.toNat / 2 ^ 26) % 32, inj.toNat % 2 ^ 26) else Option.none
      fork, raised := 0, group := s.cur.gid, promReg, waitPage := false, deck := [], readAt := va, raw := [], cost := 0
      deckEnd := Option.none, seq := s.freeCtr, stopped := false, prog := Option.none }
  let s2 := s1.modOwner o.id (fun o => { o with
    tickets := (o.tickets.set core t).set (256 + core) (if t.toNat < (o.lastTicket core).toNat then 1 else o.tickets.get (256 + core)) })
  let s3 := { s2 with chains := s2.chains ++ [c], cur := { s2.cur with ceinj := inj &&& 0x7FFFFFFF } }
  (s3.pruneChains o.id core, cid, t)

def execCpy (h : Hdr) (d a : Nat) (s : State) : Out :=
  .next (
    if !(d % 2 == 1 && s.cur.sOk d 3 && s.cur.sPairOk a) then s.raiseWord .illegalReg
    else if !(s.uguard h) then s.goOn s.cur.iss 4
    else
      let va := s.cur.spair a
      s.named va (
        if !(s.slotFree s.cur.owner s.curCore) then s.waitFor s.cur.iss .ceSlot
        else
          let (s1, _, t) := s.submit va false (some (d + 1))
          (s1.modCur (fun g => g.setS d t)).goOn s.cur.iss 4))

/-- The chain's promise has passed without its end (15 R267). -/
def Chain.late (c : Chain) (cyc : DWord) : Bool := c.read && decide (c.promise.toNat < cyc.toNat)

/-- The core that gave the ticket a `CPYW` names: the one at which its lanes began to wait, be it another after a restore (19
R348), else the group's. -/
def State.cpyCore (s : State) : Nat :=
  match s.cur.iss.lanes.find? (fun i => s.cur.cpyAt.get i != 0) with
  | some i => (s.cur.cpyAt.get i).toNat - 1
  | none => s.curCore

/-- `CPYW` (15 R267). -/
def execCpyw (h : Hdr) (d a : Nat) (s : State) : Out :=
  .next (
    if !(s.cur.sOk d 1 && s.cur.sOk a 1) then s.raiseWord .illegalReg
    else if !(s.uguard h) then s.goOn s.cur.iss 4
    else
      let t := s.cur.sreg a
      let core := s.cpyCore
      let put := fun (x : Nat) => (s.modCur (fun g => { (g.setS d (BitVec.ofNat 32 x)) with
        cpyAt := g.cpyAt.setMany 0 g.iss.has (fun _ => 0) 64 })).goOn s.cur.iss 4
      let waits := fun (u : State) => u.modCur (fun g => { g with cpyAt := g.cpyAt.setMany 0 g.iss.has (fun _ => BitVec.ofNat 16 (core + 1)) 64 })
      match s.curOwner.ticketAge core t with
      | none => put 10
      | some age =>
        if 1024 ≤ age then put 11
        else match s.chainAt s.cur.owner core t with
          | none => put 11
          | some c =>
            match c.status with
            | some st => put st
            | none =>
              if c.late s.cyc && !c.missed then
                (waits (s.modChain c.cid (fun c => { c with missed := true }))).raiseWord .promiseMissed
              else (waits s).waitFor s.cur.iss (.chain core t.toNat))

/-- PROMISE_MISSED: lanes that wait at a `CPYW` whose promise passes are raised (15 R267). Held lanes issue nothing, and nothing
is raised for a halted owner (01 R11; 18 R320; 19 R348). The rules leave open whether a promise that passes while its group waits for a
trap's record (20 R353) raises at once: the model raises it. DESIGN CHOICE, log entry 37. -/
def execPromiseMissed (gid : Nat) (s : State) : Out :=
  .next (
    match s.groupOf gid with
    | none => s
    | some g =>
      match g.waits.find? (fun w => w.lanes &&& ~~~g.held != 0 && match w.cond with
          | .chain core t => (match s.chainAt g.owner core (BitVec.ofNat 32 t) with
              | some c => c.status.isNone && c.late s.cyc && !c.missed
              | none => false)
          | _ => false) with
      | none => s
      | some w =>
        if (s.ownerOf g.owner).halt.isSome then s
        else
        let (core, t) := (match w.cond with | .chain core t => (core, t) | _ => (0, 0))
        let up := w.lanes &&& ~~~g.held
        let s1 := { s with chains := s.chains.map (fun (c : Chain) =>
          if c.owner == g.owner && c.core == core && c.ticket == t then { c with missed := true } else c) }
        -- the group in question stands in the issue slot while the cause is taken
        s1.onGroup gid (fun u =>
          (u.modCur (fun g => { g with
            iss := up, ipc := g.pc.get up.low, inRun := false
            waits := (g.waits.map (fun x => if x = w then { x with lanes := x.lanes &&& ~~~up } else x)).filter (fun x => x.lanes != 0) })).raiseWord .promiseMissed))

/-! ## Accesses of a card -/

/-- What one access of a card meets (15 R275). -/
inductive CardAcc where
  | ok (key : Nat)
  | zero
  | dead               -- the owner's host path is closed: reads poisoned, writes discarded (13 R218)
  | wait (page : Option Nat)
  | stop (status : Nat)
  deriving DecidableEq, Repr

/-- The peer device a peer page's frame names. -/
def State.peerAt (s : State) (owner core : Nat) (va : DWord) : Option Nat :=
  let o := s.ownerOf owner
  match o.entry core (va.toNat / 65536) with
  | some e => if isPeerPa (e.key va.toNat) then o.peerOf (e.key va.toNat) else none
  | none => none

/-- An engine access for an owner with the team's windows, for work of a grid. What a CE, an ME or the CP reads from the host comes in the
step that reads it, so that no such request is outstanding at a key switch or times out on its own; one that the host answers with an error
or not at all is the upset `hostError` of that step (22 R387, R390). DESIGN CHOICE, log entry 11. -/
def State.engAcc (s : State) (owner core grid : Nat) (tm : Team) (m : Mode) (va : DWord) : CardAcc :=
  match s.engXlate owner tm core m va with
  | .ok k => .ok k
  | .zero => .zero
  | .miss => if s.walkless owner grid then .stop 7 else .wait (some (va.toNat / 65536))
  | .page => .stop 7
  | .fence => .stop 6
  | .dead => if (s.peerAt owner core va).isSome then .stop 3 else .dead
  | .wait => .wait none

def State.cardAcc (s : State) (c : Chain) (m : Mode) (va : DWord) : CardAcc :=
  s.engAcc c.owner c.core c.grid (s.teamOf c.team) m va

/-- Bytes read for the CE: the first access that cannot be made decides. -/
inductive CardRead where
  | got (bytes : List Byte) (poison : Bool)
  | wait (page : Option Nat)
  | stop (status : Nat) (va : DWord)
  deriving DecidableEq, Repr

def State.cardBytes (s : State) (c : Chain) (va : DWord) : Nat → CardRead
  | 0 => .got [] false
  | n + 1 =>
    match s.cardAcc c .read va with
    | .wait p => .wait p
    | .stop st => .stop st va
    | x =>
      match s.cardBytes c (va + 1) n with
      | .got bs p =>
        (match x with
         | .ok k => .got (s.mem.get k :: bs) (p || s.badRead k 1)
         | .dead => .got (0 :: bs) true
         | _ => .got (0 :: bs) p)
      | r => r

/-- Queue what a waiting or ending card needs (15 R275): a miss, or a page request. A card that waits for a path, a port or the end of a
racking asks for nothing and tries again. -/
def State.cardWants (s : State) (c : Chain) (va : DWord) (write : Bool) : CardAcc → State
  | .wait (some p) =>
      (s.queueMiss c.owner (engineMiss c.core (4 * c.core) p c.grid write)).modChain c.cid (fun c => { c with waitPage := true })
  | .stop 6 => s.logViolation { cyc := s.cyc, addr := va, target := s.fenceTarget (s.teamOf c.team) va
                                requester := requester 3 c.core 0, reqOwner := c.owner, reason := 1 }
  | .stop 7 => if va.toNat < sramBase then s.queueRequest c.owner (engineMiss c.core (4 * c.core) (va.toNat / 65536) c.grid write) else s
  | _ => s

/-- The CE has read bytes of the chain's (22 R417). -/
def State.cardTraffic (s : State) (c : Chain) (va : DWord) (n : Nat) : State :=
  (pageParts va n).foldl (fun (t : State) x => match t.cardAcc c .read x.1 with
    | .ok k => t.traffic c.owner k x.2 c.core (x.1.toNat / 65536)
    | _ => t) s

/-! ## Reading a card -/

/-- A card read at its address: decoded, or the status that ends the chain, with the card when its shape record gives that, or a wait. -/
inductive CardStep where
  | run (s : State) (c : Card)
  | wait (s : State)
  | stop (s : State) (status : Nat) (c : Option Card)

/-- The 128 bytes of a card at a key: each aligned 8-byte word that was written since the chain was submitted is read old or
new (03 R49). `i` numbers the card in its chain. -/
def State.cardSeen (s : State) (ch : Chain) (i k : Nat) : List Byte :=
  (List.range 16).flatMap (fun w =>
    (List.range 2).flatMap (fun h =>
      let new := Memory.bytes s.mem (k + 8 * w + 4 * h) 4
      match s.heldBefore ch.seq (k / 4 + 2 * w + h) with
      | some old => if Config.freeBit s.freeCtr 400004 (16 * i + w) then leBytes 4 old.toNat else new
      | none => new))

/-- A chain-in card that does not fit its predecessor, or a malformed card (03 R51; 12 R213). -/
def Chain.refuses (ch : Chain) (c : Card) : Bool :=
  c.bad || (c.chainIn && (!ch.chainOut || ch.csumKind != c.csumKind || ch.cards == 0))

/-- Reading that cannot go on: the wait or the status, with the card when it has been read. -/
def State.readFails (s : State) (ch : Chain) (va : DWord) (c : Option Card) : CardRead → CardStep
  | .wait p => .wait (s.cardWants ch va false (.wait p))
  | .stop st a => .stop (s.cardWants ch a false (.stop st)) st c
  | .got _ _ => .wait s

/-- The address of a card's shape record, in its 128 bytes. -/
def shapeAt (bs : List Byte) : DWord := BitVec.ofNat 64 (leField bs 0x18 8)

/-- The shape record of a card read as `bs`, when nothing else is wrong with it (03 R50, R51; 15 R275). -/
def State.fetchShape (s : State) (ch : Chain) (bs : List Byte) : CardStep :=
  let bare := decodeCard ch.card bs ⟨[], [], [], [], true⟩
  let alone := decodeCard ch.card bs ⟨[1], [0], [0], [0], false⟩
  let sh := shapeAt bs
  if ch.refuses alone ∨ alone.opcode = 5 then
    .run s { alone with bad := ch.refuses alone, extents := [], srcStrides := [], dstStrides := [], perm := [] }
  else match s.cardBytes ch sh 8 with
    | .got hd true => .stop (s.cardTraffic ch sh 8) 8 (some bare)
    | .got hd false =>
      let n := shapeDims hd
      if n = 0 ∨ 16 < n then .run (s.cardTraffic ch sh 8) bare
      else (match s.cardBytes ch sh (16 + 24 * n) with
        | .got rs true => .stop (s.cardTraffic ch sh (16 + 24 * n)) 8 (some bare)
        | .got rs false => .run (s.cardTraffic ch sh (16 + 24 * n)) (decodeCard ch.card bs (decodeShape rs))
        | r => s.readFails ch sh (some bare) r)
    | r => s.readFails ch sh (some bare) r

/-- Read the card at `ch.card`, once, then its shape record (03 R49-R51; 15 R275). -/
def State.fetchCard (s : State) (ch : Chain) : CardStep :=
  if ch.card.toNat % 128 ≠ 0 then .run s (decodeCard ch.card (List.replicate 128 0) ⟨[], [], [], [], true⟩)
  else if ch.raw ≠ [] then s.fetchShape ch ch.raw
  else match s.cardBytes ch ch.card 128 with
    | .got bs true => .stop (s.cardTraffic ch ch.card 128) 8 none
    | .got bs false =>
      let bs := match s.cardAcc ch .read ch.card with
        | .ok k => s.cardSeen ch ch.cards k
        | _ => bs
      ((s.cardTraffic ch ch.card 128).modChain ch.cid (fun c => { c with raw := bs })).fetchShape ch bs
    | r => s.readFails ch ch.card none r

/-! ## The end of a card (15 R264, R268, R273) -/

def State.endChain (s : State) (cid st : Nat) : State := s.modChain cid (fun c => { c with status := some st, prog := none })

/-- A card ends with a status: the chain ends, or moves to its next card. -/
def State.endCard (s : State) (cid : Nat) (c : Card) (st : Nat) : State :=
  if st ≠ 0 then s.endChain cid st
  else
    let s1 := s.modChain cid (fun ch => { ch with
      raised := if c.signal = 0 then ch.raised else ch.raised ||| BitVec.ofNat 8 (2 ^ (c.signal - 1))
      card := c.next, cards := ch.cards + 1, prog := none })
    if c.next = 0 then s1.endChain cid 0 else s1

/-! ## Streams (15 R269) -/

/-- The byte of the card's stream that CEINJ flips, and its mask (12 R212). -/
def Chain.flip (ch : Chain) : Option (Nat × Byte) :=
  match ch.inj with
  | some (bit, w) => if ch.word ≤ w then some (4 * (w - ch.word) + bit / 8, BitVec.ofNat 8 (2 ^ (bit % 8))) else none
  | none => none

/-- Stream bytes at position `pos` after the flip. -/
def Chain.inject (ch : Chain) (pos : Nat) (bs : List Byte) : List Byte :=
  match ch.flip with
  | some (p, m) => (List.range bs.length).zipWith (fun i b => if pos + i = p then b ^^^ m else b) bs
  | none => bs

/-- Words of 32 bits of a padded stream. -/
def words4 : Nat → List Byte → List Nat
  | 0, _ => []
  | n + 1, bs => leNat (bs.take 4) :: words4 n (bs.drop 4)

/-- WSUM32 over words from index `j` (15 R274). -/
def wsum32 : Word → Nat → List Nat → Word
  | c, _, [] => c
  | c, j, w :: ws => wsum32 (c + (BitVec.ofNat 32 w ^^^ BitVec.ofNat 32 j)) (j + 1) ws

/-- A checksum of a kind over the bytes as they stand, words completed with zeros (12 R213; 15 R278). -/
def checksum (kind : Nat) (c : Word) (j : Nat) (bs pad : List Byte) : Word :=
  match kind with
  | 1 => crc32c c bs
  | 2 => wsum32 c j (words4 ((bs.length + 3) / 4) (bs ++ pad))
  | _ => c

/-- Zero bytes that complete the last word, with a flip that falls into them (12 R212). -/
def Chain.padding (ch : Chain) (n : Nat) : List Byte := ch.inject n (List.replicate ((4 - n % 4) % 4) 0)

/-- The chain's run after a card's stream: running value, word index, CEINJ words (12 R213). -/
def Chain.sum (ch : Chain) (c : Card) (stream : List Byte) : Chain :=
  let n := (stream.length + 3) / 4
  { ch with csum := checksum c.csumKind ch.csum ch.runJ stream (ch.padding stream.length)
            runJ := ch.runJ + n, word := ch.word + n, csumKind := c.csumKind, chainOut := c.chainOut }

/-- A card without chain-in starts a checksum run; one with it continues its predecessor's (12 R213). A compare card that starts a
run has one field for the seed of R213 and the expected value of R49: it is both. DESIGN CHOICE, log entry 37. -/
def Chain.start (ch : Chain) (c : Card) : Chain := if c.chainIn then ch else { ch with csum := c.csum, runJ := 0 }

/-- The end of a card whose stream was moved whole: the run is advanced, then compared (12 R213). -/
def State.finishStream (s : State) (cid : Nat) (c : Card) (stream : List Byte) : State :=
  match s.chainOf cid with
  | none => s
  | some ch =>
    let ch1 := (ch.start c).sum c stream
    let s1 := s.modChain cid (fun _ => ch1)
    s1.endCard cid c (if c.compare && ch1.csum != c.csum then 2 else 0)

/-! ## The dependence scheduler (13 R235, R236) -/

/-- The bytes of a steep command's word range. -/
def SteepJob.words (j : SteepJob) : Nat := j.cmd.toNat / 4096 % 16384 + 1

/-- Footprints of a steep command (13 R236). -/
def SteepJob.prints (j : SteepJob) : List Footprint :=
  let base := j.va.toNat
  let n := 4 * j.words
  match j.cmd.toNat / 2 ^ 27 with
  | 1 | 3 | 6 => [⟨2, base, n⟩]
  | 2 | 4 => [⟨3, base, n⟩]
  | 5 =>
      let w := 4 * j.operand.toNat
      let cnt := j.cmd.toNat / 16 % 256
      [⟨2, base, w⟩, ⟨1, base + w, w * cnt⟩, ⟨2, base + w * (cnt + 1), n - w * (cnt + 1)⟩]
  | _ => [⟨1, base, n⟩]

/-- No earlier unfinished job of the same owner and core has an edge to these footprints. A chain that the CE has not read yet
holds every later job back. -/
def State.dsClear (s : State) (owner core id : Nat) (fps : List Footprint) : Bool :=
  let free := fun (gs : List Footprint) => gs.all (fun g => fps.all (fun f => !(g.edge f)))
  (s.chains.all (fun c =>
    !(c.owner == owner && c.core == core && c.status.isNone && decide (c.cid < id)) ||
      (c.read && (c.deck.drop c.cards).all (fun k => free k.footprints)))) &&
  (s.steeps.all (fun j => !(j.owner == owner && j.core == core && decide (j.jid < id)) || free j.prints))

/-- A DS edge holds a chain's next card back. -/
def State.cardHeld (s : State) (ch : Chain) : Bool :=
  ch.read && (match ch.deck[ch.cards]? with
    | some c => !(s.dsClear ch.owner ch.core ch.cid c.footprints)
    | none => false)

/-- The jobs of a halted owner that a DS edge held back in a state, steep commands and cards, stay queued in the one that follows (18
R316). -/
def State.holdJobs (s : State) (owner : Nat) (t : State) : State :=
  if (s.ownerOf owner).halt.isNone then t
  else { t with
    steeps := t.steeps.map (fun j => if j.owner = owner ∧ s.dsClear j.owner j.core j.jid j.prints = false then { j with held := true } else j)
    chains := t.chains.map (fun (ch : Chain) =>
      if ch.owner = owner ∧ ch.status.isNone ∧ s.cardHeld ch = true then { ch with stopped := true } else ch) }

/-! ## Promises (15 R266) -/

/-- The address names a byte of an SRAM window: a slice of the team-local window, or a core's part of the global one (13
R219). -/
def inWindow (va : DWord) : Bool :=
  let a := va.toNat
  if a < sramBase ∨ vaTop ≤ a then false
  else if a < globalBase then
    decide (a - sramBase < 0x300000) || (decide (0x400000 ≤ a - sramBase) && decide (a - sramBase < 0x700000))
  else decide ((a - globalBase) / 0x400000 < 256) && decide ((a - globalBase) % 0x400000 < 0x300000)

/-- The path of an address for its cost: 0 scratch, 1 DRAM, 2 host, 3 peer; host for an address whose translation the CE
does not hold: no entry, or one that names no frame for an access (19 R325; 13 R224). -/
def State.costPath (s : State) (owner core : Nat) (va : DWord) : Nat :=
  if inWindow va then 0
  else if sramBase ≤ va.toNat then 2
  else match (s.ownerOf owner).entry core (va.toNat / 65536) with
    | some e =>
        let k := e.key va.toNat
        if e.ord = 3 ∨ e.st = .absent then 2 else if isPeerPa k then 3 else if isHostKey k then 2 else 1
    | none => 2

/-- base + ⌈bytes / rate⌉ of a path; a rate is at least 1 B/clk. -/
def pathCost (path bytes share : Nat) : Nat :=
  let up := fun a b => (a + b - 1) / b
  match path with
  | 0 => 16 + up bytes 128
  | 1 => 64 + up bytes 64
  | 2 => 256 + (if 88 * share < 256 then bytes else up (bytes * 256) (88 * share))
  | _ => 64 + (if 128 * share < 256 then bytes else up (bytes * 256) (128 * share))

/-- Cost of one side of a card: the sum over the paths its elements fall on. -/
def State.sideCost (s : State) (owner core share es : Nat) (vas : List DWord) : Nat :=
  let ps := vas.map (s.costPath owner core)
  ((List.range 4).map (fun p =>
    let n := (ps.filter (· == p)).length
    if n = 0 then 0 else pathCost p (n * es) share)).sum

/-- A collective group descriptor (15 R283). -/
structure CollDesc where
  version : Nat
  count : Nat
  rank : Nat
  stride : Nat
  base : DWord
  wstride : DWord
  arrival : Nat
  log : DWord
  devs : List Nat
  flags : List Nat
  bad : Bool
  deriving DecidableEq, Repr

def collDesc (bs : List Byte) : CollDesc :=
  let n := leField bs 4 4
  let fl := (List.range n).map (fun r => leField bs (0x44 + 8 * r) 4)
  { version := leField bs 0 4, count := n, rank := leField bs 8 4, stride := leField bs 0xC 4
    base := BitVec.ofNat 64 (leField bs 0x10 8), wstride := BitVec.ofNat 64 (leField bs 0x18 8)
    arrival := leField bs 0x20 8, log := BitVec.ofNat 64 (leField bs 0x28 8)
    devs := (List.range n).map (fun r => leField bs (0x40 + 8 * r) 4), flags := fl
    bad := n == 0 || decide (65536 < n) || decide (n ≤ leField bs 8 4) || leField bs 0xC 4 == 0 || leField bs 0xC 4 % 64 != 0
      || leField bs 0x18 8 % 65536 != 0 || leField bs 0x20 8 % 4 != 0 || leField bs 0x28 8 % 256 != 0
      || leField bs 0x30 16 != 0 || fl.any (fun f => decide (2 ≤ f)) }

/-- Read a collective descriptor: its header first, then as many members as it counts. -/
def State.readDesc (s : State) (ch : Chain) (va : DWord) : CardRead :=
  match s.cardBytes ch va 64 with
  | .got bs p =>
    let n := leField bs 4 4
    if n = 0 ∨ 65536 < n then .got bs p
    else s.cardBytes ch va (64 + 8 * n)
  | r => r

/-- Where member `r` receives a COLL stream (15 R284). -/
def CollDesc.target (d : CollDesc) (c : Card) (r : Nat) : DWord :=
  d.base + d.wstride * BitVec.ofNat 64 r + c.dest + (if c.collOp = 1 then BitVec.ofNat 64 (d.rank * d.stride) else 0)

/-- cost(card) of R266. -/
def State.cardCost (s : State) (ch : Chain) (c : Card) : Nat :=
  let share := (s.ownerOf ch.owner).quotas.linkShare
  let w := c.walk
  let src := s.sideCost ch.owner ch.core share c.esize (w.map c.srcVa)
  let dst := s.sideCost ch.owner ch.core share c.esize (w.map c.dstVa)
  match c.opcode with
  | 2 => max src dst + 64
  | 3 => dst
  | 4 =>
      (match s.readDesc ch c.collective with
       | .got bs _ =>
          let d := collDesc bs
          if d.bad then 0
          else ((List.range d.count).filter (fun r => d.flags.getD r 0 == 0)).map (fun r =>
            s.sideCost ch.owner ch.core share 1 ((List.range c.bytes).map (fun i => d.target c r + BitVec.ofNat 64 i))) |>.sum
       | _ => 0)
  | 5 => 16
  | _ => max src dst

/-- The chain as it stands before the card it reads next. -/
def Chain.reading (ch : Chain) : Chain :=
  { ch with card := ch.readAt, cards := ch.deck.length
            chainOut := (ch.deck.getLast?.map (·.chainOut)).getD false, csumKind := (ch.deck.getLast?.map (·.csumKind)).getD 0 }

/-- What a card's cost waits for: the descriptor of a COLL card. -/
def State.descOf (s : State) (ch : Chain) (c : Card) : CardRead :=
  if c.opcode = 4 then s.readDesc ch c.collective else .got [] false

/-- The descriptor of a COLL card has been read. -/
def State.descTraffic (s : State) (ch : Chain) (c : Card) : State :=
  match s.descOf ch c with
  | .got bs _ => s.cardTraffic ch c.collective bs.length
  | _ => s

/-- Read on through a chain, each card once, up to a number of cards: the cards and the sum of their costs (03 R49; 15 R266). A
card that is CARD_INVALID or cannot be read ends the reading; a COLL card whose shape record cannot be read stands in the deck as one
that its ending has to log (15 R286). Answers whether it has come to its end. -/
def State.readChain (s : State) (cid : Nat) : Nat → State × Bool
  | 0 => (s, true)
  | n + 1 =>
    match s.chainOf cid with
    | none => (s, true)
    | some ch =>
      if ch.deckEnd.isSome ∨ (ch.readAt = 0 ∧ ch.deck ≠ []) then (s, true)
      else match s.fetchCard ch.reading with
        | .wait t => (t, false)
        | .stop t st c => (t.modChain cid (fun x => { x with
            deckEnd := some st, deck := x.deck ++ (c.toList.filter (fun c => c.opcode == 4)) }), true)
        | .run t c =>
          if ch.reading.refuses c then (t.modChain cid (fun x => { x with deck := x.deck ++ [c], readAt := 0, raw := [] }), true)
          else match t.descOf ch c with
            | .wait p => (t.cardWants ch c.collective false (.wait p), false)
            | _ => ((t.descTraffic ch c).modChain cid (fun x => { x with
                deck := x.deck ++ [c], readAt := c.next, raw := [], cost := x.cost + t.cardCost ch c })).readChain cid n

/-- The promise reaches the submitting group's registers. -/
def State.writePromise (s : State) (ch : Chain) (p : DWord) : State :=
  match ch.promReg with
  | some r => s.modGid ch.group (fun g => g.setSPair r p)
  | none => s

/-- PROMISE: the CE has read the chain (15 R266); a chain of more than 65,536 cards ends (R264). -/
def execPromise (chain : Nat) (s : State) : Out :=
  .next (
    match s.chainOf chain with
    | none => s
    | some ch =>
      if ch.read || ch.status.isSome then s
      else
        let base := match s.chainOf ch.after with
          | some u => if u.read || u.status.isSome then some u.promise else none
          | none => some 0
        match base with
        | none => s
        | some pu =>
          let (t, done) := s.readChain chain (65536 - ch.deck.length)
          if !done then t
          else match t.chainOf chain with
            | none => t
            | some c =>
              let p := BitVec.ofNat 64 (max c.submitCyc.toNat pu.toNat + c.cost)
              let t1 := (t.writePromise c p).modChain chain (fun x => { x with read := true, promise := p, promReg := none, waitPage := false })
              if c.readAt ≠ 0 ∧ c.deckEnd = none then t1.endChain chain 17 else t1)

/-! ## Cards -/

/-- A card begins: it is well formed and fits its chain, no DS edge holds it back, and the chain has been
read; else nothing happens yet, or the chain ends. -/
def State.cardGo (s : State) (chain : Nat) (c : Card) (f : Chain → State) : State :=
  match s.chainOf chain with
  | none => s
  | some ch =>
    if ch.status.isSome || !ch.read || (s.ownerOf ch.owner).halt.isSome then s
    else if ch.refuses c then s.endChain chain 1
    else if !(s.dsClear ch.owner ch.core ch.cid c.footprints) then s
    else f ch

def CardAcc.passes : CardAcc → Bool
  | .ok _ => true
  | .zero => true
  | .dead => true
  | _ => false

/-- The address lies on an SO page: each access of a card there is performed in stream order (13 R224; 15 R275). -/
def State.onSo (s : State) (ch : Chain) (va : DWord) : Bool :=
  decide (va.toNat < sramBase) &&
    (match (s.ownerOf ch.owner).entry ch.core (va.toNat / 65536) with | some e => e.ord == 2 | none => false)

/-- A card at its start. -/
def State.progOf (s : State) (ch : Chain) : Prog :=
  ch.prog.getD { pos := 0, data := [], written := [], before := [], wrote := [], desc := [], out := 0, st := 0, ending := none, held := []
                 ivUsed := false }

/-- An address of the card lies on an SO page that the CE can see. -/
def State.cardOnSo (s : State) (ch : Chain) (c : Card) : Bool :=
  c.walk.any (fun e => s.onSo ch (c.dstVa e) || (c.opcode != 3 && s.onSo ch (c.srcVa e)))

/-- The accesses that are still to come: a card with an address on an SO page makes them in stream order (13 R224; 15 R275). -/
def State.movesLeft (s : State) (ch : Chain) (c : Card) (p : Prog) : List CardMove :=
  (if s.cardOnSo ch c then c.inOrder else c.moves).filter (fun m => match m with
    | .rd i => !(p.data.any (·.1 == i))
    | .wr i => !(p.written.contains i))

/-- A byte as an element reads it: one that the card has written is the old or the new one (15 R269). -/
def State.byteSeen (s : State) (p : Prog) (old : Bool) (k : Nat) : Byte :=
  match p.before.find? (·.1 == k) with
  | some x => if old then x.2 else s.mem.get k
  | none => s.mem.get k

/-- Bytes that a write is about to change for the first time, as they are. -/
def State.bytesBefore (s : State) (p : Prog) (k n : Nat) : List (Nat × BitVec 8) :=
  (((List.range n).map (k + ·)).filter (fun x => !(p.before.any (·.1 == x)))).map (fun x => (x, s.mem.get x))

/-- Element `i` as it was read. -/
def Prog.elem (p : Prog) (i : Nat) : List Byte × Bool := (findD (·.1 == i) (i, [], false) p.data).2

/-- The stream of the elements read, each byte with its poison, in walk order. -/
def Prog.stream (p : Prog) (n : Nat) : List (Byte × Bool) :=
  (List.range n).flatMap (fun i => (p.elem i).1.map (fun b => (b, (p.elem i).2)))

/-- An access of a card is made, or what it meets with its address, and whether it writes. -/
inductive Adv where
  | on (s : State) (p : Prog)
  | off (x : CardAcc) (va : DWord) (write : Bool)

/-- One access of a COPY or FILL card (15 R269, R271): an element is read and flipped, or written. A byte that the card has written is
read old or new, and the last of two writes of one byte stands, or does not: free choices, but on an SO page. Of poisoned source data the
checksum sums the bytes that memory holds, zeros where the path is closed: the rules give no bytes (12 R213; 13 R223). DESIGN CHOICE, log
entry 37. -/
def State.copyMove (s : State) (ch : Chain) (c : Card) (fill : Bool) (p : Prog) : CardMove → Adv
  | .rd i =>
    let n := c.esize
    let va := c.srcVa (c.walk.getD i (0, 0))
    let got := fun (t : State) (bs : List Byte) (bad : Bool) =>
      Adv.on t { p with pos := p.pos + 1, data := (i, ch.inject (n * i) bs, bad) :: p.data }
    if fill then got s (leBytes n c.source.toNat) false
    else match s.cardAcc ch .read va with
      | .ok k =>
          let old := Config.freeBit s.freeCtr 400000 i && !(s.onSo ch va)
          got (s.traffic ch.owner k n ch.core (va.toNat / 65536)) ((List.range n).map (fun j => s.byteSeen p old (k + j))) (s.badRead k n)
      | .zero => got s (List.replicate n 0) false
      | .dead => got s (List.replicate n 0) true
      | x => .off x va false
  | .wr i =>
    let n := c.esize
    let e := c.walk.getD i (0, 0)
    let va := c.dstVa e
    let (bs, bad) := p.elem i
    let q := { p with pos := p.pos + 1, written := i :: p.written }
    match s.cardAcc ch .write va with
    | .ok k =>
      let q := { q with before := s.bytesBefore p k n ++ p.before }
      let s := s.traffic ch.owner k n ch.core (va.toNat / 65536)
      let dup := p.written.any (fun j => (c.walk.getD j (0, 0)).2 == e.2)
      let s := if dup && Config.freeBit s.freeCtr 400002 i && !(s.onSo ch va) then s else (s.writeKey k bs).markRacking ch.owner k n
      .on (if bad then s.poisonRange k n else s) { q with wrote := if bad then p.wrote else (k, n) :: p.wrote }
    | .dead => .on s q
    | x => .off x va true

/-- Accesses of a card one after the other, up to the first that cannot be made. -/
def State.copyRun (s : State) (ch : Chain) (c : Card) (fill : Bool) (p : Prog) : List CardMove → State × Prog × Option (CardAcc × DWord × Bool)
  | [] => (s, p, none)
  | m :: ms =>
    match s.copyMove ch c fill p m with
    | .on t q => t.copyRun ch c fill q ms
    | .off x va w => (s, p, some (x, va, w))

/-- The card waits, and goes on from where it is (15 R275). -/
def State.cardWaits (s : State) (ch : Chain) (p : Prog) (x : CardAcc) (va : DWord) (write : Bool) : State :=
  ((s.clearCovered p.wrote).cardWants ch va write x).modChain ch.cid (fun c => { c with prog := some p })

/-- A COPY or FILL card. -/
def State.copyCard (s : State) (chain : Nat) (c : Card) (fill : Bool) : State :=
  s.cardGo chain c (fun ch =>
    if c.misaligned fill then s.endCard chain c 9
    else
      let p := s.progOf ch
      match s.copyRun ch c fill p (s.movesLeft ch c p) with
      | (t, q, some (.stop st, va, wr)) => ((t.clearCovered q.wrote).cardWants ch va wr (.stop st)).endCard chain c st
      | (t, q, some (x, va, wr)) => t.cardWaits ch q x va wr
      | (t, q, none) => (t.clearCovered q.wrote).finishStream chain c ((q.stream c.walk.length).map (·.1)))

def execCopy (chain : Nat) (c : Card) (s : State) : Out := .next (s.copyCard chain c false)
def execFill (chain : Nat) (c : Card) (s : State) : Out := .next (s.copyCard chain c true)

/-- SIG moves no data (15 R273). -/
def execSig (chain : Nat) (c : Card) (s : State) : Out :=
  .next (s.cardGo chain c (fun _ => s.finishStream chain c []))

/-! ### COPY.AEAD (15 R272; 21 R372, R373) -/

def State.keySlot (s : State) (n : Nat) : KeySlot := findD (·.num == n) ⟨n, 0, 0, 0, 0, none⟩ s.keys
def State.modKey (s : State) (n : Nat) (f : KeySlot → KeySlot) : State := { s with keys := modD (·.num == n) ⟨n, 0, 0, 0, 0, none⟩ f s.keys }

/-- The page of an address is on the owner's host path: host memory, or a peer's (13 R229). -/
def State.onHostPath (s : State) (ch : Chain) (va : DWord) : Bool :=
  decide (va.toNat < sramBase) &&
    (match (s.ownerOf ch.owner).entry ch.core (va.toNat / 65536) with
     | some e => isHostKey (e.key va.toNat) || isPeerPa (e.key va.toNat)
     | none => false)

/-- The translation of an address whose path, or the port before it, the access itself has to wait for. -/
def State.keyBehind (s : State) (ch : Chain) (m : Mode) (va : DWord) : Option Nat :=
  let o := s.ownerOf ch.owner
  match s.xlate o (s.teamOf ch.team) ch.core m va with
  | .ok k => some k
  | .hostWait => (o.entry ch.core (va.toNat / 65536)).map (fun e => e.key va.toNat)
  | _ => none

/-- An access as a sealed card's check finds it (21 R372), or what ends the card or holds it. A destination on the host path is refused,
whether that path flows or not. Of a source or tag only the translation counts here: a path that does not flow yet is waited for after the
IV, and a lost peer's read comes after it too. -/
def State.aeadHolds (s : State) (ch : Chain) (va : DWord) (write : Bool) : Held ⊕ CardAcc :=
  let m := if write then Mode.write else Mode.read
  match s.cardAcc ch m va with
  | .stop 7 => .inr (.stop 7)
  | .wait (some p) => .inr (.wait (some p))
  | x =>
    if write && s.onHostPath ch va then .inr (.stop 6)
    else match x with
      | .ok k => .inl (.at k)
      | .zero => .inl .zero
      | .dead => .inl .dead
      | .stop 3 => .inl .lost
      | .wait none => (match s.keyBehind ch m va with
          | some k => .inl (.at k)
          | none => .inr (.wait none))
      | x => .inr x

/-- The check of the addresses that are still to come; `held` is what those before have met, the latest first. -/
def State.aeadCheck (s : State) (ch : Chain) (p : Prog) : List (DWord × Bool) → Prog × Option (CardAcc × DWord × Bool)
  | [] => (p, none)
  | (va, w) :: l =>
    match s.aeadHolds ch va w with
    | .inl h => s.aeadCheck ch { p with pos := p.pos + 1, held := h :: p.held } l
    | .inr x => (p, some (x, va, w))

/-- Bytes under a translation that a sealed card holds: what has become of the path since counts (15 R272; 21 R375). -/
def State.heldBytes (s : State) (o : Owner) (n : Nat) : Held → List Byte × Bool
  | .at k => (Memory.bytes s.mem k n, s.badRead k n || (isHostKey k && o.tdi == .error))
  | .zero => (List.replicate n 0, false)
  | _ => (List.replicate n 0, true)

/-- Data under a held translation cannot come yet: the host path does not flow, or a port lacks the owner's key (22 R378, R387). -/
def State.heldWaits (s : State) (ch : Chain) : Held → Bool
  | .at k => (isHostKey k && ((s.ownerOf ch.owner).tdi == .unlocked || (s.ownerOf ch.owner).tdi == .locked)) || (s.shutPort ch.owner ch.core k).isSome
  | _ => false

/-- The peer of a held translation is lost (15 R282). -/
def State.heldLost (s : State) (o : Owner) : Held → Bool
  | .at k => isPeerKey k && s.lostFor o ((k - peerBase) / 2 ^ 32 % 2 ^ 32)
  | .lost => true
  | _ => false

def Held.key : Held → Nat
  | .at k => k
  | _ => 0

/-- What a sealed card writes, as the key and the bytes of each write in order, with its status and the stream: the plaintext; then,
when the tag cannot be checked or differs, zeros over all of it (15 R272). Every source byte is read before the first write: an element
whose source overlaps the destination reads the old value, as R269 allows. DESIGN CHOICE, log entry 37. -/
def State.sealedWrites (s : State) (ch : Chain) (c : Card) (held : List Held) : List (Nat × List Byte) × List (Nat × List Byte) × Nat × List Byte :=
  let o := s.ownerOf ch.owner
  let n := c.esize
  let m := c.walk.length
  let src := (List.range m).map (fun i => s.heldBytes o n (held.getD (2 * i) .zero))
  let dst := (List.range m).map (fun i => (held.getD (2 * i + 1) .zero).key)
  let tag := s.heldBytes o 16 (held.getD (2 * m) .zero)
  let ct := ch.inject 0 (src.flatMap (·.1))
  let ks := keySchedule (keyBytes (s.keySlot c.keySlot).key)
  let iv := beBytes 12 c.iv
  let pt := gcmXor ks iv ct
  let bad := tag.2 || src.any (·.2)
  let good := ((List.range m).zip dst).map (fun x => (x.2, (pt.drop (n * x.1)).take n))
  if bad || gcmTag ks iv ct != tag.1 then (good, dst.map (fun k => (k, List.replicate n 0)), if bad then 8 else 5, ct)
  else (good, [], 0, ct)

/-- Writes of an engine for an owner, one after the other. -/
def State.putAll (s : State) (owner : Nat) (ws : List (Nat × List Byte)) : State :=
  ws.foldl (fun u x => (u.writeKey x.1 x.2).markRacking owner x.1 x.2.length) s

/-- The blocks that these writes touch are poisoned. -/
def State.poisonAll (s : State) (ws : List (Nat × List Byte)) : State := ws.foldl (fun u x => u.poisonRange x.1 x.2.length) s

/-- Traffic of a sealed card: its source read and its destination written once (22 R417). -/
def State.sealedTraffic (s : State) (ch : Chain) (c : Card) (held : List Held) : State :=
  (c.sealedAt.zip held).foldl (fun (t : State) x => match x.2 with
    | .at k => t.traffic ch.owner k (if x.1.1 = c.tagAddr then 16 else c.esize) ch.core (x.1.1.toNat / 65536)
    | _ => t) s

/-- How a sealed card stands: it has ended or waits, in a state, or it has passed every check up to the IV with these translations. -/
def State.sealedGo (s : State) (chain : Nat) (c : Card) (ch : Chain) : State ⊕ List Held :=
  let slot := s.keySlot c.keySlot
  if (s.progOf ch).ivUsed then .inr (s.progOf ch).held.reverse
  else if slot.kind ≠ 2 ∨ slot.owner ≠ ch.owner then .inl (s.endCard chain c 16)
  else if c.tagAddr.toNat % 16 ≠ 0 || c.misaligned false then .inl (s.endCard chain c 9)
  else match s.aeadCheck ch (s.progOf ch) (c.sealedAt.drop (s.progOf ch).pos) with
    | (_, some (.stop st, va, wr)) => .inl ((s.cardWants ch va wr (.stop st)).endCard chain c st)
    | (p, some (x, va, wr)) => .inl (s.cardWaits ch p x va wr)
    | (p, none) => if c.iv ≤ slot.lastIv then .inl (s.endCard chain c 4) else .inr p.held.reverse

/-- Step 2 of R272: the IV is used, and the card holds the slot's key from here on. -/
def State.useIv (s : State) (ch : Chain) (c : Card) (held : List Held) : State :=
  if (s.progOf ch).ivUsed then s
  else (s.modKey c.keySlot (fun k => { k with lastIv := c.iv })).modChain ch.cid (fun x => { x with
    prog := some { (s.progOf ch) with held := held.reverse, ivUsed := true } })

/-- A card of the slot stands between steps 2 and 4 (21 R375; 22 R383). -/
def State.slotBusy (s : State) (slot : Nat) : Bool :=
  s.chains.any (fun ch => ch.status.isNone && (match ch.prog, ch.deck[ch.cards]? with
    | some p, some c => p.ivUsed && c.keySlot == slot
    | _, _ => false))

/-- A key whose load has waited for the card enters the slot. -/
def State.nextKey (s : State) (slot : Nat) : State :=
  match (s.keySlot slot).next with
  | some key => if s.slotBusy slot then s else s.modKey slot (fun k => { k with key, kind := 2, lastIv := 0, next := none })
  | none => s

/-- `COPY.AEAD` (15 R272; 21 R372, R373). A card that meets a tag failure or poison ends with that status and compares no checksum, as one
that meets a lost peer does: R213, R272 and R284 do not say which of two statuses a card has. DESIGN CHOICE, log entry 37. -/
def execCopyAead (chain : Nat) (c : Card) (s : State) : Out :=
  .next (s.cardGo chain c (fun ch =>
    match s.sealedGo chain c ch with
    | .inl t => t
    | .inr held =>
      let s1 := s.useIv ch c held
      (if held.any (s.heldLost (s.ownerOf ch.owner)) then s1.endCard chain c 3
       else if held.any (s.heldWaits ch) then s1
       else
        let (good, zeros, st, ct) := s.sealedWrites ch c held
        let s2 := s1.sealedTraffic ch c held
        if st ≠ 0 then ((s2.putAll ch.owner zeros).poisonAll zeros).endCard chain c st
        else ((s2.putAll ch.owner good).clearCovered (good.map (fun x => (x.1, x.2.length)))).finishStream chain c ct).nextKey c.keySlot))

/-! ### COLL (15 R283-R286) -/

/-- The first access of a range that meets what `p` says. -/
def State.meets (s : State) (ch : Chain) (p : CardAcc → Bool) (m : Mode) (va : DWord) : Nat → Option (CardAcc × DWord)
  | 0 => Option.none
  | n + 1 =>
    let x := s.cardAcc ch m va
    if p x then some (x, va) else s.meets ch p m (va + 1) n

/-- OR a word at an address and its key (the arrival mask, an absent flag). -/
def State.orKey (s : State) (ch : Chain) (va : DWord) (k x : Nat) : State :=
  ((s.writeKey k (leBytes 4 (leNat (Memory.bytes s.mem k 4) ||| x))).markRacking ch.owner k 4).traffic ch.owner k 4 ch.core (va.toNat / 65536)

/-- The address of the word that holds the card's arrival bit in member r's window (15 R284). -/
def CollDesc.arrivalAt (d : CollDesc) (r : Nat) : DWord :=
  d.base + d.wstride * BitVec.ofNat 64 r + BitVec.ofNat 64 (d.arrival + 4 * (d.rank / 32))

/-- The absent flags of members are set (15 R282): done, or what the access to one has to wait for; one that cannot be written is asked
for, or logged. -/
def State.setAbsent (s : State) (ch : Chain) (c : Card) : List Nat → State ⊕ (CardAcc × DWord)
  | [] => .inl s
  | r :: rs =>
    let va := c.collective + BitVec.ofNat 64 (0x44 + 8 * r)
    match s.cardAcc ch .write va with
    | .ok k => (s.orKey ch va k 1).setAbsent ch c rs
    | .wait p => .inr (.wait p, va)
    | x => (s.cardWants ch va true x).setAbsent ch c rs

/-- The members of a descriptor that stand for the peer device behind an address. -/
def State.membersAt (s : State) (ch : Chain) (d : CollDesc) (va : DWord) : List Nat :=
  (List.range d.count).filter (fun r => some (d.devs.getD r 0) == s.peerAt ch.owner ch.core va)

/-- The absent flags of the members behind an address, when what the access to it met is a lost peer (15 R282). -/
def State.absentAt (s : State) (ch : Chain) (c : Card) (d : CollDesc) (st : Nat) (va : DWord) : State ⊕ (CardAcc × DWord) :=
  s.setAbsent ch c (if st = 3 then s.membersAt ch d va else [])

/-- What goes out to the members in ascending rank: to each the bytes of the stream, then its arrival bit. The next of it; a lost
member gets no more (15 R282, R284). -/
def State.collNext (s : State) (ch : Chain) (c : Card) (d : CollDesc) (members : List Nat) (stream : List (Byte × Bool)) (p : Prog) : Adv :=
  let len := stream.length + 1
  let m := p.out / len
  let i := p.out % len
  let r := members.getD m 0
  let lost := match s.setAbsent ch c [r] with
    | .inl t => Adv.on t { p with out := len * (m + 1), st := 3 }
    | .inr (x, va) => .off x va true
  let q := { p with out := p.out + 1 }
  if i + 1 = len then
    match s.cardAcc ch .write (d.arrivalAt r) with
    | .ok k => .on (s.orKey ch (d.arrivalAt r) k (2 ^ (d.rank % 32))) q
    | .dead => .on s q
    | .stop 3 => lost
    | x => .off x (d.arrivalAt r) true
  else
    let va := d.target c r + BitVec.ofNat 64 i
    let (b, bad) := stream.getD i (0, false)
    match s.cardAcc ch .write va with
    | .ok k =>
      let t := ((s.writeKey k [b]).markRacking ch.owner k 1).traffic ch.owner k 1 ch.core (va.toNat / 65536)
      .on (if bad then t.poisonRange k 1 else t) { q with wrote := if bad then p.wrote else (k, 1) :: p.wrote }
    | .dead => .on s q
    | .stop 3 => lost
    | x => .off x va true

/-- What goes out, at most `n` pieces of it, up to the first access that cannot be made. -/
def State.collOut (s : State) (ch : Chain) (c : Card) (d : CollDesc) (members : List Nat) (stream : List (Byte × Bool)) (p : Prog) :
    Nat → State × Prog × Option (CardAcc × DWord × Bool)
  | 0 => (s, p, none)
  | n + 1 =>
    if (stream.length + 1) * members.length ≤ p.out then (s, p, none)
    else match s.collNext ch c d members stream p with
      | .on t q => t.collOut ch c d members stream q n
      | .off x va w => (s, p, some (x, va, w))

/-- The descriptor's log takes entries; a log base that is not 256-aligned, one of the breaches of R283, takes none (DESIGN
CHOICE, log entry 37). -/
def CollDesc.logs (d : CollDesc) : Bool := d.log != 0 && d.log.toNat % 256 == 0

/-- The log's header as read: the next sequence (15 R286). -/
def State.logHead (s : State) (ch : Chain) (d : CollDesc) : ReadBack := s.readVa ch.owner (s.teamOf ch.team) ch.core d.log 8

/-- The log's next sequence. Of a header read poisoned it is what zeros give, and what is computed from it, in the entry and in the
header, is written poisoned; the status is not changed by it: the rules give no outcome (13 R218; 15 R286). DESIGN CHOICE, log entry 37. -/
def State.logSeq (s : State) (ch : Chain) (d : CollDesc) : Nat := leNat (s.logHead ch d).bytes
def CollDesc.entryAt (d : CollDesc) (seq : Nat) : DWord := d.log + BitVec.ofNat 64 (256 + 256 * (seq % 4096))

/-- The first access of a card's entry and header that meets what `p` says (15 R286). -/
def State.logMeets (s : State) (ch : Chain) (d : CollDesc) (p : CardAcc → Bool) : Option (CardAcc × DWord) :=
  if !d.logs then none
  else match s.meets ch p .read d.log 8 with
    | some x => some x
    | none =>
      match s.meets ch p .write (d.entryAt (s.logSeq ch d)) 256 with
      | some x => some x
      | none => s.meets ch p .write d.log 256

/-- Bytes written to consecutive addresses as one engine write: a block they cover whole loses its poison (13 R223). -/
def State.putVa (s : State) (ch : Chain) (va : DWord) (bs : List Byte) : State :=
  let keys := (List.range bs.length).filterMap (fun i =>
    match s.cardAcc ch .write (va + BitVec.ofNat 64 i) with
    | .ok k => some (k, bs.getD i 0)
    | _ => none)
  (keys.foldl (fun (u : State) x => ((u.writeKey x.1 [x.2]).markRacking ch.owner x.1 1).traffic ch.owner x.1 1 ch.core (va.toNat / 65536)) s).clearCovered
    (keys.map (fun x => (x.1, 1)))

/-- Bytes at an address of a card's that are written are poisoned. -/
def State.poisonVa (s : State) (ch : Chain) (va : DWord) (n : Nat) : State :=
  match s.cardAcc ch .write va with
  | .ok k => s.poisonRange k n
  | _ => s

/-- A COLL card ends: it is logged whatever its status, the entry first, then the header (15 R286), which waits for the log's pages; a
log that cannot be written makes its own status the card's when that is OK. Of a stream that could not be read whole the checksum is
that of its read elements. A log on a lost peer sets the peer's absent flag too (15 R282). DESIGN CHOICE, log entry 37. -/
def State.collEnd (s : State) (chain : Nat) (c : Card) (ch : Chain) (p : Prog) (st : Nat) : State :=
  let d := collDesc p.desc
  let s := s.clearCovered p.wrote
  if !d.logs then s.endCard chain c st
  else match s.logMeets ch d (fun x => !x.passes) with
    | some (.stop x, va) =>
      (match s.absentAt ch c d x va with
       | .inl t => (t.cardWants ch va true (.stop x)).endCard chain c (if st = 0 then x else st)
       | .inr (y, fa) => s.cardWaits ch { p with ending := some st } y fa true)
    | some (x, va) => s.cardWaits ch { p with ending := some st } x va true
    | none =>
      let seq := s.logSeq ch d
      let bad := (s.logHead ch d).poison
      let entry := c.raw ++ leBytes 8 seq ++ leBytes 8 s.cyc.toNat ++ leBytes 4 st ++ leBytes 4 d.version ++
        leBytes 4 (crc32c 0 ((p.stream c.walk.length).map (·.1))).toNat ++ List.replicate 100 0
      let t := ((s.cardTraffic ch d.log 8).putVa ch (d.entryAt seq) entry).putVa ch d.log (leBytes 8 (seq + 1) ++ List.replicate 248 0)
      (if bad then (t.poisonVa ch (d.entryAt seq + 128) 8).poisonVa ch d.log 8 else t).endCard chain c st

/-- The status a COLL card ends with before it moves data: its descriptor, its membership, its alignment (15 R283, R284). -/
def collEarly (c : Card) (d : CollDesc) : Option Nat :=
  if d.bad || c.collective.toNat % 64 != 0 then some 13
  else if c.membership ≠ d.version then some 12
  else if c.collOp = 1 && decide (d.stride < c.bytes) then some 13
  else if c.misaligned false then some 9
  else none

/-- The members that a COLL card writes to. -/
def CollDesc.members (d : CollDesc) : List Nat := (List.range d.count).filter (fun r => d.flags.getD r 0 == 0)

/-- A COLL card of either operation from where it stands, its descriptor read. -/
def State.collGo (s : State) (chain : Nat) (c : Card) (ch : Chain) (p : Prog) : State :=
  let d := collDesc p.desc
  match p.ending, collEarly c d with
  | some st, _ => s.collEnd chain c ch p st
  | none, some st => s.collEnd chain c ch p st
  | none, none =>
    match s.copyRun ch c false p (c.reads.drop p.pos) with
    | (t, q, some (.stop st, va, _)) =>
      (match t.absentAt ch c d st va with
       | .inl u => (u.cardWants ch va false (.stop st)).collEnd chain c ch q st
       | .inr (x, fa) => t.cardWaits ch q x fa true)
    | (t, q, some (x, va, wr)) => t.cardWaits ch q x va wr
    | (t, q, none) =>
      let stream := q.stream c.walk.length
      match t.collOut ch c d d.members stream q ((stream.length + 1) * d.members.length) with
      | (u, r, some (.stop st, va, wr)) => (u.cardWants ch va wr (.stop st)).collEnd chain c ch r st
      | (u, r, some (x, va, wr)) => u.cardWaits ch r x va wr
      | (u, r, none) =>
        if r.st ≠ 0 then u.collEnd chain c ch r r.st
        else
          let ch1 := (ch.start c).sum c (stream.map (·.1))
          (u.modChain chain (fun _ => ch1)).collEnd chain c ch r (if c.compare && ch1.csum != c.csum then 2 else 0)

/-- A COLL card reads its descriptor, once, then goes on as `f` says; without a descriptor it ends. -/
def State.withDesc (s : State) (chain : Nat) (c : Card) (ch : Chain) (fail : Option Nat) (f : State → Prog → State) : State :=
  match ch.prog with
  | some p => f s p
  | none =>
    match s.readDesc ch c.collective with
    | .wait p => s.cardWants ch c.collective false (.wait p)
    | .stop st va => (s.cardWants ch va false (.stop st)).endCard chain c (fail.getD st)
    | .got _ true => s.endCard chain c (fail.getD 8)
    | .got bs false => f (s.cardTraffic ch c.collective bs.length) { (s.progOf ch) with desc := bs }

/-- The status of a COLL card that R51 refuses, or whose shape record could not be read. -/
def Chain.brokenStatus (ch : Chain) : Nat := if ch.cards + 1 = ch.deck.length then ch.deckEnd.getD 1 else 1

/-- A COLL card whose shape record could not be read ends; one that met a lost peer there sets its absent flag (15 R282). -/
def State.collBroken (s : State) (chain : Nat) (c : Card) (ch : Chain) (p : Prog) : State :=
  let st := p.ending.getD ch.brokenStatus
  match (if p.ending.isSome then none else s.meets ch (· == .stop 3) .read (shapeAt c.raw) 400) with
  | none => s.collEnd chain c ch p st
  | some (_, va) =>
    match s.absentAt ch c (collDesc p.desc) st va with
    | .inl t => t.collEnd chain c ch p st
    | .inr (x, fa) => s.cardWaits ch p x fa true

/-- A COLL card of either operation. -/
def State.collCard (s : State) (chain : Nat) (c : Card) : State :=
  match s.chainOf chain with
  | none => s
  | some ch =>
    if ch.status.isSome || !ch.read || (s.ownerOf ch.owner).halt.isSome then s
    else if ch.refuses c then
      s.withDesc chain c ch (some ch.brokenStatus) (fun t p => t.collBroken chain c ch p)
    else s.cardGo chain c (fun ch => s.withDesc chain c ch none (fun t p => t.collGo chain c ch p))

def execPost (chain : Nat) (c : Card) (s : State) : Out := .next (s.collCard chain c)
def execBcast (chain : Nat) (c : Card) (s : State) : Out := .next (s.collCard chain c)

/-! ### A card that a halt stops (18 R316) -/

/-- A number up to `n`, free. -/
def State.freeUpTo (s : State) (k n : Nat) : Nat := Config.stallClk s.freeCtr k % (n + 1)

/-- The last of the places 0 to `k` at which a card may stop: `ok` says whether place `i` begins an aligned 8-byte word. -/
def stopPlace (ok : Nat → Bool) (k : Nat) : Nat := ((List.range (k + 1)).reverse.find? ok).getD 0

/-- Two addresses lie in different aligned 8-byte words, or one of them is not there. -/
def otherWord (a b : Option DWord) : Bool :=
  match a, b with
  | some x, some y => x.toNat / 8 != y.toNat / 8
  | _, _ => true

/-- A COPY or FILL card stops in its order of accesses, at the beginning of an aligned 8-byte word of its destination. -/
def State.cutCopy (s : State) (ch : Chain) (c : Card) (fill : Bool) : State :=
  let p := s.progOf ch
  let ms := s.movesLeft ch c p
  let ok := fun i => otherWord (c.nextWrite (ms.take i).reverse) (c.nextWrite (ms.drop i))
  let (t, q, _) := s.copyRun ch c fill p (ms.take (stopPlace ok (s.freeUpTo 700000 ms.length)))
  t.clearCovered q.wrote

/-- A COLL card stops at the beginning of an aligned 8-byte word of a member's window, or at an arrival bit. -/
def State.cutColl (s : State) (ch : Chain) (c : Card) : State :=
  let p := match ch.prog, s.readDesc ch c.collective with
    | some p, _ => some p
    | none, .got bs false => some { (s.progOf ch) with desc := bs }
    | none, _ => none
  match p with
  | none => s
  | some p =>
    let d := collDesc p.desc
    if p.ending.isSome || (collEarly c d).isSome then s
    else match s.copyRun ch c false p (c.reads.drop p.pos) with
      | (t, q, none) =>
        let stream := q.stream c.walk.length
        let len := stream.length + 1
        let ok := fun i =>
          let o := q.out + i
          decide (i = 0) || o % len == 0 || o % len + 1 == len || (d.target c (d.members.getD (o / len) 0) + BitVec.ofNat 64 (o % len)).toNat % 8 == 0
        let (u, r, _) := t.collOut ch c d d.members stream q (stopPlace ok (s.freeUpTo 700000 (len * d.members.length - q.out)))
        u.clearCovered r.wrote
      | _ => s

/-- A sealed card that has passed its IV check has used up the IV and written some of its plaintext, in stream order (21 R373, R375);
before that it has written nothing. When the owner halts because its TDI has gone to ERROR, data of a card whose source or tag is host
memory may still have been to come: it arrives poisoned, and the card ends with POISON all the same (21 R375; 22 R387). -/
def State.cutSealed (s : State) (chain : Nat) (ch : Chain) (c : Card) : State :=
  match s.sealedGo chain c ch with
  | .inl _ => s
  | .inr held =>
    let o := s.ownerOf ch.owner
    if held.any (s.heldLost o) || !((s.progOf ch).ivUsed || Config.freeBit s.freeCtr 700004 chain) then s
    else
      let s1 := s.useIv ch c held
      if held.any (s.heldWaits ch) then s1 else
      let (good, zeros, st, _) := s.sealedWrites ch c held
      if o.tdi = .error && st == 8 && Config.freeBit s.freeCtr 700006 chain then
        (((s1.putAll ch.owner zeros).poisonAll zeros).endCard chain c 8).nextKey c.keySlot
      else
        -- the plaintext, which a card whose tag fails goes on to overwrite
        let ws := good ++ zeros
        let ok := fun i => otherWord ((ws.take i).getLast?.map (fun x => BitVec.ofNat 64 x.1)) ((ws.drop i).head?.map (fun x => BitVec.ofNat 64 x.1))
        let n := stopPlace ok (s.freeUpTo 700000 ws.length)
        ((s1.putAll ch.owner (ws.take n)).poisonAll (zeros.take (n - good.length))).clearCovered ((good.take n).map (fun x => (x.1, x.2.length)))

/-- The CE stops the card that a chain of a halted owner has begun at an aligned 8-byte word: no chain ends and no status is written (18
R316). How far the card has come is free; how far in its order of accesses is what `Card.moves` says. -/
def State.cutCard (s : State) (chain : Nat) : State :=
  match s.chainOf chain with
  | none => s
  | some ch =>
    if ch.stopped || ch.status.isSome || !ch.read || ch.waitPage then s
    else
      let s1 := s.modChain chain (fun x => { x with stopped := true })
      match ch.deck[ch.cards]? with
      | none => s1
      | some c =>
        if ch.refuses c || !(s.dsClear ch.owner ch.core ch.cid c.footprints) then s1
        else match c.opcode with
          | 2 => s1.holdJobs ch.owner (s1.cutSealed chain ch c)
          | 4 => s1.cutColl ch c
          | 5 => s1
          | _ => if c.misaligned (c.opcode == 3) then s1 else s1.cutCopy ch c (c.opcode == 3)

end Sys2Proof.Machine
end

