-- ==== Sys2Proof/Machine/Control.lean ====
section
/-! DEFINITION. Branches, calls, barriers, waits, retirement and fences (06 R115-R133; 01 R8-R10;
14 R261). The run ends after a control instruction (02 R25); `step` ends it. -/

set_option linter.unusedVariables false

namespace Sys2Proof.Machine

/-! ## Branches -/

def execVbr (h : Hdr) (off : BitVec 20) (s : State) : Out :=
  let act := s.active h
  .next (s.goTo s.cur.iss (fun i => if act.has i then jTarget s.cur.ipc off else s.cur.ipc + 4))

def execBra (h : Hdr) (off : BitVec 20) (s : State) : Out :=
  .next (if s.uguard h then s.goTo s.cur.iss (fun _ => jTarget s.cur.ipc off) else s.goOn s.cur.iss 4)

/-- A misaligned target raises ALIGN and no lane moves (06 R116, R118). -/
def execBrx (h : Hdr) (a : Nat) (s : State) : Out :=
  .next (
    if !(s.cur.sPairOk a) then s.raiseWord .illegalReg
    else if !(s.uguard h) then s.goOn s.cur.iss 4
    else if aligned4 (s.cur.spair a) then s.goTo s.cur.iss (fun _ => s.cur.spair a)
    else s.raiseWord .align)

/-- The lanes of `m` stay with a cause and those of `bad2` with another: the first is raised (06 R120). -/
def State.raiseTwo (s : State) (m1 : Mask) (c1 : Cause) (m2 : Mask) (c2 : Cause) : State :=
  if m1 ≠ 0 then s.raise c1 s.cur.ipc m1
  else if m2 ≠ 0 then s.raise c2 s.cur.ipc m2
  else s

/-- A push of a return address and a branch (06 R120). At handler level a cause stops the word whole
(18 R316). -/
def State.call (s : State) (h : Hdr) (target : Nat → DWord) : State :=
  let act := s.active h
  let full := laneSet act (fun i => (s.cur.csp.get i).toNat == 16)
  let mis := laneSet (act &&& ~~~full) (fun i => !(aligned4 (target i)))
  let go := act &&& ~~~full &&& ~~~mis
  if s.cur.hlv && (full ||| mis != 0) then s.raiseTwo full .illegalOp mis .align
  else
    let s1 := s.modCur (fun g =>
      { g with
        cstk := go.lanes.foldl (fun m i => m.set (16 * i + (g.csp.get i).toNat) (s.cur.ipc + 4)) g.cstk
        csp := g.csp.setMany 0 go.has (fun i => g.csp.get i + 1) 64 })
    (s1.goTo (s.cur.iss &&& ~~~full &&& ~~~mis) (fun i => if act.has i then target i else s.cur.ipc + 4)).raiseTwo
      full .illegalOp mis .align

def execVcall (h : Hdr) (off : BitVec 20) (s : State) : Out := .next (s.call h (fun _ => jTarget s.cur.ipc off))

def execVcallx (h : Hdr) (a : Nat) (s : State) : Out :=
  .next (if s.cur.vPairOk a then s.call h (fun i => s.vpair 1 a i) else s.raiseWord .illegalReg)

def execVret (h : Hdr) (s : State) : Out :=
  let act := s.active h
  let empty := laneSet act (fun i => (s.cur.csp.get i) == 0)
  let go := act &&& ~~~empty
  .next (
    if s.cur.hlv && empty != 0 then s.raise .illegalOp s.cur.ipc empty
    else
      let s1 := s.modCur (fun g => { g with csp := g.csp.setMany 0 go.has (fun i => g.csp.get i - 1) 64 })
      (s1.goTo (s.cur.iss &&& ~~~empty)
        (fun i => if act.has i then s.cur.cstk.get (16 * i + ((s.cur.csp.get i).toNat - 1)) else s.cur.ipc + 4)).raiseTwo
        empty .illegalOp 0 .align)

/-! ## The jump table (01 R8-R10) -/

/-- What an active lane of `VJTAB` meets. -/
inductive JtabClass where
  | go (target : DWord)
  | poison
  | fence
  | align
  | range
  | walk
  | page
  | wait
  deriving DecidableEq, Repr

/-- One lane of `VJTAB`: the index, then a plain read of the entry (01 R9, R10). -/
def State.jtabLane (s : State) (tab : DWord) (count k : Nat) : JtabClass :=
  let va := tab + BitVec.ofNat 64 (8 * k)
  if tab.toNat % 8 ≠ 0 then .align
  else if count ≤ k then .range
  else match s.classify .read 8 none va with
    | .ok key =>
        if s.poisoned key 8 then .poison
        else
          let e := BitVec.ofNat 64 (leNat (Memory.bytes s.mem key 8))
          if aligned4 e then .go e else .align
    | .zero => .go 0
    | .dead => .poison
    | .fence => .fence
    | .align => .align
    | .atomic => .align
    | .walk => .walk
    | .page => .page
    | .wait => .wait
    | .frozen => .wait

/-- The entries of `VJTAB`'s lanes are read (22 R417, R380). -/
def State.jtabTraffic (s : State) (tab : DWord) (m : Mask) (idx : Nat → Nat) (count : Nat) : State :=
  m.lanes.foldl (fun (t : State) i =>
    let va := tab + BitVec.ofNat 64 (8 * idx i)
    match (if tab.toNat % 8 ≠ 0 ∨ count ≤ idx i then .align else s.classify .read 8 none va) with
    | .ok k => t.traffic s.cur.owner k 8 s.curCore (va.toNat / 65536)
    | _ => t) s

/-- `VJTAB`. An entry with bits 1:0 not zero raises ALIGN with the `VJTAB`'s own address in TVAL, as a misaligned table does:
the spec gives no TVAL for it (01 R10; 19 R336). At handler level the halt record names the address of the entry, where R318 says 'the
address that failed, or the TVAL of the cause'. DESIGN CHOICE, log entry 37. -/
def execVjtab (h : Hdr) (a b : Nat) (s : State) : Out :=
  let act := s.active h
  let tab := pairW (s.cur.sreg (b + 1)) (s.cur.sreg b)
  let count := (s.cur.sreg (b + 2)).toNat
  let idx := fun i => (s.vreg 1 a i).toNat
  let va := fun i => tab + BitVec.ofNat 64 (8 * idx i)
  let cls := fun i => s.jtabLane tab count (idx i)
  let set := fun p => laneSet act (fun i => p (cls i))
  let pois := set (· == .poison)
  let fen := set (· == .fence)
  let ali := set (· == .align)
  let ran := set (· == .range)
  let wal := set (· == .walk)
  let pag := set (· == .page)
  let wai := set (· == .wait)
  let going := set (fun c => match c with | .go _ => true | _ => false)
  .next (
    if !(s.cur.vOk a 1 && s.cur.sOk b 3) then s.raiseWord .illegalReg
    else
      let acls : Nat → LaneClass := fun i => match cls i with
        | .walk => .walk | .page => .page | .fence => .fence | .align => .align | _ => .ok 0
      match (if s.cur.hlv then s.handlerFault (act &&& ~~~ran) (fun i => [⟨va i, 8, acls i⟩]) pois else none) with
      | some (d, x) => s.recursiveFault d x
      | none =>
        let stays := pois ||| fen ||| ali ||| ran
        let parks := fun (t : State) => (t.parkPage pag va false false).parkWalk wal (fun i => (va i).toNat / 65536) false false
        if s.cur.hlv && stays != 0 then s.recursiveFault 3 s.cur.ipc
        else if wai ≠ 0 then s.stallAccess act (fun i => match cls i with | .wait => .wait | c => acls i) va false (stays != 0)
        else
          let s := s.jtabTraffic tab act idx count
          let s1 := s.goTo ((s.cur.iss &&& ~~~act) ||| going) (fun i =>
            if act.has i then (match cls i with | .go e => e | _ => s.cur.ipc) else s.cur.ipc + 4)
          let s1 := s1.logFences fen va
          if pois ≠ 0 then s1.unwind .poison (va pois.low) pois
          else if fen ≠ 0 then s1.raise .fenceViolation (va fen.low) fen
          else if ali ≠ 0 then s1.raise .align s.cur.ipc ali
          else if ran ≠ 0 then s1.raise .jtabRange s.cur.ipc ran
          else parks s1)

/-! ## Retirement -/

def execVexit (h : Hdr) (s : State) : Out :=
  let act := s.active h
  let s1 := (s.settle act).goOn (s.cur.iss &&& ~~~act) 4
  .next (if act = 0 then s1 else s1.dropLanes act)

def execEnd (h : Hdr) (s : State) : Out :=
  .next (if s.uguard h then (s.settle (BitVec.allOnes 64)).retireGroup else s.goOn s.cur.iss 4)

/-! ## Yield, NOP, timed waits -/

def execVyield (h : Hdr) (s : State) : Out :=
  let act := s.active h
  .next ((s.goOn s.cur.iss 4).modCur (fun g =>
    ({ g with yielded := g.yielded ||| act
              yrem := g.yrem.setMany 0 act.has (fun _ => g.live &&& ~~~g.held &&& ~~~act) 64 }).yieldCheck))

def execNop (h : Hdr) (s : State) : Out := .next (s.goOn s.cur.iss 4)

/-- `WAITT` (06 R127). -/
def execWaitt (h : Hdr) (a : Nat) (s : State) : Out :=
  .next (
    if !(s.cur.sPairOk a) then s.raiseWord .illegalReg
    else if !(s.uguard h) || decide ((s.cur.spair a).toNat ≤ s.cyc.toNat) then s.goOn s.cur.iss 4
    else s.modCur (fun g => { g with
      asleep := g.asleep ||| g.iss
      deadline := g.deadline.setMany 0 g.iss.has (fun _ => g.spair a) 64 }))

/-- A sleeper whose deadline has come continues at its PC + 4 (06 R127). -/
def Group.wake (ctr : Nat) (cyc : DWord) (g : Group) : Group :=
  let m := Mask.ofFn (fun i => g.asleep.has i && decide ((g.deadline.get i).toNat ≤ cyc.toNat)) 64
  { (g.complete ctr m).setPc m (fun i => g.pc.get i + 4) with asleep := g.asleep &&& ~~~m }

/-- CYC reaches a deadline: the sleepers of the group continue. -/
def execWaittDeadline (gid : Nat) (s : State) : Out :=
  .next (s.modGroups (fun g => g.gid == gid && (s.ownerOf g.owner).halt.isNone) (Group.wake s.freeCtr s.cyc))

/-! ## Barriers -/

/-- `BARG` (06 R128); at handler level ILLEGAL_OP (R132). -/
def execBarg (h : Hdr) (s : State) : Out :=
  .next (
    if !(s.uguard h) then s.goOn s.cur.iss 4
    else if s.cur.hlv then s.raiseWord .illegalOp
    else (s.settle s.cur.iss).modCur (fun g => ({ g with barg := g.barg ||| g.iss }).bargCheck s.freeCtr))

/-- `BAR` (06 R129); at handler level ILLEGAL_OP (R132). -/
def execBar (h : Hdr) (nowait : Bool) (id : Nat) (s : State) : Out :=
  .next (
    if !(s.uguard h) then s.goOn s.cur.iss 4
    else if s.cur.hlv then s.raiseWord .illegalOp
    else
      let s1 := (s.settle s.cur.iss).modTeam s.cur.team (fun t => { t with
        arrived := t.arrived.set (16 * id + s.cur.gnum) (t.arrived.get (16 * id + s.cur.gnum) ||| s.cur.iss) })
      let s2 := if nowait then s1.goOn s.cur.iss 4
        else s1.modCur (fun g => { g with barWait := g.barWait.set id (g.barWait.get id ||| g.iss) })
      s2.barCheck s.cur.team id)

/-! ## FENCE (14 R261) -/

/-- The paths a mask covers; DRAM always (13 R229). -/
def pathCovers (p : PathMask) (path : Nat) : Bool :=
  path == 0 || (path == 1 && p.code % 2 == 1) || (decide (2 ≤ path) && decide (4 ≤ p.code))

/-- The mask names the engine path: job submissions, waits and steep commands (13 R229). -/
def namesEngine (p : PathMask) : Bool := p.code / 2 % 2 == 1

/-- An acquiring fence waits for the earlier loads of the issuing lanes on the covered paths; frame loads
are not waited for. A lane's accesses are performed at their steps, so beyond those loads a fence holds back only what comes
after the lane's steep commands; `State.steepsFirst` says that. -/
def execFence (h : Hdr) (p : PathMask) (k : FenceK) (sc : Scope) (s : State) : Out :=
  .next (
    if s.uguard h && k != .rel then
      (s.modCur (fun g => g.deliverIf s.freeCtr (fun e => g.iss.has e.lane && !e.frame && pathCovers p e.path))).goOn s.cur.iss 4
    else s.goOn s.cur.iss 4)

end Sys2Proof.Machine
end

