-- ==== Sys2Proof/Machine/Steep.lean ====
section
/-! DEFINITION. Steep units: `STEEP`, and the commands a bank performs (03 R52; 13 R236; 15 R276-R279). One
command is one step. -/

set_option linter.unusedVariables false

namespace Sys2Proof.Machine

/-! ## STEEP (15 R276) -/

/-- A command word that keeps the rules of R52, for an address. A range that would pass a 64 KiB boundary breaks them also where no bank
stands, so that it is ILLEGAL_OP before ADDRESS: DESIGN CHOICE, log entry 37. -/
def steepOk (w : Word) (va : DWord) : Bool :=
  let x := w.toNat
  let op := x / 2 ^ 27
  let p := x / 16 % 256
  let n := x / 4096 % 16384 + 1
  decide (1 ≤ op) && decide (op ≤ 7) && !(x.testBit 26) && x % 16 == 0 &&
    (match op with
     | 5 => decide (1 ≤ p)
     | 6 => p % 32 == 0
     | 7 => p == 1 || p == 2
     | _ => p == 0) &&
    decide (va.toNat % 65536 + 4 * n ≤ 65536)

def execSteep (h : Hdr) (d a b : Nat) (s : State) : Out :=
  let g := s.cur
  let w := g.sreg b
  let xsum := w.toNat / 2 ^ 27 == 7
  .next (
    if !(g.sPairOk a && g.sOk b 2 && g.sOk d (if xsum then 2 else 1)) then s.raiseWord .illegalReg
    else if !(s.uguard h) then s.goOn g.iss 4
    else
      let va := g.spair a
      let put := fun (x : Nat) => (s.modCur (fun g => g.setS d (BitVec.ofNat 32 x))).goOn g.iss 4
      s.named va (
        if !(s.slotFree g.owner s.curCore) then s.waitFor g.iss .ceSlot
        else if !(steepOk w va) then put 14
        else if !(inWindow va) then put 15
        else if va.toNat % 4 ≠ 0 then put 9
        else
          let (jid, s1) := s.freshId
          let j : SteepJob :=
            { jid, core := s.curCore, owner := g.owner, grid := g.grid, gid := g.gid, lanes := g.iss, va
              addr := (match whereIs s.curTeam va with | .bank k off => BitVec.ofNat 64 (bankKey k off) | _ => va)
              cmd := w, operand := g.sreg (b + 1), dst := d, seq := s.nextSeq, held := false }
          ({ s1 with steeps := s1.steeps ++ [j], nextSeq := s1.nextSeq + 1 }).goOn g.iss 4))

/-! ## Performing a command -/

/-- Flags of FSTAT's layout in the status word (15 R277). -/
def steepStatus (code excl : Nat) (f : Flags) : Word := BitVec.ofNat 32 (code + 256 * f.toNat % 16384 + 65536 * excl)

/-- The status and, for STP.XSUM, the checksum reach the group's registers; the job is done. -/
def State.steepDone (s : State) (j : SteepJob) (st : Word) (sum : Option Word) : State :=
  let s1 := s.modGid j.gid (fun g =>
    let g := g.setS j.dst st
    match sum with | some x => g.setS (j.dst + 1) x | none => g)
  { s1 with steeps := s1.steeps.filter (·.jid != j.jid) }

/-- A halt keeps a job queued, but one that was in its bank by then: of those that no DS edge held back, which ones were is free (18
R316). -/
def State.jobHeld (s : State) (j : SteepJob) : Bool :=
  match (s.ownerOf j.owner).halt with
  | some h => j.held || !(Config.freeBit h.ctr 700002 j.jid)
  | none => false

/-- A command begins when no DS edge and no halt holds it back; the bank checks its fence, then
performs it at key `k`. -/
def State.steepGo (s : State) (job : Nat) (f : SteepJob → Nat → State) : State :=
  match s.steeps.find? (·.jid == job) with
  | none => s
  | some j =>
    if !(s.dsClear j.owner j.core j.jid j.prints) || s.jobHeld j then s
    else
      let fenced := fun (owner : Nat) =>
        (s.logViolation { cyc := s.cyc, addr := j.addr, target := owner, requester := requester 4 j.core 0, reqOwner := j.owner, reason := 1 }).steepDone j
          (steepStatus 6 0 0) none
      s.holdJobs j.owner (match whereIs Team.none j.addr with
        | .bank b off => if (s.bankOf b).fence = j.owner then f j (bankKey b off) else fenced (s.bankOf b).fence
        | _ => fenced 0)

def State.word (s : State) (k : Nat) : Word := BitVec.ofNat 32 (leNat (Memory.bytes s.mem k 4))

/-- A command that changes each word by itself: poisoned blocks are left unchanged (15 R278). -/
def State.steepWords (s : State) (j : SteepJob) (k : Nat) (f : Word → Word × Flags) : State :=
  let ks := (List.range j.words).map (fun i => k + 4 * i)
  let good := ks.filter (fun a => !(s.poisoned a 4))
  let s1 := good.foldl (fun u a => u.writeKey a (leBytes 4 (f (s.word a)).1.toNat)) s
  let fl := good.foldl (fun acc a => acc ||| (f (s.word a)).2) (0 : Flags)
  s1.steepDone j (steepStatus (if good.length = ks.length then 0 else 8) 0 fl) none

/-- STP.FILL clears the poison of every block it writes whole. -/
def execStpFill (job : Nat) (s : State) : Out :=
  .next (s.steepGo job (fun j k =>
    let bs := (List.range j.words).flatMap (fun _ => leBytes 4 j.operand.toNat)
    (s.writeKey k bs).steepDone j (steepStatus 0 0 0) none))

def execStpAddF32 (job : Nat) (s : State) : Out :=
  .next (s.steepGo job (fun j k => s.steepWords j k (fun w => f32Add .rne w j.operand)))
def execStpScale (job : Nat) (s : State) : Out :=
  .next (s.steepGo job (fun j k => s.steepWords j k (fun w => f32Mul .rne w j.operand)))
def execStpMaxfold (job : Nat) (s : State) : Out :=
  .next (s.steepGo job (fun j k => s.steepWords j k (fun w => f32Max w j.operand)))

/-- STP.CVT through a format slot of the submitting grid; a B4 slot packs 32 words into 17 bytes. -/
def execStpCvt (job : Nat) (s : State) : Out :=
  .next (s.steepGo job (fun j k =>
    let sl := (s.gridOf j.grid).slot (j.cmd.toNat / 512 % 8)
    match sl.kind with
    | .flt f => s.steepWords j k (fun w => let (c, g) := slotCvt sl f w; (BitVec.ofNat 32 c, g))
    | .b4 =>
      if j.words % 32 ≠ 0 then s.steepDone j (steepStatus 14 0 0) none
      else
        let n := j.words / 32
        -- a group of 32 words with a poisoned source block, and a poisoned target block, stay as they are
        let bad := fun i => s.poisoned (k + 128 * i) 128
        let q := fun i => quantise ((List.range 32).map (fun t => s.word (k + 128 * i + 4 * t))) sl.type sl.nanSat
        let blk := fun i =>
          let (sb, codes, _) := q i
          leBytes 16 ((List.range 32).foldl (fun acc t => acc + codes.getD t 0 * 16 ^ t) 0) ++ [BitVec.ofNat 8 sb] ++ List.replicate 15 0
        let put := fun (u : State) (a : Nat) (bs : List Byte) =>
          (List.range bs.length).foldl (fun u i => if s.poisoned (a + i) 1 then u else u.writeKey (a + i) [bs.getD i 0]) u
        let s1 := (List.range n).foldl (fun u i => if bad i then u else put u (k + 32 * i) (blk i)) s
        let s2 := put s1 (k + 32 * n) (List.replicate (96 * n) 0)
        let fl := (List.range n).foldl (fun acc i => if bad i then acc else acc ||| (q i).2.2) (0 : Flags)
        s2.steepDone j (steepStatus (if s.poisoned k (128 * n) then 8 else 0) 0 fl) none))

/-- STP.XSUM: poisoned blocks are left out of the sum and the status says so; each other word of a WSUM32 keeps its index
in the range, where the spec says only that the rest is processed (15 R278). DESIGN CHOICE, log entry 37. -/
def execStpXsum (job : Nat) (s : State) : Out :=
  .next (s.steepGo job (fun j k =>
    let good := (List.range j.words).filter (fun i => !(s.poisoned (k + 4 * i) 4))
    let sum := if j.cmd.toNat / 16 % 4 = 1 then crc32c j.operand (good.flatMap (fun i => Memory.bytes s.mem (k + 4 * i) 4))
      else good.foldl (fun (c : Word) i => wsum32 c i [(s.word (k + 4 * i)).toNat]) j.operand
    s.steepDone j (steepStatus (if good.length = j.words then 0 else 8) 0 0) (some sum)))

/-- STP.SUMX (15 R279). -/
def execStpSumx (job : Nat) (s : State) : Out :=
  .next (s.steepGo job (fun j k =>
    let w := j.operand.toNat
    let n := j.cmd.toNat / 16 % 256
    let mw := (n + 31) / 32
    if w % 16 ≠ 0 ∨ k % 64 ≠ 0 ∨ j.words ≠ w * (n + 1) + mw then s.steepDone j (steepStatus 14 0 0) none
    else
      let mk := k + 4 * w * (n + 1)
      if s.poisoned mk (4 * mw) then s.steepDone j (steepStatus 8 0 0) none
      else
        let x0 := leNat (Memory.bytes s.mem mk (4 * mw))
        let slot := fun c => k + 4 * w * (c + 1)
        let x := (List.range n).foldl (fun acc c =>
          if decide (0 < w) && s.poisoned (slot c) (4 * w) then acc ||| 2 ^ c else acc) x0
        let live := (List.range n).filter (fun c => !(x.testBit c))
        let sum := fun i => live.foldl (fun (acc : Word × Flags) c =>
          let (r, f) := f32Add .rne acc.1 (s.word (slot c + 4 * i)); (r, acc.2 ||| f)) ((0 : Word), (0 : Flags))
        let bs := (List.range w).flatMap (fun i => leBytes 4 (sum i).1.toNat)
        let fl := (List.range w).foldl (fun acc i => acc ||| (sum i).2) (0 : Flags)
        let excl := ((List.range (32 * mw)).filter (fun c => x.testBit c)).length
        let s1 := (s.writeKey k bs).writeKey mk (leBytes (4 * mw) x)
        s1.steepDone j (steepStatus 0 excl fl) none))

/-- Which operation a steep command is (03 R52). -/
def SteepJob.instr (j : SteepJob) : Instr :=
  match j.cmd.toNat / 2 ^ 27 with
  | 1 => .stpFill j.jid
  | 2 => .stpAddF32 j.jid
  | 3 => .stpScale j.jid
  | 4 => .stpMaxfold j.jid
  | 5 => .stpSumx j.jid
  | 6 => .stpCvt j.jid
  | _ => .stpXsum j.jid

end Sys2Proof.Machine
end

