-- ==== Sys2Proof/Machine/Matrix.lean ====
section
/-! DEFINITION. The matrix unit: `FORK`, `RDV` and the commands of its sequencer (11 R182-R205; 08 R153, R154).
One command is one step. -/

set_option linter.unusedVariables false

namespace Sys2Proof.Machine

/-! ## The status register (11 R185) -/

/-- STATE as MXSTAT shows it: a unit held by a pair shows WAIT (R203). -/
def Me.shown (e : Me) : Nat := if e.follower then 2 else e.state

/-- IDLE, DONE or ERROR. -/
def Me.ended (e : Me) : Bool := e.shown == 0 || e.shown == 3 || e.shown == 4

def Me.stat (e : Me) : Word :=
  BitVec.ofNat 32 (e.shown * 2 ^ 29 + e.code * 2 ^ 24 + (if e.nv then 2 ^ 23 else 0) + (if e.of then 2 ^ 22 else 0) +
    (if e.uf then 2 ^ 21 else 0) + (if e.nx then 2 ^ 20 else 0) + e.sig.toNat * 2 ^ 12 + e.cmd)

/-- Sticky flags of the program. -/
def Me.addFlags (e : Me) (f : Flags) : Me :=
  { e with nv := e.nv || f &&& fNV != 0, of := e.of || f &&& fOF != 0, uf := e.uf || f &&& fUF != 0, nx := e.nx || f &&& fNX != 0 }

def State.meOf (s : State) (sp : Nat) : Me := (s.spOf sp).me

/-- The ME's next command is at `pc`; CMD counts from the first one. -/
def Me.at (e : Me) (pc : DWord) : Me :=
  { e with pc, cmd := ((pc - e.first).toNat / 8) % 4096, state := 1, word := none, mma := none }

def State.meNext (s : State) (sp : Nat) : State := s.modMe sp (fun e => e.at (e.pc + 8))
def State.meWait (s : State) (sp : Nat) : State := s.modMe sp (fun e => { e with state := 2 })

/-- The SP of the other core of the pair with the same number. -/
def followerSp (sp : Nat) : Nat := 4 * (sp / 4 ^^^ 1) + sp % 4

/-- The SP with the other unit of this SP's pair: where the units of a pair are now, be it that they have come to other SPs since it
was formed (11 R205; 19 R344), and the SP that forms one with it where there is none (11 R196). -/
def State.mateSp (s : State) (sp : Nat) : Nat :=
  match s.sps.find? (fun p => (s.meOf sp).pair != 0 && p.num != sp && p.me.pair == (s.meOf sp).pair) with
  | some p => p.num
  | none => followerSp sp

/-- The follower of this SP's pair is held by it (11 R203). -/
def State.holdsFollower (s : State) (sp : Nat) : Bool :=
  let f := s.meOf (s.mateSp sp)
  f.follower && f.pair == (s.meOf sp).pair && (s.spOf (s.mateSp sp)).swapClk == 0

/-- The pair lets the follower go. -/
def State.unpair (s : State) (sp : Nat) : State :=
  if (s.meOf sp).configured && (s.meOf sp).paired && s.holdsFollower sp then
    (s.modMe (s.mateSp sp) (fun e => { e with follower := false, pair := 0 })).modMe sp (fun e => { e with pair := 0 })
  else s

/-- The program stops with a code (11 R187). -/
def State.meStop (s : State) (sp code : Nat) : State :=
  (s.unpair sp).modMe sp (fun e => { e with state := 4, code, cmd := ((e.pc - e.first).toNat / 8) % 4096, word := none, mma := none })

/-! ## FORK and RDV (11 R184, R188) -/

/-- The owner of an ME's program: its team's, or the SP's where a handler group forked it on an SP without a matrix team. -/
def State.meOwner (s : State) (sp : Nat) : Nat :=
  let tm := s.teamOf (s.meOf sp).team
  if tm.tid = 0 then (s.spOf sp).owner else tm.owner

/-- The ME begins at `va`: its program state is cleared; it wakes 16 clk after the last wake of its core
(22 R413). A unit that a handler group forks stays its SP's matrix team's (11 R183, R184; 18 R315). -/
def State.meStart (s : State) (va : DWord) : State :=
  let core := s.curCore
  let last := s.meWake.get core
  let wake := if last = 0 then s.cyc else if (last + 16).toNat ≤ s.cyc.toNat then s.cyc else last + 16
  let s1 := s.modMe s.cur.sp (fun e =>
    { e with pc := va, first := va, loops := [], configured := false, aSlot := 0, bSlot := 0, paired := false, k := 0
             idx := List.replicate 16 0, state := 1, code := 0, nv := false, of := false, uf := false, nx := false
             sig := 0, cmd := 0, grid := s.cur.grid, team := if s.cur.team = 0 then (s.teamOf e.team).tid else s.cur.team, gid := s.cur.gid, forkChain := none
             wakeAt := if wake = s.cyc then 0 else wake, missing := false, word := none, mma := none })
  { s1 with meWake := s1.meWake.set core wake }

/-- ME_WAKE: a waiting ME wakes (22 R413). -/
def execMeWake (sp : Nat) (s : State) : Out :=
  .next (s.modMe sp (fun e => if e.wakeAt.toNat ≤ s.cyc.toNat then { e with wakeAt := 0 } else e))

def usesMe (k : ForkK) : Bool := k == .me || k == .both
def usesCe (k : ForkK) : Bool := k == .ce || k == .both

/-- `FORK`: with both engines named, both are free before either starts. -/
def execFork (h : Hdr) (a b : Nat) (k : ForkK) (s : State) : Out :=
  let g := s.cur
  .next (
    if !(g.sPairOk a && (!(usesCe k) || g.sPairOk b)) then s.raiseWord .illegalReg
    else if !s.curGrid.record.matrix then s.raiseWord .illegalOp
    else if !(s.uguard h) then s.goOn g.iss 4
    else
      let va := g.spair a
      let vb := g.spair b
      let go :=
        if usesMe k && va.toNat % 8 != 0 then s.raiseWord .align
        else if usesMe k && !((s.meOf g.sp).ended) then s.waitFor g.iss .meIdle
        else if usesCe k && !(s.slotFree g.owner s.curCore) then s.waitFor g.iss .ceSlot
        else
          let s1 := if usesMe k then s.meStart va else s
          let s2 := if usesCe k then
              let (t, cid, _) := s1.submit vb true none
              t.modMe g.sp (fun e => { e with forkChain := some cid })
            else s1.modMe g.sp (fun e => { e with forkChain := none })
          s2.goOn g.iss 4
      s.namedAll ((if usesMe k then [va] else []) ++ (if usesCe k then [vb] else [])) go)

/-- The two conditions of `RDV` (11 R188). -/
def State.engDone (s : State) (sp id : Nat) : Bool :=
  let e := s.meOf sp
  (e.ended || e.sig.getLsbD id) &&
    (match e.forkChain with
     | none => true
     | some c => match s.chainOf c with
       | none => true
       | some ch => ch.status.isSome || ch.raised.getLsbD id)

def execRdv (h : Hdr) (id : Nat) (s : State) : Out :=
  .next (
    if !s.curGrid.record.matrix then s.raiseWord .illegalOp
    else if !(s.uguard h) || s.engDone s.cur.sp id then s.goOn s.cur.iss 4
    else s.waitFor s.cur.iss (.engines id))

/-! ## Accumulators -/

def accKey (k m n : Nat) : Nat := 4096 * k + 64 * m + n

/-- Every element of accumulator `k` holds +0.0. -/
def Me.zeroAcc (e : Me) (k : Nat) : Me :=
  { e with acc := e.acc.filter (fun x => x.1 / 4096 != k), written := e.written &&& ~~~BitVec.ofNat 16 (2 ^ k) }

/-- Every element of accumulator `k` is `f m n`. -/
def Me.setAcc (e : Me) (k : Nat) (f : Nat → Nat → Word) : Me :=
  { e with acc := SMap.setMany e.acc (4096 * k) (fun _ => true) (fun i => f (i / 64) (i % 64)) 4096
           written := e.written ||| BitVec.ofNat 16 (2 ^ k) }

/-- FP32 with one rounding, and the canonical NaN for every NaN (08 R138, R153). -/
def rne32 (x : FVal × Flags) : Word × Flags :=
  if x.1.isNan then (0x7FC00000, x.2) else toF32 .rne x

/-- Combine accumulator `k` with the follower's when that has been written (11 R202). Whether the roundings of a combine are among
those that set the sticky flags of MXSTAT the rules leave open (R185 names tree nodes, drains and quantisers): the model sets them, in
the leader's. DESIGN CHOICE, log entry 37. -/
def State.combine (s : State) (sp k : Nat) : State :=
  let e := s.meOf sp
  let f := s.meOf (s.mateSp sp)
  if e.configured && e.paired && f.written.getLsbD k then
    let one := fun m n => rne32 (addX .rne (f32 (e.elem k m n)) (f32 (f.elem k m n)))
    let fl := (List.range 4096).foldl (fun acc i => acc ||| (one (i / 64) (i % 64)).2) (0 : Flags)
    (s.modMe sp (fun e => (e.setAcc k (fun m n => (one m n).1)).addFlags fl)).modMe (s.mateSp sp) (fun f => f.zeroAcc k)
  else s

def State.combineAll (s : State) (sp : Nat) : State := (List.range 16).foldl (fun s k => s.combine sp k) s

/-! ## Slot lines (11 R194) -/

/-- Bytes of a slot of a kind; none for F32. -/
def slotBytes : SlotKind → Option Nat
  | .b4 => some 1088
  | .flt .f32 => none
  | .flt .f16 => some 4096
  | .flt .bf16 => some 4096
  | .flt _ => some 2048

/-- A line of a k-block: its 32 elements and the exponent of its scale. -/
structure Line where
  elems : List FVal
  scale : Int
  poison : Bool
  deriving DecidableEq, Repr

def State.slotLine (s : State) (tm : Team) (k : SlotKind) (slot : DWord) (j : Nat) : Line :=
  let rd := fun (off n : Nat) => s.localBytes tm (slot + BitVec.ofNat 64 off) n
  match k with
  | .b4 =>
      let (cs, p) := rd (16 * j) 16
      let (sb, q) := rd (1024 + j) 1
      let x := leNat sb
      let el := fun t =>
        let c := leNat cs / 16 ^ t % 16
        if x % 64 = 63 then FVal.canon else b4Value (x / 64) c 31
      ⟨(List.range 32).map el, (if x % 64 = 63 then 0 else (x % 64 : Nat) - 31), p || q⟩
  | .flt k =>
      let w := if k.width = 16 then 2 else 1
      let (bs, p) := rd (32 * w * j) (32 * w)
      ⟨(List.range 32).map (fun t => decodeF k (leField bs (w * t) w)), 0, p⟩

/-- One k-block of R153 for one element of the accumulator. -/
def kblock (acc : Word) (a b : Line) : Word × Flags :=
  let prod := fun (t : Nat) => mulX (a.elems.getD t .canon) (b.elems.getD t .canon)
  let node := fun (x y : FVal × Flags) =>
    let (r, f) := rne32 (addX .rne x.1 y.1)
    (f32 r, x.2 ||| y.2 ||| f)
  let (p, f) := treeFold node prod 5 0
  let (r, g) := rne32 (match p with
    | .fin s m e => (.fin s m (e + a.scale + b.scale), f)
    | x => (x, f))
  let (c, k) := rne32 (addX .rne (f32 acc) (f32 r))
  (c, g ||| k)

/-! ## The commands -/

def State.meTeam (s : State) (sp : Nat) : Team := s.teamOf (s.meOf sp).team
def State.meSlot (s : State) (sp n : Nat) : Slot := (s.gridOf (s.meOf sp).grid).slot n

/-- MXCFG (R196). A program that holds its follower already does not wait for it: the follower shows WAIT, so R196's wait would have
no end. An SP whose groups of this team are all switched out holds none of them. DESIGN CHOICE, log entry 37. -/
def execMxcfg (sp aSlot bSlot : Nat) (paired : Bool) (k : Nat) (s : State) : Out :=
  let fs := s.mateSp sp
  let e := s.meOf sp
  let tm := s.meTeam sp
  let mine := e.configured && e.paired
  .next (
    if (slotBytes (s.meSlot sp aSlot).kind).isNone || (slotBytes (s.meSlot sp bSlot).kind).isNone then s.meStop sp 2
    else if paired && !(tm.paired && s.allGroups.any (fun g => g.team == e.team && g.sp == fs && g.alive)) then
      ((s.combineAll sp).modMe sp (fun e => { e with idx := List.replicate 16 0 })).meStop sp 7
    else if paired && !(mine && s.holdsFollower sp) && !((s.meOf fs).ended) then s.meWait sp
    else
      let s1 := (s.combineAll sp).unpair sp
      let s2 := s1.modMe sp (fun e => { e with configured := true, aSlot, bSlot, paired, k, idx := List.replicate 16 0 })
      let (id, s2') := s2.freshId
      let s3 := if paired then
          (s2'.modMe fs (fun f => { f with acc := [], written := 0, follower := true, pair := id, grid := e.grid, team := e.team })).modMe sp
            (fun e => { e with pair := id })
        else s2
      s3.meNext sp)

/-- MXZERO (R197). -/
def execMxzero (sp acc : Nat) (s : State) : Out :=
  let e := s.meOf sp
  let s1 := s.modMe sp (fun e => { (e.zeroAcc acc) with idx := e.idx.set acc 0 })
  let s2 := if e.configured && e.paired then s1.modMe (s.mateSp sp) (fun f => f.zeroAcc acc) else s1
  .next (s2.meNext sp)

/-- MXWAIT (R198). -/
def execMxwait (sp ring n : Nat) (s : State) : Out :=
  .next (match (s.meTeam sp).ring ring with
    | none => s.meStop sp 3
    | some r =>
      if r.slots < n then s.meStop sp 3
      else if n ≤ (r.pubd - r.cons).toNat then s.meNext sp
      else s.meWait sp)

/-- MXREL (R198). -/
def execMxrel (sp ring n : Nat) (s : State) : Out :=
  .next (match (s.meTeam sp).ring ring with
    | none => s.meStop sp 3
    | some r =>
      if (r.cons - r.freed).toNat < n then s.meStop sp 4
      else (s.modTeam (s.meOf sp).team (fun t => t.setRing { r with freed := r.freed + BitVec.ofNat 32 n })).meNext sp)

/-- Address of slot `C + q` of a ring. -/
def Ring.slotAt (r : Ring) (c : Word) (q : Nat) : DWord :=
  r.base + BitVec.ofNat 64 ((c + BitVec.ofNat 32 q).toNat % r.slots * r.stride)

/-- After POISON in a line or SDC the named accumulator holds NaN (R187). -/
def State.meSpoil (s : State) (sp acc code : Nat) : State :=
  (s.modMe sp (fun e => e.setAcc acc (fun _ _ => 0x7FC00000))).meStop sp code

/-- The program stops at bytes that a rewritten base has taken out of the team's banks: the bank logs the access, and of the codes of R186,
none of which is a fence, the model takes RING_INVALID for a slot and TILE_RANGE for a tile (07 R134; 13 R221; 19 R345). DESIGN CHOICE,
log entry 37. -/
def State.meFenced (s : State) (sp code : Nat) (va : DWord) : State :=
  (s.logViolation { cyc := s.cyc, addr := va, target := s.fenceTarget (s.meTeam sp) va, requester := requester 2 (coreOf sp) sp
                    reqOwner := s.meOwner sp, reason := 1 }).meStop sp code

/-- The first of some slots that does not lie in the team's banks. -/
def Team.slotOut (tm : Team) (l : List (DWord × Nat)) : Option DWord := (l.find? (fun x => !(tm.holds x.1 x.2))).map (·.1)

/-- Block `q` of an MXMMA of `k`, from the claimed slots (R199). The command stays until its last block is summed, so that a
pre-emption stops it between blocks (R205). An SDC quarantines the SP whose unit met it. -/
def State.mmaBlock (s : State) (sp acc : Nat) (ra rb : Ring) (ka kb : SlotKind) (q k : Nat) : State :=
  let e := s.meOf sp
  let tm := s.meTeam sp
  let j := e.idx.getD acc 0
  let unit := if e.paired && j % 2 == 1 then s.mateSp sp else sp
  match tm.slotOut [(ra.slotAt ra.cons q, (slotBytes ka).getD 0), (rb.slotAt rb.cons q, (slotBytes kb).getD 0)] with
  | some va => s.meFenced sp 3 va
  | none =>
  let la := (List.range 64).map (s.slotLine tm ka (ra.slotAt ra.cons q))
  let lb := (List.range 64).map (s.slotLine tm kb (rb.slotAt rb.cons q))
  if la.any (·.poison) || lb.any (·.poison) then s.meSpoil sp acc 10
  else if s.upsets.contains .meResidue then (s.meSpoil sp acc 11).quarantine unit
  else
    let u := s.meOf unit
    let none' : Line := ⟨[], 0, false⟩
    let one := fun m n => kblock (u.elem acc m n) (la.getD m none') (lb.getD n none')
    let fl := (List.range 4096).foldl (fun a i => a ||| (one (i / 64) (i % 64)).2) (0 : Flags)
    let s1 := s.modMe unit (fun u => u.setAcc acc (fun m n => (one m n).1))
    let s2 := s1.modMe sp (fun e => { (e.addFlags fl) with idx := e.idx.set acc (j + 1) })
    if k ≤ q + 1 then s2.meNext sp else s2.modMe sp (fun e => { e with state := 1, mma := some (ra.cons, rb.cons, q + 1) })

/-- MXMMA (R199): one step claims the slots and sums the first block, or sums the next block. The rings keep the claim of an MXMMA
that itself stops in a block (R187 speaks of earlier commands only): DESIGN CHOICE, log entry 37. -/
def execMxmma (sp acc ra rb k : Nat) (s : State) : Out :=
  let e := s.meOf sp
  let tm := s.meTeam sp
  .next (
    if !e.configured then s.meStop sp 2
    else match tm.ring ra, tm.ring rb with
      | some a, some b =>
        let ka := (s.meSlot sp e.aSlot).kind
        let kb := (s.meSlot sp e.bSlot).kind
        match e.mma with
        | some (ca, cb, q) => s.mmaBlock sp acc { a with cons := ca } { b with cons := cb } ka kb q k
        | none =>
          if ra = rb ∨ a.slots < k ∨ b.slots < k ∨ a.stride < (slotBytes ka).getD 0 ∨ b.stride < (slotBytes kb).getD 0 then s.meStop sp 3
          else if e.k < e.idx.getD acc 0 + k then s.meStop sp 6
          else if (a.pubd - a.cons).toNat < k ∨ (b.pubd - b.cons).toNat < k then s.meWait sp
          else
            let s1 := s.modTeam e.team (fun t =>
              (t.setRing { a with cons := a.cons + BitVec.ofNat 32 k }).setRing { b with cons := b.cons + BitVec.ofNat 32 k })
            s1.mmaBlock sp acc a b ka kb 0 k
      | _, _ => s.meStop sp 3)

/-! ### MXDRAIN (R200) -/

/-- A converted element. -/
def drainElem (sl : Slot) (k : FK) (x : Word) : Nat × Flags := slotCvt sl k x

/-- The tile kind a slot kind needs. -/
def drainKind : SlotKind → Option Nat
  | .b4 => none
  | .flt .f32 => some 0
  | .flt .f16 => some 1
  | .flt .bf16 => some 2
  | .flt _ => some 3

/-- Drain an accumulator to a tile. -/
def State.drainTile (s : State) (sp acc : Nat) (sl : Slot) (t : Tile) : State :=
  let tm := s.meTeam sp
  let e := s.meOf sp
  let k := match sl.kind with | .flt k => k | .b4 => FK.f32
  let one := fun (x : Nat × Nat) => drainElem sl k (e.elem acc x.1 x.2)
  let fl := t.cells.foldl (fun a x => a ||| (one x).2) (0 : Flags)
  let s1 := t.cells.foldl (fun u x => u.setElem tm t x.1 x.2 (one x).1) s
  ((s1.clearCovered (t.ranges tm t.cells)).modMe sp (fun e => e.addFlags fl)).meNext sp

/-- One line of a drained slot: its bytes with their offsets, and the flags. `h`: 0 or 1, the half of the
columns. -/
def drainLine (e : Me) (acc : Nat) (sl : Slot) (m h : Nat) : List (Nat × List Byte) × Flags :=
  let xs := (List.range 32).map (fun t => e.elem acc m (32 * h + t))
  match sl.kind with
  | .b4 =>
      let (sb, codes, f) := quantise xs sl.type sl.nanSat
      ([(16 * m, leBytes 16 ((List.range 32).foldl (fun a t => a + codes.getD t 0 * 16 ^ t) 0)), (1024 + m, [BitVec.ofNat 8 sb])], f)
  | .flt k =>
      let w := if k.width = 16 then 2 else 1
      let cs := xs.map (drainElem sl k)
      ([(32 * w * m, cs.flatMap (fun c => leBytes w c.1))], cs.foldl (fun a c => a ||| c.2) 0)

/-- Drain an accumulator into the next two slots of a ring. -/
def State.drainRing (s : State) (sp acc : Nat) (sl : Slot) (r : Ring) : State :=
  let tm := s.meTeam sp
  let e := s.meOf sp
  let part : Nat → Nat → List (Nat × List Byte) × Flags := fun h m =>
    let p := drainLine e acc sl m h
    (p.1.flatMap (fun x => localPieces tm (r.slotAt r.pubd h + BitVec.ofNat 64 x.1) x.2), p.2)
  let parts := (List.range 2).flatMap (fun h => (List.range 64).map (part h))
  let fl := parts.foldl (fun a p => a ||| p.2) (0 : Flags)
  let ws := parts.flatMap (·.1)
  let s1 := ws.foldl (fun u x => u.writeKey x.1 x.2) s
  let s2 := s1.clearCovered (ws.map (fun x => (x.1, x.2.length)))
  ((s2.modTeam e.team (fun t => t.setRing { r with pubd := r.pubd + 2 })).modMe sp (fun e => e.addFlags fl)).meNext sp

/-- MXDRAIN: a pair's accumulator is combined first; a ring target then waits for two free slots. A kind that a ring cannot hold comes
before the checks of the ring, an order that R200 leaves open: DESIGN CHOICE, log entry 37. -/
def execMxdrain (sp acc slot : Nat) (ring : Bool) (target : Nat) (s : State) : Out :=
  let tm := s.meTeam sp
  let sl := s.meSlot sp slot
  .next (
    if ring then
      match slotBytes sl.kind, tm.ring target with
      | none, _ => s.meStop sp 2
      | some _, none => s.meStop sp 3
      | some n, some r =>
        if r.slots < 2 ∨ r.stride < n then s.meStop sp 3
        else
          let c := s.combine sp acc
          if r.free < 2 then c.meWait sp
          else match tm.slotOut [(r.slotAt r.pubd 0, n), (r.slotAt r.pubd 1, n)] with
            | some va => c.meFenced sp 3 va
            | none => c.drainRing sp acc sl r
    else match tm.tile target with
      | none => s.meStop sp 5
      | some t =>
        if t.rows ≠ 64 ∨ t.cols ≠ 64 then s.meStop sp 5
        else if drainKind sl.kind ≠ some t.kind then s.meStop sp 2
        else match tm.outside t t.cells with
          | some va => (s.combine sp acc).meFenced sp 5 va
          | none => (s.combine sp acc).drainTile sp acc sl t)

/-- MXLOOP (R201); the stack's top is first. -/
def execMxloop (sp count back : Nat) (s : State) : Out :=
  let e := s.meOf sp
  let known := match e.loops with | l :: _ => l.addr == e.pc | [] => false
  .next (
    if !known && e.loops.length == 4 then s.meStop sp 8
    else
      let st := if known then e.loops else ⟨e.pc, count - 1⟩ :: e.loops
      match st with
      | [] => s.meNext sp
      | l :: rest =>
        if 0 < l.left then
          s.modMe sp (fun e => { e with loops := { l with left := l.left - 1 } :: rest }.at (e.pc - BitVec.ofNat 64 (8 * back)))
        else (s.modMe sp (fun e => { e with loops := rest })).meNext sp)

/-- MXSIG, MXFENCE, MXEND (R202): every earlier command has completed, since a command is one step. -/
def execMxsig (sp id : Nat) (s : State) : Out :=
  .next ((s.modMe sp (fun e => { e with sig := e.sig ||| BitVec.ofNat 8 (2 ^ id) })).meNext sp)

def execMxfence (sp : Nat) (s : State) : Out := .next (s.meNext sp)

def execMxend (sp : Nat) (s : State) : Out :=
  .next (((s.combineAll sp).unpair sp).modMe sp (fun e => { e with state := 3, word := none }))

/-- A command that breaks R48. -/
def execMxIllegalCommand (sp : Nat) (w : BitVec 64) (s : State) : Out := .next (s.meStop sp 1)

/-! ## Fetching a command (11 R182) -/

inductive MeFetch where
  | run (s : State) (i : Instr)
  | wait (s : State)
  | stop (s : State)

/-- The ME reads its next command, once, as a plain read of the group that forked it (03 R48). -/
def State.fetchMx (s : State) (sp : Nat) : MeFetch :=
  let e := s.meOf sp
  let tm := s.meTeam sp
  let core := coreOf sp
  let owner := s.meOwner sp
  match e.word with
  | some w => .run s (decodeMx sp w.toNat)
  | none =>
    if sramBase ≤ e.pc.toNat then .stop (s.meStop sp 9)
    else match s.engAcc owner core e.grid tm .read e.pc with
      | .ok k =>
          let t := s.traffic owner k 8 core (e.pc.toNat / 65536)
          if s.badRead k 8 then .stop (t.meStop sp 10)
          else
            let w := leNat (Memory.bytes s.mem k 8)
            .run (t.modMe sp (fun e => { e with word := some (BitVec.ofNat 64 w) })) (decodeMx sp w)
      | .dead => .stop (s.meStop sp 10)
      | .stop 3 => .stop (s.meStop sp 10)
      | .wait (some p) =>
          .wait ((s.queueMiss owner (engineMiss core sp p e.grid false)).modMe sp (fun e => { e with missing := true }))
      | .wait none => .wait s
      | .stop 6 =>
          -- an export that refuses the access (15 R281; 22 R407)
          .stop ((s.logViolation { cyc := s.cyc, addr := e.pc, target := 0, requester := requester 2 core sp, reqOwner := owner, reason := 1 }).meStop sp 9)
      | _ => .stop (s.meStop sp 9)

end Sys2Proof.Machine
end

