-- ==== Sys2Proof/Machine/System.lean ====
section
/-! DEFINITION. The system instructions: HRET, TRAP, HALTO, containment, translation entries, frames, discard,
racking, MEAS and the CSRs (20 R350-R369; 19 R325-R335; 01 R12), and the reserved opcode (03 R47). -/

set_option linter.unusedVariables false

namespace Sys2Proof.Machine

/-! ## The reserved opcode (03 R47) -/

/-- A word that fails the encoding checks. -/
def execReservedOpcode (w : BitVec 32) (s : State) : Out := .next (s.raiseWord .illegalOp)

/-! ## HRET (01 R12; 18 R314; 19 R330, R335; 20 R358) -/

/-- Where lane `i` resumes under the form of an `HRET`; none: at its saved or its own PC. -/
def State.hretTarget (s : State) (a : Nat) (k : HretK) (i : Nat) : Option DWord :=
  match k with
  | .saved => none
  | .uniform => some (s.cur.spair a)
  | .vector => some (s.vpair 4 a i)

/-- Held lanes selected through TLANE move as handler lanes do (19 R335). -/
def State.hretSelected (s : State) : Mask := s.cur.held &&& s.cur.tlane

/-- `HRET` of an in-group handler. The lanes it resumes have all their results first (02 R31). -/
def State.hretTeam (s : State) (a : Nat) (k : HretK) : State :=
  let iss := s.cur.iss
  let s := s.settle iss
  let sel := s.hretSelected
  let dest := s.hretTarget a k
  let gone := if k = .vector then laneSet (iss ||| sel) (fun i => dest i == some 0) else 0
  if (iss ||| sel).lanes.any (fun i => !(aligned4 ((dest i).getD (if iss.has i then s.cur.savedPc.get i else s.cur.pc.get i)))) then s.raiseWord .align
  else
    let s1 := s.goTo iss (fun i => (dest i).getD (s.cur.savedPc.get i))
    let s2 := s1.modCur (fun g => if k = .saved then g.leaveHandler else
      { (g.leaveHandler.giveUpMove iss) with cpyAt := g.cpyAt.setMany 0 iss.has (fun _ => 0) 64 })
    let s3 := if k = .saved then s2 else s2.moveLanes (sel &&& ~~~gone) (fun i => (dest i).getD 0)
    if gone = 0 then s3.endRun else ((s3.settle gone).dropLanes gone).endRun

/-- Parked lanes `m` of a group rejoin it as live lanes, at a new PC when one is given; a lane moved away from
a tile transfer gives it up (11 R208). -/
def State.resumeParked (s : State) (gid : Nat) (m : Mask) (dest : Option DWord) : State :=
  (s.cancelFaults gid m).modGid gid (fun g =>
    let m := m &&& g.fbin
    let g := { g with live := g.live ||| m, fbin := g.fbin &&& ~~~m
                      walkPage := g.walkPage.setMany 0 m.has (fun _ => 0) 64 }
    match dest with
    | some x => (g.giveUpMove m).setPc m (fun _ => x)
    | none => g)

/-- `HRET` of a handler group: its issuing lanes retire; those that serve a fault batch first resume the lanes
of their v2:v3 mask. -/
def State.hretSlot (s : State) (a : Nat) (k : HretK) : State :=
  let iss := s.cur.iss
  let dest := s.hretTarget a k
  if s.cur.kind = .page ∧ iss.lanes.any (fun i => match dest i with | some x => !(aligned4 x) | none => false) = true then
    s.raiseWord .align
  else
    let s1 := if s.cur.kind = .page then
        iss.lanes.foldl (fun (t : State) i =>
          match s.cur.served.find? (fun v => v.lane == i) with
          | some v => t.resumeParked v.gid (s.vpair 6 2 i &&& ~~~v.cut) (dest i)
          | none => t) s
      else s
    let s2 := if s.cur.kind = .page then
        s1.modCur (fun g => { g with served := g.served.filter (fun v => !(iss.has v.lane)) })
      else s1
    ((s2.settle iss).dropLanes iss).endRun

def execHret (h : Hdr) (a : Nat) (k : HretK) (s : State) : Out :=
  let ok := match k with
    | .saved => true
    | .uniform => s.cur.sPairOk a
    | .vector => s.cur.vPairOk a
  .next (
    if !ok then s.raiseWord .illegalReg
    else if !(s.uguard h) then s.goOn s.cur.iss 4
    else if !s.cur.hlv then s.raiseWord .illegalOp
    else if s.cur.inSlot then s.hretSlot a k
    else s.hretTeam a k)

/-! ## TRAP (20 R353, R354) -/

/-- The record of a trap: 64 bytes. -/
def State.trapRecord (s : State) (code : BitVec 14) (seq : Nat) : List (BitVec 8) :=
  leBytes 2 1 ++ leBytes 2 code.toNat ++ leBytes 4 s.cur.owner ++ leBytes 8 s.cyc.toNat ++ leBytes 8 s.cur.ipc.toNat ++
    leBytes 1 s.curCore ++ leBytes 1 (s.cur.sp % 4) ++ leBytes 1 s.cur.gnum ++ leBytes 1 0 ++ leBytes 4 seq ++
    (List.range 8).flatMap (fun k => leBytes 4 (s.cur.sreg k).toNat)

/-- A record joins the owner's sequence; `bytes` are made for its sequence number. -/
def State.queueRecord (s : State) (owner : Nat) (gid : Option Nat) (bytes : Nat → List (BitVec 8)) : State :=
  s.modOwner owner (fun o => { o with
    ringSeq := o.ringSeq + 1
    ringWaiting := o.ringWaiting ++ [⟨o.ringSeq, bytes o.ringSeq, gid⟩] })

def execTrap (h : Hdr) (code : BitVec 14) (s : State) : Out :=
  .next (
    if !(s.uguard h) then s.goOn s.cur.iss 4
    else if s.cur.hlv then s.raiseWord .illegalOp
    else
      let t := s.settle s.cur.iss
      let seq := t.curOwner.ringSeq
      (t.queueRecord t.cur.owner (some t.cur.gid) (t.trapRecord code)).modCur (fun g =>
        { g with trap := some (seq, g.iss), inRun := false }))

/-! ## HALTO (20 R356) -/

def execHalto (h : Hdr) (a : Nat) (s : State) : Out :=
  .next (
    if !(s.cur.sOk a 1) then s.raiseWord .illegalReg
    else if !(s.uguard h) then s.goOn s.cur.iss 4
    else s.haltOwner s.cur.owner 2 0 0 s.cur.ipc (if s.cur.hlv then s.cur.cause else Config.freeWord s.freeCtr 0) (s.cur.sreg a) s.cur.sp s.cur.inSlot)

/-! ## Containment (19 R337; 20 R357) -/

def execCbegin (h : Hdr) (off : BitVec 20) (s : State) : Out :=
  .next (
    if !(s.uguard h) then s.goOn s.cur.iss 4
    else if s.cur.hlv || decide (4 ≤ s.cur.cstack.length) then s.raiseWord .illegalOp
    else (s.modCur (fun g => { g with cstack := g.cstack ++ [jTarget g.ipc off] })).goOn s.cur.iss 4)

def execCend (h : Hdr) (s : State) : Out :=
  .next (
    if !(s.uguard h) then s.goOn s.cur.iss 4
    else if s.cur.hlv || s.cur.cstack.isEmpty then s.raiseWord .illegalOp
    else (s.modCur (fun g => { g with cstack := g.cstack.dropLast })).goOn s.cur.iss 4)

/-! ## Translation entries (19 R325-R329; 20 R359-R361) -/

/-- An entry as `TLBW` reads it from four words. -/
structure EntryWord where
  valid : Bool
  va : DWord
  e : Tlb
  reserved : Bool
  deriving DecidableEq, Repr

def pageStateOf (n : Nat) : PageState :=
  match n with
  | 0 => .resident
  | 1 => .absent
  | 2 => .discarded
  | _ => .migrating

def entryOf (w0 w1 w2 w3 : Word) : EntryWord :=
  let a := w0.toNat
  let va := BitVec.ofNat 64 (bitsOf a 31 16 * 65536 + bitsOf w3.toNat 24 0 * 2 ^ 32)
  { valid := a.testBit 0, va
    e := { page := va.toNat / 65536, big := a.testBit 7, pin := a.testBit 15, st := pageStateOf (bitsOf a 14 13)
           ord := bitsOf a 12 11, r := a.testBit 8, w := a.testBit 9, x := a.testBit 10
           frame := w1.toNat + bitsOf w2.toNat 3 0 * 2 ^ 32, cores := [] }
    reserved := bitsOf a 6 1 != 0 || bitsOf w2.toNat 31 4 != 0 || bitsOf w3.toNat 31 25 != 0 }

/-- The pages an entry maps. -/
def Tlb.span (e : Tlb) : Nat := if e.big then 32 else 1

def Tlb.overlaps (a b : Tlb) : Bool := decide (a.page < b.page + b.span) && decide (b.page < a.page + a.span)

def Tlb.coversPage (e : Tlb) (page : Nat) : Bool := decide (e.page ≤ page) && decide (page < e.page + e.span)

/-- The grant check of 19 R326. -/
def Owner.granted (o : Owner) (e : Tlb) : Bool :=
  o.grants.any (fun x => decide (x.first ≤ e.frame) && decide (e.frame + e.span ≤ x.first + x.count) &&
    (!e.r || x.r) && (!e.w || x.w) && (!e.x || x.x))

/-- The status `TLBW` gives an entry before it waits or writes (20 R359). -/
def Owner.tlbwRefuses (o : Owner) (w : EntryWord) : Nat :=
  if !w.valid || w.e.pin || w.e.st == .migrating || w.reserved ||
      (w.e.big && (w.e.page % 32 != 0 || w.e.frame % 32 != 0)) then 3
  else if sramBase ≤ w.va.toNat then 5
  else if o.tlb.any (fun e => e.pin && e.overlaps w.e) then 4
  else if w.e.st != .absent && !(o.granted w.e) then 2
  else 0

/-- How recently a core used an entry: its place in the list, the length of the list when it is not there. -/
def Owner.lastUse (o : Owner) (core : Nat) (e : Tlb) : Nat :=
  (o.recent.findIdx? (fun x => x.1 == core && e.coversPage x.2)).getD o.recent.length

/-- An owner holds an SP while a team of it lists the SP, a group of it is resident there, or a context of it
sits in the shadow bank (19 R324). -/
def State.holds (s : State) (owner sp : Nat) : Bool :=
  s.teams.any (fun t => t.owner == owner && t.sps.contains sp) ||
    s.allGroups.any (fun g => g.owner == owner && g.sp == sp && g.alive) ||
    (owner != 0 && (s.spOf sp).shadowOwner == owner)

/-- A halted owner other than `owner` holds the SP, which it keeps (18 R317). -/
def State.haltKeeps (s : State) (owner sp : Nat) : Bool := s.owners.any (fun o => o.id != owner && o.halt.isSome && s.holds o.id sp)

/-- SPs of a core that an owner holds and whose partitions are its (19 R327). -/
def State.spsOn (s : State) (owner core : Nat) : Nat :=
  ((List.range 4).filter (fun k => s.holds owner (4 * core + k) && (s.spOf (4 * core + k)).owner == owner)).length

/-- The entries of a core fit the partitions of the owner's `n` SPs there, each of which holds every PIN entry (19 R323, R327). Where
the owner has no SP, its engines' entries have the room of one (DEDUCED, log entry 36). -/
def Owner.fits (o : Owner) (core n : Nat) : Bool :=
  decide ((o.tlb.filter (fun e => !e.pin && e.cores.contains core)).length + n * (o.tlb.filter (·.pin)).length ≤ 2048 * max 1 n)

/-- An entry leaves a core; one that no core holds any more is gone, PIN entries apart. -/
def Owner.dropAt (o : Owner) (core : Nat) (p : Tlb → Bool) : Owner :=
  { o with tlb := (o.tlb.map (fun e => if p e then { e with cores := e.cores.filter (· != core) } else e)).filter (fun e =>
      e.pin || e.cores != []) }

/-- Replacement on a core (19 R327): while the core holds more entries than its `n` partitions take, the entry
whose last use is oldest leaves it. PIN entries and the entries to `keep` stay. -/
def Owner.evict (o : Owner) (core n : Nat) (keep : Tlb → Bool) : Nat → Owner
  | 0 => o
  | fuel + 1 =>
    if o.fits core n then o
    else
      match (o.tlb.filter (fun e => !e.pin && e.cores.contains core && !(keep e))).foldl (fun (acc : Option Tlb) e =>
          match acc with
          | Option.none => some e
          | some b => if o.lastUse core b < o.lastUse core e then some e else some b) Option.none with
      | Option.none => o
      | some v => (o.dropAt core (· == v)).evict core n keep fuel

/-- Lanes that wait for a page the entry covers issue again (19 R329). -/
def Group.unpark (e : Tlb) (g : Group) : Group :=
  let hit := fun i => (g.walkPage.get i).toNat != 0 && e.coversPage ((g.walkPage.get i).toNat - 1)
  let m := Mask.ofFn (fun i => (g.fbin.has i || g.mqWait.has i) && hit i) 64
  { g with live := g.live ||| (m &&& g.fbin), fbin := g.fbin &&& ~~~m, mqWait := g.mqWait &&& ~~~m
           walkPage := g.walkPage.setMany 0 m.has (fun _ => 0) 64 }

/-- What waits on translations of the owner tries again. -/
def State.retryEngines (s : State) (owner : Nat) : State :=
  let retry := fun (e : Me) => if (s.gridOf e.grid).owner = owner then { e with missing := false } else e
  { s with
    chains := s.chains.map (fun (c : Chain) => if c.owner = owner then { c with waitPage := false } else c)
    sps := s.sps.map (fun (p : Sp) => { p with me := retry p.me, shadowMe := retry p.shadowMe })
    saved := s.saved.map (fun (x : Saved) => { x with mes := x.mes.map retry }) }

/-- Write an entry on every core that waits on a miss for its page or holds an entry for it, and retire the
misses it covers (19 R328, R329). Being written counts as a use of the entry, where R327 says only that the oldest use leaves first. DESIGN
CHOICE, log entry 36. -/
def State.writeEntry (s : State) (owner : Nat) (e : Tlb) : State :=
  let o := s.ownerOf owner
  let missed := (o.misses ++ o.missWaiting).filter (fun m => !m.request && e.coversPage m.page)
  let cores := sortNat (missed.flatMap (·.cores) ++ (o.tlb.filter (fun x => x.overlaps e)).flatMap (·.cores))
  let new : Tlb := { e with cores }
  let s1 := s.modOwner owner (fun o =>
    let rest := o.tlb.filter (fun x => x.pin || !(x.overlaps e))
    let o := { o with
      recent := cores.map (fun c => (c, e.page)) ++ o.recent.filter (fun x => !(cores.contains x.1 && x.2 == e.page))
      tlb := if cores = [] then rest else rest ++ [new]
      misses := o.misses.filter (fun m => m.request || !(e.coversPage m.page))
      missWaiting := o.missWaiting.filter (fun m => m.request || !(e.coversPage m.page)) }
    (cores.filter (· != cpCore)).foldl (fun o c => o.evict c (s.spsOn owner c) (· == new) o.tlb.length) o)
  (s1.modContexts (fun g => g.owner == owner) (Group.unpark e)).retryEngines owner

def execTlbw (h : Hdr) (d a : Nat) (s : State) : Out :=
  let iss := s.cur.iss
  let ent := fun i => entryOf (s.vreg 1 a i) (s.vreg 2 (a + 1) i) (s.vreg 3 (a + 2) i) (s.vreg 4 (a + 3) i)
  .next (
    if !(s.cur.vOk d 1 && a % 4 == 0 && s.cur.vOk a 4) then s.raiseWord .illegalReg
    else if !(s.uguard h) then s.goOn iss 4
    else
      let st := fun i => s.curOwner.tlbwRefuses (ent i)
      let good := laneSet iss (fun i => st i == 0)
      match good.lanes.find? (fun i => s.migrating s.cur.owner (ent i).e.page ((ent i).e.page + (ent i).e.span - 1)) with
      | some i => s.waitFor iss (.racking (ent i).e.page ((ent i).e.page + (ent i).e.span - 1))
      | none =>
        let s1 := good.lanes.foldl (fun (t : State) i => t.writeEntry s.cur.owner (ent i).e) s
        (s1.modCur (fun g => g.setV iss d (fun i => BitVec.ofNat 32 (st i)))).goOn iss 4)

/-- Remove entries of the owner that are not pinned. -/
def State.dropEntries (s : State) (owner : Nat) (p : Tlb → Bool) : State :=
  s.modOwner owner (fun o => { o with tlb := o.tlb.filter (fun e => e.pin || !(p e)) })

/-- Past the last page of the translated addresses. -/
def pageTop : Nat := 2 ^ 48

def execTlbi (h : Hdr) (a : Nat) (k : TlbiK) (s : State) : Out :=
  let iss := s.cur.iss
  .next (match k with
    | .one =>
      let page := (s.cur.spair a).toNat / 65536
      if !(s.cur.sPairOk a) then s.raiseWord .illegalReg
      else if !(s.uguard h) then s.goOn iss 4
      else if s.migrating s.cur.owner page page then s.waitFor iss (.racking page page)
      else (s.dropEntries s.cur.owner (fun e => e.coversPage page)).goOn iss 4
    | .all =>
      if !(s.uguard h) then s.goOn iss 4
      else if s.migrating s.cur.owner 0 pageTop then s.waitFor iss (.racking 0 pageTop)
      else (s.dropEntries s.cur.owner (fun _ => true)).goOn iss 4)

/-- A page is resident, or resident while it migrates, in some entry of the owner. -/
def Owner.resident (o : Owner) (page : Nat) : Bool :=
  o.tlb.any (fun e => e.coversPage page && (e.st == .resident || e.st == .migrating))

def execPgreq (h : Hdr) (d a : Nat) (s : State) : Out :=
  let iss := s.cur.iss
  .next (
    if !(s.cur.vPairOk a) then s.raiseWord .illegalReg
    else if !(s.uguard h) then s.goOn iss 4
    else
      let s1 := iss.lanes.foldl (fun (t : State) i =>
        let va := s.vpair 1 a i
        let page := va.toNat / 65536
        let put := fun (u : State) (b : Bool) => u.modCur (fun g => g.setP (Mask.one i) d (if b then Mask.one i else 0))
        if sramBase ≤ va.toNat then put t false
        else if t.curOwner.resident page then put t true
        else
          match t.curOwner.enqueue { mid := 0, page, request := true, cores := [s.curCore], sp := s.cur.sp, claimed := false
                                     write := false, fetch := false, engine := false, grid := s.cur.grid } with
          | some o => put (t.modOwner s.cur.owner (fun _ => o)) true
          | none => put t false) s
      s1.goOn iss 4)

/-! ## Frames, discard and racking (20 R362-R364; 19 R332, R333) -/

/-- Write a status and go on. -/
def State.status (s : State) (d x : Nat) : State :=
  (s.modCur (fun g => g.setS d (BitVec.ofNat 32 x))).goOn s.cur.iss 4

def execFramea (h : Hdr) (d : Nat) (s : State) : Out :=
  .next (
    if !(s.cur.sPairOk d) then s.raiseWord .illegalReg
    else if !(s.uguard h) then s.goOn s.cur.iss 4
    else match s.curOwner.allotment with
      | [] => s.status d 1
      | f :: rest =>
        ((s.modOwner s.cur.owner (fun o => { o with allotment := rest, held := o.held ++ [f] })).modCur
          (fun g => g.setS (d + 1) (BitVec.ofNat 32 f))).status d 0)

/-- The entry maps the frame. -/
def Tlb.names (e : Tlb) (f : Nat) : Bool := e.st != .absent && decide (e.frame ≤ f) && decide (f < e.frame + e.span)

/-- The frame is named by an entry or is the target of a racking. -/
def State.frameNamed (s : State) (owner f : Nat) (discardedToo : Bool) : Bool :=
  (s.ownerOf owner).tlb.any (fun e => e.names f && (discardedToo || e.st != .discarded)) ||
    s.rackings.any (fun r => r.owner == owner && r.newFrame == f)

def execFramef (h : Hdr) (d a : Nat) (s : State) : Out :=
  let o := s.curOwner
  let f := (s.cur.sreg a).toNat
  let lost := s.frameLost (65536 * f)
  .next (
    if !(s.cur.sOk d 1 && s.cur.sOk a 1) then s.raiseWord .illegalReg
    else if !(s.uguard h) then s.goOn s.cur.iss 4
    else if o.reserve.any (fun r => r.2 == f) then s.status d 4
    else if !(o.held.contains f) then s.status d 10
    else if s.frameNamed s.cur.owner f false then s.status d 9
    else
      (s.modOwner s.cur.owner (fun o => { o with
        tlb := o.tlb.map (fun e => if e.names f then { e with st := .absent } else e)
        held := o.held.filter (· != f)
        -- a lost frame leaves the holding and the quota (22 R406)
        quotas := if lost then { o.quotas with frames := o.quotas.frames - 1 } else o.quotas
        allotment := if lost then o.allotment else f :: o.allotment })).status d 0)

def execDiscard (h : Hdr) (d a b : Nat) (s : State) : Out :=
  let o := s.curOwner
  let va := (s.cur.spair a).toNat
  let n := (s.cur.sreg b).toNat
  let first := va / 65536
  let inR := fun (e : Tlb) => decide (0 < n) && decide (e.page < first + n) && decide (first < e.page + e.span)
  .next (
    if !(s.cur.sOk d 1 && s.cur.sPairOk a && s.cur.sOk b 1) then s.raiseWord .illegalReg
    else if !(s.uguard h) then s.goOn s.cur.iss 4
    else if va % 65536 ≠ 0 then s.status d 12
    else if sramBase ≤ va ∨ sramBase < va + 65536 * n then s.status d 5
    else if o.tlb.any (fun e => e.pin && inR e) then s.status d 4
    else if o.tlb.any (fun e => e.big && inR e && !(decide (first ≤ e.page) && decide (e.page + 32 ≤ first + n))) then s.status d 6
    else if decide (0 < n) && s.migrating s.cur.owner first (first + n - 1) then s.waitFor s.cur.iss (.racking first (first + n - 1))
    else
      (s.modOwner s.cur.owner (fun o => { o with
        tlb := o.tlb.map (fun e => if inR e && e.st == .resident then { e with st := .discarded } else e) })).status d 0)

/-- Copy lines of 256 bytes from a frame of the owner to another, as its CE reads and writes them; a poisoned line is copied as poisoned
(19 R333). So is one that the peer of the frame refuses, for which the spec gives no outcome: DESIGN CHOICE, log entry 37. -/
def State.copyLines (s : State) (owner old new : Nat) (lines : List Nat) : State :=
  lines.foldl (fun (t : State) l =>
    let at' := fun f => 65536 * f + 256 * l
    let key := match t.pathOf (t.ownerOf owner) (at' old) with | .ok k => some k | _ => none
    let t1 := t.writeKey (at' new) ((key.map (fun k => Memory.bytes t.mem k 256)).getD (List.replicate 256 0))
    let t2 := (List.range 4).foldl (fun (u : State) j =>
      if (key.map (fun k => t.badRead (k + 64 * j) 64)).getD true then u.addPoison (blockOf (at' new + 64 * j)) else u) t1
    t2.modOwner owner (fun o => ((key.map (fun k => o.countBytes k 256)).getD o).countBytes (at' new) 256)) s

/-- The path of a frame of the owner does not flow yet (22 R387). -/
def State.frameWaits (s : State) (owner frame : Nat) : Bool := s.pathOf (s.ownerOf owner) (65536 * frame) == .hostWait

def execMigr (h : Hdr) (d a b : Nat) (s : State) : Out :=
  let o := s.curOwner
  let va := (s.cur.spair a).toNat
  let page := va / 65536
  let f := (s.cur.sreg b).toNat
  .next (
    if !(s.cur.sOk d 1 && s.cur.sPairOk a && s.cur.sOk b 1) then s.raiseWord .illegalReg
    else if !(s.uguard h) then s.goOn s.cur.iss 4
    else if !(s.slotFree s.cur.owner s.curCore) then s.waitFor s.cur.iss .ceSlot
    else if va % 65536 ≠ 0 then s.status d 12
    else if sramBase ≤ va then s.status d 5
    else if o.tlb.any (fun e => e.pin && e.coversPage page) then s.status d 4
    else if s.migrating s.cur.owner page page then s.status d 8
    else match o.tlb.find? (fun e => !e.big && e.page == page && e.st == .resident) with
      | none => s.status d 6
      | some e =>
        if o.grants.any (fun x => x.shared && decide (x.first ≤ e.frame) && decide (e.frame < x.first + x.count)) then s.status d 7
        else if !(o.held.contains f) then s.status d 10
        else if s.frameNamed s.cur.owner f true then s.status d 9
        else
          let late := s.frameWaits s.cur.owner e.frame
          let r : Racking := { owner := s.cur.owner, core := s.curCore, gid := s.cur.gid, dst := d, page, oldFrame := e.frame, newFrame := f
                               marked := if late then List.range 256 else [], round := if late then 0 else 1, frozen := false }
          let s1 := s.modOwner s.cur.owner (fun o => { o with
            tlb := o.tlb.map (fun x => if !x.big && x.page == page then { x with st := .migrating } else x) })
          let s2 := if late then s1 else s1.copyLines s.cur.owner e.frame f (List.range 256)
          ({ s2 with rackings := s2.rackings ++ [r] }).goOn s.cur.iss 4)

/-- RACKING_END: a round more while more than 8 lines are marked, at most six in all; then writes to the page begin to wait; then the
marked lines are copied, every entry of the page switches to the target frame, the old frame returns to the allotment, and the status
arrives (19 R333). -/
def execRackingEnd (owner : Nat) (va : BitVec 64) (s : State) : Out :=
  .next (match s.rackings.find? (fun r => r.owner == owner && r.page == va.toNat / 65536) with
    | none => s
    | some r =>
      if (s.ownerOf owner).halt.isSome || s.frameWaits owner r.oldFrame then s
      else if r.frozen = false then
        if 8 < r.marked.length ∧ r.round < 6 then
          let s1 := s.copyLines owner r.oldFrame r.newFrame (sortNat r.marked)
          { s1 with rackings := modAll (fun x => x == r) (fun x => { x with marked := [], round := x.round + 1 }) s1.rackings }
        else { s with rackings := modAll (fun x => x == r) (fun x => { x with frozen := true }) s.rackings }
      else
        let s1 := (s.copyLines owner r.oldFrame r.newFrame (sortNat r.marked)).moveStale ((s.ownerOf owner).frameBase r.oldFrame) r.newFrame
        let s2 := s1.modOwner owner (fun o => { o with
          tlb := o.tlb.map (fun e => if e.st == .migrating && !e.big && e.page == r.page then { e with st := .resident, frame := r.newFrame } else e)
          held := o.held.filter (· != r.oldFrame)
          allotment := if o.held.contains r.oldFrame && !(s.frameLost (65536 * r.oldFrame)) then r.oldFrame :: o.allotment else o.allotment })
        let s3 := s2.modGid r.gid (fun g => g.setS r.dst 0)
        { s3 with rackings := s3.rackings.filter (fun x => x != r) })

/-! ## MEAS (20 R365) -/

def execMeas (h : Hdr) (d a b : Nat) (s : State) : Out :=
  let va := s.cur.spair a
  let n := (s.cur.sreg b).toNat
  .next (
    if !(s.cur.sOk d 1 && s.cur.sPairOk a && s.cur.sOk b 1) then s.raiseWord .illegalReg
    else if !(s.uguard h) then s.goOn s.cur.iss 4
    else s.named va (
      if sramBase ≤ va.toNat ∨ sramBase < va.toNat + n then s.status d 5
      else if s.curGrid.gid = 0 ∨ 64 ≤ s.curGrid.meas.length then s.status d 11
      else (s.modGrid s.cur.grid (fun g => { g with meas := g.meas ++ [(va, n)] })).status d 0))

/-! ## Control and status registers (20 R366-R368) -/

def widthCode (w : Nat) : Nat := if w = 16 then 0 else if w = 32 then 1 else 2

/-- GCTL as it reads (20 R368). -/
def Group.gctl (g : Group) : Word :=
  BitVec.ofNat 32 (g.gnum % 16 * 4096 + widthCode g.width * 1024 + g.prio % 4 * 256 + (if g.kind = .bin then 8 else 0) +
    (if g.hlv then 4 else 0) + (if g.tmp then 2 else 0))

/-- The handler table address in force (20 R352, R367). -/
def State.htabOf (s : State) : DWord := if s.curGrid.gid = 0 then s.curOwner.htab else s.curGrid.record.htab

/-- CSRs of 64 bits. -/
def csrWide (n : Nat) : Bool := [0x011, 0x012, 0x020, 0x021, 0x022, 0x030, 0x040, 0x041, 0x042, 0x043, 0x044, 0x045].contains n

/-- The value of a CSR. -/
def State.csr (s : State) (n : Nat) : DWord :=
  match n with
  | 0x001 => s.cur.frm.setWidth 64
  | 0x002 => s.cur.fstat.setWidth 64
  | 0x003 => s.cur.gctl.setWidth 64
  | 0x010 => s.cur.cause.setWidth 64
  | 0x011 => s.cur.tval
  | 0x012 => s.cur.tlane
  | 0x020 => s.cyc
  | 0x021 => s.cur.gtmr
  | 0x022 => s.cur.gtcmp
  | 0x030 => s.htabOf
  | 0x031 => BitVec.ofNat 64 s.cur.owner
  | 0x0C8 => s.cur.ceinj.setWidth 64
  | 0x0D0 => (s.meOf s.cur.sp).stat.setWidth 64
  | k => s.curOwner.stall.getD (k - 0x040) 0

def execCsrr (h : Hdr) (d : Nat) (csr : BitVec 12) (s : State) : Out :=
  let n := csr.toNat
  .next (
    if csrWide n then s.uniAlu h (s.cur.sPairOk d) (fun g => g.setSPair d (s.csr n))
    else s.uniAlu h (s.cur.sOk d 1) (fun g => g.setS d (loW (s.csr n))))

/-- The CSRs a program writes; reserved bits stay 0 (00 R4). -/
def Group.writeCsr (g : Group) (n : Nat) (lo : Word) (x : DWord) : Group :=
  match n with
  | 0x001 => { g with frm := lo &&& 3 }
  | 0x002 => { g with fstat := lo &&& 63 }
  | 0x003 => { g with tmp := g.tmp && lo.getLsbD 1 }
  | 0x012 => { g with tlane := x }
  | 0x022 => { g with gtcmp := x, armed := decide (g.gtmr.toNat < x.toNat) }
  | 0x0C8 => { g with ceinj := lo }
  | _ => g

def execCsrw (h : Hdr) (d : Nat) (csr : BitVec 12) (s : State) : Out :=
  let n := csr.toNat
  let ok := if csrWide n then s.cur.sPairOk d else s.cur.sOk d 1
  .next (
    if ok && s.uguard h && n == 0x012 && !s.cur.hlv then s.raiseWord .illegalOp
    else s.uniAlu h ok (fun g => g.writeCsr n (g.sreg d) (g.spair d)))

end Sys2Proof.Machine
end

