-- ==== Sys2Proof/Machine/Launch.lean ====
section
/-! DEFINITION. Launches: the launch record and its checks, `LAUNCH`, host launches, placement of teams and
gangs, the retirement of teams, the completion of grids and their receipts (17 R305-R312, R416; 22 R393,
R394, R397-R401). -/

set_option linter.unusedVariables false

namespace Sys2Proof.Machine

/-! ## Accesses of the command processor (15 R275; 22 R397, R399) -/

/-- What the CP finds on one page. -/
inductive CpPage where
  | ok
  | miss
  | ask        -- a page whose handler can still make it accessible
  | bad
  | wait
  deriving DecidableEq, Repr

/-- Sort a page for an access of the CP. `absentOnly`: only an absent page is requested (22 R397). -/
def State.cpPage (s : State) (owner grid : Nat) (m : Mode) (absentOnly : Bool) (page : Nat) : CpPage :=
  if sramBase ≤ 65536 * page then .bad
  else match s.engXlate owner Team.none cpCore m (pageVa page) with
    | .ok _ => .ok
    | .miss => if s.walkless owner grid then .bad else .miss
    | .wait => .wait
    | .zero => if absentOnly then .bad else .ask
    | .page =>
        let absent := match (s.ownerOf owner).entry cpCore page with | some e => e.st == .absent | none => false
        if absent || !absentOnly then .ask else .bad
    | _ => .bad

/-- The pages of a range of bytes. -/
def pagesOf (va : DWord) (n : Nat) : List Nat :=
  if n = 0 then [] else (List.range ((va.toNat % 65536 + n - 1) / 65536 + 1)).map (fun i => va.toNat / 65536 + i)

/-- A request for the page is queued and not finished. -/
def Owner.requested (o : Owner) (page : Nat) : Bool := o.misses.any (fun m => m.request && m.page == page)

/-- A miss of the CP for the work of a grid. -/
def cpMiss (grid sp page : Nat) (write : Bool) : Miss :=
  { mid := 0, page, request := false, cores := [cpCore], sp, claimed := false, write, fetch := false, engine := true, grid }

/-- Make the CP's pages ready: none when every page is decided; else the state in which it waits, a miss or a
request queued. A page is requested once for one piece of work (19 R331). -/
def State.cpReady (s : State) (owner grid sp : Nat) (m : Mode) (absentOnly : Bool) : List Nat → Option State
  | [] => Option.none
  | p :: ps =>
    match s.cpPage owner grid m absentOnly p with
    | .miss => some (s.queueMiss owner (cpMiss grid sp p (m == .write)))
    | .wait => some s
    | .ask =>
      if (s.ownerOf owner).requested p then some s
      else if (s.ownerOf owner).cpAsked.contains p then s.cpReady owner grid sp m absentOnly ps
      else some ((s.queueRequest owner (cpMiss grid sp p (m == .write))).modOwner owner (fun o => { o with cpAsked := p :: o.cpAsked }))
    | _ => s.cpReady owner grid sp m absentOnly ps

/-- The CP's piece of work is done: its requests are forgotten. -/
def State.cpDone (s : State) (owner : Nat) : State := s.modOwner owner (fun o => { o with cpAsked := [] })

/-- One byte as the hash engine reads it: a byte that cannot be read, or of a poisoned block, is zero
(22 R397). -/
def State.cpByte (s : State) (owner : Nat) (va : DWord) : BitVec 8 × Bool :=
  if sramBase ≤ va.toNat then (0, true)
  else match s.engXlate owner Team.none cpCore .read va with
    | .ok k => if s.badRead k 1 then (0, true) else (s.mem.get k, false)
    | _ => (0, true)

/-- The CP has moved bytes of an owner (22 R417). -/
def State.cpTraffic (s : State) (owner : Nat) (m : Mode) (va : DWord) (n : Nat) : State :=
  (pageParts va n).foldl (fun (t : State) x => match t.engXlate owner Team.none cpCore m x.1 with
    | .ok k => t.traffic owner k x.2 cpCore (x.1.toNat / 65536)
    | _ => t) s

/-- Bytes of an item, and whether it is an unreadable item. -/
def State.cpBytes (s : State) (owner : Nat) (va : DWord) : Nat → List (BitVec 8) × Bool
  | 0 => ([], false)
  | n + 1 =>
    let (b, x) := s.cpByte owner va
    let (bs, y) := s.cpBytes owner (va + 1) n
    (b :: bs, x || y)

/-- The CP can write every byte of a range. -/
def State.cpWritable (s : State) (owner : Nat) (va : DWord) (n : Nat) : Bool :=
  decide (va.toNat + n ≤ sramBase) && (s.writeCheck owner Team.none cpCore va n).isNone

/-- Write bytes as one engine write. -/
def State.cpWrite (s : State) (owner : Nat) (va : DWord) (bs : List (BitVec 8)) : State :=
  let keys := (List.range bs.length).filterMap (fun i =>
    match s.engXlate owner Team.none cpCore .write (va + BitVec.ofNat 64 i) with
    | .ok k => some (k, 1)
    | _ => none)
  ((s.writeVa owner Team.none cpCore va bs).clearCovered keys).cpTraffic owner .write va bs.length

/-! ## The launch record (17 R305, R306) -/

def parseRecord (bs : List (BitVec 8)) : LaunchRec :=
  let u := leField bs
  let a := fun off => BitVec.ofNat 64 (u off 8)
  { paired := u 4 1 % 2 == 1, matrix := u 4 1 / 2 % 2 == 1, entry := a 8, teams := u 0x10 4 + 1, width := 2 ^ u 0x14 1
    groups := u 0x15 1, vregs := 8 * u 0x16 1, sregs := 16 * u 0x17 1, banks := u 0x18 2, slots := u 0x1A 1
    prio := u 0x1B 1, gang := u 0x1C 4, formats := (List.range 8).map (fun n => u (0x20 + 2 * n) 2)
    argAddr := a 0x30, argLen := u 0x38 4, resCount := u 0x3C 4, resTable := a 0x40, htab := a 0x48, reserve := a 0x50
    compl := a 0x58, manifest := a 0x60, manifestCount := u 0x68 4 }

/-- The record keeps R305 and its slot words R151. -/
def recordOk (bs : List (BitVec 8)) : Bool :=
  let u := leField bs
  let r := parseRecord bs
  u 0 4 == 1 && decide (u 4 4 < 4) && r.entry.toNat % 4 == 0 &&
    decide (4 ≤ u 0x14 1) && decide (u 0x14 1 ≤ 6) && decide (1 ≤ r.groups) && decide (r.groups ≤ 16) &&
    decide (8 ≤ r.vregs) && decide (r.vregs ≤ 64) && decide (16 ≤ r.sregs) && decide (r.sregs ≤ 64) &&
    decide (r.banks ≤ (if r.paired then 96 else 48)) &&
    (if r.paired then decide (2 ≤ r.slots) && decide (r.slots ≤ 8) else decide (1 ≤ r.slots) && decide (r.slots ≤ 4)) &&
    decide (r.prio ≤ 3) && (r.gang == 0 || (decide (2 ≤ r.gang) && decide (r.gang ≤ r.teams))) &&
    r.formats.all slotWordOk && r.argAddr.toNat % 4 == 0 && r.argLen % 4 == 0 && decide (r.argLen ≤ 4 * r.sregs) &&
    decide (r.resCount ≤ 16) && r.resTable.toNat % 8 == 0 && r.htab.toNat % 64 == 0 &&
    (r.reserve != 0 || r.htab == 0) && r.compl.toNat % 8 == 0 && r.manifest.toNat % 8 == 0 &&
    decide (r.manifestCount ≤ 65535) && (r.manifest != 0 || r.manifestCount == 0) && u 0x6C 8 == 0 && u 0x74 12 == 0

/-- An address lies in the owner's reserve (19 R323). -/
def Owner.reserved (o : Owner) (va : DWord) : Bool := o.reserve.any (fun r => r.1 == va.toNat / 65536)

/-- The CP takes a handler table (20 R352). -/
def tableOk (o : Owner) (es : List DWord) : Bool :=
  (List.range 16).all (fun k =>
    let e := es.getD k 0
    if k = 0 ∨ 13 ≤ k then e == 0 else e == 0 || (e.toNat % 4 == 0 && o.reserved e))

/-- Entries of 16 bytes: an address and a length. -/
def rangesOf (bs : List (BitVec 8)) (n : Nat) : List (DWord × Nat) :=
  (List.range n).map (fun k => (BitVec.ofNat 64 (leField bs (16 * k) 8), leField bs (16 * k + 8) 8))

/-! ## The measurement chain (22 R397) -/

/-- The identity key ID: bytes 0-15 of SHA-512 over the DER encoding of the identity public key (22 R384). -/
def identityKeyId : List (BitVec 8) := (sha512 Config.identityKey).take 16

def tagGNMC : List (BitVec 8) := [0x47, 0x4E, 0x4D, 0x43]

def chainStart (owner number : Nat) (tenant : List (BitVec 8)) : List (BitVec 8) :=
  sha512 (tagGNMC ++ leBytes 4 owner ++ leBytes 8 number ++ identityKeyId ++ sha512 tenant)

def chainExtend (m : List (BitVec 8)) (tag : Nat) (item : List (BitVec 8)) : List (BitVec 8) :=
  sha512 (m ++ leBytes 4 tag ++ sha512 item)

/-! ## Acceptance (17 R306, R311; 22 R393, R397, R398) -/

inductive Accepted where
  | wait (s : State)
  | refuse (code : Nat)
  | ok (s : State)
  deriving DecidableEq, Repr

/-- Read a part of a launch for acceptance: a miss waits, any other failure refuses, with POISON apart. -/
inductive AccRead where
  | got (bs : List (BitVec 8))
  | wait (s : State)
  | page
  | poison
  deriving DecidableEq, Repr

def State.accRead (s : State) (owner grid sp : Nat) (va : DWord) (n : Nat) : AccRead :=
  if n = 0 then .got []
  else if sramBase < va.toNat + n then .page
  else match (pagesOf va n).find? (fun p => s.cpPage owner grid .read true p == .miss || s.cpPage owner grid .read true p == .wait) with
    | some p =>
      .wait (if s.cpPage owner grid .read true p = .miss then s.queueMiss owner (cpMiss grid sp p false) else s)
    | none =>
      let r := s.readVa owner Team.none cpCore va n
      if r.bad then .page else if r.poison then .poison else .got r.bytes

/-- The argument block as the hash engine reads it: an absent page is asked for and waited for, poisoned bytes are zeros, with which the group
starts too, and a block that cannot be read refuses the launch (17 R306; 22 R397). That R397 has such a block hashed too is settled by R306.
DESIGN CHOICE, log entry 37. -/
def State.accArgs (s : State) (owner grid sp : Nat) (va : DWord) (n : Nat) : AccRead :=
  if n = 0 then .got []
  else if sramBase < va.toNat + n then .page
  else match s.cpReady owner grid sp .read true (pagesOf va n) with
    | some t => .wait t
    | none =>
      let r := s.readVa owner Team.none cpCore va n
      if r.bad then .page else .got r.bytes

/-- Contexts in use (22 R398). -/
def State.contexts (s : State) : Nat := (s.grids.filter (fun g => !g.released)).length

/-- Device launches of an owner still queued for placement. -/
def State.deviceQueue (s : State) (owner : Nat) : Nat :=
  (s.grids.filter (fun g => g.owner == owner && g.device && decide (g.nextTeam < g.record.teams))).length

/-- SPs a launch needs at once: those of a team, or of a gang (17 R306). -/
def LaunchRec.spNeed (r : LaunchRec) : Nat := r.slots * max 1 r.gang

/-- The launch at `va` as far as the CP can take it: a wait, a refusal with its code, or the grid queued for
placement with items 1-3 of its chain hashed. -/
def State.accept (s : State) (owner grid sp : Nat) (device : Bool) (va : DWord) : Accepted :=
  let o := s.ownerOf owner
  if va.toNat % 64 ≠ 0 then .refuse 4
  else match s.accRead owner grid sp va 128 with
    | .wait t => .wait t
    | .page => .refuse 3
    | .poison => .refuse 6
    | .got raw =>
      if device && (decide (256 ≤ s.deviceQueue owner) || decide (4096 ≤ s.contexts)) then .refuse 2
      else if 4096 ≤ s.contexts then .wait s
      else
        let r := parseRecord raw
        if !(recordOk raw) then .refuse 1
        else
          match s.accArgs owner grid sp r.argAddr r.argLen, s.accRead owner grid sp r.resTable (16 * r.resCount),
                s.accRead owner grid sp r.htab (if r.htab = 0 then 0 else 128), s.accRead owner grid sp r.manifest (16 * r.manifestCount) with
          | .wait t, _, _, _ => .wait t
          | _, .wait t, _, _ => .wait t
          | _, _, .wait t, _ => .wait t
          | _, _, _, .wait t => .wait t
          | .got args, .got res, .got ht, .got man =>
            let table := tableEntries ht
            if r.htab != 0 && (!(tableOk o table) || !(o.reserved r.htab && o.reserved (r.htab + 127))) then .refuse 1
            else if o.quotas.sram < r.banks ∨ o.quotas.sp < r.spNeed then .refuse 5
            else
              let code := rangesOf man r.manifestCount
              match s.cpReady owner grid sp .read true (code.flatMap (fun x => pagesOf x.1 x.2)) with
              | some t => .wait t
              | none =>
                let parts := code.map (fun x => s.cpBytes owner x.1 x.2)
                let n := o.launchCounter + 1
                let m := chainExtend (chainExtend (chainExtend (chainStart owner n o.tenantKey) 1 raw) 2 (parts.flatMap (·.1))) 3 args
                let argBad := r.argLen != 0 && (s.readVa owner Team.none cpCore r.argAddr r.argLen).poison
                let read := [(va, 128), (r.argAddr, r.argLen), (r.resTable, 16 * r.resCount), (r.htab, if r.htab = 0 then 0 else 128),
                  (r.manifest, 16 * r.manifestCount)] ++ code
                let (gid, s1) := (read.foldl (fun (t : State) x => t.cpTraffic owner .read x.1 x.2) (s.cpDone owner)).freshId
                let g : Grid := { Grid.none with
                  gid, owner, record := r, raw
                  args := (List.range (r.argLen / 4)).map (fun k => BitVec.ofNat 32 (leField args (4 * k) 4))
                  handlers := if r.htab = 0 then [] else table, results := rangesOf res r.resCount
                  number := n, chain := BitVec.ofNat 512 (leNat m), unreadable := (if parts.any (·.2) then 1 else 0) + (if argBad then 1 else 0)
                  gangWait := s.cyc.toNat, device, seq := s.freeCtr }
                .ok { (s1.modOwner owner (fun o => { o with launchCounter := n })) with grids := s1.grids ++ [g] }
          | _, _, _, _ => .refuse 1

/-- A launch that the owner's quotas refuse is a violation (22 R407; DEDUCED, log entry 38). -/
def State.logRefusal (s : State) (owner who : Nat) (va : DWord) (code : Nat) : State :=
  if code = 5 then
    s.logViolation { cyc := s.cyc, addr := va, target := owner, requester := who, reqOwner := owner, reason := 2 }
  else s

/-- `LAUNCH` (17 R311). While the CP waits for the record, or has earlier launches of the owner to deal with, the lanes go on
and the status is still to come. -/
def execLaunch (h : Hdr) (d a : Nat) (s : State) : Out :=
  .next (
    if !(s.cur.sOk d 1 && s.cur.sPairOk a) then s.raiseWord .illegalReg
    else if !(s.uguard h) then s.goOn s.cur.iss 4
    else if s.cur.hlv then s.raiseWord .illegalOp
    else
      let t := s.settle s.cur.iss
      let l : DevLaunch := ⟨t.cur.gid, t.cur.grid, t.cur.sp, d, t.cur.spair a⟩
      let later := fun (u : State) => (u.modOwner u.cur.owner (fun o => { o with devLaunches := o.devLaunches ++ [l] })).goOn u.cur.iss 4
      if t.curOwner.devLaunches != [] then later t
      else match t.accept t.cur.owner t.cur.grid t.cur.sp true (t.cur.spair a) with
      | .wait u => later u
      | .refuse c => ((t.cpDone t.cur.owner).logRefusal t.cur.owner (requester 1 t.curCore t.cur.sp) (t.cur.spair a) c).status d c
      | .ok u => u.status d 0)

/-- The CP deals with the oldest device launch that waits. -/
def State.devLaunch (s : State) (owner : Nat) : State :=
  match (s.ownerOf owner).devLaunches with
  | [] => s
  | l :: rest =>
    let pop := fun (u : State) (c : Nat) =>
      (u.modOwner owner (fun o => { o with devLaunches := rest })).modGid l.gid (fun g => g.setS l.dst (BitVec.ofNat 32 c))
    match s.accept owner l.grid l.sp true l.va with
    | .wait t => t
    | .refuse c => pop ((s.cpDone owner).logRefusal owner (requester 1 (coreOf l.sp) l.sp) l.va c) c
    | .ok u => pop u 0

/-- The CP takes up the oldest host launch of an owner (22 R393). A refused one gives a record of type 4 (R394). -/
def State.hostLaunch (s : State) (owner : Nat) : State :=
  match (s.ownerOf owner).launches with
  | [] => s
  | va :: rest =>
    let pop := fun (u : State) => u.modOwner owner (fun o => { o with launches := rest })
    match s.accept owner 0 4096 false va with
    | .wait t => t
    | .ok t => pop t
    | .refuse c =>
      (pop ((s.cpDone owner).logRefusal owner (requester 5 0 0) va c)).queueRecord owner none (fun _ => leBytes 2 4 ++ leBytes 2 0 ++ leBytes 4 owner ++ leBytes 8 va.toNat ++
        leBytes 4 c ++ List.replicate 44 0)

/-- LAUNCH_ACCEPT: the CP goes on with a device launch that waits, else it takes up a host launch. -/
def execLaunchAccept (owner : Nat) (s : State) : Out :=
  .next (
    if (s.ownerOf owner).halt.isSome then s
    else if s.devLaunch owner = s then s.hostLaunch owner else s.devLaunch owner)

/-! ## Places (17 R307-R309; 11 R183; 13 R216; 19 R324, R342) -/

/-- Bytes of a section, 64-byte aligned. -/
def up64 (n : Nat) : Nat := (n + 63) / 64 * 64

/-- Bytes of an uncompressed vector line with its header (02 R36). -/
def lineBytes (w : Nat) : Nat := if w = 16 then 65 else 129

/-- Vector lines of a register. -/
def linesOf (w : Nat) : Nat := if w = 64 then 2 else 1

/-- Bytes of the team state of an image without its cask queues: 16 bins, the arrival bits, 8 rings, 16 tiles (19 R343 leaves its
layout open; DESIGN CHOICE, log entry 14). -/
def teamStateBytes : Nat := 19968

/-- The uncompressed size of a team's image (19 R342, R343), its cask queues aside. -/
def LaunchRec.imageSize (r : LaunchRec) : Nat :=
  64 + r.groups * up64 (640 + r.width * 160 + r.vregs * linesOf r.width * lineBytes r.width) +
    (if r.matrix then r.slots * (128 + 262144) else 0) + teamStateBytes + r.banks * 65536

/-- The first offset of the save area at which `n` bytes are free, the place and the images of team `skip` apart. -/
def State.saveSlot (s : State) (o : Owner) (skip n : Nat) : Option Nat :=
  let taken := (s.teams.filter (fun t => t.owner == o.id && t.tid != skip)).map (fun t => (t.saveOff, t.saveLen)) ++
    (s.saved.filter (fun x => x.owner == o.id && x.tid != skip)).flatMap (fun x =>
      (x.va.toNat - o.saveVa.toNat, up64 x.len) :: (x.team.map (fun t => (t.saveOff, t.saveLen))).toList)
  (sortNat (0 :: taken.map (fun x => x.1 + x.2))).find? (fun off =>
    decide (off + n ≤ o.saveLen) && taken.all (fun x => decide (x.1 + x.2 ≤ off) || decide (off + n ≤ x.1)))

/-- Cores of an owner's rectangle, or leader cores of its pairs, ascending. -/
def Owner.cores (o : Owner) (paired : Bool) : List Nat :=
  let r0 := o.rect.getD 0 0
  let c0 := o.rect.getD 1 0
  let inR := fun (core : Nat) => decide (r0 ≤ core / 16) && decide (core / 16 < r0 + o.rect.getD 2 0) &&
    decide (c0 ≤ core % 16) && decide (core % 16 < c0 + o.rect.getD 3 0)
  (List.range 256).filter (fun c => inR c && (!paired || (c % 2 == 0 && inR (c + 1))))

/-- An SP that can take work of the owner at all (19 R324): up, not quarantined, its core not retired, no other owner's group on it,
and held by nobody else, unless a swap of the host freed it, for this owner already or for whoever takes it. -/
def State.spUsable (s : State) (owner sp : Nat) : Bool :=
  let p := s.spOf sp
  p.up && !p.quarantined && !(s.retiredCores.contains (coreOf sp)) && !(s.haltKeeps owner sp) && s.allGroups.all (fun g => g.sp != sp || !g.alive || g.owner == owner) &&
    (p.freed || (p.owner == owner && s.holds owner sp) || s.owners.all (fun o => o.id == owner || !(s.holds o.id sp)))

/-- An SP can take `lanes` more lanes of a team of the grid (17 R307). A reserved SP takes no other work. -/
def State.spTakes (s : State) (gr : Grid) (sp lanes : Nat) : Bool :=
  let here := s.teams.filter (fun t => t.sps.contains sp)
  s.spUsable gr.owner sp && decide (s.lanesOn sp + lanes ≤ 1024) &&
    (if gr.record.matrix then here == [] && !(s.allGroups.any (fun g => g.sp == sp && g.alive && !g.inSlot)) else true) &&
    here.all (fun t => !(s.gridOf t.grid).record.matrix) &&
    s.grids.all (fun g => g.gid == gr.gid || !(g.gangReserved.contains sp))

/-- Lanes that entry `k` of a team's SP list takes (17 R308). -/
def LaunchRec.lanesAt (r : LaunchRec) (k : Nat) : Nat :=
  ((List.range r.groups).filter (fun g => g % r.slots == k)).length * r.width

/-- Pick `n` SPs among candidates, entries `k` on, each with room for its `lanes`. -/
def State.pickSps (s : State) (gr : Grid) (lanes : Nat → Nat) (ok : Nat → Bool) : List Nat → Nat → Nat → List Nat
  | [], _, _ => []
  | p :: ps, k, n =>
    if n = 0 then []
    else if ok p && s.spTakes gr p (lanes k) then p :: s.pickSps gr lanes ok ps (k + 1) (n - 1)
    else s.pickSps gr lanes ok ps k n

def State.freeBanks (s : State) (core : Nat) : List Nat :=
  ((List.range 48).map (fun b => 48 * core + b)).filter (fun b => (s.bankOf b).fence == 0)

/-- A place: its SPs and banks, the leader core's first. -/
structure Site where
  core : Nat
  sps : List Nat
  banks : List Nat
  partnerBanks : List Nat
  deriving DecidableEq, Repr

def half (n : Nat) : Nat := (n + 1) / 2

/-- The place a core or a pair offers a team of a grid. -/
def State.placeAt (s : State) (gr : Grid) (lanes : Nat → Nat) (ok : Nat → Bool) (core : Nat) : Option Site :=
  let r := gr.record
  let n0 := if r.paired then half r.slots else r.slots
  let b0 := if r.paired then half r.banks else r.banks
  let sp := fun c => (List.range 4).map (fun k => 4 * c + k)
  let s0 := s.pickSps gr lanes ok (sp core) 0 n0
  let s1 := if r.paired then s.pickSps gr lanes ok (sp (core + 1)) n0 (r.slots - n0) else []
  let f0 := (s.freeBanks core).take b0
  let f1 := if r.paired then (s.freeBanks (core + 1)).take (r.banks - b0) else []
  if s0.length = n0 ∧ s1.length = r.slots - n0 ∧ f0.length = b0 ∧ f1.length = r.banks - b0 then
    some ⟨core, s0 ++ s1, f0, f1⟩
  else Option.none

/-- Quotas of a placement: banks and SPs (13 R216; 19 R324). -/
def State.withinQuota (s : State) (o : Owner) (p : Site) : Bool :=
  decide ((s.banks.filter (fun b => b.fence == o.id)).length + p.banks.length + p.partnerBanks.length ≤ o.quotas.sram) &&
    decide (((s.sps.filter (fun x => s.holds o.id x.num)).length + (p.sps.filter (fun x => !(s.holds o.id x))).length) ≤ o.quotas.sp)

/-- The lowest-numbered core or pair that offers a place; entry `k` of its SPs takes `lanes k`. -/
def State.findPlace (s : State) (gr : Grid) (lanes : Nat → Nat) (ok : Nat → Bool) : Option Site :=
  let o := s.ownerOf gr.owner
  ((o.cores gr.record.paired).filterMap (s.placeAt gr lanes ok)).find? (s.withinQuota o)

/-- What an SP's last owner loses when the SP passes on (19 R327): with no other SP of it on the core, every entry there, PIN entries
too; else those of this SP's partition, which the spec gives no way to name: each unpinned entry leaves by a free choice (DESIGN
CHOICE, log entry 36). -/
def Owner.loseSp (o : Owner) (ctr core n : Nat) : Owner :=
  if n = 0 then o.dropAt core (fun _ => true)
  else
    let o' := o.dropAt core (fun e => !e.pin && Config.freeBit ctr 600000 e.page)
    o'.evict core n (fun _ => false) o'.tlb.length

/-- A PIN entry of each reserve frame comes with an SP (19 R323). -/
def Owner.gainSp (o : Owner) (core : Nat) : Owner :=
  { o with tlb := o.tlb.map (fun e => if e.pin && !(e.cores.contains core) then { e with cores := e.cores ++ [core] } else e) }

/-- An SP passes to an owner: its unit and the translations of its last owner are cleared, the owner's PIN entries come, and what waited for one of these
tries again. -/
def State.takeSp (s : State) (owner sp : Nat) : State :=
  let old := (s.spOf sp).owner
  let core := coreOf sp
  let s1 := s.modSp sp (fun p => { p with owner, freed := false, me := if old = owner then p.me else Me.idle })
  let s2 := if old = 0 ∨ old = owner then s1 else s1.modOwner old (fun o => o.loseSp s.freeCtr core (s1.spsOn old core))
  (s2.modOwner owner (fun o => o.gainSp core)).retryEngines owner

/-- The matrix unit as a team takes it: every accumulator element +0.0, MXSTAT 0 (11 R183). -/
def Me.forTeam (tid grid : Nat) : Me := { Me.idle with team := tid, grid }

/-- Nothing has used the unit since a team took it. -/
def Me.fresh (e : Me) : Bool := e.state == 0 && e.acc == [] && e.forkChain.isNone && !e.follower && e.pair == 0

/-- A bank is written to zero, then its fence names the owner (13 R221; 22 R376). -/
def State.takeBank (s : State) (owner bank : Nat) : State :=
  let k := bankKey bank 0
  let s1 := { s with mem := s.mem.filter (fun x => decide (x.1 < k) || decide (k + 65536 ≤ x.1))
                     poison := s.poison.filter (fun b => decide (64 * b < k) || decide (k + 65536 ≤ 64 * b)) }
  s1.modBank bank (fun b => { b with fence := owner })

/-- A team starts at a place: its state as in 02 R16, its groups as in 02 R15. -/
def State.startTeam (s : State) (gr : Grid) (num : Nat) (p : Site) (save : Nat) : State :=
  let r := gr.record
  let (tid, s0) := s.freshId
  let tm : Team := { Team.none with
    tid, grid := gr.gid, owner := gr.owner, num, core := p.core, paired := r.paired, sps := p.sps, banks := p.banks
    partnerBanks := p.partnerBanks, saveOff := save, saveLen := r.imageSize }
  let s1 := p.sps.foldl (fun (t : State) sp => t.takeSp gr.owner sp) s0
  let s2 := (p.banks ++ p.partnerBanks).foldl (fun (t : State) b => t.takeBank gr.owner b) s1
  let s3 := if r.matrix then p.sps.foldl (fun (t : State) sp => t.modMe sp (fun _ => Me.forTeam tid gr.gid)) s2 else s2
  let s4 := { s3 with teams := s3.teams ++ [tm] }
  let s5 := (List.range r.groups).foldl (fun (t : State) g =>
    let sp := p.sps.getD (g % r.slots) 0
    let (gid, u) := t.freshId
    { u with groups := u.groups ++ [newGroup gid .team gr gr.owner tid num g sp (u.freeSlot sp) r.entry s.cyc] }) s4
  s5.modGrid gr.gid (fun g => { g with nextTeam := num + 1, startCyc := some (g.startCyc.getD s.cyc) })

/-! ## Bin launches (17 R295) -/

/-- The SP takes groups of an owner whose team lists it: it is up, not quarantined, neither being switched nor left idle by the host,
no other owner's group is on it, and it is the owner's or its last owner holds it no more (02 R17; 19 R324, R339, R341). -/
def State.spOpen (s : State) (owner sp : Nat) : Bool :=
  let p := s.spOf sp
  p.up && !p.quarantined && !p.preempt && !p.freed && !(s.haltKeeps owner sp) && s.allGroups.all (fun g => g.sp != sp || !g.alive || g.owner == owner) &&
    (p.owner == owner || !(s.holds p.owner sp))

/-- The team SP with the fewest resident lanes that has room for `w` more (17 R295). -/
def State.roomiest (s : State) (owner : Nat) (sps : List Nat) (w : Nat) : Option Nat :=
  (sps.filter (fun p => s.spOpen owner p && decide (s.lanesOn p + w ≤ 1024))).foldl (fun best p =>
    match best with
    | none => some p
    | some q => if s.lanesOn p < s.lanesOn q ∨ (s.lanesOn p = s.lanesOn q ∧ p < q) then some p else some q) none

/-- BIN_LAUNCH: a due launch takes place (17 R295). The lowest due bin of the team goes first. -/
def execBinLaunch (team bin : Nat) (s : State) : Out :=
  let tm := s.teamOf team
  let gr := s.gridOf tm.grid
  .next (match tm.bin bin with
    | none => s
    | some b =>
      if !(s.binDue tm b) || tm.bins.any (fun x => s.binDue tm x && decide (x.num < bin)) || (s.ownerOf tm.owner).halt.isSome then s
      else match tm.tile b.tile, s.freeGnum team, s.roomiest tm.owner tm.sps gr.record.width with
        | some t, some gn, some sp =>
          let rows := (b.wokenRows t.rows).take gr.record.width
          if rows = [] then s.modBin team bin (fun b => { b with due := false })
          else
            let (gid, s1) := s.freshId
            let g := newGroup gid .bin gr tm.owner team tm.num gn sp (s.freeSlot sp) b.resume s.cyc
            let g := { g with live := Mask.upto rows.length, bin, rows := (List.range rows.length).zip rows }
            let s2 := s1.modBin team bin (fun b => { b with
              rows := b.rows.map (fun r => if rows.contains r.num then { r with st := .launched } else r)
              due := false, timer := 0 })
            let s3 := s2.takeSp tm.owner sp
            { s3 with groups := s3.groups ++ [g] }
        | _, _, _ => s)

/-! ## Teams and gangs -/

/-- The oldest waiting gang of an owner (17 R309). -/
def State.oldestGang (s : State) (owner : Nat) : Option Grid :=
  s.grids.find? (fun g => g.owner == owner && decide (0 < g.record.gang) && decide (g.nextTeam < g.record.teams))

/-- Teams of the grid's next gang. -/
def Grid.gangSize (g : Grid) : Nat := min g.record.gang (g.record.teams - g.nextTeam)

/-- SPs the launch holds. -/
def State.gridSps (s : State) (gid : Nat) : Nat :=
  (s.sps.filter (fun p => s.teams.any (fun t => t.grid == gid && t.sps.contains p.num))).length

/-- The core is one of those, or of the pairs, on which a team of the grid can lie. -/
def State.coreServes (s : State) (gr : Grid) (core : Nat) : Bool :=
  ((s.ownerOf gr.owner).cores gr.record.paired).contains (if gr.record.paired then core / 2 * 2 else core)

/-- An aged gang keeps a freed SP it can use from a launch of its owner that holds fewer SPs than it needs
(17 R309). -/
def State.agedBlocks (s : State) (gr : Grid) (sp : Nat) : Bool :=
  match s.oldestGang gr.owner with
  | none => false
  | some g =>
    g.aged && g.gid != gr.gid && decide (s.gridSps gr.gid < g.gangSize * g.record.slots) &&
      !(s.holds gr.owner sp) && s.coreServes g (coreOf sp) && s.spTakes g sp (g.record.lanesAt 0)

/-- TEAM_PLACEMENT: the next team of a grid is placed at the lowest place, when there is one. -/
def execTeamPlacement (grid : Nat) (s : State) : Out :=
  let gr := s.gridOf grid
  let o := s.ownerOf gr.owner
  .next (
    if gr.gid = 0 ∨ gr.done = true ∨ gr.record.teams ≤ gr.nextTeam ∨ 0 < gr.record.gang ∨ o.halt.isSome = true then s
    else match s.findPlace gr gr.record.lanesAt (fun sp => !(s.agedBlocks gr sp)), s.saveSlot o 0 gr.record.imageSize with
      | some p, some off => s.startTeam gr gr.nextTeam p off
      | _, _ => s)

/-- Site `n` teams of a gang one after the other. -/
def State.placeGang (s : State) (grid : Nat) : Nat → Option State
  | 0 => some s
  | n + 1 =>
    let gr := s.gridOf grid
    match s.findPlace gr gr.record.lanesAt (fun _ => true), s.saveSlot (s.ownerOf gr.owner) 0 gr.record.imageSize with
    | some p, some off => (s.startTeam gr gr.nextTeam p off).placeGang grid n
    | _, _ => Option.none

/-- SPs of the cores on which a gang's teams will lie, cores taken ascending, each as full as it can be. -/
def State.gangTargets (s : State) (gr : Grid) : List Nat → Nat → List Nat
  | [], _ => []
  | c :: cs, n =>
    let all := (List.range (if gr.record.paired then 8 else 4)).map (fun k => 4 * c + k)
    let usable := all.filter (fun sp => s.spUsable gr.owner sp)
    let fit := usable.length / gr.record.slots
    if n = 0 then [] else usable.take (min fit n * gr.record.slots) ++ s.gangTargets gr cs (n - min fit n)

/-- GANG_START: the oldest waiting gang of an owner starts when every place is held; until then it reserves one
more free SP (17 R309). -/
def execGangStart (grid : Nat) (s : State) : Out :=
  let gr := s.gridOf grid
  let o := s.ownerOf gr.owner
  .next (
    if gr.gid = 0 ∨ o.halt.isSome = true ∨ (s.oldestGang gr.owner).map (·.gid) ≠ some grid then s
    else match s.placeGang grid gr.gangSize with
      | some t => t.modGrid grid (fun g => { g with gangReserved := [], gangWait := s.cyc.toNat, aged := false })
      | none =>
        let want := (s.gangTargets gr (o.cores gr.record.paired) gr.gangSize).find? (fun sp =>
          !(gr.gangReserved.contains sp) && s.spTakes gr sp (gr.record.lanesAt 0))
        match want with
        | some sp => s.modGrid grid (fun g => { g with gangReserved := g.gangReserved ++ [sp] })
        | none => s)

/-- GANG_AGEING: the oldest waiting gang has waited 2^16 clk (17 R309). -/
def execGangAgeing (owner : Nat) (s : State) : Out :=
  .next (match s.oldestGang owner with
    | some g => if g.gangWait + 65536 ≤ s.cyc.toNat then s.modGrid g.gid (fun g => { g with aged := true }) else s
    | none => s)

/-! ## Retirement and completion (17 R296, R312, R416) -/

/-- The team may retire (17 R296). -/
def State.teamOver (s : State) (tm : Team) : Bool :=
  !(s.contextGroups.any (fun g => g.team == tm.tid && g.alive && !g.inSlot)) &&
    tm.bins.all (fun b => (b.rows ++ b.cask.filter (fun r => r.st == .loading)).all (fun r => r.st == .asleep)) && !(s.meBusy tm.tid)

/-- The contexts of a team leave the shadow banks and the save area. -/
def State.dropContexts (s : State) (tid : Nat) : State :=
  { s with
    sps := s.sps.map (fun (p : Sp) =>
      let rest := p.shadow.filter (fun g => g.team != tid)
      let me := if p.shadowMe.team = tid then Me.idle else p.shadowMe
      { p with me := if p.me.team = tid then Me.idle else p.me, shadow := rest, shadowMe := me, shadowOwner := if rest = [] ∧ me.team = 0 then 0 else p.shadowOwner
               filled := p.filled && !(rest == [] && me.team == 0) })
    saved := s.saved.filter (fun x => x.eviction || x.tid != tid) }

/-- Rows discarded at retirement. -/
def Team.discards (tm : Team) : Nat := (tm.bins.map (fun b => b.rows.length + b.cask.length)).sum

/-- TEAM_RETIRE. -/
def execTeamRetire (team : Nat) (s : State) : Out :=
  let tm := s.teamOf team
  .next (
    if tm.tid = 0 ∨ s.teamOver tm = false ∨ (s.ownerOf tm.owner).halt.isSome = true then s
    else
      let s1 := (tm.banks ++ tm.partnerBanks).foldl (fun (t : State) b => t.modBank b (fun x => { x with fence := 0 })) s
      let s2 := s1.modGrid tm.grid (fun g => { g with discarded := g.discarded + tm.discards })
      { (s2.dropContexts team) with teams := s2.teams.filter (fun t => t.tid != team)
                                    groups := s2.groups.filter (fun g => !(g.team == team)) })

/-- Every condition of 17 R416. -/
def State.gridOver (s : State) (gr : Grid) : Bool :=
  decide (gr.record.teams ≤ gr.nextTeam) && !(s.teams.any (fun t => t.grid == gr.gid)) &&
    !(s.saved.any (fun x => match x.team with | some t => t.grid == gr.gid | none => false)) &&
    s.chains.all (fun c => !(c.grid == gr.gid) || c.status.isSome) && s.steeps.all (fun j => !(j.grid == gr.gid)) &&
    s.allMes.all (fun e => !(e.grid == gr.gid && (e.state == 1 || e.state == 2)))

/-- The stall counters and the context-byte count, copied into the owner's area when it can be written
(13 R217; 19 R342). -/
def State.copyStall (s : State) (owner : Nat) : State :=
  let o := s.ownerOf owner
  let bs := (o.stall.flatMap (fun x => leBytes 8 x.toNat)) ++ leBytes 8 o.contextBytes.toNat
  if s.cpWritable owner o.stallVa bs.length then s.cpWrite owner o.stallVa bs else s

/-- The completion word's value (17 R312). -/
def Grid.wordValue (g : Grid) : Nat := 1 + (if g.terminated then 2 else 0) + 4 * min g.discarded (2 ^ 30 - 1)

/-- Where a write of the CP stands: it waits, it can be made, or it never will be. -/
inductive CpWrite where
  | wait (s : State)
  | go
  | never
  deriving DecidableEq, Repr

def State.cpWriteReady (s : State) (owner : Nat) (va : DWord) (n : Nat) : CpWrite :=
  if sramBase < va.toNat + n then .never
  else match s.cpReady owner 0 4096 .write false (pagesOf va n) with
    | some t => .wait t
    | none => if s.cpWritable owner va n then .go else .never

/-- The state in which a copy of the stall counters waits for the page of their area, none when it can be made or never will be (13 R217). -/
def State.stallWaits (s : State) (owner : Nat) : Option State :=
  match s.cpWriteReady owner (s.ownerOf owner).stallVa 56 with
  | .wait t => some t
  | _ => none

/-- GRID_COMPLETION: the grid completes; the CP hashes items 4 and 5 and writes the completion word. -/
def execGridCompletion (grid : Nat) (s : State) : Out :=
  let gr := s.gridOf grid
  let owner := gr.owner
  .next (
    if gr.gid = 0 ∨ gr.complWord ≠ 0 ∨ (s.ownerOf owner).halt.isSome = true ∨ (gr.done = false ∧ s.gridOver gr = false) then s
    else
      let s0 := if gr.done then s else s.modGrid grid (fun g => { g with done := true, endCyc := s.cyc })
      let items := gr.results.map (fun x => (4, x)) ++ gr.meas.map (fun x => (5, x))
      match s0.cpReady owner 0 4096 .read true (items.flatMap (fun x => pagesOf x.2.1 x.2.2)) with
      | some t => t
      | none =>
        let word := gr.wordValue
        let w := if gr.record.compl = 0 then CpWrite.never else s0.cpWriteReady owner gr.record.compl 4
        match w with
        | .wait t => t
        | w =>
          if (s.stallWaits owner).isSome then (s0.stallWaits owner).getD s0
          else
          let parts := items.map (fun x => (x.1, s0.cpBytes owner x.2.1 x.2.2))
          let m := parts.foldl (fun m x => chainExtend m x.1 x.2.1) (leBytes 64 gr.chain.toNat)
          let s0 := items.foldl (fun (t : State) x => t.cpTraffic owner .read x.2.1 x.2.2) s0
          let s1 := match w with | .go => s0.cpWrite owner gr.record.compl (leBytes 4 word) | _ => s0
          ((s1.cpDone owner).copyStall owner).modGrid grid (fun g => { g with
            chain := BitVec.ofNat 512 (leNat m), complWord := BitVec.ofNat 32 word
            unreadable := g.unreadable + (parts.filter (fun x => x.2.2)).length }))

/-! ## Receipts (22 R399-R401) -/

/-- Bytes 0x000-0x0FF of a receipt. -/
def State.receiptHead (s : State) (gr : Grid) : List (BitVec 8) :=
  [0x47, 0x4E, 0x52, 0x43] ++ leBytes 2 1 ++ leBytes 2 0 ++ identityKeyId ++
    leBytes 64 s.firmware.toNat ++ leBytes 4 gr.owner ++ leBytes 4 gr.complWord.toNat ++ leBytes 8 gr.number ++
    leBytes 64 gr.chain.toNat ++ leBytes 8 (s.ownerOf gr.owner).denied ++ leBytes 8 (gr.startCyc.getD 0).toNat ++
    leBytes 8 gr.endCyc.toNat ++ leBytes 4 gr.unreadable ++ List.replicate 60 0

/-- A receipt: 1,024 bytes; the signature, whose salt is drawn at the write, is stored big-endian. -/
def State.receipt (s : State) (gr : Grid) : List (BitVec 8) :=
  s.receiptHead gr ++ beBytes 512 (Config.sign (s.receiptHead gr) (Config.trng s.freeCtr)) ++ List.replicate 256 0

/-- A group that runs for the grid is still there. -/
def State.gridNamed (s : State) (grid : Nat) : Bool := s.contextGroups.any (fun g => g.grid == grid && g.alive)

/-- A grid's measurement context is released. -/
def State.releaseGrid (s : State) (grid : Nat) : State :=
  { s with grids := (s.grids.map (fun (g : Grid) => if g.gid = grid then { g with released := true } else g)).filter (fun g =>
      !g.released || s.gridNamed g.gid) }

/-- RECEIPT_WRITE: the receipt, then its notice; the measurement context is released. -/
def execReceiptWrite (grid : Nat) (s : State) : Out :=
  let gr := s.gridOf grid
  let owner := gr.owner
  let o := s.ownerOf owner
  let va := o.receiptVa + BitVec.ofNat 64 (1024 * (gr.number % max 1 o.receiptCount))
  .next (
    if gr.gid = 0 ∨ gr.complWord = 0 ∨ gr.released = true ∨ o.halt.isSome = true then s
    else
      let finish := fun (t : State) (addr : DWord) =>
        let t1 := (t.cpDone owner).modOwner owner (fun o => { o with finalNumber := gr.number, finalChain := gr.chain })
        let t2 := t1.queueRecord owner none (fun _ => leBytes 2 3 ++ leBytes 2 0 ++ leBytes 4 owner ++ leBytes 8 gr.number ++
          leBytes 8 addr.toNat ++ leBytes 4 gr.complWord.toNat ++ List.replicate 36 0)
        t2.releaseGrid grid
      if o.receiptCount = 0 then finish s 0
      else match s.cpWriteReady owner va 1024 with
        | .wait t => t
        | .never => finish s 0
        | .go => finish ((s.cpWrite owner va (s.receipt gr)).modOwner owner (fun o => { o with lastReceipt := gr.number })) va)

end Sys2Proof.Machine
end

