-- ==== Sys2Proof/Machine/Handlers.lean ====
section
/-! DEFINITION. Memory results, the timer, the miss queue, the launches of handler groups, and the syscall ring
with its records (02 R20, R29; 18 R313, R314, R318; 19 R329-R331, R347; 20 R353-R355). -/

set_option linter.unusedVariables false

namespace Sys2Proof.Machine

/-! ## Results and the timer -/

/-- The issues of which lane `lane` still awaits register `reg`. -/
def Group.issuesOf (g : Group) (lane reg : Nat) : List Nat :=
  (g.await.filter (fun q => q.lanes.has lane && q.regs.contains reg)).map (·.iid) ++
    (g.outst.filter (fun e => e.lane == lane && e.reg == reg && !e.frame)).map (·.iid)

/-- MEMORY_RESULT: the result of a memory instruction comes, for all the lanes that issued it at the same moment (02 R20,
R29); data held for a row waits for the next word (17 R298). -/
def execMemoryResult (gid lane reg : Nat) (s : State) : Out :=
  let iids := (s.allGroups.filter (fun g => g.gid == gid)).flatMap (fun g => g.issuesOf lane reg)
  .next ({ s.modGroups (fun g => g.gid == gid) (fun g => g.arriveIf s.freeCtr (g.issuesOf lane reg).contains) with
    owners := s.owners.map (fun (o : Owner) => { o with hostReqs := o.hostReqs.filter (fun r => !(r.gid == gid && iids.contains r.iid)) }) })

/-- GTMR has reached GTCMP: TIMER becomes pending (19 R347). -/
def Group.timerCheck (g : Group) : Group :=
  if g.armed && g.gtcmp != 0 && decide (g.gtcmp.toNat ≤ g.gtmr.toNat) then { g with tmp := true, armed := false } else g

/-- GTCMP_MATCH. -/
def execGtcmpMatch (gid : Nat) (s : State) : Out :=
  .next (s.modGroups (fun g => g.gid == gid && (s.ownerOf g.owner).halt.isNone) Group.timerCheck)

/-! ## The miss queue (19 R329) -/

/-- Lanes of a group, be it switched out, that waited for the queue and whose page is queued now park (19 R329): their arrivals are
withdrawn (06 R131). -/
def State.parkQueued (s : State) (page : Nat) (g : Group) : State :=
  let m := Mask.ofFn (fun i => g.mqWait.has i && (g.walkPage.get i).toNat == page + 1) 64
  if m = 0 then s
  else
    let s1 := s.modTeam g.team (fun t => { t with
      arrived := (List.range 16).foldl (fun w b => w.set (16 * b + g.gnum) (w.get (16 * b + g.gnum) &&& ~~~m)) t.arrived })
    (s1.modGid g.gid (fun g => (Group.yieldCheck { (g.withdraw m) with
      live := g.live &&& ~~~m, fbin := g.fbin ||| m, iss := g.iss &&& ~~~m, mqWait := g.mqWait &&& ~~~m }).bargCheck s.freeCtr)).barCheckAll g.team

/-- MISS_QUEUED: an entry has freed, and the oldest miss that waits for one is queued. -/
def execMissQueued (owner : Nat) (s : State) : Out :=
  let o := s.ownerOf owner
  .next (match o.missWaiting with
    | [] => s
    | m :: rest =>
      if o.halt.isSome then s
      else match ({ o with missWaiting := rest }).enqueue m with
        | none => s
        | some o' =>
          let s1 := s.modOwner owner (fun _ => o')
          (s1.contextGroups.filter (fun g => g.owner == owner && g.mqWait != 0)).foldl (fun (t : State) g => t.parkQueued m.page g) s1)

/-! ## Handler groups (18 R313, R314; 19 R330, R331) -/

/-- The handler slot of an SP is free. -/
def State.slotEmpty (s : State) (sp : Nat) : Bool :=
  !(s.allGroups.any (fun g => g.sp == sp && g.inSlot && g.alive)) && (s.spOf sp).up

/-- An SP of the owner with a free handler slot: the one asked for, else the lowest. -/
def State.handlerSp (s : State) (owner sp : Nat) : Option Nat :=
  let ok := fun p => s.holds owner p && (s.spOf p).owner == owner && !(s.spOf p).freed && s.slotEmpty p
  if ok sp then some sp else (sortNat (s.sps.map (·.num))).find? ok

/-- A handler group of `n` lanes, at handler level from its first word. `grid` is the grid that serves it: a
completed one, or none, gives no argument block. `tnum`: the team number in x14. -/
def State.handlerGroup (s : State) (owner grid sp : Nat) (kind : GroupKind) (c : Cause) (width n gnum : Nat) (tnum : DWord) :
    State × Group :=
  let gr := s.gridOf grid
  let live := gr.gid != 0 && !gr.done
  let entry := (s.tableFor owner grid).getD c.entry 0
  let (gid, s1) := s.freshId
  let g := newGroup gid kind (if live then gr else Grid.none) owner 0 0 gnum sp 64 entry s.cyc
  (s1, { g with
    width, live := Mask.upto n, hlv := true, hl := Mask.upto n, cause := BitVec.ofNat 32 c.code
    pc := SMap.setMany ([] : SMap 64) 0 (fun _ => true) (fun _ => entry) width
    xb := SMap.set g.xb 14 tnum })

/-- The registers a handler lane starts with: v0:v1, v2:v3 and v4. -/
def Group.serve (g : Group) (lane : Nat) (addr : DWord) (mask : Mask) (word : Nat) (v : Served) : Group :=
  let put := fun (m : SMap 32) (r : Nat) (x : Word) => m.set (64 * r + lane) x
  { g with
    v := put (put (put (put (put g.v 0 (loW addr)) 1 (hiW addr)) 2 (loW mask)) 3 (hiW mask)) 4 (BitVec.ofNat 32 word)
    served := g.served ++ [v] }

/-- The team number of a handler group that serves lanes of no one team is not stated: a free value. -/
def State.freeTeam (s : State) : DWord := (Config.freeWord s.freeCtr 0).setWidth 64

/-- Misses that no lane has claimed. -/
def Owner.unclaimed (o : Owner) : List Miss := o.misses.filter (fun m => !m.request && !m.claimed)

/-- The SP on which the next walk pass of an owner starts. -/
def State.walkSp (s : State) (owner : Nat) : Option Nat :=
  match (s.ownerOf owner).unclaimed with
  | [] => none
  | m :: _ => if s.walkless owner m.grid then none else s.handlerSp owner m.sp

/-- WALK_HANDLER_LAUNCH: a group of 64 lanes claims the oldest misses (19 R330). -/
def execWalkHandlerLaunch (owner : Nat) (s : State) : Out :=
  let o := s.ownerOf owner
  let take := o.unclaimed.take 64
  .next (match take, s.walkSp owner with
    | m :: _, some sp =>
      if o.halt.isSome then s
      else
        let (s1, g) := s.handlerGroup owner m.grid sp .walk .walk 64 take.length 0 s.freeTeam
        let g1 := ((List.range take.length).zip take).foldl (fun (g : Group) x =>
          let w := (if x.2.write then 1 else 0) + (if x.2.fetch then 2 else 0) + (if x.2.engine then 4 else 0)
          g.serve x.1 (pageVa x.2.page) 0 w ⟨x.1, x.2.mid, 0, 0, x.2.page, pageVa x.2.page, x.2.write, x.2.fetch, 0, []⟩) g
        let s2 := s1.modOwner owner (fun o => { o with
          misses := o.misses.map (fun x => if !x.request && take.any (fun y => y.page == x.page) then { x with claimed := true } else x) })
        { s2 with groups := s2.groups ++ [{ g1 with tval := pageVa m.page, tlane := Mask.upto take.length }] }
    | _, _ => s)

/-- A fault batch waits for the handler slot of the SP on which its group is; one whose group is gone, for that where it was raised. -/
def State.batchAt (s : State) (sp : Nat) (b : Batch) : Bool :=
  match s.groupOf b.gid with
  | some g => g.sp == sp
  | none => b.sp == sp && !(s.contextGroups.any (fun g => g.gid == b.gid))

/-- PAGE_HANDLER_LAUNCH: the oldest fault batch of an SP gets its handler group, unless a walk pass goes first
(18 R314; 19 R331). -/
def execPageHandlerLaunch (sp : Nat) (s : State) : Out :=
  let first := s.owners.findSome? (fun o =>
    (o.batches.find? (s.batchAt sp)).map (fun b => (o.id, b)))
  .next (match first with
    | none => s
    | some (owner, b) =>
      match s.groupOf b.gid with
      | none => s.modOwner owner (fun o => { o with batches := o.batches.filter (fun x => x != b) })
      | some fg =>
        if !(s.slotEmpty sp) || s.walkSp owner == some sp || (s.ownerOf owner).halt.isSome then s
        else
          let tnum := BitVec.ofNat 64 (s.teamOf fg.team).num
          let (s1, g) := s.handlerGroup owner b.grid sp .page .page fg.width b.pages.length fg.gnum tnum
          let g1 := ((List.range b.pages.length).zip b.pages).foldl (fun (g : Group) x =>
            let (_, m, va) := x.2
            let w := (if b.write then 1 else 0) + (if b.fetch then 2 else 0) + 256 * (fg.gnum % 16)
            g.serve x.1 va m w ⟨x.1, 0, b.gid, m, x.2.1, va, b.write, b.fetch, 0, b.addrs⟩) g
          let (_, m0, va0) := b.pages.headD (0, 0, 0)
          let s2 := s1.modOwner owner (fun o => { o with batches := o.batches.filter (fun x => x != b) })
          { s2 with groups := s2.groups ++ [{ g1 with tval := va0, tlane := m0 }] })

/-- REQUEST_HANDLER_LAUNCH: page requests get a PAGE handler group of 64 lanes; without a PAGE entry they are
finished unserved (19 R331). -/
def execRequestHandlerLaunch (owner : Nat) (s : State) : Out :=
  let o := s.ownerOf owner
  let take := (o.misses.filter (fun m => m.request && !m.claimed)).take 64
  .next (match take with
    | [] => s
    | m :: _ =>
      if o.halt.isSome then s
      else if (s.tableFor owner m.grid).getD 2 0 = 0 then
        s.modOwner owner (fun o => { o with misses := o.misses.filter (fun x => !(x.request && take.any (fun y => y.page == x.page))) })
      else match s.handlerSp owner m.sp with
        | none => s
        | some sp =>
          if s.walkSp owner == some sp || o.batches.any (s.batchAt sp) then s
          else
            let (s1, g) := s.handlerGroup owner m.grid sp .request .page 64 take.length 0 s.freeTeam
            let g1 := ((List.range take.length).zip take).foldl (fun (g : Group) x =>
              let w := (if x.2.write then 1 else 0) + (if x.2.fetch then 2 else 0) + 4
              g.serve x.1 (pageVa x.2.page) 0 w ⟨x.1, x.2.mid, 0, 0, x.2.page, pageVa x.2.page, x.2.write, x.2.fetch, 0, []⟩) g
            let s2 := s1.modOwner owner (fun o => { o with
              misses := o.misses.map (fun x => if x.request && take.any (fun y => y.page == x.page) then { x with claimed := true } else x) })
            { s2 with groups := s2.groups ++ [{ g1 with tval := pageVa m.page, tlane := 0 }] })

/-! ## The syscall ring (20 R354, R355; 18 R318) -/

/-- The slot of sequence number `s`. -/
def Owner.slotVa (o : Owner) (seq : Nat) : DWord := o.ringVa + BitVec.ofNat 64 (64 * (seq % max 1 o.ringRecords))

/-- A slot as the CP finds it. -/
inductive RingSlot where
  | wait (s : State)
  | busy
  | free
  | reply (words : List Word)
  deriving DecidableEq, Repr

/-- Read a slot through the owner's translation: a miss waits, a page that cannot be used is requested, a
refused or poisoned read leaves the slot busy (20 R354). -/
def State.ringSlot (s : State) (owner seq : Nat) : RingSlot :=
  let va := (s.ownerOf owner).slotVa seq
  let rd := s.cpReady owner 0 4096 .read false (pagesOf va 64)
  let wr := s.cpReady owner 0 4096 .write false (pagesOf va 64)
  match rd, wr with
  | some t, _ => .wait t
  | _, some t => .wait t
  | _, _ =>
    let r := s.readVa owner Team.none cpCore va 64
    if sramBase < va.toNat + 64 || r.bad || r.poison || !(s.cpWritable owner va 64) then .busy
    else if leField r.bytes 0 2 = 0 then .free
    else if leField r.bytes 0 2 = 0x8001 then .reply ((List.range 4).map (fun k => BitVec.ofNat 32 (leField r.bytes (0x20 + 4 * k) 4)))
    else .busy

/-- The release of a trap-waiting group with the reply words (20 R353). -/
def Group.release (ctr : Nat) (words : List Word) (m : Mask) (g : Group) : Group :=
  let g := (List.range 4).foldl (fun (g : Group) k => g.setS k (words.getD k 0)) g
  { (g.complete ctr m).setPc m (fun i => g.pc.get i + 4) with trap := none }

/-- Deal with the oldest reply signal of an owner (20 R355). -/
def State.takeReply (s : State) (owner : Nat) : State :=
  match (s.ownerOf owner).replies with
  | [] => s
  | q :: rest =>
    match s.ringSlot owner q.toNat with
    | .wait t => t
    | .reply words =>
      let s := s.cpTraffic owner .read ((s.ownerOf owner).slotVa q.toNat) 64
      let s1 := ((s.cpDone owner).modOwner owner (fun o => { o with replies := rest })).cpWrite owner ((s.ownerOf owner).slotVa q.toNat) [0, 0]
      if (s.ownerOf owner).halt.isSome then s1
      else
        let hit := fun (g : Group) => g.owner == owner && (match g.trap with | some t => t.2 != 0 && BitVec.ofNat 32 t.1 == q | none => false)
        (match s1.contextGroups.find? hit with
         | some g => s1.modGid g.gid (fun g => match g.trap with | some t => g.release s.freeCtr words t.2 | none => g)
         | none => s1)
    | _ => s.modOwner owner (fun o => { o with replies := rest })

/-- REPLY: the host signals the CP (20 R355; 22 R392). -/
def execReply (owner : Nat) (seq : BitVec 32) (s : State) : Out :=
  .next ((s.modOwner owner (fun o => { o with replies := o.replies ++ [seq] })).takeReply owner)

/-- The clk to the next read of a busy slot: at least every 2^20 clk, otherwise free (20 R354; DESIGN CHOICE, log entry 4). -/
def State.pollClk (s : State) : DWord := (Config.freeWord s.freeCtr 1).setWidth 64 % 1048576 + 1

/-- Write the oldest waiting record when its slot is free; a slot that is not is read again after 2^20 clk at the
latest (20 R354). -/
def State.pumpRing (s : State) (owner : Nat) : State :=
  let o := s.ownerOf owner
  match o.ringWaiting with
  | [] => s
  | r :: rest =>
    match s.ringSlot owner r.seq with
    | .wait t => t
    | .free =>
      let s := s.cpTraffic owner .read (o.slotVa r.seq) 64
      ((s.cpDone owner).modOwner owner (fun o => { o with ringWaiting := rest, pollAt := 0, msix := o.msix + 1 })).cpWrite owner (o.slotVa r.seq) r.bytes
    | _ =>
      let s1 := s.cpDone owner
      { s1.modOwner owner (fun o => { o with pollAt := s.cyc + s.pollClk }) with freeCtr := s1.freeCtr + 1 }

/-- TRAP_RECORD: the CP writes the next record of the sequence. -/
def execTrapRecord (owner : Nat) (s : State) : Out := .next (s.pumpRing owner)

/-- SYSCALL_SLOT_POLL: the CP reads the type of a slot again. -/
def execSyscallSlotPoll (owner : Nat) (s : State) : Out :=
  let o := s.ownerOf owner
  .next (if o.pollAt.toNat ≤ s.cyc.toNat then (s.pumpRing owner).takeReply owner else s)

/-- The halt record (18 R318) with the groups stopped and the lanes parked. -/
def Halt.bytes (h : Halt) (owner groups parked : Nat) : List (BitVec 8) :=
  leBytes 2 2 ++ leBytes 1 h.kind ++ leBytes 1 (if h.kind = 1 then h.detail else 0) ++ leBytes 4 owner ++ leBytes 8 h.cyc.toNat ++
    leBytes 8 h.addr.toNat ++ leBytes 8 h.pc.toNat ++ leBytes 1 h.core ++ leBytes 1 h.spByte ++ leBytes 2 0 ++
    leBytes 4 h.cause.toNat ++ leBytes 4 groups ++ leBytes 4 parked ++ List.replicate 16 0

/-- The record of a halt, which counts once its clk is over: until then words of the owner still issue on other SPs. -/
def State.haltBytes (s : State) (owner : Nat) (h : Halt) : List (BitVec 8) :=
  let gs := s.contextGroups.filter (fun g => g.owner == owner && g.alive)
  h.bytes owner gs.length (gs.map (fun g => Mask.card g.fbin)).sum

/-- HALT_RECORD: once its clk is over, the record of a halt takes its place in the sequence; with the TDI in ERROR the Kiln keeps it
(18 R316). -/
def execHaltRecord (owner : Nat) (s : State) : Out :=
  let o := s.ownerOf owner
  .next (match o.halt with
    | none => s
    | some h =>
      if h.written || o.tdi == .error || !(s.stopped owner) then s
      else ((s.queueRecord owner none (fun _ => s.haltBytes owner h)).modOwner owner (fun o => { o with
        halt := o.halt.map (fun h => { h with written := true }) })).pumpRing owner)

end Sys2Proof.Machine
end

