-- ==== Sys2Proof/Machine/Preempt.lean ====
section
/-! DEFINITION. Pre-emption, the context image, team eviction and restore (19 R341-R345, R348; 02 R36; 11
R205). The parts of an image whose layout the spec leaves open are DESIGN CHOICE, log entry 14. -/

set_option linter.unusedVariables false

namespace Sys2Proof.Machine

/-! ## Vector lines (02 R36, R37) -/

/-- Values of register `r` in half `h` of the group. -/
def Group.line (g : Group) (r h : Nat) : List Word :=
  (List.range (if g.width = 16 then 16 else 32)).map (fun i => g.vraw r (32 * h + i))

/-- Bits of a delta in a class. -/
def classBits (k : Nat) : Nat := match k with | 0 => 0 | 1 => 4 | 2 => 8 | _ => 16

/-- A delta fits the class. -/
def fitsClass (k : Nat) (d : Word) : Bool :=
  if k = 0 then d == 0 else d == (d.truncate (classBits k)).signExtend 32

/-- The first class that holds every value exactly: 0 Z, 1 D4, 2 D8, 3 D16, 4 F. -/
def lineClass (l : List Word) : Nat :=
  let ds := l.map (fun x => x - l.headD 0)
  ((List.range 4).find? (fun k => ds.all (fitsClass k))).getD 4

/-- Values packed `b` bits each, in lane order, little-endian. -/
def packBitsLe (b : Nat) (l : List Nat) : List (BitVec 8) :=
  leBytes ((b * l.length + 7) / 8) ((l.zip (List.range l.length)).foldl (fun acc x => acc + x.1 % 2 ^ b * 2 ^ (b * x.2)) 0)

/-- A line of a save area: its header byte and payload. -/
def encodeLine (l : List Word) : List (BitVec 8) :=
  let k := lineClass l
  let base := l.headD 0
  BitVec.ofNat 8 k :: (if k = 4 then l.flatMap (fun x => leBytes 4 x.toNat)
    else leBytes 4 base.toNat ++ packBitsLe (classBits k) (l.map (fun x => (x - base).toNat)))

/-- Read a line of `n` lanes: its values and its bytes; none for a header of 5 or more (19 R345). -/
def decodeLine (n : Nat) (bs : List (BitVec 8)) : Option (List Word × Nat) :=
  let k := leField bs 0 1
  if 5 ≤ k then none
  else if k = 4 then some ((List.range n).map (fun i => BitVec.ofNat 32 (leField bs (1 + 4 * i) 4)), 1 + 4 * n)
  else
    let b := classBits k
    let base := BitVec.ofNat 32 (leField bs 1 4)
    let sz := b * n / 8
    let x := leField bs 5 sz
    some ((List.range n).map (fun i => if k = 0 then base else base + (BitVec.ofNat b (x / 2 ^ (b * i))).signExtend 32), 5 + sz)

/-! ## The image (19 R343, R344) -/

/-- Lane states in the image: 0 live, 1 retired, 2 parked, 3 held (02 R18; DESIGN CHOICE, log entry 14). -/
def Group.laneState (g : Group) (i : Nat) : Nat :=
  if g.fbin.has i || g.binned.has i then 2
  else if g.held.has i then 3
  else if g.live.has i then 0 else 1

/-- Hop byte of an SP in a team's list (19 R344). -/
def Team.hop (t : Team) (sp : Nat) : Nat :=
  let same := t.sps.filter (fun p => coreOf p == coreOf sp)
  (if coreOf sp = t.core then 0 else 128) + ((same.findIdx? (· == sp)).getD 0) % 4

def Group.imageFlags (g : Group) : Nat :=
  (if g.hlv then 1 else 0) + (if g.kind = .bin then 2 else 0) + (if g.frameldDone then 4 else 0) +
    (if g.trap.isSome then 8 else 0) + (if g.tmp then 16 else 0)

/-- The fixed part of a group record: 640 bytes. -/
def Group.fixedPart (g : Group) (t : Team) : List (BitVec 8) :=
  leBytes 1 g.gnum ++ leBytes 1 (widthCode g.width) ++ leBytes 1 (t.hop g.sp) ++ leBytes 1 g.imageFlags ++ leBytes 4 0 ++
    leBytes 4 g.frm.toNat ++ leBytes 4 g.fstat.toNat ++ leBytes 4 g.gctl.toNat ++ leBytes 4 g.cause.toNat ++
    leBytes 4 g.ceinj.toNat ++ leBytes 4 g.xfer ++ leBytes 8 g.tval.toNat ++ leBytes 8 g.tlane.toNat ++
    leBytes 8 g.gtmr.toNat ++ leBytes 8 g.gtcmp.toNat ++
    (List.range 4).flatMap (fun k => leBytes 8 (g.cstack.getD k 0).toNat) ++
    leBytes 1 g.cstack.length ++ leBytes 1 0 ++ leBytes 2 g.q.toNat ++ List.replicate 28 0 ++
    (List.range 16).flatMap (fun k => leBytes 8 (g.xb.get k).toNat ++ leBytes 4 (g.xs.get k).toNat ++ leBytes 4 0) ++
    (List.range 64).flatMap (fun k => leBytes 4 (g.sreg k).toNat)

/-- A lane's record: 160 bytes. Its arrival and yield bits: a yield in bit 0, `BARG` in bit 1, a waiting `BAR` b
in bit 16 + b. -/
def Group.lanePart (g : Group) (i : Nat) : List (BitVec 8) :=
  leBytes 8 (g.pc.get i).toNat ++ leBytes 1 (g.laneState i) ++ leBytes 1 (g.csp.get i).toNat ++
    leBytes 6 ((if g.yielded.has i then 1 else 0) + (if g.barg.has i then 2 else 0) +
      ((List.range 16).map (fun b => if Mask.has (g.barWait.get b) i then 2 ^ (16 + b) else 0)).sum) ++
    leBytes 8 (leNat (packBitsLe 1 ((List.range 64).map (fun r => if Mask.has (g.p.get r) i then 1 else 0)))) ++
    (List.range 16).flatMap (fun k => leBytes 8 (g.cstk.get (16 * i + k)).toNat) ++ leBytes 8 0

/-- Pad to 64 bytes. -/
def pad64 (bs : List (BitVec 8)) : List (BitVec 8) := bs ++ List.replicate (up64 bs.length - bs.length) 0

def Group.image (g : Group) (t : Team) : List (BitVec 8) :=
  pad64 (g.fixedPart t ++ (List.range g.width).flatMap g.lanePart ++
    (List.range g.vregs).flatMap (fun r => (List.range (linesOf g.width)).flatMap (fun h => encodeLine (g.line r h))))

/-- The record of an ME: 128 bytes of its state (11 R205), then a0 to a15 uncompressed. -/
def Me.image (e : Me) : List (BitVec 8) :=
  let (ca, cb, q) := e.mma.getD (0, 0, 0)
  leBytes 8 e.pc.toNat ++ leBytes 8 e.first.toNat ++ leBytes 4 e.stat.toNat ++ leBytes 2 e.k ++
    leBytes 1 ((if e.configured then 1 else 0) + (if e.paired then 2 else 0) + (if e.follower then 4 else 0)) ++ leBytes 1 e.loops.length ++
    leBytes 1 e.aSlot ++ leBytes 1 e.bSlot ++ leBytes 2 e.written.toNat ++ leBytes 4 (if e.mma.isSome then q + 1 else 0) ++
    (List.range 16).flatMap (fun n => leBytes 2 (e.idx.getD n 0)) ++
    (List.range 4).flatMap (fun n => leBytes 8 (e.loops.getD n ⟨0, 0⟩).addr.toNat) ++
    (List.range 4).flatMap (fun n => leBytes 2 (e.loops.getD n ⟨0, 0⟩).left) ++ leBytes 4 ca.toNat ++ leBytes 4 cb.toNat ++
    leBytes 8 (if e.word.isSome then 1 else 0) ++ leBytes 8 (e.word.getD 0).toNat ++
    (List.range 65536).flatMap (fun i => leBytes 4 (e.acc.get i).toNat)

/-- The bytes of a record of an ME. -/
def meRecord : Nat := 262272

/-- What a row still waits for, in 8 bytes: flag, poison, column, data. -/
def Row.pendBytes (r : Row) : List (BitVec 8) :=
  match r.pend with
  | some (c, x, bad) => leBytes 1 1 ++ leBytes 1 (if bad then 1 else 0) ++ leBytes 2 c ++ leBytes 4 x.toNat
  | none => leBytes 8 0

def RowState.code : RowState → Nat
  | .free => 0 | .asleep => 1 | .loading => 2 | .woken => 3 | .launched => 4

def RowState.ofCode : Nat → RowState
  | 1 => .asleep
  | 2 => .loading
  | 3 => .woken
  | 4 => .launched
  | _ => .free

/-- A row in 16 bytes: number, state, poison, what it waits for. -/
def Row.image (r : Row) : List (BitVec 8) :=
  leBytes 4 r.num ++ leBytes 1 r.st.code ++ leBytes 1 (if r.poison then 1 else 0) ++ leBytes 2 0 ++ r.pendBytes

def Row.ofImage (bs : List (BitVec 8)) : Row :=
  let u := leField bs
  { num := u 0 4, st := RowState.ofCode (u 4 1), poison := (u 5 1).testBit 0
    pend := if u 8 1 % 2 = 1 then some (u 10 2, BitVec.ofNat 32 (u 12 4), (u 9 1).testBit 0) else none, rid := 0 }

/-- A bin in 64 bytes, then its 64 rows. -/
def Bin.image (b : Bin) : List (BitVec 8) :=
  leBytes 1 1 ++ leBytes 1 b.tile ++ leBytes 1 (if b.refill then 1 else 0) ++ leBytes 1 (if b.due then 1 else 0) ++ leBytes 4 b.caskRows ++
    leBytes 8 b.resume.toNat ++ leBytes 8 b.live.toNat ++ leBytes 8 b.caskAddr.toNat ++ leBytes 8 b.timer ++ leBytes 4 b.cask.length ++
    List.replicate 20 0 ++
    (List.range 64).flatMap (fun n => (findD (fun r => r.num == n) ⟨n, .free, false, none, 0⟩ b.rows).image)

/-- The team state of an image: bins, arrival bits, rings, tiles, cask queues (19 R343). -/
def Team.stateBytes (t : Team) : List (BitVec 8) :=
  (List.range 16).flatMap (fun n => match t.bins.find? (fun b => b.num == n) with | some b => b.image | Option.none => List.replicate 1088 0) ++
    (List.range 256).flatMap (fun k => leBytes 8 (t.arrived.get k).toNat) ++
    (List.range 8).flatMap (fun n => match t.rings.find? (fun r => r.num == n) with
      | some r => leBytes 8 r.base.toNat ++ leBytes 4 r.stride ++ leBytes 4 r.slots ++ leBytes 4 r.pubd.toNat ++ leBytes 4 r.cons.toNat ++
          leBytes 4 r.freed.toNat ++ leBytes 4 1
      | Option.none => List.replicate 32 0) ++
    (List.range 16).flatMap (fun n => match t.tiles.find? (fun x => x.num == n) with
      | some x => leBytes 8 x.base.toNat ++ leBytes 1 x.rows ++ leBytes 1 x.cols ++ leBytes 4 x.pitch ++ leBytes 1 x.kind ++ leBytes 1 1
      | Option.none => List.replicate 16 0) ++
    pad64 ((List.range 16).flatMap (fun n => match t.bins.find? (fun b => b.num == n) with
      | some b => b.cask.flatMap Row.image
      | Option.none => []))

/-- The bins that team-state bytes give; each takes its cask rows from the queues in order. -/
def binsOf (bs : List (BitVec 8)) : Nat → Nat → List Nat → List Bin
  | _, _, [] => []
  | 0, _, _ => []
  | fuel + 1, cask, n :: ns =>
    let b := bs.drop (1088 * n)
    let u := leField b
    if u 0 1 % 2 = 0 then binsOf bs fuel cask ns
    else
      let rows := (List.range 64).map (fun k => Row.ofImage (b.drop (64 + 16 * k)))
      let c := min (u 40 4) (bs.length / 16)
      { num := n, tile := u 1 1, resume := BitVec.ofNat 64 (u 8 8), live := BitVec.ofNat 64 (u 16 8), caskAddr := BitVec.ofNat 64 (u 24 8)
        caskRows := u 4 4, rows := rows.filter (fun r => r.st != .free)
        cask := (List.range c).map (fun k => Row.ofImage (bs.drop (cask + 16 * k)))
        timer := u 32 8, due := (u 3 1).testBit 0, refill := (u 2 1).testBit 0 } :: binsOf bs fuel (cask + 16 * c) ns

/-- A team with the state that the bytes give. -/
def Team.takeState (t : Team) (bs : List (BitVec 8)) : Team :=
  { t with
    bins := binsOf bs 16 teamStateBytes (List.range 16)
    arrived := SMap.setMany ([] : SMap 64) 0 (fun _ => true) (fun k => BitVec.ofNat 64 (leField bs (17408 + 8 * k) 8)) 256
    rings := (List.range 8).filterMap (fun n =>
      let u := leField (bs.drop (19456 + 32 * n))
      if u 28 4 % 2 = 0 then Option.none
      else some { num := n, base := BitVec.ofNat 64 (u 0 8), stride := u 8 4, slots := u 12 4, pubd := BitVec.ofNat 32 (u 16 4)
                  cons := BitVec.ofNat 32 (u 20 4), freed := BitVec.ofNat 32 (u 24 4) })
    tiles := (List.range 16).filterMap (fun n =>
      let u := leField (bs.drop (19712 + 16 * n))
      if u 15 1 % 2 = 0 then Option.none
      else some { num := n, base := BitVec.ofNat 64 (u 0 8), rows := u 8 1, cols := u 9 1, pitch := u 10 4, kind := u 14 1 }) }

/-- The team header: 64 bytes. `len`: the length of the image. -/
def teamHeader (kind len : Nat) (t : Team) (launch groups : Nat) (cyc : DWord) : List (BitVec 8) :=
  ([0x47, 0x4E, 0x43, 0x58] : List (BitVec 8)) ++ leBytes 2 1 ++ leBytes 2 kind ++ leBytes 8 len ++ leBytes 4 t.num ++ leBytes 4 launch ++
    leBytes 1 (if t.paired then 1 else 0) ++ leBytes 1 t.sps.length ++ leBytes 1 groups ++
    leBytes 1 (t.banks.length + t.partnerBanks.length) ++ leBytes 8 cyc.toNat ++
    (List.range 8).flatMap (fun k => leBytes 1 (match t.sps[k]? with | some p => t.hop p | none => 0)) ++ List.replicate 20 0

/-- Every bank of a team, in allocation order. -/
def Team.allBanks (t : Team) : List Nat := t.banks ++ t.partnerBanks

/-- An image: header, group records, ME records, and for an eviction the team state and the bank contents. -/
def imageBytes (kind : Nat) (t : Team) (launch : Nat) (cyc : DWord) (ctr : Nat) (gs : List Group) (mes : List Me) : List (BitVec 8) :=
  let body := gs.flatMap (fun g => g.image t) ++ mes.flatMap Me.image ++
    (if kind = 1 then t.stateBytes ++ (List.range (65536 * t.allBanks.length)).map (Config.cipherByte ctr) else [])
  teamHeader kind (64 + body.length) t launch gs.length cyc ++ body

/-! ## Reading an image back (19 R345)

What an event of the device has changed in a context since its save stands; every other value comes from the image. -/

/-- The first byte of a header that differs in magic, version, kind or counts. -/
def headerBad (a b : List (BitVec 8)) : Option Nat :=
  ((List.range 8) ++ [24, 25, 26, 27]).find? (fun i => a.getD i 0 != b.getD i 0)

/-- The value now, when it is no longer what was saved; else the image's. -/
def since {α : Type} [DecidableEq α] (now was img : α) : α := if now = was then img else now

/-- A bit of a lane in a mask: set or clear. -/
def setBit (m : Mask) (i : Nat) (b : Bool) : Mask := if b then m ||| Mask.one i else m &&& ~~~Mask.one i

/-- The lane takes a state of the image, and has no other (02 R18); one that was parked and still is stays where it is parked. A held lane
of a group whose flags say that it is not at handler level is live. No barrier is checked for it (06 R131 names no restore among what
is): one whose condition the new state makes true releases at the next check. DESIGN CHOICE, log entry 37. -/
def Group.toState (g : Group) (i st : Nat) : Group :=
  let m := Mask.one i
  match st with
  | 0 => { g with live := g.live ||| m, fbin := g.fbin &&& ~~~m, binned := g.binned &&& ~~~m, hl := if g.hlv then g.hl ||| m else g.hl }
  | 1 => { (g.leave m) with fbin := g.fbin &&& ~~~m, binned := g.binned &&& ~~~m }
  | 2 => { (g.leave m) with fbin := g.fbin ||| m }
  | _ => { g with live := g.live ||| m, fbin := g.fbin &&& ~~~m, binned := g.binned &&& ~~~m, hl := g.hl &&& ~~~m }

/-- Values that the image gives lane `i`. `now`, `was`: the group before the restore, and as it was saved. A call-stack pointer above
16, for which the spec gives no outcome, becomes 16 (06 R119; 19 R345): DESIGN CHOICE, log entry 37. A yield that the image adds is one
that has still to wait for every other live lane (02 R22). -/
def Group.takeLane (now was g : Group) (i : Nat) (bs : List (BitVec 8)) : Group :=
  let bits := leField bs 10 6
  let g : Group := { g with
    pc := g.pc.set i (since (now.pc.get i) (was.pc.get i) (BitVec.ofNat 64 (leField bs 0 8)))
    csp := g.csp.set i (BitVec.ofNat 8 (min 16 (leField bs 9 1)))
    yielded := setBit g.yielded i (since (now.yielded.has i) (was.yielded.has i) (bits.testBit 0))
    yrem := if now.yielded.has i then g.yrem else g.yrem.set i (~~~Mask.one i)
    barg := setBit g.barg i (since (now.barg.has i) (was.barg.has i) (bits.testBit 1))
    barWait := (List.range 16).foldl (fun (w : SMap 64) b =>
      w.set b (setBit (w.get b) i (since (Mask.has (now.barWait.get b) i) (Mask.has (was.barWait.get b) i) (bits.testBit (16 + b))))) g.barWait
    p := (List.range 64).foldl (fun (w : SMap 64) r => w.set r (setBit (w.get r) i ((leField bs 16 8).testBit r))) g.p
    cstk := (List.range 16).foldl (fun (w : SMap 64) k => w.set (16 * i + k) (BitVec.ofNat 64 (leField bs (24 + 8 * k) 8))) g.cstk }
  let st := leField bs 8 1
  if now.laneState i ≠ was.laneState i ∨ st = g.laneState i then g else g.toState i st

/-- The SP of a team's list that a hop byte names (19 R344). -/
def Team.spAt (t : Team) (hop : Nat) : Option Nat :=
  (t.sps.filter (fun p => (coreOf p == t.core) != hop.testBit 7))[hop % 4]?

/-- Lanes of a width code (20 R368). -/
def widthOf (code own : Nat) : Nat := if code = 0 then 16 else if code = 1 then 32 else if code = 2 then 64 else own

/-- Values that the fixed part gives. The group number, the width and the flags come from their own fields, the priority class from
GCTL, which shows the others too. `free`: the width and, in an eviction image, the hop byte are taken; the fill of a swap loads its SP's
shadow bank whatever the byte says (R341). A trap wait that the image adds has no record, so that no reply ends it. A width code of 3 and a
hop byte that names no SP of the list change nothing: DESIGN CHOICE, log entry 14. -/
def Group.takeFixed (g was : Group) (t : Team) (free evict : Bool) (bs : List (BitVec 8)) : Group :=
  let u := leField bs
  let fl := u 3 1
  let hlv := fl.testBit 0
  { g with
    gnum := u 0 1 % 16, width := if free then widthOf (u 1 1) g.width else g.width
    sp := if free && evict then (t.spAt (u 2 1)).getD g.sp else g.sp
    kind := if g.inSlot then g.kind else if fl.testBit 1 then .bin else .team, prio := u 0x10 4 / 256 % 4
    hlv, hl := if hlv && !g.hlv then g.live else if hlv then g.hl else 0
    frameldDone := fl.testBit 2, trap := since g.trap was.trap (if fl.testBit 3 then some (g.trap.getD (0, 0)) else none), tmp := fl.testBit 4
    frm := BitVec.ofNat 32 (u 8 4 % 4), fstat := BitVec.ofNat 32 (u 0xC 4 % 64), cause := BitVec.ofNat 32 (u 0x14 4 % 256)
    ceinj := BitVec.ofNat 32 (u 0x18 4), xfer := since g.xfer was.xfer (u 0x1C 4)
    tval := BitVec.ofNat 64 (u 0x20 8), tlane := BitVec.ofNat 64 (u 0x28 8)
    gtmr := BitVec.ofNat 64 (u 0x30 8), gtcmp := BitVec.ofNat 64 (u 0x38 8), armed := decide (u 0x30 8 < u 0x38 8)
    cstack := (List.range (min 4 (u 0x60 1))).map (fun k => BitVec.ofNat 64 (u (0x40 + 8 * k) 8)), q := BitVec.ofNat 16 (u 0x62 2)
    xb := SMap.setMany ([] : SMap 64) 0 (fun _ => true) (fun k => BitVec.ofNat 64 (u (0x80 + 16 * k) 8)) 16
    xs := SMap.setMany ([] : SMap 32) 0 (fun _ => true) (fun k => BitVec.ofNat 32 (u (0x88 + 16 * k) 4)) 16
    s := SMap.setMany ([] : SMap 32) 0 (fun k => decide (k < g.sregs))
      (fun k => since (g.s.get k) (was.s.get k) (BitVec.ofNat 32 (u (0x180 + 4 * k) 4))) 64 }

/-- Read the vector lines from `bs`; the registers, the bytes used, or the offset of a bad header byte. -/
def takeLines (w : Nat) (bs : List (BitVec 8)) : Nat → List (Nat × Nat) → SMap 32 → SMap 32 × Nat × Option Nat
  | off, [], v => (v, off, none)
  | off, (r, h) :: rest, v =>
    match decodeLine (if w = 16 then 16 else 32) (bs.drop off) with
    | none => (v, off, some off)
    | some (l, n) =>
      takeLines w bs (off + n) rest ((l.zip (List.range l.length)).foldl (fun (v : SMap 32) x => v.set (64 * r + 32 * h + x.2) x.1) v)

/-- A group restored from its record, with the bytes of the record; or the offset of the byte that is bad. A record whose line headers
cannot be followed ends where it was written to end. Lanes beyond a narrower width are gone. Yields that end with the new lane states
clear (02 R22). -/
def Group.restore (g was : Group) (t : Team) (free evict : Bool) (bs : List (BitVec 8)) : Group × Nat × Option Nat :=
  let f := g.takeFixed was t free evict bs
  let w := f.width
  let badLane := (List.range w).find? (fun i => decide (4 ≤ leField bs (640 + 160 * i + 8) 1))
  let g0 := { (f.leave (~~~Mask.upto w)) with fbin := f.fbin &&& Mask.upto w }
  let g1 := (List.range w).foldl (fun (u : Group) i => Group.takeLane g was u i (bs.drop (640 + 160 * i))) g0
  let lines := (List.range g.vregs).flatMap (fun r => (List.range (linesOf w)).map (fun h => (r, h)))
  let (v, off, bad) := takeLines w bs (640 + 160 * w) lines []
  let n := if bad.isSome then (was.image t).length else up64 off
  match badLane.map (fun i => 640 + 160 * i + 8) <|> bad with
  | some o => (g, n, some o)
  | none => (({ g1 with v } : Group).yieldCheck, n, none)

/-- Groups restored one after the other, each with the address of its bad byte when it has one. -/
def restoreAll (va : DWord) (t : Team) (free evict : Bool) (bs : List (BitVec 8)) : Nat → List (Group × Group) → List (Group × Option DWord)
  | _, [] => []
  | off, (g, was) :: gs =>
    let (h, n, bad) := g.restore was t free evict (bs.drop off)
    (h, bad.map (fun o => va + BitVec.ofNat 64 (off + o))) :: restoreAll va t free evict bs (off + n) gs

/-- An ME as its record gives it. -/
def Me.restore (e : Me) (bs : List (BitVec 8)) : Me :=
  let u := leField bs
  let st := u 0x10 4
  { e with
    pc := BitVec.ofNat 64 (u 0 8), first := BitVec.ofNat 64 (u 8 8), state := if e.follower then e.state else bitsOf st 31 29
    code := bitsOf st 28 24, nv := st.testBit 23, of := st.testBit 22, uf := st.testBit 21, nx := st.testBit 20
    sig := BitVec.ofNat 8 (bitsOf st 19 12), cmd := bitsOf st 11 0, k := u 0x14 2
    configured := (u 0x16 1).testBit 0, paired := (u 0x16 1).testBit 1, follower := (u 0x16 1).testBit 2
    loops := (List.range (min 4 (u 0x17 1))).map (fun n => ⟨BitVec.ofNat 64 (u (0x40 + 8 * n) 8), u (0x60 + 2 * n) 2⟩)
    aSlot := u 0x18 1 % 8, bSlot := u 0x19 1 % 8, written := BitVec.ofNat 16 (u 0x1A 2)
    mma := if u 0x1C 4 = 0 then none else some (BitVec.ofNat 32 (u 0x68 4), BitVec.ofNat 32 (u 0x6C 4), u 0x1C 4 - 1)
    idx := (List.range 16).map (fun n => u (0x20 + 2 * n) 2)
    word := if u 0x70 8 % 2 = 0 then none else some (BitVec.ofNat 64 (u 0x78 8))
    acc := SMap.setMany ([] : SMap 32) 0 (fun _ => true) (fun i => BitVec.ofNat 32 (leField bs (128 + 4 * i) 4)) 65536 }

/-- Bytes an engine of the owner reads for a fill; a byte it cannot read is zero. -/
def State.imageAt (s : State) (owner : Nat) (va : DWord) (n : Nat) : List (BitVec 8) := (s.cpBytes owner va n).1

/-- The launch number of a team's grid, its low 32 bits. -/
def State.launchOf (s : State) (t : Team) : Nat := (s.gridOf t.grid).number % 2 ^ 32

/-- The team whose place an image has. -/
def State.savedTeam (s : State) (x : Saved) : Team := x.team.getD (s.teamOf x.tid)

/-- Lanes of groups that go to an SP. -/
def lanesFor (sp : Nat) (gs : List Group) : Nat := ((gs.filter (fun g => g.sp == sp && !g.inSlot)).map (·.width)).sum

/-- The address of the first bad byte of the header of a record's image. -/
def State.badHeader (s : State) (x : Saved) : Option DWord :=
  let t := s.savedTeam x
  if x.len = 0 then none
  else (headerBad (s.imageAt x.owner x.va x.len) (teamHeader (if x.eviction then 1 else 0) x.len t (s.launchOf t) x.groups.length s.cyc)).map
    (fun i => x.va + BitVec.ofNat 64 i)

/-- A record's groups read back from its image, each with the address of its bad byte when it has one; a bad header ends them all. A
record of handler groups has no image. `room`: the lanes that there is room for on each SP; rewritten widths and places that need more
are not taken (02 R35; DESIGN CHOICE, log entry 14). -/
def State.readContext (s : State) (x : Saved) (room : Nat → Nat) : List (Group × Option DWord) :=
  let t := s.savedTeam x
  if x.len = 0 then x.groups.map (fun g => (g, none))
  else match s.badHeader x with
    | some va => x.groups.map (fun g => (g, some va))
    | none =>
      let read := fun free => restoreAll x.va t free x.eviction (s.imageAt x.owner x.va x.len) 64 (x.groups.zip x.was)
      let gs := (read true).map (·.1)
      read (gs.all (fun g => decide (lanesFor g.sp gs ≤ room g.sp)))

/-- Where the sections behind the ME records begin. -/
def Saved.tail (x : Saved) : Nat :=
  match x.team with
  | some t => x.len - t.stateBytes.length - 65536 * t.allBanks.length
  | none => x.len

/-- MEs read back from an image: they stand after the group records. A record of handler groups keeps its own. -/
def State.readMes (s : State) (x : Saved) : List Me :=
  if x.len = 0 then x.mes
  else (x.mes.zip (List.range x.mes.length)).map (fun y =>
    y.1.restore (s.imageAt x.owner (x.va + BitVec.ofNat 64 (x.tail - meRecord * (x.mes.length - y.2))) meRecord))

/-- The groups with a bad byte, and the others. -/
def goodOf (l : List (Group × Option DWord)) : List Group := (l.filter (fun x => x.2.isNone)).map (·.1)

/-- The records of a context read one after the other: what the groups already read take of an SP's 1,024 lanes is not there for those
still to be read (02 R35). -/
def State.readRecords (s : State) (acc : List (Group × Option DWord)) : List Saved → List (Group × Option DWord)
  | [] => acc
  | x :: xs =>
    s.readRecords (acc ++ s.readContext x (fun p => 1024 - (lanesFor p (goodOf acc) + lanesFor p (xs.flatMap (·.groups))))) xs

/-- A group is terminated with ILLEGAL_OP and the address of the byte that is bad. -/
def State.endGroup (s : State) (gid : Nat) (va : DWord) : State := s.onGroup gid (fun u => u.terminate .illegalOp va u.cur.live)

/-- Every group of a team is terminated, those that are switched out too; their records leave the save area. -/
def State.endTeamGroups (s : State) (tid : Nat) (va : DWord) : State :=
  let hit := fun (g : Group) => g.team == tid && g.alive
  let away := (s.sps.flatMap (·.shadow) ++ s.saved.flatMap (·.groups)).filter hit
  let kept := s.saved.filter (fun x => !(x.groups.any hit))
  let sps := s.sps.map (fun (p : Sp) => { p with
    shadow := p.shadow.filter (fun g => !(hit g))
    incoming := p.incoming.filter (fun c => p.filled || kept.any (fun x => x.ctx == c)) })
  let s1 : State := { s with saved := kept, groups := s.groups ++ away, sps }
  (s1.allGroups.filter hit).foldl (fun (t : State) g => t.endGroup g.gid va) s1

/-- The ends that a fill of records finds: groups whose record is bad are terminated with ILLEGAL_OP and the address of the byte, and
with a bad header all groups of the team (19 R345). Their barrier arrivals go with them. `s0`: the state whose images were read. -/
def State.endBad (s s0 : State) (l : List Saved) (read : List (Group × Option DWord)) : State :=
  let s1 := read.foldl (fun (t : State) x =>
    match x.2 with
    | some va => ({ t with groups := t.groups ++ [x.1] } : State).endGroup x.1.gid va
    | none => t) s
  l.foldl (fun (t : State) x =>
    match s0.badHeader x with
    | some va => if x.tid = 0 then t else t.endTeamGroups x.tid va
    | none => t) s1

/-! ## The stages of a pre-emption (19 R341) -/

/-- Runs are cut and outstanding results delivered. -/
def Group.switchOut (ctr : Nat) (g : Group) : Group := g.freeze ctr

/-- The shadow bank holds a context that is still to be spilled. -/
def Sp.outgoing (p : Sp) : Bool := p.shadowOwner != 0 && !p.filled

/-- The records of a context. -/
def State.recordsOf (s : State) (ctx : Nat) : List Saved := s.saved.filter (fun x => x.ctx == ctx && !x.eviction)

/-- A context can come into an SP's active bank: the SP is the one it left, it may take work, no owner of the context is halted, and
the SP quota has room (19 R324, R339). -/
def State.mayEnter (s : State) (ctx sp : Nat) : Bool :=
  let l := s.recordsOf ctx
  l != [] && !(s.spOf sp).quarantined && l.all (fun x => x.sp == sp && (s.ownerOf x.owner).halt.isNone &&
    (s.holds x.owner sp || decide ((s.sps.filter (fun p => s.holds x.owner p.num)).length < (s.ownerOf x.owner).quotas.sp)))

/-- PREEMPTION: the host's command, through the CP: switch the SP's context for a saved one, or for none. An SP that a halted owner holds
stays its (18 R317). -/
def execPreemption (sp : Nat) (incoming : Option Nat) (s : State) : Out :=
  let p := s.spOf sp
  let ok := p.up && !p.preempt && p.shadowOwner == 0 && !(s.haltKeeps 0 sp) &&
    (match incoming with
     | none => true
     | some c => s.mayEnter c sp)
  .next (if ok then s.modSp sp (fun p => { p with preempt := true, incoming }) else s)

/-- The records of a context, read for a fill: they leave the save area. -/
def State.takeRecords (s : State) (l : List Saved) : State :=
  let u := l.foldl (fun (t : State) x => t.cpDone x.owner) s
  { u with saved := u.saved.filter (fun y => !(l.contains y)) }

/-- Pages of the save area are translated as resident: none, or the state in which the spill or the fill waits, a miss or a request
queued (19 R345). It waits on after a request that left a page as it was; beyond the translated addresses and on a path that is gone
there is nothing to wait for. -/
def State.areaReady (s : State) (owner : Nat) (m : Mode) : List Nat → Option State
  | [] => none
  | p :: ps =>
    let ask := if (s.ownerOf owner).requested p || (s.ownerOf owner).cpAsked.contains p then s
      else (s.queueRequest owner (cpMiss 0 4096 p (m == .write))).modOwner owner (fun o => { o with cpAsked := p :: o.cpAsked })
    match s.cpPage owner 0 m false p with
    | .ok => s.areaReady owner m ps
    | .miss => some (s.queueMiss owner (cpMiss 0 4096 p (m == .write)))
    | .wait => some s
    | .ask => some ask
    | .bad => if p < sramBase / 65536 ∧ s.engXlate owner Team.none cpCore m (pageVa p) = .miss then some ask else s.areaReady owner m ps

/-- The pages of records' images are ready: none, or the state in which the fill waits for them. -/
def State.imagesReady (s : State) : List Saved → Option State
  | [] => none
  | x :: l =>
    match s.areaReady x.owner .read (pagesOf x.va x.len) with
    | some t => some t
    | none => s.imagesReady l

/-- The fill of the shadow bank with the context that a pre-emption asks for. -/
def State.fillShadow (s : State) (sp ctx : Nat) : State :=
  let l := s.recordsOf ctx
  match s.imagesReady l with
  | some t => t
  | none =>
    let read := s.readRecords [] l
    ((s.takeRecords l).modSp sp (fun p => { p with
      shadow := goodOf read, shadowMe := (l.flatMap s.readMes).headD Me.idle, shadowOwner := (l.headD ⟨0, 0, false, 0, 0, 0, [], [], none, [], [], 0⟩).owner
      filled := true })).endBad s l read

/-- Groups that come to an SP beside those on it; they are placed there now (13 R217). -/
def State.joinSp (s : State) (sp : Nat) (gs : List Group) : State :=
  gs.foldl (fun (t : State) g =>
    { t with groups := t.groups ++ [{ g with sp, slot := if g.inSlot then 64 else t.freeSlot sp, placed := t.nextId }], nextId := t.nextId + 1 }) s

/-- An SP to which the groups of a record go from a quarantined SP (19 R339): another SP of their team's list with room, else one
that the CP grants the owner on the same core or pair. A matrix unit that has been used needs one that has not. -/
def State.relocSp (s : State) (x : Saved) : Option Nat :=
  let o := s.ownerOf x.owner
  let t := s.savedTeam x
  let lanes := (x.groups.map (·.width)).sum
  let me := x.mes.any (fun e => !e.fresh)
  let unit := fun p => !me || (s.meOf p).fresh
  if !(s.spOf x.sp).quarantined || o.halt.isSome || x.eviction then none
  else if t.tid = 0 then (s.handlerSp x.owner x.sp).filter unit
  else
    match t.sps.find? (fun p => p != x.sp && s.spOpen x.owner p && decide (s.lanesOn p + lanes ≤ 1024) && unit p) with
    | some p => some p
    | none =>
      let core := coreOf x.sp
      let near := (List.range 4).map (fun k => 4 * core + k) ++ (if t.paired then (List.range 4).map (fun k => 4 * (core ^^^ 1) + k) else [])
      near.find? (fun p => p != x.sp && !(s.agedBlocks (s.gridOf t.grid) p) && (o.cores false).contains (coreOf p) && s.spTakes (s.gridOf t.grid) p lanes &&
        (s.holds o.id p || decide ((s.sps.filter (fun q => s.holds o.id q.num)).length < o.quotas.sp)))

/-- The groups of a record resume on another SP, with its unit unless that SP has one of the team already (11 R183, R205). -/
def State.fillActive (s : State) (sp : Nat) (x : Saved) : State :=
  match s.imagesReady [x] with
  | some t => t
  | none =>
    let read := s.readContext x (fun _ => 1024 - s.lanesOn sp)
    let s1 := ((s.takeRecords [x]).takeSp x.owner sp).joinSp sp (goodOf read)
    let listed := (s.savedTeam x).sps.contains sp
    let s2 := s1.modTeam x.tid (fun t => if t.sps.contains sp then t else { t with sps := t.sps.map (fun q => if q = x.sp then sp else q) })
    let s3 := match s.readMes x with
      | e :: _ => if e.fresh && listed then s2 else s2.modMe sp (fun _ => e)
      | [] => s2
    s3.endBad s [x] read

/-- CONTEXT_FILL: the fill engine loads a context into the shadow bank for a pre-emption, or brings a record's groups from a
quarantined SP to another. -/
def execContextFill (sp ctx : Nat) (s : State) : Out :=
  let p := s.spOf sp
  .next (
    if p.preempt && p.incoming == some ctx && p.shadowOwner == 0 && s.mayEnter ctx sp then s.fillShadow sp ctx
    else match (s.recordsOf ctx).find? (fun x => s.relocSp x == some sp) with
      | some x => s.fillActive sp x
      | none => s)

/-- The owner of the context on an SP with groups `out`, 0 when there is none: a matrix unit is one when it is a team's, or runs a program
of a handler group. -/
def State.contextOwner (s : State) (sp : Nat) (out : List Group) : Nat :=
  let e := s.meOf sp
  match out with
  | g :: _ => g.owner
  | [] => if e.team != 0 || !e.ended || e.forkChain.isSome then s.meOwner sp else 0

/-- BANK_SWAP: the banks swap; the SP changes owner when the incoming context is another's, its ME follows, and
no word issues there for 64 clk (19 R341). With no context coming in, the SP is free for whoever takes it (19 R324). -/
def execBankSwap (sp : Nat) (s : State) : Out :=
  let p := s.spOf sp
  let ready := p.preempt && !(s.haltKeeps 0 sp) && (if p.incoming.isSome then p.filled else p.shadowOwner == 0)
  .next (
    if !ready then s
    else
      let out : List Group := (s.allGroups.filter (fun g => g.sp == sp && g.alive)).map (Group.switchOut s.freeCtr)
      let owner := s.contextOwner sp out
      let me := if owner = 0 then Me.idle else s.meOf sp
      let s1 := { s with
        cur := if s.cur.sp == sp && s.cur.alive then Group.empty else s.cur
        groups := s.groups.filter (fun (g : Group) => !(g.sp == sp)) ++ p.shadow }
      let s2 := if p.filled then s1.takeSp p.shadowOwner sp else s1
      s2.modSp sp (fun q => { q with
        shadow := out, shadowMe := me, shadowOwner := owner, filled := false, me := p.shadowMe, freed := !p.filled
        preempt := false, incoming := none, swapClk := 64 }))

/-- The first offset of the save area at which `n` bytes of a part are free: in the team's place, else elsewhere, since groups launched
from bins come to those that the place was reserved for (19 R342; DESIGN CHOICE, log entry 14). -/
def State.partSlot (s : State) (t : Team) (n : Nat) : Option Nat :=
  let base := (s.ownerOf t.owner).saveVa.toNat
  let taken := (s.saved.filter (fun x => x.tid == t.tid && !x.eviction)).map (fun x => (x.va.toNat - base, up64 x.len))
  match (sortNat (t.saveOff :: taken.map (fun x => x.1 + x.2))).find? (fun off =>
    decide (t.saveOff ≤ off) && decide (off + n ≤ t.saveOff + t.saveLen) && taken.all (fun x => decide (x.1 + x.2 ≤ off) || decide (off + n ≤ x.1))) with
  | some off => some off
  | none => s.saveSlot (s.ownerOf t.owner) 0 n

/-- Every range of the save area can be written by the spill engine. -/
def State.writesReady (s : State) (owner : Nat) : List (DWord × Nat) → CpWrite
  | [] => .go
  | (va, n) :: l =>
    match s.areaReady owner .write (pagesOf va n) with
    | some t => .wait t
    | none => if s.cpWritable owner va n then s.writesReady owner l else .never

/-- The record and the image of a team's part of the context in an SP's shadow bank; none when no place is free. Handler groups have
no place and no image: the device keeps their record (DESIGN CHOICE, log entry 14). -/
def State.spillPart (s : State) (sp ctx tid : Nat) : Option (Saved × List (BitVec 8)) :=
  let p := s.spOf sp
  let gs := p.shadow.filter (fun g => g.team == tid)
  let t := s.teamOf tid
  let x : Saved := { ctx, owner := p.shadowOwner, eviction := false, va := 0, len := 0, sp, groups := gs, mes := [], team := none
                     bankBytes := [], was := gs, ctr := s.freeCtr }
  let mes := if p.shadowMe.team = tid ∧ (tid ≠ 0 ∨ p.shadowMe.fresh = false) then [p.shadowMe] else []
  if tid = 0 then some ({ x with mes }, [])
  else
    let bs := imageBytes 0 t (s.launchOf t) s.cyc s.freeCtr gs mes
    (s.partSlot t bs.length).map (fun off =>
      ({ x with va := (s.ownerOf t.owner).saveVa + BitVec.ofNat 64 off, len := bs.length, mes }, bs))

/-- An image is written and its length added to the owner's count (19 R342). -/
def State.writeImage (s : State) (x : Saved) (bs : List (BitVec 8)) : State :=
  ({ (s.cpWrite x.owner x.va bs) with saved := s.saved ++ [x] } : State).modOwner x.owner (fun o => { o with
    contextBytes := o.contextBytes + BitVec.ofNat 64 bs.length })

/-- CONTEXT_SPILL: the outgoing context goes to the places of its teams in the owner's save area, and the shadow bank is
zeroed (19 R341). -/
def execContextSpill (sp : Nat) (s : State) : Out :=
  let p := s.spOf sp
  let owner := p.shadowOwner
  .next (
    if !p.outgoing || (s.ownerOf owner).halt.isSome then s
    else
      let (ctx, s1) := s.freshId
      let tids := sortNat (p.shadow.map (·.team) ++ (if p.shadowMe.team = 0 ∧ p.shadowMe.fresh = true then [] else [p.shadowMe.team]))
      let parts := (tids.foldl (fun (acc : State × List (Saved × List (BitVec 8))) tid =>
        match acc.1.spillPart sp ctx tid with
        | some y => ({ acc.1 with saved := acc.1.saved ++ [y.1] }, acc.2 ++ [y])
        | none => acc) (s1, [])).2
      if parts.length < tids.length then s
      else match s.writesReady owner (parts.map (fun y => (y.1.va, y.2.length))), s.stallWaits owner with
        | .wait u, _ => u
        | .never, _ => s.cpDone owner
        | .go, some u => u
        | .go, none =>
          let s2 := parts.foldl (fun (u : State) y => u.writeImage y.1 y.2) (s1.cpDone owner)
          (s2.modSp sp (fun p => { p with shadow := [], shadowMe := Me.idle, shadowOwner := 0 })).copyStall owner)

/-! ## Team eviction and restore (19 R342, R344, R345) -/

/-- Bytes of a team's banks, by their place in its allocation. -/
def State.bankImage (s : State) (banks : List Nat) : SMap 8 :=
  (banks.zip (List.range banks.length)).foldl (fun (acc : SMap 8) b =>
    let k := bankKey b.1 0
    let l := s.mem.filter (fun x => decide (k ≤ x.1) && decide (x.1 < k + 65536))
    acc ++ l.map (fun x => (65536 * b.2 + (x.1 - k), x.2))) []

/-- The poisoned blocks of a team's banks, by their place in its allocation. -/
def State.bankPoison (s : State) (banks : List Nat) : List Nat :=
  (banks.zip (List.range banks.length)).flatMap (fun b =>
    let k := blockOf (bankKey b.1 0)
    (s.poison.filter (fun q => decide (k ≤ q) && decide (q < k + 1024))).map (fun q => 1024 * b.2 + (q - k)))

/-- The key of a byte of the save area. -/
def State.imageKey (s : State) (owner : Nat) (va : DWord) : Option Nat :=
  match s.engXlate owner Team.none cpCore .read va with
  | .ok k => some k
  | _ => none

/-- Mark blocks of an image poisoned; `off`: where its banks begin (19 R343). -/
def State.markImage (s : State) (owner : Nat) (va : DWord) (off : Nat) (blocks : List Nat) : State :=
  blocks.foldl (fun (t : State) b =>
    match t.imageKey owner (va + BitVec.ofNat 64 (off + 64 * b)) with
    | some k => t.addPoison (blockOf k)
    | none => t) s

/-- The records of a team whose parts lie in its place. -/
def State.partsOf (s : State) (team : Nat) : List Saved := s.saved.filter (fun x => x.tid == team && !x.eviction)

/-- The groups of these parts stand with the team's other groups again. -/
def State.recall (s : State) (team : Nat) : State :=
  let read := (s.partsOf team).flatMap (fun x => s.readContext x (fun _ => 1024))
  let u := s.takeRecords (s.partsOf team)
  ({ u with groups := u.groups ++ goodOf read } : State).endBad s (s.partsOf team) read

/-- The unit that a team has for an SP, wherever it is. -/
def State.unitOf (s : State) (team sp : Nat) : Me :=
  match (s.partsOf team).find? (fun x => x.sp == sp && x.mes != []) with
  | some x => (s.readMes x).headD Me.idle
  | none =>
    if (s.spOf sp).shadowMe.team = team then (s.spOf sp).shadowMe else if (s.meOf sp).team = team then s.meOf sp
    else Me.forTeam team (s.teamOf team).grid

/-- TEAM_EVICTION: a team for which no engine runs is switched out whole, wherever its contexts are; its SPs and banks are
freed. -/
def execTeamEviction (team : Nat) (s : State) : Out :=
  let t := s.teamOf team
  let o := s.ownerOf t.owner
  let busy := s.sps.any (fun p => p.filled && (p.shadow.any (fun g => g.team == team) || p.shadowMe.team == team)) ||
    s.chains.any (fun c => c.team == team && c.status.isNone) ||
    s.steeps.any (fun j => s.contextGroups.any (fun g => g.gid == j.gid && g.team == team))
  .next (
    if t.tid = 0 ∨ busy = true ∨ o.halt.isSome = true then s
    else match s.imagesReady (s.partsOf team) with
      | some u => u
      | none =>
        let r := s.recall team
        let t := r.teamOf team
        let gs := ((r.allGroups ++ r.sps.flatMap (·.shadow)).filter (fun g => g.team == team && g.alive)).map (Group.switchOut r.freeCtr)
        let mes := if (r.gridOf t.grid).record.matrix then t.sps.map (s.unitOf team) else []
        let bs := imageBytes 1 t (r.launchOf t) r.cyc r.freeCtr gs mes
        -- its place, or another when groups from bins or cask rows make the image longer
        match (if bs.length ≤ t.saveLen then some t.saveOff else r.saveSlot o t.tid bs.length) with
        | none => s
        | some place =>
          let t := { t with saveOff := place, saveLen := if bs.length ≤ t.saveLen then t.saveLen else up64 bs.length }
          let va := o.saveVa + BitVec.ofNat 64 place
          match s.writesReady o.id [(va, bs.length)], s.stallWaits o.id with
          | .wait u, _ => u
          | .never, _ => s.cpDone o.id
          | .go, some u => u
          | .go, none =>
            let (ctx, s1) := r.freshId
            let x : Saved := { ctx, owner := o.id, eviction := true, va, len := bs.length, sp := t.sps.headD 0, groups := gs, mes
                               team := some t, bankBytes := r.bankImage t.allBanks, was := gs, ctr := r.freeCtr }
            let s2 := ((s1.cpDone o.id).writeImage x bs).markImage o.id va (bs.length - 65536 * t.allBanks.length) (r.bankPoison t.allBanks)
            let s3 := t.allBanks.foldl (fun (u : State) b => u.modBank b (fun x => { x with fence := 0 })) s2
            let s4 := (t.sps.foldl (fun (u : State) p => if (u.meOf p).team = team then u.modMe p (fun _ => Me.idle) else u) s3).dropContexts team
            ({ s4 with
                teams := s4.teams.filter (fun y => y.tid != team)
                cur := if s4.cur.team == team && s4.cur.alive then Group.empty else s4.cur
                groups := s4.groups.filter (fun g => !(g.team == team)) }).copyStall o.id)

/-- A byte of a restored bank: what was saved when the ciphertext stands, else a free value. -/
def restoredByte (x : Saved) (img : List (BitVec 8)) (ctr off i : Nat) : BitVec 8 :=
  if img.getD (off + i) 0 = Config.cipherByte x.ctr i then x.bankBytes.get i else Config.cipherByte ctr i

/-- A bank of a restored team: its bytes and its poisoned blocks as the image gives them. `b`: its place in the allocation. -/
def State.fillBank (s : State) (x : Saved) (img : List (BitVec 8)) (off bank b : Nat) : State :=
  let k := bankKey bank 0
  let u := s.writeKey k ((List.range 65536).map (fun i => restoredByte x img s.freeCtr off (65536 * b + i)))
  (List.range 1024).foldl (fun (t : State) q =>
    match s.imageKey x.owner (x.va + BitVec.ofNat 64 (off + 65536 * b + 64 * q)) with
    | some key => if s.poisoned key 64 then t.addPoison (blockOf k + q) else t
    | none => t) u

/-- TEAM_RESTORE: an evicted team resumes on a free place of the same shape (19 R344). -/
def execTeamRestore (team : Nat) (s : State) : Out :=
  .next (match s.saved.find? (fun x => x.eviction && (match x.team with | some t => t.tid == team | none => false)) with
    | none => s
    | some x =>
      let t := s.savedTeam x
      if (s.ownerOf x.owner).halt.isSome then s
      else match s.findPlace (s.gridOf t.grid) (fun k => lanesFor (t.sps.getD k 0) x.groups) (fun sp => !(s.agedBlocks (s.gridOf t.grid) sp)) with
        | none => s
        | some pl =>
          let spOf := fun p => pl.sps.getD ((t.sps.findIdx? (· == p)).getD 0) 0
          match s.imagesReady [x] with
          | some u => u
          | none =>
            let read := s.readContext x (fun p => 1024 - s.lanesOn (spOf p))
            let img := s.imageAt x.owner x.va x.len
            let off := x.len - 65536 * t.allBanks.length
            let banks := pl.banks ++ pl.partnerBanks
            let s1 := pl.sps.foldl (fun (u : State) p => u.takeSp x.owner p) (s.takeRecords [x])
            let s2 := banks.foldl (fun (u : State) b => u.takeBank x.owner b) s1
            let s3 := (banks.zip (List.range banks.length)).foldl (fun (u : State) b => u.fillBank x img off b.1 b.2) s2
            let s4 := (pl.sps.zip (s.readMes x)).foldl (fun (u : State) y => u.modMe y.1 (fun _ => y.2)) s3
            let tm := { (t.takeState (img.drop x.tail)) with core := pl.core, sps := pl.sps, banks := pl.banks, partnerBanks := pl.partnerBanks }
            let s5 : State := { s4 with teams := s4.teams ++ [tm] }
            ((goodOf read).foldl (fun (u : State) g => u.joinSp (spOf g.sp) [g]) s5).endBad s [x] read)

end Sys2Proof.Machine
end

