-- ==== Sys2Proof/Machine/HostLink.lean ====
section
/-! DEFINITION. The host link: the TDI states, the lock walker, key switches, completions, the register page and
the telemetry window (22 R386-R396, R417). -/

set_option linter.unusedVariables false

namespace Sys2Proof.Machine

/-! ## ERROR (22 R387, R391) -/

/-- The next free values are others. -/
def State.freshFree (s : State) : State := { s with freeCtr := s.freeCtr + 1 }

/-- A halt of kind 3 or 4: no word faulted, so what the record would say of one is free (DESIGN CHOICE, log entry 4). -/
def State.haltOpen (s : State) (owner kind : Nat) : State :=
  let w := fun k => Config.freeWord s.freeCtr k
  (s.haltOwner owner kind 0 (pairW (w 1) (w 2)) (pairW (w 3) (w 4)) (w 5) 0 ((w 6).toNat % 1024) ((w 6).getLsbD 31)).freshFree

/-- Rows whose data is still to come from the host, by requests with `p`, get it poisoned. -/
def State.poisonRows (s : State) (p : Nat → Bool) : State :=
  let hit := fun (r : Row) => if r.rid ≠ 0 ∧ p r.rid = true then { r with pend := r.pend.map (fun x => (x.1, x.2.1, true)) } else r
  { s with teams := s.teams.map (fun (t : Team) => { t with bins := t.bins.map (fun b => { b with rows := b.rows.map hit, cask := b.cask.map hit }) }) }

/-- The host may or may not have performed an atomic that was in flight: its word is as it stands, or free (22 R391; DESIGN CHOICE,
log entry 38). -/
def State.doubt (s : State) (r : HostReq) : State :=
  match r.word with
  | some w =>
    if Config.freeBit s.freeCtr 800000 r.rid then
      s.writeKey w.key (leBytes w.bytes (pairW (Config.freeWord s.freeCtr (8 + 2 * r.rid)) (Config.freeWord s.freeCtr (9 + 2 * r.rid))).toNat)
    else s
  | none => s

/-- The TDI moves to ERROR at one instant: what the host still has to answer is poisoned, so no register takes
it, and the owner halts with kind 3. -/
def State.toError (s : State) (owner : Nat) : State :=
  let o := s.ownerOf owner
  if o.id = 0 ∨ o.tdi = .error then s
  else
    ((((o.hostReqs.foldl State.doubt s).poisonRows (o.hostReqs.map (·.rid)).contains).modContexts (fun g => g.owner == owner) (fun g => { g with outst := g.outst.filter (fun e => e.path != 2) })).modOwner owner
      (fun o => { o with tdi := .error, hostReqs := [] })).haltOpen owner 3

/-! ## Locked registers (22 R388) -/

/-- The bytes of the locked registers in their order: configuration registers, then HATOM. -/
def Owner.lockedBytes (o : Owner) : List (BitVec 8) := o.lockedRegs.flatMap (fun x => leBytes 4 x.toNat) ++ leBytes 4 o.hatom.toNat

def Owner.digest (o : Owner) : BitVec 512 := sha512Num o.lockedBytes

/-- The TDI is locked. -/
def Owner.isLocked (o : Owner) : Bool := o.tdi == .locked || o.tdi == .run

/-- Device Control 2 of the VF: the model's register 0 (PRESUMED, log entry 34). Bit 6 is the AtomicOp Requester Enable, bits 3:0 the
completion timeout. -/
def Owner.devCtl2 (o : Owner) : Word := o.lockedRegs.getD 0 0

/-- Put `x` at place `n` of a list, zeros before it. -/
def setAt (l : List Word) (n : Nat) (x : Word) : List Word :=
  (List.range (max l.length (n + 1))).map (fun k => if k = n then x else l.getD k 0)

def State.answerWith (s : State) (a : Answer) : State := { s with answer := a }

/-- LOCK_INTERFACE (22 R387, R388). -/
def execLockInterface (owner : Nat) (s : State) : Out :=
  let o := s.ownerOf owner
  .next (if o.id = 0 ∨ o.tdi ≠ .unlocked then s.answerWith .error
    else (s.modOwner owner (fun o => { o with
      tdi := .locked, lockDigest := some o.digest, atomicEnable := o.devCtl2.getLsbD 6 })).answerWith .ok)

/-- START_INTERFACE. -/
def execStartInterface (owner : Nat) (s : State) : Out :=
  .next (if (s.ownerOf owner).id = 0 ∨ (s.ownerOf owner).tdi ≠ .locked then s.answerWith .error
    else (s.modOwner owner (fun o => { o with tdi := .run })).answerWith .ok)

/-- STOP_INTERFACE; from ERROR the only way on is DESTROY_OWNER. -/
def execStopInterface (owner : Nat) (s : State) : Out :=
  .next (if (s.ownerOf owner).id = 0 ∨ (s.ownerOf owner).tdi = .error then s.answerWith .error
    else (s.modOwner owner (fun o => { o with tdi := .unlocked })).answerWith .ok)

/-- LOCK_WALKER: the digest of a locked TDI is taken again. -/
def execLockWalker (owner : Nat) (s : State) : Out :=
  let o := s.ownerOf owner
  .next (if o.isLocked && o.lockDigest != some o.digest then s.toError owner else s)

/-- LOCKED_REGISTER_WRITE: a write that would change a locked register is not performed and moves the TDI to
ERROR. -/
def execLockedRegisterWrite (owner : Nat) (reg : Nat) (v : BitVec 32) (s : State) : Out :=
  let o := s.ownerOf owner
  .next (
    if o.id = 0 ∨ o.tdi = .error then s
    else if o.isLocked then (if o.lockedRegs.getD reg 0 = v then s else s.toError owner)
    else s.modOwner owner (fun o => { o with lockedRegs := setAt o.lockedRegs reg v }))

/-! ## Key switches and completions (22 R389, R390) -/

/-- A request under the old set is outstanding: neither its completion nor its timeout has come, whatever has become of its group. -/
def Owner.oldPending (o : Owner) : Bool := o.hostReqs.any (·.oldSet)

/-- The old set is held: until its last request has ended, at most 4 ms. -/
def State.oldHeld (s : State) (o : Owner) : Bool :=
  o.kOld && decide (s.cyc.toNat < o.kSwitchAt.toNat + 5200000)

/-- The old set is erased once nothing needs it. -/
def State.eraseOld (s : State) (owner : Nat) : State :=
  let o := s.ownerOf owner
  if o.kOld && (!o.oldPending || !(s.oldHeld o)) then s.modOwner owner (fun o => { o with kOld := false }) else s

/-- K_SET_GO: new TLPs go out under the new set; without host traffic the old set is erased at once (22 R391). -/
def execKSetGo (owner : Nat) (s : State) : Out :=
  let o := s.ownerOf owner
  .next (
    if o.id = 0 ∨ o.tdi = .error then s
    else
      (s.modOwner owner (fun o => { o with
        kCur := !o.kCur, kOld := o.tdi == .run, kSwitchAt := s.cyc
        hostReqs := o.hostReqs.map (fun r => { r with oldSet := true }) })).eraseOld owner)

/-- KEY_SET_ERASE. -/
def execKeySetErase (owner : Nat) (s : State) : Out := .next (s.eraseOld owner)

/-- A request of the group belongs to one of the issues. -/
def State.moreOf (s : State) (g : Group) (iids : List Nat) : Bool :=
  (s.ownerOf g.owner).hostReqs.any (fun x => x.gid == g.gid &&
    g.outst.any (fun e => e.lane == x.lane && e.addr == x.addr && e.path == 2 && iids.contains e.iid))

/-- An atomic whose lane consumes poison is not performed (14 R247). A word that has changed again since keeps what it holds: DESIGN CHOICE,
log entry 37. -/
def State.undoWord (s : State) (r : HostReq) : State :=
  match r.word with
  | some w => if leNat (Memory.bytes s.mem w.key w.bytes) = w.new then s.writeKey w.key (leBytes w.bytes w.old) else s
  | none => s

/-- The data of a request arrives: with the last request of its issue the result comes, for all the lanes at one moment (02 R20). Poisoned
data is kept for a frame row, or consumed. A lane without lookahead then stays at its instruction (14 R247); one that has gone on under its
lookahead no longer stands there, and POISON saves the PC where it stands. DESIGN CHOICE, log entry 37. -/
def State.deliverHost (s : State) (r : HostReq) (poisoned : Bool) : State :=
  let hit := fun (e : OutRes) => e.lane == r.lane && e.addr == r.addr && e.path == 2
  let s := if poisoned then (s.poisonRows (· == r.rid)).undoWord r else s
  match s.groupOf r.gid with
  | none => s
  | some g =>
    if !poisoned then
      let iids := (g.outst.filter (fun e => hit e && !e.frame)).map (·.iid)
      if s.moreOf g iids then s else s.modGid r.gid (fun g => g.arriveIf s.freeCtr iids.contains)
    else
      let s1 := s.modGid r.gid (fun g => { g with
        outst := (g.outst.filter (fun e => !(hit e && !e.frame))).map (fun e => if hit e then { e with poisoned := true } else e)
        pc := match r.home with
          | some a => if g.pc.get r.lane = a + 4 then g.pc.set r.lane a else g.pc
          | none => g.pc })
      if g.outst.any (fun e => hit e && !e.frame) then s1.onGroup r.gid (fun t => t.unwind .poison r.addr (Mask.one r.lane)) else s1

/-- A request ends with its data. -/
def State.endRequest (s : State) (owner rid : Nat) (poisoned : Bool) : State :=
  match (s.ownerOf owner).hostReqs.find? (fun r => r.rid == rid) with
  | none => s
  | some r =>
    let s1 := s.modOwner owner (fun o => { o with hostReqs := o.hostReqs.filter (fun x => x.rid != rid) })
    (if (s.ownerOf owner).halt.isSome then s1 else s1.deliverHost r poisoned).eraseOld owner

/-- HOST_COMPLETION: a completion is checked by IDE with the key set that its K bit selects. -/
def execHostCompletion (owner : Nat) (request : Nat) (kBit : Bool) (integrityOk linkOk errorStatus : Bool) (s : State) : Out :=
  let o := s.ownerOf owner
  .next (
    if !linkOk then (s.owners.filter (fun o => o.tdi == .run)).foldl (fun (t : State) o => t.toError o.id) s
    else if o.id = 0 ∨ o.tdi = .error then s
    else
      let t := s.eraseOld owner
      if !integrityOk || (kBit != o.kCur && !((t.ownerOf owner).kOld)) then t.toError owner
      else t.endRequest owner request errorStatus)

/-- The completion timeout a VF selects, in clk: 10 ms by default, between 50 us and 50 ms. -/
def Owner.timeout (o : Owner) : Nat :=
  if o.devCtl2.toNat % 16 = 0 then 13000000 else max 65000 (min 65000000 (Config.timeoutClk (o.devCtl2.toNat % 16)))

/-- COMPLETION_TIMEOUT: the data is delivered poisoned; it is no integrity failure. -/
def execCompletionTimeout (owner request : Nat) (s : State) : Out :=
  let o := s.ownerOf owner
  .next (match o.hostReqs.find? (fun r => r.rid == request) with
    | none => s
    | some r => if r.issued.toNat + o.timeout ≤ s.cyc.toNat then s.endRequest owner request true else s)

/-! ## The register page (22 R392, R393) -/

/-- A violation of the register page's rules. -/
def State.pageViolation (s : State) (owner offset reason : Nat) : State :=
  s.logViolation { cyc := s.cyc, addr := BitVec.ofNat 64 offset, target := owner, requester := requester 5 0 0, reqOwner := 0, reason }

/-- A host launch joins the owner's queue; a halted owner takes none up. -/
def State.submitLaunch (s : State) (owner : Nat) (va : DWord) : State :=
  let o := s.ownerOf owner
  if o.id = 0 then s
  else if o.halt.isSome then s.pageViolation owner 0 3
  else s.modOwner owner (fun o => { o with launches := o.launches ++ [va] })

def execLq (owner : Nat) (va : BitVec 64) (s : State) : Out := .next (s.submitLaunch owner va)

/-- A write of HATOM: before the first lock it is performed; on a locked TDI it is a write of a locked register;
after that the report stays. -/
def State.writeHatom (s : State) (owner : Nat) (v : Word) : State :=
  let o := s.ownerOf owner
  if o.id = 0 ∨ o.tdi = .error then s
  else if o.isLocked then (if o.hatom = v &&& 3 then s else s.toError owner)
  else if o.lockDigest.isSome then s.pageViolation owner 0x20 3
  else s.modOwner owner (fun o => { o with hatom := v &&& 3 })

def execHatom (owner : Nat) (v : BitVec 32) (s : State) : Out := .next (s.writeHatom owner v)

/-- An access of the page that is performed at all. -/
def pageAccessOk (offset width : Nat) : Bool := (width == 32 || width == 64) && offset * 8 % width == 0

/-- REGISTER_PAGE_WRITE: a write that names no writable register is ignored and logged. -/
def execRegisterPageWrite (owner offset width : Nat) (v : BitVec 64) (s : State) : Out :=
  .next (
    if (s.ownerOf owner).id = 0 then s
    else if offset = 0 ∧ width = 64 then s.submitLaunch owner v
    else if offset = 8 ∧ width = 32 then
      (s.modOwner owner (fun o => { o with replies := o.replies ++ [loW v] })).takeReply owner
    else if offset = 0x20 ∧ width = 32 then s.writeHatom owner (loW v)
    else s.pageViolation owner offset 3)

/-! ## Telemetry (22 R395, R396, R417) -/

def Tdi.code : Tdi → Nat
  | .unlocked => 0 | .locked => 1 | .run => 2 | .error => 3

/-- The group of R417 that an offset of the window belongs to; none for an item of the device or no item. -/
def itemGroup (offset : Nat) : Option Nat :=
  let o := offset / 8 * 8
  if offset = 0x44C ∨ offset = 0x454 then none
  else if 0x400 ≤ o ∧ o < 0x430 then some 0
  else if o = 0x440 ∨ o = 0x448 then some 1
  else if o = 0x450 then some 2
  else if o = 0x480 ∨ o = 0x488 then some 3
  else if o = 0x4C0 ∨ o = 0x4C8 ∨ o = 0x4D0 then some 4
  else if o = 0x500 then some 5
  else none

/-- Half `h` of a 64-bit item. -/
def halfOf (h : Nat) (x : DWord) : Word := if h = 0 then loW x else hiW x

def State.spsHeld (s : State) (owner : Nat) : Nat := (s.sps.filter (fun p => s.holds owner p.num)).length
def State.banksHeld (s : State) (owner : Nat) : Nat := (s.banks.filter (fun b => b.fence == owner)).length
def State.slotsInUse (s : State) (owner : Nat) : Nat := ((List.range 256).map (fun c => s.slotsHeld owner c)).sum

def State.portOf (s : State) (n : Nat) : Port := findD (·.num == n) ⟨n, 0, 0, 0, 0, 0⟩ s.ports

/-- Spare bonds in use: at most two of a channel. -/
def State.sparesUsed (s : State) : Nat :=
  (sortNat (s.failedBonds.map (·.1))).foldl (fun n ch => n + min 2 (s.failedBonds.filter (fun x => x.1 == ch)).length) 0

/-- DRAM banks that have retired: each one, and the banks of each dead channel. -/
def State.deadBanks (s : State) : Nat :=
  (s.retiredBanks.filter (fun b => !(s.channelDead (Config.bankChannel b)))).length +
    ((sortNat (s.failedBonds.map (·.1))).filter s.channelDead).length * Config.channelBanks

/-- The 32 bits at a 4-aligned offset of the page. -/
def State.pageWord (s : State) (o : Owner) (offset : Nat) : Word :=
  let h := offset / 4 % 2
  match offset with
  | 0x10 => BitVec.ofNat 32 o.tdi.code
  | 0x18 => BitVec.ofNat 32 o.ringSeq
  | 0x1C => BitVec.ofNat 32 (o.ringSeq / 2 ^ 32)
  | 0x20 => o.hatom
  | 0x100 => s.pwr
  | 0x104 => s.temp.getD 0 0
  | 0x108 => s.temp.getD 1 0
  | 0x10C => s.temp.getD 2 0
  | 0x110 => BitVec.ofNat 32 (s.aclk.getD 0 16)
  | 0x114 => s.link
  | 0x118 => BitVec.ofNat 32 s.sdcCount
  | 0x11C => BitVec.ofNat 32 ((s.banks.filter (·.failed)).length + s.deadBanks)
  | 0x120 => BitVec.ofNat 32 s.remaps.length
  | 0x124 => BitVec.ofNat 32 s.sparesUsed
  | 0x440 => BitVec.ofNat 32 (s.spsHeld o.id)
  | 0x444 => BitVec.ofNat 32 (s.banksHeld o.id)
  | 0x448 => BitVec.ofNat 32 (o.held.length + o.reserve.length)
  | 0x450 => BitVec.ofNat 32 (s.slotsInUse o.id)
  | k =>
    if 0x180 ≤ k ∧ k < 0x280 then
      let p := s.portOf ((k - 0x180) / 16)
      (match (k - 0x180) % 16 / 4 with
       | 0 => BitVec.ofNat 32 p.state
       | 1 => BitVec.ofNat 32 (min p.replays (2 ^ 32 - 1))
       | 2 => BitVec.ofNat 32 (min p.fec (2 ^ 64 - 1))
       | _ => BitVec.ofNat 32 (min p.fec (2 ^ 64 - 1) / 2 ^ 32))
    else if 0x400 ≤ k ∧ k < 0x430 then halfOf h (o.stall.getD ((k - 0x400) / 8) 0)
    else if k / 8 = 0x480 / 8 then halfOf h o.actSp
    else if k / 8 = 0x488 / 8 then halfOf h o.actRun
    else if k / 8 = 0x4C0 / 8 then halfOf h o.bwDram
    else if k / 8 = 0x4C8 / 8 then halfOf h o.bwHost
    else if k / 8 = 0x4D0 / 8 then halfOf h o.bwPeer
    else if k / 8 = 0x500 / 8 then halfOf h (BitVec.ofNat 64 o.lastReceipt)
    else 0

/-- TELEMETRY_READ: a host read of the page. An item of the owner that the allow-list does not name reads as zero,
is counted once and logged. -/
def execTelemetryRead (owner offset width : Nat) (s : State) : Out :=
  let o := s.ownerOf owner
  .next (
    -- a TDI that no owner is bound to has the device's items, and no others (22 R417)
    if o.id = 0 ∧ !((itemGroup offset).isNone && decide (0x100 ≤ offset) && pageAccessOk offset width) then s.answerWith (.word 0)
    else if !(pageAccessOk offset width) then (s.pageViolation owner offset 3).answerWith (.word 0)
    else
      let denied := match itemGroup offset with | some n => !(o.allowList.getLsbD n) | none => false
      if denied then
        ((s.modOwner owner (fun o => { o with denied := min (o.denied + 1) (2 ^ 64 - 1) })).pageViolation owner offset 5).answerWith (.word 0)
      else if width = 64 then s.answerWith (.word (pairW (s.pageWord o (offset + 4)) (s.pageWord o offset)))
      else s.answerWith (.word ((s.pageWord o offset).setWidth 64)))

/-! ## SPDM (22 R386) -/

/-- SPDM_REQUEST: a device held after bring-up step 3 or 4 refuses it (R414); else it is answered and signed by the Kiln; the messages lie outside the spec (DESIGN CHOICE, log entry 8). -/
def execSpdmRequest (request : Nat) (s : State) : Out :=
  .next (if !s.kilnStopped && (s.bringUp == 3 || s.bringUp == 4) then s.answerWith .error
    else if s.kilnStopped || s.bringUp != 8 then s.answerWith .none
    else s.answerWith (.spdm (Config.spdmResponse request s.cdi0 s.firmware s.freeCtr)))

end Sys2Proof.Machine
end

