-- ==== Sys2Proof/Machine/Kiln.lean ====
section
/-! DEFINITION. The requests of the Kiln: owners, grants, quotas, peer tables, key slots, diagnostics, logs, receipt
rings, keys, allow-lists and world keys (22 R382-R385, R395, R399, R407; 19 R321-R323; 18 R319). -/

set_option linter.unusedVariables false

namespace Sys2Proof.Machine

/-! ## Requests and refusals -/

/-- The mailbox answers requests. -/
def State.kilnReady (s : State) : Bool := !s.kilnStopped && s.bringUp == 8 && !s.powerOff

/-- A request of a requester of a kind is refused with an error response and logged with reason 4. -/
def State.refuseTo (s : State) (kind owner : Nat) : State :=
  (s.logViolation { cyc := s.cyc, addr := 0, target := owner, requester := requester kind 0 0, reqOwner := 0, reason := 4 }).answerWith .error

/-- A request that the host sends or relays is refused. -/
def State.kilnRefuse (s : State) (owner : Nat) : State := s.refuseTo 5 owner

/-- A request: nothing answers before bring-up or after the Kiln has stopped; a device held after bring-up step 3 or
4 refuses it (22 R382, R414); requests that change something are logged (R410). -/
def State.request (s : State) (f : State → State) : State :=
  if s.kilnReady then f s
  else if !s.kilnStopped && !s.powerOff && (s.bringUp == 3 || s.bringUp == 4) then s.answerWith .error
  else s.answerWith .none

/-- The request is performed. -/
def State.granted (s : State) : State := (s.logEvent .request).answerWith .ok

def State.exists (s : State) (owner : Nat) : Bool := owner != 0 && (s.ownerOf owner).id == owner

/-- An owner that requests other than DIAG and DESTROY_OWNER can act on: it is not halted (18 R319). -/
def State.acting (s : State) (owner : Nat) : Bool := s.exists owner && (s.ownerOf owner).halt.isNone

/-! ## Grants and allotments (19 R321, R322) -/

/-- The kind of a frame: 0 bonded DRAM, 0xE host, 0xF peer. -/
def frameKind (f : Nat) : Nat := f / 2 ^ 32

/-- The 64 KiB frames of the bonded DRAM, 192 GiB (00 R2; 13 R215). -/
def dramFrames : Nat := 0x300000

/-- An extent of R322; one that runs past the bonded DRAM names frames that do not exist and is refused too (DEDUCED, log entry
37). -/
def extentOk (e : Extent) : Bool :=
  let k := frameKind e.first
  (k != 0 || decide (e.first + e.count ≤ dramFrames)) &&
  (k == 0 || k == 0xE || k == 0xF) && decide (1 ≤ e.count) && decide (e.count < 2 ^ 32) &&
    frameKind (e.first + e.count - 1) == k

/-- A frame number that names a frame: of the bonded DRAM, of the host, of a peer. -/
def frameExists (f : Nat) : Bool := decide (f < dramFrames) || frameKind f == 0xE || frameKind f == 0xF

def extentsApart (a b : Extent) : Bool := decide (a.first + a.count ≤ b.first) || decide (b.first + b.count ≤ a.first)

def grantsOk : List Extent → Bool
  | [] => true
  | e :: l => extentOk e && l.all (extentsApart e) && grantsOk l

def extentHolds (e : Extent) (f : Nat) : Bool := decide (e.first ≤ f) && decide (f < e.first + e.count)

/-- A frame another owner holds, keeps in reserve or has allotted is not in the host's pool. -/
def State.inUse (s : State) (owner f : Nat) : Bool :=
  s.owners.any (fun o => o.id != owner && (o.held.contains f || o.allotment.contains f || o.reserve.any (fun r => r.2 == f)))

/-- Frames of the extents are no other owner's: none of it holds one, has one allotted or keeps one in its reserve, and both owners'
extents are marked shared where they overlap (22 R377). The spec names no check between owners: DEDUCED, log entry 15. -/
def State.extentsFree (s : State) (owner : Nat) (es : List Extent) : Bool :=
  es.all (fun e => frameKind e.first != 0 || s.owners.all (fun o => o.id == owner ||
    (o.grants.all (fun g => extentsApart e g || (e.shared && g.shared)) &&
      (o.held ++ o.allotment ++ o.reserve.map (·.2)).all (fun f => !(extentHolds e f)))))

/-- Frames that can be an owner's reserve: none is another owner's (22 R376). -/
def State.reserveFree (s : State) (owner : Nat) (fs : List Nat) : Bool :=
  fs.all (fun f => frameKind f != 0 || (!(s.inUse owner f) && s.owners.all (fun o => o.id == owner || o.grants.all (fun g => !(extentHolds g f)))))

/-- A frame that can stand in an owner's allotment: bonded DRAM it is granted and does not share (DESIGN CHOICE, log entry 15). -/
def State.allottable (s : State) (o : Owner) (f : Nat) : Bool :=
  frameKind f == 0 && o.grants.any (fun e => !e.shared && extentHolds e f) && !(o.held.contains f) &&
    !(o.reserve.any (fun r => r.2 == f)) && !(s.inUse o.id f) && !(s.frameLost (65536 * f))

/-- Memory and poison of frames are cleared; nothing they held before is seen any more. -/
def State.zeroFrames (s : State) (fs : List Nat) : State :=
  { s with mem := s.mem.filter (fun x => !(fs.contains (x.1 / 65536)))
           poison := s.poison.filter (fun b => !(fs.contains (b / 1024)))
           stale := s.stale.filter (fun e => !(fs.contains (e.1 / 16384))), tagFails := s.tagFails.filter (fun b => !(fs.contains (b / 1024)))
           versions := fs.foldl (fun (m : SMap 64) f => m.set (frameVersion f) (m.get (frameVersion f) + 1)) s.versions }

/-- Bonded DRAM that comes to an owner with its grants, without having been written to zero for it: the lines that were written there
carry another world's key, so their tags fail and they read poisoned (22 R377, R380). `new`: the frame was not the owner's before. -/
def State.strange (s : State) (new : Nat → Bool) : State :=
  let lines := s.versions.flatMap (fun e =>
    if e.1 < 2 ^ 42 then (if new (e.1 / 1024) then [e.1] else [])
    else if new (e.1 - 2 ^ 42) then (List.range 1024).map (· + 1024 * (e.1 - 2 ^ 42)) else [])
  { s with mem := s.mem.filter (fun x => !(decide (x.1 < 2 ^ 48) && new (x.1 / 65536)))
           stale := s.stale.filter (fun e => !(decide (e.1 < 2 ^ 46) && new (e.1 / 16384)))
           tagFails := lines.filter (fun b => !(s.tagFails.contains b)) ++ s.tagFails
           poison := lines.filter (fun b => !(s.poison.contains b)) ++ s.poison }

/-- The grants become these: what they bring is strange to the owner, and entries of frames that they no longer cover leave its TLB, so
that it maps none (19 R326; DEDUCED, log entry 15). -/
def State.setGrants (s : State) (owner : Nat) (es : List Extent) : State :=
  let o := s.ownerOf owner
  let has := fun (l : List Extent) f => l.any (fun e => frameKind e.first == 0 && extentHolds e f)
  let s1 := s.strange (fun f => has es f && !(s.owners.any (fun x => x.id != owner && has x.grants f)) && !(has o.grants f || o.held.contains f || o.allotment.contains f || o.reserve.any (fun r => r.2 == f)))
  s1.modOwner owner (fun o => { o with grants := es, tlb := o.tlb.filter (fun e => e.pin || e.st == .absent || Owner.granted { o with grants := es } e) })

/-- The allotment is brought to the quota less the frames held: frames leave it, and granted frames enter it from
the host's pool, written to zero. -/
def State.allot (s : State) (owner : Nat) : State :=
  let o := s.ownerOf owner
  let room := o.quotas.frames - (o.held.length + o.reserve.length)
  let keep := (o.allotment.filter (s.allottable o)).take room
  let near := room + o.held.length + o.reserve.length
  let pool := (o.grants.filter (fun e => !e.shared && frameKind e.first == 0)).flatMap (fun e =>
    (List.range (min e.count near)).map (fun i => e.first + i))
  let fresh := (pool.filter (fun f => s.allottable o f && !(keep.contains f))).take (room - keep.length)
  (s.zeroFrames fresh).modOwner owner (fun o => { o with allotment := keep ++ fresh })

/-! ## The owner descriptor (19 R321) -/

def parseExtent (b : List (BitVec 8)) : Extent × Bool :=
  let u := leField b 0 8
  ({ first := bitsOf u 35 0, count := leField b 8 4, r := u.testBit 40, w := u.testBit 41, x := u.testBit 42, shared := u.testBit 43 },
   bitsOf u 39 36 == 0 && bitsOf u 63 44 == 0 && leField b 12 4 == 0)

def isPow2 (n : Nat) : Bool := (List.range 17).any (fun k => n == 2 ^ k)

/-- The fields of a descriptor; the entries of the peer table come with PEER. The launch counter starts at 0 whatever the descriptor
says (22 R397). -/
def parseOwner (d : List (BitVec 8)) : Owner :=
  let u := leField d
  let a := fun off => BitVec.ofNat 64 (u off 8)
  { Owner.none with
    id := u 0 4, worldSlot := u 4 2
    quotas := { sp := u 6 2, sram := u 8 4, frames := u 0xC 4, linkShare := u 0x10 2, ceSlots := u 0x12 2 }
    rect := (List.range 4).map (fun k => u (0x1C + k) 1), htab := a 0x20, missQueueVa := a 0x28, saveVa := a 0x30
    finalNumber := u 0x60 8, finalChain := BitVec.ofNat 512 (u 0x68 64), saveLen := u 0x38 8, ringVa := a 0x40, ringRecords := u 0x48 4, stallVa := a 0x50
    reserve := (List.range (u 0x14 1)).map (fun k => (u (0x100 + 16 * k) 8 / 65536, u (0x108 + 16 * k) 8))
    grants := (List.range (u 0x15 1)).map (fun k => (parseExtent ((d.drop (0x500 + 16 * k)).take 16)).1) }

def quotasOk (q : Quotas) : Bool :=
  decide (1 ≤ q.sp) && decide (q.sp ≤ 1024) && decide (q.sram ≤ 12288) && decide (q.linkShare ≤ 256) &&
    decide (1 ≤ q.ceSlots) && decide (q.ceSlots ≤ 256)

/-- The descriptor keeps the table of 19 R321 and the extents R322. -/
def descriptorOk (d : List (BitVec 8)) : Bool :=
  let u := leField d
  let o := parseOwner d
  let al := fun off n => u off 8 % n == 0
  d.length == 2304 && decide (1 ≤ o.id) && decide (o.worldSlot ≤ 4095) && quotasOk o.quotas &&
    decide (1 ≤ u 0x14 1) && decide (u 0x14 1 ≤ 64) && decide (u 0x15 1 ≤ 64) && u 0x16 2 == 0 && decide (u 0x18 4 ≤ 65536) &&
    decide (o.rect.getD 0 0 + o.rect.getD 2 0 ≤ 16) && decide (o.rect.getD 1 0 + o.rect.getD 3 0 ≤ 16) &&
    al 0x20 64 && o.reserved o.htab && o.reserved (o.htab + 127) && al 0x28 64 && o.reserved o.missQueueVa && o.reserved (o.missQueueVa + 16383) &&
    al 0x30 64 && al 0x40 64 && o.ringVa != 0 && isPow2 o.ringRecords && decide (16 ≤ o.ringRecords) && u 0x4C 4 == 0 && al 0x50 64 &&
    u 0x58 8 == 0 && leNat ((d.drop 0xA8).take 88) == 0 &&
    (List.range (u 0x14 1)).all (fun k => u (0x100 + 16 * k) 8 % 65536 == 0 && frameExists (u (0x108 + 16 * k) 8)) &&
    (List.range (u 0x15 1)).all (fun k => (parseExtent ((d.drop (0x500 + 16 * k)).take 16)).2) && grantsOk o.grants

def Extent.bytes (e : Extent) : List (BitVec 8) :=
  leBytes 8 (e.first + (if e.r then 2 ^ 40 else 0) + (if e.w then 2 ^ 41 else 0) + (if e.x then 2 ^ 42 else 0) + (if e.shared then 2 ^ 43 else 0)) ++
    leBytes 4 e.count ++ leBytes 4 0

/-- `n` entries of 16 bytes. -/
def entries16 (n : Nat) (l : List (List (BitVec 8))) : List (BitVec 8) :=
  (List.range n).flatMap (fun k => l.getD k (List.replicate 16 0))

/-- The descriptor as the host reads it through the Kiln: every field as it stands, no key material (19 R321). -/
def Owner.descriptor (o : Owner) : List (BitVec 8) :=
  leBytes 4 o.id ++ leBytes 2 o.worldSlot ++ leBytes 2 o.quotas.sp ++ leBytes 4 o.quotas.sram ++ leBytes 4 o.quotas.frames ++
    leBytes 2 o.quotas.linkShare ++ leBytes 2 o.quotas.ceSlots ++ leBytes 1 o.reserve.length ++ leBytes 1 o.grants.length ++ leBytes 2 0 ++
    leBytes 4 o.peers.length ++ (List.range 4).flatMap (fun k => leBytes 1 (o.rect.getD k 0)) ++ leBytes 8 o.htab.toNat ++
    leBytes 8 o.missQueueVa.toNat ++ leBytes 8 o.saveVa.toNat ++ leBytes 8 o.saveLen ++ leBytes 8 o.ringVa.toNat ++ leBytes 4 o.ringRecords ++
    leBytes 4 0 ++ leBytes 8 o.stallVa.toNat ++ leBytes 8 0 ++ leBytes 8 o.finalNumber ++ leBytes 64 o.finalChain.toNat ++
    List.replicate 88 0 ++ entries16 64 (o.reserve.map (fun r => leBytes 8 (65536 * r.1) ++ leBytes 8 r.2)) ++ entries16 64 (o.grants.map Extent.bytes)

/-- The host reads a descriptor. R385 of chapter 22 names no request for it: DESIGN CHOICE, log entry 9. -/
def State.readDescriptor (s : State) (owner : Nat) : State :=
  s.request (fun s => if s.exists owner then s.answerWith (.data (s.ownerOf owner).descriptor false) else s.kilnRefuse owner)

/-- The loader places bytes in a frame of the owner's allotment or reserve; a frame of the allotment is held from then on (20 R350). -/
def State.loaderPlaces (s : State) (owner frame : Nat) (bytes : List (BitVec 8)) : State :=
  let o := s.ownerOf owner
  if !(s.acting owner) || decide (65536 < bytes.length) ||
      !(o.allotment.contains frame || o.held.contains frame || o.reserve.any (fun r => r.2 == frame)) then s
  else
    (s.writeKey (65536 * frame) bytes).modOwner owner (fun o => { o with
      allotment := o.allotment.filter (· != frame), held := if o.allotment.contains frame then o.held ++ [frame] else o.held })

/-- The PIN entry of a reserve frame: resident, with every right (DESIGN CHOICE, log entry 15). -/
def pinEntry (r : Nat × Nat) : Tlb :=
  { page := r.1, big := false, pin := true, st := .resident, ord := 1, r := true, w := true, x := true, frame := r.2, cores := [] }

/-- CREATE_OWNER: the descriptor is checked, the frames of the reserve written to zero (22 R376), the world key drawn, the owner bound to a TDI in CONFIG_UNLOCKED. -/
def execCreateOwner (desc : List (BitVec 8)) (tenantKey : List (BitVec 8)) (s : State) : Out :=
  .next (s.request (fun s =>
    let o := parseOwner desc
    if !(descriptorOk desc) || s.exists o.id || (s.keySlot o.worldSlot).kind != 0 || (s.keySlot o.worldSlot).owner != 0 ||
        decide (1024 ≤ s.owners.length) || !(s.extentsFree o.id o.grants) || !(s.reserveFree o.id (o.reserve.map (·.2))) then s.kilnRefuse o.id
    else
      let s0 := { s with owners := s.owners ++ [{ o with grants := [], tlb := o.reserve.map pinEntry, tenantKey }] }
      let s1 := (s0.zeroFrames ((o.reserve.map (·.2)).filter (fun f => frameKind f == 0))).setGrants o.id o.grants
      let s2 := s1.modKey o.worldSlot (fun k => { k with
        key := BitVec.ofNat 256 (Config.trng s.freeCtr), kind := 1, owner := o.id, lastIv := 0 })
      (s2.allot o.id).granted))

/-! ## Destroy (18 R319; 22 R376) -/

/-- What an SP keeps of a destroyed owner: nothing. A pre-emption that waited for a context of it is over. -/
def Sp.without (p : Sp) (owner : Nat) (mine : Me → Bool) (ctxs : List Nat) : Sp :=
  let waits := (match p.incoming with | some c => ctxs.contains c | none => false) || (p.filled && p.shadowOwner == owner)
  { p with
    owner := if p.owner = owner then 0 else p.owner
    me := if p.owner = owner ∨ mine p.me = true then Me.idle else p.me
    shadow := if p.shadowOwner = owner then [] else p.shadow
    shadowMe := if p.shadowOwner = owner then Me.idle else p.shadowMe
    shadowOwner := if p.shadowOwner = owner then 0 else p.shadowOwner
    filled := p.filled && p.shadowOwner != owner
    preempt := p.preempt && !waits
    incoming := if waits then none else p.incoming }

/-- DESTROY_OWNER: the owner is stopped without a halt record, its banks and register banks are zeroed, its keys
erased, and what it held returns to the host's pools. -/
def execDestroyOwner (owner : Nat) (s : State) : Out :=
  .next (s.request (fun s =>
    if !(s.exists owner) then s.kilnRefuse owner
    else
      let s0 := (s.chains.filter (fun c => c.owner == owner)).foldl (fun (t : State) c => t.cutCard c.cid) s
      let mine := fun (e : Me) => (s.gridOf e.grid).owner == owner || (s.teamOf e.team).owner == owner
      let ctxs := (s.saved.filter (fun x => x.owner == owner)).map (·.ctx)
      let s1 := (s0.banks.filter (fun b => b.fence == owner)).foldl (fun (t : State) b => t.takeBank 0 b.num) s0
      ({ s1 with
          cur := if s1.cur.owner = owner then Group.empty else s1.cur
          groups := s1.groups.filter (fun g => g.owner != owner)
          teams := s1.teams.filter (fun t => t.owner != owner)
          grids := s1.grids.filter (fun g => g.owner != owner)
          owners := s1.owners.filter (fun o => o.id != owner)
          chains := s1.chains.filter (fun c => c.owner != owner)
          steeps := s1.steeps.filter (fun j => j.owner != owner)
          rackings := s1.rackings.filter (fun r => r.owner != owner)
          saved := s1.saved.filter (fun x => x.owner != owner)
          keys := s1.keys.filter (fun k => k.owner != owner)
          portKeys := s1.portKeys.filter (fun k => k.owner != owner)
          inbound := s1.inbound.filter (fun x => x.owner != owner)
          sps := s1.sps.map (fun (p : Sp) => p.without owner mine ctxs) }).granted))

/-! ## Grants, quotas, peers, slots -/

def execGrant (owner : Nat) (extents : List Extent) (s : State) : Out :=
  .next (s.request (fun s =>
    if !(s.acting owner) || !(grantsOk extents) || decide (64 < extents.length) || !(s.extentsFree owner extents) then s.kilnRefuse owner
    else ((s.setGrants owner extents).allot owner).granted))

def execQuota (owner : Nat) (q : Quotas) (s : State) : Out :=
  .next (s.request (fun s =>
    if !(s.acting owner) || !(quotasOk q) then s.kilnRefuse owner
    else ((s.modOwner owner (fun o => { o with quotas := q })).allot owner).granted))

def execPeer (owner : Nat) (table : List Nat) (s : State) : Out :=
  .next (s.request (fun s =>
    if !(s.acting owner) || decide (65536 < table.length) then s.kilnRefuse owner
    else (s.modOwner owner (fun o => { o with peers := table })).granted))

/-- SLOT_ASSIGN: only empty slots that nobody else has. -/
def execSlotAssign (owner : Nat) (slots : List Nat) (s : State) : Out :=
  .next (s.request (fun s =>
    if !(s.acting owner) || !(slots.all (fun n => decide (n < 4096) && (s.keySlot n).kind == 0 &&
        ((s.keySlot n).owner == 0 || (s.keySlot n).owner == owner))) then s.kilnRefuse owner
    else (slots.foldl (fun (t : State) n => t.modKey n (fun k => { k with owner })) s).granted))

/-! ## Diagnostics and logs (18 R319; 22 R407, R414) -/

/-- What DIAG says of a group: its state, the lowest lane's PC, CAUSE, TVAL and TLANE. -/
def Group.diag (g : Group) : List (BitVec 8) :=
  let i := Mask.low (g.live ||| g.fbin)
  leBytes 1 (g.laneState i) ++ leBytes 8 (g.pc.get i).toNat ++ leBytes 4 g.cause.toNat ++ leBytes 8 g.tval.toNat ++ leBytes 8 g.tlane.toNat

/-- A group that was terminated: retired, no PC, and what its termination reported (01 R11). -/
def Ended.diag (e : Ended) : List (BitVec 8) :=
  leBytes 1 1 ++ leBytes 8 0 ++ leBytes 4 e.cause.toNat ++ leBytes 8 e.tval.toNat ++ leBytes 8 e.tlane.toNat

/-- Diagnostics of a halted owner, in the model's own layout (DESIGN CHOICE, log entry 16). -/
def State.diagBytes (s : State) (o : Owner) (h : Halt) : List (BitVec 8) :=
  s.haltBytes o.id h ++ (if h.kind = 2 then leBytes 4 h.reasonWord.toNat else []) ++
    (s.contextGroups.filter (fun g => g.owner == o.id && g.alive)).flatMap Group.diag ++
    (s.grids.filter (fun g => g.owner == o.id)).flatMap (fun g => g.ended.flatMap Ended.diag) ++
    o.stall.flatMap (fun x => leBytes 8 x.toNat) ++ leBytes 4 (s.spsHeld o.id) ++ leBytes 4 (s.banksHeld o.id) ++
    leBytes 4 (o.held.length + o.reserve.length)

/-- DIAG: a halted owner's diagnostics, or with no owner named the bring-up report. -/
def execDiag (owner : Option Nat) (s : State) : Out :=
  .next (match owner with
    | none =>
        if !s.kilnStopped && !s.powerOff && (s.bringUp == 3 || s.bringUp == 4 || s.bringUp == 8) then s.answerWith (.bringUp s.bringUp s.failUnit)
        else s.answerWith .none
    | some id => s.request (fun s =>
        let o := s.ownerOf id
        match o.halt with
        | some h => s.answerWith (.diagnostics (s.diagBytes o h))
        | none => s.kilnRefuse id))

/-- A violation entry of 32 bytes. -/
def Violation.bytes (v : Violation) : List (BitVec 8) :=
  leBytes 8 v.cyc.toNat ++ leBytes 8 v.addr.toNat ++ leBytes 4 v.target ++ leBytes 4 v.requester ++ leBytes 4 v.reqOwner ++ leBytes 4 v.reason

def Event.code : Event → Nat
  | .corrected => 0 | .rebuilt => 1 | .remap => 2 | .bond => 3 | .retired => 4 | .quarantine => 5 | .cipher => 6 | .request => 7

/-- LOG_READ: the violation log, or the event log with one byte an entry (DESIGN CHOICE, log entry 16). -/
def execLogRead (violations : Bool) (s : State) : Out :=
  .next (s.request (fun s =>
    s.answerWith (.log (if violations then s.violations.flatMap Violation.bytes else s.events.flatMap (fun e => leBytes 1 e.code)))))

/-- SET_RECEIPT_RING (22 R399). -/
def execSetReceiptRing (owner : Nat) (va : BitVec 64) (count : Nat) (s : State) : Out :=
  .next (s.request (fun s =>
    if !(s.acting owner) || va.toNat % 1024 != 0 || !(isPow2 count) || decide (4096 < count) then s.kilnRefuse owner
    else (s.modOwner owner (fun o => { o with receiptVa := va, receiptCount := count })).granted))

/-! ## Tenant sessions and peers (22 R383, R385, R395) -/

/-- KEY_PUT: an AEAD key enters a slot assigned to the owner; its last IV is 0. -/
def execKeyPut (owner slot : Nat) (key : BitVec 256) (authenticated : Bool) (s : State) : Out :=
  .next (s.request (fun s =>
    if !(s.acting owner) || !authenticated || (s.keySlot slot).owner != owner || (s.keySlot slot).kind == 1 then s.kilnRefuse owner
    else ((s.modKey slot (fun k => { k with next := some key })).nextKey slot).granted))

/-- ALLOW: only before lock, and only bits 5:0. After lock it moves the TDI to ERROR. -/
def execAllow (owner : Nat) (list : BitVec 32) (authenticated : Bool) (s : State) : Out :=
  .next (s.request (fun s =>
    let o := s.ownerOf owner
    if !(s.acting owner) || !authenticated then s.kilnRefuse owner
    else if o.isLocked then (s.toError owner).kilnRefuse owner
    else if o.tdi == .error || o.lockDigest.isSome || list >>> 6 != 0 then s.kilnRefuse owner
    else (s.modOwner owner (fun o => { o with allowList := list })).granted))

/-- WORLD_SHARE: the Kiln of a peer that has authenticated itself delivers the world key of the owner's flows. -/
def execWorldShare (owner dev : Nat) (key : BitVec 256) (s : State) : Out :=
  .next (s.request (fun s =>
    if !(s.acting owner) || !(s.sessions.contains dev) then s.refuseTo 7 owner
    else (s.modOwner owner (fun o => { o with peerKeys := (dev, key) :: o.peerKeys.filter (fun x => x.1 != dev) })).granted))

/-- KILN_LOCKSTEP_MISMATCH: the Kiln stops; every TDI moves to ERROR and every owner halts (22 R382). -/
def execKilnLockstepMismatch (s : State) : Out :=
  .next (s.owners.foldl (fun (t : State) o => t.toError o.id) { s with kilnStopped := true })

end Sys2Proof.Machine
end

