-- ==== Sys2Proof/Machine/Device.lean ====
section
/-! DEFINITION. Reliability, firmware bounds, clocks, power and start (22 R402-R414). -/

set_option linter.unusedVariables false

namespace Sys2Proof.Machine

/-! ## DRAM banks, rows and bonds (22 R404-R406) -/

/-- The record of a lost frame: cause 1 its bank retired, 2 its channel (22 R394). -/
def frameRecord (owner frame cause : Nat) : List (BitVec 8) :=
  leBytes 2 5 ++ leBytes 2 0 ++ leBytes 4 owner ++ leBytes 8 frame ++ leBytes 4 cause ++ List.replicate 44 0

/-- Frames of a bank or a channel leave the host's pool; the owners that hold one are told (22 R406). -/
def State.loseFrames (s : State) (p : Nat → Bool) (cause : Nat) : State :=
  s.owners.foldl (fun (t : State) o =>
    let lost := (o.held ++ o.reserve.map (·.2)).filter (fun f => frameKind f == 0 && p f)
    lost.foldl (fun (u : State) f => u.queueRecord o.id none (fun _ => frameRecord o.id f cause))
      (t.modOwner o.id (fun o => { o with allotment := o.allotment.filter (fun f => !(p f)) }))) s

/-- A DRAM bank retires. -/
def State.retireBank (s : State) (bank : Nat) : State :=
  if s.retiredBanks.contains bank then s
  else (({ s with retiredBanks := s.retiredBanks ++ [bank] }).loseFrames (fun f => Config.dramBank f == bank) 1).logEvent .retired

/-- A time within the latest 2^30 clk. -/
def State.lately (s : State) (c : DWord) : Bool := decide (s.cyc.toNat < c.toNat + 2 ^ 30)

/-- The row is to be remapped: it has returned an uncorrectable line, or 8 corrected ones within 2^30 clk (R404). -/
def State.rowQualifies (s : State) (bank row : Nat) : Bool :=
  s.rowErrs.any (fun e => e.bank == bank && e.row == row && (e.bad || decide (8 ≤ (e.times.filter s.lately).length)))

/-- The bond fails: in training, or by more than 2^10 corrected errors within 2^30 clk (R405). -/
def State.bondQualifies (s : State) (channel bond : Nat) : Bool :=
  s.bondErrs.any (fun e => e.channel == channel && e.bond == bond && (e.untrained || decide (1024 < (e.times.filter s.lately).length)))

/-- The ECC has corrected an error of a bond in a line of a row: both count it, and the log records it (R404, R405, R407). -/
def State.correct (s : State) (bank row bond : Nat) : State :=
  let ch := Config.bankChannel bank
  ({ s with
      rowErrs := modD (fun e => e.bank == bank && e.row == row) ⟨bank, row, false, []⟩ (fun e => { e with times := (s.cyc :: e.times).take 8 }) s.rowErrs
      bondErrs := modD (fun e => e.channel == ch && e.bond == bond) ⟨ch, bond, false, []⟩ (fun e => { e with times := (s.cyc :: e.times).take 1025 })
        s.bondErrs } : State).logEvent .corrected

/-- Bonds that fail training, before the first SP starts (R405, R414). -/
def State.failTraining (s : State) (bonds : List (Nat × Nat)) : State :=
  if s.bringUp ≠ 5 ∨ s.sps.any (·.up) = true then s
  else { s with
    bondErrs := bonds.foldl (fun l b =>
      modD (fun e => e.channel == b.1 && e.bond == b.2) ⟨b.1, b.2, true, []⟩ (fun e => { e with untrained := true }) l) s.bondErrs }

/-- ROW_REMAP: a row that qualifies is copied to a spare row, its uncorrectable blocks `bad` poisoned; without a spare row or an
entry of the CAM its bank retires. That its accesses are held meanwhile is time. -/
def execRowRemap (bank row : Nat) (bad : List Nat) (s : State) : Out :=
  .next (
    if s.retiredBanks.contains bank || !(s.rowQualifies bank row) then s
    else if 1024 ≤ s.remaps.length ∨ Config.spareRows bank ≤ (s.remaps.filter (fun x => x.1 == bank)).length then s.retireBank bank
    else ((bad.filter (fun b => Config.dramBank (b / 1024) == bank && Config.dramRow b == row)).foldl (fun (t : State) b => t.addPoison b) { s with
      remaps := s.remaps ++ [(bank, row)], rowErrs := s.rowErrs.filter (fun e => !(e.bank == bank && e.row == row)) }).logEvent .remap)

/-- BOND_STEERING: the data of a failing bond is steered to one of the channel's two spare bonds; when a third one
fails, the channel's banks retire. -/
def execBondSteering (channel bond : Nat) (s : State) : Out :=
  .next (
    if s.failedBonds.contains (channel, bond) || s.channelDead channel || !(s.bondQualifies channel bond) then s
    else
      let s1 := { s with failedBonds := s.failedBonds ++ [(channel, bond)] }
      if s1.channelDead channel then (s1.loseFrames (fun f => Config.bankChannel (Config.dramBank f) == channel) 2).logEvent .retired
      else s1.logEvent .bond)

/-! ## SRAM banks and cores (22 R403) -/

/-- A bank returns an uncorrectable word: at four within 2^30 clk the Kiln marks it failed. -/
def State.countWord (s : State) (bank : Nat) : State :=
  s.modBank bank (fun b =>
    let near := b.words.filter (fun c => decide (s.cyc.toNat < c.toNat + 2 ^ 30))
    { b with words := (s.cyc :: near).take 3, failed := b.failed || decide (3 ≤ near.length) })

/-- Two banks of a group of a core have failed. -/
def State.coreFailing (s : State) (core : Nat) : Bool :=
  s.banks.any (fun b => b.num / 48 == core && s.bankLost b.num)

/-- CORE_RETIRE: the core takes no further placement once its teams have left. -/
def execCoreRetire (core : Nat) (s : State) : Out :=
  .next (
    if s.retiredCores.contains core || !(s.coreFailing core) ||
        s.teams.any (fun t => t.sps.any (fun p => coreOf p == core) || (t.banks ++ t.partnerBanks).any (fun b => b / 48 == core)) then s
    else ({ s with retiredCores := s.retiredCores ++ [core] }).logEvent .retired)

/-! ## Firmware and its bounds (22 R408, R409) -/

/-- FUSED_MINIMUM_RAISE. -/
def execFusedMinimumRaise (version : Nat) (signed : Bool) (s : State) : Out :=
  .next (s.request (fun s =>
    if signed then ({ s with minVersion := max s.minVersion version }).granted else s.kilnRefuse 0))

/-- The place of a quantity in `State.regs`, and its ceiling: MHz, W, mV, GT/s, Gb/s (DESIGN CHOICE, log entry 35). -/
def regulatorIndex : Regulator → Nat
  | .clock => 0 | .power => 1 | .voltage => 2 | .pcie => 3 | .psiek => 4

def ceiling : Regulator → Nat
  | .clock => 1300 | .power => 1950 | .voltage => Config.voltageMax | .pcie => 64 | .psiek => 224

/-- REGULATOR_SETTING: a setting above its ceiling is clamped to it and logged as a firmware violation. -/
def execRegulatorSetting (q : Regulator) (value : Nat) (s : State) : Out :=
  let s1 := { s with regs := s.regs.set (regulatorIndex q) (min value (ceiling q)) }
  .next (
    if ceiling q < value then
      s1.logViolation { cyc := s.cyc, addr := 0, target := 0, requester := requester 6 0 0, reqOwner := 0, reason := 4 }
    else s1)

/-! ## Clocks and power (22 R412, R413) -/

/-- GOVERNOR_STEP: the arithmetic clock of a die, in steps of 1/16; one die at a time, 1 us (1,300 clk) apart. -/
def execGovernorStep (die step : Nat) (s : State) : Out :=
  .next (if s.cyc.toNat < s.stepAt.toNat then s
    else { s with aclk := s.aclk.set die (max 1 (min 16 step)), stepAt := s.cyc + 1300 })

/-- CURRENT_CLAMP: clock cycles are stretched; no result changes. -/
def execCurrentClamp (s : State) : Out := .next s

/-- What outlasts a loss of power or a reset: the fuses, and what the model's outside will do next. -/
def State.outlasting (s : State) : State := { State.reset with minVersion := s.minVersion, turns := s.turns, freeCtr := s.freeCtr }

/-- THERMTRIP: power is removed, and all worlds are lost; the fuses stay. -/
def execThermtrip (s : State) : Out := .next { s.outlasting with powerOff := true }

/-- CDI0 of the device for a firmware measurement (22 R384). -/
def cdiZero (fw : List (BitVec 8)) : BitVec 512 := BitVec.ofNat 512 (leNat (hmac512 (keyBytes Config.deviceSeed) fw))

/-- RESET: the ROM reads the seed and locks its fuses, derives CDI0, and checks and measures the image; then the memories are trained
and tested. `step` is the bring-up step that fails, if one does (22 R414): 3 or 4, or above for none; which unit failed is free. A device
so held has its link up, with the physical function only. SPs start next. -/
def execReset (imageOk : Bool) (version step : Nat) (s : State) : Out :=
  let fw := sha512 (Config.firmwareImage s.freeCtr)
  let z := { s.outlasting with seedLocked := true, cdi0 := cdiZero fw }
  let run := { z with version, firmware := BitVec.ofNat 512 (leNat fw) }
  .next (
    if !imageOk || decide (version < s.minVersion) then { z with bringUp := 2 }
    else if step = 3 ∨ step = 4 then { run with bringUp := step, failUnit := (Config.freeWord s.freeCtr 0).toNat, link := 0x86 }
    else { run with bringUp := 5, spAt := 64 })

/-- Banks and SPs that fail their test at bring-up: the banks are marked failed, the SPs quarantined (22 R403, R414). -/
def State.failTest (s : State) (banks sps : List Nat) : State :=
  if s.bringUp ≠ 5 ∨ s.sps.any (·.up) = true then s
  else
    let s1 := banks.foldl (fun (t : State) b => t.modBank b (fun b => { b with failed := true })) s
    sps.foldl (fun (t : State) p => (t.modSp p (fun q => { q with quarantined := true })).logEvent .quarantine) s1

/-- SP_START: the next SP in the order of core and SP number comes up, one every 64 clk. With the last, the links
train and the Kiln's mailbox answers (DESIGN CHOICE, log entry 1). -/
def execSpStart (sp : Nat) (s : State) : Out :=
  let up := (s.sps.filter (·.up)).length
  .next (
    if s.bringUp ≠ 5 ∨ sp ≠ up ∨ s.cyc.toNat < s.spAt.toNat then s
    else
      let s1 := { (s.modSp sp (fun p => { p with up := true })) with spAt := s.cyc + 64 }
      if sp = 1023 then
        { s1 with bringUp := 8, link := 0x86, ports := (List.range 16).map (fun n => ⟨n, 2, 0, 0, 0, 0⟩) }
      else s1)

end Sys2Proof.Machine
end

