-- ==== Sys2Proof/Machine/LaneMemory.lean ====
section
/-! DEFINITION. Loads, stores, packed blocks and atomics of the lanes (14 R249-R260; 17 R298). -/

set_option linter.unusedVariables false

namespace Sys2Proof.Machine

/-- The path of a key (13 R229): 0 DRAM, 1 scratch, 2 host memory, 3 a peer (the host path too). -/
def pathNum (key : Nat) : Nat :=
  if isPeerKey key then 3 else if globalBase ≤ key then 1 else if isHostKey key then 2 else 0

/-- A result of lane `i`: `n` words from `x` into the registers from `d`. -/
def results (s : State) (i d L key n : Nat) (x : Nat) (va : DWord) : List OutRes :=
  (List.range n).map (fun k =>
    { lane := i, reg := d + k, isPred := false, data := BitVec.ofNat 32 (x / 2 ^ (32 * k)), left := L, clob := false
      frame := false, pc := s.cur.ipc, addr := va, poisoned := false, path := pathNum key, iid := s.freeCtr })

/-- The flag of `VLDNF` (14 R251). -/
def flagResult (s : State) (i d L key : Nat) (b : Bool) (va : DWord) : OutRes :=
  { lane := i, reg := d, isPred := true, data := if b then 1 else 0, left := L, clob := false
    frame := false, pc := s.cur.ipc, addr := va, poisoned := false, path := pathNum key, iid := s.freeCtr }

/-- A plain load of `sz` bytes into `n` registers. -/
def loadMem (s : State) (sz n d L : Nat) (va : Nat → DWord) : LaneMem :=
  { mode := .read, reads := true, align := sz, size := sz, atom := none, va, va2 := fun _ => none
    perform := fun t i key => (t, results s i d L key n (leNat (Memory.bytes t.mem key sz)) (va i))
    onZero := fun i => results s i d L 0 n 0 (va i), wrote := fun _ _ => [], counts := fun _ => true, pageIsZero := false, freeOrd := false }

def wide (k : MemK) : Bool := k == .w64
def regsOf (k : MemK) : Nat := if k = .w64 then 2 else 1

/-- `VLD` (14 R250). -/
def execVld (h : Hdr) (d : Nat) (a : Adr) (l : Nat) (k : MemK) (t : Hint) (s : State) : Out :=
  .next (s.laneMem h (s.cur.dataOk (wide k) d && s.cur.adrOk a) (loadMem s (memBytes k) (regsOf k) d l (s.addrM a)))

/-- `VLDNF`: a page fault reads 0 with a clear flag; the flag goes to the predicate of the data's number (14 R251). -/
def execVldnf (h : Hdr) (d : Nat) (a : Adr) (l : Nat) (k : MemK) (t : Hint) (s : State) : Out :=
  let x := loadMem s (memBytes k) (regsOf k) d l (s.addrM a)
  .next (s.laneMem h (s.cur.dataOk (wide k) d && s.cur.adrOk a)
    { x with
      perform := fun t i key => let (u, r) := x.perform t i key; (u, r ++ [flagResult s i d l key true (x.va i)])
      onZero := fun i => x.onZero i ++ [flagResult s i d l 0 false (x.va i)]
      pageIsZero := true })

/-- A store of the `sz` low bytes of `x i`. -/
def storeMem (s : State) (sz : Nat) (va : Nat → DWord) (x : Nat → Nat) : LaneMem :=
  { mode := .write, reads := false, align := sz, size := sz, atom := none, va, va2 := fun _ => none
    perform := fun t i key => ((t.writeKey key (leBytes sz (x i))).markRacking s.cur.owner key sz, [])
    onZero := fun _ => [], wrote := fun _ k => [(k, sz)], counts := fun _ => true, pageIsZero := false, freeOrd := false }

/-- What a store of a kind writes in lane `i` (14 R252). -/
def State.storeVal (s : State) (k : MemK) (d i : Nat) : Nat :=
  if k = .w64 then (s.vpair 1 d i).toNat else (s.vreg 1 d i).toNat

/-- `VST` (14 R252): ascending lanes, so the highest lane's bytes remain (R249). -/
def execVst (h : Hdr) (d : Nat) (a : Adr) (l : Nat) (k : MemK) (t : Hint) (s : State) : Out :=
  .next (s.laneMem h (s.cur.dataOk (wide k) d && s.cur.adrOk a)
    (storeMem s (memBytes k) (s.addrM a) (s.storeVal k d)))

def execVldxW (h : Hdr) (d x o l : Nat) (s : State) : Out :=
  .next (s.laneMem h (s.cur.vOk d 1 && s.cur.vOk o 1) (loadMem s 4 1 d l (s.addrMX x o)))
def execVldxD (h : Hdr) (d x o l : Nat) (s : State) : Out :=
  .next (s.laneMem h (s.cur.vPairOk d && s.cur.vOk o 1) (loadMem s 8 2 d l (s.addrMX x o)))
def execVstxW (h : Hdr) (d x o l : Nat) (s : State) : Out :=
  .next (s.laneMem h (s.cur.vOk d 1 && s.cur.vOk o 1) (storeMem s 4 (s.addrMX x o) (s.storeVal .w32 d)))
def execVstxD (h : Hdr) (d x o l : Nat) (s : State) : Out :=
  .next (s.laneMem h (s.cur.vPairOk d && s.cur.vOk o 1) (storeMem s 8 (s.addrMX x o) (s.storeVal .w64 d)))

/-! ## Packed blocks (14 R254) -/

/-- The block of lane `i` starts at A[32k], whether or not lane 32k is active. -/
def State.blockVa (s : State) (a : Adr) (i : Nat) : DWord := s.addrM a (i / 32 * 32)

/-- The parts of a block of `n` bytes: its bytes on its first page and, past the boundary, on the next. -/
def State.blockParts (s : State) (m : Mode) (va : DWord) (n : Nat) : List Part :=
  match crossVa va n with
  | none => [⟨va, n, s.classify m 1 none va⟩]
  | some v => [⟨va, v.toNat - va.toNat, s.classify m 1 none va⟩, ⟨v, n - (v.toNat - va.toNat), s.classify m 1 none v⟩]

/-- The value of a block: a part on a discarded page reads 0 (13 R225; 14 R254). -/
def State.blockBytes (s : State) (va : DWord) (n : Nat) (mem : Memory) : Nat :=
  leNat ((s.blockParts .read va n).flatMap (fun p =>
    if p.cls.isOk then Memory.bytes mem p.cls.key p.len else List.replicate p.len 0))

/-- Lane `i` is the lowest active lane of its block. -/
def lowestOfBlock (act : Mask) (i : Nat) : Bool :=
  !((List.range 32).any (fun j => decide (i / 32 * 32 + j < i) && act.has (i / 32 * 32 + j)))

/-- `VLDN`: field t of the block of lanes 32k to 32k + 31 goes to lane 32k + t. -/
def execVldn (h : Hdr) (d : Nat) (a : Adr) (l : Nat) (k : PackK) (t : Hint) (s : State) : Out :=
  let va := s.blockVa a
  let n := packBytes k
  .next (s.laneMem h (s.cur.vOk d 1 && s.cur.adrOk a)
    { mode := .read, reads := true, align := packAlign k, size := n, atom := none, va
      va2 := fun i => crossVa (va i) n
      perform := fun t i key =>
        (t, results s i d l key 1 (t.blockBytes (va i) n t.mem / 2 ^ (packBits k * (i % 32)) % 2 ^ packBits k) (va i))
      onZero := fun i => results s i d l 0 1 0 (va i), wrote := fun _ _ => [], counts := lowestOfBlock (s.active h)
      pageIsZero := false, freeOrd := false })

/-- The block that `VSTN` writes: field t from lane 32k + t, 0 for a lane that is not active. -/
def State.packBlock (s : State) (act : Mask) (d : Nat) (k : PackK) (b : Nat) : Nat :=
  (List.range 32).foldl (fun acc t =>
    if act.has (32 * b + t) then acc + (s.vreg 1 d (32 * b + t)).toNat % 2 ^ packBits k * 2 ^ (packBits k * t) else acc) 0

/-- The lowest active lane of a block performs the write for all of them. -/
def execVstn (h : Hdr) (d : Nat) (a : Adr) (l : Nat) (k : PackK) (t : Hint) (s : State) : Out :=
  let va := s.blockVa a
  let n := packBytes k
  let act := s.active h
  .next (s.laneMem h (s.cur.vOk d 1 && s.cur.adrOk a)
    { mode := .write, reads := false, align := packAlign k, size := n, atom := none, va
      va2 := fun i => crossVa (va i) n
      perform := fun t i key =>
        if !(lowestOfBlock act i) then (t, [])
        else
          let bs := leBytes n (s.packBlock act d k (i / 32))
          (((s.blockParts .write (va i) n).foldl (fun (u : State × Nat) p =>
            (if p.cls.isOk then (u.1.writeKey p.cls.key ((bs.drop u.2).take p.len)).markRacking s.cur.owner p.cls.key p.len else u.1,
              u.2 + p.len)) (t, 0)).1, [])
      onZero := fun _ => []
      wrote := fun i _ => (s.blockParts .write (va i) n).flatMap (fun p => if p.cls.isOk then [(p.cls.key, p.len)] else [])
      counts := lowestOfBlock act
      pageIsZero := false, freeOrd := false })

/-! ## Atomics (14 R255-R260) -/

/-- A read-modify-write of `sz` bytes: `upd old` is the new value, or none to write nothing; the lanes are
applied in a free order. -/
def atomMem (s : State) (sz n d L : Nat) (op : Bool) (va : Nat → DWord) (upd : Nat → Nat → Option Nat) : LaneMem :=
  { mode := .write, reads := true, align := sz, size := sz, atom := some (sz, op), va, va2 := fun _ => none
    perform := fun t i key =>
      let old := leNat (Memory.bytes t.mem key sz)
      let u := match upd i old with
        | some v => (t.writeKey key (leBytes sz v)).markRacking s.cur.owner key sz
        | none => t
      (u, results s i d L key n old (va i))
    onZero := fun _ => [], wrote := fun _ _ => [], counts := fun _ => true, pageIsZero := false, freeOrd := true }

/-- The value of `VATMM` for memory `x` and register `y`. -/
def minMax (k : AtMmK) (x y : Word) : Word :=
  match k with
  | .minI32 => if x.toInt ≤ y.toInt then x else y
  | .maxI32 => if y.toInt ≤ x.toInt then x else y
  | .maxF32 => (f32Max x y).1
  | .minF32 => (f32Min x y).1

/-- The value of `VATBIT`. -/
def bitOp (k : AtBitK) (x y : Word) : Word :=
  match k with
  | .and => x &&& y
  | .or => x ||| y
  | .xor => x ^^^ y
  | .exch => y

/-- `VATADD` (14 R256). -/
def execVatadd (h : Hdr) (d : Nat) (a : Adr) (l : Nat) (k : AtAddK) (t : Hint) (s : State) : Out :=
  let dv := fun i => s.vreg 1 d i
  .next (match k with
    | .i32 => s.laneMem h (s.cur.vOk d 1 && s.cur.adrOk a)
        (atomMem s 4 1 d l true (s.addrM a) (fun i old => some ((old + (dv i).toNat) % 2 ^ 32)))
    | .u64 => s.laneMem h (s.cur.vPairOk d && s.cur.adrOk a)
        (atomMem s 8 2 d l true (s.addrM a) (fun i old => some ((old + (s.vpair 1 d i).toNat) % 2 ^ 64)))
    | .f32 => s.laneMem h (s.cur.vOk d 1 && s.cur.adrOk a)
        (atomMem s 4 1 d l false (s.addrM a) (fun i old => some (f32Add .rne (BitVec.ofNat 32 old) (dv i)).1.toNat)))

/-- `VATMM` (14 R257). -/
def execVatmm (h : Hdr) (d : Nat) (a : Adr) (l : Nat) (k : AtMmK) (t : Hint) (s : State) : Out :=
  .next (s.laneMem h (s.cur.vOk d 1 && s.cur.adrOk a)
    (atomMem s 4 1 d l false (s.addrM a) (fun i old => some (minMax k (BitVec.ofNat 32 old) (s.vreg 1 d i)).toNat)))

/-- `VATBIT` (14 R258). -/
def execVatbit (h : Hdr) (d : Nat) (a : Adr) (l : Nat) (k : AtBitK) (t : Hint) (s : State) : Out :=
  .next (s.laneMem h (s.cur.vOk d 1 && s.cur.adrOk a)
    (atomMem s 4 1 d l (k == .exch) (s.addrM a) (fun i old => some (bitOp k (BitVec.ofNat 32 old) (s.vreg 1 d i)).toNat)))

/-- `VCAS` (14 R259): a failing compare writes nothing. -/
def execVcas (h : Hdr) (d : Nat) (a : Adr) (l : Nat) (k : CasK) (t : Hint) (s : State) : Out :=
  .next (match k with
    | .w32 => s.laneMem h (s.cur.vPairOk d && s.cur.adrOk a)
        (atomMem s 4 1 d l true (s.addrM a) (fun i old =>
          if old = (s.vreg 1 d i).toNat then some (s.vreg 2 (d + 1) i).toNat else none))
    | .w64 => s.laneMem h (d % 4 == 0 && s.cur.vOk d 4 && s.cur.adrOk a)
        (atomMem s 8 2 d l true (s.addrM a) (fun i old =>
          if old = (s.vpair 1 d i).toNat then some (s.vpair 4 (d + 2) i).toNat else none)))

/-! ## VLDF (17 R298) -/

/-- `VLDF`: its data stays outstanding for a frame row, poisoned or not, unless the next word is known to be none that takes it; it is then a
`VLD.W32`. -/
def execVldf (h : Hdr) (d : Nat) (a : Adr) (l : Nat) (t : Hint) (s : State) : Out :=
  let x := loadMem s 4 1 d l (s.addrM a)
  let mark := fun (b : Bool) (r : List OutRes) => r.map (fun e => { e with frame := true, poisoned := b })
  .next (s.laneMem h (s.cur.vOk d 1 && s.cur.adrOk a)
    (if s.suspAt (s.cur.ipc + 4) = some false then x
    else { x with
      reads := false
      perform := fun t i key => let (u, r) := x.perform t i key; (u, mark (t.poisoned key 4) r)
      onZero := fun i => mark false (x.onZero i) }))

end Sys2Proof.Machine
end

