-- ==== Sys2Proof/Machine/Links.lean ====
section
/-! DEFINITION. Psiek ports and peers, core ports and their key registers (15 R280-R285; 22 R378, R379, R381). -/

set_option linter.unusedVariables false

namespace Sys2Proof.Machine

/-! ## Peers (15 R281, R282, R285) -/

/-- A DRAM frame that is the owner's: held, allotted, or in its reserve. -/
def Owner.ownFrame (o : Owner) (f : Nat) : Bool := o.held.contains f || o.allotment.contains f || o.reserve.any (fun r => r.2 == f)

/-- The key of a byte of an owner's export: a DRAM frame of its own, or a bank fenced to it. -/
def State.exportKey (s : State) (o : Owner) (offset : Nat) : Option Nat :=
  match o.exports[offset / 65536]? with
  | none => none
  | some base =>
    if base < 2 ^ 48 then (if base % 65536 = 0 ∧ o.ownFrame (base / 65536) = true then some (base + offset % 65536) else none)
    else if globalBase ≤ base ∧ s.banks.any (fun b => b.fence == o.id && bankKey b.num 0 == base) = true then some (base + offset % 65536)
    else none

/-- Every block of a stream's destination is poisoned. -/
def State.poisonExport (s : State) (o : Owner) (start len : Nat) : State :=
  if len = 0 then s
  else (List.range ((start % 64 + len + 63) / 64)).foldl (fun (t : State) k =>
    match s.exportKey o (start / 64 * 64 + 64 * k) with
    | some key => t.addPoison (blockOf key)
    | none => t) s

/-- The record of a lost peer (22 R394). -/
def peerRecord (owner dev cause : Nat) : List (BitVec 8) :=
  leBytes 2 6 ++ leBytes 2 0 ++ leBytes 4 owner ++ leBytes 4 dev ++ leBytes 4 cause ++ List.replicate 48 0

/-- A peer is lost, to one owner (`only`) or to all: its inbound streams break and every owner that names it is told (15 R282). -/
def State.losePeer (s : State) (dev cause : Nat) (only : Option Nat) : State :=
  let hit := fun (id : Nat) => only.all (fun x => x == id)
  let told := s.owners.filter (fun o => hit o.id && o.peers.contains dev && !(s.lostFor o dev))
  let broken := s.inbound.filter (fun x => x.dev == dev && hit x.owner)
  if s.lostPeers.contains dev then s
  else
    let s1 := match only with
      | none => { s with lostPeers := s.lostPeers ++ [dev] }
      | some id => s.modOwner id (fun o => { o with lost := if o.lost.contains dev then o.lost else o.lost ++ [dev] })
    let s2 := broken.foldl (fun (t : State) x => t.poisonExport (s.ownerOf x.owner) x.start x.len) s1
    let s3 := { s2 with inbound := s2.inbound.filter (fun x => !(broken.contains x)) }
    told.foldl (fun (t : State) o => t.queueRecord o.id none (fun _ => peerRecord o.id dev cause)) s3

/-- PEER_LOST: cause 1 its ports are down, 2 its Kiln has reported the worlds of some owners halted or destroyed, which is a loss to
those owners alone, 3 it was silent for 100 us. -/
def execPeerLost (dev cause : Nat) (s : State) : Out :=
  .next (
    if cause = 2 then
      let ended := (s.worldEnds.filter (fun x => x.2 == dev)).map (·.1)
      ended.foldl (fun (t : State) o => t.losePeer dev 2 (some o)) { s with worldEnds := s.worldEnds.filter (fun x => x.2 != dev) }
    else s.losePeer dev cause none)

def State.modPort (s : State) (n : Nat) (f : Port → Port) : State :=
  { s with ports := modD (·.num == n) ⟨n, 0, 0, 0, 0, 0⟩ f s.ports }

/-- A peer every port of whose route is down is lost (15 R282). -/
def State.loseUnrouted (s : State) : State :=
  (s.routes.filter (fun r => r.2.all (fun q => (s.portOf q).state == 0))).foldl (fun (t : State) r => t.losePeer r.1 1 none) s

/-- A port goes down. -/
def State.downPort (s : State) (port : Nat) : State := (s.modPort port (fun p => { p with state := 0 })).loseUnrouted

/-- PORT_DOWN. -/
def execPortDown (port : Nat) (s : State) : Out := .next (s.downPort port)

/-- FLIT_RECEIVE: a flit that fails its CRC draws a replay, the 16th of one flit takes the port down; one that
fails its world tag is handled as 22 R379 states and is not replayed: the next access on Psiek is the one it carried (DESIGN CHOICE, log
entry 11). -/
def execFlitReceive (port seq : Nat) (crcOk tagOk : Bool) (corrected : Nat) (s : State) : Out :=
  let p := s.portOf port
  .next (
    if p.state = 0 then s
    else
      let s1 := s.modPort port (fun p => { p with fec := min (p.fec + corrected) (2 ^ 64 - 1) })
      if !crcOk then
        let s2 := s1.modPort port (fun p => { p with replays := min (p.replays + 1) (2 ^ 32 - 1), sameReplays := p.sameReplays + 1 })
        if 16 ≤ p.sameReplays + 1 then s2.downPort port else s2
      else if seq ≠ p.seq then s1
      else
        let s2 := s1.modPort port (fun p => { p with seq := (p.seq + 1) % 65536, sameReplays := 0 })
        if tagOk then s2 else ({ s2 with upsets := s2.upsets ++ [Upset.badFlit] }).logEvent .cipher)

/-- The keys of `n` bytes of an export. -/
def State.exportKeys (s : State) (o : Owner) (offset n : Nat) : Option (List Nat) :=
  (List.range n).foldl (fun (acc : Option (List Nat)) i =>
    match acc, s.exportKey o (offset + i) with
    | some l, some k => some (l ++ [k])
    | _, _ => none) (some [])

/-- Bytes written as one engine write. -/
def State.writeKeys (s : State) (owner : Nat) (ks : List Nat) (bs : List (BitVec 8)) : State :=
  ((ks.zip bs).foldl (fun (t : State) x => (t.writeKey x.1 [x.2]).markRacking owner x.1 1) s).clearCovered (ks.map (fun k => (k, 1)))

/-- Bytes an inbound access reaches. -/
def peerSize : PeerOp → Nat
  | .read n => n
  | .write d => d.length
  | .stream _ _ d => d.length
  | .arrive _ _ => 4
  | .add .u64 _ => 8
  | .add _ _ => 4
  | .minmax _ _ => 4
  | .bit _ _ => 4
  | .cas .w64 _ _ => 8
  | .cas _ _ _ => 4

/-- Where the bytes lie. -/
def peerAt (op : PeerOp) (offset : Nat) : Nat := match op with | .stream pos _ _ => offset + pos | _ => offset

/-- The new value of an atomic on `old`; none: nothing is written. -/
def peerUpdate (op : PeerOp) (old : Nat) : Option Nat :=
  match op with
  | .arrive b _ => some (old ||| b.toNat)
  | .add .i32 v => some ((old + v.toNat) % 2 ^ 32)
  | .add .u64 v => some ((old + v.toNat) % 2 ^ 64)
  | .add .f32 v => some (f32Add .rne (BitVec.ofNat 32 old) (loW v)).1.toNat
  | .minmax k v => some (minMax k (BitVec.ofNat 32 old) v).toNat
  | .bit k v => some (bitOp k (BitVec.ofNat 32 old) v).toNat
  | .cas _ c n => if old = c.toNat then some n.toNat else none
  | _ => none

/-- An access whose flit failed its world tag: a read of poisoned data, or a discarded write (22 R379, R381). -/
def State.badFlitAccess (s : State) (op : PeerOp) : State :=
  let t := { s with upsets := s.upsets.filter (· != .badFlit) }
  match op with
  | .write _ => t
  | .stream _ _ _ => t
  | op => t.answerWith (.data (List.replicate (peerSize op) 0) true)

/-- PEER_ACCESS: an access of a peer reaches the export of an owner, or is refused: beyond the export, or while the
owner is halted (18 R317). The world tags of a peer that has not got the owner's world key fail (22 R381). A stream's destination is held
until it has come whole and so have its arrival bits; its first piece begins it; two of one sender to one place are two, and each OR lets one go, the older first (15 R285). -/
def execPeerAccess (dev owner offset : Nat) (op : PeerOp) (s : State) : Out :=
  let o := s.ownerOf owner
  .next (
    if o.id = 0 ∨ o.halt.isSome = true ∨ s.lostFor o dev = true then s.answerWith .error
    else match s.exportKeys o (peerAt op offset) (peerSize op) with
      | none =>
        (s.logViolation { cyc := s.cyc, addr := BitVec.ofNat 64 offset, target := owner, requester := requester 7 0 0
                          reqOwner := owner, reason := 1 }).answerWith .error
      | some ks =>
        let s := s.psiekPackets o dev
        let s0 := s.modOwner owner (fun o => { o with bwPeer := o.bwPeer + BitVec.ofNat 64 (peerSize op) })
        if s.upsets.contains .badFlit then s.badFlitAccess op
        else if !(o.peerKeys.any (fun x => x.1 == dev)) then (s.logEvent .cipher).badFlitAccess op else
        let bs := ks.map s.mem.get
        let pois := ks.any (fun k => s.poisoned k 1)
        match op with
        | .read _ => s0.answerWith (.data (if pois then bs.map (fun _ => 0) else bs) pois)
        | .write d => s0.writeKeys owner ks d
        | .stream pos total d =>
          let s1 := s0.writeKeys owner ks d
          let mine := fun (x : Inbound) => x.dev == dev && x.owner == owner && x.start == offset && x.len == total && decide (x.got < x.len)
          match s1.inbound.reverse.find? mine with
          | some x =>
            if pos = 0 then { s1 with inbound := s1.inbound ++ [⟨dev, owner, offset, total, d.length⟩] }
            else { s1 with inbound := (modD (· == x) x (fun x => { x with got := x.got + d.length }) s1.inbound.reverse).reverse }
          | none => { s1 with inbound := s1.inbound ++ [⟨dev, owner, offset, total, d.length⟩] }
        | op =>
          let s1 := match peerUpdate op (leNat bs) with
            | some v => s0.writeKeys owner ks (leBytes (peerSize op) v)
            | none => s0
          let s2 := s1.answerWith (.data bs pois)
          match op with
          | .arrive _ start =>
            (match s2.inbound.find? (fun x => x.dev == dev && x.owner == owner && x.start == start && decide (x.len ≤ x.got)) with
             | some x => { s2 with inbound := s2.inbound.erase x }
             | none => s2)
          | _ => s2)

/-! ## What stands outside a core (22 R378, R380) -/

/-- The world key of an owner. -/
def State.worldKey (s : State) (o : Owner) : BitVec 256 := (s.keySlot o.worldSlot).key

/-- A DRAM line of an owner's frame as the memory slice stores it: its ciphertext, its tag and its write version. -/
def State.storedLine (s : State) (o : Owner) (line : Nat) : List (BitVec 8) × Nat × DWord :=
  let ks := keySchedule (keyBytes (s.worldKey o))
  let v := (s.lineVersion line).toNat
  let ct := lineCipher ks v (64 * line) (Memory.bytes s.mem (64 * line) 64)
  (ct, lineTag ks (Config.linePad (s.worldKey o) v (64 * line)) v (64 * line) ct, s.lineVersion line)

/-- A packet of an owner as port `port` sends it: under the register that holds the owner's key there, with the flow's next counter;
none while the port has no key of the owner. -/
def State.sentPacket (s : State) (port owner flow : Nat) (header bs : List (BitVec 8)) : Option (List (BitVec 8) × Nat) :=
  (s.portKeys.find? (fun k => k.port == port && k.owner == owner)).map (fun r =>
    let ks := keySchedule (keyBytes (s.worldKey (s.ownerOf owner)))
    let ctr := (r.sent.get flow).toNat
    let ct := packetCipher ks flow r.epoch ctr bs
    (ct, packetTag ks flow r.epoch ctr header ct))

/-! ## Core ports (22 R378, R379) -/

/-- The world-key slot in a flow's number, and the core that sends it. -/
def flowSlot (flow : Nat) : Nat := bitsOf flow 31 20
def flowSrc (flow : Nat) : Nat := bitsOf flow 19 12
def flowDst (flow : Nat) : Nat := bitsOf flow 11 4

/-- The traffic of a flow uses the key register of its owner in a port. -/
def State.usePort (s : State) (port flow ctr : Nat) (sender : Bool) : State :=
  let owner := ((s.owners.find? (fun o => o.worldSlot == flowSlot flow)).map (·.id)).getD 0
  { s with portKeys := s.portKeys.map (fun (k : PortKey) =>
      if k.port = port ∧ k.owner = owner then
        { k with lastUse := s.cyc, sent := if sender then k.sent.set flow (BitVec.ofNat 64 (ctr + 1)) else k.sent }
      else k) }

/-- PACKET_RECEIVE: a core port checks a packet's epoch, counter and tag. What a packet carries that fails is a
read of poisoned data or a discarded write of its block (DESIGN CHOICE, log entry 11). -/
def execPacketReceive (flow epoch ctr : Nat) (tagOk : Bool) (addr : Nat) (isWrite : Bool) (s : State) : Out :=
  let f0 := s.flowOf flow
  let f := if f0.epoch < epoch then { f0 with epoch := epoch, expected := 0 } else f0
  let s1 := (s.usePort (flowSrc flow) flow ctr true).usePort (flowDst flow) flow ctr false
  .next (
    if f.epoch ≤ epoch ∧ ctr = f.expected ∧ tagOk = true then s1.setFlow { f with expected := ctr + 1 }
    else
      let s2 := if epoch < f.epoch then s1 else s1.setFlow { f with expected := ctr + 1 }
      ({ s2 with upsets := s2.upsets ++ [Upset.badPacket (blockOf addr) isWrite] }).logEvent .cipher)

/-- KEY_REGISTER_LOAD: the load epoch advances; past 2^24 - 1 no key is loaded and the owner halts with kind 4. The
register is a free one of the port's 64, else that of the owner whose traffic used the port least recently. -/
def execKeyRegisterLoad (port owner : Nat) (s : State) : Out :=
  let o := s.ownerOf owner
  .next (
    if o.id = 0 ∨ s.kilnStopped = true then s
    else if 2 ^ 24 - 1 < o.epoch + 1 then s.haltOpen owner 4
    else
      let others := s.portKeys.filter (fun k => !(k.port == port && k.owner == owner))
      let here := others.filter (fun k => k.port == port)
      let oldest := here.foldl (fun (acc : Option PortKey) k =>
        match acc with
        | none => some k
        | some b => if k.lastUse.toNat < b.lastUse.toNat then some k else some b) none
      let keep := if here.length < 64 then others else others.filter (fun k => some k != oldest)
      { (s.modOwner owner (fun o => { o with epoch := o.epoch + 1 })) with
        portKeys := keep ++ [{ port, owner, epoch := o.epoch + 1, lastUse := s.cyc, sent := [] }] })

end Sys2Proof.Machine
end

