-- ==== Sys2Proof/Machine/Run.lean ====
section
/-! DEFINITION. Runs: which lanes are ready, how an SP picks a group, the fetch of a word, and what surrounds the
meaning of an issued word: windows, yields, the end of a run and the clock (02 R14, R18-R31; 03 R39; 13 R217; 19
R339, R346, R347). -/

set_option linter.unusedVariables false

namespace Sys2Proof.Machine

/-! ## Words -/

/-- The E bit and the guard of an instruction word (03 R38). -/
def wordHdr : Instr → Option Hdr
  | .vadd h _ _ _ _ => some h
  | .vsub h _ _ _ _ => some h
  | .vmul h _ _ _ _ => some h
  | .vmad h _ _ _ => some h
  | .vand h _ _ _ => some h
  | .vor h _ _ _ => some h
  | .vxor h _ _ _ => some h
  | .vandn h _ _ _ => some h
  | .vshl h _ _ _ => some h
  | .vshr h _ _ _ _ => some h
  | .vmin h _ _ _ _ => some h
  | .vmax h _ _ _ _ => some h
  | .vaddi h _ _ _ => some h
  | .vshi h _ _ _ _ => some h
  | .vmovi h _ _ => some h
  | .vmov h _ _ => some h
  | .vnot h _ _ => some h
  | .vneg h _ _ => some h
  | .vabs h _ _ => some h
  | .vpopc h _ _ => some h
  | .vclz h _ _ => some h
  | .vbrev h _ _ => some h
  | .vsext8 h _ _ => some h
  | .vsext16 h _ _ => some h
  | .vfadd h _ _ _ _ => some h
  | .vfsub h _ _ _ _ => some h
  | .vfmul h _ _ _ _ => some h
  | .vfma h _ _ _ _ => some h
  | .vfmin h _ _ _ _ => some h
  | .vfmax h _ _ _ _ => some h
  | .vfabs h _ _ _ => some h
  | .vfneg h _ _ _ => some h
  | .vfrint h _ _ _ => some h
  | .vfcls h _ _ _ => some h
  | .vfscl h _ _ _ => some h
  | .vmovl h _ _ => some h
  | .vcvt h _ _ _ _ _ => some h
  | .vcvt6 h _ _ _ _ => some h
  | .vqnt h _ _ _ _ => some h
  | .vdqnt h _ _ _ _ => some h
  | .vpkh h _ _ _ _ => some h
  | .vupkh h _ _ _ => some h
  | .vcmpeq h _ _ _ _ => some h
  | .vcmpne h _ _ _ _ => some h
  | .vcmplt h _ _ _ _ => some h
  | .vcmple h _ _ _ _ => some h
  | .vsel h _ _ _ => some h
  | .plog h _ _ _ _ => some h
  | .pmov h _ _ _ => some h
  | .vshfl h _ _ _ => some h
  | .vshflx h _ _ _ => some h
  | .vshflu h _ _ _ => some h
  | .vshfld h _ _ _ => some h
  | .vballot h _ _ => some h
  | .vred h _ _ _ => some h
  | .vaff h _ _ => some h
  | .vbcast h _ _ => some h
  | .vld h _ _ _ _ _ => some h
  | .vldnf h _ _ _ _ _ => some h
  | .vst h _ _ _ _ _ => some h
  | .vldn h _ _ _ _ _ => some h
  | .vstn h _ _ _ _ _ => some h
  | .vatadd h _ _ _ _ _ => some h
  | .vatmm h _ _ _ _ _ => some h
  | .vatbit h _ _ _ _ _ => some h
  | .vcas h _ _ _ _ _ => some h
  | .vldxW h _ _ _ _ => some h
  | .vldxD h _ _ _ _ => some h
  | .vstxW h _ _ _ _ => some h
  | .vstxD h _ _ _ _ => some h
  | .vldf h _ _ _ _ => some h
  | .vtrd h _ _ _ _ _ => some h
  | .vtwr h _ _ _ _ _ => some h
  | .vtaddF32 h _ _ _ _ _ => some h
  | .vtmaxF32 h _ _ _ _ _ => some h
  | .vyield h => some h
  | .vbr h _ => some h
  | .vjtab h _ _ => some h
  | .vcall h _ => some h
  | .vcallx h _ => some h
  | .vret h => some h
  | .vsusp h _ _ _ => some h
  | .vspawn h _ _ _ => some h
  | .vexit h => some h
  | .vrcp h _ _ => some h
  | .vrsq h _ _ => some h
  | .vsqrt h _ _ => some h
  | .vexp2 h _ _ => some h
  | .vlog2 h _ _ => some h
  | .vtanh h _ _ => some h
  | .vdiv h _ _ _ => some h
  | .sadd h _ _ _ _ => some h
  | .ssub h _ _ _ _ => some h
  | .smul h _ _ _ _ => some h
  | .sand h _ _ _ => some h
  | .sor h _ _ _ => some h
  | .sxor h _ _ _ => some h
  | .sshl h _ _ _ => some h
  | .sshr h _ _ _ _ => some h
  | .smin h _ _ _ _ => some h
  | .smax h _ _ _ _ => some h
  | .saddi h _ _ _ => some h
  | .smovi h _ _ => some h
  | .smovl h _ _ => some h
  | .smov h _ _ => some h
  | .snot h _ _ => some h
  | .spopc h _ _ => some h
  | .sclz h _ _ => some h
  | .sreadl h _ _ _ => some h
  | .slui h _ _ => some h
  | .xset h _ _ _ => some h
  | .xaddb h _ _ => some h
  | .xaddbi h _ _ => some h
  | .xstr h _ _ => some h
  | .xget h _ _ _ => some h
  | .xadd h _ _ _ => some h
  | .xmuls h _ _ => some h
  | .scmpeq h _ _ _ _ => some h
  | .scmpne h _ _ _ _ => some h
  | .scmplt h _ _ _ _ => some h
  | .scmple h _ _ _ _ => some h
  | .qlog h _ _ _ _ => some h
  | .qany h _ _ _ => some h
  | .qmov h _ _ _ => some h
  | .bra h _ => some h
  | .brx h _ => some h
  | .barg h => some h
  | .bar h _ _ => some h
  | .fence h _ _ _ => some h
  | .nop h => some h
  | .end_ h => some h
  | .waitt h _ => some h
  | .launch h _ _ => some h
  | .fork h _ _ _ => some h
  | .rdv h _ => some h
  | .cpy h _ _ => some h
  | .cpyw h _ _ => some h
  | .rbind h _ _ => some h
  | .rpub h _ _ => some h
  | .rwaitf h _ _ => some h
  | .steep h _ _ _ => some h
  | .meas h _ _ _ => some h
  | .trap h _ => some h
  | .cbegin h _ => some h
  | .cend h => some h
  | .tlbw h _ _ => some h
  | .tlbi h _ _ => some h
  | .pgreq h _ _ => some h
  | .framea h _ => some h
  | .framef h _ _ => some h
  | .migr h _ _ _ => some h
  | .csrr h _ _ => some h
  | .csrw h _ _ => some h
  | .hret h _ _ => some h
  | .halto h _ => some h
  | .discard h _ _ _ => some h
  | .bincfg h _ _ _ => some h
  | .binwake h _ _ => some h
  | .binflush h _ => some h
  | .binq h _ _ _ => some h
  | .frameld h => some h
  | .tbind h _ _ => some h
  | .tzero h _ => some h
  | .tcolop h _ _ _ _ => some h
  | .tload h _ _ => some h
  | .tstore h _ _ => some h
  | .tacc h _ _ => some h
  | _ => none

/-- Words of an instruction: `VMOVL` and `SMOVL` have a literal (03 R44). -/
def wordCount : Instr → Nat
  | .vmovl _ _ _ => 2
  | .smovl _ _ _ => 2
  | _ => 1

/-- The control instructions (02 R25). -/
def isControl : Instr → Bool
  | .vyield _ => true
  | .vbr _ _ => true
  | .vjtab _ _ _ => true
  | .vcall _ _ => true
  | .vcallx _ _ => true
  | .vret _ => true
  | .vsusp _ _ _ _ => true
  | .vspawn _ _ _ _ => true
  | .vexit _ => true
  | .bra _ _ => true
  | .brx _ _ => true
  | .barg _ => true
  | .bar _ _ _ => true
  | .end_ _ => true
  | .waitt _ _ => true
  | .launch _ _ _ => true
  | .trap _ _ => true
  | .cbegin _ _ => true
  | .cend _ => true
  | .hret _ _ _ => true
  | .halto _ _ => true
  | _ => false

def pairRegs (r : Nat) : List Nat := [r, r + 1]

/-- Uniform registers an instruction reads or writes. -/
def uniformRegs (wide64 : Bool) : Instr → List Nat
  | .sadd _ d a b .u64 => pairRegs d ++ pairRegs a ++ pairRegs b
  | .sadd _ d a b _ => [d, a, b]
  | .ssub _ d a b .u64 => pairRegs d ++ pairRegs a ++ pairRegs b
  | .ssub _ d a b _ => [d, a, b]
  | .smul _ d a b .u64lo => pairRegs d ++ pairRegs a ++ pairRegs b
  | .smul _ d a b _ => [d, a, b]
  | .sand _ d a b => [d, a, b]
  | .sor _ d a b => [d, a, b]
  | .sxor _ d a b => [d, a, b]
  | .sshl _ d a b => [d, a, b]
  | .sshr _ d a b _ => [d, a, b]
  | .smin _ d a b _ => [d, a, b]
  | .smax _ d a b _ => [d, a, b]
  | .saddi _ d a _ => [d, a]
  | .smovi _ d _ => [d]
  | .smovl _ d _ => [d]
  | .smov _ d a => [d, a]
  | .snot _ d a => [d, a]
  | .spopc _ d a => [d, a]
  | .sclz _ d a => [d, a]
  | .sreadl _ d _ b => [d, b]
  | .slui _ d _ => [d]
  | .xset _ _ a b => pairRegs a ++ [b]
  | .xaddb _ _ b => [b]
  | .xstr _ _ b => [b]
  | .xget _ d _ .base => pairRegs d
  | .xget _ d _ .stride => [d]
  | .scmpeq _ _ a b .u64 => pairRegs a ++ pairRegs b
  | .scmpeq _ _ a b _ => [a, b]
  | .scmpne _ _ a b .u64 => pairRegs a ++ pairRegs b
  | .scmpne _ _ a b _ => [a, b]
  | .scmplt _ _ a b .u64 => pairRegs a ++ pairRegs b
  | .scmplt _ _ a b _ => [a, b]
  | .scmple _ _ a b .u64 => pairRegs a ++ pairRegs b
  | .scmple _ _ a b _ => [a, b]
  | .brx _ a => pairRegs a
  | .waitt _ a => pairRegs a
  | .launch _ d a => d :: pairRegs a
  | .fork _ a b .me => pairRegs a
  | .fork _ a b .ce => pairRegs b
  | .fork _ a b .both => pairRegs a ++ pairRegs b
  | .cpy _ d a => [d, d + 1, d + 2] ++ pairRegs a
  | .cpyw _ d a => [d, a]
  | .rbind _ _ a => pairRegs a
  | .steep _ d a b => pairRegs d ++ pairRegs a ++ pairRegs b
  | .meas _ d a b => d :: b :: pairRegs a
  | .tlbi _ a .one => pairRegs a
  | .framea _ d => pairRegs d
  | .framef _ d a => [d, a]
  | .migr _ d a b => d :: b :: pairRegs a
  | .discard _ d a b => d :: b :: pairRegs a
  | .csrr _ d n => if csrWide n.toNat then pairRegs d else [d]
  | .csrw _ d n => if csrWide n.toNat then pairRegs d else [d]
  | .hret _ a .uniform => pairRegs a
  | .halto _ a => [a]
  | .bincfg _ _ _ b => (List.range 7).map (fun k => b + k)
  | .binwake _ _ a => pairRegs a
  | .binq _ d _ _ => pairRegs d
  | .tbind _ _ a => pairRegs a
  | .tcolop _ _ a b _ => [a, b]
  | .tload _ _ a => pairRegs a
  | .tstore _ _ a => pairRegs a
  | .trap _ _ => List.range 8
  | .vballot _ d _ => if wide64 then pairRegs d else [d]
  | .vred _ d _ _ => [d]
  | .vbcast _ _ a => [a]
  | .vjtab _ _ b => [b, b + 1, b + 2]
  | .vqnt _ _ _ n _ => [n]
  | .vdqnt _ _ _ n _ => [n]
  | .vtrd _ _ _ i _ _ => [i]
  | .vtwr _ _ _ i _ _ => [i]
  | .vtaddF32 _ _ _ i _ _ => [i]
  | .vtmaxF32 _ _ _ i _ _ => [i]
  | _ => []

/-- Registers of a group that a promise, a steep status or a racking status still has to reach. -/
def State.pendingRegs (s : State) (gid : Nat) : List Nat :=
  s.chains.flatMap (fun c => if c.group = gid ∧ c.status = none then (match c.promReg with | some r => pairRegs r | none => []) else []) ++
    s.steeps.flatMap (fun j => if j.gid = gid then (if j.cmd.toNat / 2 ^ 27 = 7 then pairRegs j.dst else [j.dst]) else []) ++
    s.rackings.flatMap (fun r => if r.gid = gid then [r.dst] else []) ++
    s.owners.flatMap (fun o => (o.devLaunches.filter (fun l => l.gid == gid)).map (·.dst))

/-! ## What a word waits for before its meaning -/

/-- A word that reads or writes plain memory for the lanes: those that access it, their addresses, the bytes of an access, its hint,
whether it has a result of R2's requests. -/
structure MemWord where
  act : Mask
  va : Nat → DWord
  size : Nat
  hint : Hint
  result : Bool

def State.memWord (s : State) : Instr → Option MemWord
  | .vld h _ a _ k t => some ⟨s.active h, s.addrM a, memBytes k, t, true⟩
  | .vldnf h _ a _ k t => some ⟨s.active h, s.addrM a, memBytes k, t, true⟩
  | .vst h _ a _ k t => some ⟨s.active h, s.addrM a, memBytes k, t, false⟩
  | .vldn h _ a _ k t => some ⟨s.active h, s.blockVa a, packBytes k, t, true⟩
  | .vstn h _ a _ k t => some ⟨s.active h, s.blockVa a, packBytes k, t, false⟩
  | .vatadd h _ a _ k t => some ⟨s.active h, s.addrM a, if k = .u64 then 8 else 4, t, true⟩
  | .vatmm h _ a _ _ t => some ⟨s.active h, s.addrM a, 4, t, true⟩
  | .vatbit h _ a _ _ t => some ⟨s.active h, s.addrM a, 4, t, true⟩
  | .vcas h _ a _ k t => some ⟨s.active h, s.addrM a, if k = .w64 then 8 else 4, t, true⟩
  | .vldxW h _ x o _ => some ⟨s.active h, s.addrMX x o, 4, .plain, true⟩
  | .vldxD h _ x o _ => some ⟨s.active h, s.addrMX x o, 8, .plain, true⟩
  | .vstxW h _ x o _ => some ⟨s.active h, s.addrMX x o, 4, .plain, false⟩
  | .vstxD h _ x o _ => some ⟨s.active h, s.addrMX x o, 8, .plain, false⟩
  | .vldf h _ a _ t => some ⟨s.active h, s.addrM a, 4, t, true⟩
  -- plain reads of an entry, a descriptor (01 R9; 11 R190, R207)
  | .vjtab h a b =>
      some ⟨s.active h, fun i => pairW (s.cur.sreg (b + 1)) (s.cur.sreg b) + BitVec.ofNat 64 (8 * (s.vreg 1 a i).toNat), 8, .plain, false⟩
  | .tbind h _ a => some ⟨if s.uguard h then s.cur.iss else 0, fun _ => s.cur.spair a, 16, .plain, false⟩
  | .rbind h _ a => some ⟨if s.uguard h then s.cur.iss else 0, fun _ => s.cur.spair a, 16, .plain, false⟩
  | _ => none

/-- Steep commands of these lanes that are not performed, those with `p` (15 R276). -/
def State.steepsOf (s : State) (m : Mask) (p : SteepJob → Bool) : Bool :=
  s.steeps.any (fun j => j.gid == s.cur.gid && j.lanes &&& m != 0 && p j)

/-- The word comes after steep commands of its lanes that are still to be performed: a REL access, a `LAUNCH` or a release of
bins (17 R300), a `TRAP`, which releases what the whole group has done (20 R353), a barrier
arrival, a releasing fence that names the engine path, at any scope (13 R238), a plain access to a word in a command's range, an access to a tile (13 R230, R236, R238-R243). -/
def State.steepsFirst (s : State) (i : Instr) : Bool :=
  let m := s.cur.iss
  match i with
  | .launch h _ _ => s.uguard h && s.steepsOf m (fun _ => true)
  | .binwake h _ _ => s.uguard h && s.steepsOf m (fun _ => true)
  | .vsusp h _ _ _ => s.steepsOf (s.active h) (fun _ => true)
  | .vspawn h _ _ _ => s.steepsOf (s.active h) (fun _ => true)
  | .barg h => s.uguard h && s.steepsOf m (fun _ => true)
  | .bar h _ _ => s.uguard h && s.steepsOf m (fun _ => true)
  | .trap h _ => s.uguard h && s.steepsOf (BitVec.allOnes 64) (fun _ => true)
  | .fence h p k sc => s.uguard h && k != .acq && namesEngine p && s.steepsOf m (fun _ => true)
  | .vtrd h _ _ _ _ _ => s.steepsOf (s.active h) (fun _ => true)
  | .vtwr h _ _ _ _ _ => s.steepsOf (s.active h) (fun _ => true)
  | .vtaddF32 h _ _ _ _ _ => s.steepsOf (s.active h) (fun _ => true)
  | .vtmaxF32 h _ _ _ _ _ => s.steepsOf (s.active h) (fun _ => true)
  | .tzero h _ => s.uguard h && s.steepsOf m (fun _ => true)
  | .tcolop h _ _ _ _ => s.uguard h && s.steepsOf m (fun _ => true)
  | .tload h _ _ => s.uguard h && s.steepsOf m (fun _ => true)
  | .tstore h _ _ => s.uguard h && s.steepsOf m (fun _ => true)
  | .tacc h _ _ => s.uguard h && s.steepsOf m (fun _ => true)
  | _ =>
    match s.memWord i with
    | none => false
    | some w =>
      let act := w.act
      s.steepsOf act (fun j => w.hint == .release || (act &&& j.lanes).lanes.any (fun l =>
        decide ((w.va l).toNat < j.va.toNat + 4 * j.words) && decide (j.va.toNat < (w.va l).toNat + w.size)))

/-- Lanes whose data of an issue is held for a row, and known to be: their next word can be fetched (17 R298). -/
def State.decidedRow (s : State) (iid : Nat) : Mask :=
  Mask.ofFn (fun i => s.cur.outst.any (fun e => e.iid == iid && e.lane == i && e.frame &&
    (s.cur.pc.get i != e.pc + 4 || (s.suspAt (e.pc + 4)).isSome))) 64

/-- The lanes whose results the word waits for, whatever their windows: those that suspend, spawn, exit, trap, arrive at a
barrier, launch (17 R311) or are resumed by an `HRET` (02 R31); those that an acquiring fence covers (14 R261); those outside the issue set that
`SREADL` or a permute reads (05 R96; 09 R158). Data that a row takes is none of them. -/
def State.resultsFirst (s : State) (i : Instr) : Mask :=
  let g := s.cur
  let lanesOf := fun (m : Mask) (p : Pend → Bool) =>
    (g.await.foldl (fun (x : Mask) q => if p q then x ||| (q.lanes &&& ~~~s.decidedRow q.iid) else x) 0) &&& m
  let all := fun (m : Mask) => lanesOf m (fun _ => true)
  let from' := fun (h : Hdr) (a : Nat) (src : Nat → Nat) =>
    lanesOf (Mask.ofFn (fun j => !(g.iss.has j) && (s.active h).lanes.any (fun l => src l == j)) 64) (fun q => q.regs.contains a)
  match i with
  | .vsusp h _ _ _ => all (s.active h)
  | .vspawn h _ _ _ => all (s.active h)
  | .vexit h => all (s.active h)
  | .end_ h => if s.uguard h then all (BitVec.allOnes 64) else 0
  | .launch h _ _ => if s.uguard h then all g.iss else 0
  | .trap h _ => if s.uguard h then all g.iss else 0
  | .barg h => if s.uguard h then all g.iss else 0
  | .bar h _ _ => if s.uguard h then all g.iss else 0
  | .hret h _ _ => if s.uguard h && g.hlv then all g.iss else 0
  | .fence h p k _ => if s.uguard h && k != .rel then lanesOf g.iss (fun q => q.paths.any (pathCovers p)) else 0
  | .sreadl h _ a b =>
      if s.uguard h then lanesOf (Mask.one ((g.sreg b).toNat % g.width)) (fun q => q.regs.contains a) else 0
  | .vshfl h _ a b => from' h a (fun l => (s.vreg 2 b l).toNat % g.width)
  | .vshflx h _ a n => from' h a (fun l => (l ^^^ n) % g.width)
  | .vshflu h _ a n => from' h a (fun l => if l < n then l else l - n)
  | .vshfld h _ a n => from' h a (fun l => if g.width ≤ l + n then l else l + n)
  | _ => 0

/-- Requests of a core's lanes that have no result yet; a core has at most 1,024 (00 R2), which gives the number and not what counts:
here one for each lane that awaits a result of a load or an atomic; stores, tile accesses and those of the engines are none. DESIGN
CHOICE, log entry 37. -/
def State.requestsOut (s : State) (core : Nat) : Nat :=
  (s.allGroups.map (fun g => if coreOf g.sp = core then (g.await.map (fun q => q.lanes.card)).sum else 0)).sum

/-- The requests of a memory word that do not fit beside those outstanding on its core. -/
def State.noRoom (s : State) (i : Instr) : Option Nat :=
  match s.memWord i with
  | none => none
  | some w =>
    let n := w.act.card
    if w.result && decide (1024 < s.requestsOut s.curCore + n) then some n else none

/-! ## Readiness (02 R18) -/

/-- The ports that lack the key of an owner whose traffic needs them: it holds an SP of the core, or a bank behind the port is fenced to
it. Behind which port a frame lies the spec does not say: loads for frames come from the agenda alone. DESIGN CHOICE, log entry 15. -/
def State.keyLoads (s : State) : List (Nat × Nat) :=
  let need := (s.sps.filter (fun p => p.owner != 0 && s.holds p.owner p.num)).map (fun p => (coreOf p.num, p.owner)) ++
    (s.banks.filter (fun b => b.fence != 0)).map (fun b => (b.num / 48, b.fence))
  need.filter (fun x => !(s.portHas x.2 x.1) && (s.ownerOf x.2).halt.isNone)

/-- What a waiting lane waits for has come. -/
def State.condHolds (s : State) (g : Group) : WaitCond → Bool
  | .engines id => s.engDone g.sp id
  | .meIdle => (s.meOf g.sp).ended
  | .ceSlot => s.slotFree g.owner (coreOf g.sp)
  | .chain core t => match s.chainAt g.owner core (BitVec.ofNat 32 t) with
    | some c => c.status.isSome || (c.late s.cyc && !c.missed)
    | none => true
  | .ringFree d n => match (s.teamOf g.team).ring d with
    | some r => decide (n ≤ r.free)
    | none => true
  | .racking first last => !(s.migrating g.owner first last)
  | .refill b => !((s.teamOf g.team).bins.any (fun x => x.num == b && x.refill))
  | .hostPath => (s.ownerOf g.owner).tdi == .run || (s.ownerOf g.owner).tdi == .error
  | .regs l => (s.pendingRegs g.gid).all (fun r => !(l.contains r))
  | .results m => g.awaited m == 0
  | .steeps m => !(s.steeps.any (fun j => j.gid == g.gid && j.lanes &&& m != 0))
  | .requests n => decide (s.requestsOut (coreOf g.sp) + n ≤ 1024)
  | .portKey c => s.portHas g.owner c

/-- No word of a halted owner issues, and none on an SP whose banks are swapping (18 R317; 19 R341). -/
def State.groupRuns (s : State) (g : Group) : Bool :=
  !(s.stopped g.owner) && (s.spOf g.sp).swapClk == 0 && g.trap.isNone

/-- Lanes of a group that wait at a barrier of the team. -/
def Group.atBar (g : Group) : Mask := g.barWait.foldl (fun m x => m ||| x.2) 0

/-- The eligible lanes. -/
def Group.eligible (g : Group) : Mask := g.live &&& ~~~g.held &&& ~~~g.barg &&& ~~~g.atBar &&& ~~~g.yielded &&& ~~~g.asleep

/-- The word at a key as the group fetches it: one written since its grid was launched is the old word or the new one, chosen
word by word (03 R39). -/
def State.codeWord (s : State) (k : Nat) : Nat :=
  let new := leNat (Memory.bytes s.mem k 4)
  match s.heldBefore s.curGrid.seq (k / 4) with
  | some old => if s.curGrid.gid != 0 && Config.freeBit s.freeCtr 500000 (k / 4) then old.toNat else new
  | none => new

/-- Something is still to come that a next word of the group can need: a result, a promise or a status, a steep command, room for its
requests. -/
def State.owed (s : State) (g : Group) : Bool :=
  g.await != [] || s.pendingRegs g.gid != [] || s.steeps.any (fun j => j.gid == g.gid) || decide (960 < s.requestsOut (coreOf g.sp))

/-- The next word of the group's lanes at a PC, when it can be fetched. -/
def State.nextWord (s : State) : Option Instr :=
  if s.cur.hlv && !(s.inReserve s.curOwner s.curCore s.cur.ipc) then none
  else match s.xlate s.curOwner s.curTeam s.curCore .fetch s.cur.ipc with
    | .ok k => some (decodeIssued (s.codeWord k) 0)
    | _ => none

/-- The state with lanes `m` of a group as the issue set at a PC. -/
def State.issuing (s : State) (g : Group) (m : Mask) (pc : DWord) : State := { s with cur := { g with iss := m, ipc := pc } }

/-- The word reads results of other lanes. -/
def readsAcross : Instr → Bool
  | .sreadl _ _ _ _ => true
  | .vshfl _ _ _ _ => true
  | .vshflx _ _ _ _ => true
  | .vshflu _ _ _ _ => true
  | .vshfld _ _ _ _ => true
  | _ => false

/-- Of the lanes `m`, which stand at one PC, those whose word needs what has not come: a status or a promise, results, the steep
commands before it, room for its requests. -/
def State.wordUnready (s : State) (g : Group) (m : Mask) (pc : DWord) : Mask :=
  let t := s.issuing g m pc
  match t.nextWord with
  | none => 0
  | some i =>
    let late := t.resultsFirst i
    if (s.pendingRegs g.gid).any (uniformRegs (g.width == 64) i).contains || (readsAcross i && late != 0) || (t.noRoom i).isSome then m
    else (late &&& m) ||| laneSet m (fun l => (s.issuing g (Mask.one l) pc).steepsFirst i)

/-- What `f` gives for the lanes `m` of a group, those at one PC together. -/
def Group.byPc (g : Group) (m : Mask) (f : Mask → DWord → Mask) : Mask :=
  (m.lanes.filter (fun l => m.lanes.all (fun k => g.pc.get k != g.pc.get l || decide (l ≤ k)))).foldl (fun (acc : Mask) l =>
    acc ||| f (laneSet m (fun k => g.pc.get k == g.pc.get l)) (g.pc.get l)) 0

/-- Of the lanes `m` of a group those whose next word needs what has not come (02 R18). -/
def State.nextUnready (s : State) (g : Group) (m : Mask) : Mask :=
  if s.owed g then g.byPc m (s.wordUnready g) else 0

/-- What a branch of lanes reads of a memory result to come: its guard and the vector pair of its target; none for any other word. A branch
waits for nothing else, so that one behind a load's window goes on where another word waits (06 R116 beside 02 R29; DESIGN CHOICE, log
entry 37). -/
def branchReads : Instr → Option (OutRes → Bool)
  | .vbr h _ => some (fun e => e.isPred && e.reg == h.g)
  | .vcall h _ => some (fun e => e.isPred && e.reg == h.g)
  | .vcallx h a => some (fun e => if e.isPred then e.reg == h.g else e.reg == a || e.reg == a + 1)
  | .bra _ _ => some (fun _ => false)
  | .brx _ _ => some (fun _ => false)
  | _ => none

/-- Of the lanes whose windows are used up those whose next word is a branch that reads none of the results. -/
def State.branchFree (s : State) (g : Group) : Mask :=
  laneSet g.unready (fun l =>
    match ((s.issuing g (Mask.one l) (g.pc.get l)).nextWord).bind branchReads with
    | some reads => !(g.outst.any (fun e => e.lane == l && reads e))
    | none => false)

/-- The ready lanes: eligible, and every result and event that their next word needs has come. -/
def State.ready (s : State) (g : Group) : Mask :=
  if s.groupRuns g then
    let m := g.eligible &&& ~~~g.mqWait &&& ~~~(g.unready &&& ~~~s.branchFree g) &&& (if g.moving = 0 ∨ g.hlv = true then BitVec.allOnes 64 else g.moving)
    let m := g.waits.foldl (fun (m : Mask) w => if s.condHolds g w.cond then m else m &&& ~~~w.lanes) m
    m &&& ~~~s.nextUnready g m
  else 0

/-- The group whose run is in progress on an SP. -/
def State.runOn (s : State) (sp : Nat) : Option Nat :=
  (s.allGroups.find? (fun g => g.sp == sp && g.inRun && g.alive)).map (·.gid)

/-- The order of R27: handler level, then the class, then the longest wait, then the lower slot. -/
def Group.before (a b : Group) : Bool :=
  if a.hlv != b.hlv then a.hlv
  else if a.prio ≠ b.prio then decide (b.prio < a.prio)
  else if a.waitClk ≠ b.waitClk then decide (a.waitClk < b.waitClk)
  else decide (a.slot < b.slot)

/-- The issue picker of an SP. -/
def State.pick (s : State) (sp : Nat) : Option Group :=
  (s.allGroups.filter (fun g => g.sp == sp && s.ready g != 0)).foldl (fun best g =>
    match best with
    | none => some g
    | some b => if g.before b then some g else some b) none

/-- The lowest PC of the lanes of a set. -/
def Group.minPc (g : Group) (m : Mask) : DWord :=
  m.lanes.foldl (fun acc i => if (g.pc.get i).toNat < acc.toNat then g.pc.get i else acc) (g.pc.get m.low)

/-- RUN_START: the picker starts the run of one group; a pending TIMER is taken before its first word (02 R27; 19
R347). -/
def execRunStart (sp : Nat) (s : State) : Out :=
  .next (
    if (s.runOn sp).isSome then s
    else match s.pick sp with
      | none => s
      | some g =>
        let m := s.ready g
        let pc := g.minPc m
        let iss := laneSet m (fun i => g.pc.get i == pc)
        let s1 := s.focus g.gid
        let s2 := ((s1.modOwner g.owner (fun o => { o with actRun := o.actRun + 1 })).modSp sp (fun p => { p with began := true })).modCur (fun g =>
          { g with iss, ipc := pc, runLen := 0, inRun := true, started := true, stall := none })
        -- the handler's word is no VSUSP, so poisoned data held for a row is consumed first (17 R298)
        let (s3, bad, va) := s2.releaseFrames true (fun e => iss.has e.lane)
        if !(g.tmp && !g.hlv) then s2
        else if bad ≠ 0 then s3.endRun.unwind .poison va bad
        else
          (s3.modCur (fun g => { g with
            tmp := false, inRun := false
            waits := g.waits.map (fun w => { w with lanes := w.lanes &&& ~~~iss }) })).raise .timer pc iss)

/-- The run's word has waited more than 64 clk (02 R26). -/
def Group.overdue (g : Group) (cyc : DWord) : Bool :=
  match g.stall with
  | some c => decide (c.toNat + 64 < cyc.toNat)
  | none => false

/-- FORCED_RUN_BOUNDARY: a run whose issue has waited more than 64 clk ends before the waiting word (02 R26). -/
def execForcedRunBoundary (sp : Nat) (s : State) : Out :=
  .next (s.modGroups (fun g => g.sp == sp && g.inRun && g.overdue s.cyc)
    (fun g => { g with inRun := false, stall := none, waitClk := s.cyc.toNat }))

/-! ## The clock (19 R346, R347; 13 R217; 17 R295) -/

/-- Time passes for a group: GTMR counts the clk in which its banks are active, and a group with no ready lane does not wait
for the picker. -/
def Group.tick (g : Group) (d : Nat) (waits : Bool) (cyc : DWord) : Group :=
  let g := if waits then g else { g with waitClk := cyc.toNat }
  if d = 0 then g else ({ g with gtmr := g.gtmr + BitVec.ofNat 64 d }).timerCheck

/-- The oldest group on an SP with a live lane or one in the fault bin: the one placed or launched on it first (13 R217). -/
def State.oldest (s : State) (sp : Nat) : Option Group :=
  (s.allGroups.filter (fun g => g.sp == sp && g.alive)).foldl
    (fun best g => match best with | none => some g | some b => if g.placed < b.placed then some g else some b) none

/-- The lanes of a group whose results, whatever their windows, a next word or a waiting one needs (02 R31). -/
def State.lateLanes (s : State) (g : Group) : Mask :=
  g.waits.foldl (fun (x : Mask) w => match w.cond with | .results m => if w.lanes = 0 then x else x ||| m | _ => x)
    (g.byPc (g.eligible &&& ~~~g.mqWait) (fun m pc =>
      match (s.issuing g m pc).nextWord with | some i => (s.issuing g m pc).resultsFirst i | none => 0))

/-- A lane of the group waits for data or for the host path (causes 0 to 3): the paths it waits on. Of the results to come those count that
a live lane waits for, since its window is used up or its next word needs them (02 R18, R29, R31). -/
def State.slowPaths (s : State) (g : Group) : List Nat :=
  (if g.await = [] then [] else
    let late := s.lateLanes g
    let spentLive := fun (q : Pend) => g.spent q &&& g.live &&& ~~~g.held &&& ~~~s.branchFree g
    g.await.flatMap (fun q => if spentLive q ||| (q.lanes &&& late) = 0 then [] else q.paths)) ++
    g.waits.flatMap (fun w => if w.lanes = 0 then [] else match w.cond with
      | .hostPath => [2]
      | .requests _ => [0]
      | .portKey _ => [4]
      | _ => [])

/-- A lane of the group waits on translation, or for a page that is being moved (cause 4; 17 R292; 19 R333). -/
def Group.faultWait (g : Group) : Bool :=
  g.fbin ||| g.mqWait != 0 || g.waits.any (fun w => w.lanes != 0 && (match w.cond with
    | .refill _ => true
    | .racking _ _ => true
    | _ => false))

/-- A lane of the group waits in `CPYW` past the promise (cause 5). -/
def State.promiseWait (s : State) (g : Group) : Bool :=
  g.waits.any (fun w => w.lanes != 0 && (match w.cond with
    | .chain core t => (match s.chainAt g.owner core (BitVec.ofNat 32 t) with | some c => c.late s.cyc | none => false)
    | _ => false))

/-- The causes 0 to 3 that a path can count: DRAM, REMAP and MESH, for scratch REMAP and MESH, for the host path LINK; a key that a port
has to get again counts MESH (22 R378). -/
def slowCauses : Nat → List Nat
  | 0 => [0, 1, 2]
  | 1 => [1, 2]
  | 4 => [2]
  | _ => [3]

/-- What an SP adds to the stall counters in `d` clk: owner, cause, clk. A clk that starts a run counts nothing. How many clk
of a wait for data are lost to a cause 0 to 3, and to which, is free (DESIGN CHOICE, log entry 5); the rest counts for the
higher causes (13 R217). -/
def State.stallOf (s : State) (sp d : Nat) : List (Nat × Nat × Nat) :=
  match s.oldest sp with
  | none => []
  | some g =>
    let c := d - (if (s.spOf sp).began then 1 else 0)
    if s.ready g != 0 || g.hlv || c = 0 then []
    else
      let cs := sortNat ((s.slowPaths g).flatMap slowCauses)
      let k := if cs = [] then 0 else Config.stallClk s.freeCtr (2 * sp) % (c + 1)
      let n := cs.getD (Config.stallClk s.freeCtr (2 * sp + 1) % max 1 cs.length) 0
      (if k = 0 then [] else [(g.owner, n, k)]) ++
        (if k = c then [] else if g.faultWait then [(g.owner, 4, c - k)] else if s.promiseWait g then [(g.owner, 5, c - k)] else [])

/-- Counters of an owner. -/
def Owner.tick (o : Owner) (d sps : Nat) (stalls : List (Nat × Nat × Nat)) : Owner :=
  if o.halt.isSome then { o with actSp := o.actSp + BitVec.ofNat 64 (d * sps) }
  else
    { o with
      actSp := o.actSp + BitVec.ofNat 64 (d * sps)
      stall := (List.range 6).map (fun n => o.stall.getD n 0 +
        BitVec.ofNat 64 ((stalls.map (fun x => if x.1 = o.id ∧ x.2.1 = n then x.2.2 else 0)).sum)) }

/-- A bin's flush timer counts while a row is WOKEN. -/
def Bin.tick (b : Bin) (d : Nat) : Bin := { b with timer := if b.rows.any (·.st == .woken) then b.timer + d else 0 }

/-- `d` clk pass. -/
def State.tick (s : State) (d : Nat) : State :=
  let stalls := (s.sps.map (·.num)).flatMap (fun p => s.stallOf p d)
  let cyc := s.cyc + BitVec.ofNat 64 d
  let one := fun (g : Group) =>
    g.tick (if (s.ownerOf g.owner).halt.isSome then 0 else d - (s.spOf g.sp).swapClk) (s.ready g != 0) cyc
  { s with
    cyc
    cur := one s.cur
    groups := s.groups.map one
    owners := s.owners.map (fun o => o.tick d (s.spsHeld o.id) stalls)
    teams := s.teams.map (fun (t : Team) => if (s.ownerOf t.owner).halt.isSome then t else { t with bins := t.bins.map (fun b => b.tick d) })
    sps := s.sps.map (fun (p : Sp) => { p with swapClk := p.swapClk - d, began := p.began && d == 0 }) }

/-- A step of an agent is over: its free values are used, faults of the hardware that struck it are gone, and some
clk may pass. -/
def State.stepDone (s : State) : State :=
  ({ s with freeCtr := s.freeCtr + 1, upsets := [] }).tick (Config.extraClk s.freeCtr)

/-! ## An issue -/

/-- The clk an issue takes (02 R14; 17 R303). -/
def issueClk (g : Group) (i : Instr) : Nat :=
  match i with
  | .frameld _ => 5
  | _ => if g.width = 64 ∧ g.iss &&& Mask.upto 32 ≠ 0 ∧ g.iss >>> 32 ≠ 0 then 2 else 1

/-- The clock comes to the clk in which the SP issues. -/
def State.catchUp (s : State) : State :=
  if s.cyc.toNat < (s.spOf s.cur.sp).nextClk.toNat then s.tick ((s.spOf s.cur.sp).nextClk - s.cyc).toNat else s

/-- Lanes of the run's issue set stand at its word and are not ready: the SP issues nothing until they are, or the run is cut
(02 R19, R26). -/
def State.holdsBack (s : State) : Bool :=
  laneSet (s.cur.iss &&& s.cur.eligible &&& ~~~s.ready s.cur) (fun i => s.cur.pc.get i == s.cur.ipc) != 0

/-- The lane set of the run's word: the lanes there that are ready (02 R19). Their waits are over; a yield counts
the issue (R22). -/
def State.arrive (s : State) : State :=
  let iss := laneSet (s.ready s.cur) (fun i => s.cur.pc.get i == s.cur.ipc)
  s.modCur (fun (g : Group) => Group.yieldCheck { g with
    iss := iss, stall := none
    waits := (g.waits.map (fun w => { w with lanes := w.lanes &&& ~~~iss })).filter (fun w => w.lanes != 0)
    yrem := g.yrem.setMany 0 (fun _ => true) (fun i => g.yrem.get i &&& ~~~iss) 64 })

/-- What the fetch of the run's word gives, or what comes before its meaning: the instruction to run in a state, or
the state in which the issue ends. -/
inductive Fetched where
  | run (s : State) (i : Instr)
  | stop (s : State)

/-- A word at `va` has been fetched (22 R417). -/
def State.fetchUse (s : State) (va : DWord) : State :=
  match s.xlate s.curOwner s.curTeam s.curCore .fetch va with
  | .ok k => s.traffic s.cur.owner k 4 s.curCore (va.toNat / 65536)
  | _ => s

/-- The bytes of a word at `va` for the lanes that issue (03 R39; 18 R315; 14 R248). A fetch from the host completes in its step: DESIGN
CHOICE, log entry 11. -/
def State.fetchWordAt (s : State) (va : DWord) : State ⊕ Nat :=
  let m := s.cur.iss
  if s.cur.hlv && !(s.inReserve s.curOwner s.curCore va) then
    .inl (s.recursiveFault (s.reserveDetail s.curOwner s.curCore va) va)
  else match s.xlate s.curOwner s.curTeam s.curCore .fetch va with
    | .ok k => if s.badRead k 4 then .inl ((s.fetchUse va).unwind .poison va m) else .inr (s.codeWord k)
    | .frozen => .inl (s.waitFor m (.racking (va.toNat / 65536) (va.toNat / 65536)))
    | .zero => .inr 0
    | .walk => .inl (s.parkWalk m (fun _ => va.toNat / 65536) false true)
    | .page => .inl (s.parkPage m (fun _ => va) false true)
    | .fence =>
        .inl ((s.logFences (Mask.one m.low) (fun _ => va)).raise .fenceViolation va m)
    | .hostWait => .inl (s.waitFor m .hostPath)
    | .hostDead => .inl (s.unwind .poison va m)

/-- Fetch and decode the word at the run's address, once the port of the core has its owner's key; a literal is fetched with its word (03 R44), before the register check of its
`VMOVL` or `SMOVL`: DESIGN CHOICE, log entry 37. -/
def State.fetchIssue (s : State) : Fetched :=
  if !(s.portHas s.cur.owner s.curCore) then .stop (s.waitFor s.cur.iss (.portKey s.curCore))
  else if s.cur.ipc.toNat % 4 ≠ 0 then .stop (s.named s.cur.ipc (s.raiseWord .align))
  else match s.fetchWordAt s.cur.ipc with
    | .inl t => .stop t
    | .inr w =>
      let s1 := s.fetchUse s.cur.ipc
      if wordCount (decodeIssued w 0) = 1 then .run s1 (decodeIssued w 0)
      else match s1.fetchWordAt (s.cur.ipc + 4) with
        | .inl t => .stop t
        | .inr lit => .run (s1.fetchUse (s.cur.ipc + 4)) (decodeIssued w lit)

/-- Data that `VLDF` holds for a row goes to the lane's register unless the lane's next word is the `VSUSP` that takes it (17 R298),
be the lane in the issue set or not; poisoned data is then consumed, as a `VLD.W32` consumes it: the lane, unless it was moved
elsewhere, stays at the `VLDF` (14 R247). At the `END` of its group no lane has a next word (06 R123). -/
def State.settleFrames (s : State) (i : Instr) : State × Mask × DWord :=
  let ends := match i with | .end_ h => s.uguard h | _ => false
  let keep := fun (e : OutRes) => match i with | .vsusp _ _ _ .frameLoad => e.pc + 4 == s.cur.ipc | _ => false
  s.releaseFrames true (fun e => ends || (if s.cur.iss.has e.lane then !(keep e) else !(s.frameHeld e)))

/-- What stops an issued word before its meaning: an SDC (19 R339), poisoned data that no row takes, a register that
a status still has to reach, and what the word comes after. -/
def State.beforeWord (s : State) (i : Instr) : Fetched :=
  let touch := uniformRegs (s.cur.width == 64) i
  if s.upsets.contains .sdc then .stop ((s.unwind .sdc s.cur.ipc s.cur.iss).quarantine s.cur.sp)
  else
    let (t, bad, va) := s.settleFrames i
    let late := t.resultsFirst i ||| (if t.cur.outst = s.cur.outst then 0 else t.cur.unready &&& t.cur.iss &&& ~~~t.branchFree t.cur)
    if bad ≠ 0 then .stop (t.unwind .poison va bad)
    else if (s.pendingRegs s.cur.gid).any touch.contains then .stop (t.waitFor t.cur.iss (.regs touch))
    else if late ≠ 0 then .stop (t.waitFor t.cur.iss (.results late))
    else if t.steepsFirst i then .stop (t.waitFor t.cur.iss (.steeps t.cur.iss))
    else match t.noRoom i with
      | some n => .stop (t.waitFor t.cur.iss (.requests n))
      | none => .run t i

/-- The run goes on behind the word, or ends after it (02 R24). -/
def Group.runOn (g : Group) (i : Instr) : Group :=
  let n := wordCount i
  let e := match wordHdr i with | some h => h.e | none => true
  { g with ipc := g.ipc + BitVec.ofNat 64 (4 * n), runLen := g.runLen + n
           inRun := g.inRun && !(e || isControl i || decide (24 ≤ g.runLen + n)) }

/-- Every lane of the issue set waits, so the run stays before the word (02 R26). -/
def Group.stalls (g : Group) : Bool :=
  g.iss &&& ~~~(g.waits.foldl (fun (m : Mask) w => m ||| w.lanes) g.mqWait) == 0

/-- After the meaning of a word of group `gid` that took `clk`: the run goes on, stays before a word that waits, or ends, and
time passes. When every lane of the issue set has parked, the run ends: the spec says only that it continues for the rest, if
any (02 R26). DESIGN CHOICE, log entry 37. -/
def State.afterWord (t : State) (gid sp clk : Nat) (i : Instr) : State :=
  let t1 := if t.cur.gid = gid ∧ t.cur.inRun = true then
      (if t.cur.iss = 0 then t.endRun
       else if t.cur.stalls then t.modCur (fun g => { g with stall := some (g.stall.getD t.cyc) })
       else t.modCur (fun g => g.runOn i))
    else t
  let t2 := t1.modCur (fun g => if g.inRun then g else { g with waitClk := t.cyc.toNat })
  ((t2.touchPort t.cur.owner (coreOf sp)).modSp sp (fun p => { p with nextClk := t.cyc + BitVec.ofNat 64 clk })).stepDone

/-- A clk in which the run waits before its word. -/
def State.stallWord (s : State) : State :=
  ((s.modCur (fun g => { g with stall := some (g.stall.getD s.cyc) })).modSp s.cur.sp (fun p => { p with nextClk := s.cyc + 1 })).stepDone

end Sys2Proof.Machine
end

