-- ==== Sys2Proof/Machine/Uniform.lean ====
section
/-! DEFINITION. The uniform scalar, affine, compare and uniform-predicate instructions (05 R75, R89-R104,
R110-R113). -/

set_option linter.unusedVariables false

namespace Sys2Proof.Machine

def State.sss (s : State) (d a b : Nat) : Bool := s.cur.sOk d 1 && s.cur.sOk a 1 && s.cur.sOk b 1
def State.ss (s : State) (d a : Nat) : Bool := s.cur.sOk d 1 && s.cur.sOk a 1
/-- d, a and b are pairs (05 R89). -/
def State.ppp (s : State) (d a b : Nat) : Bool := s.cur.sPairOk d && s.cur.sPairOk a && s.cur.sPairOk b

def State.uni2 (s : State) (h : Hdr) (d a b : Nat) (f : Word → Word → Word) : State :=
  s.uniAlu h (s.sss d a b) (fun g => g.setS d (f (g.sreg a) (g.sreg b)))
def State.uni1 (s : State) (h : Hdr) (d a : Nat) (f : Word → Word) : State :=
  s.uniAlu h (s.ss d a) (fun g => g.setS d (f (g.sreg a)))
def State.uniPair (s : State) (h : Hdr) (d a b : Nat) (f : DWord → DWord → DWord) : State :=
  s.uniAlu h (s.ppp d a b) (fun g => g.setSPair d (f (g.spair a) (g.spair b)))

def execSadd (h : Hdr) (d a b : Nat) (k : SAddK) (s : State) : Out :=
  .next (match k with
    | .i32 => s.uni2 h d a b (addK .i32)
    | .u64 => s.uniPair h d a b (· + ·)
    | .su32 => s.uni2 h d a b (addK .su32))
def execSsub (h : Hdr) (d a b : Nat) (k : SAddK) (s : State) : Out :=
  .next (match k with
    | .i32 => s.uni2 h d a b (subK .i32)
    | .u64 => s.uniPair h d a b (· - ·)
    | .su32 => s.uni2 h d a b (subK .su32))
def execSmul (h : Hdr) (d a b : Nat) (k : SMulK) (s : State) : Out :=
  .next (match k with
    | .lo => s.uni2 h d a b (mulK .lo)
    | .hiI32 => s.uni2 h d a b (mulK .hiI32)
    | .hiU32 => s.uni2 h d a b (mulK .hiU32)
    | .u64lo => s.uniPair h d a b (· * ·))
def execSand (h : Hdr) (d a b : Nat) (s : State) : Out := .next (s.uni2 h d a b (· &&& ·))
def execSor (h : Hdr) (d a b : Nat) (s : State) : Out := .next (s.uni2 h d a b (· ||| ·))
def execSxor (h : Hdr) (d a b : Nat) (s : State) : Out := .next (s.uni2 h d a b (· ^^^ ·))
def execSshl (h : Hdr) (d a b : Nat) (s : State) : Out := .next (s.uni2 h d a b (fun x y => shl32 x y.toNat))
def execSshr (h : Hdr) (d a b : Nat) (k : ShrK) (s : State) : Out :=
  .next (s.uni2 h d a b (fun x y => shr32 k x y.toNat))
def execSmin (h : Hdr) (d a b : Nat) (k : SgnK) (s : State) : Out := .next (s.uni2 h d a b (minK k))
def execSmax (h : Hdr) (d a b : Nat) (k : SgnK) (s : State) : Out := .next (s.uni2 h d a b (maxK k))
def execSaddi (h : Hdr) (d a : Nat) (imm : BitVec 8) (s : State) : Out := .next (s.uni1 h d a (· + imm8 imm))
def execSmovi (h : Hdr) (d : Nat) (imm : BitVec 14) (s : State) : Out :=
  .next (s.uniAlu h (s.cur.sOk d 1) (fun g => g.setS d (imm14 imm)))

/-- The literal is skipped whether or not the guard holds (05 R94). -/
def execSmovl (h : Hdr) (d : Nat) (lit : Word) (s : State) : Out :=
  .next (s.uniAlu h (s.cur.sOk d 1) (fun g => g.setS d lit) 8)
def execSmov (h : Hdr) (d a : Nat) (s : State) : Out := .next (s.uni1 h d a id)
def execSnot (h : Hdr) (d a : Nat) (s : State) : Out := .next (s.uni1 h d a (fun x => ~~~x))
def execSpopc (h : Hdr) (d a : Nat) (s : State) : Out := .next (s.uni1 h d a (fun x => BitVec.ofNat 32 (popc x 32)))
def execSclz (h : Hdr) (d a : Nat) (s : State) : Out := .next (s.uni1 h d a (fun x => BitVec.ofNat 32 (clz x 32)))

/-- `SREADL` waits for every outstanding result to v(a) of the lane it reads, whatever the lane's state
(05 R96); data held for a frame row goes to no register (17 R298). -/
def execSreadl (h : Hdr) (d a b : Nat) (s : State) : Out :=
  .next (s.uniOp h (s.cur.sOk d 1 && s.cur.vOk a 1 && s.cur.sOk b 1) (fun t =>
    let j := (t.cur.sreg b).toNat % t.cur.width
    t.modCur (fun g =>
      let g := g.deliverIf t.freeCtr (fun e => e.lane == j && e.reg == a && !e.isPred && !(t.frameHeld e))
      g.setS d (g.vraw a j))))
def execSlui (h : Hdr) (d : Nat) (imm : BitVec 14) (s : State) : Out :=
  .next (s.uniAlu h (s.cur.sOk d 1) (fun g => g.setS d (imm.setWidth 32 <<< 18)))

/-! ## Affine registers -/

def execXset (h : Hdr) (d a b : Nat) (s : State) : Out :=
  .next (s.uniAlu h (s.cur.sPairOk a && s.cur.sOk b 1) (fun g => g.setX d (g.spair a) (g.sreg b)))
def execXaddb (h : Hdr) (d b : Nat) (s : State) : Out :=
  .next (s.uniAlu h (s.cur.sOk b 1) (fun g => g.setX d (g.xb.get d + (g.sreg b).signExtend 64) (g.xs.get d)))
def execXaddbi (h : Hdr) (d : Nat) (imm : BitVec 8) (s : State) : Out :=
  .next (s.uniAlu h true (fun g => g.setX d (g.xb.get d + 16 * imm.signExtend 64) (g.xs.get d)))
def execXstr (h : Hdr) (d b : Nat) (s : State) : Out :=
  .next (s.uniAlu h (s.cur.sOk b 1) (fun g => g.setX d (g.xb.get d) (g.sreg b)))
def execXget (h : Hdr) (d a : Nat) (k : XgetK) (s : State) : Out :=
  .next (match k with
    | .base => s.uniAlu h (s.cur.sPairOk d) (fun g => g.setSPair d (g.xb.get a))
    | .stride => s.uniAlu h (s.cur.sOk d 1) (fun g => g.setS d (g.xs.get a)))
def execXadd (h : Hdr) (d a b : Nat) (s : State) : Out :=
  .next (s.uniAlu h true (fun g => g.setX d (g.xb.get a + g.xb.get b) (g.xs.get a + g.xs.get b)))
def execXmuls (h : Hdr) (d : Nat) (imm : BitVec 8) (s : State) : Out :=
  .next (s.uniAlu h true (fun g => g.setX d (g.xb.get d) (g.xs.get d * imm8 imm)))

/-! ## Compares and uniform predicates -/

/-- A uniform compare of one of the three kinds (05 R110). -/
def State.scmp (s : State) (h : Hdr) (d a b : Nat) (k : SCmpK) (f : Int → Int → Bool) : State :=
  match k with
  | .i32 => s.uniAlu h (s.cur.sOk a 1 && s.cur.sOk b 1) (fun g => g.setQ d (f (g.sreg a).toInt (g.sreg b).toInt))
  | .u32 => s.uniAlu h (s.cur.sOk a 1 && s.cur.sOk b 1) (fun g => g.setQ d (f (g.sreg a).toNat (g.sreg b).toNat))
  | .u64 => s.uniAlu h (s.cur.sPairOk a && s.cur.sPairOk b) (fun g => g.setQ d (f (g.spair a).toNat (g.spair b).toNat))

def execScmpeq (h : Hdr) (d a b : Nat) (k : SCmpK) (s : State) : Out := .next (s.scmp h d a b k (fun x y => decide (x = y)))
def execScmpne (h : Hdr) (d a b : Nat) (k : SCmpK) (s : State) : Out := .next (s.scmp h d a b k (fun x y => decide (x ≠ y)))
def execScmplt (h : Hdr) (d a b : Nat) (k : SCmpK) (s : State) : Out := .next (s.scmp h d a b k (fun x y => decide (x < y)))
def execScmple (h : Hdr) (d a b : Nat) (k : SCmpK) (s : State) : Out := .next (s.scmp h d a b k (fun x y => decide (x ≤ y)))

/-- Uniform predicate logic (05 R111). -/
def qlogK : LogK → Bool → Bool → Bool
  | .and, a, b => a && b
  | .or, a, b => a || b
  | .xor, a, b => a != b
  | .andn, a, b => a && !b

def execQlog (h : Hdr) (d a b : Nat) (k : LogK) (s : State) : Out :=
  .next (s.uniAlu h true (fun g => g.setQ d (qlogK k (g.qbit a) (g.qbit b))))

/-- `QANY` over the lanes of the issue set (05 R112). -/
def anyK (k : AnyK) (iss x : Mask) : Bool :=
  match k with
  | .any => iss &&& x != 0
  | .all => iss &&& ~~~x == 0
  | .none => iss &&& x == 0

def execQany (h : Hdr) (d a : Nat) (k : AnyK) (s : State) : Out :=
  .next (s.uniAlu h true (fun g => g.setQ d (anyK k s.cur.iss (s.preg 1 a))))

def execQmov (h : Hdr) (d a : Nat) (k : MovK) (s : State) : Out :=
  .next (s.uniAlu h true (fun g => g.setQ d (match k with
    | .cpy => g.qbit a | .not => !(g.qbit a) | .set => true | .clr => false)))

end Sys2Proof.Machine
end

