-- ==== Sys2Proof/Machine/Dispatch.lean ====
section
/-! DEFINITION. The dispatch: one arm for each constructor of `Instr`, each a call of its meaning. -/

namespace Sys2Proof.Machine

def exec (i : Instr) (s : State) : Host.Outcome State Fault Refusal :=
  match i with
  | .vadd h d a b k => Sys2Proof.Machine.execVadd h d a b k s
  | .vsub h d a b k => Sys2Proof.Machine.execVsub h d a b k s
  | .vmul h d a b k => Sys2Proof.Machine.execVmul h d a b k s
  | .vmad h d a b => Sys2Proof.Machine.execVmad h d a b s
  | .vand h d a b => Sys2Proof.Machine.execVand h d a b s
  | .vor h d a b => Sys2Proof.Machine.execVor h d a b s
  | .vxor h d a b => Sys2Proof.Machine.execVxor h d a b s
  | .vandn h d a b => Sys2Proof.Machine.execVandn h d a b s
  | .vshl h d a b => Sys2Proof.Machine.execVshl h d a b s
  | .vshr h d a b k => Sys2Proof.Machine.execVshr h d a b k s
  | .vmin h d a b k => Sys2Proof.Machine.execVmin h d a b k s
  | .vmax h d a b k => Sys2Proof.Machine.execVmax h d a b k s
  | .vaddi h d a imm => Sys2Proof.Machine.execVaddi h d a imm s
  | .vshi h d a k n => Sys2Proof.Machine.execVshi h d a k n s
  | .vmovi h d imm => Sys2Proof.Machine.execVmovi h d imm s
  | .vmov h d a => Sys2Proof.Machine.execVmov h d a s
  | .vnot h d a => Sys2Proof.Machine.execVnot h d a s
  | .vneg h d a => Sys2Proof.Machine.execVneg h d a s
  | .vabs h d a => Sys2Proof.Machine.execVabs h d a s
  | .vpopc h d a => Sys2Proof.Machine.execVpopc h d a s
  | .vclz h d a => Sys2Proof.Machine.execVclz h d a s
  | .vbrev h d a => Sys2Proof.Machine.execVbrev h d a s
  | .vsext8 h d a => Sys2Proof.Machine.execVsext8 h d a s
  | .vsext16 h d a => Sys2Proof.Machine.execVsext16 h d a s
  | .vfadd h d a b k => Sys2Proof.Machine.execVfadd h d a b k s
  | .vfsub h d a b k => Sys2Proof.Machine.execVfsub h d a b k s
  | .vfmul h d a b k => Sys2Proof.Machine.execVfmul h d a b k s
  | .vfma h d a b k => Sys2Proof.Machine.execVfma h d a b k s
  | .vfmin h d a b k => Sys2Proof.Machine.execVfmin h d a b k s
  | .vfmax h d a b k => Sys2Proof.Machine.execVfmax h d a b k s
  | .vfabs h d a k => Sys2Proof.Machine.execVfabs h d a k s
  | .vfneg h d a k => Sys2Proof.Machine.execVfneg h d a k s
  | .vfrint h d a k => Sys2Proof.Machine.execVfrint h d a k s
  | .vfcls h d a k => Sys2Proof.Machine.execVfcls h d a k s
  | .vfscl h d a b => Sys2Proof.Machine.execVfscl h d a b s
  | .vmovl h d lit => Sys2Proof.Machine.execVmovl h d lit s
  | .vcvt h d a dst src r => Sys2Proof.Machine.execVcvt h d a dst src r s
  | .vcvt6 h d a k r => Sys2Proof.Machine.execVcvt6 h d a k r s
  | .vqnt h d a n f => Sys2Proof.Machine.execVqnt h d a n f s
  | .vdqnt h d a n f => Sys2Proof.Machine.execVdqnt h d a n f s
  | .vpkh h d a b k => Sys2Proof.Machine.execVpkh h d a b k s
  | .vupkh h d a k => Sys2Proof.Machine.execVupkh h d a k s
  | .vcmpeq h d a b k => Sys2Proof.Machine.execVcmpeq h d a b k s
  | .vcmpne h d a b k => Sys2Proof.Machine.execVcmpne h d a b k s
  | .vcmplt h d a b k => Sys2Proof.Machine.execVcmplt h d a b k s
  | .vcmple h d a b k => Sys2Proof.Machine.execVcmple h d a b k s
  | .vsel h d a b => Sys2Proof.Machine.execVsel h d a b s
  | .plog h d a b k => Sys2Proof.Machine.execPlog h d a b k s
  | .pmov h d a k => Sys2Proof.Machine.execPmov h d a k s
  | .vshfl h d a b => Sys2Proof.Machine.execVshfl h d a b s
  | .vshflx h d a n => Sys2Proof.Machine.execVshflx h d a n s
  | .vshflu h d a n => Sys2Proof.Machine.execVshflu h d a n s
  | .vshfld h d a n => Sys2Proof.Machine.execVshfld h d a n s
  | .vballot h d a => Sys2Proof.Machine.execVballot h d a s
  | .vred h d a k => Sys2Proof.Machine.execVred h d a k s
  | .vaff h d a => Sys2Proof.Machine.execVaff h d a s
  | .vbcast h d a => Sys2Proof.Machine.execVbcast h d a s
  | .vld h d a l k t => Sys2Proof.Machine.execVld h d a l k t s
  | .vldnf h d a l k t => Sys2Proof.Machine.execVldnf h d a l k t s
  | .vst h d a l k t => Sys2Proof.Machine.execVst h d a l k t s
  | .vldn h d a l k t => Sys2Proof.Machine.execVldn h d a l k t s
  | .vstn h d a l k t => Sys2Proof.Machine.execVstn h d a l k t s
  | .vatadd h d a l k t => Sys2Proof.Machine.execVatadd h d a l k t s
  | .vatmm h d a l k t => Sys2Proof.Machine.execVatmm h d a l k t s
  | .vatbit h d a l k t => Sys2Proof.Machine.execVatbit h d a l k t s
  | .vcas h d a l k t => Sys2Proof.Machine.execVcas h d a l k t s
  | .vldxW h d x o l => Sys2Proof.Machine.execVldxW h d x o l s
  | .vldxD h d x o l => Sys2Proof.Machine.execVldxD h d x o l s
  | .vstxW h d x o l => Sys2Proof.Machine.execVstxW h d x o l s
  | .vstxD h d x o l => Sys2Proof.Machine.execVstxD h d x o l s
  | .vldf h d a l t => Sys2Proof.Machine.execVldf h d a l t s
  | .vtrd h t c ix n v => Sys2Proof.Machine.execVtrd h t c ix n v s
  | .vtwr h t c ix n v => Sys2Proof.Machine.execVtwr h t c ix n v s
  | .vtaddF32 h t c ix n v => Sys2Proof.Machine.execVtaddF32 h t c ix n v s
  | .vtmaxF32 h t c ix n v => Sys2Proof.Machine.execVtmaxF32 h t c ix n v s
  | .vyield h => Sys2Proof.Machine.execVyield h s
  | .vbr h off => Sys2Proof.Machine.execVbr h off s
  | .vjtab h a b => Sys2Proof.Machine.execVjtab h a b s
  | .vcall h off => Sys2Proof.Machine.execVcall h off s
  | .vcallx h a => Sys2Proof.Machine.execVcallx h a s
  | .vret h => Sys2Proof.Machine.execVret h s
  | .vsusp h d a k => Sys2Proof.Machine.execVsusp h d a k s
  | .vspawn h d a b => Sys2Proof.Machine.execVspawn h d a b s
  | .vexit h => Sys2Proof.Machine.execVexit h s
  | .vrcp h d a => Sys2Proof.Machine.execVrcp h d a s
  | .vrsq h d a => Sys2Proof.Machine.execVrsq h d a s
  | .vsqrt h d a => Sys2Proof.Machine.execVsqrt h d a s
  | .vexp2 h d a => Sys2Proof.Machine.execVexp2 h d a s
  | .vlog2 h d a => Sys2Proof.Machine.execVlog2 h d a s
  | .vtanh h d a => Sys2Proof.Machine.execVtanh h d a s
  | .vdiv h d a b => Sys2Proof.Machine.execVdiv h d a b s
  | .sadd h d a b k => Sys2Proof.Machine.execSadd h d a b k s
  | .ssub h d a b k => Sys2Proof.Machine.execSsub h d a b k s
  | .smul h d a b k => Sys2Proof.Machine.execSmul h d a b k s
  | .sand h d a b => Sys2Proof.Machine.execSand h d a b s
  | .sor h d a b => Sys2Proof.Machine.execSor h d a b s
  | .sxor h d a b => Sys2Proof.Machine.execSxor h d a b s
  | .sshl h d a b => Sys2Proof.Machine.execSshl h d a b s
  | .sshr h d a b k => Sys2Proof.Machine.execSshr h d a b k s
  | .smin h d a b k => Sys2Proof.Machine.execSmin h d a b k s
  | .smax h d a b k => Sys2Proof.Machine.execSmax h d a b k s
  | .saddi h d a imm => Sys2Proof.Machine.execSaddi h d a imm s
  | .smovi h d imm => Sys2Proof.Machine.execSmovi h d imm s
  | .smovl h d lit => Sys2Proof.Machine.execSmovl h d lit s
  | .smov h d a => Sys2Proof.Machine.execSmov h d a s
  | .snot h d a => Sys2Proof.Machine.execSnot h d a s
  | .spopc h d a => Sys2Proof.Machine.execSpopc h d a s
  | .sclz h d a => Sys2Proof.Machine.execSclz h d a s
  | .sreadl h d a b => Sys2Proof.Machine.execSreadl h d a b s
  | .slui h d imm => Sys2Proof.Machine.execSlui h d imm s
  | .xset h d a b => Sys2Proof.Machine.execXset h d a b s
  | .xaddb h d b => Sys2Proof.Machine.execXaddb h d b s
  | .xaddbi h d imm => Sys2Proof.Machine.execXaddbi h d imm s
  | .xstr h d b => Sys2Proof.Machine.execXstr h d b s
  | .xget h d a k => Sys2Proof.Machine.execXget h d a k s
  | .xadd h d a b => Sys2Proof.Machine.execXadd h d a b s
  | .xmuls h d imm => Sys2Proof.Machine.execXmuls h d imm s
  | .scmpeq h d a b k => Sys2Proof.Machine.execScmpeq h d a b k s
  | .scmpne h d a b k => Sys2Proof.Machine.execScmpne h d a b k s
  | .scmplt h d a b k => Sys2Proof.Machine.execScmplt h d a b k s
  | .scmple h d a b k => Sys2Proof.Machine.execScmple h d a b k s
  | .qlog h d a b k => Sys2Proof.Machine.execQlog h d a b k s
  | .qany h d a k => Sys2Proof.Machine.execQany h d a k s
  | .qmov h d a k => Sys2Proof.Machine.execQmov h d a k s
  | .bra h off => Sys2Proof.Machine.execBra h off s
  | .brx h a => Sys2Proof.Machine.execBrx h a s
  | .barg h => Sys2Proof.Machine.execBarg h s
  | .bar h nowait id => Sys2Proof.Machine.execBar h nowait id s
  | .fence h p k sc => Sys2Proof.Machine.execFence h p k sc s
  | .nop h => Sys2Proof.Machine.execNop h s
  | .end_ h => Sys2Proof.Machine.execEnd h s
  | .waitt h a => Sys2Proof.Machine.execWaitt h a s
  | .launch h d a => Sys2Proof.Machine.execLaunch h d a s
  | .fork h a b k => Sys2Proof.Machine.execFork h a b k s
  | .rdv h id => Sys2Proof.Machine.execRdv h id s
  | .cpy h d a => Sys2Proof.Machine.execCpy h d a s
  | .cpyw h d a => Sys2Proof.Machine.execCpyw h d a s
  | .rbind h d a => Sys2Proof.Machine.execRbind h d a s
  | .rpub h d n => Sys2Proof.Machine.execRpub h d n s
  | .rwaitf h d n => Sys2Proof.Machine.execRwaitf h d n s
  | .steep h d a b => Sys2Proof.Machine.execSteep h d a b s
  | .meas h d a b => Sys2Proof.Machine.execMeas h d a b s
  | .trap h code => Sys2Proof.Machine.execTrap h code s
  | .cbegin h off => Sys2Proof.Machine.execCbegin h off s
  | .cend h => Sys2Proof.Machine.execCend h s
  | .tlbw h d a => Sys2Proof.Machine.execTlbw h d a s
  | .tlbi h a k => Sys2Proof.Machine.execTlbi h a k s
  | .pgreq h d a => Sys2Proof.Machine.execPgreq h d a s
  | .framea h d => Sys2Proof.Machine.execFramea h d s
  | .framef h d a => Sys2Proof.Machine.execFramef h d a s
  | .migr h d a b => Sys2Proof.Machine.execMigr h d a b s
  | .csrr h d csr => Sys2Proof.Machine.execCsrr h d csr s
  | .csrw h d csr => Sys2Proof.Machine.execCsrw h d csr s
  | .hret h a k => Sys2Proof.Machine.execHret h a k s
  | .halto h a => Sys2Proof.Machine.execHalto h a s
  | .discard h d a b => Sys2Proof.Machine.execDiscard h d a b s
  | .bincfg h d a b => Sys2Proof.Machine.execBincfg h d a b s
  | .binwake h d a => Sys2Proof.Machine.execBinwake h d a s
  | .binflush h d => Sys2Proof.Machine.execBinflush h d s
  | .binq h d a k => Sys2Proof.Machine.execBinq h d a k s
  | .frameld h => Sys2Proof.Machine.execFrameld h s
  | .tbind h d a => Sys2Proof.Machine.execTbind h d a s
  | .tzero h d => Sys2Proof.Machine.execTzero h d s
  | .tcolop h d a b k => Sys2Proof.Machine.execTcolop h d a b k s
  | .tload h d a => Sys2Proof.Machine.execTload h d a s
  | .tstore h d a => Sys2Proof.Machine.execTstore h d a s
  | .tacc h d a => Sys2Proof.Machine.execTacc h d a s
  | .reservedOpcode w => Sys2Proof.Machine.execReservedOpcode w s
  | .mxcfg sp aSlot bSlot paired k => Sys2Proof.Machine.execMxcfg sp aSlot bSlot paired k s
  | .mxzero sp acc => Sys2Proof.Machine.execMxzero sp acc s
  | .mxwait sp ring n => Sys2Proof.Machine.execMxwait sp ring n s
  | .mxrel sp ring n => Sys2Proof.Machine.execMxrel sp ring n s
  | .mxmma sp acc ra rb k => Sys2Proof.Machine.execMxmma sp acc ra rb k s
  | .mxdrain sp acc slot ring target => Sys2Proof.Machine.execMxdrain sp acc slot ring target s
  | .mxloop sp count back => Sys2Proof.Machine.execMxloop sp count back s
  | .mxsig sp id => Sys2Proof.Machine.execMxsig sp id s
  | .mxfence sp => Sys2Proof.Machine.execMxfence sp s
  | .mxend sp => Sys2Proof.Machine.execMxend sp s
  | .mxIllegalCommand sp w => Sys2Proof.Machine.execMxIllegalCommand sp w s
  | .copy chain c => Sys2Proof.Machine.execCopy chain c s
  | .copyAead chain c => Sys2Proof.Machine.execCopyAead chain c s
  | .fill chain c => Sys2Proof.Machine.execFill chain c s
  | .post chain c => Sys2Proof.Machine.execPost chain c s
  | .bcast chain c => Sys2Proof.Machine.execBcast chain c s
  | .sig chain c => Sys2Proof.Machine.execSig chain c s
  | .promise chain => Sys2Proof.Machine.execPromise chain s
  | .stpFill job => Sys2Proof.Machine.execStpFill job s
  | .stpAddF32 job => Sys2Proof.Machine.execStpAddF32 job s
  | .stpScale job => Sys2Proof.Machine.execStpScale job s
  | .stpMaxfold job => Sys2Proof.Machine.execStpMaxfold job s
  | .stpSumx job => Sys2Proof.Machine.execStpSumx job s
  | .stpCvt job => Sys2Proof.Machine.execStpCvt job s
  | .stpXsum job => Sys2Proof.Machine.execStpXsum job s
  | .runStart sp => Sys2Proof.Machine.execRunStart sp s
  | .memoryResult gid lane reg => Sys2Proof.Machine.execMemoryResult gid lane reg s
  | .vldfDelivery team bin row inCask => Sys2Proof.Machine.execVldfDelivery team bin row inCask s
  | .waittDeadline gid => Sys2Proof.Machine.execWaittDeadline gid s
  | .gtcmpMatch gid => Sys2Proof.Machine.execGtcmpMatch gid s
  | .promiseMissed gid => Sys2Proof.Machine.execPromiseMissed gid s
  | .flushTimer team bin => Sys2Proof.Machine.execFlushTimer team bin s
  | .binLaunch team bin => Sys2Proof.Machine.execBinLaunch team bin s
  | .caskRefill team bin => Sys2Proof.Machine.execCaskRefill team bin s
  | .missQueued owner => Sys2Proof.Machine.execMissQueued owner s
  | .walkHandlerLaunch owner => Sys2Proof.Machine.execWalkHandlerLaunch owner s
  | .pageHandlerLaunch sp => Sys2Proof.Machine.execPageHandlerLaunch sp s
  | .requestHandlerLaunch owner => Sys2Proof.Machine.execRequestHandlerLaunch owner s
  | .haltRecord owner => Sys2Proof.Machine.execHaltRecord owner s
  | .trapRecord owner => Sys2Proof.Machine.execTrapRecord owner s
  | .syscallSlotPoll owner => Sys2Proof.Machine.execSyscallSlotPoll owner s
  | .teamPlacement grid => Sys2Proof.Machine.execTeamPlacement grid s
  | .gangStart grid => Sys2Proof.Machine.execGangStart grid s
  | .gangAgeing owner => Sys2Proof.Machine.execGangAgeing owner s
  | .launchAccept owner => Sys2Proof.Machine.execLaunchAccept owner s
  | .teamRetire team => Sys2Proof.Machine.execTeamRetire team s
  | .gridCompletion grid => Sys2Proof.Machine.execGridCompletion grid s
  | .receiptWrite grid => Sys2Proof.Machine.execReceiptWrite grid s
  | .preemption sp incoming => Sys2Proof.Machine.execPreemption sp incoming s
  | .bankSwap sp => Sys2Proof.Machine.execBankSwap sp s
  | .contextSpill sp => Sys2Proof.Machine.execContextSpill sp s
  | .contextFill sp ctx => Sys2Proof.Machine.execContextFill sp ctx s
  | .teamEviction team => Sys2Proof.Machine.execTeamEviction team s
  | .teamRestore team => Sys2Proof.Machine.execTeamRestore team s
  | .rackingEnd owner va => Sys2Proof.Machine.execRackingEnd owner va s
  | .peerLost dev cause => Sys2Proof.Machine.execPeerLost dev cause s
  | .portDown port => Sys2Proof.Machine.execPortDown port s
  | .flitReceive port seq crcOk tagOk corrected => Sys2Proof.Machine.execFlitReceive port seq crcOk tagOk corrected s
  | .peerAccess dev owner offset op => Sys2Proof.Machine.execPeerAccess dev owner offset op s
  | .packetReceive flow epoch ctr tagOk addr isWrite => Sys2Proof.Machine.execPacketReceive flow epoch ctr tagOk addr isWrite s
  | .keyRegisterLoad port owner => Sys2Proof.Machine.execKeyRegisterLoad port owner s
  | .hostCompletion owner request kBit integrityOk linkOk errorStatus => Sys2Proof.Machine.execHostCompletion owner request kBit integrityOk linkOk errorStatus s
  | .completionTimeout owner request => Sys2Proof.Machine.execCompletionTimeout owner request s
  | .keySetErase owner => Sys2Proof.Machine.execKeySetErase owner s
  | .lockWalker owner => Sys2Proof.Machine.execLockWalker owner s
  | .lq owner va => Sys2Proof.Machine.execLq owner va s
  | .reply owner seq => Sys2Proof.Machine.execReply owner seq s
  | .hatom owner v => Sys2Proof.Machine.execHatom owner v s
  | .registerPageWrite owner offset width v => Sys2Proof.Machine.execRegisterPageWrite owner offset width v s
  | .lockedRegisterWrite owner reg v => Sys2Proof.Machine.execLockedRegisterWrite owner reg v s
  | .telemetryRead owner offset width => Sys2Proof.Machine.execTelemetryRead owner offset width s
  | .lockInterface owner => Sys2Proof.Machine.execLockInterface owner s
  | .startInterface owner => Sys2Proof.Machine.execStartInterface owner s
  | .stopInterface owner => Sys2Proof.Machine.execStopInterface owner s
  | .kSetGo owner => Sys2Proof.Machine.execKSetGo owner s
  | .spdmRequest request => Sys2Proof.Machine.execSpdmRequest request s
  | .createOwner desc tenantKey => Sys2Proof.Machine.execCreateOwner desc tenantKey s
  | .destroyOwner owner => Sys2Proof.Machine.execDestroyOwner owner s
  | .grant owner extents => Sys2Proof.Machine.execGrant owner extents s
  | .quota owner q => Sys2Proof.Machine.execQuota owner q s
  | .peer owner table => Sys2Proof.Machine.execPeer owner table s
  | .slotAssign owner slots => Sys2Proof.Machine.execSlotAssign owner slots s
  | .diag owner => Sys2Proof.Machine.execDiag owner s
  | .logRead violations => Sys2Proof.Machine.execLogRead violations s
  | .setReceiptRing owner va count => Sys2Proof.Machine.execSetReceiptRing owner va count s
  | .keyPut owner slot key authenticated => Sys2Proof.Machine.execKeyPut owner slot key authenticated s
  | .allow owner list authenticated => Sys2Proof.Machine.execAllow owner list authenticated s
  | .worldShare owner dev key => Sys2Proof.Machine.execWorldShare owner dev key s
  | .fusedMinimumRaise version signed => Sys2Proof.Machine.execFusedMinimumRaise version signed s
  | .regulatorSetting q value => Sys2Proof.Machine.execRegulatorSetting q value s
  | .kilnLockstepMismatch => Sys2Proof.Machine.execKilnLockstepMismatch s
  | .rowRemap bank row bad => Sys2Proof.Machine.execRowRemap bank row bad s
  | .bondSteering channel bond => Sys2Proof.Machine.execBondSteering channel bond s
  | .coreRetire core => Sys2Proof.Machine.execCoreRetire core s
  | .governorStep die step => Sys2Proof.Machine.execGovernorStep die step s
  | .currentClamp => Sys2Proof.Machine.execCurrentClamp s
  | .thermtrip => Sys2Proof.Machine.execThermtrip s
  | .reset imageOk version step => Sys2Proof.Machine.execReset imageOk version step s
  | .spStart sp => Sys2Proof.Machine.execSpStart sp s
  | .meWake sp => Sys2Proof.Machine.execMeWake sp s
  | .forcedRunBoundary sp => Sys2Proof.Machine.execForcedRunBoundary sp s

end Sys2Proof.Machine
end

