-- ==== Sys2Proof/Machine/Agenda.lean ====
section
/-! DEFINITION. Turns: what one agent does when it moves, what the outside world does, and which agent moves when
the state names none (DESIGN CHOICE, log entry 9). -/

set_option linter.unusedVariables false

namespace Sys2Proof.Machine

/-! ## Agents -/

/-- A word that breaks the encoding or the allocation takes its cause whatever else would stop it (03 R47; 19 R340). -/
def State.badWord (s : State) (i : Instr) : Option State :=
  match i with
  | .reservedOpcode _ => some (s.raiseWord .illegalOp)
  | _ =>
    let b := s.modCur (fun g => { g with hlv := false })
    match exec i b with
    | .next t => if t = b.raiseWord .illegalReg then some (s.raiseWord .illegalReg) else none
    | _ => none

/-- The word at the run's address is issued: fetch, what comes before, the meaning, what comes after. -/
def State.issueWord (s : State) : Out :=
  let c := s.catchUp
  let a := c.arrive
  let gid := a.cur.gid
  let sp := a.cur.sp
  if c.holdsBack then .next c.stallWord
  else if a.cur.iss = 0 then .next (a.endRun.afterWord gid sp 0 (.nop ⟨false, 7⟩))
  else match a.fetchIssue with
    | .stop t => .next (t.afterWord gid sp 1 (.nop ⟨false, 7⟩))
    | .run a i =>
      match a.beforeWord i with
      | .stop t => .next (((a.badWord i).getD t).afterWord gid sp 1 (.nop ⟨false, 7⟩))
      | .run a i =>
        match exec i a with
        | .next t =>
          -- a bin-launched group begins with FRAMELD; that is checked after its registers (17 R303)
          let t := match i with
            | .frameld _ => t
            | _ =>
              if a.cur.kind == GroupKind.bin && !a.cur.frameldDone && !a.cur.hlv then
                (if t = a.raiseWord .illegalReg then t else a.raiseWord .illegalOp)
              else t
          .next (t.afterWord gid sp (issueClk a.cur i) i)
        | o => o

/-- An SP's turn: its run goes on, or it starts one. -/
def State.issueOn (s : State) (sp : Nat) : Out :=
  match s.runOn sp with
  | some gid => (s.focus gid).issueWord
  | none => exec (.runStart sp) s

/-- The ME of an SP can execute a command (11 R182, R203, R205). -/
def State.meReady (s : State) (sp : Nat) : Bool :=
  let e := s.meOf sp
  (e.state == 1 || e.state == 2) && !e.follower && e.wakeAt == 0 && !e.missing && (s.spOf sp).swapClk == 0 &&
    ((s.teamOf e.team).tid != 0 || e.team == 0) && (s.ownerOf (s.meOwner sp)).halt.isNone && s.portHas (s.meOwner sp) (coreOf sp) &&
    (!(e.configured && e.paired) || s.holdsFollower sp)

/-- The ME's turn: one command. -/
def State.meTurn (s : State) (sp : Nat) : Out :=
  if !(s.meReady sp) then .next s
  else match s.fetchMx sp with
    | .wait t => .next t
    | .stop t => .next t
    | .run t i => exec i (t.touchPort (t.meOwner sp) (coreOf sp))

/-- The CE's turn for a chain: it reads the chain, then runs one card (15 R264-R266), or stops the card of a halted owner (18 R316). -/
def State.cardTurn (s : State) (cid : Nat) : Out :=
  match s.chainOf cid with
  | none => .next s
  | some ch =>
    if ch.status.isSome || ch.waitPage then .next s
    else if (s.ownerOf ch.owner).halt.isSome then .next (s.cutCard cid)
    else if !(s.portHas ch.owner ch.core) then .next s
    else if !ch.read then exec (.promise cid) (s.touchPort ch.owner ch.core)
    else match ch.deck[ch.cards]? with
      | some c => exec (Card.instr cid c) (s.touchPort ch.owner ch.core)
      | none => .next (s.endChain cid (ch.deckEnd.getD 0))

/-- A bank's turn: one steep command, in the order handed over. -/
def State.steepTurn (s : State) (jid : Nat) : Out :=
  match s.steeps.find? (fun j => j.jid == jid) with
  | some j => exec j.instr s
  | none => .next s

/-- The events of the device, its outside and its host. -/
def isEvent : Instr → Bool
  | .runStart _ => true
  | .memoryResult _ _ _ => true
  | .vldfDelivery _ _ _ _ => true
  | .waittDeadline _ => true
  | .gtcmpMatch _ => true
  | .promiseMissed _ => true
  | .flushTimer _ _ => true
  | .binLaunch _ _ => true
  | .caskRefill _ _ => true
  | .missQueued _ => true
  | .walkHandlerLaunch _ => true
  | .pageHandlerLaunch _ => true
  | .requestHandlerLaunch _ => true
  | .haltRecord _ => true
  | .trapRecord _ => true
  | .syscallSlotPoll _ => true
  | .teamPlacement _ => true
  | .gangStart _ => true
  | .gangAgeing _ => true
  | .launchAccept _ => true
  | .teamRetire _ => true
  | .gridCompletion _ => true
  | .receiptWrite _ => true
  | .preemption _ _ => true
  | .bankSwap _ => true
  | .contextSpill _ => true
  | .contextFill _ _ => true
  | .teamEviction _ => true
  | .teamRestore _ => true
  | .rackingEnd _ _ => true
  | .peerLost _ _ => true
  | .portDown _ => true
  | .flitReceive _ _ _ _ _ => true
  | .peerAccess _ _ _ _ => true
  | .packetReceive _ _ _ _ _ _ => true
  | .keyRegisterLoad _ _ => true
  | .hostCompletion _ _ _ _ _ _ => true
  | .completionTimeout _ _ => true
  | .keySetErase _ => true
  | .lockWalker _ => true
  | .lq _ _ => true
  | .reply _ _ => true
  | .hatom _ _ => true
  | .registerPageWrite _ _ _ _ => true
  | .lockedRegisterWrite _ _ _ => true
  | .telemetryRead _ _ _ => true
  | .lockInterface _ => true
  | .startInterface _ => true
  | .stopInterface _ => true
  | .kSetGo _ => true
  | .spdmRequest _ => true
  | .createOwner _ _ => true
  | .destroyOwner _ => true
  | .grant _ _ => true
  | .quota _ _ => true
  | .peer _ _ => true
  | .slotAssign _ _ => true
  | .diag _ => true
  | .logRead _ => true
  | .setReceiptRing _ _ _ => true
  | .keyPut _ _ _ _ => true
  | .allow _ _ _ => true
  | .worldShare _ _ _ => true
  | .fusedMinimumRaise _ _ => true
  | .regulatorSetting _ _ => true
  | .kilnLockstepMismatch => true
  | .rowRemap _ _ _ => true
  | .bondSteering _ _ => true
  | .coreRetire _ => true
  | .governorStep _ _ => true
  | .currentClamp => true
  | .thermtrip => true
  | .reset _ _ _ => true
  | .spStart _ => true
  | .meWake _ => true
  | .forcedRunBoundary _ => true
  | _ => false

/-- Time for a step of an agent that is no issue. -/
def endTurn (o : Out) : Out :=
  match o with
  | .next t => .next t.stepDone
  | x => x

/-- An event is over: the next one's free values are others. -/
def endEvent (o : Out) : Out :=
  match o with
  | .next t => .next t.freshFree
  | x => x

/-- What a turn does. -/
def State.perform (s : State) : Turn → Out
  | .issue sp =>
    (match s.runOn sp with
     | some _ => s.issueOn sp
     | none => endTurn (s.issueOn sp))
  | .me sp => endTurn (s.meTurn sp)
  | .card cid => endTurn (s.cardTurn cid)
  | .steep jid => endTurn (s.steepTurn jid)
  | .event i => if isEvent i then endEvent (exec i s) else .next s
  | .upset (.uncorrectable a) =>
      let s1 := s.addPoison (blockOf a)
      .next (if globalBase ≤ a ∧ a < peerBase then s1.countWord ((a - globalBase) / 0x400000 * 48 + (a - globalBase) % 0x400000 / 0x10000)
        else if a < 2 ^ 48 then s1.badRow (Config.dramBank (a / 65536)) (Config.dramRow (a / 64)) else s1)
  | .upset u => .next { s with upsets := s.upsets ++ [u] }
  | .idle => .next (({ s with freeCtr := s.freeCtr + 1 }).tick (1 + Config.extraClk s.freeCtr))
  | .secded bank => .next ((s.countWord bank).logEvent .rebuilt)
  | .outside key bytes =>
      .next (if isHostKey key || isPeerKey key then { s with mem := Memory.write s.mem key bytes, stale := s.noteStale key bytes.length } else s)
  | .sense pwr temp link => .next { s with pwr, temp, link }
  | .routes r => .next (({ s with routes := r } : State).loseUnrouted)
  | .exportMap owner l => .next (s.modOwner owner (fun o => { o with exports := l }))
  | .load owner frame bytes => .next (s.loaderPlaces owner frame bytes)
  | .descriptor owner => .next (s.readDescriptor owner)
  | .selfTest banks sps => .next (s.failTest banks sps)
  | .corrected bank row bond => .next (s.correct bank row bond)
  | .training bonds => .next (s.failTraining bonds)
  | .session dev => .next { s with sessions := if s.sessions.contains dev then s.sessions else dev :: s.sessions }
  | .worldEnd owner dev => .next { s with worldEnds := s.worldEnds.filter (· != (owner, dev)) ++ [(owner, dev)] }
  | .register owner reg v => .next (s.modOwner owner (fun o => { o with lockedRegs := setAt o.lockedRegs reg v }))

/-! ## Whose turn it is when none is named -/

/-- An SP before the first one that is free no earlier. -/
def insertSp (p : Sp) : List Sp → List Sp
  | [] => [p]
  | q :: l => if p.nextClk.toNat ≤ q.nextClk.toNat then p :: q :: l else q :: insertSp p l

/-- Turns that the state itself calls for, in the order the model takes them: the device and its engines, then the
SPs, the one that is free the earliest first. -/
def State.candidates (s : State) : List Turn :=
  let ev := fun (i : Instr) => Turn.event i
  let sps := s.sps.map (·.num)
  let os := s.owners.map (·.id)
  let gs := s.allGroups.filter Group.alive
  gs.flatMap (fun g => g.await.map (fun q => ev (.memoryResult g.gid q.lanes.low (q.regs.headD 0)))) ++
    s.keyLoads.map (fun x => ev (.keyRegisterLoad x.1 x.2)) ++ sps.map Turn.me ++
    (s.chains.filter (fun c => c.status.isNone)).map (fun c => .card c.cid) ++ s.steeps.map (fun j => .steep j.jid) ++
    gs.flatMap (fun g => [ev (.waittDeadline g.gid), ev (.promiseMissed g.gid)]) ++
    s.teams.flatMap (fun t => t.bins.flatMap (fun b =>
      (b.rows.filter (·.st == .loading)).map (fun r => ev (.vldfDelivery t.tid b.num r.num false)) ++
      (b.cask.filter (·.st == .loading)).map (fun r => ev (.vldfDelivery t.tid b.num r.num true)) ++
      [ev (.flushTimer t.tid b.num), ev (.binLaunch t.tid b.num), ev (.caskRefill t.tid b.num)])) ++
    os.flatMap (fun o => [ev (.missQueued o), ev (.walkHandlerLaunch o)]) ++ sps.map (fun p => ev (.pageHandlerLaunch p)) ++
    os.flatMap (fun o => [ev (.requestHandlerLaunch o), ev (.haltRecord o), ev (.syscallSlotPoll o), ev (.launchAccept o), ev (.gangAgeing o),
      ev (.keySetErase o)]) ++
    s.grids.flatMap (fun g => [ev (.teamPlacement g.gid), ev (.gangStart g.gid)]) ++
    s.teams.map (fun t => ev (.teamRetire t.tid)) ++ s.grids.flatMap (fun g => [ev (.gridCompletion g.gid), ev (.receiptWrite g.gid)]) ++
    sps.flatMap (fun p => [ev (.forcedRunBoundary p), ev (.bankSwap p), ev (.contextSpill p), ev (.meWake p)] ++
      (match (s.spOf p).incoming with | some c => [ev (.contextFill p c)] | none => [])) ++
    s.saved.flatMap (fun x => (s.relocSp x).toList.map (fun p => ev (.contextFill p x.ctx))) ++
    s.rackings.map (fun r => ev (.rackingEnd r.owner (pageVa r.page))) ++
    s.owners.flatMap (fun o => o.hostReqs.map (fun r => ev (.completionTimeout o.id r.rid))) ++ [ev (.spStart (s.sps.filter (·.up)).length)] ++
    (s.sps.foldr insertSp []).map (fun p => .issue p.num)

/-- The turn changes something beside the clock. -/
def State.moves (s : State) (t : Turn) : Bool :=
  let out := match t with
    | .me sp => s.meTurn sp
    | .card cid => s.cardTurn cid
    | .steep jid => s.steepTurn jid
    | .issue sp => (match s.runOn sp with | some _ => s.issueOn sp | none => exec (.runStart sp) s)
    | .event i => if isEvent i then exec i s else .next s
    | t => s.perform t
  match out with
  | .next u => u != s
  | _ => true

/-- The next turn: the first one that moves something, else a clk passes. -/
def State.nextTurn (s : State) : Turn := (s.candidates.find? s.moves).getD .idle

end Sys2Proof.Machine
end

