-- ==== Sys2Proof/Machine/Fetch.lean ====
section
/-! DEFINITION. How an instruction comes to stand where the next step fetches it (DESIGN CHOICE, log entry 1). -/

set_option linter.unusedVariables false

namespace Sys2Proof.Machine

/-- The bytes of an instruction whose bits are `w`; the bits above `nbits` are 0. -/
def tableBytes (nbits w : Nat) : List (BitVec 8) := leBytes 8 (w % 2 ^ nbits)

/-- The page and the frame that hold the instruction of a loaded program, and its address. -/
def loadPage : Nat := 16
def loadFrame : Nat := 16
def loadVa : DWord := 0x100000

/-- The owner, grid, team and group that stand for a program loaded from outside: one group of 16 lanes at the
first word of its first run, on SP 0. -/
def loadOwner : Owner :=
  { Owner.none with
    id := 1, quotas := ⟨1024, 12288, 64, 256, 256⟩, rect := [0, 0, 16, 16], reserve := [(loadPage, loadFrame)], ringVa := 0x40
    ringRecords := 16
    tlb := [{ page := loadPage, big := false, pin := true, st := .resident, ord := 1, r := true, w := true, x := true
              frame := loadFrame, cores := [0] }] }

def loadGrid : Grid :=
  { Grid.none with gid := 1, owner := 1, number := 1, nextTeam := 1, record := { LaunchRec.none with matrix := true, width := 16, entry := loadVa } }

def loadTeam : Team := { Team.none with tid := 1, grid := 1, owner := 1, sps := [0] }

def loadGroup : Group :=
  { Group.empty with
    gid := 1, owner := 1, grid := 1, team := 1, width := 16, live := Mask.upto 16, started := true, inRun := true
    iss := Mask.upto 16, ipc := loadVa, pc := SMap.setMany ([] : SMap 64) 0 (fun _ => true) (fun _ => loadVa) 16 }

/-- The loaded program beside what the state holds. -/
def State.loaded (s : State) : State :=
  { s with
    cur := loadGroup, groups := if s.cur.alive then s.cur :: s.groups else s.groups
    owners := loadOwner :: s.owners, grids := loadGrid :: s.grids, teams := loadTeam :: s.teams
    sps := { Sp.down with num := 0, up := true, owner := 1, me := Me.forTeam 1 1 } :: s.sps
    nextId := max 2 s.nextId, powerOff := false }

/-- The world key of the owner of the group in the issue slot stands in the port of its core (22 R378). -/
def State.withPortKey (s : State) : State :=
  if s.portHas s.cur.owner s.curCore then s
  else { s with portKeys := s.portKeys ++ [{ port := s.curCore, owner := s.cur.owner, epoch := 1, lastUse := s.cyc, sent := [] }] }

/-- Bytes placed at a key, whatever the block was. -/
def State.place (s : State) (key : Nat) (bs : List (BitVec 8)) : State :=
  { s with mem := Memory.write s.mem key bs
           stale := s.stale.filter (fun e => !(decide (key / 4 ≤ e.1) && decide (e.1 ≤ (key + bs.length - 1) / 4))) }

end Sys2Proof.Machine
end

