-- ==== Sys2Proof/Machine/Step.lean ====
section
/-! DEFINITION. One step of the machine, and an instruction placed where the next step fetches it. -/

namespace Sys2Proof.Machine

/-- One step: the turn at the head of the agenda, else the turn the state calls for. A part whose power is removed
waits for a RESET (22 R412). -/
def step (s : State) : Host.Outcome State Fault Refusal :=
  match s.turns with
  | [] => if s.powerOff then .fault .powerRemoved else s.perform s.nextTurn
  | t :: ts =>
    match s.powerOff, t with
    | true, .event (.reset a b c) => ({ s with turns := ts }).perform (.event (.reset a b c))
    | true, _ => .fault .powerRemoved
    | false, t => ({ s with turns := ts }).perform t

/-- `s` with the instruction whose bits are `w` where the next step fetches: at the address of the run in progress
when its fetch is translated, else as the first word of a program loaded from outside (DESIGN CHOICE, log entry 1). -/
def State.withFetchWord (s : State) (nbits w : Nat) : State :=
  let load := ({ (s.loaded.withPortKey.place (loadFrame * 65536) (tableBytes nbits w)) with turns := [.issue 0] } : State)
  if s.cur.inRun && s.cur.alive then
    match s.xlate s.curOwner s.curTeam s.curCore .fetch s.cur.ipc with
    | .ok k => { (s.withPortKey.place k (tableBytes nbits w)) with turns := [.issue s.cur.sp] }
    | _ => load
  else load

end Sys2Proof.Machine
end

