-- ==== Sys2Proof/Safety.lean ====
section
/-! DEFINITION. The terms claims are stated in: the invariant of memory, and for each kind of result what the next
state holds and what it leaves as it was (the frame). -/

set_option linter.unusedVariables false

namespace Sys2Proof.Machine

/-- The bytes of memory are in their one canonical form. -/
def State.MemInv (s : State) : Prop := Memory.wf s.mem = true

/-- No result of a load is outstanding for the issuing group, so its registers read as they were written (02 R29). -/
def State.settled (s : State) : Prop := s.cur.outst = []

/-- The lanes of the issue set stand `len` bytes after the word, the others where they were. -/
def State.wentOn (s t : State) (len : Nat) : Prop :=
  ∀ l, l < 64 → t.cur.pc.get l = if s.cur.iss.has l then s.cur.ipc + BitVec.ofNat 64 len else s.cur.pc.get l

/-- `t` is `s` after a word that writes `f l` to v(d) in each lane `l` of `m` and goes on: the other lanes of v(d), the
other vector registers and all the rest of the machine are as before. -/
def State.wroteV (s t : State) (m : Mask) (d len : Nat) (f : Nat → Word) : Prop :=
  (∀ l, l < 64 → t.cur.vraw d l = if m.has l then f l else s.cur.vraw d l) ∧
  (∀ r l, r ≠ d → l < 64 → t.cur.vraw r l = s.cur.vraw r l) ∧
  s.wentOn t len ∧ t = { s with cur := { s.cur with v := t.cur.v, pc := t.cur.pc } }

/-- The same, and the flags `fl` are added to FSTAT (08 R140). -/
def State.wroteVF (s t : State) (m : Mask) (d : Nat) (f : Nat → Word) (fl : Flags) : Prop :=
  (∀ l, l < 64 → t.cur.vraw d l = if m.has l then f l else s.cur.vraw d l) ∧
  (∀ r l, r ≠ d → l < 64 → t.cur.vraw r l = s.cur.vraw r l) ∧
  s.wentOn t 4 ∧
  t = { s with cur := { s.cur with v := t.cur.v, pc := t.cur.pc, fstat := s.cur.fstat ||| fl } }

/-- `t` is `s` after a word that writes `x l` to p(d) in each lane `l` of `m`, adds the flags `fl` to FSTAT and goes on. -/
def State.wroteP (s t : State) (m : Mask) (d : Nat) (x : Nat → Bool) (fl : Flags) : Prop :=
  (∀ l, l < 64 → Mask.has (t.cur.p.get d) l = if m.has l then x l else Mask.has (s.cur.p.get d) l) ∧
  (∀ r, r ≠ d → t.cur.p.get r = s.cur.p.get r) ∧
  s.wentOn t 4 ∧
  t = { s with cur := { s.cur with p := t.cur.p, pc := t.cur.pc, fstat := s.cur.fstat ||| fl } }

/-- `t` is `s` after a word of `len` bytes that writes `x` to s(d) and goes on. -/
def State.wroteS (s t : State) (d len : Nat) (x : Word) : Prop :=
  t.cur.sreg d = x ∧ (∀ r, r ≠ d → t.cur.sreg r = s.cur.sreg r) ∧
  s.wentOn t len ∧ t = { s with cur := { s.cur with s := t.cur.s, pc := t.cur.pc } }

/-- `t` is `s` after a word that writes the pair s(d):s(d+1), low half in s(d), and goes on. -/
def State.wroteSPair (s t : State) (d : Nat) (x : DWord) : Prop :=
  t.cur.spair d = x ∧ (∀ r, r ≠ d → r ≠ d + 1 → t.cur.sreg r = s.cur.sreg r) ∧
  s.wentOn t 4 ∧ t = { s with cur := { s.cur with s := t.cur.s, pc := t.cur.pc } }

/-- `t` is `s` after a word that writes q(d) and goes on. -/
def State.wroteQ (s t : State) (d : Nat) (b : Bool) : Prop :=
  t.cur.qbit d = b ∧ (∀ r, r < 16 → r ≠ d → t.cur.qbit r = s.cur.qbit r) ∧
  s.wentOn t 4 ∧ t = { s with cur := { s.cur with q := t.cur.q, pc := t.cur.pc } }

/-- `t` is `s` after a word that writes the base and the stride of x(d) and goes on. -/
def State.wroteX (s t : State) (d : Nat) (base : DWord) (stride : Word) : Prop :=
  t.cur.xb.get d = base ∧ t.cur.xs.get d = stride ∧
  (∀ r, r ≠ d → t.cur.xb.get r = s.cur.xb.get r ∧ t.cur.xs.get r = s.cur.xs.get r) ∧
  s.wentOn t 4 ∧ t = { s with cur := { s.cur with xb := t.cur.xb, xs := t.cur.xs, pc := t.cur.pc } }

/-- `t` is `s` after a word of `len` bytes that only goes on. -/
def State.onlyWentOn (s t : State) (len : Nat) : Prop :=
  s.wentOn t len ∧ t = { s with cur := { s.cur with pc := t.cur.pc } }

/-- The owner's counters of traffic and the recency of its translations may differ, and nothing else. -/
def Owner.sameButCounts (o o' : Owner) : Prop :=
  o' = { o with recent := o'.recent, bwDram := o'.bwDram, bwHost := o'.bwHost, bwPeer := o'.bwPeer }

/-- Every owner is as before but for those counters. -/
def State.ownersSameButCounts (s t : State) : Prop :=
  t.owners.length = s.owners.length ∧
  ∀ (k : Nat) (o o' : Owner), s.owners[k]? = some o → t.owners[k]? = some o' → o.sameButCounts o'

/-- The ports hold the keys they held; only their last uses may differ (22 R378). -/
def State.samePorts (s t : State) : Prop :=
  t.portKeys.map (fun k => { k with lastUse := 0 }) = s.portKeys.map (fun k => { k with lastUse := 0 })

/-- What the traffic of accesses of the lanes of `m` at `key` leaves behind: counters, recency, uses of ports, and the counters of the flows to
and from a peer when it is a peer's memory that a lane reaches (22 R378, R381, R417; 19 R327). -/
def State.onlyTraffic (s t : State) (m : Mask) (key : Nat → Nat) : Prop :=
  s.ownersSameButCounts t ∧ s.samePorts t ∧ ((∀ l, m.has l = true → isPeerKey (key l) = false) → t.flows = s.flows)

/-- Each active lane of an access of `n` bytes, aligned to `al`, finds its byte at `key l`: translated, in no fenced bank, not on the
host path, not poisoned (14 R247, R248), and the group is at no handler level. -/
def State.reaches (s : State) (h : Hdr) (m : Mode) (al n : Nat) (atom : Option (Nat × Bool)) (va : Nat → DWord) (key : Nat → Nat) : Prop :=
  s.cur.hlv = false ∧
  ∀ l, (s.active h).has l = true →
    s.classify m al atom (va l) = .ok (key l) ∧ isHostKey (key l) = false ∧ s.poisoned (key l) n = false

/-- The issue joins what the lanes of `m` still await, when there is such a lane (02 R20). -/
def State.awaits (s t : State) (m : Mask) : Prop :=
  ∃ x, t.cur.await = s.cur.await ++ x ∧ x.length = (if m = 0 then 0 else 1) ∧ ∀ q ∈ x, q.lanes = m

/-- `t` is `s` after a load that finds `x l` for lane `l`: v(d) takes it (for two words v(d):v(d + 1), low word first), the lanes await
the issue, and only v, the PCs and what the traffic at `key` leaves change beside. -/
def State.loaded2 (s t : State) (m : Mask) (key : Nat → Nat) (d n : Nat) (x : Nat → Nat) : Prop :=
  (∀ j l, j < n → l < 64 → t.cur.vraw (d + j) l = if m.has l then BitVec.ofNat 32 (x l / 2 ^ (32 * j)) else s.cur.vraw (d + j) l) ∧
  (∀ r l, r < d ∨ d + n ≤ r → l < 64 → t.cur.vraw r l = s.cur.vraw r l) ∧
  s.wentOn t 4 ∧ s.onlyTraffic t m key ∧ s.awaits t m ∧
  t = { s with cur := { s.cur with v := t.cur.v, pc := t.cur.pc, await := t.cur.await }, owners := t.owners
               portKeys := t.portKeys, flows := t.flows }

/-- What a store of the lanes of `m` at `key` changes beside memory: PCs, what its traffic leaves, the poison of blocks it covers, the marks of
pages that move, what a fetch may still see of the words it writes, the write versions of its lines, and the errors of rows when a line whose
tag fails is reported (22 R380). -/
def State.storedOnly (s t : State) (m : Mask) (key : Nat → Nat) : Prop :=
  s.wentOn t 4 ∧ s.onlyTraffic t m key ∧ (s.tagFails = [] → t.rowErrs = s.rowErrs) ∧ (∀ b, b ∈ t.poison → b ∈ s.poison) ∧
  t.rackings.map (fun r => { r with marked := [] }) = s.rackings.map (fun r => { r with marked := [] }) ∧
  t = { s with cur := { s.cur with pc := t.cur.pc }, owners := t.owners, mem := t.mem, stale := t.stale
               versions := t.versions, poison := t.poison, rackings := t.rackings
               portKeys := t.portKeys, flows := t.flows, rowErrs := t.rowErrs }

/-- The location is in a frame of no retired bank and no lost channel, of no peer without the owner's world key, and no bad packet strikes it
(22 R406, R379, R381). -/
def State.writable (s : State) (key : Nat) : Prop := s.frameLost key = false ∧ s.keyless key = false ∧ s.upsets = []

/-- `t` is `s` with the lanes of the issue set at `f l`, and nothing else changed. -/
def State.moved (s t : State) (f : Nat → DWord) : Prop :=
  (∀ l, l < 64 → t.cur.pc.get l = if s.cur.iss.has l then f l else s.cur.pc.get l) ∧
  t = { s with cur := { s.cur with pc := t.cur.pc } }

/-- `t` is `s` after the lanes of `m` took cause `c` (01 R11; 19 R334): CAUSE, TVAL and TLANE are set, the lanes stand at the
handler-table entry, their PCs are saved, the group is at handler level, and nothing else changed. -/
def State.took (s t : State) (c : Cause) (tval : DWord) (m : Mask) : Prop :=
  t.cur.cause = BitVec.ofNat 32 c.code ∧ t.cur.tval = tval ∧ t.cur.tlane = m ∧ t.cur.hlv = true ∧ t.cur.hl = m ∧
  (∀ l, l < 64 → t.cur.pc.get l = if m.has l then s.handlerOf s.cur.grid c else s.cur.pc.get l) ∧
  (∀ l, l < 64 → t.cur.savedPc.get l = if m.has l then s.cur.pc.get l else 0) ∧
  t = { s with cur := { s.cur with
    cause := t.cur.cause, tval := t.cur.tval, tlane := t.cur.tlane, hlv := true, hl := m, pc := t.cur.pc
    savedPc := t.cur.savedPc, inRun := false } }

/-- An in-group handler for cause `c` can be entered: the group is at no handler level and its table has an entry. -/
def State.canTake (s : State) (c : Cause) : Prop := s.cur.hlv = false ∧ s.handlerOf s.cur.grid c ≠ 0

/-- The owner is halted in `t` with a record of `kind` and `detail` for address `addr` at `pc` (18 R316, R318). -/
def State.haltedWith (t : State) (owner kind detail : Nat) (addr pc : DWord) : Prop :=
  ∃ h, (t.ownerOf owner).halt = some h ∧ h.kind = kind ∧ h.detail = detail ∧ h.addr = addr ∧ h.pc = pc ∧ h.written = false

/-- Tile `n` of the group's team is bound to `tl`, whose rows and elements lie in the team's banks, none on another, and no upset
strikes (11 R206). -/
def State.tileReady (s : State) (n : Nat) (tl : Tile) : Prop :=
  s.curTeam.tile n = some tl ∧ s.upsets = [] ∧ s.curTeam.reaches tl = true ∧
  (∀ r, r < tl.rows → s.curTeam.holdsRow tl r = true) ∧ (∀ r c, r < tl.rows → c < tl.cols → s.curTeam.holdsElem tl r c = true) ∧
  (∀ r c, r < tl.rows → c < tl.cols → globalBase ≤ localKey s.curTeam (tl.at r c)) ∧
  (∀ r c r' c', r < tl.rows → c < tl.cols → r' < tl.rows → c' < tl.cols → (r, c) ≠ (r', c') →
    localKey s.curTeam (tl.at r c) + tl.size ≤ localKey s.curTeam (tl.at r' c') ∨
      localKey s.curTeam (tl.at r' c') + tl.size ≤ localKey s.curTeam (tl.at r c))

/-- No element of the tile is in a poisoned block. -/
def State.tileClean (s : State) (tl : Tile) : Prop :=
  ∀ r c, r < tl.rows → c < tl.cols → s.elemPoisoned s.curTeam tl r c = false

/-- `t` is `s` after a word that writes `f r c` to the elements of the tile for which `w r c`, and goes on: every other byte, every
register but FSTAT and all the rest is as before, and poison only goes. -/
def State.wroteTile (s t : State) (tl : Tile) (w : Nat → Nat → Bool) (f : Nat → Nat → Nat) : Prop :=
  (∀ r c, r < tl.rows → c < tl.cols → t.elem s.curTeam tl r c = if w r c then f r c else s.elem s.curTeam tl r c) ∧
  (∀ j, (∀ r c, r < tl.rows → c < tl.cols → w r c = true →
      ¬ (localKey s.curTeam (tl.at r c) ≤ j ∧ j < localKey s.curTeam (tl.at r c) + tl.size)) → t.mem.get j = s.mem.get j) ∧
  (∀ b, b ∈ t.poison → b ∈ s.poison) ∧ s.wentOn t 4 ∧
  t = { s with cur := { s.cur with pc := t.cur.pc, fstat := t.cur.fstat }, mem := t.mem, stale := t.stale, poison := t.poison }

/-- The issue set waits at the word for a condition (02 R26). -/
def State.waits (s t : State) (c : WaitCond) : Prop :=
  t = { s with cur := { s.cur with waits := ⟨s.cur.iss, c⟩ :: s.cur.waits } }

/-- `t` is `s` after a `CPYW` that writes `x` to s(d) and goes on: its lanes wait at no core's ticket any more. -/
def State.answered (s t : State) (d : Nat) (x : Word) : Prop :=
  t.cur.sreg d = x ∧ (∀ r, r ≠ d → t.cur.sreg r = s.cur.sreg r) ∧ s.wentOn t 4 ∧
  (∀ l, l < 64 → t.cur.cpyAt.get l = if s.cur.iss.has l then 0 else s.cur.cpyAt.get l) ∧
  t = { s with cur := { s.cur with s := t.cur.s, pc := t.cur.pc, cpyAt := t.cur.cpyAt } }

/-- SP `sp` exists, its unit runs a program and is paired with no other. -/
def State.meAlone (s : State) (sp : Nat) : Prop :=
  s.spOf sp ∈ s.sps ∧ (s.spOf sp).num = sp ∧ ((s.meOf sp).configured && (s.meOf sp).paired) = false

/-- `t` is `s` with the unit of SP `sp` changed, and only that. -/
def State.onlyMe (s t : State) (sp : Nat) : Prop :=
  t = { s with sps := t.sps } ∧ ∀ p, p ≠ sp → t.spOf p = s.spOf p

/-- The unit's next command is the following word. -/
def State.meWentOn (s t : State) (sp : Nat) : Prop := (t.meOf sp).pc = (s.meOf sp).pc + 8 ∧ (t.meOf sp).state = 1

/-- `t` is `s` after the unit of SP `sp` has summed block `q` of the slots claimed from the rings `a` and `b` at their counters (11 R199). -/
def State.summed (s t : State) (sp acc : Nat) (a b : Ring) (q : Nat) : Prop :=
  t.mem = s.mem ∧ t.cur = s.cur ∧ ∀ u m n, m < 64 → n < 64 → (t.meOf sp).acc.get (4096 * u + 64 * m + n) =
    if u = acc then
      (kblock ((s.meOf sp).acc.get (4096 * acc + 64 * m + n))
        (s.slotLine (s.meTeam sp) (s.meSlot sp (s.meOf sp).aSlot).kind (a.slotAt a.cons q) m)
        (s.slotLine (s.meTeam sp) (s.meSlot sp (s.meOf sp).bSlot).kind (b.slotAt b.cons q) n)).1
    else (s.meOf sp).acc.get (4096 * u + 64 * m + n)

/-- The unit's program stops with a code of 11 R187. -/
def State.meStopped (s t : State) (sp code : Nat) : Prop := (t.meOf sp).state = 4 ∧ (t.meOf sp).code = code ∧ t.mem = s.mem

/-- A chain that has been read and has reached card `c`, which nothing holds back, with no word injection, no compare and nothing of it done yet (15 R264-R268;
13 R235). -/
def State.cardRuns (s : State) (ch : Chain) (c : Card) : Prop :=
  s.chains = [ch] ∧ ch.status = none ∧ ch.read = true ∧ (s.ownerOf ch.owner).halt = none ∧ ch.refuses c = false ∧
  s.dsClear ch.owner ch.core ch.cid c.footprints = true ∧ ch.inj = none ∧ c.compare = false ∧ ch.prog = none ∧ s.upsets = []

/-- The chain's card has ended with status 0: its signal is raised and it moves to the next card, or ends (15 R268, R273). -/
def State.cardDone (t : State) (ch : Chain) (c : Card) : Prop :=
  ∃ ch', t.chains = [ch'] ∧ ch'.cid = ch.cid ∧ ch'.cards = ch.cards + 1 ∧ ch'.card = c.next ∧
    ch'.status = (if c.next = 0 then some 0 else none) ∧
    ch'.raised = (if c.signal = 0 then ch.raised else ch.raised ||| BitVec.ofNat 8 (2 ^ (c.signal - 1)))

/-- A steep command whose bank is its owner's and that no earlier job and no halt holds back; its words lie at `k` and are not poisoned. -/
def State.steepRuns (s : State) (j : SteepJob) (k : Nat) : Prop :=
  s.steeps = [j] ∧ (s.ownerOf j.owner).halt = none ∧ s.dsClear j.owner j.core j.jid j.prints = true ∧ s.upsets = [] ∧ globalBase ≤ k ∧
  (∃ b off, whereIs Team.none j.addr = .bank b off ∧ (s.bankOf b).fence = j.owner ∧ k = bankKey b off) ∧
  ∀ a n, 0 < n → k ≤ a → a + n ≤ k + 4 * j.words → s.poisoned a n = false

/-- The command is done, and its status in the group's register s(dst) says code 0 with `excl` slots left out. -/
def State.steepEnded (s t : State) (j : SteepJob) (excl : Nat) : Prop :=
  t.steeps = [] ∧ (j.gid = s.cur.gid → (t.cur.sreg j.dst).toNat % 256 = 0 ∧ (t.cur.sreg j.dst).toNat / 65536 = excl)

end Sys2Proof.Machine
end

