-- ==== Sys2Proof/Certificates/Slice0/Obligations.lean ====
section
/-! DEFINITION. The statements for the provers, one definition for each, in the order of the families of the opcode
table. `settled`, `wroteV` and the other terms are defined in Safety.lean. -/

set_option linter.unusedVariables false

open Sys2Proof Sys2Proof.Machine


/-- R79-R88, R74: the lane integer and logic words with register operands: each active lane of v(d) takes the value the entry states,
computed from v(a), v(b) and v(d) as they were; every other lane, register, flag and byte keeps its value, and the issue set goes
to the next word. -/
def Obligations.LaneIntegerResults : Prop :=
  ∀ (s : State) (h : Hdr) (d a b : Nat), s.settled → d < s.cur.vregs → a < s.cur.vregs → b < s.cur.vregs →
    ∀ e ∈ ([(.vadd h d a b .i32, fun x y _ => BitVec.ofNat 32 (x.toNat + y.toNat)),
            (.vadd h d a b .si32, fun x y _ => BitVec.ofInt 32 (max (-2147483648) (min 2147483647 (x.toInt + y.toInt)))),
            (.vadd h d a b .su32, fun x y _ => BitVec.ofNat 32 (min 4294967295 (x.toNat + y.toNat))),
            (.vadd h d a b .i16x2, fun x y _ => BitVec.ofNat 32
              ((x.toNat / 65536 + y.toNat / 65536) % 65536 * 65536 + (x.toNat + y.toNat) % 65536)),
            (.vsub h d a b .i32, fun x y _ => BitVec.ofInt 32 ((x.toNat : Int) - y.toNat)),
            (.vsub h d a b .si32, fun x y _ => BitVec.ofInt 32 (max (-2147483648) (min 2147483647 (x.toInt - y.toInt)))),
            (.vsub h d a b .su32, fun x y _ => BitVec.ofNat 32 (x.toNat - y.toNat)),
            (.vsub h d a b .i16x2, fun x y _ => BitVec.ofNat 32
              ((x.toNat / 65536 + 65536 - y.toNat / 65536) % 65536 * 65536 + (x.toNat % 65536 + 65536 - y.toNat % 65536) % 65536)),
            (.vmul h d a b .lo, fun x y _ => BitVec.ofNat 32 (x.toNat * y.toNat)),
            (.vmul h d a b .hiI32, fun x y _ => BitVec.ofInt 32 (x.toInt * y.toInt / 2 ^ 32)),
            (.vmul h d a b .hiU32, fun x y _ => BitVec.ofNat 32 (x.toNat * y.toNat / 2 ^ 32)),
            (.vmul h d a b .i16x2, fun x y _ => BitVec.ofNat 32
              ((x.toNat / 65536 * (y.toNat / 65536)) % 65536 * 65536 + (x.toNat % 65536 * (y.toNat % 65536)) % 65536)),
            (.vmad h d a b, fun x y z => BitVec.ofNat 32 (x.toNat * y.toNat + z.toNat)),
            (.vand h d a b, fun x y _ => x &&& y),
            (.vor h d a b, fun x y _ => x ||| y),
            (.vxor h d a b, fun x y _ => x ^^^ y),
            (.vandn h d a b, fun x y _ => x &&& ~~~y),
            (.vshl h d a b, fun x y _ => BitVec.ofNat 32 (x.toNat * 2 ^ (y.toNat % 32))),
            (.vshr h d a b .l, fun x y _ => BitVec.ofNat 32 (x.toNat / 2 ^ (y.toNat % 32))),
            (.vshr h d a b .a, fun x y _ => BitVec.ofInt 32 (x.toInt / 2 ^ (y.toNat % 32))),
            (.vmin h d a b .i32, fun x y _ => BitVec.ofInt 32 (min x.toInt y.toInt)),
            (.vmin h d a b .u32, fun x y _ => BitVec.ofNat 32 (min x.toNat y.toNat)),
            (.vmax h d a b .i32, fun x y _ => BitVec.ofInt 32 (max x.toInt y.toInt)),
            (.vmax h d a b .u32, fun x y _ => BitVec.ofNat 32 (max x.toNat y.toNat))] :
          List (Instr × (Word → Word → Word → Word))),
      ∃ t, exec e.1 s = .next t ∧
        s.wroteV t (s.active h) d 4 (fun l => e.2 (s.cur.vraw a l) (s.cur.vraw b l) (s.cur.vraw d l))

/-- R85-R88 and R163: the lane words with an immediate, the unary words and the literal move. R88: VPOPC counts the one bits of its
operand, VCLZ the zero bits above the highest one bit (32 for 0), and VBREV moves bit j to bit 31 - j. -/
def Obligations.LaneUnaryAndImmediateResults : Prop :=
  (∀ (s : State) (h : Hdr) (d a n : Nat) (i8 : BitVec 8) (i14 : BitVec 14) (lit : BitVec 32),
     s.settled → d < s.cur.vregs → a < s.cur.vregs → n < 32 →
     ∀ e ∈ ([(.vaddi h d a i8, 4, fun x => BitVec.ofInt 32 (x.toNat + i8.toInt)),
             (.vshi h d a .shl n, 4, fun x => BitVec.ofNat 32 (x.toNat * 2 ^ n)),
             (.vshi h d a .shrL n, 4, fun x => BitVec.ofNat 32 (x.toNat / 2 ^ n)),
             (.vshi h d a .shrA n, 4, fun x => BitVec.ofInt 32 (x.toInt / 2 ^ n)),
             (.vshi h d a .rotr n, 4, fun x => BitVec.ofNat 32 (x.toNat / 2 ^ n) ||| BitVec.ofNat 32 (x.toNat * 2 ^ (32 - n))),
             (.vmovi h d i14, 4, fun _ => BitVec.ofInt 32 i14.toInt),
             (.vmovl h d lit, 8, fun _ => lit),
             (.vmov h d a, 4, fun x => x),
             (.vnot h d a, 4, fun x => ~~~x),
             (.vneg h d a, 4, fun x => BitVec.ofInt 32 (0 - (x.toNat : Int))),
             (.vabs h d a, 4, fun x => BitVec.ofInt 32 (x.toInt.natAbs : Int)),
             (.vsext8 h d a, 4, fun x => BitVec.ofInt 32 (BitVec.ofNat 8 x.toNat).toInt),
             (.vsext16 h d a, 4, fun x => BitVec.ofInt 32 (BitVec.ofNat 16 x.toNat).toInt)] :
           List (Instr × Nat × (Word → Word))),
       ∃ t, exec e.1 s = .next t ∧ s.wroteV t (s.active h) d e.2.1 (fun l => e.2.2 (s.cur.vraw a l))) ∧
  (∀ (s : State) (h : Hdr) (d a : Nat), s.settled → d < s.cur.vregs → a < s.cur.vregs →
     (∃ t, exec (.vpopc h d a) s = .next t ∧ s.wroteV t (s.active h) d 4 (t.cur.vraw d) ∧
       ∀ l, l < 64 → (s.active h).has l = true →
         t.cur.vraw d l = BitVec.ofNat 32 ((List.range 32).countP (fun j => (s.cur.vraw a l).getLsbD j))) ∧
     (∃ t, exec (.vclz h d a) s = .next t ∧ s.wroteV t (s.active h) d 4 (t.cur.vraw d) ∧
       ∀ l, l < 64 → (s.active h).has l = true → (s.cur.vraw a l = 0 → t.cur.vraw d l = 32) ∧
         (s.cur.vraw a l ≠ 0 → (t.cur.vraw d l).toNat < 32 ∧ (s.cur.vraw a l).getLsbD (31 - (t.cur.vraw d l).toNat) = true ∧
           ∀ j, 31 - (t.cur.vraw d l).toNat < j → (s.cur.vraw a l).getLsbD j = false)) ∧
     (∃ t, exec (.vbrev h d a) s = .next t ∧ s.wroteV t (s.active h) d 4 (t.cur.vraw d) ∧
       ∀ l j, l < 64 → (s.active h).has l = true → j < 32 → (t.cur.vraw d l).getLsbD (31 - j) = (s.cur.vraw a l).getLsbD j))

/-- R105, R107-R109: the integer compares, VSEL, PLOG and PMOV. A compare or a predicate word writes p(d) in its active lanes only and
changes no flag; VSEL writes every lane of the issue set. R105, R106: the FP32 compares. With no NaN they order by value and set
no flag; with a NaN, NE gives 1 and the others 0, and NV is set by a signalling NaN in all four and by any NaN in LT and LE. -/
def Obligations.LanePredicateResults : Prop :=
  (∀ (s : State) (h : Hdr) (d a b : Nat), s.settled →
     (a < s.cur.vregs → b < s.cur.vregs →
       ∀ e ∈ ([(.vcmpeq h d a b .i32, fun x y => decide (x.toInt = y.toInt)),
               (.vcmpeq h d a b .u32, fun x y => decide (x.toNat = y.toNat)),
               (.vcmpne h d a b .i32, fun x y => decide (x.toInt ≠ y.toInt)),
               (.vcmpne h d a b .u32, fun x y => decide (x.toNat ≠ y.toNat)),
               (.vcmplt h d a b .i32, fun x y => decide (x.toInt < y.toInt)),
               (.vcmplt h d a b .u32, fun x y => decide (x.toNat < y.toNat)),
               (.vcmple h d a b .i32, fun x y => decide (x.toInt ≤ y.toInt)),
               (.vcmple h d a b .u32, fun x y => decide (x.toNat ≤ y.toNat))] : List (Instr × (Word → Word → Bool))),
         ∃ t, exec e.1 s = .next t ∧ s.wroteP t (s.active h) d (fun l => e.2 (s.cur.vraw a l) (s.cur.vraw b l)) 0) ∧
     (∀ e ∈ ([(.plog h d a b .and, fun x y => x && y), (.plog h d a b .or, fun x y => x || y),
              (.plog h d a b .xor, fun x y => x != y), (.plog h d a b .andn, fun x y => x && !y),
              (.pmov h d a .cpy, fun x _ => x), (.pmov h d a .not, fun x _ => !x),
              (.pmov h d a .set, fun _ _ => true), (.pmov h d a .clr, fun _ _ => false)] :
            List (Instr × (Bool → Bool → Bool))),
         ∃ t, exec e.1 s = .next t ∧
           s.wroteP t (s.active h) d (fun l => e.2 (Mask.has (s.cur.p.get a) l) (Mask.has (s.cur.p.get b) l)) 0) ∧
     (d < s.cur.vregs → a < s.cur.vregs → b < s.cur.vregs → h.g < 7 →
       ∃ t, exec (.vsel h d a b) s = .next t ∧
         s.wroteV t s.cur.iss d 4 (fun l => if Mask.has (s.cur.p.get h.g) l then s.cur.vraw a l else s.cur.vraw b l))) ∧
  (∀ (s : State) (h : Hdr) (d a b : Nat), s.settled → a < s.cur.vregs → b < s.cur.vregs →
     ∀ e ∈ ([(.vcmpeq h d a b .f32, fun c => c == 0, false, false), (.vcmpne h d a b .f32, fun c => c != 0, true, false),
             (.vcmplt h d a b .f32, fun c => decide (c < 0), false, true),
             (.vcmple h d a b .f32, fun c => decide (c ≤ 0), false, true)] : List (Instr × (Int → Bool) × Bool × Bool)),
       ∃ t, exec e.1 s = .next t ∧
         (let nan := fun l => (f32 (s.cur.vraw a l)).isNan || (f32 (s.cur.vraw b l)).isNan
          let sig := fun l => (f32 (s.cur.vraw a l)).isSig || (f32 (s.cur.vraw b l)).isSig
          s.wroteP t (s.active h) d
           (fun l => if nan l then e.2.2.1 else e.2.1 (cmpF (f32 (s.cur.vraw a l)) (f32 (s.cur.vraw b l))))
           (if (s.active h).lanes.any (fun l => nan l && (sig l || e.2.2.2)) then fNV else 0)))

/-- R89-R95 and R97: the uniform scalar words on single registers: executed once when the guard holds, else only the issue set goes
on; a literal is skipped in both cases. R89, R90: the 64-bit uniform words act on even-odd pairs modulo 2^64; an odd pair field
takes ILLEGAL_REG. R96: SREADL reads v(a) of lane s(b) AND (width - 1), whatever the lane's state. -/
def Obligations.UniformResults : Prop :=
  (∀ (s : State) (h : Hdr) (d a b : Nat) (i8 : BitVec 8) (i14 : BitVec 14) (lit : BitVec 32),
     s.settled → d < s.cur.sregs → a < s.cur.sregs → b < s.cur.sregs →
     ∀ e ∈ ([(.sadd h d a b .i32, 4, fun x y => BitVec.ofNat 32 (x.toNat + y.toNat)),
             (.sadd h d a b .su32, 4, fun x y => BitVec.ofNat 32 (min 4294967295 (x.toNat + y.toNat))),
             (.ssub h d a b .i32, 4, fun x y => BitVec.ofInt 32 ((x.toNat : Int) - y.toNat)),
             (.ssub h d a b .su32, 4, fun x y => BitVec.ofNat 32 (x.toNat - y.toNat)),
             (.smul h d a b .lo, 4, fun x y => BitVec.ofNat 32 (x.toNat * y.toNat)),
             (.smul h d a b .hiI32, 4, fun x y => BitVec.ofInt 32 (x.toInt * y.toInt / 2 ^ 32)),
             (.smul h d a b .hiU32, 4, fun x y => BitVec.ofNat 32 (x.toNat * y.toNat / 2 ^ 32)),
             (.sand h d a b, 4, fun x y => x &&& y), (.sor h d a b, 4, fun x y => x ||| y),
             (.sxor h d a b, 4, fun x y => x ^^^ y),
             (.sshl h d a b, 4, fun x y => BitVec.ofNat 32 (x.toNat * 2 ^ (y.toNat % 32))),
             (.sshr h d a b .l, 4, fun x y => BitVec.ofNat 32 (x.toNat / 2 ^ (y.toNat % 32))),
             (.sshr h d a b .a, 4, fun x y => BitVec.ofInt 32 (x.toInt / 2 ^ (y.toNat % 32))),
             (.smin h d a b .i32, 4, fun x y => BitVec.ofInt 32 (min x.toInt y.toInt)),
             (.smin h d a b .u32, 4, fun x y => BitVec.ofNat 32 (min x.toNat y.toNat)),
             (.smax h d a b .i32, 4, fun x y => BitVec.ofInt 32 (max x.toInt y.toInt)),
             (.smax h d a b .u32, 4, fun x y => BitVec.ofNat 32 (max x.toNat y.toNat)),
             (.saddi h d a i8, 4, fun x _ => BitVec.ofInt 32 (x.toNat + i8.toInt)),
             (.smovi h d i14, 4, fun _ _ => BitVec.ofInt 32 i14.toInt),
             (.smovl h d lit, 8, fun _ _ => lit),
             (.smov h d a, 4, fun x _ => x), (.snot h d a, 4, fun x _ => ~~~x),
             (.spopc h d a, 4, fun x _ => BitVec.ofNat 32 ((List.range 32).countP (fun j => x.getLsbD j))),
             (.sclz h d a, 4, fun x _ => BitVec.ofNat 32 ((List.range 32).reverse.takeWhile (fun j => !x.getLsbD j)).length),
             (.slui h d i14, 4, fun _ _ => BitVec.ofNat 32 (i14.toNat * 2 ^ 18))] :
           List (Instr × Nat × (Word → Word → Word))),
       ∃ t, exec e.1 s = .next t ∧
         (if s.uguard h then s.wroteS t d e.2.1 (e.2.2 (s.cur.sreg a) (s.cur.sreg b)) else s.onlyWentOn t e.2.1)) ∧
  (∀ (s : State) (h : Hdr) (d a b : Nat), s.settled →
     ∀ e ∈ ([(.sadd h d a b .u64, fun x y => x + y), (.ssub h d a b .u64, fun x y => (x : Int) - y),
             (.smul h d a b .u64lo, fun x y => x * y)] : List (Instr × (Int → Int → Int))),
       (d % 2 = 0 ∧ a % 2 = 0 ∧ b % 2 = 0 ∧ d + 2 ≤ s.cur.sregs ∧ a + 2 ≤ s.cur.sregs ∧ b + 2 ≤ s.cur.sregs →
         ∃ t, exec e.1 s = .next t ∧
           (if s.uguard h then
             s.wroteSPair t d (BitVec.ofInt 64 (e.2 (s.cur.spair a).toNat (s.cur.spair b).toNat))
            else s.onlyWentOn t 4)) ∧
       (d % 2 = 1 ∨ a % 2 = 1 ∨ b % 2 = 1 → exec e.1 s = .next (s.raiseWord .illegalReg))) ∧
  (∀ (s : State) (h : Hdr) (d a b : Nat), s.settled → s.uguard h = true → d < s.cur.sregs → a < s.cur.vregs →
     b < s.cur.sregs → s.cur.width = 16 ∨ s.cur.width = 32 ∨ s.cur.width = 64 →
     ∃ t, exec (.sreadl h d a b) s = .next t ∧
       s.wroteS t d 4 (s.cur.vraw a (s.cur.sreg b &&& BitVec.ofNat 32 (s.cur.width - 1)).toNat))

/-- R99-R103: the affine words, on the base modulo 2^64 and the stride modulo 2^32; the word of XSET, whose a names a pair: an odd a
takes ILLEGAL_REG. -/
def Obligations.AffineResults : Prop :=
  ∀ (s : State) (h : Hdr) (d a b : Nat) (i8 : BitVec 8), s.settled → s.uguard h = true →
    (a % 2 = 0 → a + 2 ≤ s.cur.sregs → b < s.cur.sregs →
      ∃ t, exec (.xset h d a b) s = .next t ∧ s.wroteX t d (s.cur.spair a) (s.cur.sreg b)) ∧
    (b < s.cur.sregs → ∃ t, exec (.xaddb h d b) s = .next t ∧
      s.wroteX t d (s.cur.xb.get d + BitVec.ofInt 64 (s.cur.sreg b).toInt) (s.cur.xs.get d)) ∧
    (∃ t, exec (.xaddbi h d i8) s = .next t ∧
      s.wroteX t d (s.cur.xb.get d + BitVec.ofInt 64 (16 * i8.toInt)) (s.cur.xs.get d)) ∧
    (b < s.cur.sregs → ∃ t, exec (.xstr h d b) s = .next t ∧ s.wroteX t d (s.cur.xb.get d) (s.cur.sreg b)) ∧
    (∃ t, exec (.xmuls h d i8) s = .next t ∧
      s.wroteX t d (s.cur.xb.get d) (BitVec.ofInt 32 ((s.cur.xs.get d).toInt * i8.toInt))) ∧
    (∃ t, exec (.xadd h d a b) s = .next t ∧
      s.wroteX t d (s.cur.xb.get a + s.cur.xb.get b) (s.cur.xs.get a + s.cur.xs.get b)) ∧
    (d % 2 = 0 → d + 2 ≤ s.cur.sregs → ∃ t, exec (.xget h d a .base) s = .next t ∧ s.wroteSPair t d (s.cur.xb.get a)) ∧
    (d < s.cur.sregs → ∃ t, exec (.xget h d a .stride) s = .next t ∧ s.wroteS t d 4 (s.cur.xs.get a)) ∧
    ((Instr.xset h d a b).wf = true → d < 16 ∧ ∃ w, encode (.xset h d a b) = [w] ∧ fld w 31 1 = 1 ∧ fld w 20 7 = 0x10 ∧
      fld w 14 6 = d ∧ fld w 8 6 = a ∧ fld w 2 6 = b ∧ fld w 0 2 = 0) ∧
    (a % 2 = 1 → exec (.xset h d a b) s = .next (s.raiseWord .illegalReg))

/-- R110, R111 and R113: the uniform compares and the uniform-predicate words. R112: QANY.ANY, .ALL and .NONE of p(a) over the lanes
of the issue set, and no lane outside it. -/
def Obligations.UniformPredicateResults : Prop :=
  (∀ (s : State) (h : Hdr) (d a b : Nat), s.settled → s.uguard h = true → d < 16 →
     (a < s.cur.sregs → b < s.cur.sregs →
       ∀ e ∈ ([(.scmpeq h d a b, fun x y => decide (x = y)), (.scmpne h d a b, fun x y => decide (x ≠ y)),
               (.scmplt h d a b, fun x y => decide (x < y)), (.scmple h d a b, fun x y => decide (x ≤ y))] :
             List ((SCmpK → Instr) × (Int → Int → Bool))),
         (∃ t, exec (e.1 .i32) s = .next t ∧ s.wroteQ t d (e.2 (s.cur.sreg a).toInt (s.cur.sreg b).toInt)) ∧
         (∃ t, exec (e.1 .u32) s = .next t ∧ s.wroteQ t d (e.2 (s.cur.sreg a).toNat (s.cur.sreg b).toNat)) ∧
         (a % 2 = 0 → b % 2 = 0 → a + 2 ≤ s.cur.sregs → b + 2 ≤ s.cur.sregs →
           ∃ t, exec (e.1 .u64) s = .next t ∧ s.wroteQ t d (e.2 (s.cur.spair a).toNat (s.cur.spair b).toNat))) ∧
     (∀ e ∈ ([(.qlog h d a b .and, s.cur.qbit a && s.cur.qbit b), (.qlog h d a b .or, s.cur.qbit a || s.cur.qbit b),
              (.qlog h d a b .xor, s.cur.qbit a != s.cur.qbit b), (.qlog h d a b .andn, s.cur.qbit a && !(s.cur.qbit b)),
              (.qmov h d a .cpy, s.cur.qbit a), (.qmov h d a .not, !(s.cur.qbit a)),
              (.qmov h d a .set, true), (.qmov h d a .clr, false)] : List (Instr × Bool)),
         ∃ t, exec e.1 s = .next t ∧ s.wroteQ t d e.2)) ∧
  (∀ (s : State) (h : Hdr) (d a : Nat), s.settled → s.uguard h = true → d < 16 →
     ∀ e ∈ ([(.any, fun k _ => decide (0 < k)), (.all, fun k n => decide (k = n)), (.none, fun k _ => decide (k = 0))] :
           List (AnyK × (Nat → Nat → Bool))),
       ∃ t, exec (.qany h d a e.1) s = .next t ∧
         s.wroteQ t d (e.2 (Mask.card (s.cur.iss &&& s.cur.p.get a)) (Mask.card s.cur.iss)))

/-- R174, R175, R177, R178, with R157 and R158: the lane exchanges. A permute reads v(a) of the source lane the entry names, active or
not; VBALLOT gathers p(a) over the active lanes; VAFF and VBCAST copy an affine value and a uniform register. -/
def Obligations.LaneExchangeResults : Prop :=
  ∀ (s : State) (h : Hdr) (d a b n : Nat), s.settled → s.cur.width = 16 ∨ s.cur.width = 32 ∨ s.cur.width = 64 → n < s.cur.width →
    (∀ l, (s.active h).has l = true → l < s.cur.width) →
    (d < s.cur.vregs → a < s.cur.vregs → b < s.cur.vregs →
      (∃ t, exec (.vshfl h d a b) s = .next t ∧ s.wroteV t (s.active h) d 4
        (fun l => s.cur.vraw a ((s.cur.vraw b l).toNat % s.cur.width))) ∧
      (∃ t, exec (.vshflx h d a n) s = .next t ∧ s.wroteV t (s.active h) d 4
        (fun l => s.cur.vraw a ((l ^^^ n) % s.cur.width))) ∧
      (∃ t, exec (.vshflu h d a n) s = .next t ∧ s.wroteV t (s.active h) d 4
        (fun l => s.cur.vraw a (if n ≤ l then l - n else l))) ∧
      (∃ t, exec (.vshfld h d a n) s = .next t ∧ s.wroteV t (s.active h) d 4
        (fun l => s.cur.vraw a (if l + n < s.cur.width then l + n else l)))) ∧
    (d < s.cur.vregs → ∃ t, exec (.vaff h d a) s = .next t ∧ s.wroteV t (s.active h) d 4
      (fun l => BitVec.ofInt 32 ((s.cur.xb.get a).toNat + (l : Int) * (s.cur.xs.get a).toInt))) ∧
    (d < s.cur.vregs → a < s.cur.sregs → ∃ t, exec (.vbcast h d a) s = .next t ∧
      s.wroteV t (s.active h) d 4 (fun _ => s.cur.sreg a)) ∧
    (s.cur.width ≠ 64 → d < s.cur.sregs → ∃ t, exec (.vballot h d a) s = .next t ∧
      (if s.active h = 0 then s.onlyWentOn t 4
       else s.wroteS t d 4 ((s.active h &&& s.cur.p.get a).setWidth 32))) ∧
    (s.cur.width = 64 → d % 2 = 0 → d + 2 ≤ s.cur.sregs → ∃ t, exec (.vballot h d a) s = .next t ∧
      (if s.active h = 0 then s.onlyWentOn t 4 else s.wroteSPair t d (s.active h &&& s.cur.p.get a)))

/-- R176: VRED over the active lanes: ADD.I32 the sum modulo 2^32, MIN.I32 and MAX.I32 the least and the greatest active value; with
no active lane the destination keeps its value. R176: VRED.ADD.F32 sums along the fixed tree over all lanes of the group, −0.0
standing for the lanes that are not active, and sets the flags of its additions. -/
def Obligations.ReductionResults : Prop :=
  (∀ (s : State) (h : Hdr) (d a : Nat), s.settled → s.cur.width = 16 ∨ s.cur.width = 32 ∨ s.cur.width = 64 →
     (∀ l, (s.active h).has l = true → l < s.cur.width) → d < s.cur.sregs → a < s.cur.vregs →
     (s.active h = 0 → ∀ k, ∃ t, exec (.vred h d a k) s = .next t ∧ s.onlyWentOn t 4) ∧
     (s.active h ≠ 0 →
       (∃ t, exec (.vred h d a .addI32) s = .next t ∧
         s.wroteS t d 4 (BitVec.ofNat 32 ((s.active h).lanes.map (fun l => (s.cur.vraw a l).toNat)).sum)) ∧
       (∃ t x, exec (.vred h d a .minI32) s = .next t ∧ s.wroteS t d 4 x ∧
         (∃ l ∈ (s.active h).lanes, x = s.cur.vraw a l) ∧ ∀ l ∈ (s.active h).lanes, x.toInt ≤ (s.cur.vraw a l).toInt) ∧
       (∃ t x, exec (.vred h d a .maxI32) s = .next t ∧ s.wroteS t d 4 x ∧
         (∃ l ∈ (s.active h).lanes, x = s.cur.vraw a l) ∧ ∀ l ∈ (s.active h).lanes, (s.cur.vraw a l).toInt ≤ x.toInt))) ∧
  (∀ (s : State) (h : Hdr) (d a : Nat), s.settled → s.cur.width = 16 ∨ s.cur.width = 32 ∨ s.cur.width = 64 →
     d < s.cur.sregs → a < s.cur.vregs → s.active h ≠ 0 →
     ∃ t, exec (.vred h d a .addF32) s = .next t ∧
       (let r := treeFold (fun x y => ((f32Add s.cur.rm x.1 y.1).1, x.2 ||| y.2 ||| (f32Add s.cur.rm x.1 y.1).2))
         (fun l => (if (s.active h).has l then s.cur.vraw a l else 0x80000000, (0 : Flags))) s.cur.width.log2 0
        t.cur.sreg d = r.1 ∧ (∀ q, q ≠ d → t.cur.sreg q = s.cur.sreg q) ∧ s.wentOn t 4 ∧
        t = { s with cur := { s.cur with s := t.cur.s, pc := t.cur.pc, fstat := s.cur.fstat ||| r.2 } }))

/-- R159-R161, R156: the float words on elements, in every kind. `op K x y z` is the code and the flags of the element operation on
codes of kind K: one rounding in the FRM mode to the element's format. The packed kinds work on the halves apart, and FSTAT
collects the flags of the active lanes. -/
def Obligations.FloatElementResults : Prop :=
  ∀ (s : State) (h : Hdr) (d a b : Nat) (k : FmtK), s.settled → d < s.cur.vregs → a < s.cur.vregs → b < s.cur.vregs →
    ∀ e ∈ ([(.vfadd h d a b k, fun K x y _ => deliverF K s.cur.rm (addX s.cur.rm (decodeF K x) (decodeF K y))),
            (.vfsub h d a b k, fun K x y _ => deliverF K s.cur.rm (addX s.cur.rm (decodeF K x) (decodeF K y).neg)),
            (.vfmul h d a b k, fun K x y _ => deliverF K s.cur.rm (mulX (decodeF K x) (decodeF K y))),
            (.vfma h d a b k, fun K x y z => deliverF K s.cur.rm (fmaX s.cur.rm (decodeF K x) (decodeF K y) (decodeF K z))),
            (.vfmin h d a b k, fun K x y _ => deliverF K s.cur.rm (minX (decodeF K x) (decodeF K y))),
            (.vfmax h d a b k, fun K x y _ => deliverF K s.cur.rm (maxX (decodeF K x) (decodeF K y))),
            (.vfabs h d a k, fun K x _ _ => (x % 2 ^ (K.width - 1), 0)),
            (.vfneg h d a k, fun K x _ _ => (x ^^^ 2 ^ (K.width - 1), 0)),
            (.vfrint h d a k, fun K x _ _ => deliverF K s.cur.rm (rintX s.cur.rm (decodeF K x))),
            (.vfcls h d a k, fun K x _ _ => (2 ^ classOf K x, 0))] :
          List (Instr × (FK → Nat → Nat → Nat → Nat × Flags))),
      ∃ t, exec e.1 s = .next t ∧
        (let r : Nat → Word × Flags := fun l =>
          let x := (s.cur.vraw a l).toNat
          let y := (s.cur.vraw b l).toNat
          let z := (s.cur.vraw d l).toNat
          if k = .f32 then (BitVec.ofNat 32 (e.2 .f32 x y z).1, (e.2 .f32 x y z).2)
          else
            let K : FK := if k = .f16x2 then .f16 else .bf16
            let lo := e.2 K (x % 65536) (y % 65536) (z % 65536)
            let hi := e.2 K (x / 65536) (y / 65536) (z / 65536)
            (BitVec.ofNat 32 (lo.1 + 65536 * hi.1), lo.2 ||| hi.2)
         s.wroteVF t (s.active h) d (fun l => (r l).1) (flagsOf (s.active h) (fun l => (r l).2)))

/-- R162, R164-R167, R171-R173: scaling, the conversions and the special functions, lane by lane, with the flags of the active lanes.
The value of each lane is the one the named function of Machine/Float.lean and FloatLane.lean gives. -/
def Obligations.FloatUnaryResults : Prop :=
  ∀ (s : State) (h : Hdr) (d a b : Nat) (dst src : CvtKind) (r : Rnd) (c6 : Cvt6K) (u : UpkhK),
    s.settled → d < s.cur.vregs → a < s.cur.vregs → b < s.cur.vregs →
    ∀ e ∈ ([(.vfscl h d a b, fun x y => toF32 s.cur.rm (scaleX (f32 x) y.toInt)),
            (.vcvt h d a dst src r, fun x _ => cvtWord dst src r x),
            (.vcvt6 h d a c6 r, fun x _ => cvt6Word c6 r x),
            (.vupkh h d a u, fun x _ => upkhWord u x),
            (.vpkh h d a b .f16x2, fun x y =>
              (BitVec.ofNat 32 ((cvt (f32 x) .f16 s.cur.rm false false).1 + 65536 * (cvt (f32 y) .f16 s.cur.rm false false).1),
               (cvt (f32 x) .f16 s.cur.rm false false).2 ||| (cvt (f32 y) .f16 s.cur.rm false false).2)),
            (.vpkh h d a b .bf16x2, fun x y =>
              (BitVec.ofNat 32 ((cvt (f32 x) .bf16 s.cur.rm false false).1 + 65536 * (cvt (f32 y) .bf16 s.cur.rm false false).1),
               (cvt (f32 x) .bf16 s.cur.rm false false).2 ||| (cvt (f32 y) .bf16 s.cur.rm false false).2)),
            (.vrcp h d a, fun x _ => toF32 s.cur.rm (divX (.fin false 1 0) (f32 x))),
            (.vrsq h d a, fun x _ => toF32 s.cur.rm (rsqX (f32 x))),
            (.vsqrt h d a, fun x _ => toF32 s.cur.rm (sqrtX (f32 x))),
            (.vexp2 h d a, fun x _ => toF32 s.cur.rm (exp2X (f32 x))),
            (.vlog2 h d a, fun x _ => toF32 s.cur.rm (log2X (f32 x))),
            (.vtanh h d a, fun x _ => toF32 s.cur.rm (tanhX (f32 x))),
            (.vdiv h d a b, fun x y => toF32 s.cur.rm (divX (f32 x) (f32 y)))] :
          List (Instr × (Word → Word → Word × Flags))),
      ∃ t, exec e.1 s = .next t ∧
        s.wroteVF t (s.active h) d (fun l => (e.2 (s.cur.vraw a l) (s.cur.vraw b l)).1)
          (flagsOf (s.active h) (fun l => (e.2 (s.cur.vraw a l) (s.cur.vraw b l)).2))

/-- R164: a conversion between the integer kinds, and of a float to one: a value outside the destination's range gives the nearer
bound and NV, a NaN gives 0 and NV. R137, R139: a number that the format holds is delivered as its own code, without a flag, in
every rounding mode. R138, R159: a NaN operand decides a sum or a product: the first NaN in the order a, b is delivered, quieted,
and NV is set if one of the two is signalling. -/
def Obligations.FloatCornerValues : Prop :=
  ((∀ (x : Word) (r : Rnd), cvtWord .u32 .i32 r x = if x.toInt < 0 then (0, fNV) else (x, 0)) ∧
   (∀ (x : Word) (r : Rnd), cvtWord .i32 .u32 r x = if 2147483647 < x.toNat then (0x7FFFFFFF, fNV) else (x, 0)) ∧
   (∀ (x : Word) (r : Rnd), (f32 x).isNan = true → cvtWord .i32 .f32 r x = (0, fNV) ∧ cvtWord .u32 .f32 r x = (0, fNV)) ∧
   (∀ r : Rnd, cvtWord .i32 .f32 r 0x7F800000 = (0x7FFFFFFF, fNV) ∧ cvtWord .i32 .f32 r 0xFF800000 = (0x80000000, fNV) ∧
     cvtWord .u32 .f32 r 0x7F800000 = (0xFFFFFFFF, fNV) ∧ cvtWord .u32 .f32 r 0xFF800000 = (0, fNV))) ∧
  (∀ (k : FK) (r : Rnd) (x : Nat), x < 2 ^ k.width → (decodeF k x).isNan = false → (decodeF k x).isInf = false →
     cvt (decodeF k x) k r false false = (x, 0)) ∧
  (∀ (r : Rnd) (x y : FVal), x.isNan = true ∨ y.isNan = true →
     (let first := if x.isNan then x else y
      let fl := if x.isSig || y.isSig then fNV else 0
      addX r x y = (first.quiet, fl) ∧ mulX x y = (first.quiet, fl)))

/-- R168-R170: the quantising words. With a float slot VQNT converts lane by lane and VDQNT converts back; with a B4 slot VQNT writes
the codes of the 32 elements of each block to v(d) and the scale bytes to s(n), and VDQNT reads them back. -/
def Obligations.QuantiserResults : Prop :=
  ∀ (s : State) (h : Hdr) (d a n f : Nat), s.settled → d < s.cur.vregs → a < s.cur.vregs → n < s.cur.sregs →
    (∀ k, (s.curGrid.slot f).kind = .flt k →
      (∃ t, exec (.vqnt h d a n f) s = .next t ∧
        s.wroteVF t (s.active h) d (fun l => BitVec.ofNat 32 (slotCvt (s.curGrid.slot f) k (s.cur.vraw a l)).1)
          (flagsOf (s.active h) (fun l => (slotCvt (s.curGrid.slot f) k (s.cur.vraw a l)).2))) ∧
      (k = .f32 → ∃ t, exec (.vdqnt h d a n f) s = .next t ∧ s.wroteVF t (s.active h) d (s.cur.vraw a) 0) ∧
      (k ≠ .f32 → ∃ t, exec (.vdqnt h d a n f) s = .next t ∧
        s.wroteVF t (s.active h) d (fun l => BitVec.ofNat 32 (cvt (decodeF k (s.cur.vraw a l).toNat) .f32 .rne false false).1)
          (flagsOf (s.active h) (fun l => (cvt (decodeF k (s.cur.vraw a l).toNat) .f32 .rne false false).2)))) ∧
    ((s.curGrid.slot f).kind = .b4 →
      (s.active h = 0 → ∃ t, exec (.vqnt h d a n f) s = .next t ∧ s.onlyWentOn t 4) ∧
      (s.active h ≠ 0 →
        ∃ t, exec (.vqnt h d a n f) s = .next t ∧
          (let q := fun k => quantise ((List.range 32).map (fun j => if (s.active h).has (32 * k + j) then s.cur.vraw a (32 * k + j) else 0))
            (s.curGrid.slot f).type (s.curGrid.slot f).nanSat
           (∀ l, l < 64 → t.cur.vraw d l =
             if (s.active h).has l then BitVec.ofNat 32 ((q (l / 32)).2.1.getD (l % 32) 0) else s.cur.vraw d l) ∧
           (∀ r l, r ≠ d → l < 64 → t.cur.vraw r l = s.cur.vraw r l) ∧
           t.cur.sreg n = BitVec.ofNat 32 ((q 0).1 + if s.cur.width = 64 then 256 * (q 1).1 else 0) ∧
           (∀ r, r ≠ n → t.cur.sreg r = s.cur.sreg r) ∧ s.wentOn t 4 ∧
           t = { s with cur := { s.cur with v := t.cur.v, s := t.cur.s, pc := t.cur.pc
                                            fstat := s.cur.fstat ||| ((q 0).2.2 ||| if s.cur.width = 64 then (q 1).2.2 else 0) } })) ∧
      (∃ t, exec (.vdqnt h d a n f) s = .next t ∧
        s.wroteVF t (s.active h) d (fun l => BitVec.ofNat 32 (cvt (b4Elem ((s.cur.sreg n).toNat / 2 ^ (8 * (l / 32)) % 256)
          ((s.cur.vraw a l).toNat % 16)) .f32 .rne false false).1) 0))

/-- R250, R253 with R29 for a lookahead of 0: each active lane reads the bytes at its address, little-endian and zero-extended, into
v(d) (8 bytes into the even pair). No byte of memory changes. R254: VLDN reads field t of the block at A[32k] into lane 32k + t.
R251: VLDNF writes the data and sets p(d) in each active lane whose access is performed. R251, R248: VLDNF of an absent page
raises nothing: the lane's data is 0 and its flag is clear. -/
def Obligations.LoadResults : Prop :=
  (∀ (s : State) (h : Hdr) (d : Nat) (a : Adr) (x o : Nat) (k : MemK) (c : Hint) (key : Nat → Nat), s.settled →
     ∀ e ∈ ([(.vld h d a 0 k c, s.cur.adrOk a, memBytes k, s.addrM a),
             (.vldxW h d x o 0, s.cur.vOk o 1, 4, s.addrMX x o),
             (.vldxD h d x o 0, s.cur.vOk o 1, 8, s.addrMX x o)] : List (Instr × Bool × Nat × (Nat → DWord))),
       e.2.1 = true → d + (e.2.2.1 + 3) / 4 ≤ s.cur.vregs → (e.2.2.1 = 8 → d % 2 = 0) →
       s.reaches h .read e.2.2.1 e.2.2.1 none e.2.2.2 key →
       ∃ t, exec e.1 s = .next t ∧
         s.loaded2 t (s.active h) key d ((e.2.2.1 + 3) / 4) (fun l => leNat (Memory.bytes s.mem (key l) e.2.2.1))) ∧
  (∀ (s : State) (h : Hdr) (d : Nat) (a : Adr) (k : PackK) (c : Hint) (key : Nat → Nat), s.settled → s.cur.adrOk a = true →
     d < s.cur.vregs → (∀ l, (s.active h).has l = true → crossVa (s.addrM a (l / 32 * 32)) (packBytes k) = none) →
     s.reaches h .read (packAlign k) (packBytes k) none (fun l => s.addrM a (l / 32 * 32)) key →
     ∃ t, exec (.vldn h d a 0 k c) s = .next t ∧
       s.loaded2 t (s.active h) key d 1 (fun l => leNat (Memory.bytes s.mem (key l) (packBytes k)) /
         2 ^ (packBits k * (l % 32)) % 2 ^ packBits k)) ∧
  (∀ (s : State) (h : Hdr) (d : Nat) (a : Adr) (k : MemK) (c : Hint) (key : Nat → Nat), s.settled → s.cur.adrOk a = true →
     d + (memBytes k + 3) / 4 ≤ s.cur.vregs → (k = .w64 → d % 2 = 0) →
     s.reaches h .read (memBytes k) (memBytes k) none (s.addrM a) key →
     ∃ t, exec (.vldnf h d a 0 k c) s = .next t ∧
       (∀ j l, j < (memBytes k + 3) / 4 → l < 64 → t.cur.vraw (d + j) l = if (s.active h).has l then
         BitVec.ofNat 32 (leNat (Memory.bytes s.mem (key l) (memBytes k)) / 2 ^ (32 * j)) else s.cur.vraw (d + j) l) ∧
       (∀ r l, r < d ∨ d + (memBytes k + 3) / 4 ≤ r → l < 64 → t.cur.vraw r l = s.cur.vraw r l) ∧
       (∀ l, l < 64 → Mask.has (t.cur.p.get d) l = ((s.active h).has l || Mask.has (s.cur.p.get d) l)) ∧
       (∀ r, r ≠ d → t.cur.p.get r = s.cur.p.get r) ∧ s.wentOn t 4 ∧ s.onlyTraffic t (s.active h) key ∧ s.awaits t (s.active h) ∧
       t = { s with cur := { s.cur with v := t.cur.v, p := t.cur.p, pc := t.cur.pc, await := t.cur.await }, owners := t.owners
                    portKeys := t.portKeys, flows := t.flows }) ∧
  (∀ (s : State) (h : Hdr) (d : Nat) (a : Adr) (k : MemK) (c : Hint), s.settled → s.cur.hlv = false → s.cur.adrOk a = true →
     d + (memBytes k + 3) / 4 ≤ s.cur.vregs → (k = .w64 → d % 2 = 0) →
     (∀ l, (s.active h).has l = true → s.classify .read (memBytes k) none (s.addrM a l) = .page) →
     ∃ t, exec (.vldnf h d a 0 k c) s = .next t ∧
       (∀ j l, j < (memBytes k + 3) / 4 → (s.active h).has l = true → t.cur.vraw (d + j) l = 0 ∧ Mask.has (t.cur.p.get d) l = false) ∧
       s.wentOn t 4 ∧ s.awaits t (s.active h) ∧
       t = { s with cur := { s.cur with v := t.cur.v, p := t.cur.p, pc := t.cur.pc, await := t.cur.await } })

/-- R29-R31: with a lookahead of L > 0 a load moves the lanes on with v(d) as it was; the result is outstanding with L instructions
left. A result with more than one instruction left counts one that its lane completes; with one left it then reaches the register,
if it is none of the host, whose completion may still fail (22 R390). R298 of chapter 17: the data of a VLDF stays outstanding,
marked as data that a frame row may take; when the next word is known to be no VSUSP with wake kind 1 it is a VLD.W32. -/
def Obligations.LookaheadResults : Prop :=
  (∀ (s : State) (h : Hdr) (d l0 : Nat) (a : Adr) (c : Hint) (key : Nat → Nat), s.settled → 0 < l0 → s.cur.adrOk a = true →
     d < s.cur.vregs → s.reaches h .read 4 4 none (s.addrM a) key →
     ∃ t, exec (.vld h d a l0 .w32 c) s = .next t ∧ t.cur.v = s.cur.v ∧ s.wentOn t 4 ∧ t.mem = s.mem ∧
       ∀ l, (s.active h).has l = true → ∃ e ∈ t.cur.outst, e.lane = l ∧ e.reg = d ∧ e.isPred = false ∧ e.left = l0 ∧
         e.clob = false ∧ e.data = BitVec.ofNat 32 (leNat (Memory.bytes s.mem (key l) 4))) ∧
  (∀ (ctr : Nat) (g : Group) (m : Mask) (e : OutRes), g.outst = [e] → e.isPred = false → e.clob = false → e.frame = false →
     m.has e.lane = true → e.lane < 64 →
     (1 < e.left → (g.complete ctr m).outst = [{ e with left := e.left - 1 }] ∧ (g.complete ctr m).v = g.v) ∧
     (e.left ≤ 1 → e.path ≠ 2 → (g.complete ctr m).outst = [] ∧ (g.complete ctr m).vraw e.reg e.lane = e.data)) ∧
  (∀ (s : State) (h : Hdr) (d l0 : Nat) (a : Adr) (c : Hint) (key : Nat → Nat), s.settled → s.cur.adrOk a = true → d < s.cur.vregs →
     s.reaches h .read 4 4 none (s.addrM a) key →
     (s.suspAt (s.cur.ipc + 4) = some false → exec (.vldf h d a l0 c) s = exec (.vld h d a l0 .w32 c) s) ∧
     (s.suspAt (s.cur.ipc + 4) ≠ some false → ∃ t, exec (.vldf h d a l0 c) s = .next t ∧ t.cur.v = s.cur.v ∧ s.wentOn t 4 ∧ t.mem = s.mem ∧
       ∀ l, (s.active h).has l = true → ∃ e ∈ t.cur.outst, e.lane = l ∧ e.reg = d ∧ e.frame = true ∧ e.left = l0 ∧
         e.pc = s.cur.ipc ∧ e.addr = s.addrM a l ∧ e.data = BitVec.ofNat 32 (leNat (Memory.bytes s.mem (key l) 4))))

/-- R252, R253, R249: a store writes the low bytes of v(d) (8 bytes of the pair) at each active lane's address; where lanes overlap
the highest lane's bytes remain; every byte that no active lane covers keeps its value. R254: VSTN writes the whole block of each
32 lanes that has an active lane, with 0 in the fields of the lanes that are not active. Here one block is active and it crosses
no page. -/
def Obligations.StoreResults : Prop :=
  (∀ (s : State) (h : Hdr) (d : Nat) (a : Adr) (x o l0 : Nat) (k : MemK) (c : Hint) (key : Nat → Nat), s.settled →
     ∀ e ∈ ([(.vst h d a l0 k c, s.cur.adrOk a, memBytes k, s.addrM a),
             (.vstxW h d x o l0, s.cur.vOk o 1, 4, s.addrMX x o),
             (.vstxD h d x o l0, s.cur.vOk o 1, 8, s.addrMX x o)] : List (Instr × Bool × Nat × (Nat → DWord))),
       e.2.1 = true → d + (e.2.2.1 + 3) / 4 ≤ s.cur.vregs → (e.2.2.1 = 8 → d % 2 = 0) →
       s.cur.hlv = false →
       (∀ l, (s.active h).has l = true → s.classify .write e.2.2.1 none (e.2.2.2 l) = .ok (key l) ∧ s.writable (key l)) →
       ∃ t, exec e.1 s = .next t ∧ s.storedOnly t (s.active h) key ∧
         (∀ l j, (s.active h).has l = true → j < e.2.2.1 →
           (∀ l', l < l' → (s.active h).has l' = true → ¬ (key l' ≤ key l + j ∧ key l + j < key l' + e.2.2.1)) →
           t.mem.get (key l + j) = BitVec.ofNat 8 ((s.cur.vraw (d + j / 4) l).toNat / 256 ^ (j % 4))) ∧
         (∀ b, (∀ l, (s.active h).has l = true → ¬ (key l ≤ b ∧ b < key l + e.2.2.1)) → t.mem.get b = s.mem.get b)) ∧
  (∀ (s : State) (h : Hdr) (d l0 b : Nat) (a : Adr) (k : PackK) (c : Hint) (key : Nat), s.settled → s.cur.hlv = false →
     s.cur.adrOk a = true → d < s.cur.vregs → b < 2 → s.active h ≠ 0 →
     (∀ l, (s.active h).has l = true → l / 32 = b) → crossVa (s.addrM a (32 * b)) (packBytes k) = none →
     s.classify .write (packAlign k) none (s.addrM a (32 * b)) = .ok key → s.writable key →
     ∃ t, exec (.vstn h d a l0 k c) s = .next t ∧ s.storedOnly t (s.active h) (fun _ => key) ∧
       (∀ f, f < 32 → leNat (Memory.bytes t.mem key (packBytes k)) / 2 ^ (packBits k * f) % 2 ^ packBits k =
         if (s.active h).has (32 * b + f) then (s.cur.vraw d (32 * b + f)).toNat % 2 ^ packBits k else 0) ∧
       (∀ j, j < key ∨ key + packBytes k ≤ j → t.mem.get j = s.mem.get j))

/-- R255-R259: an atomic on locations that do not overlap: each active lane's location takes the new value computed from the value it
held, and the lane receives that old value. A VCAS whose compare fails writes nothing. That a page with W and without R lets an
atomic complete is the model's choice (log entry 37). R255, R256: lanes of one VATADD.I32 that name one location are each applied
once: whatever the order, the location ends as its old value plus the sum of the operands modulo 2^32. -/
def Obligations.AtomicResults : Prop :=
  (∀ (s : State) (h : Hdr) (d : Nat) (a : Adr) (c : Hint) (key : Nat → Nat), s.settled → s.cur.adrOk a = true →
     ∀ e ∈ ([(.vatadd h d a 0 .i32 c, 4, true, 1, fun l m => (m + (s.cur.vraw d l).toNat) % 2 ^ 32),
             (.vatadd h d a 0 .u64 c, 8, true, 2, fun l m => (m + (s.cur.vraw d l).toNat + 2 ^ 32 * (s.cur.vraw (d + 1) l).toNat) % 2 ^ 64),
             (.vatadd h d a 0 .f32 c, 4, false, 1, fun l m => (f32Add .rne (BitVec.ofNat 32 m) (s.cur.vraw d l)).1.toNat),
             (.vatmm h d a 0 .minI32 c, 4, false, 1, fun l m =>
               (BitVec.ofInt 32 (min (BitVec.ofNat 32 m).toInt (s.cur.vraw d l).toInt)).toNat),
             (.vatmm h d a 0 .maxI32 c, 4, false, 1, fun l m =>
               (BitVec.ofInt 32 (max (BitVec.ofNat 32 m).toInt (s.cur.vraw d l).toInt)).toNat),
             (.vatmm h d a 0 .maxF32 c, 4, false, 1, fun l m => (f32Max (BitVec.ofNat 32 m) (s.cur.vraw d l)).1.toNat),
             (.vatmm h d a 0 .minF32 c, 4, false, 1, fun l m => (f32Min (BitVec.ofNat 32 m) (s.cur.vraw d l)).1.toNat),
             (.vatbit h d a 0 .and c, 4, false, 1, fun l m => (BitVec.ofNat 32 m &&& s.cur.vraw d l).toNat),
             (.vatbit h d a 0 .or c, 4, false, 1, fun l m => (BitVec.ofNat 32 m ||| s.cur.vraw d l).toNat),
             (.vatbit h d a 0 .xor c, 4, false, 1, fun l m => (BitVec.ofNat 32 m ^^^ s.cur.vraw d l).toNat),
             (.vatbit h d a 0 .exch c, 4, true, 1, fun l _ => (s.cur.vraw d l).toNat),
             (.vcas h d a 0 .w32 c, 4, true, 2, fun l m => if m = (s.cur.vraw d l).toNat then (s.cur.vraw (d + 1) l).toNat else m),
             (.vcas h d a 0 .w64 c, 8, true, 4, fun l m =>
               if m = (s.cur.vraw d l).toNat + 2 ^ 32 * (s.cur.vraw (d + 1) l).toNat
               then (s.cur.vraw (d + 2) l).toNat + 2 ^ 32 * (s.cur.vraw (d + 3) l).toNat else m)] :
           List (Instr × Nat × Bool × Nat × (Nat → Nat → Nat))),
       d % e.2.2.2.1 = 0 → d + e.2.2.2.1 ≤ s.cur.vregs →
       s.reaches h .write e.2.1 e.2.1 (some (e.2.1, e.2.2.1)) (s.addrM a) key →
       (∀ l, (s.active h).has l = true → s.writable (key l)) →
       (∀ l l', (s.active h).has l = true → (s.active h).has l' = true → l ≠ l' → key l + e.2.1 ≤ key l' ∨ key l' + e.2.1 ≤ key l) →
       ∃ t, exec e.1 s = .next t ∧
         (∀ l, (s.active h).has l = true →
           leNat (Memory.bytes t.mem (key l) e.2.1) = e.2.2.2.2 l (leNat (Memory.bytes s.mem (key l) e.2.1)) ∧
           ∀ j, j < e.2.1 / 4 → t.cur.vraw (d + j) l = BitVec.ofNat 32 (leNat (Memory.bytes s.mem (key l) e.2.1) / 2 ^ (32 * j))) ∧
         (∀ b, (∀ l, (s.active h).has l = true → ¬ (key l ≤ b ∧ b < key l + e.2.1)) → t.mem.get b = s.mem.get b) ∧
         (∀ r l, l < 64 → r < d ∨ d + e.2.1 / 4 ≤ r ∨ (s.active h).has l = false → t.cur.vraw r l = s.cur.vraw r l) ∧
         s.wentOn t 4 ∧ s.onlyTraffic t (s.active h) key ∧ t.poison = s.poison ∧
         t.rackings.map (fun r => { r with marked := [] }) = s.rackings.map (fun r => { r with marked := [] }) ∧
         s.awaits t (s.active h) ∧
         t = { s with cur := { s.cur with v := t.cur.v, pc := t.cur.pc, await := t.cur.await }, owners := t.owners, mem := t.mem, stale := t.stale
                      versions := t.versions, rackings := t.rackings, portKeys := t.portKeys, flows := t.flows }) ∧
  (∀ (s : State) (h : Hdr) (d : Nat) (a : Adr) (c : Hint) (key : Nat), s.settled → s.cur.adrOk a = true → d < s.cur.vregs →
     s.reaches h .write 4 4 (some (4, true)) (s.addrM a) (fun _ => key) → s.writable key →
     ∃ t, exec (.vatadd h d a 0 .i32 c) s = .next t ∧
       leNat (Memory.bytes t.mem key 4) =
         (leNat (Memory.bytes s.mem key 4) + ((s.active h).lanes.map (fun l => (s.cur.vraw d l).toNat)).sum) % 2 ^ 32 ∧
       (∀ b, b < key ∨ key + 4 ≤ b → t.mem.get b = s.mem.get b))

/-- R115-R118: a branch, taken or not, sends each lane of the issue set to its target or to the next word, and changes nothing else;
the offset counts words from the branch. NOP only goes on (R126). R8-R10 of chapter 01: VJTAB sends each active lane to the entry
of the table its index names; where the index of every active lane is at or beyond the count, they take JTAB_RANGE (cause 5). -/
def Obligations.BranchResults : Prop :=
  (∀ (s : State) (h : Hdr) (off : BitVec 20) (a : Nat), s.settled →
     (∃ t, exec (.vbr h off) s = .next t ∧ s.moved t (fun l =>
       if (s.active h).has l then BitVec.ofInt 64 (s.cur.ipc.toInt + 4 * off.toInt) else s.cur.ipc + 4)) ∧
     (∃ t, exec (.bra h off) s = .next t ∧ s.moved t (fun l =>
       if s.uguard h then BitVec.ofInt 64 (s.cur.ipc.toInt + 4 * off.toInt) else s.cur.ipc + 4)) ∧
     (a % 2 = 0 → a + 2 ≤ s.cur.sregs → (s.uguard h = true → (s.cur.spair a).toNat % 4 = 0) →
       ∃ t, exec (.brx h a) s = .next t ∧ s.moved t (fun l => if s.uguard h then s.cur.spair a else s.cur.ipc + 4)) ∧
     (a % 2 = 0 → a + 2 ≤ s.cur.sregs → s.uguard h = true → (s.cur.spair a).toNat % 4 ≠ 0 → s.canTake .align →
       ∃ t, exec (.brx h a) s = .next t ∧ s.took t .align s.cur.ipc s.cur.iss) ∧
     (∃ t, exec (.nop h) s = .next t ∧ s.onlyWentOn t 4)) ∧
  (∀ (s : State) (h : Hdr) (a b : Nat) (key : Nat → Nat), s.settled → s.cur.hlv = false → a < s.cur.vregs → b + 3 ≤ s.cur.sregs →
     (pairW (s.cur.sreg (b + 1)) (s.cur.sreg b)).toNat % 8 = 0 →
     ((∀ l, (s.active h).has l = true → (s.cur.vraw a l).toNat < (s.cur.sreg (b + 2)).toNat ∧
         s.classify .read 8 none (pairW (s.cur.sreg (b + 1)) (s.cur.sreg b) + BitVec.ofNat 64 (8 * (s.cur.vraw a l).toNat)) = .ok (key l) ∧
         s.poisoned (key l) 8 = false ∧ leNat (Memory.bytes s.mem (key l) 8) % 4 = 0) →
       ∃ t, exec (.vjtab h a b) s = .next t ∧
         (∀ l, l < 64 → t.cur.pc.get l = if s.cur.iss.has l then
           (if (s.active h).has l then BitVec.ofNat 64 (leNat (Memory.bytes s.mem (key l) 8)) else s.cur.ipc + 4) else s.cur.pc.get l) ∧
         s.onlyTraffic t (s.active h) key ∧
         t = { s with cur := { s.cur with pc := t.cur.pc }, owners := t.owners, portKeys := t.portKeys, flows := t.flows }) ∧
     (s.active h ≠ 0 → s.canTake .jtabRange → (∀ l, (s.active h).has l = true → (s.cur.sreg (b + 2)).toNat ≤ (s.cur.vraw a l).toNat) →
       ∃ t, exec (.vjtab h a b) s = .next t ∧ t.cur.cause = 5 ∧ t.cur.tval = s.cur.ipc ∧ t.cur.tlane = s.active h ∧ t.cur.hl = s.active h ∧
         ∀ l, (s.active h).has l = true → t.cur.pc.get l = s.handlerOf s.cur.grid .jtabRange ∧ t.cur.savedPc.get l = s.cur.pc.get l))

/-- R119, R120: VCALL and VCALLX push the address of the next word on the call stack of each active lane and send it to the target;
VRET pops it. A lane of the issue set that is not active goes to the next word. R120, R121: where some lane of a call has 16
entries on its stack, or its target is misaligned, or some lane of a VRET has none, the word completes in part. Each other active
lane pushes and goes to its target (or pops and goes to its return address), each lane of the issue set that is not active goes to
the next word, and the lanes with the cause keep PC and stack: ILLEGAL_OP is taken by those with a full or an empty stack, else
ALIGN by those with a misaligned target. For the calls no call-stack pointer is above 16, which the three words keep from every
such state. Every call-stack pointer stays at most 16 through a call and a return, in every state. -/
def Obligations.CallAndReturnResults : Prop :=
  (∀ (s : State) (h : Hdr) (off : BitVec 20) (a : Nat), s.settled →
     (∀ e ∈ ([(.vcall h off, true, fun _ => BitVec.ofInt 64 (s.cur.ipc.toInt + 4 * off.toInt)),
              (.vcallx h a, a % 2 == 0 && decide (a + 2 ≤ s.cur.vregs), fun l => pairW (s.cur.vraw (a + 1) l) (s.cur.vraw a l))] :
           List (Instr × Bool × (Nat → DWord))),
       e.2.1 = true → (∀ l, (s.active h).has l = true → (s.cur.csp.get l).toNat < 16 ∧ (e.2.2 l).toNat % 4 = 0) →
       ∃ t, exec e.1 s = .next t ∧
         (∀ l, l < 64 → t.cur.pc.get l = if s.cur.iss.has l then (if (s.active h).has l then e.2.2 l else s.cur.ipc + 4) else s.cur.pc.get l) ∧
         (∀ l, l < 64 → t.cur.csp.get l = if (s.active h).has l then s.cur.csp.get l + 1 else s.cur.csp.get l) ∧
         (∀ l k, l < 64 → k < 16 → t.cur.cstk.get (16 * l + k) =
           if (s.active h).has l && k == (s.cur.csp.get l).toNat then s.cur.ipc + 4 else s.cur.cstk.get (16 * l + k)) ∧
         t = { s with cur := { s.cur with pc := t.cur.pc, csp := t.cur.csp, cstk := t.cur.cstk } }) ∧
     ((∀ l, (s.active h).has l = true → 0 < (s.cur.csp.get l).toNat) →
       ∃ t, exec (.vret h) s = .next t ∧
         (∀ l, l < 64 → t.cur.pc.get l = if s.cur.iss.has l then
           (if (s.active h).has l then s.cur.cstk.get (16 * l + ((s.cur.csp.get l).toNat - 1)) else s.cur.ipc + 4) else s.cur.pc.get l) ∧
         (∀ l, l < 64 → t.cur.csp.get l = if (s.active h).has l then s.cur.csp.get l - 1 else s.cur.csp.get l) ∧
         t = { s with cur := { s.cur with pc := t.cur.pc, csp := t.cur.csp } })) ∧
  (∀ (s : State) (h : Hdr) (off : BitVec 20) (a : Nat) (full mis : Mask), s.settled → s.canTake .illegalOp → s.canTake .align →
     full = laneSet (s.active h) (fun l => (s.cur.csp.get l).toNat == 16) →
     ((∀ l, (s.cur.csp.get l).toNat ≤ 16) → ∀ e ∈ ([(.vcall h off, true, fun _ => BitVec.ofInt 64 (s.cur.ipc.toInt + 4 * off.toInt)),
              (.vcallx h a, a % 2 == 0 && decide (a + 2 ≤ s.cur.vregs), fun l => pairW (s.cur.vraw (a + 1) l) (s.cur.vraw a l))] :
           List (Instr × Bool × (Nat → DWord))),
       e.2.1 = true → mis = laneSet (s.active h) (fun l => (s.cur.csp.get l).toNat != 16 && (e.2.2 l).toNat % 4 != 0) → full ||| mis ≠ 0 →
       ∃ t, exec e.1 s = .next t ∧ t.cur.hlv = true ∧ t.cur.tval = s.cur.ipc ∧ t.mem = s.mem ∧ t.cur.v = s.cur.v ∧
         t.cur.cause = (if full = 0 then 10 else 3) ∧ t.cur.tlane = (if full = 0 then mis else full) ∧ t.cur.hl = t.cur.tlane ∧
         (∀ l, l < 64 → t.cur.hl.has l = true → t.cur.savedPc.get l = s.cur.pc.get l ∧
           t.cur.pc.get l = s.handlerOf s.cur.grid (if full = 0 then .align else .illegalOp)) ∧
         (∀ l, l < 64 → t.cur.hl.has l = false → t.cur.pc.get l = if (s.cur.iss &&& ~~~(full ||| mis)).has l then
           (if (s.active h).has l then e.2.2 l else s.cur.ipc + 4) else s.cur.pc.get l) ∧
         (∀ l, l < 64 → t.cur.csp.get l = if (s.active h &&& ~~~(full ||| mis)).has l then s.cur.csp.get l + 1 else s.cur.csp.get l) ∧
         ∀ l k, l < 64 → k < 16 → t.cur.cstk.get (16 * l + k) =
           if (s.active h &&& ~~~(full ||| mis)).has l && k == (s.cur.csp.get l).toNat then s.cur.ipc + 4 else s.cur.cstk.get (16 * l + k)) ∧
     (∀ empty : Mask, empty = laneSet (s.active h) (fun l => s.cur.csp.get l == 0) → empty ≠ 0 →
       ∃ t, exec (.vret h) s = .next t ∧ t.cur.hlv = true ∧ t.cur.tval = s.cur.ipc ∧ t.mem = s.mem ∧ t.cur.v = s.cur.v ∧ t.cur.cause = 3 ∧
         t.cur.tlane = empty ∧ t.cur.hl = empty ∧ t.cur.cstk = s.cur.cstk ∧
         (∀ l, l < 64 → empty.has l = true → t.cur.savedPc.get l = s.cur.pc.get l ∧ t.cur.pc.get l = s.handlerOf s.cur.grid .illegalOp) ∧
         (∀ l, l < 64 → empty.has l = false → t.cur.pc.get l = if s.cur.iss.has l then
           (if (s.active h).has l then s.cur.cstk.get (16 * l + ((s.cur.csp.get l).toNat - 1)) else s.cur.ipc + 4) else s.cur.pc.get l) ∧
         ∀ l, l < 64 → t.cur.csp.get l = if (s.active h &&& ~~~empty).has l then s.cur.csp.get l - 1 else s.cur.csp.get l)) ∧
  (∀ (s t : State) (h : Hdr) (off : BitVec 20) (a : Nat), (∀ l, (s.cur.csp.get l).toNat ≤ 16) →
     (∃ i ∈ ([.vcall h off, .vcallx h a, .vret h] : List Instr), exec i s = .next t) → ∀ l, (t.cur.csp.get l).toNat ≤ 16)

/-- R22, R127: VYIELD yields its active lanes, unless every live lane would then be yielded, and goes on (that the live lanes it waits
for are those without its own active lanes is the model's reading, log entry 19: DEDUCED); WAITT puts the issue set to sleep at
the word until its deadline, or goes on when the deadline has come or its guard is off. R261: a fence goes on; when it acquires,
none of the issuing lanes' earlier loads on the paths it covers is outstanding afterwards (DRAM always). With nothing outstanding
it changes nothing else. -/
def Obligations.WaitAndFenceResults : Prop :=
  (∀ (s : State) (h : Hdr) (a : Nat), s.settled →
     (s.cur.yielded = 0 → s.cur.hlv = false → s.active h &&& ~~~s.cur.live = 0 →
       ∃ t, exec (.vyield h) s = .next t ∧ s.wentOn t 4 ∧
         t.cur.yielded = (if s.active h = s.cur.live then 0 else s.active h) ∧
         (∀ l, l < 64 → (s.active h).has l = true → t.cur.yrem.get l = s.cur.live &&& ~~~s.active h) ∧
         t = { s with cur := { s.cur with pc := t.cur.pc, yielded := t.cur.yielded, yrem := t.cur.yrem } }) ∧
     (a % 2 = 0 → a + 2 ≤ s.cur.sregs → s.uguard h = true → s.cyc.toNat < (s.cur.spair a).toNat →
       ∃ t, exec (.waitt h a) s = .next t ∧
         (∀ l, l < 64 → t.cur.deadline.get l = if s.cur.iss.has l then s.cur.spair a else s.cur.deadline.get l) ∧
         t = { s with cur := { s.cur with asleep := s.cur.asleep ||| s.cur.iss, deadline := t.cur.deadline } }) ∧
     (a % 2 = 0 → a + 2 ≤ s.cur.sregs → (s.uguard h = false ∨ (s.cur.spair a).toNat ≤ s.cyc.toNat) →
       ∃ t, exec (.waitt h a) s = .next t ∧ s.onlyWentOn t 4)) ∧
  (∀ (s : State) (h : Hdr) (p : PathMask) (k : FenceK) (sc : Scope),
     (s.settled → ∃ t, exec (.fence h p k sc) s = .next t ∧ s.onlyWentOn t 4) ∧
     (s.uguard h = true → k ≠ .rel →
       ∃ t, exec (.fence h p k sc) s = .next t ∧ s.wentOn t 4 ∧ t.mem = s.mem ∧
         ∀ e ∈ t.cur.outst, s.cur.iss.has e.lane = true → e.frame = false → e.path ≠ 0 ∧ (e.path = 1 → p.code % 2 = 0) ∧ (2 ≤ e.path → p.code < 4)))

/-- R128, R132: the lanes of BARG wait until every live lane has arrived, then all go on; at handler level BARG and BAR raise
ILLEGAL_OP, there a recursive fault. R129, R130: BAR records the arrival of the issue set at barrier `id`. While a live lane of
the team has not arrived, BAR waits and BAR.NOWAIT goes on; the last arrival clears the barrier and every waiting lane of a
resident group goes on. Groups of the team that are switched out count like the resident ones (19 R341). -/
def Obligations.BarrierResults : Prop :=
  (∀ (s : State) (h : Hdr), s.settled → s.cur.await = [] → s.uguard h = true →
     (s.cur.hlv = false → s.cur.live &&& ~~~(s.cur.barg ||| s.cur.iss) ≠ 0 →
       ∃ t, exec (.barg h) s = .next t ∧ t = { s with cur := { s.cur with barg := s.cur.barg ||| s.cur.iss } }) ∧
     (s.cur.hlv = false → s.cur.live &&& ~~~(s.cur.barg ||| s.cur.iss) = 0 → s.cur.iss ≠ 0 →
       ∃ t, exec (.barg h) s = .next t ∧
         (∀ l, l < 64 → t.cur.pc.get l = if (s.cur.barg ||| s.cur.iss).has l then s.cur.pc.get l + 4 else s.cur.pc.get l) ∧
         t = { s with cur := { s.cur with barg := 0, pc := t.cur.pc } }) ∧
     (s.cur.hlv = true → (s.ownerOf s.cur.owner).halt = none → (∃ o ∈ s.owners, o.id = s.cur.owner) →
       ∀ i ∈ ([.barg h, .bar h false 0, .bar h true 0] : List Instr),
         ∃ t, exec i s = .next t ∧ t.haltedWith s.cur.owner 1 3 s.cur.ipc s.cur.ipc ∧ t.cur.pc = s.cur.pc)) ∧
  (∀ (s : State) (h : Hdr) (nowait : Bool) (id : Nat) (tm : Team), s.settled → s.uguard h = true → s.cur.hlv = false → id < 16 →
     s.cur.gnum < 16 → s.cur.team ≠ 0 → s.teams = [tm] → tm.tid = s.cur.team →
     ((∃ g ∈ s.contextGroups, g.team = s.cur.team ∧ ∃ l, l < 64 ∧ g.live.has l = true ∧ Mask.has (tm.arrived.get (16 * id + g.gnum)) l = false ∧
         ¬(g.gnum = s.cur.gnum ∧ s.cur.iss.has l = true)) →
       ∃ t, exec (.bar h nowait id) s = .next t ∧
         (∀ b n, n < 16 → (t.teamOf tm.tid).arrived.get (16 * b + n) =
           if b = id ∧ n = s.cur.gnum then tm.arrived.get (16 * b + n) ||| s.cur.iss else tm.arrived.get (16 * b + n)) ∧
         (nowait = true → s.wentOn t 4 ∧ t.cur.barWait = s.cur.barWait) ∧
         (nowait = false → t.cur.pc = s.cur.pc ∧ t.cur.barWait.get id = s.cur.barWait.get id ||| s.cur.iss) ∧
         t.groups = s.groups ∧ t.mem = s.mem) ∧
     ((∀ g ∈ s.contextGroups, g.team = s.cur.team → ∀ l, l < 64 → g.live.has l = true →
         Mask.has (tm.arrived.get (16 * id + g.gnum)) l = true ∨ (g.gnum = s.cur.gnum ∧ s.cur.iss.has l = true)) →
       s.cur.barWait.get id &&& s.cur.iss = 0 → (∀ l, s.cur.iss.has l = true → s.cur.pc.get l = s.cur.ipc) →
       ∃ t, exec (.bar h nowait id) s = .next t ∧
         (∀ n, n < 16 → (t.teamOf tm.tid).arrived.get (16 * id + n) = 0) ∧ t.cur.barWait.get id = 0 ∧
         (∀ l, l < 64 → t.cur.pc.get l = if Mask.has (s.cur.barWait.get id ||| s.cur.iss) l then s.cur.pc.get l + 4 else s.cur.pc.get l) ∧
         t.groups.length = s.groups.length ∧
         ∀ (k : Nat) (g g' : Group), s.groups[k]? = some g → t.groups[k]? = some g' → g.team = s.cur.team → ∀ l, l < 64 →
           g'.pc.get l = if Mask.has (g.barWait.get id) l then g.pc.get l + 4 else g.pc.get l))

/-- R121-R124: the active lanes of VEXIT retire and the others go on; END retires every lane of the group. A lane that is guarded off,
and a group whose END is guarded off, goes on. -/
def Obligations.RetirementResults : Prop :=
  ∀ (s : State) (h : Hdr), s.settled →
    (s.active h = 0 → s.cur.await = [] → ∃ t, exec (.vexit h) s = .next t ∧ s.onlyWentOn t 4) ∧
    (s.uguard h = false → ∃ t, exec (.end_ h) s = .next t ∧ s.onlyWentOn t 4) ∧
    (s.active h ≠ 0 → ∃ t, exec (.vexit h) s = .next t ∧ t.cur.live = s.cur.live &&& ~~~s.active h ∧ t.mem = s.mem ∧ t.cur.v = s.cur.v ∧
      t.cur.s = s.cur.s ∧ t.cur.p = s.cur.p ∧
      ∀ l, l < 64 → s.cur.iss.has l = true → (s.active h).has l = false → s.cur.barg.has l = false →
        (∀ b, b < 16 → Mask.has (s.cur.barWait.get b) l = false) → t.cur.pc.get l = s.cur.ipc + 4) ∧
    (s.uguard h = true → ∃ t, exec (.end_ h) s = .next t ∧ t.cur.live = 0 ∧ t.cur.fbin = 0 ∧ t.cur.alive = false ∧ t.cur.inRun = false ∧
      t.mem = s.mem ∧ t.cur.trap = none)

/-- R47: a word that fails the encoding checks takes ILLEGAL_OP; a word of those listed, from each family, that names a register
outside the allocation takes ILLEGAL_REG. TVAL is the word's address and TLANE the issue set; no data register and no byte
changes. R316: a cause at handler level is a recursive fault: no lane moves, no register is written, and the owner is halted with
a record of kind 1. R11: without a table entry for the cause, the group is terminated, which its grid reports with CAUSE, TVAL and
TLANE. R247, R248: when every active lane of a VLD or a VST is misaligned and none runs on into a fenced bank, ALIGN (cause 10) is
taken with the address of the lowest in TVAL and the lanes in TLANE; they stand at the handler with their PCs saved, and no byte
and no vector register changes. -/
def Obligations.CausesAreTaken : Prop :=
  (∀ (s : State) (w : BitVec 32) (h : Hdr) (d a b : Nat) (i14 : BitVec 14) (c : Hint), s.settled →
     (s.canTake .illegalOp → ∃ t, exec (.reservedOpcode w) s = .next t ∧ s.took t .illegalOp s.cur.ipc s.cur.iss) ∧
     (s.canTake .illegalReg → s.cur.vregs ≤ d →
       ∀ i ∈ ([.vadd h d a b .i32, .vadd h a d b .i32, .vadd h a b d .i32, .vmovi h d i14, .vfadd h d a b .f32, .vcmplt h a d b .u32,
               .vld h d (.aff 0) 0 .w32 c, .vst h d (.aff 0) 0 .w32 c, .vcallx h d, .vspawn h a b d, .pgreq h a d] : List Instr),
         ∃ t, exec i s = .next t ∧ s.took t .illegalReg s.cur.ipc s.cur.iss) ∧
     (s.canTake .illegalReg → s.cur.sregs ≤ d →
       ∀ i ∈ ([.sadd h d a b .i32, .smovi h d i14, .slui h d i14, .smov h a d, .brx h d, .waitt h d, .halto h d, .tbind h a d,
               .csrr h d 0x001, .csrr h d 0x020, .framea h d, .cpy h d a, .launch h d a] : List Instr),
         ∃ t, exec i s = .next t ∧ s.took t .illegalReg s.cur.ipc s.cur.iss)) ∧
  (∀ (s : State) (w : BitVec 32), s.settled →
     (s.cur.hlv = true → (s.ownerOf s.cur.owner).halt = none → (∃ o ∈ s.owners, o.id = s.cur.owner) →
       ∃ t, exec (.reservedOpcode w) s = .next t ∧ t.haltedWith s.cur.owner 1 3 s.cur.ipc s.cur.ipc ∧
         t.cur.pc = s.cur.pc ∧ t.cur.v = s.cur.v ∧ t.cur.s = s.cur.s ∧ t.cur.cause = s.cur.cause ∧ t.cur.tval = s.cur.tval ∧
         t.cur.tlane = s.cur.tlane ∧ t.mem = s.mem ∧ t.cur.inRun = false) ∧
     (s.cur.hlv = false → s.handlerOf s.cur.grid .illegalOp = 0 → (∃ g ∈ s.grids, g.gid = s.cur.grid) →
       ∃ t, exec (.reservedOpcode w) s = .next t ∧ t.cur.live = 0 ∧ t.cur.alive = false ∧ (t.gridOf s.cur.grid).terminated = true ∧
         (t.gridOf s.cur.grid).ended = s.curGrid.ended ++ [⟨s.cur.gnum, 3, s.cur.ipc, s.cur.iss⟩] ∧ t.cur.cause = 3 ∧ t.cur.tval = s.cur.ipc ∧ t.mem = s.mem)) ∧
  (∀ (s : State) (h : Hdr) (d : Nat) (a : Adr) (k : MemK) (c : Hint), s.settled → s.cur.hlv = false → k ≠ .b8 →
     s.cur.adrOk a = true → d + (memBytes k + 3) / 4 ≤ s.cur.vregs → (k = .w64 → d % 2 = 0) → s.active h ≠ 0 →
     (∀ l, (s.active h).has l = true → s.classify .read (memBytes k) none (s.addrM a l) = .align ∧
       s.classify .write (memBytes k) none (s.addrM a l) = .align ∧ s.spills .read (s.addrM a l) (memBytes k) = false ∧
       s.spills .write (s.addrM a l) (memBytes k) = false) →
     s.handlerOf s.cur.grid .align ≠ 0 →
     ∀ i ∈ ([.vld h d a 0 k c, .vst h d a 0 k c] : List Instr),
       ∃ t, exec i s = .next t ∧ t.cur.cause = 10 ∧ t.cur.tval = s.addrM a (s.active h).low ∧ t.cur.tlane = s.active h ∧
         t.cur.hlv = true ∧ t.cur.hl = s.active h ∧ t.mem = s.mem ∧ t.cur.v = s.cur.v ∧
         ∀ l, (s.active h).has l = true → t.cur.pc.get l = s.handlerOf s.cur.grid .align ∧ t.cur.savedPc.get l = s.cur.pc.get l)

/-- R12 of chapter 01, R335, R358: HRET of an in-group handler releases the held lanes and sends the handler lanes back: to their
saved PCs, to the pair of uniform registers, or each to its own vector pair (the last two where no held lane is selected through
TLANE, and for lanes that wait at no barrier). A saved PC whose bits 1:0 are not zero is ALIGN at handler level, a recursive
fault. Outside handler level it takes ILLEGAL_OP. R314, R330, R335: the lanes of a handler group retire at their HRET; a lane that
serves a fault batch resumes the parked lanes its v2:v3 names and whose service no unwind has cancelled, where they parked or at
the uniform pair. -/
def Obligations.HandlerReturnResults : Prop :=
  (∀ (s : State) (h : Hdr) (a : Nat), s.settled → s.uguard h = true → (s.cur.kind = .team ∨ s.cur.kind = .bin) →
     (s.cur.hlv = true → s.cur.await = [] →
       (∀ l, (s.cur.iss.has l = true → (s.cur.savedPc.get l).toNat % 4 = 0) ∧ (s.hretSelected.has l = true → (s.cur.pc.get l).toNat % 4 = 0)) →
       ∃ t, exec (.hret h a .saved) s = .next t ∧
         (∀ l, l < 64 → t.cur.pc.get l = if s.cur.iss.has l then s.cur.savedPc.get l else s.cur.pc.get l) ∧
         t = { s with cur := { s.cur with pc := t.cur.pc, hlv := false, hl := 0, savedPc := [], inRun := false } }) ∧
     (s.cur.hlv = true → (s.ownerOf s.cur.owner).halt = none → (∃ o ∈ s.owners, o.id = s.cur.owner) →
       (∃ l, s.cur.iss.has l = true ∧ (s.cur.savedPc.get l).toNat % 4 ≠ 0) →
       ∃ t, exec (.hret h a .saved) s = .next t ∧ t.haltedWith s.cur.owner 1 3 s.cur.ipc s.cur.ipc ∧ t.cur.pc = s.cur.pc) ∧
     (s.cur.hlv = true → s.hretSelected = 0 → a % 2 = 0 → a + 2 ≤ s.cur.sregs → (s.cur.spair a).toNat % 4 = 0 →
       ∃ t, exec (.hret h a .uniform) s = .next t ∧ t.cur.hlv = false ∧ t.cur.hl = 0 ∧ t.cur.live = s.cur.live ∧ t.cur.v = s.cur.v ∧
         t.mem = s.mem ∧ ∀ l, l < 64 → s.cur.iss.has l = true → s.cur.barg.has l = false → (∀ b, b < 16 → Mask.has (s.cur.barWait.get b) l = false) →
           t.cur.pc.get l = s.cur.spair a) ∧
     (s.cur.hlv = true → s.hretSelected = 0 → a % 2 = 0 → a + 2 ≤ s.cur.vregs →
       (∀ l, s.cur.iss.has l = true → (pairW (s.cur.vraw (a + 1) l) (s.cur.vraw a l)).toNat % 4 = 0 ∧ (pairW (s.cur.vraw (a + 1) l) (s.cur.vraw a l)) ≠ 0) →
       ∃ t, exec (.hret h a .vector) s = .next t ∧ t.cur.hlv = false ∧ t.cur.hl = 0 ∧ t.cur.live = s.cur.live ∧ t.cur.v = s.cur.v ∧
         t.mem = s.mem ∧ ∀ l, l < 64 → s.cur.iss.has l = true → s.cur.barg.has l = false → (∀ b, b < 16 → Mask.has (s.cur.barWait.get b) l = false) →
           t.cur.pc.get l = pairW (s.cur.vraw (a + 1) l) (s.cur.vraw a l)) ∧
     (s.canTake .illegalOp → ∃ t, exec (.hret h a .saved) s = .next t ∧ s.took t .illegalOp s.cur.ipc s.cur.iss)) ∧
  (∀ (s : State) (h : Hdr) (a l : Nat) (v : Served) (g : Group), s.settled → s.uguard h = true → s.cur.hlv = true → s.cur.team = 0 → s.cur.fbin = 0 →
     (s.cur.kind = .walk ∨ s.cur.kind = .request ∨ s.cur.kind = .page) →
     (∃ t, exec (.hret h a .saved) s = .next t ∧ t.cur.live = s.cur.live &&& ~~~s.cur.iss ∧ t.mem = s.mem) ∧
     (s.cur.kind = .page → s.cur.iss = Mask.one l → l < 64 → s.cur.served = [v] → v.lane = l →
       s.groups = [g] → g.gid = v.gid → g.gid ≠ s.cur.gid → g.kind = .team → g.owner = s.cur.owner → a % 2 = 0 → a + 2 ≤ s.cur.sregs →
       (∃ t g', exec (.hret h a .saved) s = .next t ∧ t.groups = [g'] ∧ g'.pc = g.pc ∧
         g'.live = g.live ||| (pairW (s.cur.vraw 3 l) (s.cur.vraw 2 l) &&& ~~~v.cut &&& g.fbin) ∧
         g'.fbin = g.fbin &&& ~~~(pairW (s.cur.vraw 3 l) (s.cur.vraw 2 l) &&& ~~~v.cut &&& g.fbin)) ∧
       ((s.cur.spair a).toNat % 4 = 0 →
         ∃ t g', exec (.hret h a .uniform) s = .next t ∧ t.groups = [g'] ∧
           g'.live = g.live ||| (pairW (s.cur.vraw 3 l) (s.cur.vraw 2 l) &&& ~~~v.cut &&& g.fbin) ∧
           ∀ j, j < 64 → g'.pc.get j = if Mask.has (pairW (s.cur.vraw 3 l) (s.cur.vraw 2 l) &&& ~~~v.cut &&& g.fbin) j then s.cur.spair a else g.pc.get j)))

/-- R353-R356: TRAP gives the owner's ring a record with its code, its PC and s0-s7 and stops the group until the reply; HALTO halts
the owner with a record of kind 2 that holds its reason word. -/
def Obligations.TrapAndHalt : Prop :=
  ∀ (s : State) (h : Hdr) (code : BitVec 14) (a : Nat) (o : Owner), s.settled → s.uguard h = true → s.owners = [o] → o.id = s.cur.owner →
    (s.cur.hlv = false → s.cur.await = [] →
      ∃ t r, exec (.trap h code) s = .next t ∧ t.cur.trap = some (o.ringSeq, s.cur.iss) ∧ t.cur.pc = s.cur.pc ∧ t.cur.inRun = false ∧
        t.owners = [{ o with ringSeq := o.ringSeq + 1, ringWaiting := o.ringWaiting ++ [r] }] ∧ r.seq = o.ringSeq ∧ r.gid = some s.cur.gid ∧
        r.bytes.length = 64 ∧ leField r.bytes 0 2 = 1 ∧ leField r.bytes 2 2 = code.toNat ∧ leField r.bytes 16 8 = s.cur.ipc.toNat ∧
        (∀ k, k < 8 → leField r.bytes (32 + 4 * k) 4 = (s.cur.sreg k).toNat) ∧
        t = { s with cur := { s.cur with trap := t.cur.trap, inRun := false }, owners := t.owners }) ∧
    (o.halt = none → a < s.cur.sregs →
      ∃ t hr, exec (.halto h a) s = .next t ∧ (t.ownerOf s.cur.owner).halt = some hr ∧ hr.kind = 2 ∧ hr.reasonWord = s.cur.sreg a ∧
        hr.pc = s.cur.ipc ∧ hr.cyc = s.cyc ∧ t.cur.pc = s.cur.pc ∧ t.cur.inRun = false ∧ t.mem = s.mem) ∧
    (s.cur.hlv = true → o.halt = none →
      ∃ t, exec (.trap h code) s = .next t ∧ t.haltedWith s.cur.owner 1 3 s.cur.ipc s.cur.ipc)

/-- R337, R357: CBEGIN pushes its recovery address on the containment stack, up to four; CEND pops one. With four entries, or with
none, the word raises ILLEGAL_OP. R338: a load of poison inside a containment region unwinds, in a group of a team: the live lanes
continue at the recovery address of the innermost region, which is closed, with CAUSE 9, and the group stays at its level. -/
def Obligations.ContainmentResults : Prop :=
  (∀ (s : State) (h : Hdr) (off : BitVec 20), s.settled →
     (s.uguard h = true → s.cur.hlv = false → s.cur.cstack.length < 4 →
       ∃ t, exec (.cbegin h off) s = .next t ∧ s.wentOn t 4 ∧
         t = { s with cur := { s.cur with pc := t.cur.pc, cstack := s.cur.cstack ++ [BitVec.ofInt 64 (s.cur.ipc.toInt + 4 * off.toInt)] } }) ∧
     (s.uguard h = true → s.cur.hlv = false → s.cur.cstack ≠ [] →
       ∃ t, exec (.cend h) s = .next t ∧ s.wentOn t 4 ∧ t = { s with cur := { s.cur with pc := t.cur.pc, cstack := s.cur.cstack.dropLast } }) ∧
     (s.uguard h = false → ∀ i ∈ ([.cbegin h off, .cend h] : List Instr), ∃ t, exec i s = .next t ∧ s.onlyWentOn t 4) ∧
     (s.uguard h = true → s.canTake .illegalOp → 4 ≤ s.cur.cstack.length →
       ∃ t, exec (.cbegin h off) s = .next t ∧ s.took t .illegalOp s.cur.ipc s.cur.iss) ∧
     (s.uguard h = true → s.canTake .illegalOp → s.cur.cstack = [] →
       ∃ t, exec (.cend h) s = .next t ∧ s.took t .illegalOp s.cur.ipc s.cur.iss)) ∧
  (∀ (s : State) (h : Hdr) (d : Nat) (a : Adr) (c : Hint) (key : Nat → Nat) (top : DWord), s.settled → s.cur.hlv = false →
     s.cur.adrOk a = true → d < s.cur.vregs → s.active h ≠ 0 → s.cur.cstack ≠ [] → s.cur.cstack.getLast? = some top → s.cur.fbin = 0 →
     (∀ l, (s.active h).has l = true → s.classify .read 4 none (s.addrM a l) = .ok (key l) ∧
       s.poisoned (key l) 4 = true) →
     s.cur.barg = 0 → s.cur.barWait = [] → s.curTeam ∈ s.teams →
     ∃ t, exec (.vld h d a 0 .w32 c) s = .next t ∧ t.cur.cause = 9 ∧ t.cur.tval = s.addrM a (s.active h).low ∧ t.cur.tlane = s.active h ∧
       t.cur.hlv = false ∧ t.cur.cstack = s.cur.cstack.dropLast ∧ t.mem = s.mem ∧ t.cur.v = s.cur.v ∧
       ∀ l, l < 64 → s.cur.live.has l = true → t.cur.pc.get l = top)

/-- R366-R368: CSRR writes s(d) with FRM, FSTAT, GCTL, CAUSE, CEINJ, MXSTAT or OWNER, and a pair with TVAL, TLANE, CYC, GTMR, GTCMP,
HTAB or a stall counter; CSRW writes FRM, FSTAT, GCTL (which only clears TMP), CEINJ and, at every level, GTCMP, and at handler
level TLANE; the bits that FRM and FSTAT do not have stay 0. A write of TLANE outside handler level takes ILLEGAL_OP. -/
def Obligations.ControlRegisters : Prop :=
  ∀ (s : State) (h : Hdr) (d : Nat), s.settled → s.uguard h = true →
    (d < s.cur.sregs →
      ∀ e ∈ ([(0x001, s.cur.frm), (0x002, s.cur.fstat), (0x010, s.cur.cause), (0x0C8, s.cur.ceinj), (0x031, BitVec.ofNat 32 s.cur.owner),
              (0x003, BitVec.ofNat 32 (s.cur.gnum % 16 * 4096 + (if s.cur.width = 16 then 0 else if s.cur.width = 32 then 1 else 2) * 1024 + s.cur.prio % 4 * 256 +
                (if s.cur.kind = .bin then 8 else 0) + (if s.cur.hlv then 4 else 0) + (if s.cur.tmp then 2 else 0))),
              (0x0D0, (s.meOf s.cur.sp).stat)] : List (BitVec 12 × Word)),
        ∃ t, exec (.csrr h d e.1) s = .next t ∧ s.wroteS t d 4 e.2) ∧
    (d % 2 = 0 → d + 2 ≤ s.cur.sregs →
      ∀ e ∈ ([(0x011, s.cur.tval), (0x012, s.cur.tlane), (0x020, s.cyc), (0x021, s.cur.gtmr), (0x022, s.cur.gtcmp),
              (0x030, if s.curGrid.gid = 0 then s.curOwner.htab else s.curGrid.record.htab), (0x040, s.curOwner.stall.getD 0 0), (0x041, s.curOwner.stall.getD 1 0),
              (0x042, s.curOwner.stall.getD 2 0), (0x043, s.curOwner.stall.getD 3 0), (0x044, s.curOwner.stall.getD 4 0),
              (0x045, s.curOwner.stall.getD 5 0)] : List (BitVec 12 × DWord)),
        ∃ t, exec (.csrr h d e.1) s = .next t ∧ s.wroteSPair t d e.2) ∧
    (d < s.cur.sregs →
      ∀ e ∈ ([(0x001, fun g => { g with frm := BitVec.ofNat 32 ((s.cur.sreg d).toNat % 4) }),
              (0x002, fun g => { g with fstat := BitVec.ofNat 32 ((s.cur.sreg d).toNat % 64) }),
              (0x003, fun g => { g with tmp := s.cur.tmp && (s.cur.sreg d).getLsbD 1 }),
              (0x0C8, fun g => { g with ceinj := s.cur.sreg d })] : List (BitVec 12 × (Group → Group))),
        ∃ t, exec (.csrw h d e.1) s = .next t ∧ s.wentOn t 4 ∧ t = { s with cur := { (e.2 s.cur) with pc := t.cur.pc } }) ∧
    (d % 2 = 0 → d + 2 ≤ s.cur.sregs →
      ∃ t, exec (.csrw h d 0x022) s = .next t ∧ s.wentOn t 4 ∧
        t = { s with cur := { s.cur with gtcmp := s.cur.spair d, armed := decide (s.cur.gtmr.toNat < (s.cur.spair d).toNat), pc := t.cur.pc } }) ∧
    (d % 2 = 0 → d + 2 ≤ s.cur.sregs → s.cur.hlv = true →
      ∃ t, exec (.csrw h d 0x012) s = .next t ∧ s.wentOn t 4 ∧
        t = { s with cur := { s.cur with tlane := s.cur.spair d, pc := t.cur.pc } }) ∧
    (d % 2 = 0 → d + 2 ≤ s.cur.sregs → s.canTake .illegalOp →
      ∃ t, exec (.csrw h d 0x012) s = .next t ∧ s.took t .illegalOp s.cur.ipc s.cur.iss)

/-- R359: TLBW gives each lane of the issue set the status of its entry in v(d) and goes on, unless a page of an entry that it accepts
is migrating: 3 for an entry that is not valid, is pinned or migrating, has a reserved bit set or is a 2 MiB entry off its
boundary, else 5 for an address at or above the SRAM windows, else 4 for one that a pinned entry overlaps, else 2 for a frame that
the owner was not granted, else 0. Where every lane is refused, nothing else changes. R327-R329: the accepted entry of a single
lane, for a page whose miss is queued, is held by the core of that miss, and the misses it covers are gone. R360, R361: TLBI drops
the owner's entries for one page, or all, but for pinned ones, and waits while such a page is migrating. PGREQ goes on with its
flag in p(d): 0 for an address at or above the SRAM windows, 1 for a page that is resident; of a single lane with another page, a
request is queued and the flag is 1, or with the queue full and no entry of that page in it the flag is 0 and nothing is queued.
That a page which migrates counts as resident is the model's reading (log entry 21: DEDUCED). -/
def Obligations.TranslationResults : Prop :=
  (∀ (s : State) (h : Hdr) (d a : Nat) (w : Nat → EntryWord) (code : Nat → Nat), s.settled → s.uguard h = true → d < s.cur.vregs → a % 4 = 0 → a + 4 ≤ s.cur.vregs →
     (∀ l, w l = entryOf (s.cur.vraw a l) (s.cur.vraw (a + 1) l) (s.cur.vraw (a + 2) l) (s.cur.vraw (a + 3) l)) →
     (∀ l, code l =
       if (w l).valid = false ∨ (w l).e.pin = true ∨ (w l).e.st = .migrating ∨ (w l).reserved = true ∨
         ((w l).e.big = true ∧ ((w l).e.page % 32 ≠ 0 ∨ (w l).e.frame % 32 ≠ 0)) then 3
       else if sramBase ≤ (w l).va.toNat then 5
       else if s.curOwner.tlb.any (fun e => e.pin && e.overlaps (w l).e) = true then 4
       else if (w l).e.st ≠ .absent ∧ s.curOwner.granted (w l).e = false then 2 else 0) →
     (∀ l, s.cur.iss.has l = true → code l = 0 → s.migrating s.cur.owner (w l).e.page ((w l).e.page + (w l).e.span - 1) = false) →
     ∃ t, exec (.tlbw h d a) s = .next t ∧ s.wentOn t 4 ∧ t.mem = s.mem ∧
       (∀ l, l < 64 → t.cur.vraw d l = if s.cur.iss.has l then BitVec.ofNat 32 (code l) else s.cur.vraw d l) ∧
       (∀ r l, r ≠ d → l < 64 → t.cur.vraw r l = s.cur.vraw r l) ∧
       ((∀ l, s.cur.iss.has l = true → code l ≠ 0) → t = { s with cur := { s.cur with v := t.cur.v, pc := t.cur.pc } }) ∧
       ∀ l, l < 64 → s.cur.iss = Mask.one l → code l = 0 → (∃ o ∈ s.owners, o.id = s.cur.owner) → s.curCore < 256 →
         (∃ m ∈ s.curOwner.misses, m.request = false ∧ (w l).e.page ≤ m.page ∧ m.page < (w l).e.page + (w l).e.span ∧ s.curCore ∈ m.cores) →
         (∃ e ∈ t.curOwner.tlb, e.page = (w l).e.page ∧ e.frame = (w l).e.frame ∧ e.st = (w l).e.st ∧ e.big = (w l).e.big ∧ e.r = (w l).e.r ∧
           e.w = (w l).e.w ∧ e.x = (w l).e.x ∧ e.pin = false ∧ s.curCore ∈ e.cores) ∧
         ∀ m ∈ t.curOwner.misses, m.request = true ∨ m.page < (w l).e.page ∨ (w l).e.page + (w l).e.span ≤ m.page) ∧
  (∀ (s : State) (h : Hdr) (d a : Nat) (va : Nat → DWord), s.settled → s.uguard h = true → (∃ o ∈ s.owners, o.id = s.cur.owner) →
     (a % 2 = 0 → a + 2 ≤ s.cur.sregs →
       (s.migrating s.cur.owner ((s.cur.spair a).toNat / 65536) ((s.cur.spair a).toNat / 65536) = false →
         ∃ t, exec (.tlbi h a .one) s = .next t ∧ s.wentOn t 4 ∧ t.mem = s.mem ∧ t.cur = { s.cur with pc := t.cur.pc } ∧
           t.curOwner = { s.curOwner with tlb := s.curOwner.tlb.filter (fun e => e.pin ||
             !(decide (e.page ≤ (s.cur.spair a).toNat / 65536) && decide ((s.cur.spair a).toNat / 65536 < e.page + (if e.big then 32 else 1)))) }) ∧
       (s.migrating s.cur.owner ((s.cur.spair a).toNat / 65536) ((s.cur.spair a).toNat / 65536) = true →
         ∃ t, exec (.tlbi h a .one) s = .next t ∧ s.waits t (.racking ((s.cur.spair a).toNat / 65536) ((s.cur.spair a).toNat / 65536)))) ∧
     (s.migrating s.cur.owner 0 pageTop = false →
       ∃ t, exec (.tlbi h a .all) s = .next t ∧ s.wentOn t 4 ∧ t.mem = s.mem ∧ t.cur = { s.cur with pc := t.cur.pc } ∧
         t.curOwner = { s.curOwner with tlb := s.curOwner.tlb.filter (·.pin) }) ∧
     (s.migrating s.cur.owner 0 pageTop = true → ∃ t, exec (.tlbi h a .all) s = .next t ∧ s.waits t (.racking 0 pageTop)) ∧
     (a % 2 = 0 → a + 2 ≤ s.cur.vregs → (∀ l, va l = pairW (s.cur.vraw (a + 1) l) (s.cur.vraw a l)) →
       ∃ t, exec (.pgreq h d a) s = .next t ∧ s.wentOn t 4 ∧ t.mem = s.mem ∧ t.cur = { s.cur with p := t.cur.p, pc := t.cur.pc } ∧
         (∀ r, r ≠ d → t.cur.p.get r = s.cur.p.get r) ∧
         (∀ l, l < 64 → s.cur.iss.has l = false → Mask.has (t.cur.p.get d) l = Mask.has (s.cur.p.get d) l) ∧
         (∀ l, l < 64 → s.cur.iss.has l = true → sramBase ≤ (va l).toNat → Mask.has (t.cur.p.get d) l = false) ∧
         (∀ l, l < 64 → s.cur.iss.has l = true → (va l).toNat < sramBase → s.curOwner.resident ((va l).toNat / 65536) = true →
           Mask.has (t.cur.p.get d) l = true) ∧
         ((∀ l, s.cur.iss.has l = true → sramBase ≤ (va l).toNat ∨ s.curOwner.resident ((va l).toNat / 65536) = true) →
           t = { s with cur := { s.cur with p := t.cur.p, pc := t.cur.pc } }) ∧
         ∀ l, l < 64 → s.cur.iss = Mask.one l → (va l).toNat < sramBase → s.curOwner.resident ((va l).toNat / 65536) = false →
           (∀ m ∈ s.curOwner.misses, m.page ≠ (va l).toNat / 65536 ∨ m.request = false) →
           (s.curOwner.misses.length < 1024 → Mask.has (t.cur.p.get d) l = true ∧ ∃ m, t.curOwner.misses = s.curOwner.misses ++ [m] ∧
             m.request = true ∧ m.page = (va l).toNat / 65536 ∧ m.claimed = false) ∧
           (1024 ≤ s.curOwner.misses.length → Mask.has (t.cur.p.get d) l = false ∧ t.owners = s.owners)))

/-- R362-R365, R332, R333: FRAMEA takes the frame at the head of the allotment, status 1 when there is none. FRAMEF returns a frame
that is held, in no reserve, and that no entry names; DISCARD makes the resident pages of its range discarded; MEAS adds its range
to the measurement; MIGR begins a migration. Each refusal writes the first of its statuses that applies and changes nothing else.
A migration copies a round more while more than 8 lines are marked and fewer than 6 are done; else it makes writes wait; then,
with no line marked, it switches the page to the new frame with status 0. That the allotment is a list, taken from its head, is
the model's (log entry 15). -/
def Obligations.FrameResults : Prop :=
  ∀ (s : State) (h : Hdr) (d a b f : Nat) (rest : List Nat) (va n page : Nat), s.settled → s.uguard h = true → s.cur.hlv = false →
    (∃ o ∈ s.owners, o.id = s.cur.owner) → va = (s.cur.spair a).toNat → n = (s.cur.sreg b).toNat → page = va / 65536 →
    (d % 2 = 0 → d + 2 ≤ s.cur.sregs → s.curOwner.allotment = [] →
      ∃ t, exec (.framea h d) s = .next t ∧ s.wroteS t d 4 1) ∧
    (d % 2 = 0 → d + 2 ≤ s.cur.sregs → s.curOwner.allotment = f :: rest →
      ∃ t, exec (.framea h d) s = .next t ∧ t.cur.sreg d = 0 ∧ t.cur.sreg (d + 1) = BitVec.ofNat 32 f ∧ s.wentOn t 4 ∧ t.mem = s.mem ∧
        (∀ r, r ≠ d → r ≠ d + 1 → t.cur.sreg r = s.cur.sreg r) ∧
        t.curOwner = { s.curOwner with allotment := rest, held := s.curOwner.held ++ [f] }) ∧
    (d < s.cur.sregs → a < s.cur.sregs → f = (s.cur.sreg a).toNat →
      (∀ code : Nat, code = (if s.curOwner.reserve.any (fun r => r.2 == f) then 4 else if f ∉ s.curOwner.held then 10
          else if s.frameNamed s.cur.owner f false then 9 else 0) →
        (code ≠ 0 → ∃ t, exec (.framef h d a) s = .next t ∧ s.wroteS t d 4 (BitVec.ofNat 32 code)) ∧
        (code = 0 → s.frameLost (65536 * f) = false →
          ∃ t, exec (.framef h d a) s = .next t ∧ t.cur.sreg d = 0 ∧ s.wentOn t 4 ∧ t.mem = s.mem ∧
            t.curOwner.allotment = f :: s.curOwner.allotment ∧ t.curOwner.held = s.curOwner.held.filter (· != f)))) ∧
    (d < s.cur.sregs → a % 2 = 0 → a + 2 ≤ s.cur.sregs → b < s.cur.sregs →
      (∀ code : Nat, code = (if va % 65536 ≠ 0 then 12 else if sramBase ≤ va ∨ sramBase < va + 65536 * n then 5
          else if s.curOwner.tlb.any (fun e => e.pin && decide (0 < n) && decide (e.page < page + n) && decide (page < e.page + e.span)) then 4
          else if s.curOwner.tlb.any (fun e => e.big && decide (0 < n) && decide (e.page < page + n) && decide (page < e.page + e.span) &&
            !(decide (page ≤ e.page) && decide (e.page + 32 ≤ page + n))) then 6 else 0) →
        (code ≠ 0 → ∃ t, exec (.discard h d a b) s = .next t ∧ s.wroteS t d 4 (BitVec.ofNat 32 code)) ∧
        (code = 0 → (0 < n → s.migrating s.cur.owner page (page + n - 1) = false) →
          ∃ t, exec (.discard h d a b) s = .next t ∧ t.cur.sreg d = 0 ∧ s.wentOn t 4 ∧ t.mem = s.mem ∧
            t.curOwner.tlb = s.curOwner.tlb.map (fun x =>
              if 0 < n ∧ x.page < page + n ∧ page < x.page + x.span ∧ x.st = .resident then { x with st := .discarded } else x))) ∧
      (sramBase ≤ va ∨ sramBase < va + n → ∃ t, exec (.meas h d a b) s = .next t ∧ s.wroteS t d 4 5) ∧
      (va + n ≤ sramBase → va < sramBase → s.curGrid.gid = 0 ∨ 64 ≤ s.curGrid.meas.length →
        ∃ t, exec (.meas h d a b) s = .next t ∧ s.wroteS t d 4 11) ∧
      (s.curGrid.gid ≠ 0 → s.curGrid.gid = s.cur.grid → s.curGrid.meas.length < 64 → va + n ≤ sramBase → va < sramBase →
        ∃ t, exec (.meas h d a b) s = .next t ∧ t.cur.sreg d = 0 ∧ s.wentOn t 4 ∧ t.mem = s.mem ∧
          t.curGrid.meas = s.curGrid.meas ++ [(s.cur.spair a, n)]) ∧
      (s.slotFree s.cur.owner s.curCore = true →
        (va % 65536 ≠ 0 → ∃ t, exec (.migr h d a b) s = .next t ∧ s.wroteS t d 4 12) ∧
        (va % 65536 = 0 → sramBase ≤ va → ∃ t, exec (.migr h d a b) s = .next t ∧ s.wroteS t d 4 5) ∧
        (va % 65536 = 0 → va < sramBase →
          (s.curOwner.tlb.any (fun x => x.pin && x.coversPage page) = true → ∃ t, exec (.migr h d a b) s = .next t ∧ s.wroteS t d 4 4) ∧
          (s.curOwner.tlb.any (fun x => x.pin && x.coversPage page) = false →
            (s.migrating s.cur.owner page page = true → ∃ t, exec (.migr h d a b) s = .next t ∧ s.wroteS t d 4 8) ∧
            (s.migrating s.cur.owner page page = false →
              (s.curOwner.tlb.find? (fun x => !x.big && x.page == page && x.st == .resident) = none →
                ∃ t, exec (.migr h d a b) s = .next t ∧ s.wroteS t d 4 6) ∧
              ∀ e : Tlb, s.curOwner.tlb.find? (fun x => !x.big && x.page == page && x.st == .resident) = some e →
                ∀ code : Nat, code = (if s.curOwner.grants.any (fun x => x.shared && decide (x.first ≤ e.frame) && decide (e.frame < x.first + x.count)) then 7
                  else if n ∉ s.curOwner.held then 10 else if s.frameNamed s.cur.owner n true then 9 else 0) →
                (code ≠ 0 → ∃ t, exec (.migr h d a b) s = .next t ∧ s.wroteS t d 4 (BitVec.ofNat 32 code)) ∧
                (code = 0 → ∃ t r, exec (.migr h d a b) s = .next t ∧ s.wentOn t 4 ∧ t.rackings = s.rackings ++ [r] ∧ r.page = page ∧
                  r.newFrame = n ∧ r.oldFrame = e.frame ∧ r.dst = d ∧ r.frozen = false ∧ t.cur.s = s.cur.s ∧
                  (s.frameWaits s.cur.owner e.frame = false → r.marked = [] ∧ r.round = 1) ∧
                  ∀ x ∈ t.curOwner.tlb, x.big = false → x.page = page → x.st = .migrating)))))) ∧
    (∀ r : Racking, s.rackings = [r] → r.owner = s.cur.owner → r.page < 2 ^ 48 → s.curOwner.halt = none → s.frameWaits r.owner r.oldFrame = false →
      (r.frozen = false → 8 < r.marked.length ∧ r.round < 6 → ∃ t, exec (.rackingEnd r.owner (pageVa r.page)) s = .next t ∧ t.cur = s.cur ∧
        t.rackings = [{ r with marked := [], round := r.round + 1 }]) ∧
      (r.frozen = false → r.marked.length ≤ 8 ∨ 6 ≤ r.round → ∃ t, exec (.rackingEnd r.owner (pageVa r.page)) s = .next t ∧ t = { s with rackings := [{ r with frozen := true }] }) ∧
      (r.frozen = true → r.gid = s.cur.gid → r.marked = [] →
        ∃ t, exec (.rackingEnd r.owner (pageVa r.page)) s = .next t ∧ t.rackings = [] ∧ t.cur.sreg r.dst = 0 ∧ t.mem = s.mem ∧
          t.curOwner.tlb = s.curOwner.tlb.map (fun x => if x.st = .migrating ∧ x.big = false ∧ x.page = r.page
            then { x with st := .resident, frame := r.newFrame } else x)))

/-- R206, R207, R189, R190: TBIND and RBIND read a descriptor of 16 bytes and bind the tile or ring it describes, a ring with its
counters at 0, and go on. An address that is not aligned to 16, a descriptor that breaks the rules, a tile whose bin has occupied
rows, and a ring while a program of the team runs or waits, take TILE_RANGE and bind nothing. -/
def Obligations.BindResults : Prop :=
  ∀ (s : State) (h : Hdr) (d a key : Nat), s.settled → s.uguard h = true → s.cur.hlv = false → a % 2 = 0 → a + 2 ≤ s.cur.sregs →
    s.curTeam.tid = s.cur.team → s.curTeam ∈ s.teams →
    ((s.cur.spair a).toNat % 16 ≠ 0 → s.canTake .tileRange →
      ∀ i ∈ ([.tbind h d a, .rbind h d a] : List Instr), ∃ t, exec i s = .next t ∧ s.took t .tileRange s.cur.ipc s.cur.iss) ∧
    ((s.cur.spair a).toNat % 16 = 0 → s.classify .read 16 none (s.cur.spair a) = .ok key → s.poisoned key 16 = false →
      (s.curTeam.tileOk (tileOf d (Memory.bytes s.mem key 16)) (s.mem.get (key + 15)).toNat = true → s.curTeam.frameBusy d = false →
        ∃ t tl, exec (.tbind h d a) s = .next t ∧ s.wentOn t 4 ∧ t.mem = s.mem ∧ (t.teamOf s.cur.team).tile d = some tl ∧
          tl.base = BitVec.ofNat 64 (leNat (Memory.bytes s.mem key 8)) ∧ tl.rows = leNat (Memory.bytes s.mem (key + 8) 2) ∧
          tl.cols = leNat (Memory.bytes s.mem (key + 10) 2) ∧ tl.pitch = leNat (Memory.bytes s.mem (key + 12) 2) ∧
          tl.kind = (s.mem.get (key + 14)).toNat ∧ ∀ n, n ≠ d → (t.teamOf s.cur.team).tile n = s.curTeam.tile n) ∧
      (s.curTeam.ringOk (ringOf d (Memory.bytes s.mem key 16)) (leNat (Memory.bytes s.mem (key + 13) 3)) = true → s.meBusy s.cur.team = false →
        ∃ t r, exec (.rbind h d a) s = .next t ∧ s.wentOn t 4 ∧ t.mem = s.mem ∧ (t.teamOf s.cur.team).ring d = some r ∧
          r.base = BitVec.ofNat 64 (leNat (Memory.bytes s.mem key 8)) ∧ r.stride = leNat (Memory.bytes s.mem (key + 8) 4) ∧
          r.slots = (s.mem.get (key + 12)).toNat ∧ r.pubd = 0 ∧ r.cons = 0 ∧ r.freed = 0 ∧
          ∀ n, n ≠ d → (t.teamOf s.cur.team).ring n = s.curTeam.ring n) ∧
      (s.canTake .tileRange →
        (s.curTeam.tileOk (tileOf d (Memory.bytes s.mem key 16)) (s.mem.get (key + 15)).toNat = false ∨ s.curTeam.frameBusy d = true →
          ∃ t, exec (.tbind h d a) s = .next t ∧ t.cur.cause = 6 ∧ t.cur.tval = s.cur.ipc ∧ t.cur.hl = s.cur.iss ∧ t.cur.hlv = true ∧ t.teams = s.teams ∧
            t.mem = s.mem) ∧
        (s.curTeam.ringOk (ringOf d (Memory.bytes s.mem key 16)) (leNat (Memory.bytes s.mem (key + 13) 3)) = false ∨ s.meBusy s.cur.team = true →
          ∃ t, exec (.rbind h d a) s = .next t ∧ t.cur.cause = 6 ∧ t.cur.tval = s.cur.ipc ∧ t.cur.hl = s.cur.iss ∧ t.cur.hlv = true ∧ t.teams = s.teams ∧
            t.mem = s.mem)))

/-- R208: TZERO writes +0 to every element of a tile whose bin has no occupied row; TCOLOP acts on one column of an F32 tile, on the
occupied rows of a bin's frame tile; TACC writes an accumulator of the SP's unit to a 64 × 64 float tile in a grid with the matrix
unit, and takes ILLEGAL_OP in another. Every other byte keeps its value. -/
def Obligations.TileFillResults : Prop :=
  ∀ (s : State) (h : Hdr) (d a b : Nat) (tl : Tile), s.settled → s.uguard h = true → s.cur.hlv = false → s.tileReady d tl →
    (s.curTeam.frameBusy d = false →
      ∃ t, exec (.tzero h d) s = .next t ∧ s.wroteTile t tl (fun _ _ => true) (fun _ _ => 0) ∧ t.cur.fstat = s.cur.fstat) ∧
    (tl.kind = 0 → a < s.cur.sregs → b < s.cur.sregs → (s.cur.sreg a).toNat < tl.cols → s.tileClean tl →
      ∀ e ∈ ([(.addI32, fun x y => (x + y, 0)), (.addF32, fun x y => f32Add s.cur.rm x y), (.maxF32, fun x y => f32Max x y),
              (.set, fun _ y => (y, 0))] : List (ColOpK × (Word → Word → Word × Flags))),
        ∃ t, exec (.tcolop h d a b e.1) s = .next t ∧
          s.wroteTile t tl (fun r c => c == (s.cur.sreg a).toNat && (s.curTeam.colRows tl).contains r)
            (fun r c => (e.2 (BitVec.ofNat 32 (s.elem s.curTeam tl r c)) (s.cur.sreg b)).1.toNat) ∧
          ((e.1 = .addI32 ∨ e.1 = .set) → t.cur.fstat = s.cur.fstat)) ∧
    (s.curGrid.record.matrix = true → tl.rows = 64 → tl.cols = 64 → tl.kind ≤ 2 →
      ∃ t, exec (.tacc h d a) s = .next t ∧ s.wroteTile t tl (fun _ _ => true) (fun r c =>
        if tl.kind = 0 then (((s.spOf s.cur.sp).me.acc.get (4096 * a + 64 * r + c)).toNat)
        else (cvt (f32 ((s.spOf s.cur.sp).me.acc.get (4096 * a + 64 * r + c))) (if tl.kind = 1 then .f16 else .bf16) s.cur.rm false false).1) ∧
        (tl.kind = 0 → t.cur.fstat = s.cur.fstat)) ∧
    (s.curGrid.record.matrix = false → s.canTake .illegalOp →
      ∃ t, exec (.tacc h d a) s = .next t ∧ s.took t .illegalOp s.cur.ipc s.cur.iss)

/-- R208: TLOAD fills a tile from dense memory in row-major order, and TSTORE writes it there; every byte outside the destination
keeps its value. Here the elements lie apart and no page is absent. A tile that is not bound takes TILE_RANGE. -/
def Obligations.TileTransferResults : Prop :=
  ∀ (s : State) (h : Hdr) (d a : Nat) (tl : Tile) (key : Nat → Nat), s.settled → s.uguard h = true → s.cur.hlv = false →
    a % 2 = 0 → a + 2 ≤ s.cur.sregs →
    (s.tileReady d tl → s.cur.xfer = 0 → s.cur.moving = 0 → (s.cur.spair a).toNat % tl.size = 0 →
      (∀ i, i < tl.rows * tl.cols → ∀ r c, r < tl.rows → c < tl.cols → key i + tl.size ≤ localKey s.curTeam (tl.at r c) ∨
        localKey s.curTeam (tl.at r c) + tl.size ≤ key i) →
      ((∀ i, i < tl.rows * tl.cols → s.classify .read tl.size none (s.cur.spair a + BitVec.ofNat 64 (i * tl.size)) = .ok (key i) ∧
          s.poisoned (key i) tl.size = false) →
        ∃ t, exec (.tload h d a) s = .next t ∧ s.wentOn t 4 ∧ s.ownersSameButCounts t ∧ t.cur = { s.cur with pc := t.cur.pc } ∧
          (∀ r c, r < tl.rows → c < tl.cols → t.elem s.curTeam tl r c = leNat (Memory.bytes s.mem (key (r * tl.cols + c)) tl.size)) ∧
          ∀ j, (∀ r c, r < tl.rows → c < tl.cols → ¬ (localKey s.curTeam (tl.at r c) ≤ j ∧ j < localKey s.curTeam (tl.at r c) + tl.size)) →
            t.mem.get j = s.mem.get j) ∧
      (s.tileClean tl → (∀ i, i < tl.rows * tl.cols →
          s.classify .write tl.size none (s.cur.spair a + BitVec.ofNat 64 (i * tl.size)) = .ok (key i) ∧ s.frameLost (key i) = false ∧ s.keyless (key i) = false) →
        (∀ i k, i < tl.rows * tl.cols → k < tl.rows * tl.cols → i ≠ k → key i + tl.size ≤ key k ∨ key k + tl.size ≤ key i) →
        ∃ t, exec (.tstore h d a) s = .next t ∧ s.wentOn t 4 ∧ s.ownersSameButCounts t ∧ t.cur = { s.cur with pc := t.cur.pc } ∧
          (∀ r c, r < tl.rows → c < tl.cols → leNat (Memory.bytes t.mem (key (r * tl.cols + c)) tl.size) = s.elem s.curTeam tl r c) ∧
          ∀ j, (∀ i, i < tl.rows * tl.cols → ¬ (key i ≤ j ∧ j < key i + tl.size)) → t.mem.get j = s.mem.get j)) ∧
    (s.curTeam.tile d = none → s.canTake .tileRange →
      ∀ i ∈ ([.tload h d a, .tstore h d a, .tzero h d] : List Instr), ∃ t, exec i s = .next t ∧ s.took t .tileRange s.cur.ipc s.cur.iss)

/-- R209: lane l of a slice acts on element (l, q) of a column or (q, l) of a row, q = s(i) + n: of an F32 or B8 tile, VTRD reads it
(0 beyond the tile) and VTWR writes it; VTADD.F32 and VTMAX.F32 fold v(v) into an F32 tile. Lanes beyond the tile write nothing. -/
def Obligations.SliceResults : Prop :=
  ∀ (s : State) (h : Hdr) (tn : Nat) (col : Bool) (i n v q : Nat) (tl : Tile), s.settled → s.cur.hlv = false → v < s.cur.vregs →
    i < s.cur.sregs → s.tileReady tn tl → q = (s.cur.sreg i + BitVec.ofNat 32 n).toNat → q < (if col then tl.cols else tl.rows) →
    tl.rows ≤ 64 → tl.cols ≤ 64 →
    (s.tileClean tl → tl.kind = 0 ∨ tl.kind = 3 →
      ∃ t, exec (.vtrd h tn col i n v) s = .next t ∧ s.wroteV t (s.active h) v 4 (fun l =>
        if l < (if col then tl.rows else tl.cols) then BitVec.ofNat 32 (s.elem s.curTeam tl (if col then l else q) (if col then q else l)) else 0)) ∧
    (tl.kind = 0 ∨ tl.kind = 3 →
      ∃ t, exec (.vtwr h tn col i n v) s = .next t ∧ t.cur.fstat = s.cur.fstat ∧
        s.wroteTile t tl (fun r c => (if col then c else r) == q && (s.active h).has (if col then r else c))
          (fun r c => (s.cur.vraw v (if col then r else c)).toNat % 2 ^ (8 * tl.size))) ∧
    (tl.kind = 0 → s.tileClean tl →
      ∀ e ∈ ([(.vtaddF32 h tn col i n v, fun x y => (f32Add s.cur.rm x y).1),
              (.vtmaxF32 h tn col i n v, fun x y => (toF32 s.cur.rm (maxX (f32 x) (f32 y))).1)] : List (Instr × (Word → Word → Word))),
        ∃ t, exec e.1 s = .next t ∧
          s.wroteTile t tl (fun r c => (if col then c else r) == q && (s.active h).has (if col then r else c))
            (fun r c => (e.2 (BitVec.ofNat 32 (s.elem s.curTeam tl r c)) (s.cur.vraw v (if col then r else c))).toNat))

/-- R191-R193, R198: RPUB publishes n slots of a ring when they are free, MXWAIT goes on once n published slots have not been
consumed, MXREL frees n consumed slots, and RWAITF goes on once n slots are free, else its lanes wait. RPUB of more slots than are
free, and RWAITF of more than the ring has, take TILE_RANGE; MXWAIT of more than the ring has, and MXREL of more than are
consumed, stop the unit's program with codes 3 and 4. -/
def Obligations.RingResults : Prop :=
  ∀ (s : State) (h : Hdr) (d n sp : Nat) (r : Ring), s.settled → s.uguard h = true → s.curTeam.ring d = some r →
    (r.slots - (r.pubd - r.freed).toNat ≥ n →
      ∃ t, exec (.rpub h d n) s = .next t ∧ s.wentOn t 4 ∧ t.cur = { s.cur with pc := t.cur.pc } ∧ t.mem = s.mem ∧
        (t.teamOf s.cur.team).ring d = some { r with pubd := r.pubd + BitVec.ofNat 32 n } ∧
        ∀ k, k ≠ d → (t.teamOf s.cur.team).ring k = s.curTeam.ring k) ∧
    (r.slots - (r.pubd - r.freed).toNat < n → s.canTake .tileRange →
      ∃ t, exec (.rpub h d n) s = .next t ∧ s.took t .tileRange s.cur.ipc s.cur.iss) ∧
    (n ≤ r.slots → n ≤ r.slots - (r.pubd - r.freed).toNat → ∃ t, exec (.rwaitf h d n) s = .next t ∧ s.onlyWentOn t 4) ∧
    (n ≤ r.slots → r.slots - (r.pubd - r.freed).toNat < n → ∃ t, exec (.rwaitf h d n) s = .next t ∧ s.waits t (.ringFree d n)) ∧
    (r.slots < n → s.canTake .tileRange → ∃ t, exec (.rwaitf h d n) s = .next t ∧ s.took t .tileRange s.cur.ipc s.cur.iss) ∧
    ((s.meOf sp).team = s.cur.team → (s.spOf sp).num = sp → s.spOf sp ∈ s.sps → r.slots < n →
      ∃ t, exec (.mxwait sp d n) s = .next t ∧ (t.meOf sp).state = 4 ∧ (t.meOf sp).code = 3) ∧
    ((s.meOf sp).team = s.cur.team → (s.spOf sp).num = sp → s.spOf sp ∈ s.sps → n ≤ r.slots →
      (n ≤ (r.pubd - r.cons).toNat → ∃ t, exec (.mxwait sp d n) s = .next t ∧ (t.meOf sp).pc = (s.meOf sp).pc + 8 ∧ (t.meOf sp).state = 1 ∧
        t.teams = s.teams ∧ t.mem = s.mem ∧ (t.meOf sp).acc = (s.meOf sp).acc) ∧
      ((r.pubd - r.cons).toNat < n → ∃ t, exec (.mxwait sp d n) s = .next t ∧ (t.meOf sp).pc = (s.meOf sp).pc ∧ (t.meOf sp).state = 2) ∧
      (n ≤ (r.cons - r.freed).toNat → ∃ t, exec (.mxrel sp d n) s = .next t ∧ (t.meOf sp).pc = (s.meOf sp).pc + 8 ∧
        (t.teamOf s.cur.team).ring d = some { r with freed := r.freed + BitVec.ofNat 32 n } ∧ t.mem = s.mem) ∧
      ((r.cons - r.freed).toNat < n → ∃ t, exec (.mxrel sp d n) s = .next t ∧ (t.meOf sp).state = 4 ∧ (t.meOf sp).code = 4))

/-- R297, R295, R300, R302: BINCFG sets up a bin; BINWAKE wakes the sleeping rows of its mask; BINFLUSH makes a launch due when a row
is woken; BINQ answers the occupied or the woken rows. -/
def Obligations.BinControlResults : Prop :=
  ∀ (s : State) (h : Hdr) (d a b : Nat) (tl : Tile) (x : Bin), s.settled → s.uguard h = true →
    (b % 8 = 0 → b + 7 ≤ s.cur.sregs → s.curTeam.tile a = some tl → tl.kind = 0 → s.cur.spair (b + 2) ≠ 0 →
      (∀ c, c < 64 → (s.cur.spair (b + 2)).getLsbD c = true → c < tl.cols ∧ c < s.cur.vregs) → (s.cur.spair b).toNat % 4 = 0 →
      (s.cur.sreg (b + 6)).toNat ≤ 65536 → (0 < (s.cur.sreg (b + 6)).toNat → (s.cur.spair (b + 4)).toNat % 256 = 0) → (∀ y, s.curTeam.bin d = some y → y.rows = [] ∧ y.cask = []) →
      ∃ t, exec (.bincfg h d a b) s = .next t ∧ s.wentOn t 4 ∧ t.cur = { s.cur with pc := t.cur.pc } ∧ t.mem = s.mem ∧
        (t.teamOf s.cur.team).bin d = some { num := d, tile := a, resume := s.cur.spair b, live := s.cur.spair (b + 2)
                                             caskAddr := s.cur.spair (b + 4), caskRows := (s.cur.sreg (b + 6)).toNat, rows := [], cask := []
                                             timer := 0, due := false, refill := false } ∧
        ∀ n, n ≠ d → (t.teamOf s.cur.team).bin n = s.curTeam.bin n) ∧
    (s.curTeam.bin d = some x → a % 2 = 0 → a + 2 ≤ s.cur.sregs →
      (∃ t x', exec (.binwake h d a) s = .next t ∧ s.wentOn t 4 ∧ t.cur = { s.cur with pc := t.cur.pc } ∧ t.mem = s.mem ∧
        (t.teamOf s.cur.team).bin d = some x' ∧ x'.cask = x.cask ∧ x'.live = x.live ∧
        x'.rows = x.rows.map (fun r => if (s.cur.spair a).getLsbD r.num = true ∧ r.st = .asleep then { r with st := .woken } else r)) ∧
      (∃ t x', exec (.binflush h d) s = .next t ∧ s.wentOn t 4 ∧ t.cur = { s.cur with pc := t.cur.pc } ∧ t.mem = s.mem ∧
        (t.teamOf s.cur.team).bin d = some x' ∧ x'.rows = x.rows ∧
        x'.due = (x.due || x.rows.any (fun r => r.st == .woken)))) ∧
    (s.curTeam.bin a = some x → d % 2 = 0 → d + 2 ≤ s.cur.sregs →
      (∃ t m, exec (.binq h d a .occupancy) s = .next t ∧ s.wroteSPair t d m ∧
        ∀ r, r < 64 → (m.getLsbD r = true ↔ x.row r ≠ .free)) ∧
      (∃ t m, exec (.binq h d a .wake) s = .next t ∧ s.wroteSPair t d m ∧ ∀ r, r < 64 → (m.getLsbD r = true ↔ x.row r = .woken))) ∧
    (s.curTeam.bin a = none → d % 2 = 0 → d + 2 ≤ s.cur.sregs → ∀ k : BinqK, ∃ t, exec (.binq h d a k) s = .next t ∧ s.wroteSPair t d 0)

/-- R298, R299, R301, R291: a lane that suspends, or spawns, takes the lowest free row of the bin's tile: the columns of the live mask
take its registers v(c), or the vector registers from v(b) on; p(d) says that a row was found. A suspended lane leaves its group.
A VSUSP with no free row in the tile and no cask clears p(d) and goes on. -/
def Obligations.SuspendAndSpawn : Prop :=
  ∀ (s : State) (h : Hdr) (d a b l r : Nat) (tl : Tile) (x : Bin), s.settled → s.cur.hlv = false → l < 64 → s.active h = Mask.one l →
    s.curTeam.bin a = some x → x.tile = tl.num → s.tileReady tl.num tl → tl.kind = 0 → tl.rows ≤ 64 → x.live ≠ 0 →
    (∀ c, c < 64 → x.live.getLsbD c = true → c < tl.cols ∧ c < s.cur.vregs) →
    (r < tl.rows → x.row r = .free → (∀ q, q < r → x.row q ≠ .free) →
      (s.cur.live.has l = true → s.cur.live ≠ Mask.one l →
        ∀ k : SuspK, ∃ t x', exec (.vsusp h d a k) s = .next t ∧ Mask.has t.cur.live l = false ∧ Mask.has t.cur.binned l = true ∧
          Mask.has (t.cur.p.get d) l = true ∧ (t.teamOf s.cur.team).bin a = some x' ∧
          x'.row r = (if k = .explicit then .asleep else .woken) ∧
          (∀ c, c < tl.cols → t.elem s.curTeam tl r c = if x.live.getLsbD c then (s.cur.vraw c l).toNat else 0) ∧
          ∀ j, (∀ c, c < tl.cols → ¬ (localKey s.curTeam (tl.at r c) ≤ j ∧ j < localKey s.curTeam (tl.at r c) + 4)) → t.mem.get j = s.mem.get j) ∧
      (b + (List.range 64).countP (fun c => x.live.getLsbD c) ≤ s.cur.vregs → b < s.cur.vregs →
        ∃ t x', exec (.vspawn h d a b) s = .next t ∧ s.wentOn t 4 ∧ t.cur.live = s.cur.live ∧ t.cur.v = s.cur.v ∧
          Mask.has (t.cur.p.get d) l = true ∧ (∀ q, q < 64 → q ≠ l → Mask.has (t.cur.p.get d) q = Mask.has (s.cur.p.get d) q) ∧
          (t.teamOf s.cur.team).bin a = some x' ∧ x'.row r = .woken ∧
          (∀ c, c < tl.cols → t.elem s.curTeam tl r c =
            if x.live.getLsbD c then (s.cur.vraw (b + (List.range c).countP (fun i => x.live.getLsbD i)) l).toNat else 0) ∧
          ∀ j, (∀ c, c < tl.cols → ¬ (localKey s.curTeam (tl.at r c) ≤ j ∧ j < localKey s.curTeam (tl.at r c) + 4)) → t.mem.get j = s.mem.get j)) ∧
    ((∀ q, q < tl.rows → x.row q ≠ .free) → x.caskRows = 0 → x.cask = [] →
      ∃ t, exec (.vsusp h d a .explicit) s = .next t ∧ s.wroteP t (s.active h) d (fun _ => false) 0)

/-- R303: FRAMELD loads the live columns of each lane's row into v(c), frees the rows, and goes on, here with nothing to refill from
the cask; in a group that no bin launched it takes ILLEGAL_OP. -/
def Obligations.FrameLoadResults : Prop :=
  ∀ (s : State) (h : Hdr) (tl : Tile) (x : Bin), s.settled →
    (s.cur.kind = .bin → s.cur.hlv = false → s.cur.frameldDone = false → s.curTeam.bin s.cur.bin = some x → x.tile = tl.num →
      s.tileReady tl.num tl → s.tileClean tl → tl.kind = 0 → x.cask = [] → (∀ q ∈ x.rows, q.poison = false) →
      (s.cur.rows.map Prod.fst).Nodup → (∀ q ∈ s.cur.rows, q.1 < 64 ∧ q.2 < tl.rows) →
      (∀ c, c < 64 → x.live.getLsbD c = true → c < tl.cols) →
      ∃ t x', exec (.frameld h) s = .next t ∧ s.wentOn t 4 ∧ t.mem = s.mem ∧ t.cur.frameldDone = true ∧
        (∀ q ∈ s.cur.rows, ∀ c, c < 64 → t.cur.vraw c q.1 =
          if x.live.getLsbD c then BitVec.ofNat 32 (s.elem s.curTeam tl q.2 c) else s.cur.vraw c q.1) ∧
        (∀ l c, l < 64 → (∀ q ∈ s.cur.rows, q.1 ≠ l) → t.cur.vraw c l = s.cur.vraw c l) ∧
        (t.teamOf s.cur.team).bin s.cur.bin = some x' ∧ ∀ q ∈ s.cur.rows, x'.row q.2 = .free) ∧
    (s.cur.kind ≠ .bin → s.canTake .illegalOp → ∃ t, exec (.frameld h) s = .next t ∧ s.took t .illegalOp s.cur.ipc s.cur.iss)

/-- R265, R267: CPY submits the chain at its address with a free queue slot and answers the next ticket in s(d); without one its lanes
wait. CPYW answers 10 for a ticket that was not issued, 11 for one that has expired, and the status of a chain that has ended; for
a chain that runs its lanes wait, and where its promise has passed for the first time they take PROMISE_MISSED. R184, R188: in a
grid with the matrix unit FORK starts the unit at pr(a), the copy engine at pr(b), or both, once the unit is idle, done or stopped
and the owner has a free queue slot; else its lanes wait. RDV goes on when the unit has ended or raised the signal and so has the
forked chain, if there is one; else its lanes wait. A program address off its 8-byte boundary takes ALIGN, and in a grid without
the unit both take ILLEGAL_OP. R276: with a free queue slot STEEP hands its command over to its bank and goes on, or answers in
s(d) 14 for a command word that breaks the rules, 15 for an address in no SRAM window, 9 for one that is not aligned to a word;
without a slot its lanes wait. -/
def Obligations.EngineSubmission : Prop :=
  (∀ (s : State) (h : Hdr) (d a core : Nat), s.settled → s.uguard h = true → s.cur.hlv = false → (∃ o ∈ s.owners, o.id = s.cur.owner) → core = s.cpyCore →
     (d % 2 = 1 → d + 3 ≤ s.cur.sregs → a % 2 = 0 → a + 2 ≤ s.cur.sregs →
       (s.slotFree s.cur.owner s.curCore = true →
         ∃ t c, exec (.cpy h d a) s = .next t ∧ s.wentOn t 4 ∧ t.mem = s.mem ∧ t.cur.v = s.cur.v ∧
           t.cur.sreg d = (if s.curOwner.tickets.get s.curCore + 1 = 0 then 1 else s.curOwner.tickets.get s.curCore + 1) ∧
           (∀ r, r ≠ d → t.cur.sreg r = s.cur.sreg r) ∧ c ∈ t.chains ∧ c.ticket = (t.cur.sreg d).toNat ∧ c.first = s.cur.spair a ∧
           c.status = none ∧ c.read = false ∧ c.owner = s.cur.owner ∧ c.promReg = some (d + 1) ∧ t.curOwner.tickets.get s.curCore = t.cur.sreg d) ∧
       (s.slotFree s.cur.owner s.curCore = false → ∃ t, exec (.cpy h d a) s = .next t ∧ s.waits t .ceSlot)) ∧
     (d < s.cur.sregs → a < s.cur.sregs →
       (s.curOwner.ticketAge core (s.cur.sreg a) = none → ∃ t, exec (.cpyw h d a) s = .next t ∧ s.answered t d 10) ∧
       (∀ age, s.curOwner.ticketAge core (s.cur.sreg a) = some age →
         (1024 ≤ age ∨ s.chainAt s.cur.owner core (s.cur.sreg a) = none → ∃ t, exec (.cpyw h d a) s = .next t ∧ s.answered t d 11) ∧
         (age < 1024 → ∀ c, s.chainAt s.cur.owner core (s.cur.sreg a) = some c →
           (∀ st, c.status = some st → ∃ t, exec (.cpyw h d a) s = .next t ∧ s.answered t d (BitVec.ofNat 32 st)) ∧
           (c.status = none → c.late s.cyc = false ∨ c.missed = true →
             ∃ t, exec (.cpyw h d a) s = .next t ∧
               (∀ l, l < 64 → t.cur.cpyAt.get l = if s.cur.iss.has l then BitVec.ofNat 16 (core + 1) else s.cur.cpyAt.get l) ∧
               t = { s with cur := { s.cur with waits := ⟨s.cur.iss, .chain core (s.cur.sreg a).toNat⟩ :: s.cur.waits, cpyAt := t.cur.cpyAt } }) ∧
           (c.status = none → c.late s.cyc = true → c.missed = false → s.canTake .promiseMissed →
             ∃ t, exec (.cpyw h d a) s = .next t ∧ t.cur.cause = 7 ∧ t.cur.tval = s.cur.ipc ∧ t.cur.tlane = s.cur.iss ∧ t.cur.hl = s.cur.iss ∧
               t.mem = s.mem ∧ t.cur.s = s.cur.s))))) ∧
  (∀ (s : State) (h : Hdr) (a b id : Nat), s.settled → s.uguard h = true → s.cur.hlv = false → (∃ o ∈ s.owners, o.id = s.cur.owner) →
     a % 2 = 0 → a + 2 ≤ s.cur.sregs → b % 2 = 0 → b + 2 ≤ s.cur.sregs →
     (s.curGrid.record.matrix = true →
       ((s.cur.spair a).toNat % 8 = 0 →
         ((s.meOf s.cur.sp).follower = false → (s.meOf s.cur.sp).state = 0 ∨ (s.meOf s.cur.sp).state = 3 ∨ (s.meOf s.cur.sp).state = 4 →
           (∃ t, exec (.fork h a b .me) s = .next t ∧ s.wentOn t 4 ∧ t.mem = s.mem ∧ (t.meOf s.cur.sp).state = 1 ∧
             (t.meOf s.cur.sp).pc = s.cur.spair a ∧ (t.meOf s.cur.sp).gid = s.cur.gid ∧ t.chains = s.chains) ∧
           (s.slotFree s.cur.owner s.curCore = true →
             ∃ t c, exec (.fork h a b .both) s = .next t ∧ s.wentOn t 4 ∧ (t.meOf s.cur.sp).state = 1 ∧ (t.meOf s.cur.sp).pc = s.cur.spair a ∧
               c ∈ t.chains ∧ c.first = s.cur.spair b ∧ c.fork = true ∧ c.status = none)) ∧
         ((s.meOf s.cur.sp).follower = true ∨ (s.meOf s.cur.sp).state = 1 ∨ (s.meOf s.cur.sp).state = 2 →
           (∃ t, exec (.fork h a b .me) s = .next t ∧ s.waits t .meIdle) ∧ ∃ t, exec (.fork h a b .both) s = .next t ∧ s.waits t .meIdle)) ∧
       ((s.cur.spair a).toNat % 8 ≠ 0 → s.canTake .align →
         ∀ k ∈ ([.me, .both] : List ForkK), ∃ t, exec (.fork h a b k) s = .next t ∧ s.took t .align s.cur.ipc s.cur.iss) ∧
       (s.slotFree s.cur.owner s.curCore = true →
         ∃ t c, exec (.fork h a b .ce) s = .next t ∧ s.wentOn t 4 ∧ c ∈ t.chains ∧ c.first = s.cur.spair b ∧ c.fork = true ∧ c.status = none ∧
           (t.meOf s.cur.sp).forkChain = some c.cid) ∧
       (s.slotFree s.cur.owner s.curCore = false → ∃ t, exec (.fork h a b .ce) s = .next t ∧ s.waits t .ceSlot) ∧
       (((s.meOf s.cur.sp).ended = true ∨ (s.meOf s.cur.sp).sig.getLsbD id = true) →
         (∀ c ch, (s.meOf s.cur.sp).forkChain = some c → s.chainOf c = some ch → ch.status ≠ none ∨ ch.raised.getLsbD id = true) →
         ∃ t, exec (.rdv h id) s = .next t ∧ s.onlyWentOn t 4) ∧
       (((s.meOf s.cur.sp).ended = false ∧ (s.meOf s.cur.sp).sig.getLsbD id = false) ∨
           (∃ c ch, (s.meOf s.cur.sp).forkChain = some c ∧ s.chainOf c = some ch ∧ ch.status = none ∧ ch.raised.getLsbD id = false) →
         ∃ t, exec (.rdv h id) s = .next t ∧ s.waits t (.engines id))) ∧
     (s.curGrid.record.matrix = false → s.canTake .illegalOp →
       ∀ i ∈ ([.fork h a b .me, .fork h a b .ce, .fork h a b .both, .rdv h id] : List Instr),
         ∃ t, exec i s = .next t ∧ s.took t .illegalOp s.cur.ipc s.cur.iss)) ∧
  (∀ (s : State) (h : Hdr) (d a b : Nat), s.settled → s.uguard h = true → s.cur.hlv = false →
     a % 2 = 0 → a + 2 ≤ s.cur.sregs → b + 2 ≤ s.cur.sregs → d + 2 ≤ s.cur.sregs →
     (s.slotFree s.cur.owner s.curCore = false → ∃ t, exec (.steep h d a b) s = .next t ∧ s.waits t .ceSlot) ∧
     (s.slotFree s.cur.owner s.curCore = true →
       (steepOk (s.cur.sreg b) (s.cur.spair a) = false → ∃ t, exec (.steep h d a b) s = .next t ∧ s.wroteS t d 4 14) ∧
       (steepOk (s.cur.sreg b) (s.cur.spair a) = true → inWindow (s.cur.spair a) = false →
         ∃ t, exec (.steep h d a b) s = .next t ∧ s.wroteS t d 4 15) ∧
       (steepOk (s.cur.sreg b) (s.cur.spair a) = true → inWindow (s.cur.spair a) = true → (s.cur.spair a).toNat % 4 ≠ 0 →
         ∃ t, exec (.steep h d a b) s = .next t ∧ s.wroteS t d 4 9) ∧
       (steepOk (s.cur.sreg b) (s.cur.spair a) = true → inWindow (s.cur.spair a) = true → (s.cur.spair a).toNat % 4 = 0 →
         ∃ t j, exec (.steep h d a b) s = .next t ∧ s.onlyWentOn { t with steeps := s.steeps, nextId := s.nextId, nextSeq := s.nextSeq } 4 ∧
           t.steeps = s.steeps ++ [j] ∧ j.cmd = s.cur.sreg b ∧ j.operand = s.cur.sreg (b + 1) ∧ j.dst = d ∧ j.gid = s.cur.gid ∧ j.owner = s.cur.owner ∧
           j.va = s.cur.spair a ∧ j.lanes = s.cur.iss)))

/-- R196-R203: the commands of a matrix unit that is not paired, but for MXMMA and the ring commands. A command is one step: the
unit's next command follows, except after MXLOOP's branch back, MXEND, and a command that stops the program: MXCFG through an F32
slot with code 2, MXDRAIN to no tile with 5, an illegal command with 1. -/
def Obligations.MatrixCommandResults : Prop :=
  ∀ (s : State) (sp acc slot a b k : Nat) (w : BitVec 64), s.meAlone sp → acc < 16 →
    ((slotBytes (s.meSlot sp a).kind).isSome = true → (slotBytes (s.meSlot sp b).kind).isSome = true →
      ∃ t, exec (.mxcfg sp a b false k) s = .next t ∧ s.onlyMe t sp ∧ s.meWentOn t sp ∧ (t.meOf sp).configured = true ∧ (t.meOf sp).paired = false ∧
        (t.meOf sp).aSlot = a ∧ (t.meOf sp).bSlot = b ∧ (t.meOf sp).k = k ∧ (∀ j, j < 16 → (t.meOf sp).idx.getD j 0 = 0) ∧
        (t.meOf sp).acc = (s.meOf sp).acc) ∧
    ((s.meSlot sp a).kind = .flt .f32 → ∃ t, exec (.mxcfg sp a b false k) s = .next t ∧ s.meStopped t sp 2) ∧
    ((s.meOf sp).idx.length = 16 →
      ∃ t, exec (.mxzero sp acc) s = .next t ∧ s.onlyMe t sp ∧ s.meWentOn t sp ∧ (t.meOf sp).idx.getD acc 0 = 0 ∧
        ∀ q m n, m < 64 → n < 64 → (t.meOf sp).acc.get (4096 * q + 64 * m + n) = if q = acc then 0 else (s.meOf sp).acc.get (4096 * q + 64 * m + n)) ∧
    (k < 8 → ∃ t, exec (.mxsig sp k) s = .next t ∧ s.onlyMe t sp ∧ s.meWentOn t sp ∧ (t.meOf sp).acc = (s.meOf sp).acc ∧
      ∀ j, j < 8 → (t.meOf sp).sig.getLsbD j = ((s.meOf sp).sig.getLsbD j || j == k)) ∧
    (∃ t, exec (.mxfence sp) s = .next t ∧ s.onlyMe t sp ∧ s.meWentOn t sp ∧ (t.meOf sp).acc = (s.meOf sp).acc) ∧
    (∃ t, exec (.mxend sp) s = .next t ∧ s.onlyMe t sp ∧ (t.meOf sp).state = 3 ∧ (t.meOf sp).acc = (s.meOf sp).acc) ∧
    (∃ t, exec (.mxIllegalCommand sp w) s = .next t ∧ s.onlyMe t sp ∧ s.meStopped t sp 1 ∧ (t.meOf sp).acc = (s.meOf sp).acc) ∧
    ((s.meOf sp).loops = [] → 1 ≤ k → k - 1 = 0 →
      ∃ t, exec (.mxloop sp k b) s = .next t ∧ s.onlyMe t sp ∧ s.meWentOn t sp ∧ (t.meOf sp).loops = []) ∧
    ((s.meOf sp).loops = [] → 2 ≤ k →
      ∃ t, exec (.mxloop sp k b) s = .next t ∧ s.onlyMe t sp ∧ (t.meOf sp).pc = (s.meOf sp).pc - BitVec.ofNat 64 (8 * b) ∧
        (t.meOf sp).loops = [⟨(s.meOf sp).pc, k - 2⟩] ∧ (t.meOf sp).state = 1) ∧
    (∀ l : Nat, (s.meOf sp).loops = [⟨(s.meOf sp).pc, l + 1⟩] →
      ∃ t, exec (.mxloop sp k b) s = .next t ∧ s.onlyMe t sp ∧ (t.meOf sp).pc = (s.meOf sp).pc - BitVec.ofNat 64 (8 * b) ∧
        (t.meOf sp).loops = [⟨(s.meOf sp).pc, l⟩]) ∧
    (((s.meTeam sp).tile slot).isNone = true → ∃ t, exec (.mxdrain sp acc a false slot) s = .next t ∧ s.meStopped t sp 5)

/-- R199, R153, R200: MXMMA claims k slots of each ring, which are consumed, and sums its first block: it adds to every element [m][n]
of the accumulator the rounded sum of the 32 products of line m of ring A and line n of ring B. Each further step sums the next
block of the claimed slots, and with the last the unit goes on. With fewer than k slots published it waits. MXDRAIN of an
accumulator to an F32 tile copies its elements. The unit here is not paired. The value of one k-block is the one kblock of
Machine/Matrix.lean gives. -/
def Obligations.MatrixProductAndDrain : Prop :=
  ∀ (s : State) (sp acc ra rb k : Nat) (a b : Ring) (ka kb : SlotKind), s.meAlone sp → acc < 16 → ra ≠ rb →
    s.upsets = [] → (s.meTeam sp).ring ra = some a → (s.meTeam sp).ring rb = some b → (s.meOf sp).configured = true →
    ka = (s.meSlot sp (s.meOf sp).aSlot).kind → kb = (s.meSlot sp (s.meOf sp).bSlot).kind →
    ((s.meOf sp).mma = none → k ≤ a.slots → k ≤ b.slots → (slotBytes ka).getD 0 ≤ a.stride → (slotBytes kb).getD 0 ≤ b.stride →
      (s.meOf sp).idx.getD acc 0 + k ≤ (s.meOf sp).k → 1 ≤ k →
      (k ≤ (a.pubd - a.cons).toNat → k ≤ (b.pubd - b.cons).toNat →
        (s.meTeam sp).holds (a.slotAt a.cons 0) ((slotBytes ka).getD 0) = true → (s.meTeam sp).holds (b.slotAt b.cons 0) ((slotBytes kb).getD 0) = true →
        (∀ j, j < 64 → (s.slotLine (s.meTeam sp) ka (a.slotAt a.cons 0) j).poison = false ∧ (s.slotLine (s.meTeam sp) kb (b.slotAt b.cons 0) j).poison = false) →
        ∃ t, exec (.mxmma sp acc ra rb k) s = .next t ∧ s.summed t sp acc a b 0 ∧
          (t.teamOf (s.meOf sp).team).ring ra = some { a with cons := a.cons + BitVec.ofNat 32 k } ∧
          (t.teamOf (s.meOf sp).team).ring rb = some { b with cons := b.cons + BitVec.ofNat 32 k } ∧
          (k = 1 → s.meWentOn t sp) ∧
          (1 < k → (t.meOf sp).pc = (s.meOf sp).pc ∧ (t.meOf sp).state = 1 ∧ (t.meOf sp).mma = some (a.cons, b.cons, 1))) ∧
      ((a.pubd - a.cons).toNat < k ∨ (b.pubd - b.cons).toNat < k →
        ∃ t, exec (.mxmma sp acc ra rb k) s = .next t ∧ s.onlyMe t sp ∧ (t.meOf sp).state = 2 ∧ (t.meOf sp).pc = (s.meOf sp).pc ∧ (t.meOf sp).acc = (s.meOf sp).acc)) ∧
    (∀ (ca cb : Word) (q : Nat), (s.meOf sp).mma = some (ca, cb, q) →
      (s.meTeam sp).holds (a.slotAt ca q) ((slotBytes ka).getD 0) = true → (s.meTeam sp).holds (b.slotAt cb q) ((slotBytes kb).getD 0) = true →
      (∀ j, j < 64 → (s.slotLine (s.meTeam sp) ka (a.slotAt ca q) j).poison = false ∧ (s.slotLine (s.meTeam sp) kb (b.slotAt cb q) j).poison = false) →
      ∃ t, exec (.mxmma sp acc ra rb k) s = .next t ∧ s.onlyMe t sp ∧ s.summed t sp acc { a with cons := ca } { b with cons := cb } q ∧ (k ≤ q + 1 → s.meWentOn t sp ∧ (t.meOf sp).mma = none) ∧
        (q + 1 < k → (t.meOf sp).pc = (s.meOf sp).pc ∧ (t.meOf sp).state = 1 ∧ (t.meOf sp).mma = some (ca, cb, q + 1))) ∧
    (∀ (slot tn : Nat) (tl : Tile), (s.meTeam sp).tile tn = some tl → tl.rows = 64 → tl.cols = 64 → tl.kind = 0 →
      (s.meSlot sp slot).kind = .flt .f32 → s.cur.team = (s.meOf sp).team → s.tileReady tn tl →
      ∃ t, exec (.mxdrain sp acc slot false tn) s = .next t ∧ s.meWentOn t sp ∧ t.cur = s.cur ∧
        (∀ r c, r < 64 → c < 64 → t.elem s.curTeam tl r c = ((s.meOf sp).acc.get (4096 * acc + 64 * r + c)).toNat) ∧
        ∀ j, (∀ r c, r < 64 → c < 64 → ¬ (localKey s.curTeam (tl.at r c) ≤ j ∧ j < localKey s.curTeam (tl.at r c) + 4)) → t.mem.get j = s.mem.get j)

/-- R264-R269, R271, R273: COPY moves each element of its walk from its source to its destination address, FILL writes the low bytes
of its source word to each, and SIG moves nothing; the chain then goes on or ends with status 0. The elements here lie apart. That
a card is one step is the model's (log entry 9). -/
def Obligations.CopyCards : Prop :=
  ∀ (s : State) (ch : Chain) (c : Card) (src dst : Nat → Nat), s.cardRuns ch c →
    (∃ t, exec (.sig ch.cid c) s = .next t ∧ t.cardDone ch c ∧ t.mem = s.mem) ∧
    (((c.walk).map Prod.snd).Nodup →
      (∀ i, i < c.walk.length → s.cardAcc ch .write (c.dstVa (c.walk.getD i (0, 0))) = .ok (dst i) ∧ s.frameLost (dst i) = false ∧ s.keyless (dst i) = false) →
      (∀ i j, i < c.walk.length → j < c.walk.length → i ≠ j → dst i + c.esize ≤ dst j ∨ dst j + c.esize ≤ dst i) →
      (c.misaligned true = false →
        ∃ t, exec (.fill ch.cid c) s = .next t ∧ t.cardDone ch c ∧ t.cur = s.cur ∧
          (∀ i, i < c.walk.length → Memory.bytes t.mem (dst i) c.esize = leBytes c.esize c.source.toNat) ∧
          ∀ j, (∀ i, i < c.walk.length → ¬ (dst i ≤ j ∧ j < dst i + c.esize)) → t.mem.get j = s.mem.get j) ∧
      (c.misaligned false = false →
        (∀ i, i < c.walk.length → s.cardAcc ch .read (c.srcVa (c.walk.getD i (0, 0))) = .ok (src i) ∧ s.poisoned (src i) c.esize = false) →
        (∀ i j, i < c.walk.length → j < c.walk.length → src i + c.esize ≤ dst j ∨ dst j + c.esize ≤ src i) →
        ∃ t, exec (.copy ch.cid c) s = .next t ∧ t.cardDone ch c ∧ t.cur = s.cur ∧
          (∀ i, i < c.walk.length → Memory.bytes t.mem (dst i) c.esize = Memory.bytes s.mem (src i) c.esize) ∧
          ∀ j, (∀ i, i < c.walk.length → ¬ (dst i ≤ j ∧ j < dst i + c.esize)) → t.mem.get j = s.mem.get j)) ∧
    (c.misaligned true = true → ∃ t ch', exec (.fill ch.cid c) s = .next t ∧ t.chains = [ch'] ∧ ch'.status = some 9 ∧ t.mem = s.mem)

/-- R266, R49: PROMISE reads the cards of its chain, each once, and gives the chain its promise: the CYC of its submission plus the
cards' costs; the group's register pair takes it. Here no earlier chain is unfinished. A chain of one card has that card's cost.
R272: COPY.AEAD under a tag that matches writes the plaintext, and under one that does not writes zeros and ends with status 5.
R284, R285: a COLL card of either kind delivers its stream to the one member left and sets its own arrival bit there. GCM is as
log entry 7 has it. -/
def Obligations.EngineResults : Prop :=
  (∀ (s : State) (ch : Chain), s.chains = [ch] → ch.read = false → ch.status = none → s.chainOf ch.after = none →
     (∀ (u : State) (ch2 : Chain), s.readChain ch.cid (65536 - ch.deck.length) = (u, true) → u.chains = [ch2] → ch2.cid = ch.cid →
       ch2.readAt = 0 ∨ ch2.deckEnd ≠ none →
       ∃ t ch', exec (.promise ch.cid) s = .next t ∧ t.chains = [ch'] ∧ ch'.read = true ∧ ch'.status = ch2.status ∧ ch'.deck = ch2.deck ∧
         ch'.promise = BitVec.ofNat 64 (ch2.submitCyc.toNat + ch2.cost) ∧ t.mem = u.mem ∧
         (u.cur.gid = ch2.group → ∀ r, ch2.promReg = some r → t.cur.spair r = ch'.promise)) ∧
     (∀ (u : State) (c : Card), ch.deck = [] → ch.cost = 0 → ch.deckEnd = none → s.fetchCard ch.reading = .run u c → ch.reading.refuses c = false →
       c.opcode ≠ 4 → c.next = 0 →
       ∃ t ch', exec (.promise ch.cid) s = .next t ∧ t.chains = [ch'] ∧ ch'.read = true ∧ ch'.status = none ∧ ch'.deck = [c] ∧
         ch'.promise = BitVec.ofNat 64 (ch.submitCyc.toNat + u.cardCost ch c) ∧ t.mem = s.mem ∧
         (s.cur.gid = ch.group → ∀ r, ch.promReg = some r → t.cur.spair r = ch'.promise))) ∧
  (∀ (s : State) (ch : Chain) (c : Card) (src dst tagKey : Nat), s.cardRuns ch c → c.walk = [(0, 0)] → c.misaligned false = false →
     c.tagAddr.toNat % 16 = 0 → s.cardAcc ch .read c.source = .ok src → s.cardAcc ch .write c.dest = .ok dst → s.onHostPath ch c.dest = false →
     isPeerKey dst = false → s.frameLost dst = false → s.keyless src = false → s.keyless tagKey = false → s.poisoned src c.esize = false → s.cardAcc ch .read c.tagAddr = .ok tagKey →
     s.poisoned tagKey 16 = false → (s.keySlot c.keySlot).kind = 2 → (s.keySlot c.keySlot).owner = ch.owner → (s.keySlot c.keySlot).lastIv < c.iv →
     (isHostKey src = true ∨ isHostKey tagKey = true → (s.ownerOf ch.owner).tdi = .run) →
     s.heldLost (s.ownerOf ch.owner) (.at src) = false → s.heldLost (s.ownerOf ch.owner) (.at tagKey) = false →
     (gcmTag (keySchedule (keyBytes (s.keySlot c.keySlot).key)) (beBytes 12 c.iv) (Memory.bytes s.mem src c.esize) = Memory.bytes s.mem tagKey 16 →
       ∃ t, exec (.copyAead ch.cid c) s = .next t ∧ t.cardDone ch c ∧
         (∀ j, j < c.esize → t.mem.get (dst + j) =
           (gcmXor (keySchedule (keyBytes (s.keySlot c.keySlot).key)) (beBytes 12 c.iv) (Memory.bytes s.mem src c.esize)).getD j 0) ∧
         (∀ j, j < dst ∨ dst + c.esize ≤ j → t.mem.get j = s.mem.get j)) ∧
     (gcmTag (keySchedule (keyBytes (s.keySlot c.keySlot).key)) (beBytes 12 c.iv) (Memory.bytes s.mem src c.esize) ≠ Memory.bytes s.mem tagKey 16 →
       ∃ t ch', exec (.copyAead ch.cid c) s = .next t ∧ t.chains = [ch'] ∧ ch'.status = some 5 ∧
         (∀ j, j < c.esize → t.mem.get (dst + j) = 0) ∧ (∀ j, j < dst ∨ dst + c.esize ≤ j → t.mem.get j = s.mem.get j))) ∧
  (∀ (s : State) (ch : Chain) (c : Card) (src : Nat) (bs : List (BitVec 8)) (d : CollDesc) (r tk ak : Nat),
     s.cardRuns ch c → s.readDesc ch c.collective = .got bs false → d = collDesc bs → d.bad = false → c.collective.toNat % 64 = 0 →
     c.membership = d.version → d.log = 0 → c.misaligned false = false → (c.collOp = 1 → c.bytes ≤ d.stride) → c.walk = [(0, 0)] →
     c.bytes = c.esize → s.cardAcc ch .read c.source = .ok src → s.poisoned src c.esize = false →
     (List.range d.count).filter (fun q => d.flags.getD q 0 == 0) = [r] →
     (∀ i, i < c.esize → s.cardAcc ch .write (d.target c r + BitVec.ofNat 64 i) = .ok (tk + i) ∧ s.frameLost (tk + i) = false ∧ s.keyless (tk + i) = false) →
     (∀ i, i < 4 → s.cardAcc ch .write (d.base + d.wstride * BitVec.ofNat 64 r + BitVec.ofNat 64 (d.arrival + 4 * (d.rank / 32)) + BitVec.ofNat 64 i) = .ok (ak + i)) →
     s.frameLost ak = false → s.keyless ak = false → (tk + c.esize ≤ ak ∨ ak + 4 ≤ tk) →
     ∀ i ∈ ([.post ch.cid c, .bcast ch.cid c] : List Instr), ∃ t, exec i s = .next t ∧ t.cardDone ch c ∧
       (∀ j, j < c.esize → t.mem.get (tk + j) = s.mem.get (src + j)) ∧
       leNat (Memory.bytes t.mem ak 4) = leNat (Memory.bytes s.mem ak 4) ||| 2 ^ (d.rank % 32) ∧
       ∀ j, (j < tk ∨ tk + c.esize ≤ j) → (j < ak ∨ ak + 4 ≤ j) → t.mem.get j = s.mem.get j)

/-- R276-R279: what a steep command does to the words of its range, in the order of the words: FILL writes its operand, ADD.F32, SCALE
and MAXFOLD apply it to each word, CVT through a float slot converts each, XSUM changes nothing and answers the checksum in the
next register, and SUMX of one slot sums it into the first words. The status is 0, for SUMX with the count of slots left out, and
every other byte is as before. No word here is poisoned. -/
def Obligations.SteepResults : Prop :=
  ∀ (s : State) (j : SteepJob) (k : Nat), s.steepRuns j k →
    (∃ t, exec (.stpFill j.jid) s = .next t ∧ s.steepEnded t j 0 ∧ (∀ i, i < j.words → t.word (k + 4 * i) = j.operand) ∧
      ∀ a, a < k ∨ k + 4 * j.words ≤ a → t.mem.get a = s.mem.get a) ∧
    (∀ e ∈ ([(.stpAddF32 j.jid, fun x => (f32Add .rne x j.operand).1), (.stpScale j.jid, fun x => (f32Mul .rne x j.operand).1),
             (.stpMaxfold j.jid, fun x => (f32Max x j.operand).1)] : List (Instr × (Word → Word))),
      ∃ t, exec e.1 s = .next t ∧ s.steepEnded t j 0 ∧ (∀ i, i < j.words → t.word (k + 4 * i) = e.2 (s.word (k + 4 * i))) ∧
        ∀ a, a < k ∨ k + 4 * j.words ≤ a → t.mem.get a = s.mem.get a) ∧
    (∃ t, exec (.stpXsum j.jid) s = .next t ∧ s.steepEnded t j 0 ∧ t.mem = s.mem ∧
      (j.cmd.toNat / 16 % 4 = 1 ∨ j.cmd.toNat / 16 % 4 = 2 → j.gid = s.cur.gid → t.cur.sreg (j.dst + 1) = checksum (j.cmd.toNat / 16 % 4) j.operand 0 (Memory.bytes s.mem k (4 * j.words)) [])) ∧
    (∀ f, ((s.gridOf j.grid).slot (j.cmd.toNat / 512 % 8)).kind = .flt f →
      ∃ t, exec (.stpCvt j.jid) s = .next t ∧ s.steepEnded t j 0 ∧
        (∀ i, i < j.words → t.word (k + 4 * i) = BitVec.ofNat 32 (slotCvt ((s.gridOf j.grid).slot (j.cmd.toNat / 512 % 8)) f (s.word (k + 4 * i))).1) ∧
        ∀ a, a < k ∨ k + 4 * j.words ≤ a → t.mem.get a = s.mem.get a) ∧
    (j.operand.toNat % 16 = 0 → j.operand ≠ 0 → k % 64 = 0 → j.cmd.toNat / 16 % 256 = 1 → j.words = 2 * j.operand.toNat + 1 →
      (s.word (k + 8 * j.operand.toNat)).getLsbD 0 = false →
      ∃ t, exec (.stpSumx j.jid) s = .next t ∧ s.steepEnded t j ((List.range 32).countP (fun b => (s.word (k + 8 * j.operand.toNat)).getLsbD b)) ∧
        (∀ i, i < j.operand.toNat → t.word (k + 4 * i) = (f32Add .rne 0 (s.word (k + 4 * j.operand.toNat + 4 * i))).1) ∧
        ∀ a, a < k ∨ k + 4 * j.operand.toNat ≤ a → t.mem.get a = s.mem.get a)

/-- R18-R27, R29, R127, R267, R329, R347, R413. RUN_START starts the run of the picked group at the lowest PC of its ready lanes, or
takes a pending TIMER there. MEMORY_RESULT puts the one outstanding word into its register; it ends the wait of every lane of the
issue at once. A deadline wakes its sleepers, 4 bytes on; GTCMP_MATCH makes TIMER pending; a promise that passes raises
PROMISE_MISSED in the lanes that wait for it; a run whose word has waited more than 64 clk ends before it, any other does not; the
WAKE of a matrix unit ends; the oldest waiting miss joins the queue when it has room. Which of them comes next is a turn (log
entry 9). -/
def Obligations.RunAndWaitEvents : Prop :=
  ∀ (s : State) (sp : Nat), 
    (s.runOn sp = none → s.pick sp = some s.cur → s.cur.tmp = false ∨ s.cur.hlv = true →
      ∃ t, exec (.runStart sp) s = .next t ∧ t.mem = s.mem ∧ t.cur.inRun = true ∧
        (∀ l, l < 64 → ((t.cur.iss).has l = true ↔ (s.ready s.cur).has l = true ∧ s.cur.pc.get l = t.cur.ipc)) ∧
        (∀ l, l < 64 → (s.ready s.cur).has l = true → t.cur.ipc.toNat ≤ (s.cur.pc.get l).toNat) ∧
        t.cur = { s.cur with iss := t.cur.iss, ipc := t.cur.ipc, runLen := 0, inRun := true, started := true, stall := none }) ∧
    (s.runOn sp = none → s.pick sp = some s.cur → s.cur.tmp = true → (∀ e ∈ s.cur.outst, e.frame = false) → s.canTake .timer →
      ∃ t, exec (.runStart sp) s = .next t ∧ t.cur.cause = 8 ∧ t.cur.tmp = false ∧ t.cur.hlv = true ∧ t.cur.inRun = false ∧
        ∀ l, l < 64 → t.cur.hl.has l = true → (s.ready s.cur).has l = true ∧ t.cur.pc.get l = s.handlerOf s.cur.grid .timer ∧
          t.cur.savedPc.get l = s.cur.pc.get l) ∧
    (∀ e : OutRes, s.cur.outst = [e] → e.frame = false → e.clob = false → e.isPred = false → e.lane < 64 →
      ∃ t, exec (.memoryResult s.cur.gid e.lane e.reg) s = .next t ∧ t.cur.outst = [] ∧ t.cur.vraw e.reg e.lane = e.data ∧
        (∀ r l, l < 64 → (r, l) ≠ (e.reg, e.lane) → t.cur.vraw r l = s.cur.vraw r l) ∧ t.cur.pc = s.cur.pc) ∧
    (∀ q ∈ s.cur.await, ∀ l r, q.lanes.has l = true → r ∈ q.regs →
      ∃ t, exec (.memoryResult s.cur.gid l r) s = .next t ∧ (∀ x ∈ t.cur.await, x.iid ≠ q.iid) ∧
        (∀ e ∈ t.cur.outst, e.iid = q.iid → e.frame = true) ∧ t.cur.pc = s.cur.pc ∧ t.mem = s.mem) ∧
    (s.settled → s.curOwner.halt = none →
      ∃ t, exec (.waittDeadline s.cur.gid) s = .next t ∧ t.mem = s.mem ∧ ∀ l, l < 64 →
        t.cur.asleep.has l = (s.cur.asleep.has l && !decide ((s.cur.deadline.get l).toNat ≤ s.cyc.toNat)) ∧
        t.cur.pc.get l = if s.cur.asleep.has l && decide ((s.cur.deadline.get l).toNat ≤ s.cyc.toNat) then s.cur.pc.get l + 4 else s.cur.pc.get l) ∧
    (s.curOwner.halt = none → s.cur.armed = true → s.cur.gtcmp ≠ 0 → s.cur.gtcmp.toNat ≤ s.cur.gtmr.toNat →
      ∃ t, exec (.gtcmpMatch s.cur.gid) s = .next t ∧ t.cur = { s.cur with tmp := true, armed := false }) ∧
    (∀ (m : Mask) (core tk : Nat) (c : Chain), s.cur.waits = [⟨m, .chain core tk⟩] → m ≠ 0 → s.curOwner.halt = none →
      s.chainAt s.cur.owner core (BitVec.ofNat 32 tk) = some c → c.status = none → c.late s.cyc = true → c.missed = false → s.canTake .promiseMissed →
      ∃ t, exec (.promiseMissed s.cur.gid) s = .next t ∧ t.cur.cause = 7 ∧ t.cur.tlane = m ∧ t.cur.hl = m ∧ t.cur.waits = [] ∧
        ∀ l, l < 64 → m.has l = true → t.cur.pc.get l = s.handlerOf s.cur.grid .promiseMissed ∧ t.cur.savedPc.get l = s.cur.pc.get l) ∧
    (s.cur.sp = sp → s.cur.inRun = true → ∀ c : DWord, s.cur.stall = some c →
      ∃ t, exec (.forcedRunBoundary sp) s = .next t ∧ t.mem = s.mem ∧
        t.cur = if c.toNat + 64 < s.cyc.toNat then { s.cur with inRun := false, stall := none, waitClk := s.cyc.toNat } else s.cur) ∧
    (s.spOf sp ∈ s.sps → (s.spOf sp).num = sp → (s.meOf sp).wakeAt.toNat ≤ s.cyc.toNat →
      ∃ t, exec (.meWake sp) s = .next t ∧ s.onlyMe t sp ∧ t.meOf sp = { s.meOf sp with wakeAt := 0 }) ∧
    (∀ (o : Owner) (m : Miss) (rest : List Miss), s.owners = [o] → o.missWaiting = m :: rest → o.halt = none → o.misses.length < 1024 →
      (∀ x ∈ o.misses, x.page ≠ m.page) → (∀ g ∈ s.allGroups, g.mqWait = 0) →
      ∃ t, exec (.missQueued o.id) s = .next t ∧ t.owners = [{ o with missWaiting := rest, misses := o.misses ++ [{ m with mid := o.missSeq }], missSeq := o.missSeq + 1 }] ∧
        t.cur = s.cur)

/-- R292, R294, R295, R298. Held data arrives in its column of a tile row, or of a cask row whose page can be written, and its row is
WOKEN; at 2,048 clk with a woken row a launch is due; a due launch, when no other bin of the team is configured, makes a group of
its first woken rows, lane i from the i-th, at the bin's resume PC on an SP of the team with room, and those rows are LAUNCHED; a
refill moves the one cask row to the lowest free tile row. Which of them comes next is a turn (log entry 9). -/
def Obligations.BinEvents : Prop :=
  ∀ (s : State) (bn r c ρ : Nat) (x : Word) (b : Bin) (tl : Tile), s.curTeam.bin bn = some b → s.curTeam.tid = s.cur.team → b.tile = tl.num →
    s.tileReady tl.num tl → tl.kind = 0 → s.curTeam.owner = s.cur.owner →
    (b.rows = [⟨r, .loading, false, some (c, x, false), ρ⟩] → r < tl.rows → c < tl.cols →
      ∃ t b', exec (.vldfDelivery s.cur.team bn r false) s = .next t ∧ (t.teamOf s.cur.team).bin bn = some b' ∧
        b'.rows = [⟨r, .woken, false, none, 0⟩] ∧ t.elem s.curTeam tl r c = x.toNat ∧ t.cur = s.cur ∧
        ∀ j, ¬ (localKey s.curTeam (tl.at r c) ≤ j ∧ j < localKey s.curTeam (tl.at r c) + 4) → t.mem.get j = s.mem.get j) ∧
    (∀ k : Nat, b.cask = [⟨r, .loading, false, some (c, x, false), ρ⟩] → c < 64 → s.frameLost k = false → s.keyless k = false →
      s.engXlate s.cur.owner s.curTeam s.curTeam.core .write (b.caskAddr + BitVec.ofNat 64 (256 * r + 4 * c)) = .ok k →
      ∃ t b', exec (.vldfDelivery s.cur.team bn r true) s = .next t ∧ (t.teamOf s.cur.team).bin bn = some b' ∧ b'.cask = [⟨r, .woken, false, none, 0⟩] ∧
        leNat (Memory.bytes t.mem k 4) = x.toNat ∧ (∀ j, j < k ∨ k + 4 ≤ j → t.mem.get j = s.mem.get j) ∧ t.cur = s.cur) ∧
    (2048 ≤ b.timer → (∃ q ∈ b.rows, q.st = .woken) →
      ∃ t b', exec (.flushTimer s.cur.team bn) s = .next t ∧ (t.teamOf s.cur.team).bin bn = some b' ∧ b' = { b with due := true } ∧ t.mem = s.mem ∧
        t.cur = s.cur) ∧
    (∀ gn sp : Nat, b.due = true → s.curTeam.bins = [b] → s.curOwner.halt = none → s.freeGnum s.cur.team = some gn →
      s.roomiest s.curTeam.owner s.curTeam.sps (s.gridOf s.curTeam.grid).record.width = some sp → b.wokenRows tl.rows ≠ [] →
      0 < (s.gridOf s.curTeam.grid).record.width → (s.gridOf s.curTeam.grid).record.width ≤ 64 →
      ∃ t g b', exec (.binLaunch s.cur.team bn) s = .next t ∧ t.groups = s.groups ++ [g] ∧ t.cur = s.cur ∧ t.mem = s.mem ∧ g.kind = .bin ∧ g.bin = bn ∧
        g.team = s.cur.team ∧ g.gnum = gn ∧ g.sp = sp ∧ g.frameldDone = false ∧ g.hlv = false ∧
        g.rows = (List.range (g.rows.length)).zip ((b.wokenRows tl.rows).take (s.gridOf s.curTeam.grid).record.width) ∧
        g.rows.length = min (s.gridOf s.curTeam.grid).record.width (b.wokenRows tl.rows).length ∧
        (∀ l, l < 64 → (g.live.has l = true ↔ l < g.rows.length)) ∧ (∀ l, l < g.rows.length → g.pc.get l = b.resume) ∧
        (t.teamOf s.cur.team).bin bn = some b' ∧ b'.due = false ∧ ∀ q ∈ g.rows, b'.row q.2 = .launched) ∧
    (∀ (q : Row) (k : Nat), b.cask = [q] → r < tl.rows → b.row r = .free → (∀ i, i < r → b.row i ≠ .free) → q.st ≠ .free → s.curOwner.halt = none →
      s.engXlate s.cur.owner s.curTeam s.curTeam.core .read (b.caskAddr + BitVec.ofNat 64 (256 * q.num)) = .ok k → s.poisoned k 256 = false →
      ∃ t b', exec (.caskRefill s.cur.team bn) s = .next t ∧ (t.teamOf s.cur.team).bin bn = some b' ∧ b'.cask = [] ∧ b'.row r = q.st ∧ b'.refill = false ∧
        (∀ i, i < tl.cols → t.elem s.curTeam tl r i = leNat (Memory.bytes s.mem (k + 4 * i) 4)) ∧
        ∀ j, (∀ i, i < tl.cols → ¬ (localKey s.curTeam (tl.at r i) ≤ j ∧ j < localKey s.curTeam (tl.at r i) + 4)) → t.mem.get j = s.mem.get j)

/-- R314, R330, R331: a walk handler group claims the first 64 unclaimed misses, one lane each with the page's address in v0:v1; a
fault batch gets a PAGE handler group, one lane for each page, which holds the address in v0:v1, the parked lanes in v2:v3 and
what the access was in v4; a page request gets a group of its own, on the SP that is the model's choice for it (log entry 21:
DEDUCED). Each is at handler level from its first word, at the table's entry. Which of them comes next is a turn (log entry 9). -/
def Obligations.HandlerGroupLaunches : Prop :=
  ∀ (s : State) (o : Owner) (sp : Nat), s.owners = [o] → o.halt = none →
    (∀ (m : Miss) (rest L : List Miss), o.unclaimed = m :: rest → L = o.unclaimed.take 64 → s.walkSp o.id = some sp →
      ∃ t g, exec (.walkHandlerLaunch o.id) s = .next t ∧ t.groups = s.groups ++ [g] ∧ t.cur = s.cur ∧ t.mem = s.mem ∧ g.kind = .walk ∧ g.sp = sp ∧
        g.owner = o.id ∧ g.hlv = true ∧ g.cause = 1 ∧ g.width = 64 ∧ g.tval = pageVa m.page ∧ g.tlane = Mask.upto L.length ∧
        (∀ l, l < 64 → (g.live.has l = true ↔ l < L.length) ∧ g.hl.has l = g.live.has l) ∧
        (∀ l x, L[l]? = some x → pairW (g.vraw 1 l) (g.vraw 0 l) = pageVa x.page ∧ g.pc.get l = (s.tableFor o.id m.grid).getD 1 0) ∧
        ∀ x ∈ (t.ownerOf o.id).misses, x.request = false → (∃ y ∈ L, y.page = x.page) → x.claimed = true) ∧
    (∀ (b : Batch) (p : Nat) (m : Mask) (va : DWord) (rest : List (Nat × Mask × DWord)) (fg : Group), o.batches = [b] → b.pages = (p, m, va) :: rest →
      s.groupOf b.gid = some fg → fg.sp = sp → b.pages.length ≤ fg.width → fg.width ≤ 64 → s.slotEmpty sp = true → s.walkSp o.id ≠ some sp →
      ∃ t g, exec (.pageHandlerLaunch sp) s = .next t ∧ t.groups = s.groups ++ [g] ∧ t.cur = s.cur ∧ t.mem = s.mem ∧ g.kind = .page ∧ g.sp = sp ∧
        g.hlv = true ∧ g.cause = 2 ∧ g.tval = va ∧ g.tlane = m ∧ g.live = Mask.upto b.pages.length ∧ g.hl = g.live ∧
        (∀ l x, b.pages[l]? = some x → pairW (g.vraw 1 l) (g.vraw 0 l) = x.2.2 ∧ pairW (g.vraw 3 l) (g.vraw 2 l) = x.2.1 ∧
          g.vraw 4 l = BitVec.ofNat 32 ((if b.write then 1 else 0) + (if b.fetch then 2 else 0) + 256 * (fg.gnum % 16)) ∧
          g.pc.get l = (s.tableFor o.id b.grid).getD 2 0) ∧ (t.ownerOf o.id).batches = []) ∧
    (∀ m : Miss, o.misses = [m] → m.request = true → m.claimed = false → o.batches = [] → (s.tableFor o.id m.grid).getD 2 0 ≠ 0 →
      s.handlerSp o.id m.sp = some sp →
      ∃ t g, exec (.requestHandlerLaunch o.id) s = .next t ∧ t.groups = s.groups ++ [g] ∧ t.cur = s.cur ∧ t.mem = s.mem ∧ g.kind = .request ∧ g.sp = sp ∧
        g.hlv = true ∧ g.cause = 2 ∧ g.live = Mask.upto 1 ∧ g.pc.get 0 = (s.tableFor o.id m.grid).getD 2 0 ∧ pairW (g.vraw 1 0) (g.vraw 0 0) = pageVa m.page ∧
        (t.ownerOf o.id).misses = [{ m with claimed := true }])

/-- R318, R353-R355, R393: the record of a halt joins the ring's sequence once, unless the TDI is in ERROR; the oldest waiting record
is written to its slot when that is free; the reply to a group's trap gives its four words to s0-s3, and the lanes that trapped go
on; a write of LQ queues a launch. Which of them comes next is a turn (log entry 9). -/
def Obligations.RingEvents : Prop :=
  ∀ (s : State) (o : Owner), s.owners = [o] →
    (∀ h : Halt, o.halt = some h → s.stopped o.id = true → h.written = false → o.tdi ≠ .error →
      ∃ t, exec (.haltRecord o.id) s = .next t ∧ (t.ownerOf o.id).halt = some { h with written := true } ∧ (t.ownerOf o.id).ringSeq = o.ringSeq + 1 ∧
        t.cur = s.cur) ∧
    (∀ h : Halt, o.halt = some h → h.written = true ∨ o.tdi = .error → ∃ t, exec (.haltRecord o.id) s = .next t ∧ t = s) ∧
    (∀ (r : RingRec) (rest : List RingRec) (key : Nat), o.ringWaiting = r :: rest → o.replies = [] → o.pollAt.toNat ≤ s.cyc.toNat → s.upsets = [] →
      s.ringSlot o.id r.seq = .free →
      (∀ i, i < r.bytes.length → s.engXlate o.id Team.none cpCore .write (o.slotVa r.seq + BitVec.ofNat 64 i) = .ok (key + i) ∧ s.frameLost (key + i) = false ∧
        s.keyless (key + i) = false) →
      ∀ i ∈ ([.trapRecord o.id, .syscallSlotPoll o.id] : List Instr), ∃ t, exec i s = .next t ∧ (t.ownerOf o.id).ringWaiting = rest ∧
        Memory.bytes t.mem key r.bytes.length = r.bytes ∧ t.cur = s.cur ∧
        ∀ j, j < key ∨ key + r.bytes.length ≤ j → t.mem.get j = s.mem.get j) ∧
    (∀ (q : BitVec 32) (m : Mask) (ws : List Word), o.replies = [] → o.halt = none → s.settled → s.cur.owner = o.id → s.cur.trap = some (q.toNat, m) →
      (s.modOwner o.id (fun x => { x with replies := x.replies ++ [q] })).ringSlot o.id q.toNat = .reply ws →
      ∃ t, exec (.reply o.id q) s = .next t ∧ t.cur.trap = none ∧ (t.ownerOf o.id).replies = [] ∧
        (∀ k, k < 4 → t.cur.sreg k = ws.getD k 0) ∧ (∀ k, 4 ≤ k → t.cur.sreg k = s.cur.sreg k) ∧
        ∀ l, l < 64 → t.cur.pc.get l = if m.has l then s.cur.pc.get l + 4 else s.cur.pc.get l) ∧
    (∀ va : BitVec 64, o.id ≠ 0 → o.halt = none →
      ∃ t, exec (.lq o.id va) s = .next t ∧ t = { s with owners := [{ o with launches := o.launches ++ [va] }] })

/-- R305-R312, R393, R397-R400, R416. LAUNCH writes the code of its refusal, 4 for a record not on 64 bytes, or 0 with a new grid in
the queue, numbered next, or goes on while earlier launches of the owner wait. LAUNCH_ACCEPT answers the oldest device launch that
is refused, else takes up the oldest host launch, or refuses it with a record. A team is placed at the place found for it with its
groups at the entry; a gang that has its places starts as a whole, and ages at 2^16 clk; a team that is over leaves with its
groups and frees its banks; a grid that is over (here with no results, measurements and completion address) completes with its
word; the receipt's notice releases it, here without a receipt ring, and it is gone once no group runs for it. Which of them comes
next is a turn (log entry 9). -/
def Obligations.GridLifecycle : Prop :=
  ∀ (s : State) (h : Hdr) (d a grid : Nat),
    (s.settled → s.cur.await = [] → s.uguard h = true → s.cur.hlv = false → d < s.cur.sregs → a % 2 = 0 → a + 2 ≤ s.cur.sregs →
      (s.curOwner.devLaunches = [] →
        ((s.cur.spair a).toNat % 64 ≠ 0 → (∀ o ∈ s.owners, o.cpAsked = []) → ∃ t, exec (.launch h d a) s = .next t ∧ s.wroteS t d 4 4) ∧
        (∀ c : Nat, s.accept s.cur.owner s.cur.grid s.cur.sp true (s.cur.spair a) = .refuse c →
          ∃ t, exec (.launch h d a) s = .next t ∧ t.cur.sreg d = BitVec.ofNat 32 c ∧ (∀ r, r ≠ d → t.cur.sreg r = s.cur.sreg r) ∧ s.wentOn t 4 ∧ t.mem = s.mem ∧
            t.grids = s.grids ∧ (c ≠ 5 → (∀ o ∈ s.owners, o.cpAsked = []) → s.wroteS t d 4 (BitVec.ofNat 32 c))) ∧
        (∀ u : State, s.accept s.cur.owner s.cur.grid s.cur.sp true (s.cur.spair a) = .ok u →
          ∃ t g, exec (.launch h d a) s = .next t ∧ s.wentOn t 4 ∧ t.cur.sreg d = 0 ∧ (∀ r, r ≠ d → t.cur.sreg r = s.cur.sreg r) ∧ t.grids = s.grids ++ [g] ∧
            g.owner = s.cur.owner ∧ g.device = true ∧ g.number = s.curOwner.launchCounter + 1 ∧ g.done = false ∧ g.nextTeam = 0 ∧ t.mem = s.mem)) ∧
      (s.curOwner.devLaunches ≠ [] →
        ∃ t, exec (.launch h d a) s = .next t ∧ s.wentOn t 4 ∧ t.cur.s = s.cur.s ∧ t.grids = s.grids ∧ t.mem = s.mem ∧
          (t.ownerOf s.cur.owner).devLaunches = s.curOwner.devLaunches ++ [⟨s.cur.gid, s.cur.grid, s.cur.sp, d, s.cur.spair a⟩])) ∧
    (∀ o : Owner, s.owners = [o] → o.halt = none →
      (∀ (l : DevLaunch) (rest : List DevLaunch) (c : Nat), o.devLaunches = l :: rest → s.cur.gid = l.gid → s.accept o.id l.grid l.sp true l.va = .refuse c →
        ∃ t, exec (.launchAccept o.id) s = .next t ∧ (t.ownerOf o.id).devLaunches = rest ∧ t.cur = s.cur.setS l.dst (BitVec.ofNat 32 c) ∧ t.mem = s.mem) ∧
      (∀ (va : DWord) (rest : List DWord), o.devLaunches = [] → o.launches = va :: rest →
        (∀ u : State, s.accept o.id 0 4096 false va = .ok u →
          ∃ t g, exec (.launchAccept o.id) s = .next t ∧ t.grids = s.grids ++ [g] ∧ g.owner = o.id ∧ g.device = false ∧ g.number = o.launchCounter + 1 ∧
            (t.ownerOf o.id).launches = rest ∧ t.mem = s.mem) ∧
        (∀ c : Nat, s.accept o.id 0 4096 false va = .refuse c →
          ∃ t, exec (.launchAccept o.id) s = .next t ∧ t.grids = s.grids ∧ (t.ownerOf o.id).launches = rest ∧ (t.ownerOf o.id).ringSeq = o.ringSeq + 1))) ∧
    ((s.gridOf grid).gid ≠ 0 → (s.gridOf grid).done = false → (s.gridOf grid).nextTeam < (s.gridOf grid).record.teams →
      (s.ownerOf (s.gridOf grid).owner).halt = none →
      ((s.gridOf grid).record.gang = 0 → (s.gridOf grid).record.width ≤ 64 →
        ∀ (p : Site) (off : Nat), s.findPlace (s.gridOf grid) (s.gridOf grid).record.lanesAt (fun sp => !(s.agedBlocks (s.gridOf grid) sp)) = some p →
        s.saveSlot (s.ownerOf (s.gridOf grid).owner) 0 (s.gridOf grid).record.imageSize = some off →
        ∃ t tm gs, exec (.teamPlacement grid) s = .next t ∧ t.teams = s.teams ++ [tm] ∧ tm.grid = grid ∧ tm.num = (s.gridOf grid).nextTeam ∧ tm.sps = p.sps ∧
          tm.banks = p.banks ∧ tm.saveOff = off ∧ t.groups = s.groups ++ gs ∧ gs.length = (s.gridOf grid).record.groups ∧ t.cur = s.cur ∧
          (t.gridOf grid).nextTeam = (s.gridOf grid).nextTeam + 1 ∧ ∀ g ∈ gs, g.grid = grid ∧ g.team = tm.tid ∧
            g.live = Mask.upto (s.gridOf grid).record.width ∧ ∀ l, l < (s.gridOf grid).record.width → g.pc.get l = (s.gridOf grid).record.entry) ∧
      (∀ u : State, 0 < (s.gridOf grid).record.gang → (s.oldestGang (s.gridOf grid).owner).map (·.gid) = some grid →
        s.placeGang grid (s.gridOf grid).gangSize = some u →
        ∃ t, exec (.gangStart grid) s = .next t ∧ t.teams.length = s.teams.length + (s.gridOf grid).gangSize ∧ (t.gridOf grid).gangReserved = [] ∧
          (t.gridOf grid).aged = false ∧ t.cur = s.cur)) ∧
    (∀ (ow : Nat) (g : Grid), s.oldestGang ow = some g → s.gridOf g.gid = g → g.gangWait + 65536 ≤ s.cyc.toNat →
      ∃ t, exec (.gangAgeing ow) s = .next t ∧ t.gridOf g.gid = { g with aged := true } ∧ t.cur = s.cur ∧ t.mem = s.mem) ∧
    (∀ tid : Nat, (s.teamOf tid).tid ≠ 0 → s.teamOver (s.teamOf tid) = true → (s.ownerOf (s.teamOf tid).owner).halt = none →
      ∃ t, exec (.teamRetire tid) s = .next t ∧ t.teams = s.teams.filter (fun x => x.tid != tid) ∧ t.mem = s.mem ∧
        (∀ b ∈ (s.teamOf tid).banks ++ (s.teamOf tid).partnerBanks, (t.bankOf b).fence = 0) ∧ ∀ g ∈ t.groups, g.team ≠ tid) ∧
    ((s.gridOf grid).gid ≠ 0 → (s.gridOf grid).complWord = 0 → (s.gridOf grid).done = false → s.gridOver (s.gridOf grid) = true →
      (s.ownerOf (s.gridOf grid).owner).halt = none → (s.gridOf grid).results = [] → (s.gridOf grid).meas = [] → (s.gridOf grid).record.compl = 0 →
      s.stallWaits (s.gridOf grid).owner = none →
      ∃ t, exec (.gridCompletion grid) s = .next t ∧ (t.gridOf grid).done = true ∧ (t.gridOf grid).endCyc = s.cyc ∧
        (t.gridOf grid).complWord = BitVec.ofNat 32 (1 + (if (s.gridOf grid).terminated then 2 else 0) + 4 * min (s.gridOf grid).discarded (2 ^ 30 - 1)) ∧
        (t.gridOf grid).chain = (s.gridOf grid).chain) ∧
    (∀ o : Owner, s.owners = [o] → (s.gridOf grid).gid ≠ 0 → (s.gridOf grid).owner = o.id → (s.gridOf grid).complWord ≠ 0 → o.halt = none → o.receiptCount = 0 →
      (s.gridOf grid).released = false → (∀ g ∈ s.grids, g.released = false) →
      ∃ t, exec (.receiptWrite grid) s = .next t ∧
        ((∀ g ∈ s.contextGroups, g.grid ≠ grid ∨ g.alive = false) → t.grids = s.grids.filter (fun g => g.gid != grid)) ∧
        ((∃ g ∈ s.contextGroups, g.grid = grid ∧ g.alive = true) → (t.gridOf grid).released = true) ∧
        (t.ownerOf o.id).finalChain = (s.gridOf grid).chain ∧ (t.ownerOf o.id).ringSeq = o.ringSeq + 1 ∧ t.mem = s.mem ∧ t.cur = s.cur)

/-- R341-R345. A pre-emption is recorded; the swap moves the SP's one group to the shadow bank and takes the groups there in, and no
group of the SP is ready until 64 clk have passed; the spill makes a record of the context, with its place in the owner's save
area, and empties the shadow bank; a fill puts a saved context whose records are good into the shadow bank; a team no engine works
for, here of one group and no matrix program, is evicted whole with the bytes of its banks, which are freed; an evicted team whose
records are good stands on the place found for it, its groups on the SPs of the same positions. Parts of the image whose layout
the spec leaves open are as log entry 14 has them. -/
def Obligations.PreemptionStages : Prop :=
  ∀ (s : State) (sp ctx : Nat), s.spOf sp ∈ s.sps → (s.spOf sp).num = sp →
    (∀ inc : Option Nat, (s.spOf sp).up = true → (s.spOf sp).preempt = false → (s.spOf sp).shadowOwner = 0 →
      s.haltKeeps 0 sp = false → (∀ c, inc = some c → s.mayEnter c sp = true) →
      ∃ t, exec (.preemption sp inc) s = .next t ∧ t.spOf sp = { s.spOf sp with preempt := true, incoming := inc } ∧ t.cur = s.cur ∧ t.mem = s.mem) ∧
    ((s.spOf sp).preempt = true → s.haltKeeps 0 sp = false → s.cur.sp = sp → s.cur.alive = true → s.groups = [] → s.settled →
      ((s.spOf sp).incoming = none ∧ (s.spOf sp).shadowOwner = 0 ∧ (s.spOf sp).filled = false) ∨ ((s.spOf sp).incoming ≠ none ∧ (s.spOf sp).filled = true) →
      ∃ t, exec (.bankSwap sp) s = .next t ∧ (t.spOf sp).shadow = [{ s.cur with inRun := false, await := [] }] ∧ (t.spOf sp).swapClk = 64 ∧
        (t.spOf sp).preempt = false ∧ (t.spOf sp).shadowMe = (if s.cur.owner = 0 then Me.idle else s.meOf sp) ∧ (t.spOf sp).me = (s.spOf sp).shadowMe ∧ (t.spOf sp).shadowOwner = s.cur.owner ∧
        (t.spOf sp).freed = !(s.spOf sp).filled ∧ t.cur.alive = false ∧ t.groups = (s.spOf sp).shadow ∧ t.mem = s.mem ∧
        ∀ g : Group, g.sp = sp → t.ready g = 0) ∧
    (∀ (g : Group) (off : Nat) (bs : List (BitVec 8)), (s.spOf sp).shadow = [g] → (s.spOf sp).shadowMe = Me.idle → (s.spOf sp).shadowOwner ≠ 0 →
      (s.spOf sp).filled = false → (s.ownerOf (s.spOf sp).shadowOwner).halt = none → g.team ≠ 0 →
      bs = imageBytes 0 (s.teamOf g.team) (s.launchOf (s.teamOf g.team)) s.cyc s.freeCtr [g] [] → s.stallWaits (s.spOf sp).shadowOwner = none → s.partSlot (s.teamOf g.team) bs.length = some off →
      s.writesReady (s.spOf sp).shadowOwner [((s.ownerOf (s.teamOf g.team).owner).saveVa + BitVec.ofNat 64 off, bs.length)] = .go →
      ∃ t x, exec (.contextSpill sp) s = .next t ∧ t.saved = s.saved ++ [x] ∧ x.groups = [g] ∧ x.was = [g] ∧ x.sp = sp ∧ x.eviction = false ∧
        x.owner = (s.spOf sp).shadowOwner ∧ x.va = (s.ownerOf (s.teamOf g.team).owner).saveVa + BitVec.ofNat 64 off ∧
        x.len = bs.length ∧ (t.spOf sp).shadow = [] ∧ (t.spOf sp).shadowOwner = 0 ∧ t.cur = s.cur) ∧
    (∀ x : Saved, s.saved = [x] → x.ctx = ctx → x.eviction = false → (s.spOf sp).preempt = true → (s.spOf sp).incoming = some ctx →
      (s.spOf sp).shadowOwner = 0 → s.mayEnter ctx sp = true → s.imagesReady [x] = none → s.badHeader x = none →
      (∀ y ∈ s.readContext x (fun _ => 1024), y.2 = none) →
      ∃ t, exec (.contextFill sp ctx) s = .next t ∧ (t.spOf sp).shadow = (s.readContext x (fun _ => 1024)).map (·.1) ∧ (t.spOf sp).shadowOwner = x.owner ∧
        (t.spOf sp).filled = true ∧ t.saved = [] ∧ t.cur = s.cur ∧ t.mem = s.mem) ∧
    (∀ tm : Team, s.teams = [tm] → tm.tid ≠ 0 → s.groups = [] → s.cur.team = tm.tid → s.cur.alive = true → s.settled → s.saved = [] → s.chains = [] → s.steeps = [] →
      (∀ p ∈ s.sps, p.shadow = [] ∧ p.shadowMe = Me.idle) → (s.ownerOf tm.owner).halt = none → (s.gridOf tm.grid).record.matrix = false →
      (imageBytes 1 tm (s.launchOf tm) s.cyc s.freeCtr [{ s.cur with inRun := false, await := [] }] []).length ≤ tm.saveLen → s.stallWaits (s.ownerOf tm.owner).id = none →
      s.writesReady (s.ownerOf tm.owner).id [((s.ownerOf tm.owner).saveVa + BitVec.ofNat 64 tm.saveOff,
        (imageBytes 1 tm (s.launchOf tm) s.cyc s.freeCtr [{ s.cur with inRun := false, await := [] }] []).length)] = .go →
      ∃ t x, exec (.teamEviction tm.tid) s = .next t ∧ t.saved = [x] ∧ x.eviction = true ∧ x.team = some tm ∧
        x.groups = [{ s.cur with inRun := false, await := [] }] ∧ x.bankBytes = s.bankImage (tm.banks ++ tm.partnerBanks) ∧
        t.teams = [] ∧ t.groups = [] ∧ t.cur.alive = false ∧ ∀ b ∈ tm.banks ++ tm.partnerBanks, (t.bankOf b).fence = 0) ∧
    (∀ (x : Saved) (tm : Team) (pl : Site) (L : List (Group × Option DWord)), s.saved = [x] → x.eviction = true → x.team = some tm → (s.ownerOf x.owner).halt = none →
      s.findPlace (s.gridOf tm.grid) (fun k => lanesFor (tm.sps.getD k 0) x.groups) (fun p => !(s.agedBlocks (s.gridOf tm.grid) p)) = some pl →
      s.imagesReady [x] = none → s.badHeader x = none → L = s.readContext x (fun p => 1024 - s.lanesOn (pl.sps.getD ((tm.sps.findIdx? (· == p)).getD 0) 0)) → (∀ y ∈ L, y.2 = none) →
      ∃ t tm', exec (.teamRestore tm.tid) s = .next t ∧ t.saved = [] ∧ t.cur = s.cur ∧ t.teams = s.teams ++ [tm'] ∧ tm'.tid = tm.tid ∧ tm'.core = pl.core ∧
        tm'.sps = pl.sps ∧ tm'.banks = pl.banks ∧ tm'.partnerBanks = pl.partnerBanks ∧ t.groups.length = s.groups.length + L.length ∧
        (∀ y ∈ L, ∃ g ∈ t.groups, g.gid = y.1.gid ∧ g.pc = y.1.pc ∧ g.v = y.1.v ∧ g.s = y.1.s ∧
          g.sp = pl.sps.getD ((tm.sps.findIdx? (· == y.1.sp)).getD 0) 0) ∧
        ∀ b ∈ pl.banks ++ pl.partnerBanks, (t.bankOf b).fence = x.owner)

/-- R281, R282, R285, R378-R381. A peer is lost to every owner, or for cause 2 to one: an owner that names it gets a record, and the
destination of each stream of it is poisoned and let go; a port goes down, and a peer with no other port is lost; a flit that
fails its CRC draws a replay, the 16th takes the port down, a good one advances it, one that fails its world tag makes the access
it carried a read of poison or a discarded write (log entry 11), and so do all of a peer that has not got the owner's world key;
an access of one that has reads or writes the owner's export, or is refused beyond it and logged; a packet in order advances its
flow, one that fails its check is dropped (an upset, log entry 11); a key register is loaded with the owner's next epoch, and past
the last epoch the owner halts. A bad packet is an upset (log entry 11). -/
def Obligations.LinkEvents : Prop :=
  ∀ (s : State) (dev port owner offset n : Nat) (o : Owner), s.owners = [o] → o.id ≠ 0 → owner = o.id →
    (∀ cause : Nat, s.lostFor o dev = false → dev ∈ o.peers → (cause = 2 → s.worldEnds = [(o.id, dev)]) →
      ∃ t, exec (.peerLost dev cause) s = .next t ∧ t.worldEnds = (if cause = 2 then [] else s.worldEnds) ∧ t.lostPeers = (if cause = 2 then s.lostPeers else s.lostPeers ++ [dev]) ∧
        t.lostFor (t.ownerOf o.id) dev = true ∧ (t.ownerOf o.id).ringSeq = o.ringSeq + 1 ∧ (∀ x ∈ t.inbound, x.dev = dev → x.owner ≠ o.id) ∧
        (∀ x ∈ s.inbound, x.dev = dev → x.owner = o.id → ∀ i k, i < x.len → s.exportKey o (x.start + i) = some k → blockOf k ∈ t.poison) ∧
        t.mem = s.mem ∧ t.cur = s.cur) ∧
    ((∀ r ∈ s.routes, ∃ q ∈ r.2, q ≠ port ∧ (s.portOf q).state ≠ 0) →
      ∃ t, exec (.portDown port) s = .next t ∧ (t.portOf port).state = 0 ∧ (∀ p, p ≠ port → t.portOf p = s.portOf p) ∧ t = { s with ports := t.ports }) ∧
    (∀ r : Nat × List Nat, s.routes = [r] → (∀ q ∈ r.2, q = port ∨ (s.portOf q).state = 0) →
      ∃ t, exec (.portDown port) s = .next t ∧ (t.portOf port).state = 0 ∧ r.1 ∈ t.lostPeers) ∧
    ((s.portOf port).num = port → (s.portOf port).state = 2 →
      (∃ t, exec (.flitReceive port (s.portOf port).seq true true 0) s = .next t ∧ (t.portOf port).seq = ((s.portOf port).seq + 1) % 65536 ∧
        (t.portOf port).sameReplays = 0 ∧ t = { s with ports := t.ports }) ∧
      (∃ t, exec (.flitReceive port (s.portOf port).seq true false 0) s = .next t ∧ (t.portOf port).seq = ((s.portOf port).seq + 1) % 65536 ∧
        t.upsets = s.upsets ++ [.badFlit] ∧ t.mem = s.mem) ∧
      ((s.portOf port).sameReplays < 15 →
        ∃ t, exec (.flitReceive port (s.portOf port).seq false true 0) s = .next t ∧ (t.portOf port).sameReplays = (s.portOf port).sameReplays + 1 ∧
          (t.portOf port).seq = (s.portOf port).seq ∧ (t.portOf port).state = 2) ∧
      (15 ≤ (s.portOf port).sameReplays → ∃ t, exec (.flitReceive port (s.portOf port).seq false true 0) s = .next t ∧ (t.portOf port).state = 0)) ∧
    (∀ ks : List Nat, o.halt = none → s.lostFor o dev = false → s.exportKeys o offset n = some ks → (∀ k ∈ ks, s.poisoned k 1 = false) →
      (∃ x ∈ o.peerKeys, x.1 = dev) →
      ∃ t, exec (.peerAccess dev owner offset (.read n)) s = .next t ∧ t.mem = s.mem ∧ t.cur = s.cur ∧
        t.answer = if s.upsets.contains .badFlit then .data (List.replicate n 0) true else .data (ks.map s.mem.get) false) ∧
    (∀ (ks : List Nat) (d : List (BitVec 8)), o.halt = none → s.lostFor o dev = false → s.exportKeys o offset d.length = some ks → s.upsets = [.badFlit] →
      ∃ t, exec (.peerAccess dev owner offset (.write d)) s = .next t ∧ t.mem = s.mem ∧ t.upsets = [] ∧ t.cur = s.cur) ∧
    (∀ (ks : List Nat) (d : List (BitVec 8)), o.halt = none → s.lostFor o dev = false → s.exportKeys o offset d.length = some ks → ks.Nodup → s.upsets = [] → (∃ x ∈ o.peerKeys, x.1 = dev) →
      (∀ k ∈ ks, s.frameLost k = false ∧ s.keyless k = false) →
      ∃ t, exec (.peerAccess dev owner offset (.write d)) s = .next t ∧ ks.map t.mem.get = d ∧ (∀ j, j ∉ ks → t.mem.get j = s.mem.get j) ∧ t.cur = s.cur) ∧
    (∀ (ks : List Nat) (d : List (BitVec 8)), o.halt = none → s.lostFor o dev = false → s.exportKeys o offset d.length = some ks → s.upsets = [] →
      (∀ x ∈ o.peerKeys, x.1 ≠ dev) →
      (∃ t, exec (.peerAccess dev owner offset (.read d.length)) s = .next t ∧ t.answer = .data (List.replicate d.length 0) true ∧ t.mem = s.mem) ∧
      ∃ t, exec (.peerAccess dev owner offset (.write d)) s = .next t ∧ t.mem = s.mem ∧ t.cur = s.cur) ∧
    (o.halt = none → s.lostFor o dev = false → s.exportKeys o offset n = none →
      ∃ t, exec (.peerAccess dev owner offset (.read n)) s = .next t ∧ t.answer = .error ∧ t.mem = s.mem ∧ t.violations.length = min 256 (s.violations.length + 1)) ∧
    (∀ (flow epoch addr : Nat) (w : Bool), (s.flowOf flow).flow = flow → (s.flowOf flow).epoch = epoch →
      (∃ t, exec (.packetReceive flow epoch (s.flowOf flow).expected true addr w) s = .next t ∧
        (t.flowOf flow).expected = (s.flowOf flow).expected + 1 ∧ t.upsets = s.upsets ∧ t.mem = s.mem) ∧
      (∃ t, exec (.packetReceive flow epoch (s.flowOf flow).expected false addr w) s = .next t ∧
        t.upsets = s.upsets ++ [.badPacket (addr / 64) w] ∧ t.mem = s.mem)) ∧
    (s.kilnStopped = true → ∃ t, exec (.keyRegisterLoad port owner) s = .next t ∧ t = s) ∧
    (s.kilnStopped = false → o.epoch + 1 ≤ 2 ^ 24 - 1 →
      ∃ t, exec (.keyRegisterLoad port owner) s = .next t ∧ (t.ownerOf o.id).epoch = o.epoch + 1 ∧ t.mem = s.mem ∧
        ∃ k ∈ t.portKeys, k.port = port ∧ k.owner = o.id ∧ k.epoch = o.epoch + 1) ∧
    (s.kilnStopped = false → 2 ^ 24 - 1 < o.epoch + 1 → o.halt = none →
      ∃ t h, exec (.keyRegisterLoad port owner) s = .next t ∧ (t.ownerOf o.id).halt = some h ∧ h.kind = 4 ∧ t.portKeys = s.portKeys)

/-- R387-R393, R395, R396. A TDI is locked, started and stopped; its registers can be written before it is locked, and HATOM before
the first lock. On a locked TDI a write that would change a register, a register that differs from the digest, or a completion
that fails its check moves it to ERROR and halts the owner with kind 3; a failure of the link does so for every TDI in RUN. A
completion delivers its data; one with an error, or none in time, delivers poison. A key switch takes the other set, and the old
one is erased when nothing needs it. A write of the page's LQ queues a launch, one of no register is logged; a read of telemetry
gives the item, or 0 and a count when the allow-list does not name it. SPDM is answered, and refused by a device that bring-up
holds. The numbering of the locked registers is the model's (log entry 34). -/
def Obligations.HostInterfaceEvents : Prop :=
  ∀ (s : State) (o : Owner), s.owners = [o] → o.id ≠ 0 →
    (o.tdi = .unlocked →
      (∃ t, exec (.lockInterface o.id) s = .next t ∧ t.answer = .ok ∧ (t.ownerOf o.id).tdi = .locked ∧ (t.ownerOf o.id).lockDigest = some o.digest ∧ t.mem = s.mem) ∧
      (∃ t, exec (.startInterface o.id) s = .next t ∧ t = { s with answer := .error }) ∧
      (∀ (reg : Nat) (v : BitVec 32), ∃ t, exec (.lockedRegisterWrite o.id reg v) s = .next t ∧ (t.ownerOf o.id).lockedRegs.getD reg 0 = v ∧ (t.ownerOf o.id).tdi = .unlocked) ∧
      (o.lockDigest = none → ∀ v : BitVec 32, ∃ t, exec (.hatom o.id v) s = .next t ∧ (t.ownerOf o.id).hatom = v &&& 3)) ∧
    (o.tdi = .locked → ∃ t, exec (.startInterface o.id) s = .next t ∧ t.answer = .ok ∧ (t.ownerOf o.id).tdi = .run) ∧
    (o.tdi ≠ .error → ∃ t, exec (.stopInterface o.id) s = .next t ∧ t.answer = .ok ∧ (t.ownerOf o.id).tdi = .unlocked) ∧
    ((o.tdi = .locked ∨ o.tdi = .run) → o.halt = none →
      ∀ (i : Instr), (i = .lockWalker o.id ∧ o.lockDigest ≠ some o.digest) ∨ (∃ reg v, i = .lockedRegisterWrite o.id reg v ∧ o.lockedRegs.getD reg 0 ≠ v) ∨
          (∃ v, i = .hatom o.id v ∧ o.hatom ≠ v &&& 3) ∨ (∃ rid k, i = .hostCompletion o.id rid k false true false) ∨
          (o.tdi = .run ∧ ∃ rid k, i = .hostCompletion o.id rid k true false false) →
        ∃ t h, exec i s = .next t ∧ (t.ownerOf o.id).tdi = .error ∧ (t.ownerOf o.id).lockedRegs = o.lockedRegs ∧ (t.ownerOf o.id).hatom = o.hatom ∧
          (t.ownerOf o.id).halt = some h ∧ h.kind = 3 ∧ h.written = false) ∧
    (∀ r : HostReq, o.tdi = .run → o.halt = none → o.kOld = false → o.hostReqs = [r] → s.cur.gid = r.gid → r.lane < 64 →
      ∀ e : OutRes, s.cur.outst = [e] → e.lane = r.lane → e.addr = r.addr → e.path = 2 → e.frame = false → e.clob = false → e.isPred = false →
        (∃ t, exec (.hostCompletion o.id r.rid o.kCur true true false) s = .next t ∧ t.cur.outst = [] ∧ t.cur.vraw e.reg e.lane = e.data ∧
          (t.ownerOf o.id).hostReqs = [] ∧ (t.ownerOf o.id).tdi = .run) ∧
        (s.canTake .poison → s.cur.cstack = [] → ∀ i : Instr, i = .hostCompletion o.id r.rid o.kCur true true true ∨
            (i = .completionTimeout o.id r.rid ∧ r.issued.toNat + o.timeout ≤ s.cyc.toNat) →
          ∃ t, exec i s = .next t ∧ t.cur.outst = [] ∧ t.cur.v = s.cur.v ∧ t.cur.cause = 9 ∧ t.cur.tval = r.addr ∧ t.cur.tlane = Mask.one r.lane ∧
            (t.ownerOf o.id).hostReqs = [] ∧ (t.ownerOf o.id).tdi = .run)) ∧
    (o.tdi = .run → o.hostReqs = [] →
      (∃ t, exec (.kSetGo o.id) s = .next t ∧ (t.ownerOf o.id).kCur = !o.kCur ∧ (t.ownerOf o.id).kOld = false ∧ (t.ownerOf o.id).kSwitchAt = s.cyc) ∧
      (o.kOld = true → ∃ t, exec (.keySetErase o.id) s = .next t ∧ t.owners = [{ o with kOld := false }])) ∧
    (o.halt = none → ∀ v : BitVec 64, ∃ t, exec (.registerPageWrite o.id 0 64 v) s = .next t ∧ t = { s with owners := [{ o with launches := o.launches ++ [v] }] }) ∧
    (∃ t, exec (.registerPageWrite o.id 0x30 32 0) s = .next t ∧ t.owners = s.owners ∧ t.violations.length = min 256 (s.violations.length + 1)) ∧
    (∃ t, exec (.telemetryRead o.id 0x118 32) s = .next t ∧ t = { s with answer := .word (BitVec.ofNat 64 (s.sdcCount % 2 ^ 32)) }) ∧
    (o.allowList.getLsbD 3 = false → o.denied < 2 ^ 64 - 1 →
      ∃ t, exec (.telemetryRead o.id 0x480 64) s = .next t ∧ t.answer = .word 0 ∧ (t.ownerOf o.id).denied = o.denied + 1) ∧
    (o.allowList.getLsbD 3 = true → ∃ t, exec (.telemetryRead o.id 0x480 64) s = .next t ∧ t = { s with answer := .word o.actSp }) ∧
    (s.kilnStopped = false → s.bringUp = 8 → ∀ q : Nat, ∃ t n, exec (.spdmRequest q) s = .next t ∧ t = { s with answer := .spdm n }) ∧
    (s.kilnStopped = false → s.bringUp = 3 ∨ s.bringUp = 4 → ∀ q : Nat, ∃ t, exec (.spdmRequest q) s = .next t ∧ t = { s with answer := .error })

/-- R319, R376, R382-R385, R395, R399, R407, R409. The requests of the Kiln to a part that is up and holds one owner: each that keeps
its rule is performed and answered; a request for an owner that does not exist, and a world key from a peer that has not
authenticated itself, is refused with an error and logged as a violation. DESTROY_OWNER leaves nothing of the owner in the banks
fenced to it. A mismatch of the Kiln's two cores stops it and moves the TDI to ERROR. The bytes of the log are as log entry 16 has
them, the entries a reserve list makes as log entry 15. -/
def Obligations.KilnRequests : Prop :=
  ∀ (s : State) (o : Owner), s.kilnStopped = false → s.bringUp = 8 → s.powerOff = false → s.owners = [o] → o.id ≠ 0 →
    (∀ (id : Nat), id ≠ o.id → id ≠ 0 → ∀ (q : Quotas) (key : BitVec 256), quotasOk q = true →
      ∀ i ∈ ([.destroyOwner id, .peer id [], .grant id [], .quota id q, .slotAssign id [], .setReceiptRing id 0 1, .keyPut id 0 key true, .allow id 0 true,
        .worldShare id 0 key] : List Instr),
      ∃ t, exec i s = .next t ∧ t.answer = .error ∧ t.owners = s.owners ∧ t.violations.length = min 256 (s.violations.length + 1)) ∧
    (∀ (desc key : List (BitVec 8)), descriptorOk desc = true → (parseOwner desc).id ≠ o.id → (parseOwner desc).id ≠ 0 →
      s.keySlot (parseOwner desc).worldSlot = ⟨(parseOwner desc).worldSlot, 0, 0, 0, 0, none⟩ → s.extentsFree (parseOwner desc).id (parseOwner desc).grants = true →
      s.reserveFree (parseOwner desc).id ((parseOwner desc).reserve.map (·.2)) = true →
      ∃ t o', exec (.createOwner desc key) s = .next t ∧ t.answer = .ok ∧ t.owners.length = 2 ∧ t.ownerOf (parseOwner desc).id = o' ∧ o'.tdi = .unlocked ∧
        o'.tenantKey = key ∧ o'.quotas = (parseOwner desc).quotas ∧ o'.halt = none ∧ o'.launchCounter = 0 ∧ o'.tlb = (parseOwner desc).reserve.map pinEntry ∧
        (t.keySlot (parseOwner desc).worldSlot).kind = 1 ∧ (t.keySlot (parseOwner desc).worldSlot).owner = (parseOwner desc).id) ∧
    (∃ t, exec (.destroyOwner o.id) s = .next t ∧ t.answer = .ok ∧ t.owners = [] ∧ (∀ g ∈ t.allGroups, g.alive = true → g.owner ≠ o.id) ∧
      (∀ b ∈ s.banks, b.fence = o.id → (t.bankOf b.num).fence = 0 ∧ ∀ i, i < 65536 → t.mem.get (bankKey b.num i) = 0) ∧ (∀ k ∈ t.keys, k.owner ≠ o.id) ∧ ∀ p ∈ t.sps, p.owner ≠ o.id) ∧
    (∀ l : List Extent, o.halt = none → grantsOk l = true → l.length ≤ 64 → ∃ t, exec (.grant o.id l) s = .next t ∧ t.answer = .ok ∧ (t.ownerOf o.id).grants = l) ∧
    (∀ q : Quotas, o.halt = none → quotasOk q = true → ∃ t, exec (.quota o.id q) s = .next t ∧ t.answer = .ok ∧ (t.ownerOf o.id).quotas = q) ∧
    (∀ l : List Nat, o.halt = none → l.length ≤ 65536 → ∃ t, exec (.peer o.id l) s = .next t ∧ t.answer = .ok ∧ t.owners = [{ o with peers := l }] ∧ t.mem = s.mem) ∧
    (∀ (n : Nat) (key : BitVec 256), o.halt = none → n < 4096 → (s.keySlot n).kind = 0 →
      ((s.keySlot n).owner = 0 → (s.keySlot n).num = n → ∃ t, exec (.slotAssign o.id [n]) s = .next t ∧ t.answer = .ok ∧ (t.keySlot n).owner = o.id) ∧
      ((s.keySlot n).owner = o.id → (s.keySlot n).num = n →
        (s.slotBusy n = false → ∃ t, exec (.keyPut o.id n key true) s = .next t ∧ t.answer = .ok ∧ t.keySlot n = ⟨n, key, 2, o.id, 0, none⟩) ∧
        (s.slotBusy n = true → ∃ t, exec (.keyPut o.id n key true) s = .next t ∧ t.answer = .ok ∧ t.keySlot n = { s.keySlot n with next := some key }) ∧
        (∃ t, exec (.keyPut o.id n key false) s = .next t ∧ t.answer = .error ∧ t.keys = s.keys))) ∧
    (∃ t bs, exec (.logRead true) s = .next t ∧ t = { s with answer := .log bs } ∧ bs.length = 32 * s.violations.length) ∧
    (∀ h : Halt, o.halt = some h → ∃ t, exec (.diag (some o.id)) s = .next t ∧ t = { s with answer := .diagnostics (s.diagBytes o h) }) ∧
    (o.halt = none → ∃ t, exec (.diag (some o.id)) s = .next t ∧ t.answer = .error) ∧
    (∀ (va : BitVec 64) (n : Nat), o.halt = none → va.toNat % 1024 = 0 → n ≤ 12 →
      ∃ t, exec (.setReceiptRing o.id va (2 ^ n)) s = .next t ∧ t.answer = .ok ∧ t.owners = [{ o with receiptVa := va, receiptCount := 2 ^ n }]) ∧
    (∀ list : BitVec 32, o.halt = none → o.tdi = .unlocked → o.lockDigest = none → list.toNat < 64 →
      ∃ t, exec (.allow o.id list true) s = .next t ∧ t.answer = .ok ∧ t.owners = [{ o with allowList := list }]) ∧
    (∀ (list : BitVec 32), o.halt = none → o.tdi = .run → ∃ t, exec (.allow o.id list true) s = .next t ∧ (t.ownerOf o.id).tdi = .error) ∧
    (∀ (dev : Nat) (key : BitVec 256), o.halt = none →
      (dev ∈ s.sessions → ∃ t, exec (.worldShare o.id dev key) s = .next t ∧ t.answer = .ok ∧ (dev, key) ∈ (t.ownerOf o.id).peerKeys) ∧
      (dev ∉ s.sessions → ∃ t, exec (.worldShare o.id dev key) s = .next t ∧ t.answer = .error ∧ t.owners = s.owners ∧
        t.violations.length = min 256 (s.violations.length + 1))) ∧
    (∀ v : Nat, ∃ t, exec (.fusedMinimumRaise v true) s = .next t ∧ t.answer = .ok ∧ t.minVersion = max s.minVersion v) ∧
    (∃ t, exec .kilnLockstepMismatch s = .next t ∧ t.kilnStopped = true ∧ (t.ownerOf o.id).tdi = .error ∧ (o.hostReqs = [] → t.mem = s.mem))

/-- R403-R406, R409, R412-R414. A regulator's setting above its ceiling is clamped and logged. A row with an uncorrectable line, or
with 8 corrected ones in 2^30 clk, is remapped and its bad blocks poisoned, or its bank retires, no other row is; a first bond
that fails is steered, a third one retires the channel; a failing core without teams retires. The governor sets a die's clock in
steps 1 to 16, 1 us apart (that an earlier step is not taken is the model's choice, log entry 38); a clamp changes nothing;
THERMTRIP removes the power and everything but the fuses. RESET with a bad or too old image stops at bring-up step 2, with a
failing step 3 or 4 there, else SPs come up one after the other, 64 clk apart, and with the last bring-up ends. The ceilings'
units and the bring-up steps are the model's (log entries 1 and 35). -/
def Obligations.DeviceEvents : Prop :=
  ∀ (s : State),
    (∀ (q : Regulator) (v : Nat), s.regs.length = 5 →
      ∃ t, exec (.regulatorSetting q v) s = .next t ∧ t.regs.getD (regulatorIndex q) 0 = min v (ceiling q) ∧ t.mem = s.mem ∧
        (v ≤ ceiling q → t.violations = s.violations) ∧ (ceiling q < v → t.violations.length = min 256 (s.violations.length + 1))) ∧
    (ceiling .clock = 1300 ∧ ceiling .power = 1950 ∧ ceiling .pcie = 64 ∧ ceiling .psiek = 224) ∧
    (∀ bank row b : Nat, s.rowQualifies bank row = false → ∃ t, exec (.rowRemap bank row [b]) s = .next t ∧ t = s) ∧
    (∀ bank row b : Nat, bank ∉ s.retiredBanks → s.rowQualifies bank row = true → s.remaps.length < 1024 →
      ∃ t, exec (.rowRemap bank row [b]) s = .next t ∧ t.mem = s.mem ∧
        (if (s.remaps.filter (fun x => x.1 == bank)).length < Config.spareRows bank
         then t.remaps = s.remaps ++ [(bank, row)] ∧ (Config.dramBank (b / 1024) = bank → Config.dramRow b = row → b ∈ t.poison) ∧ t.retiredBanks = s.retiredBanks
         else bank ∈ t.retiredBanks ∧ t.remaps = s.remaps)) ∧
    (∀ bank row : Nat, bank ∉ s.retiredBanks → s.rowQualifies bank row = true → 1024 ≤ s.remaps.length → ∃ t, exec (.rowRemap bank row []) s = .next t ∧ bank ∈ t.retiredBanks ∧ t.remaps = s.remaps) ∧
    (∀ ch b : Nat, s.bondQualifies ch b = false → ∃ t, exec (.bondSteering ch b) s = .next t ∧ t = s) ∧
    (∀ ch b : Nat, s.failedBonds = [] → s.bondQualifies ch b = true → ∃ t, exec (.bondSteering ch b) s = .next t ∧ t.failedBonds = [(ch, b)] ∧ t.channelDead ch = false) ∧
    (∀ ch a b c : Nat, s.failedBonds = [(ch, a), (ch, b)] → c ≠ a → c ≠ b → s.bondQualifies ch c = true → ∃ t, exec (.bondSteering ch c) s = .next t ∧ t.channelDead ch = true) ∧
    (∀ core : Nat, core ∉ s.retiredCores → s.coreFailing core = true → s.teams = [] → ∃ t, exec (.coreRetire core) s = .next t ∧ t.retiredCores = s.retiredCores ++ [core]) ∧
    (∀ die step : Nat, die < s.aclk.length →
      (s.stepAt.toNat ≤ s.cyc.toNat → ∃ t, exec (.governorStep die step) s = .next t ∧ t.aclk.getD die 0 = max 1 (min 16 step) ∧ t.stepAt = s.cyc + 1300 ∧
        t = { s with aclk := t.aclk, stepAt := t.stepAt }) ∧
      (s.cyc.toNat < s.stepAt.toNat → ∃ t, exec (.governorStep die step) s = .next t ∧ t = s)) ∧
    (∃ t, exec .currentClamp s = .next t ∧ t = s) ∧
    (∃ t, exec .thermtrip s = .next t ∧ t.powerOff = true ∧ t.owners = [] ∧ t.mem = [] ∧ t.minVersion = s.minVersion) ∧
    (∀ version step : Nat, (version < s.minVersion → ∃ t, exec (.reset true version step) s = .next t ∧ t.bringUp = 2 ∧ t.sps = []) ∧
      (∃ t, exec (.reset false version step) s = .next t ∧ t.bringUp = 2) ∧
      (s.minVersion ≤ version → step = 3 ∨ step = 4 → ∃ t, exec (.reset true version step) s = .next t ∧ t.bringUp = step ∧ t.sps = []) ∧
      (s.minVersion ≤ version → step ≠ 3 → step ≠ 4 → ∃ t, exec (.reset true version step) s = .next t ∧ t.bringUp = 5 ∧ t.version = version ∧ t.cyc = 0 ∧ t.spAt = 64 ∧ t.seedLocked = true ∧
        t.firmware = BitVec.ofNat 512 (leNat (sha512 (Config.firmwareImage s.freeCtr))) ∧
        t.owners = [] ∧ t.mem = [] ∧ t.powerOff = false)) ∧
    (∀ n : Nat, s.bringUp = 5 → (s.sps.filter (·.up)).length = n → s.spAt.toNat ≤ s.cyc.toNat → n ≤ 1023 →
      ∃ t, exec (.spStart n) s = .next t ∧ (t.spOf n).up = true ∧ t.spAt = s.cyc + 64 ∧ t.bringUp = (if n = 1023 then 8 else 5))

/-- R24, R25: the words that end a run are those with OP 0x57-0x5F in the lane set, and 0x20-0x23, 0x26-0x28, 0x40-0x42, 0x4B and 0x4C
in the uniform set. After a word that not all of its lanes wait at, a run also ends when the word has E = 1 or was its 24th, a
literal counting with its word; else it goes on behind the word. A run all of whose lanes wait stays before the word, one whose
lanes have all parked ends (log entry 37). -/
def Obligations.ControlInstructionsEndRuns : Prop :=
  (∀ (i : Instr) (h : Hdr) (w : Nat) (rest : List Nat), i.wf = true → wordHdr i = some h → encode i = w :: rest →
    (isControl i = true ↔
      (fld w 31 1 = 0 ∧ 0x57 ≤ fld w 20 7 ∧ fld w 20 7 ≤ 0x5F) ∨
      (fld w 31 1 = 1 ∧ ((0x20 ≤ fld w 20 7 ∧ fld w 20 7 ≤ 0x23) ∨ (0x26 ≤ fld w 20 7 ∧ fld w 20 7 ≤ 0x28) ∨
        (0x40 ≤ fld w 20 7 ∧ fld w 20 7 ≤ 0x42) ∨ fld w 20 7 = 0x4B ∨ fld w 20 7 = 0x4C)))) ∧
  ∀ (t u : State) (sp clk : Nat) (i : Instr) (h : Hdr), t.cur.inRun = true → wordHdr i = some h → u = t.afterWord t.cur.gid sp clk i →
    (t.cur.iss = 0 → u.cur.inRun = false ∧ u.cur.ipc = t.cur.ipc) ∧
    (t.cur.iss ≠ 0 → t.cur.stalls = true → u.cur.inRun = true ∧ u.cur.ipc = t.cur.ipc ∧ u.cur.runLen = t.cur.runLen) ∧
    (t.cur.iss ≠ 0 → t.cur.stalls = false →
      u.cur.inRun = !(h.e || isControl i || decide (24 ≤ t.cur.runLen + wordCount i)) ∧
      u.cur.ipc = t.cur.ipc + BitVec.ofNat 64 (4 * wordCount i) ∧ u.cur.runLen = t.cur.runLen + wordCount i) ∧
    u.cur.pc = t.cur.pc ∧ u.cur.v = t.cur.v ∧ u.cur.s = t.cur.s ∧ u.mem = t.mem

/-- R34: lane i of affine register x holds base + i × stride modulo 2^64, the stride sign-extended; VAFF takes its bits 31:0, and as
an address it is the lane's byte address. -/
def Obligations.AffineLaneValues : Prop :=
  ∀ (s : State) (h : Hdr) (d x : Nat), 
    (∀ l, s.addrM (.aff x) l = BitVec.ofInt 64 ((s.cur.xb.get x).toInt + (l : Int) * (s.cur.xs.get x).toInt)) ∧
    (s.settled → d < s.cur.vregs → ∃ t, exec (.vaff h d x) s = .next t ∧
      s.wroteV t (s.active h) d 4 (fun l => (s.addrM (.aff x) l).setWidth 32))

/-- What a reset leaves, and a part without power: memory lists nothing and is in canonical form, the cycle counter is 0, no owner,
grid or group exists, and no SP, port or world key is there. A step without power stops but for a RESET. That a step without power
is a fault by name is the model's (log entry 1). -/
def Obligations.ResetAndRemovedPower : Prop :=
  State.reset.MemInv ∧ State.reset.mem = [] ∧ State.reset.cyc = 0 ∧ State.reset.owners = [] ∧ State.reset.grids = [] ∧ State.reset.teams = [] ∧
  State.reset.allGroups = [] ∧ State.reset.sps = [] ∧ State.reset.ports = [] ∧ State.reset.portKeys = [] ∧ State.reset.keys = [] ∧ State.reset.bringUp = 0 ∧
  (∀ s : State, s.powerOff = true → (∀ a b c ts, s.turns ≠ .event (.reset a b c) :: ts) → step s = .fault .powerRemoved) ∧
  ∀ (s : State) (a : Bool) (b c : Nat) (ts : List Turn), s.powerOff = true → s.turns = .event (.reset a b c) :: ts →
    ∃ t, step s = .next t ∧ t.powerOff = false ∧ t.minVersion = s.minVersion ∧ t.turns = ts ∧ t.mem = []

/-- Every step keeps memory in its canonical form (from every state, not only from reset). The canonical form (rising addresses, no
entry equal to what an unlisted address reads as) is the model's own way to hold memory (log entry 3). -/
def Obligations.EveryStepKeepsMemory : Prop :=
  ∀ s t : State, s.MemInv → step s = .next t → t.MemInv

/-- R38-R46, R48: a well-formed word, its literal and a matrix command are read back from the bytes of their encoding, whatever
follows; and a word or a command that decodes is the encoding of what it decodes to, so no bit of it is dropped. -/
def Obligations.EncodingAndDecodingAgree : Prop :=
  (∀ (i : Instr) (h : Hdr), i.wf = true → wordHdr i = some h → ∀ rest : List (BitVec 8),
    decodeBytes ((encode i).flatMap (leBytes 4) ++ rest) = .ok (i, rest)) ∧
  (∀ (w lit : Nat) (i : Instr), w < 2 ^ 32 → lit < 2 ^ 32 → decodeWord w lit = .ok i →
    i.wf = true ∧ (encode i = [w] ∨ encode i = [w, lit])) ∧
  ∀ sp w : Nat, sp < 1024 → w < 2 ^ 64 → decodeMx sp w = .mxIllegalCommand sp (BitVec.ofNat 64 w) ∨
    ((decodeMx sp w).wf = true ∧ encode (decodeMx sp w) = [w % 2 ^ 32, w / 2 ^ 32])

/-- The turn of an SP with a run: the word at the run's address is decoded from its bytes and executed as exec says on the state in
which its lanes have arrived (arrive), the clock has come to the SP's clk (catchUp) and the fetch has been counted (fetchUse);
then the run goes on or ends and time passes (afterWord). The hypotheses say that no part of the word is missing, poisoned or
stale, that the core's port has the owner's key, that no lane of the run is late, and that nothing comes before the word. The turn
is log entry 9; the clock it takes is log entry 5. -/
def Obligations.StepRunsTheDecodedInstruction : Prop :=
  ∀ (s a c b t : State) (sp k : Nat) (ts : List Turn) (i : Instr), s.powerOff = false → s.turns = .issue sp :: ts →
    ({ s with turns := ts } : State).runOn sp = some s.cur.gid → a = ({ s with turns := ts } : State).catchUp.arrive →
    ({ s with turns := ts } : State).catchUp.holdsBack = false → a.cur.iss ≠ 0 → a.portHas a.cur.owner a.curCore = true → a.upsets = [] →
    a.cur.outst = [] → a.cur.hlv = false → (a.cur.kind = .bin → a.cur.frameldDone = true) → a.cur.ipc.toNat % 4 = 0 →
    a.xlate a.curOwner a.curTeam a.curCore .fetch a.cur.ipc = .ok k → a.badRead k 4 = false → a.codeWord k = leNat (Memory.bytes a.mem k 4) →
    c = a.fetchUse a.cur.ipc → b = (if wordCount i = 1 then c else c.fetchUse (a.cur.ipc + 4)) →
    (b.pendingRegs a.cur.gid).any (uniformRegs (a.cur.width == 64) i).contains = false →
    b.resultsFirst i = 0 → b.steepsFirst i = false → b.noRoom i = none →
    ((wordCount i = 1 ∧ decodeBytes (Memory.bytes a.mem k 4) = .ok (i, [])) ∨
      (wordCount i = 2 ∧ (∃ j, decodeWord (leNat (Memory.bytes a.mem k 4)) 0 = .ok j ∧ wordCount j = 2) ∧
        c.xlate c.curOwner c.curTeam c.curCore .fetch (a.cur.ipc + 4) = .ok (k + 4) ∧ c.badRead (k + 4) 4 = false ∧
        c.codeWord (k + 4) = leNat (Memory.bytes a.mem (k + 4) 4) ∧ decodeBytes (Memory.bytes a.mem k 8) = .ok (i, []))) →
    exec i b = .next t → step s = .next (t.afterWord a.cur.gid a.cur.sp (issueClk a.cur i) i)

/-- Words written out from the encoding tables of 03 decode to the instructions they stand for. -/
def Obligations.WordsDecodeAsTheTablesSay : Prop :=
  decodeWord 0x3800C415 0 = .ok (.vadd ⟨false, 7⟩ 3 4 5 .si32) ∧
  decodeWord 0x38D04268 0 = .ok (.vshi ⟨false, 7⟩ 1 2 .rotr 8) ∧
  decodeWord 0x0AA0C011 0 = .ok (.vcmplt ⟨false, 1⟩ 3 0 4 .u32) ∧
  decodeWord 0xB8010621 0 = .ok (.sadd ⟨false, 7⟩ 4 6 8 .u64) ∧
  decodeWord 0xB9208008 0 = .ok (.xaddbi ⟨false, 7⟩ 2 8) ∧
  decodeWord 0xB9D08501 0 = .ok (.qany ⟨false, 7⟩ 2 5 .all)

/-- No instruction word reaches the device's keys, its firmware, its limits, its repair or its clock (22 R382, R385, R403-R409, R412):
what only the Kiln, the host or the hardware changes is as before, but for the times at which ports were last used. -/
def Obligations.WordsLeaveTheDeviceAlone : Prop :=
  ∀ (i : Instr) (h : Hdr) (s t : State), wordHdr i = some h → exec i s = .next t →
    t.keys = s.keys ∧ s.samePorts t ∧ t.minVersion = s.minVersion ∧ t.version = s.version ∧ t.bringUp = s.bringUp ∧ t.regs = s.regs ∧
    t.aclk = s.aclk ∧ t.remaps = s.remaps ∧ t.failedBonds = s.failedBonds ∧ t.retiredBanks = s.retiredBanks ∧ t.retiredCores = s.retiredCores ∧
    t.kilnStopped = s.kilnStopped ∧ t.powerOff = s.powerOff ∧ t.cyc = s.cyc ∧ t.turns = s.turns
end

