-- ==== Sys2Proof/Laws/Chains.lean ====
section
/-! SUPPORT. What the order of a card's accesses says once for every proof about it: each write is of an element of the walk that has
been read before it, and every element is written (15 R269, R270). -/

namespace Sys2Proof

/-! ## The walk -/

theorem walkDims_length (l : List (Nat × Int × Int)) : (walkDims l).length = (l.map Prod.fst).foldr (· * ·) 1 := by
  induction l with
  | nil => rfl
  | cons d ds ih =>
    obtain ⟨n, a, b⟩ := d
    simp only [walkDims, List.length_flatMap, List.length_map, ih, List.map_cons, List.foldr_cons]
    induction n with
    | zero => simp
    | succ n ihn => rw [List.range_succ, List.map_append, List.sum_append, ihn]; simp [Nat.succ_mul]

/-- The extents of a list of dimensions, multiplied. -/
def Card.size (c : Card) (l : List Nat) : Nat := (l.map (fun k => c.extents.getD k 0)).prod

theorem Card.walk_length (c : Card) : c.walk.length = c.size c.perm := by
  unfold Card.walk Card.size
  rw [walkDims_length, List.map_map, ← List.prod_eq_foldr]
  show (List.map (fun k => c.extents.getD k 0) c.perm.reverse).prod = _
  rw [List.map_reverse, List.prod_reverse]

theorem Card.pitch_eq (c : Card) (q : Nat) : c.pitch q = c.size (c.perm.takeWhile (· != q)) := by
  have : ∀ (l : List Nat) (x : Nat), l.foldl (fun acc q => acc * c.extents.getD q 0) x = x * c.size l := by
    intro l
    induction l with
    | nil => simp [Card.size]
    | cons d ds ih => intro x; rw [List.foldl_cons, ih]; simp [Card.size, Nat.mul_assoc]
  rw [Card.pitch, this, Nat.one_mul]

theorem Card.size_append (c : Card) (l l' : List Nat) : c.size (l ++ l') = c.size l * c.size l' := by simp [Card.size]

theorem dropWhile_ne_nil {q : Nat} {l : List Nat} (h : q ∈ l) : l.dropWhile (· != q) ≠ [] := by
  induction l with
  | nil => cases h
  | cons x xs ih =>
    rw [List.dropWhile_cons]
    split
    · rename_i hx
      exact ih ((List.mem_cons.mp h).resolve_left (by rintro rfl; simp at hx))
    · simp

/-- The dimension a card is staged by stands behind the innermost one, so a step of it is a whole number of innermost rows, and the walk
a whole number of its ranges. -/
theorem Card.stage_divides (c : Card) {q : Nat} (h : c.stageDim = some q) :
    c.extents.getD (c.perm.headD 0) 0 ∣ c.pitch q ∧ c.pitch q * c.extents.getD q 0 ∣ c.walk.length := by
  unfold Card.stageDim at h
  split at h
  · cases h
  · rename_i k ks hp
    split at h
    · cases h
    · rename_i hk
      have hq := List.find?_some h
      have hm := List.mem_of_find?_eq_some h
      have ne : k ≠ q := by rintro rfl; exact hk (by simpa using hq)
      have e : c.perm.takeWhile (· != q) ++ c.perm.dropWhile (· != q) = c.perm := List.takeWhile_append_dropWhile
      have hd : ∃ t, c.perm.dropWhile (· != q) = q :: t := by
        cases hx : c.perm.dropWhile (· != q) with
        | nil =>
          have : q ∈ c.perm := by rw [hp]; exact List.mem_cons_of_mem _ hm
          exact absurd hx (dropWhile_ne_nil this)
        | cons x t =>
          have := List.head_dropWhile_not (· != q) (l := c.perm) (by rw [hx]; simp)
          simp only [hx, List.head_cons, bne_eq_false_iff_eq] at this
          exact ⟨t, by rw [this]⟩
      obtain ⟨t, ht⟩ := hd
      refine ⟨?_, ?_⟩
      · rw [Card.pitch_eq, hp]
        simp only [List.headD_cons]
        rw [List.takeWhile_cons_of_pos (by simpa using ne)]
        exact ⟨c.size (ks.takeWhile (· != q)), by simp [Card.size]⟩
      · rw [Card.pitch_eq, Card.walk_length]
        refine ⟨c.size t, ?_⟩
        conv => lhs; rw [← e, ht]
        simp [Card.size, Nat.mul_assoc]

/-! ## The accesses -/

/-- In a list of accesses, each write comes after a read of the same element. -/
def ReadFirst (l : List CardMove) : Prop := ∀ A B i, l = A ++ CardMove.wr i :: B → CardMove.rd i ∈ A

theorem ReadFirst.append {l l' : List CardMove} (h : ReadFirst l) (h' : ReadFirst l') : ReadFirst (l ++ l') := by
  intro A B i e
  rcases List.append_eq_append_iff.mp e with ⟨X, rfl, hX⟩ | ⟨X, hl, hX⟩
  · exact List.mem_append_right _ (h' X B i hX)
  · cases X with
    | nil => rw [List.append_nil] at hl; subst hl; exact absurd (h' [] B i hX.symm) (by simp)
    | cons x X => obtain ⟨rfl, -⟩ := List.cons.inj hX; exact h A X i hl

theorem ReadFirst.flatMap {α : Type} {l : List α} {f : α → List CardMove} (h : ∀ x ∈ l, ReadFirst (f x)) : ReadFirst (l.flatMap f) := by
  induction l with
  | nil => intro A B i e; simp at e
  | cons x l ih =>
    rw [List.flatMap_cons]
    exact (h x (by simp)).append (ih fun y hy => h y (by simp [hy]))

theorem readFirst_of (r w : List CardMove) (hr : ∀ i, CardMove.wr i ∉ r) (hw : ∀ i, CardMove.wr i ∈ w → CardMove.rd i ∈ r) : ReadFirst (r ++ w) := by
  intro A B i e
  rcases List.append_eq_append_iff.mp e with ⟨X, rfl, hX⟩ | ⟨X, hl, hX⟩
  · exact List.mem_append_left _ (hw i (by rw [hX]; simp))
  · cases X with
    | nil => rw [List.append_nil] at hl; subst hl; exact hw i (by rw [show w = CardMove.wr i :: B from hX.symm]; simp)
    | cons x X => obtain ⟨rfl, -⟩ := List.cons.inj hX; exact absurd (by rw [hl]; simp) (hr i)

theorem Card.tileMoves_wr (c : Card) (q r n m i : Nat) :
    CardMove.wr i ∈ c.tileMoves q r n m ↔ ∃ x, x < n ∧ ∃ y, y < m ∧ r + x + y * c.pitch q = i := by
  simp [Card.tileMoves]

theorem Card.tileMoves_readFirst (c : Card) (q r n m : Nat) : ReadFirst (c.tileMoves q r n m) := by
  refine readFirst_of _ _ (by simp) (fun i h => ?_)
  simp only [List.mem_flatMap, List.mem_map, List.mem_range, CardMove.wr.injEq, CardMove.rd.injEq] at h ⊢
  obtain ⟨x, hx, y, hy, e⟩ := h
  exact ⟨y, hy, x, hx, e⟩

/-- Each write of a card is of an element that the card has read before. -/
theorem Card.moves_readFirst (c : Card) : ReadFirst c.moves := by
  unfold Card.moves
  split
  · refine ReadFirst.flatMap fun i _ => ?_
    exact readFirst_of [.rd i] [.wr i] (by simp) (by simp)
  · exact ReadFirst.flatMap fun _ _ => ReadFirst.flatMap fun _ _ => ReadFirst.flatMap fun _ _ => c.tileMoves_readFirst _ _ _ _

/-- Where `x` innermost steps and `y` steps of the staged dimension from a root lead, and that every element is such a place. -/
theorem root_step {p n m L r x y : Nat} (hn : n ∣ p) (hm : p * m ∣ L) (hr : r < L) (h1 : r % n = 0) (h2 : r / p % m = 0) (hx : x < n) (hy : y < m) :
    r + x + y * p < L := by
  obtain ⟨u, rfl⟩ := hn
  obtain ⟨v, rfl⟩ := hm
  have hp : 0 < n * u := by
    rcases Nat.eq_zero_or_pos (n * u) with h | h
    · rw [h] at hr; simp at hr
    · exact h
  have d := Nat.div_add_mod r (n * u)
  have low : r % (n * u) % n = 0 := by rw [Nat.mod_mul_right_mod, h1]
  have lt := Nat.mod_lt r hp
  obtain ⟨k, hk⟩ := Nat.dvd_of_mod_eq_zero low
  obtain ⟨h, hh⟩ := Nat.dvd_of_mod_eq_zero h2
  have ku : k < u := Nat.lt_of_mul_lt_mul_left (a := n) (by rw [← hk]; exact lt)
  have hv : h < v := by
    refine Nat.lt_of_mul_lt_mul_left (a := n * u * m) ?_
    calc n * u * m * h = n * u * (r / (n * u)) := by rw [hh, Nat.mul_assoc]
      _ ≤ r := Nat.mul_div_le _ _
      _ < _ := hr
  have e1 : n * (k + 1) ≤ n * u := Nat.mul_le_mul_left _ ku
  have e2 : n * u * (y + 1) ≤ n * u * m := Nat.mul_le_mul_left _ hy
  have e3 : n * u * m * (h + 1) ≤ n * u * m * v := Nat.mul_le_mul_left _ hv
  rw [hh, hk, ← Nat.mul_assoc] at d
  rw [Nat.mul_comm y]
  rw [Nat.mul_succ] at e1 e2 e3
  omega

theorem root_of {p n m i : Nat} (hn : n ∣ p) (hp : 0 < p) :
    let x := i % n; let y := i / p % m; let r := i - x - y * p
    x + y * p ≤ i ∧ r % n = 0 ∧ r / p % m = 0 := by
  intro x y r
  obtain ⟨u, rfl⟩ := hn
  have d := Nat.div_add_mod i (n * u)
  have e := Nat.div_add_mod (i / (n * u)) m
  have f := Nat.div_add_mod (i % (n * u)) n
  have low : i % (n * u) % n = x := Nat.mod_mul_right_mod i n u
  have lt := Nat.mod_lt i hp
  have hr : r = n * u * (m * (i / (n * u) / m)) + n * (i % (n * u) / n) := by
    have : i = n * u * (m * (i / (n * u) / m)) + n * u * y + (n * (i % (n * u) / n) + x) := by
      rw [← low, f, ← Nat.mul_add, e, d]
    show i - x - y * (n * u) = _
    rw [Nat.mul_comm y]; omega
  have small : n * (i % (n * u) / n) < n * u := by omega
  refine ⟨?_, ?_, ?_⟩
  · have : i = n * u * (m * (i / (n * u) / m)) + n * u * y + (n * (i % (n * u) / n) + x) := by
      rw [← low, f, ← Nat.mul_add, e, d]
    rw [Nat.mul_comm y]; omega
  · rw [hr, Nat.mul_assoc, ← Nat.mul_add, Nat.mul_mod_right]
  · rw [hr, Nat.mul_add_div hp, Nat.div_eq_of_lt small, Nat.add_zero, Nat.mul_mod_right]

/-- The elements that a card writes are those of its walk. -/
theorem Card.moves_wr (c : Card) (i : Nat) : CardMove.wr i ∈ c.moves ↔ i < c.walk.length := by
  unfold Card.moves
  split
  · simp [Card.inOrder]
  · rename_i q h
    obtain ⟨hn, hm⟩ := c.stage_divides h
    simp only [List.mem_flatMap, List.mem_filter, List.mem_range, Bool.and_eq_true, beq_iff_eq, Card.tileMoves_wr]
    constructor
    · rintro ⟨r, ⟨hr, h1, h2⟩, b, hb, a, ha, x, hx, y, hy, rfl⟩
      have := root_step hn hm hr h1 h2 (x := 64 * a + x) (y := 16 * b + y) (by omega) (by omega)
      rw [Nat.add_mul] at this; omega
    · intro hi
      generalize hN : c.extents.getD (c.perm.headD 0) 0 = n at *
      generalize hM : c.extents.getD q 0 = m at *
      generalize c.pitch q = p at *
      have hL : 0 < p * m := by
        rcases Nat.eq_zero_or_pos (p * m) with z | z
        · rw [z] at hm; rw [Nat.zero_dvd.mp hm] at hi; omega
        · exact z
      have hp : 0 < p := Nat.pos_of_mul_pos_right hL
      have hm0 : 0 < m := Nat.pos_of_mul_pos_left hL
      have h0 : 0 < n := Nat.pos_of_dvd_of_pos hn hp
      obtain ⟨le, r1, r2⟩ := root_of (m := m) (i := i) hn hp
      have hx := Nat.mod_lt i h0
      have hy := Nat.mod_lt (i / p) hm0
      refine ⟨i - i % n - i / p % m * p, ⟨by omega, r1, r2⟩, i / p % m / 16, by omega, i % n / 64, by omega,
        i % n % 64, by omega, i / p % m % 16, by omega, ?_⟩
      have e1 : 16 * (i / p % m / 16) * p + i / p % m % 16 * p = i / p % m * p := by rw [← Nat.add_mul, Nat.div_add_mod]
      omega

end Sys2Proof
end

