-- ==== Sys2Proof/Laws/Encoding.lean ====
section
/-! SUPPORT. The fields of an encoded word: what the decoder reads from the encoder's number. -/

set_option linter.unusedVariables false

namespace Sys2Proof

theorem fld_low (x k lo n m : Nat) (hl : lo + n ≤ m) : fld (x + 2 ^ m * k) lo n = fld x lo n := by
  obtain ⟨j, rfl⟩ := Nat.exists_eq_add_of_le hl
  have e : x + 2 ^ (lo + n + j) * k = x + 2 ^ lo * (2 ^ n * (2 ^ j * k)) := by
    simp only [Nat.pow_add, Nat.mul_assoc]
  rw [e, fld, Nat.add_mul_div_left _ _ (Nat.two_pow_pos lo), Nat.add_mul_mod_self_left, fld]

/-- A field of the operand area (03 R38). -/
theorem fld_area (s : Nat) (h : Hdr) (op area lo n : Nat) (hl : lo + n ≤ 20) :
    fld (encWord s h op area) lo n = fld area lo n := by
  have e : encWord s h op area = area + 2 ^ 20 * (s * 2048 + bit h.e * 1024 + h.g * 128 + op) := by
    simp only [encWord]; omega
  rw [e, fld_low _ _ _ _ _ hl]

/-- S, E, G and OP of an encoded word select the decoder's map, header and arm (03 R38). -/
theorem decodeWord_enc (s : Nat) (h : Hdr) (op area lit : Nat) (hs : s < 2) (hg : h.g < 8) (ho : op < 128)
    (ha : area < 1048576) :
    decodeWord (encWord s h op area) lit =
      if s = 0 then decodeLane h (encWord s h op area) lit op else decodeUni h (encWord s h op area) lit op := by
  have hb : bit h.e < 2 := by cases h.e <;> decide
  have h1 : fld (encWord s h op area) 30 1 = bit h.e := by simp only [fld, encWord]; omega
  have h2 : fld (encWord s h op area) 27 3 = h.g := by simp only [fld, encWord]; omega
  have h3 : fld (encWord s h op area) 31 1 = s := by simp only [fld, encWord]; omega
  have h4 : fld (encWord s h op area) 20 7 = op := by simp only [fld, encWord]; omega
  have h5 : (bit h.e == 1) = h.e := by cases h.e <;> rfl
  simp only [decodeWord, h1, h2, h3, h4, h5]

theorem encWord_lt (s : Nat) (h : Hdr) (op area : Nat) (hs : s < 2) (hg : h.g < 8) (ho : op < 128)
    (ha : area < 1048576) : encWord s h op area < 2 ^ 32 := by
  have hb : bit h.e < 2 := by cases h.e <;> decide
  simp only [encWord]; omega

theorem sub_some {α : Type} (a : α) (e : DecodeError) (f : α → Except DecodeError Instr) :
    sub (some a) e f = f a := rfl
theorem need_true (e : DecodeError) (r : Except DecodeError Instr) : need true e r = r := rfl
theorem bit_eq_one (b : Bool) : (bit b == 1) = b := by cases b <;> rfl
theorem bit_lt (b : Bool) : bit b < 2 := by cases b <;> decide

theorem Adr.code_lt (a : Adr) (h : a.wf = true) : a.code < 64 := by
  cases a <;> simp [Adr.wf, Adr.code] at * <;> omega
theorem Adr.ofCode_code (a : Adr) (h : a.wf = true) : Adr.ofCode a.code = some a := by
  cases a with
  | aff x => simp [Adr.wf] at h; simp [Adr.code, Adr.ofCode, h]
  | pair n =>
    simp [Adr.wf] at h
    have h1 : ¬ (16 + n < 16) := by omega
    have h2 : 16 + n < 48 := by omega
    simp [Adr.code, Adr.ofCode, h1, h2]

theorem AddK.code_lt (k : AddK) : k.code < 4 := by cases k <;> decide
theorem AddK.ofCode_code (k : AddK) : AddK.ofCode k.code = some k := by cases k <;> rfl
theorem MulK.code_lt (k : MulK) : k.code < 4 := by cases k <;> decide
theorem MulK.ofCode_code (k : MulK) : MulK.ofCode k.code = some k := by cases k <;> rfl
theorem ShrK.code_lt (k : ShrK) : k.code < 4 := by cases k <;> decide
theorem ShrK.ofCode_code (k : ShrK) : ShrK.ofCode k.code = some k := by cases k <;> rfl
theorem SgnK.code_lt (k : SgnK) : k.code < 4 := by cases k <;> decide
theorem SgnK.ofCode_code (k : SgnK) : SgnK.ofCode k.code = some k := by cases k <;> rfl
theorem ShiK.code_lt (k : ShiK) : k.code < 4 := by cases k <;> decide
theorem ShiK.ofCode_code (k : ShiK) : ShiK.ofCode k.code = some k := by cases k <;> rfl
theorem FmtK.code_lt (k : FmtK) : k.code < 4 := by cases k <;> decide
theorem FmtK.ofCode_code (k : FmtK) : FmtK.ofCode k.code = some k := by cases k <;> rfl
theorem Rnd.code_lt (k : Rnd) : k.code < 4 := by cases k <;> decide
theorem Rnd.ofCode_code (k : Rnd) : Rnd.ofCode k.code = some k := by cases k <;> rfl
theorem CvtKind.code_lt (k : CvtKind) : k.code < 8 := by cases k <;> decide
theorem CvtKind.ofCode_code (k : CvtKind) : CvtKind.ofCode k.code = some k := by cases k <;> rfl
theorem Cvt6K.code_lt (k : Cvt6K) : k.code < 4 := by cases k <;> decide
theorem Cvt6K.ofCode_code (k : Cvt6K) : Cvt6K.ofCode k.code = some k := by cases k <;> rfl
theorem PkhK.code_lt (k : PkhK) : k.code < 4 := by cases k <;> decide
theorem PkhK.ofCode_code (k : PkhK) : PkhK.ofCode k.code = some k := by cases k <;> rfl
theorem UpkhK.code_lt (k : UpkhK) : k.code < 4 := by cases k <;> decide
theorem UpkhK.ofCode_code (k : UpkhK) : UpkhK.ofCode k.code = some k := by cases k <;> rfl
theorem CmpK.code_lt (k : CmpK) : k.code < 4 := by cases k <;> decide
theorem CmpK.ofCode_code (k : CmpK) : CmpK.ofCode k.code = some k := by cases k <;> rfl
theorem LogK.code_lt (k : LogK) : k.code < 4 := by cases k <;> decide
theorem LogK.ofCode_code (k : LogK) : LogK.ofCode k.code = some k := by cases k <;> rfl
theorem MovK.code_lt (k : MovK) : k.code < 4 := by cases k <;> decide
theorem MovK.ofCode_code (k : MovK) : MovK.ofCode k.code = some k := by cases k <;> rfl
theorem RedK.code_lt (k : RedK) : k.code < 4 := by cases k <;> decide
theorem RedK.ofCode_code (k : RedK) : RedK.ofCode k.code = some k := by cases k <;> rfl
theorem MemK.code_lt (k : MemK) : k.code < 4 := by cases k <;> decide
theorem MemK.ofCode_code (k : MemK) : MemK.ofCode k.code = some k := by cases k <;> rfl
theorem PackK.code_lt (k : PackK) : k.code < 4 := by cases k <;> decide
theorem PackK.ofCode_code (k : PackK) : PackK.ofCode k.code = some k := by cases k <;> rfl
theorem AtAddK.code_lt (k : AtAddK) : k.code < 4 := by cases k <;> decide
theorem AtAddK.ofCode_code (k : AtAddK) : AtAddK.ofCode k.code = some k := by cases k <;> rfl
theorem AtMmK.code_lt (k : AtMmK) : k.code < 4 := by cases k <;> decide
theorem AtMmK.ofCode_code (k : AtMmK) : AtMmK.ofCode k.code = some k := by cases k <;> rfl
theorem AtBitK.code_lt (k : AtBitK) : k.code < 4 := by cases k <;> decide
theorem AtBitK.ofCode_code (k : AtBitK) : AtBitK.ofCode k.code = some k := by cases k <;> rfl
theorem CasK.code_lt (k : CasK) : k.code < 4 := by cases k <;> decide
theorem CasK.ofCode_code (k : CasK) : CasK.ofCode k.code = some k := by cases k <;> rfl
theorem Hint.code_lt (k : Hint) : k.code < 4 := by cases k <;> decide
theorem Hint.ofCode_code (k : Hint) : Hint.ofCode k.code = some k := by cases k <;> rfl
theorem SuspK.code_lt (k : SuspK) : k.code < 4 := by cases k <;> decide
theorem SuspK.ofCode_code (k : SuspK) : SuspK.ofCode k.code = some k := by cases k <;> rfl
theorem SAddK.code_lt (k : SAddK) : k.code < 4 := by cases k <;> decide
theorem SAddK.ofCode_code (k : SAddK) : SAddK.ofCode k.code = some k := by cases k <;> rfl
theorem SMulK.code_lt (k : SMulK) : k.code < 4 := by cases k <;> decide
theorem SMulK.ofCode_code (k : SMulK) : SMulK.ofCode k.code = some k := by cases k <;> rfl
theorem SCmpK.code_lt (k : SCmpK) : k.code < 4 := by cases k <;> decide
theorem SCmpK.ofCode_code (k : SCmpK) : SCmpK.ofCode k.code = some k := by cases k <;> rfl
theorem AnyK.code_lt (k : AnyK) : k.code < 4 := by cases k <;> decide
theorem AnyK.ofCode_code (k : AnyK) : AnyK.ofCode k.code = some k := by cases k <;> rfl
theorem XgetK.code_lt (k : XgetK) : k.code < 4 := by cases k <;> decide
theorem XgetK.ofCode_code (k : XgetK) : XgetK.ofCode k.code = some k := by cases k <;> rfl
theorem Scope.code_lt (k : Scope) : k.code < 8 := by cases k <;> decide
theorem Scope.ofCode_code (k : Scope) : Scope.ofCode k.code = some k := by cases k <;> rfl
theorem FenceK.code_lt (k : FenceK) : k.code < 4 := by cases k <;> decide
theorem FenceK.ofCode_code (k : FenceK) : FenceK.ofCode k.code = some k := by cases k <;> rfl
theorem PathMask.code_lt (k : PathMask) : k.code < 8 := by cases k <;> decide
theorem PathMask.ofCode_code (k : PathMask) : PathMask.ofCode k.code = some k := by cases k <;> rfl
theorem ForkK.code_lt (k : ForkK) : k.code < 4 := by cases k <;> decide
theorem ForkK.ofCode_code (k : ForkK) : ForkK.ofCode k.code = some k := by cases k <;> rfl
theorem BinqK.code_lt (k : BinqK) : k.code < 4 := by cases k <;> decide
theorem BinqK.ofCode_code (k : BinqK) : BinqK.ofCode k.code = some k := by cases k <;> rfl
theorem TlbiK.code_lt (k : TlbiK) : k.code < 4 := by cases k <;> decide
theorem TlbiK.ofCode_code (k : TlbiK) : TlbiK.ofCode k.code = some k := by cases k <;> rfl
theorem HretK.code_lt (k : HretK) : k.code < 4 := by cases k <;> decide
theorem HretK.ofCode_code (k : HretK) : HretK.ofCode k.code = some k := by cases k <;> rfl
theorem ColOpK.code_lt (k : ColOpK) : k.code < 4 := by cases k <;> decide
theorem ColOpK.ofCode_code (k : ColOpK) : ColOpK.ofCode k.code = some k := by cases k <;> rfl

theorem flds0 (s : Nat) (h : Hdr) (op : Nat) (x0 : Nat) (x1 : Nat) (x2 : Nat) (x3 : Nat) (hx0 : x0 < 64) (hx1 : x1 < 64) (hx2 : x2 < 64) (hx3 : x3 < 4) :
    x0 * 16384 + x1 * 256 + x2 * 4 + x3 < 1048576 ∧ fld (encWord s h op (x0 * 16384 + x1 * 256 + x2 * 4 + x3)) 0 2 = x3 ∧ fld (encWord s h op (x0 * 16384 + x1 * 256 + x2 * 4 + x3)) 14 6 = x0 ∧ fld (encWord s h op (x0 * 16384 + x1 * 256 + x2 * 4 + x3)) 8 6 = x1 ∧ fld (encWord s h op (x0 * 16384 + x1 * 256 + x2 * 4 + x3)) 2 6 = x2 := by
  have ha : x0 * 16384 + x1 * 256 + x2 * 4 + x3 < 1048576 := by omega
  refine ⟨ha, ?_, ?_, ?_, ?_⟩
  all_goals (rw [fld_area _ _ _ _ _ _ (by decide)]; simp only [fld]; omega)

theorem flds1 (s : Nat) (h : Hdr) (op : Nat) (x0 : Nat) (x1 : Nat) (x2 : Nat) (hx0 : x0 < 64) (hx1 : x1 < 64) (hx2 : x2 < 64) :
    x0 * 16384 + x1 * 256 + x2 * 4 < 1048576 ∧ fld (encWord s h op (x0 * 16384 + x1 * 256 + x2 * 4)) 0 2 = 0 ∧ fld (encWord s h op (x0 * 16384 + x1 * 256 + x2 * 4)) 14 6 = x0 ∧ fld (encWord s h op (x0 * 16384 + x1 * 256 + x2 * 4)) 8 6 = x1 ∧ fld (encWord s h op (x0 * 16384 + x1 * 256 + x2 * 4)) 2 6 = x2 := by
  have ha : x0 * 16384 + x1 * 256 + x2 * 4 < 1048576 := by omega
  refine ⟨ha, ?_, ?_, ?_, ?_⟩
  all_goals (rw [fld_area _ _ _ _ _ _ (by decide)]; simp only [fld]; omega)

theorem flds2 (s : Nat) (h : Hdr) (op : Nat) (x0 : Nat) (x1 : Nat) (x2 : Nat) (hx0 : x0 < 64) (hx1 : x1 < 64) (hx2 : x2 < 256) :
    x0 * 16384 + x1 * 256 + x2 < 1048576 ∧ fld (encWord s h op (x0 * 16384 + x1 * 256 + x2)) 14 6 = x0 ∧ fld (encWord s h op (x0 * 16384 + x1 * 256 + x2)) 8 6 = x1 ∧ fld (encWord s h op (x0 * 16384 + x1 * 256 + x2)) 0 8 = x2 := by
  have ha : x0 * 16384 + x1 * 256 + x2 < 1048576 := by omega
  refine ⟨ha, ?_, ?_, ?_⟩
  all_goals (rw [fld_area _ _ _ _ _ _ (by decide)]; simp only [fld]; omega)

theorem flds3 (s : Nat) (h : Hdr) (op : Nat) (x0 : Nat) (x1 : Nat) (x2 : Nat) (x3 : Nat) (hx0 : x0 < 64) (hx1 : x1 < 64) (hx2 : x2 < 4) (hx3 : x3 < 32) :
    x0 * 16384 + x1 * 256 + x2 * 32 + x3 < 1048576 ∧ fld (encWord s h op (x0 * 16384 + x1 * 256 + x2 * 32 + x3)) 7 1 = 0 ∧ fld (encWord s h op (x0 * 16384 + x1 * 256 + x2 * 32 + x3)) 5 2 = x2 ∧ fld (encWord s h op (x0 * 16384 + x1 * 256 + x2 * 32 + x3)) 14 6 = x0 ∧ fld (encWord s h op (x0 * 16384 + x1 * 256 + x2 * 32 + x3)) 8 6 = x1 ∧ fld (encWord s h op (x0 * 16384 + x1 * 256 + x2 * 32 + x3)) 0 5 = x3 := by
  have ha : x0 * 16384 + x1 * 256 + x2 * 32 + x3 < 1048576 := by omega
  refine ⟨ha, ?_, ?_, ?_, ?_, ?_⟩
  all_goals (rw [fld_area _ _ _ _ _ _ (by decide)]; simp only [fld]; omega)

theorem flds4 (s : Nat) (h : Hdr) (op : Nat) (x0 : Nat) (x1 : Nat) (hx0 : x0 < 64) (hx1 : x1 < 16384) :
    x0 * 16384 + x1 < 1048576 ∧ fld (encWord s h op (x0 * 16384 + x1)) 14 6 = x0 ∧ fld (encWord s h op (x0 * 16384 + x1)) 0 14 = x1 := by
  have ha : x0 * 16384 + x1 < 1048576 := by omega
  refine ⟨ha, ?_, ?_⟩
  all_goals (rw [fld_area _ _ _ _ _ _ (by decide)]; simp only [fld]; omega)

theorem flds5 (s : Nat) (h : Hdr) (op : Nat) (x0 : Nat) (x1 : Nat) (hx0 : x0 < 64) (hx1 : x1 < 64) :
    x0 * 16384 + x1 * 256 < 1048576 ∧ fld (encWord s h op (x0 * 16384 + x1 * 256)) 0 2 = 0 ∧ fld (encWord s h op (x0 * 16384 + x1 * 256)) 14 6 = x0 ∧ fld (encWord s h op (x0 * 16384 + x1 * 256)) 8 6 = x1 ∧ fld (encWord s h op (x0 * 16384 + x1 * 256)) 2 6 = 0 := by
  have ha : x0 * 16384 + x1 * 256 < 1048576 := by omega
  refine ⟨ha, ?_, ?_, ?_, ?_⟩
  all_goals (rw [fld_area _ _ _ _ _ _ (by decide)]; simp only [fld]; omega)

theorem flds6 (s : Nat) (h : Hdr) (op : Nat) (x0 : Nat) (x1 : Nat) (hx0 : x0 < 64) (hx1 : x1 < 64) :
    x0 * 16384 + x1 * 256 + 4 < 1048576 ∧ fld (encWord s h op (x0 * 16384 + x1 * 256 + 4)) 0 2 = 0 ∧ fld (encWord s h op (x0 * 16384 + x1 * 256 + 4)) 14 6 = x0 ∧ fld (encWord s h op (x0 * 16384 + x1 * 256 + 4)) 8 6 = x1 ∧ fld (encWord s h op (x0 * 16384 + x1 * 256 + 4)) 2 6 = 1 := by
  have ha : x0 * 16384 + x1 * 256 + 4 < 1048576 := by omega
  refine ⟨ha, ?_, ?_, ?_, ?_⟩
  all_goals (rw [fld_area _ _ _ _ _ _ (by decide)]; simp only [fld]; omega)

theorem flds7 (s : Nat) (h : Hdr) (op : Nat) (x0 : Nat) (x1 : Nat) (hx0 : x0 < 64) (hx1 : x1 < 64) :
    x0 * 16384 + x1 * 256 + 8 < 1048576 ∧ fld (encWord s h op (x0 * 16384 + x1 * 256 + 8)) 0 2 = 0 ∧ fld (encWord s h op (x0 * 16384 + x1 * 256 + 8)) 14 6 = x0 ∧ fld (encWord s h op (x0 * 16384 + x1 * 256 + 8)) 8 6 = x1 ∧ fld (encWord s h op (x0 * 16384 + x1 * 256 + 8)) 2 6 = 2 := by
  have ha : x0 * 16384 + x1 * 256 + 8 < 1048576 := by omega
  refine ⟨ha, ?_, ?_, ?_, ?_⟩
  all_goals (rw [fld_area _ _ _ _ _ _ (by decide)]; simp only [fld]; omega)

theorem flds8 (s : Nat) (h : Hdr) (op : Nat) (x0 : Nat) (x1 : Nat) (hx0 : x0 < 64) (hx1 : x1 < 64) :
    x0 * 16384 + x1 * 256 + 12 < 1048576 ∧ fld (encWord s h op (x0 * 16384 + x1 * 256 + 12)) 0 2 = 0 ∧ fld (encWord s h op (x0 * 16384 + x1 * 256 + 12)) 14 6 = x0 ∧ fld (encWord s h op (x0 * 16384 + x1 * 256 + 12)) 8 6 = x1 ∧ fld (encWord s h op (x0 * 16384 + x1 * 256 + 12)) 2 6 = 3 := by
  have ha : x0 * 16384 + x1 * 256 + 12 < 1048576 := by omega
  refine ⟨ha, ?_, ?_, ?_, ?_⟩
  all_goals (rw [fld_area _ _ _ _ _ _ (by decide)]; simp only [fld]; omega)

theorem flds9 (s : Nat) (h : Hdr) (op : Nat) (x0 : Nat) (x1 : Nat) (hx0 : x0 < 64) (hx1 : x1 < 64) :
    x0 * 16384 + x1 * 256 + 16 < 1048576 ∧ fld (encWord s h op (x0 * 16384 + x1 * 256 + 16)) 0 2 = 0 ∧ fld (encWord s h op (x0 * 16384 + x1 * 256 + 16)) 14 6 = x0 ∧ fld (encWord s h op (x0 * 16384 + x1 * 256 + 16)) 8 6 = x1 ∧ fld (encWord s h op (x0 * 16384 + x1 * 256 + 16)) 2 6 = 4 := by
  have ha : x0 * 16384 + x1 * 256 + 16 < 1048576 := by omega
  refine ⟨ha, ?_, ?_, ?_, ?_⟩
  all_goals (rw [fld_area _ _ _ _ _ _ (by decide)]; simp only [fld]; omega)

theorem flds10 (s : Nat) (h : Hdr) (op : Nat) (x0 : Nat) (x1 : Nat) (hx0 : x0 < 64) (hx1 : x1 < 64) :
    x0 * 16384 + x1 * 256 + 20 < 1048576 ∧ fld (encWord s h op (x0 * 16384 + x1 * 256 + 20)) 0 2 = 0 ∧ fld (encWord s h op (x0 * 16384 + x1 * 256 + 20)) 14 6 = x0 ∧ fld (encWord s h op (x0 * 16384 + x1 * 256 + 20)) 8 6 = x1 ∧ fld (encWord s h op (x0 * 16384 + x1 * 256 + 20)) 2 6 = 5 := by
  have ha : x0 * 16384 + x1 * 256 + 20 < 1048576 := by omega
  refine ⟨ha, ?_, ?_, ?_, ?_⟩
  all_goals (rw [fld_area _ _ _ _ _ _ (by decide)]; simp only [fld]; omega)

theorem flds11 (s : Nat) (h : Hdr) (op : Nat) (x0 : Nat) (x1 : Nat) (hx0 : x0 < 64) (hx1 : x1 < 64) :
    x0 * 16384 + x1 * 256 + 24 < 1048576 ∧ fld (encWord s h op (x0 * 16384 + x1 * 256 + 24)) 0 2 = 0 ∧ fld (encWord s h op (x0 * 16384 + x1 * 256 + 24)) 14 6 = x0 ∧ fld (encWord s h op (x0 * 16384 + x1 * 256 + 24)) 8 6 = x1 ∧ fld (encWord s h op (x0 * 16384 + x1 * 256 + 24)) 2 6 = 6 := by
  have ha : x0 * 16384 + x1 * 256 + 24 < 1048576 := by omega
  refine ⟨ha, ?_, ?_, ?_, ?_⟩
  all_goals (rw [fld_area _ _ _ _ _ _ (by decide)]; simp only [fld]; omega)

theorem flds12 (s : Nat) (h : Hdr) (op : Nat) (x0 : Nat) (x1 : Nat) (hx0 : x0 < 64) (hx1 : x1 < 64) :
    x0 * 16384 + x1 * 256 + 28 < 1048576 ∧ fld (encWord s h op (x0 * 16384 + x1 * 256 + 28)) 0 2 = 0 ∧ fld (encWord s h op (x0 * 16384 + x1 * 256 + 28)) 14 6 = x0 ∧ fld (encWord s h op (x0 * 16384 + x1 * 256 + 28)) 8 6 = x1 ∧ fld (encWord s h op (x0 * 16384 + x1 * 256 + 28)) 2 6 = 7 := by
  have ha : x0 * 16384 + x1 * 256 + 28 < 1048576 := by omega
  refine ⟨ha, ?_, ?_, ?_, ?_⟩
  all_goals (rw [fld_area _ _ _ _ _ _ (by decide)]; simp only [fld]; omega)

theorem flds13 (s : Nat) (h : Hdr) (op : Nat) (x0 : Nat) (x1 : Nat) (hx0 : x0 < 64) (hx1 : x1 < 64) :
    x0 * 16384 + x1 * 256 + 32 < 1048576 ∧ fld (encWord s h op (x0 * 16384 + x1 * 256 + 32)) 0 2 = 0 ∧ fld (encWord s h op (x0 * 16384 + x1 * 256 + 32)) 14 6 = x0 ∧ fld (encWord s h op (x0 * 16384 + x1 * 256 + 32)) 8 6 = x1 ∧ fld (encWord s h op (x0 * 16384 + x1 * 256 + 32)) 2 6 = 8 := by
  have ha : x0 * 16384 + x1 * 256 + 32 < 1048576 := by omega
  refine ⟨ha, ?_, ?_, ?_, ?_⟩
  all_goals (rw [fld_area _ _ _ _ _ _ (by decide)]; simp only [fld]; omega)

theorem flds14 (s : Nat) (h : Hdr) (op : Nat) (x0 : Nat) (x1 : Nat) (x2 : Nat) (hx0 : x0 < 64) (hx1 : x1 < 64) (hx2 : x2 < 4) :
    x0 * 16384 + x1 * 256 + x2 < 1048576 ∧ fld (encWord s h op (x0 * 16384 + x1 * 256 + x2)) 0 2 = x2 ∧ fld (encWord s h op (x0 * 16384 + x1 * 256 + x2)) 14 6 = x0 ∧ fld (encWord s h op (x0 * 16384 + x1 * 256 + x2)) 8 6 = x1 ∧ fld (encWord s h op (x0 * 16384 + x1 * 256 + x2)) 2 6 = 0 := by
  have ha : x0 * 16384 + x1 * 256 + x2 < 1048576 := by omega
  refine ⟨ha, ?_, ?_, ?_, ?_⟩
  all_goals (rw [fld_area _ _ _ _ _ _ (by decide)]; simp only [fld]; omega)

theorem flds15 (s : Nat) (h : Hdr) (op : Nat) (x0 : Nat) (x1 : Nat) (x2 : Nat) (hx0 : x0 < 64) (hx1 : x1 < 64) (hx2 : x2 < 4) :
    x0 * 16384 + x1 * 256 + 4 + x2 < 1048576 ∧ fld (encWord s h op (x0 * 16384 + x1 * 256 + 4 + x2)) 0 2 = x2 ∧ fld (encWord s h op (x0 * 16384 + x1 * 256 + 4 + x2)) 14 6 = x0 ∧ fld (encWord s h op (x0 * 16384 + x1 * 256 + 4 + x2)) 8 6 = x1 ∧ fld (encWord s h op (x0 * 16384 + x1 * 256 + 4 + x2)) 2 6 = 1 := by
  have ha : x0 * 16384 + x1 * 256 + 4 + x2 < 1048576 := by omega
  refine ⟨ha, ?_, ?_, ?_, ?_⟩
  all_goals (rw [fld_area _ _ _ _ _ _ (by decide)]; simp only [fld]; omega)

theorem flds16 (s : Nat) (h : Hdr) (op : Nat) (x0 : Nat) (x1 : Nat) (x2 : Nat) (hx0 : x0 < 64) (hx1 : x1 < 64) (hx2 : x2 < 4) :
    x0 * 16384 + x1 * 256 + 8 + x2 < 1048576 ∧ fld (encWord s h op (x0 * 16384 + x1 * 256 + 8 + x2)) 0 2 = x2 ∧ fld (encWord s h op (x0 * 16384 + x1 * 256 + 8 + x2)) 14 6 = x0 ∧ fld (encWord s h op (x0 * 16384 + x1 * 256 + 8 + x2)) 8 6 = x1 ∧ fld (encWord s h op (x0 * 16384 + x1 * 256 + 8 + x2)) 2 6 = 2 := by
  have ha : x0 * 16384 + x1 * 256 + 8 + x2 < 1048576 := by omega
  refine ⟨ha, ?_, ?_, ?_, ?_⟩
  all_goals (rw [fld_area _ _ _ _ _ _ (by decide)]; simp only [fld]; omega)

theorem flds17 (s : Nat) (h : Hdr) (op : Nat) (x0 : Nat) (x1 : Nat) (x2 : Nat) (hx0 : x0 < 64) (hx1 : x1 < 64) (hx2 : x2 < 4) :
    x0 * 16384 + x1 * 256 + 12 + x2 < 1048576 ∧ fld (encWord s h op (x0 * 16384 + x1 * 256 + 12 + x2)) 0 2 = x2 ∧ fld (encWord s h op (x0 * 16384 + x1 * 256 + 12 + x2)) 14 6 = x0 ∧ fld (encWord s h op (x0 * 16384 + x1 * 256 + 12 + x2)) 8 6 = x1 ∧ fld (encWord s h op (x0 * 16384 + x1 * 256 + 12 + x2)) 2 6 = 3 := by
  have ha : x0 * 16384 + x1 * 256 + 12 + x2 < 1048576 := by omega
  refine ⟨ha, ?_, ?_, ?_, ?_⟩
  all_goals (rw [fld_area _ _ _ _ _ _ (by decide)]; simp only [fld]; omega)

theorem flds18 (s : Nat) (h : Hdr) (op : Nat) (x0 : Nat) (hx0 : x0 < 64) :
    x0 * 16384 < 1048576 ∧ fld (encWord s h op (x0 * 16384)) 0 14 = 0 ∧ fld (encWord s h op (x0 * 16384)) 14 6 = x0 := by
  have ha : x0 * 16384 < 1048576 := by omega
  refine ⟨ha, ?_, ?_⟩
  all_goals (rw [fld_area _ _ _ _ _ _ (by decide)]; simp only [fld]; omega)

theorem flds19 (s : Nat) (h : Hdr) (op : Nat) (x0 : Nat) (x1 : Nat) (x2 : Nat) (x3 : Nat) (x4 : Nat) (hx0 : x0 < 64) (hx1 : x1 < 64) (hx2 : x2 < 8) (hx3 : x3 < 8) (hx4 : x4 < 4) :
    x0 * 16384 + x1 * 256 + x2 * 32 + x3 * 4 + x4 < 1048576 ∧ fld (encWord s h op (x0 * 16384 + x1 * 256 + x2 * 32 + x3 * 4 + x4)) 5 3 = x2 ∧ fld (encWord s h op (x0 * 16384 + x1 * 256 + x2 * 32 + x3 * 4 + x4)) 2 3 = x3 ∧ fld (encWord s h op (x0 * 16384 + x1 * 256 + x2 * 32 + x3 * 4 + x4)) 0 2 = x4 ∧ fld (encWord s h op (x0 * 16384 + x1 * 256 + x2 * 32 + x3 * 4 + x4)) 14 6 = x0 ∧ fld (encWord s h op (x0 * 16384 + x1 * 256 + x2 * 32 + x3 * 4 + x4)) 8 6 = x1 := by
  have ha : x0 * 16384 + x1 * 256 + x2 * 32 + x3 * 4 + x4 < 1048576 := by omega
  refine ⟨ha, ?_, ?_, ?_, ?_, ?_⟩
  all_goals (rw [fld_area _ _ _ _ _ _ (by decide)]; simp only [fld]; omega)

theorem flds20 (s : Nat) (h : Hdr) (op : Nat) (x0 : Nat) (x1 : Nat) (x2 : Nat) (x3 : Nat) (hx0 : x0 < 64) (hx1 : x1 < 64) (hx2 : x2 < 4) (hx3 : x3 < 4) :
    x0 * 16384 + x1 * 256 + x2 * 4 + x3 < 1048576 ∧ fld (encWord s h op (x0 * 16384 + x1 * 256 + x2 * 4 + x3)) 4 4 = 0 ∧ fld (encWord s h op (x0 * 16384 + x1 * 256 + x2 * 4 + x3)) 2 2 = x2 ∧ fld (encWord s h op (x0 * 16384 + x1 * 256 + x2 * 4 + x3)) 0 2 = x3 ∧ fld (encWord s h op (x0 * 16384 + x1 * 256 + x2 * 4 + x3)) 14 6 = x0 ∧ fld (encWord s h op (x0 * 16384 + x1 * 256 + x2 * 4 + x3)) 8 6 = x1 := by
  have ha : x0 * 16384 + x1 * 256 + x2 * 4 + x3 < 1048576 := by omega
  refine ⟨ha, ?_, ?_, ?_, ?_, ?_⟩
  all_goals (rw [fld_area _ _ _ _ _ _ (by decide)]; simp only [fld]; omega)

theorem flds21 (s : Nat) (h : Hdr) (op : Nat) (x0 : Nat) (x1 : Nat) (x2 : Nat) (x3 : Nat) (hx0 : x0 < 64) (hx1 : x1 < 64) (hx2 : x2 < 32) (hx3 : x3 < 8) :
    x0 * 16384 + x1 * 256 + x2 * 8 + x3 < 1048576 ∧ fld (encWord s h op (x0 * 16384 + x1 * 256 + x2 * 8 + x3)) 14 6 = x0 ∧ fld (encWord s h op (x0 * 16384 + x1 * 256 + x2 * 8 + x3)) 8 6 = x1 ∧ fld (encWord s h op (x0 * 16384 + x1 * 256 + x2 * 8 + x3)) 3 5 = x2 ∧ fld (encWord s h op (x0 * 16384 + x1 * 256 + x2 * 8 + x3)) 0 3 = x3 := by
  have ha : x0 * 16384 + x1 * 256 + x2 * 8 + x3 < 1048576 := by omega
  refine ⟨ha, ?_, ?_, ?_, ?_⟩
  all_goals (rw [fld_area _ _ _ _ _ _ (by decide)]; simp only [fld]; omega)

theorem flds22 (s : Nat) (h : Hdr) (op : Nat) (x0 : Nat) (x1 : Nat) (x2 : Nat) (hx0 : x0 < 64) (hx1 : x1 < 64) (hx2 : x2 < 4) :
    x0 * 16384 + x1 * 256 + x2 < 1048576 ∧ fld (encWord s h op (x0 * 16384 + x1 * 256 + x2)) 2 6 = 0 ∧ fld (encWord s h op (x0 * 16384 + x1 * 256 + x2)) 0 2 = x2 ∧ fld (encWord s h op (x0 * 16384 + x1 * 256 + x2)) 14 6 = x0 ∧ fld (encWord s h op (x0 * 16384 + x1 * 256 + x2)) 8 6 = x1 := by
  have ha : x0 * 16384 + x1 * 256 + x2 < 1048576 := by omega
  refine ⟨ha, ?_, ?_, ?_, ?_⟩
  all_goals (rw [fld_area _ _ _ _ _ _ (by decide)]; simp only [fld]; omega)

theorem flds23 (s : Nat) (h : Hdr) (op : Nat) (x0 : Nat) (x1 : Nat) (x2 : Nat) (hx0 : x0 < 64) (hx1 : x1 < 64) (hx2 : x2 < 4) :
    x0 * 16384 + x1 * 256 + x2 < 1048576 ∧ fld (encWord s h op (x0 * 16384 + x1 * 256 + x2)) 2 6 = 0 ∧ fld (encWord s h op (x0 * 16384 + x1 * 256 + x2)) 0 2 = x2 ∧ fld (encWord s h op (x0 * 16384 + x1 * 256 + x2)) 8 6 = x1 ∧ fld (encWord s h op (x0 * 16384 + x1 * 256 + x2)) 14 6 = x0 := by
  have ha : x0 * 16384 + x1 * 256 + x2 < 1048576 := by omega
  refine ⟨ha, ?_, ?_, ?_, ?_⟩
  all_goals (rw [fld_area _ _ _ _ _ _ (by decide)]; simp only [fld]; omega)

theorem flds24 (s : Nat) (h : Hdr) (op : Nat) (x0 : Nat) (x1 : Nat) (x2 : Nat) (hx0 : x0 < 64) (hx1 : x1 < 64) (hx2 : x2 < 64) :
    x0 * 16384 + x1 * 256 + x2 < 1048576 ∧ fld (encWord s h op (x0 * 16384 + x1 * 256 + x2)) 6 2 = 0 ∧ fld (encWord s h op (x0 * 16384 + x1 * 256 + x2)) 14 6 = x0 ∧ fld (encWord s h op (x0 * 16384 + x1 * 256 + x2)) 8 6 = x1 ∧ fld (encWord s h op (x0 * 16384 + x1 * 256 + x2)) 0 6 = x2 := by
  have ha : x0 * 16384 + x1 * 256 + x2 < 1048576 := by omega
  refine ⟨ha, ?_, ?_, ?_, ?_⟩
  all_goals (rw [fld_area _ _ _ _ _ _ (by decide)]; simp only [fld]; omega)

theorem flds25 (s : Nat) (h : Hdr) (op : Nat) (x0 : Nat) (x1 : Nat) (hx0 : x0 < 64) (hx1 : x1 < 64) :
    x0 * 16384 + x1 * 256 < 1048576 ∧ fld (encWord s h op (x0 * 16384 + x1 * 256)) 2 6 = 0 ∧ fld (encWord s h op (x0 * 16384 + x1 * 256)) 0 2 = 0 ∧ fld (encWord s h op (x0 * 16384 + x1 * 256)) 14 6 = x0 ∧ fld (encWord s h op (x0 * 16384 + x1 * 256)) 8 6 = x1 := by
  have ha : x0 * 16384 + x1 * 256 < 1048576 := by omega
  refine ⟨ha, ?_, ?_, ?_, ?_⟩
  all_goals (rw [fld_area _ _ _ _ _ _ (by decide)]; simp only [fld]; omega)

theorem flds26 (s : Nat) (h : Hdr) (op : Nat) (x0 : Nat) (x1 : Nat) (hx0 : x0 < 64) (hx1 : x1 < 64) :
    x0 * 16384 + x1 * 256 < 1048576 ∧ fld (encWord s h op (x0 * 16384 + x1 * 256)) 8 6 = x1 ∧ fld (encWord s h op (x0 * 16384 + x1 * 256)) 2 6 = 0 ∧ fld (encWord s h op (x0 * 16384 + x1 * 256)) 0 2 = 0 ∧ fld (encWord s h op (x0 * 16384 + x1 * 256)) 14 6 = x0 := by
  have ha : x0 * 16384 + x1 * 256 < 1048576 := by omega
  refine ⟨ha, ?_, ?_, ?_, ?_⟩
  all_goals (rw [fld_area _ _ _ _ _ _ (by decide)]; simp only [fld]; omega)

theorem flds27 (s : Nat) (h : Hdr) (op : Nat) (x0 : Nat) (x1 : Nat) (x2 : Nat) (x3 : Nat) (x4 : Nat) (hx0 : x0 < 64) (hx1 : x1 < 64) (hx2 : x2 < 16) (hx3 : x3 < 4) (hx4 : x4 < 4) :
    x0 * 16384 + x1 * 256 + x2 * 16 + x3 * 4 + x4 < 1048576 ∧ fld (encWord s h op (x0 * 16384 + x1 * 256 + x2 * 16 + x3 * 4 + x4)) 8 6 = x1 ∧ fld (encWord s h op (x0 * 16384 + x1 * 256 + x2 * 16 + x3 * 4 + x4)) 2 2 = x3 ∧ fld (encWord s h op (x0 * 16384 + x1 * 256 + x2 * 16 + x3 * 4 + x4)) 0 2 = x4 ∧ fld (encWord s h op (x0 * 16384 + x1 * 256 + x2 * 16 + x3 * 4 + x4)) 14 6 = x0 ∧ fld (encWord s h op (x0 * 16384 + x1 * 256 + x2 * 16 + x3 * 4 + x4)) 4 4 = x2 := by
  have ha : x0 * 16384 + x1 * 256 + x2 * 16 + x3 * 4 + x4 < 1048576 := by omega
  refine ⟨ha, ?_, ?_, ?_, ?_, ?_⟩
  all_goals (rw [fld_area _ _ _ _ _ _ (by decide)]; simp only [fld]; omega)

theorem flds28 (s : Nat) (h : Hdr) (op : Nat) (x0 : Nat) (x1 : Nat) (x2 : Nat) (x3 : Nat) (hx0 : x0 < 64) (hx1 : x1 < 16) (hx2 : x2 < 64) (hx3 : x3 < 16) :
    x0 * 16384 + x1 * 1024 + x2 * 16 + x3 < 1048576 ∧ fld (encWord s h op (x0 * 16384 + x1 * 1024 + x2 * 16 + x3)) 14 6 = x0 ∧ fld (encWord s h op (x0 * 16384 + x1 * 1024 + x2 * 16 + x3)) 10 4 = x1 ∧ fld (encWord s h op (x0 * 16384 + x1 * 1024 + x2 * 16 + x3)) 4 6 = x2 ∧ fld (encWord s h op (x0 * 16384 + x1 * 1024 + x2 * 16 + x3)) 0 4 = x3 := by
  have ha : x0 * 16384 + x1 * 1024 + x2 * 16 + x3 < 1048576 := by omega
  refine ⟨ha, ?_, ?_, ?_, ?_⟩
  all_goals (rw [fld_area _ _ _ _ _ _ (by decide)]; simp only [fld]; omega)

theorem flds29 (s : Nat) (h : Hdr) (op : Nat) (x0 : Nat) (x1 : Nat) (x2 : Nat) (x3 : Nat) (hx0 : x0 < 64) (hx1 : x1 < 64) (hx2 : x2 < 16) (hx3 : x3 < 4) :
    x0 * 16384 + x1 * 256 + x2 * 16 + 8 + x3 < 1048576 ∧ fld (encWord s h op (x0 * 16384 + x1 * 256 + x2 * 16 + 8 + x3)) 2 2 = 2 ∧ fld (encWord s h op (x0 * 16384 + x1 * 256 + x2 * 16 + 8 + x3)) 8 6 = x1 ∧ fld (encWord s h op (x0 * 16384 + x1 * 256 + x2 * 16 + 8 + x3)) 0 2 = x3 ∧ fld (encWord s h op (x0 * 16384 + x1 * 256 + x2 * 16 + 8 + x3)) 14 6 = x0 ∧ fld (encWord s h op (x0 * 16384 + x1 * 256 + x2 * 16 + 8 + x3)) 4 4 = x2 := by
  have ha : x0 * 16384 + x1 * 256 + x2 * 16 + 8 + x3 < 1048576 := by omega
  refine ⟨ha, ?_, ?_, ?_, ?_, ?_⟩
  all_goals (rw [fld_area _ _ _ _ _ _ (by decide)]; simp only [fld]; omega)

theorem flds30 (s : Nat) (h : Hdr) (op : Nat) (x0 : Nat) (x1 : Nat) (x2 : Nat) (x3 : Nat) (x4 : Nat) (hx0 : x0 < 16) (hx1 : x1 < 2) (hx2 : x2 < 32) (hx3 : x3 < 16) (hx4 : x4 < 64) :
    x0 * 65536 + x1 * 32768 + x2 * 1024 + x3 * 64 + x4 < 1048576 ∧ fld (encWord s h op (x0 * 65536 + x1 * 32768 + x2 * 1024 + x3 * 64 + x4)) 16 4 = x0 ∧ fld (encWord s h op (x0 * 65536 + x1 * 32768 + x2 * 1024 + x3 * 64 + x4)) 15 1 = x1 ∧ fld (encWord s h op (x0 * 65536 + x1 * 32768 + x2 * 1024 + x3 * 64 + x4)) 10 5 = x2 ∧ fld (encWord s h op (x0 * 65536 + x1 * 32768 + x2 * 1024 + x3 * 64 + x4)) 6 4 = x3 ∧ fld (encWord s h op (x0 * 65536 + x1 * 32768 + x2 * 1024 + x3 * 64 + x4)) 0 6 = x4 := by
  have ha : x0 * 65536 + x1 * 32768 + x2 * 1024 + x3 * 64 + x4 < 1048576 := by omega
  refine ⟨ha, ?_, ?_, ?_, ?_, ?_⟩
  all_goals (rw [fld_area _ _ _ _ _ _ (by decide)]; simp only [fld]; omega)

theorem flds31 (s : Nat) (h : Hdr) (op : Nat) :
    0 < 1048576 ∧ fld (encWord s h op (0)) 0 20 = 0 := by
  have ha : 0 < 1048576 := by decide
  refine ⟨ha, ?_⟩
  all_goals (rw [fld_area _ _ _ _ _ _ (by decide)]; decide)

theorem flds32 (s : Nat) (h : Hdr) (op : Nat) (x0 : Nat) (hx0 : x0 < 1048576) :
    x0 < 1048576 ∧ fld (encWord s h op (x0)) 0 20 = x0 := by
  have ha : x0 < 1048576 := by omega
  refine ⟨ha, ?_⟩
  all_goals (rw [fld_area _ _ _ _ _ _ (by decide)]; simp only [fld]; omega)

theorem flds33 (s : Nat) (h : Hdr) (op : Nat) (x0 : Nat) (x1 : Nat) (hx0 : x0 < 64) (hx1 : x1 < 64) :
    x0 * 256 + x1 * 4 < 1048576 ∧ fld (encWord s h op (x0 * 256 + x1 * 4)) 14 6 = 0 ∧ fld (encWord s h op (x0 * 256 + x1 * 4)) 0 2 = 0 ∧ fld (encWord s h op (x0 * 256 + x1 * 4)) 8 6 = x0 ∧ fld (encWord s h op (x0 * 256 + x1 * 4)) 2 6 = x1 := by
  have ha : x0 * 256 + x1 * 4 < 1048576 := by omega
  refine ⟨ha, ?_, ?_, ?_, ?_⟩
  all_goals (rw [fld_area _ _ _ _ _ _ (by decide)]; simp only [fld]; omega)

theorem flds34 (s : Nat) (h : Hdr) (op : Nat) (x0 : Nat) (hx0 : x0 < 64) :
    x0 * 256 < 1048576 ∧ fld (encWord s h op (x0 * 256)) 14 6 = 0 ∧ fld (encWord s h op (x0 * 256)) 2 6 = 0 ∧ fld (encWord s h op (x0 * 256)) 0 2 = 0 ∧ fld (encWord s h op (x0 * 256)) 8 6 = x0 := by
  have ha : x0 * 256 < 1048576 := by omega
  refine ⟨ha, ?_, ?_, ?_, ?_⟩
  all_goals (rw [fld_area _ _ _ _ _ _ (by decide)]; simp only [fld]; omega)

theorem flds35 (s : Nat) (h : Hdr) (op : Nat) (x0 : Nat) (x1 : Nat) (x2 : Nat) (hx0 : x0 < 64) (hx1 : x1 < 64) (hx2 : x2 < 4) :
    x0 * 16384 + x1 * 256 + x2 < 1048576 ∧ fld (encWord s h op (x0 * 16384 + x1 * 256 + x2)) 8 6 = x1 ∧ fld (encWord s h op (x0 * 16384 + x1 * 256 + x2)) 2 6 = 0 ∧ fld (encWord s h op (x0 * 16384 + x1 * 256 + x2)) 0 2 = x2 ∧ fld (encWord s h op (x0 * 16384 + x1 * 256 + x2)) 14 6 = x0 := by
  have ha : x0 * 16384 + x1 * 256 + x2 < 1048576 := by omega
  refine ⟨ha, ?_, ?_, ?_, ?_⟩
  all_goals (rw [fld_area _ _ _ _ _ _ (by decide)]; simp only [fld]; omega)

theorem flds36 (s : Nat) (h : Hdr) (op : Nat) (x0 : Nat) (x1 : Nat) (x2 : Nat) (hx0 : x0 < 64) (hx1 : x1 < 64) (hx2 : x2 < 64) :
    x0 * 16384 + x1 * 256 + x2 * 4 < 1048576 ∧ fld (encWord s h op (x0 * 16384 + x1 * 256 + x2 * 4)) 8 6 = x1 ∧ fld (encWord s h op (x0 * 16384 + x1 * 256 + x2 * 4)) 0 2 = 0 ∧ fld (encWord s h op (x0 * 16384 + x1 * 256 + x2 * 4)) 14 6 = x0 ∧ fld (encWord s h op (x0 * 16384 + x1 * 256 + x2 * 4)) 2 6 = x2 := by
  have ha : x0 * 16384 + x1 * 256 + x2 * 4 < 1048576 := by omega
  refine ⟨ha, ?_, ?_, ?_, ?_⟩
  all_goals (rw [fld_area _ _ _ _ _ _ (by decide)]; simp only [fld]; omega)

theorem flds37 (s : Nat) (h : Hdr) (op : Nat) (x0 : Nat) (x1 : Nat) (x2 : Nat) (hx0 : x0 < 64) (hx1 : x1 < 64) (hx2 : x2 < 64) :
    x0 * 16384 + x1 * 256 + x2 * 4 < 1048576 ∧ fld (encWord s h op (x0 * 16384 + x1 * 256 + x2 * 4)) 14 6 = x0 ∧ fld (encWord s h op (x0 * 16384 + x1 * 256 + x2 * 4)) 0 2 = 0 ∧ fld (encWord s h op (x0 * 16384 + x1 * 256 + x2 * 4)) 8 6 = x1 ∧ fld (encWord s h op (x0 * 16384 + x1 * 256 + x2 * 4)) 2 6 = x2 := by
  have ha : x0 * 16384 + x1 * 256 + x2 * 4 < 1048576 := by omega
  refine ⟨ha, ?_, ?_, ?_, ?_⟩
  all_goals (rw [fld_area _ _ _ _ _ _ (by decide)]; simp only [fld]; omega)

theorem flds38 (s : Nat) (h : Hdr) (op : Nat) (x0 : Nat) (x1 : Nat) (hx0 : x0 < 64) (hx1 : x1 < 64) :
    x0 * 16384 + x1 * 4 < 1048576 ∧ fld (encWord s h op (x0 * 16384 + x1 * 4)) 14 6 = x0 ∧ fld (encWord s h op (x0 * 16384 + x1 * 4)) 8 6 = 0 ∧ fld (encWord s h op (x0 * 16384 + x1 * 4)) 0 2 = 0 ∧ fld (encWord s h op (x0 * 16384 + x1 * 4)) 2 6 = x1 := by
  have ha : x0 * 16384 + x1 * 4 < 1048576 := by omega
  refine ⟨ha, ?_, ?_, ?_, ?_⟩
  all_goals (rw [fld_area _ _ _ _ _ _ (by decide)]; simp only [fld]; omega)

theorem flds39 (s : Nat) (h : Hdr) (op : Nat) (x0 : Nat) (x1 : Nat) (hx0 : x0 < 64) (hx1 : x1 < 256) :
    x0 * 16384 + x1 < 1048576 ∧ fld (encWord s h op (x0 * 16384 + x1)) 14 6 = x0 ∧ fld (encWord s h op (x0 * 16384 + x1)) 8 6 = 0 ∧ fld (encWord s h op (x0 * 16384 + x1)) 0 8 = x1 := by
  have ha : x0 * 16384 + x1 < 1048576 := by omega
  refine ⟨ha, ?_, ?_, ?_⟩
  all_goals (rw [fld_area _ _ _ _ _ _ (by decide)]; simp only [fld]; omega)

theorem flds40 (s : Nat) (h : Hdr) (op : Nat) (x0 : Nat) (x1 : Nat) (x2 : Nat) (hx0 : x0 < 64) (hx1 : x1 < 64) (hx2 : x2 < 64) :
    x0 * 16384 + x1 * 256 + x2 * 4 < 1048576 ∧ fld (encWord s h op (x0 * 16384 + x1 * 256 + x2 * 4)) 14 6 = x0 ∧ fld (encWord s h op (x0 * 16384 + x1 * 256 + x2 * 4)) 8 6 = x1 ∧ fld (encWord s h op (x0 * 16384 + x1 * 256 + x2 * 4)) 2 6 = x2 ∧ fld (encWord s h op (x0 * 16384 + x1 * 256 + x2 * 4)) 0 2 = 0 := by
  have ha : x0 * 16384 + x1 * 256 + x2 * 4 < 1048576 := by omega
  refine ⟨ha, ?_, ?_, ?_, ?_⟩
  all_goals (rw [fld_area _ _ _ _ _ _ (by decide)]; simp only [fld]; omega)

theorem flds41 (s : Nat) (h : Hdr) (op : Nat) (x0 : Nat) (x1 : Nat) (x2 : Nat) (x3 : Nat) (hx0 : x0 < 64) (hx1 : x1 < 64) (hx2 : x2 < 64) (hx3 : x3 < 4) :
    x0 * 16384 + x1 * 256 + x2 * 4 + x3 < 1048576 ∧ fld (encWord s h op (x0 * 16384 + x1 * 256 + x2 * 4 + x3)) 14 6 = x0 ∧ fld (encWord s h op (x0 * 16384 + x1 * 256 + x2 * 4 + x3)) 0 2 = x3 ∧ fld (encWord s h op (x0 * 16384 + x1 * 256 + x2 * 4 + x3)) 8 6 = x1 ∧ fld (encWord s h op (x0 * 16384 + x1 * 256 + x2 * 4 + x3)) 2 6 = x2 := by
  have ha : x0 * 16384 + x1 * 256 + x2 * 4 + x3 < 1048576 := by omega
  refine ⟨ha, ?_, ?_, ?_, ?_⟩
  all_goals (rw [fld_area _ _ _ _ _ _ (by decide)]; simp only [fld]; omega)

theorem flds42 (s : Nat) (h : Hdr) (op : Nat) (x0 : Nat) (x1 : Nat) (x2 : Nat) (x3 : Nat) (hx0 : x0 < 64) (hx1 : x1 < 64) (hx2 : x2 < 64) (hx3 : x3 < 4) :
    x0 * 16384 + x1 * 256 + x2 * 4 + x3 < 1048576 ∧ fld (encWord s h op (x0 * 16384 + x1 * 256 + x2 * 4 + x3)) 14 6 = x0 ∧ fld (encWord s h op (x0 * 16384 + x1 * 256 + x2 * 4 + x3)) 8 6 = x1 ∧ fld (encWord s h op (x0 * 16384 + x1 * 256 + x2 * 4 + x3)) 2 6 = x2 ∧ fld (encWord s h op (x0 * 16384 + x1 * 256 + x2 * 4 + x3)) 0 2 = x3 := by
  have ha : x0 * 16384 + x1 * 256 + x2 * 4 + x3 < 1048576 := by omega
  refine ⟨ha, ?_, ?_, ?_, ?_⟩
  all_goals (rw [fld_area _ _ _ _ _ _ (by decide)]; simp only [fld]; omega)

theorem flds43 (s : Nat) (h : Hdr) (op : Nat) (x0 : Nat) (x1 : Nat) (x2 : Nat) (hx0 : x0 < 64) (hx1 : x1 < 64) (hx2 : x2 < 4) :
    x0 * 16384 + x1 * 256 + x2 < 1048576 ∧ fld (encWord s h op (x0 * 16384 + x1 * 256 + x2)) 14 6 = x0 ∧ fld (encWord s h op (x0 * 16384 + x1 * 256 + x2)) 2 6 = 0 ∧ fld (encWord s h op (x0 * 16384 + x1 * 256 + x2)) 0 2 = x2 ∧ fld (encWord s h op (x0 * 16384 + x1 * 256 + x2)) 8 6 = x1 := by
  have ha : x0 * 16384 + x1 * 256 + x2 < 1048576 := by omega
  refine ⟨ha, ?_, ?_, ?_, ?_⟩
  all_goals (rw [fld_area _ _ _ _ _ _ (by decide)]; simp only [fld]; omega)

theorem flds44 (s : Nat) (h : Hdr) (op : Nat) (x0 : Nat) (x1 : Nat) (x2 : Nat) (hx0 : x0 < 64) (hx1 : x1 < 64) (hx2 : x2 < 4) :
    x0 * 16384 + x1 * 256 + x2 < 1048576 ∧ fld (encWord s h op (x0 * 16384 + x1 * 256 + x2)) 14 6 = x0 ∧ fld (encWord s h op (x0 * 16384 + x1 * 256 + x2)) 8 6 = x1 ∧ fld (encWord s h op (x0 * 16384 + x1 * 256 + x2)) 2 6 = 0 ∧ fld (encWord s h op (x0 * 16384 + x1 * 256 + x2)) 0 2 = x2 := by
  have ha : x0 * 16384 + x1 * 256 + x2 < 1048576 := by omega
  refine ⟨ha, ?_, ?_, ?_, ?_⟩
  all_goals (rw [fld_area _ _ _ _ _ _ (by decide)]; simp only [fld]; omega)

theorem flds45 (s : Nat) (h : Hdr) (op : Nat) (x0 : Nat) (x1 : Nat) (hx0 : x0 < 2) (hx1 : x1 < 16) :
    x0 * 16 + x1 < 1048576 ∧ fld (encWord s h op (x0 * 16 + x1)) 14 6 = 0 ∧ fld (encWord s h op (x0 * 16 + x1)) 8 6 = 0 ∧ fld (encWord s h op (x0 * 16 + x1)) 5 3 = 0 ∧ fld (encWord s h op (x0 * 16 + x1)) 4 1 = x0 ∧ fld (encWord s h op (x0 * 16 + x1)) 0 4 = x1 := by
  have ha : x0 * 16 + x1 < 1048576 := by omega
  refine ⟨ha, ?_, ?_, ?_, ?_, ?_⟩
  all_goals (rw [fld_area _ _ _ _ _ _ (by decide)]; simp only [fld]; omega)

theorem flds46 (s : Nat) (h : Hdr) (op : Nat) (x0 : Nat) (x1 : Nat) (x2 : Nat) (hx0 : x0 < 8) (hx1 : x1 < 4) (hx2 : x2 < 8) :
    x0 * 32 + x1 * 8 + x2 < 1048576 ∧ fld (encWord s h op (x0 * 32 + x1 * 8 + x2)) 14 6 = 0 ∧ fld (encWord s h op (x0 * 32 + x1 * 8 + x2)) 8 6 = 0 ∧ fld (encWord s h op (x0 * 32 + x1 * 8 + x2)) 5 3 = x0 ∧ fld (encWord s h op (x0 * 32 + x1 * 8 + x2)) 3 2 = x1 ∧ fld (encWord s h op (x0 * 32 + x1 * 8 + x2)) 0 3 = x2 := by
  have ha : x0 * 32 + x1 * 8 + x2 < 1048576 := by omega
  refine ⟨ha, ?_, ?_, ?_, ?_, ?_⟩
  all_goals (rw [fld_area _ _ _ _ _ _ (by decide)]; simp only [fld]; omega)

theorem flds47 (s : Nat) (h : Hdr) (op : Nat) (x0 : Nat) (x1 : Nat) (x2 : Nat) (hx0 : x0 < 64) (hx1 : x1 < 64) (hx2 : x2 < 4) :
    x0 * 256 + x1 * 4 + x2 < 1048576 ∧ fld (encWord s h op (x0 * 256 + x1 * 4 + x2)) 14 6 = 0 ∧ fld (encWord s h op (x0 * 256 + x1 * 4 + x2)) 0 2 = x2 ∧ fld (encWord s h op (x0 * 256 + x1 * 4 + x2)) 8 6 = x0 ∧ fld (encWord s h op (x0 * 256 + x1 * 4 + x2)) 2 6 = x1 := by
  have ha : x0 * 256 + x1 * 4 + x2 < 1048576 := by omega
  refine ⟨ha, ?_, ?_, ?_, ?_⟩
  all_goals (rw [fld_area _ _ _ _ _ _ (by decide)]; simp only [fld]; omega)

theorem flds48 (s : Nat) (h : Hdr) (op : Nat) (x0 : Nat) (hx0 : x0 < 8) :
    x0 < 1048576 ∧ fld (encWord s h op (x0)) 14 6 = 0 ∧ fld (encWord s h op (x0)) 8 6 = 0 ∧ fld (encWord s h op (x0)) 3 5 = 0 ∧ fld (encWord s h op (x0)) 0 3 = x0 := by
  have ha : x0 < 1048576 := by omega
  refine ⟨ha, ?_, ?_, ?_, ?_⟩
  all_goals (rw [fld_area _ _ _ _ _ _ (by decide)]; simp only [fld]; omega)

theorem flds49 (s : Nat) (h : Hdr) (op : Nat) (x0 : Nat) (x1 : Nat) (hx0 : x0 < 64) (hx1 : x1 < 64) :
    x0 * 16384 + x1 * 256 < 1048576 ∧ fld (encWord s h op (x0 * 16384 + x1 * 256)) 14 6 = x0 ∧ fld (encWord s h op (x0 * 16384 + x1 * 256)) 2 6 = 0 ∧ fld (encWord s h op (x0 * 16384 + x1 * 256)) 0 2 = 0 ∧ fld (encWord s h op (x0 * 16384 + x1 * 256)) 8 6 = x1 := by
  have ha : x0 * 16384 + x1 * 256 < 1048576 := by omega
  refine ⟨ha, ?_, ?_, ?_, ?_⟩
  all_goals (rw [fld_area _ _ _ _ _ _ (by decide)]; simp only [fld]; omega)

theorem flds50 (s : Nat) (h : Hdr) (op : Nat) (x0 : Nat) (hx0 : x0 < 16384) :
    x0 < 1048576 ∧ fld (encWord s h op (x0)) 14 6 = 0 ∧ fld (encWord s h op (x0)) 0 14 = x0 := by
  have ha : x0 < 1048576 := by omega
  refine ⟨ha, ?_, ?_⟩
  all_goals (rw [fld_area _ _ _ _ _ _ (by decide)]; simp only [fld]; omega)

theorem flds51 (s : Nat) (h : Hdr) (op : Nat) (x0 : Nat) (x1 : Nat) (hx0 : x0 < 64) (hx1 : x1 < 4) :
    x0 * 256 + x1 < 1048576 ∧ fld (encWord s h op (x0 * 256 + x1)) 14 6 = 0 ∧ fld (encWord s h op (x0 * 256 + x1)) 2 6 = 0 ∧ fld (encWord s h op (x0 * 256 + x1)) 0 2 = x1 ∧ fld (encWord s h op (x0 * 256 + x1)) 8 6 = x0 := by
  have ha : x0 * 256 + x1 < 1048576 := by omega
  refine ⟨ha, ?_, ?_, ?_, ?_⟩
  all_goals (rw [fld_area _ _ _ _ _ _ (by decide)]; simp only [fld]; omega)

theorem flds52 (s : Nat) (h : Hdr) (op : Nat) (x0 : Nat) (hx0 : x0 < 64) :
    x0 * 16384 < 1048576 ∧ fld (encWord s h op (x0 * 16384)) 8 6 = 0 ∧ fld (encWord s h op (x0 * 16384)) 2 6 = 0 ∧ fld (encWord s h op (x0 * 16384)) 0 2 = 0 ∧ fld (encWord s h op (x0 * 16384)) 14 6 = x0 := by
  have ha : x0 * 16384 < 1048576 := by omega
  refine ⟨ha, ?_, ?_, ?_, ?_⟩
  all_goals (rw [fld_area _ _ _ _ _ _ (by decide)]; simp only [fld]; omega)

theorem flds53 (s : Nat) (h : Hdr) (op : Nat) (x0 : Nat) (x1 : Nat) (hx0 : x0 < 64) (hx1 : x1 < 4096) :
    x0 * 16384 + x1 < 1048576 ∧ fld (encWord s h op (x0 * 16384 + x1)) 12 2 = 0 ∧ fld (encWord s h op (x0 * 16384 + x1)) 0 12 = x1 ∧ fld (encWord s h op (x0 * 16384 + x1)) 14 6 = x0 := by
  have ha : x0 * 16384 + x1 < 1048576 := by omega
  refine ⟨ha, ?_, ?_, ?_⟩
  all_goals (rw [fld_area _ _ _ _ _ _ (by decide)]; simp only [fld]; omega)

theorem flds54 (s : Nat) (h : Hdr) (op : Nat) (x0 : Nat) (x1 : Nat) (x2 : Nat) (hx0 : x0 < 64) (hx1 : x1 < 64) (hx2 : x2 < 64) :
    x0 * 16384 + x1 * 256 + x2 * 4 < 1048576 ∧ fld (encWord s h op (x0 * 16384 + x1 * 256 + x2 * 4)) 14 6 = x0 ∧ fld (encWord s h op (x0 * 16384 + x1 * 256 + x2 * 4)) 8 6 = x1 ∧ fld (encWord s h op (x0 * 16384 + x1 * 256 + x2 * 4)) 0 2 = 0 ∧ fld (encWord s h op (x0 * 16384 + x1 * 256 + x2 * 4)) 2 6 = x2 := by
  have ha : x0 * 16384 + x1 * 256 + x2 * 4 < 1048576 := by omega
  refine ⟨ha, ?_, ?_, ?_, ?_⟩
  all_goals (rw [fld_area _ _ _ _ _ _ (by decide)]; simp only [fld]; omega)

theorem flds55 (s : Nat) (h : Hdr) (op : Nat) (x0 : Nat) (hx0 : x0 < 64) :
    x0 * 16384 < 1048576 ∧ fld (encWord s h op (x0 * 16384)) 14 6 = x0 ∧ fld (encWord s h op (x0 * 16384)) 8 6 = 0 ∧ fld (encWord s h op (x0 * 16384)) 2 6 = 0 ∧ fld (encWord s h op (x0 * 16384)) 0 2 = 0 := by
  have ha : x0 * 16384 < 1048576 := by omega
  refine ⟨ha, ?_, ?_, ?_, ?_⟩
  all_goals (rw [fld_area _ _ _ _ _ _ (by decide)]; simp only [fld]; omega)

theorem flds56 (s : Nat) (h : Hdr) (op : Nat) (x0 : Nat) (x1 : Nat) (hx0 : x0 < 64) (hx1 : x1 < 64) :
    x0 * 16384 + x1 * 256 < 1048576 ∧ fld (encWord s h op (x0 * 16384 + x1 * 256)) 14 6 = x0 ∧ fld (encWord s h op (x0 * 16384 + x1 * 256)) 8 6 = x1 ∧ fld (encWord s h op (x0 * 16384 + x1 * 256)) 2 6 = 0 ∧ fld (encWord s h op (x0 * 16384 + x1 * 256)) 0 2 = 0 := by
  have ha : x0 * 16384 + x1 * 256 < 1048576 := by omega
  refine ⟨ha, ?_, ?_, ?_, ?_⟩
  all_goals (rw [fld_area _ _ _ _ _ _ (by decide)]; simp only [fld]; omega)

/-! The arms of the decoder. -/

theorem fam_decodeLaneFam0F (h : Hdr) (w lit : Nat) : decodeLane h w lit 0x0F = decodeLaneFam0F h w (fld w 2 6) := rfl
theorem fam_decodeLaneFam16 (h : Hdr) (w lit : Nat) : decodeLane h w lit 0x16 = decodeLaneFam16 h w (fld w 2 6) := rfl
theorem fam_decodeUniFam0D (h : Hdr) (w lit : Nat) : decodeUni h w lit 0x0D = decodeUniFam0D h w (fld w 2 6) := rfl
theorem arm_vadd (h : Hdr) (w lit : Nat) : decodeLane h w lit 0x00 = sub (AddK.ofCode (fld w 0 2)) .reservedSub (fun k => .ok (.vadd h (fld w 14 6) (fld w 8 6) (fld w 2 6) k)) := rfl
theorem arm_vsub (h : Hdr) (w lit : Nat) : decodeLane h w lit 0x01 = sub (AddK.ofCode (fld w 0 2)) .reservedSub (fun k => .ok (.vsub h (fld w 14 6) (fld w 8 6) (fld w 2 6) k)) := rfl
theorem arm_vmul (h : Hdr) (w lit : Nat) : decodeLane h w lit 0x02 = sub (MulK.ofCode (fld w 0 2)) .reservedSub (fun k => .ok (.vmul h (fld w 14 6) (fld w 8 6) (fld w 2 6) k)) := rfl
theorem arm_vmad (h : Hdr) (w lit : Nat) : decodeLane h w lit 0x03 = need (fld w 0 2 == 0) .nonzeroField (.ok (.vmad h (fld w 14 6) (fld w 8 6) (fld w 2 6))) := rfl
theorem arm_vand (h : Hdr) (w lit : Nat) : decodeLane h w lit 0x04 = need (fld w 0 2 == 0) .nonzeroField (.ok (.vand h (fld w 14 6) (fld w 8 6) (fld w 2 6))) := rfl
theorem arm_vor (h : Hdr) (w lit : Nat) : decodeLane h w lit 0x05 = need (fld w 0 2 == 0) .nonzeroField (.ok (.vor h (fld w 14 6) (fld w 8 6) (fld w 2 6))) := rfl
theorem arm_vxor (h : Hdr) (w lit : Nat) : decodeLane h w lit 0x06 = need (fld w 0 2 == 0) .nonzeroField (.ok (.vxor h (fld w 14 6) (fld w 8 6) (fld w 2 6))) := rfl
theorem arm_vandn (h : Hdr) (w lit : Nat) : decodeLane h w lit 0x07 = need (fld w 0 2 == 0) .nonzeroField (.ok (.vandn h (fld w 14 6) (fld w 8 6) (fld w 2 6))) := rfl
theorem arm_vshl (h : Hdr) (w lit : Nat) : decodeLane h w lit 0x08 = need (fld w 0 2 == 0) .nonzeroField (.ok (.vshl h (fld w 14 6) (fld w 8 6) (fld w 2 6))) := rfl
theorem arm_vshr (h : Hdr) (w lit : Nat) : decodeLane h w lit 0x09 = sub (ShrK.ofCode (fld w 0 2)) .reservedSub (fun k => .ok (.vshr h (fld w 14 6) (fld w 8 6) (fld w 2 6) k)) := rfl
theorem arm_vmin (h : Hdr) (w lit : Nat) : decodeLane h w lit 0x0A = sub (SgnK.ofCode (fld w 0 2)) .reservedSub (fun k => .ok (.vmin h (fld w 14 6) (fld w 8 6) (fld w 2 6) k)) := rfl
theorem arm_vmax (h : Hdr) (w lit : Nat) : decodeLane h w lit 0x0B = sub (SgnK.ofCode (fld w 0 2)) .reservedSub (fun k => .ok (.vmax h (fld w 14 6) (fld w 8 6) (fld w 2 6) k)) := rfl
theorem arm_vaddi (h : Hdr) (w lit : Nat) : decodeLane h w lit 0x0C = .ok (.vaddi h (fld w 14 6) (fld w 8 6) (BitVec.ofNat 8 (fld w 0 8))) := rfl
theorem arm_vshi (h : Hdr) (w lit : Nat) : decodeLane h w lit 0x0D = need (fld w 7 1 == 0) .nonzeroField (sub (ShiK.ofCode (fld w 5 2)) .reservedSub (fun k => .ok (.vshi h (fld w 14 6) (fld w 8 6) k (fld w 0 5)))) := rfl
theorem arm_vmovi (h : Hdr) (w lit : Nat) : decodeLane h w lit 0x0E = .ok (.vmovi h (fld w 14 6) (BitVec.ofNat 14 (fld w 0 14))) := rfl
theorem arm_vmov (h : Hdr) (w lit : Nat) : decodeLaneFam0F h w 0 = need (fld w 0 2 == 0) .nonzeroField (.ok (.vmov h (fld w 14 6) (fld w 8 6))) := rfl
theorem arm_vnot (h : Hdr) (w lit : Nat) : decodeLaneFam0F h w 1 = need (fld w 0 2 == 0) .nonzeroField (.ok (.vnot h (fld w 14 6) (fld w 8 6))) := rfl
theorem arm_vneg (h : Hdr) (w lit : Nat) : decodeLaneFam0F h w 2 = need (fld w 0 2 == 0) .nonzeroField (.ok (.vneg h (fld w 14 6) (fld w 8 6))) := rfl
theorem arm_vabs (h : Hdr) (w lit : Nat) : decodeLaneFam0F h w 3 = need (fld w 0 2 == 0) .nonzeroField (.ok (.vabs h (fld w 14 6) (fld w 8 6))) := rfl
theorem arm_vpopc (h : Hdr) (w lit : Nat) : decodeLaneFam0F h w 4 = need (fld w 0 2 == 0) .nonzeroField (.ok (.vpopc h (fld w 14 6) (fld w 8 6))) := rfl
theorem arm_vclz (h : Hdr) (w lit : Nat) : decodeLaneFam0F h w 5 = need (fld w 0 2 == 0) .nonzeroField (.ok (.vclz h (fld w 14 6) (fld w 8 6))) := rfl
theorem arm_vbrev (h : Hdr) (w lit : Nat) : decodeLaneFam0F h w 6 = need (fld w 0 2 == 0) .nonzeroField (.ok (.vbrev h (fld w 14 6) (fld w 8 6))) := rfl
theorem arm_vsext8 (h : Hdr) (w lit : Nat) : decodeLaneFam0F h w 7 = need (fld w 0 2 == 0) .nonzeroField (.ok (.vsext8 h (fld w 14 6) (fld w 8 6))) := rfl
theorem arm_vsext16 (h : Hdr) (w lit : Nat) : decodeLaneFam0F h w 8 = need (fld w 0 2 == 0) .nonzeroField (.ok (.vsext16 h (fld w 14 6) (fld w 8 6))) := rfl
theorem arm_vfadd (h : Hdr) (w lit : Nat) : decodeLane h w lit 0x10 = sub (FmtK.ofCode (fld w 0 2)) .reservedSub (fun k => .ok (.vfadd h (fld w 14 6) (fld w 8 6) (fld w 2 6) k)) := rfl
theorem arm_vfsub (h : Hdr) (w lit : Nat) : decodeLane h w lit 0x11 = sub (FmtK.ofCode (fld w 0 2)) .reservedSub (fun k => .ok (.vfsub h (fld w 14 6) (fld w 8 6) (fld w 2 6) k)) := rfl
theorem arm_vfmul (h : Hdr) (w lit : Nat) : decodeLane h w lit 0x12 = sub (FmtK.ofCode (fld w 0 2)) .reservedSub (fun k => .ok (.vfmul h (fld w 14 6) (fld w 8 6) (fld w 2 6) k)) := rfl
theorem arm_vfma (h : Hdr) (w lit : Nat) : decodeLane h w lit 0x13 = sub (FmtK.ofCode (fld w 0 2)) .reservedSub (fun k => .ok (.vfma h (fld w 14 6) (fld w 8 6) (fld w 2 6) k)) := rfl
theorem arm_vfmin (h : Hdr) (w lit : Nat) : decodeLane h w lit 0x14 = sub (FmtK.ofCode (fld w 0 2)) .reservedSub (fun k => .ok (.vfmin h (fld w 14 6) (fld w 8 6) (fld w 2 6) k)) := rfl
theorem arm_vfmax (h : Hdr) (w lit : Nat) : decodeLane h w lit 0x15 = sub (FmtK.ofCode (fld w 0 2)) .reservedSub (fun k => .ok (.vfmax h (fld w 14 6) (fld w 8 6) (fld w 2 6) k)) := rfl
theorem arm_vfabs (h : Hdr) (w lit : Nat) : decodeLaneFam16 h w 0 = sub (FmtK.ofCode (fld w 0 2)) .reservedSub (fun k => .ok (.vfabs h (fld w 14 6) (fld w 8 6) k)) := rfl
theorem arm_vfneg (h : Hdr) (w lit : Nat) : decodeLaneFam16 h w 1 = sub (FmtK.ofCode (fld w 0 2)) .reservedSub (fun k => .ok (.vfneg h (fld w 14 6) (fld w 8 6) k)) := rfl
theorem arm_vfrint (h : Hdr) (w lit : Nat) : decodeLaneFam16 h w 2 = sub (FmtK.ofCode (fld w 0 2)) .reservedSub (fun k => .ok (.vfrint h (fld w 14 6) (fld w 8 6) k)) := rfl
theorem arm_vfcls (h : Hdr) (w lit : Nat) : decodeLaneFam16 h w 3 = sub (FmtK.ofCode (fld w 0 2)) .reservedSub (fun k => .ok (.vfcls h (fld w 14 6) (fld w 8 6) k)) := rfl
theorem arm_vfscl (h : Hdr) (w lit : Nat) : decodeLane h w lit 0x17 = need (fld w 0 2 == 0) .nonzeroField (.ok (.vfscl h (fld w 14 6) (fld w 8 6) (fld w 2 6))) := rfl
theorem arm_vmovl (h : Hdr) (w lit : Nat) : decodeLane h w lit 0x18 = need (fld w 0 14 == 0) .nonzeroField (.ok (.vmovl h (fld w 14 6) (BitVec.ofNat 32 lit))) := rfl
theorem arm_vcvt (h : Hdr) (w lit : Nat) : decodeLane h w lit 0x20 = sub (CvtKind.ofCode (fld w 5 3)) .reservedSub (fun dst => sub (CvtKind.ofCode (fld w 2 3)) .reservedSub (fun src => sub (Rnd.ofCode (fld w 0 2)) .reservedSub (fun r => need (dst != src) .reservedSub (.ok (.vcvt h (fld w 14 6) (fld w 8 6) dst src r))))) := rfl
theorem arm_vcvt6 (h : Hdr) (w lit : Nat) : decodeLane h w lit 0x21 = need (fld w 4 4 == 0) .nonzeroField (sub (Cvt6K.ofCode (fld w 2 2)) .reservedSub (fun k => sub (Rnd.ofCode (fld w 0 2)) .reservedSub (fun r => need ((k.code < 2 || r == .rne)) .reservedSub (.ok (.vcvt6 h (fld w 14 6) (fld w 8 6) k r))))) := rfl
theorem arm_vqnt (h : Hdr) (w lit : Nat) : decodeLane h w lit 0x22 = .ok (.vqnt h (fld w 14 6) (fld w 8 6) (fld w 3 5) (fld w 0 3)) := rfl
theorem arm_vdqnt (h : Hdr) (w lit : Nat) : decodeLane h w lit 0x23 = .ok (.vdqnt h (fld w 14 6) (fld w 8 6) (fld w 3 5) (fld w 0 3)) := rfl
theorem arm_vpkh (h : Hdr) (w lit : Nat) : decodeLane h w lit 0x24 = sub (PkhK.ofCode (fld w 0 2)) .reservedSub (fun k => .ok (.vpkh h (fld w 14 6) (fld w 8 6) (fld w 2 6) k)) := rfl
theorem arm_vupkh (h : Hdr) (w lit : Nat) : decodeLane h w lit 0x25 = need (fld w 2 6 == 0) .nonzeroField (sub (UpkhK.ofCode (fld w 0 2)) .reservedSub (fun k => .ok (.vupkh h (fld w 14 6) (fld w 8 6) k))) := rfl
theorem arm_vcmpeq (h : Hdr) (w lit : Nat) : decodeLane h w lit 0x28 = sub (CmpK.ofCode (fld w 0 2)) .reservedSub (fun k => .ok (.vcmpeq h (fld w 14 6) (fld w 8 6) (fld w 2 6) k)) := rfl
theorem arm_vcmpne (h : Hdr) (w lit : Nat) : decodeLane h w lit 0x29 = sub (CmpK.ofCode (fld w 0 2)) .reservedSub (fun k => .ok (.vcmpne h (fld w 14 6) (fld w 8 6) (fld w 2 6) k)) := rfl
theorem arm_vcmplt (h : Hdr) (w lit : Nat) : decodeLane h w lit 0x2A = sub (CmpK.ofCode (fld w 0 2)) .reservedSub (fun k => .ok (.vcmplt h (fld w 14 6) (fld w 8 6) (fld w 2 6) k)) := rfl
theorem arm_vcmple (h : Hdr) (w lit : Nat) : decodeLane h w lit 0x2B = sub (CmpK.ofCode (fld w 0 2)) .reservedSub (fun k => .ok (.vcmple h (fld w 14 6) (fld w 8 6) (fld w 2 6) k)) := rfl
theorem arm_vsel (h : Hdr) (w lit : Nat) : decodeLane h w lit 0x2C = need (fld w 0 2 == 0) .nonzeroField (need (decide (h.g < 7)) .selUnguarded (.ok (.vsel h (fld w 14 6) (fld w 8 6) (fld w 2 6)))) := rfl
theorem arm_plog (h : Hdr) (w lit : Nat) : decodeLane h w lit 0x2D = sub (LogK.ofCode (fld w 0 2)) .reservedSub (fun k => .ok (.plog h (fld w 14 6) (fld w 8 6) (fld w 2 6) k)) := rfl
theorem arm_pmov (h : Hdr) (w lit : Nat) : decodeLane h w lit 0x2E = need (fld w 2 6 == 0) .nonzeroField (sub (MovK.ofCode (fld w 0 2)) .reservedSub (fun k => need ((k.code < 2 || fld w 8 6 == 0)) .nonzeroField (.ok (.pmov h (fld w 14 6) (fld w 8 6) k)))) := rfl
theorem arm_vshfl (h : Hdr) (w lit : Nat) : decodeLane h w lit 0x30 = need (fld w 0 2 == 0) .nonzeroField (.ok (.vshfl h (fld w 14 6) (fld w 8 6) (fld w 2 6))) := rfl
theorem arm_vshflx (h : Hdr) (w lit : Nat) : decodeLane h w lit 0x31 = need (fld w 6 2 == 0) .nonzeroField (.ok (.vshflx h (fld w 14 6) (fld w 8 6) (fld w 0 6))) := rfl
theorem arm_vshflu (h : Hdr) (w lit : Nat) : decodeLane h w lit 0x32 = need (fld w 6 2 == 0) .nonzeroField (.ok (.vshflu h (fld w 14 6) (fld w 8 6) (fld w 0 6))) := rfl
theorem arm_vshfld (h : Hdr) (w lit : Nat) : decodeLane h w lit 0x33 = need (fld w 6 2 == 0) .nonzeroField (.ok (.vshfld h (fld w 14 6) (fld w 8 6) (fld w 0 6))) := rfl
theorem arm_vballot (h : Hdr) (w lit : Nat) : decodeLane h w lit 0x34 = need (fld w 2 6 == 0) .nonzeroField (need (fld w 0 2 == 0) .nonzeroField (.ok (.vballot h (fld w 14 6) (fld w 8 6)))) := rfl
theorem arm_vred (h : Hdr) (w lit : Nat) : decodeLane h w lit 0x35 = need (fld w 2 6 == 0) .nonzeroField (sub (RedK.ofCode (fld w 0 2)) .reservedSub (fun k => .ok (.vred h (fld w 14 6) (fld w 8 6) k))) := rfl
theorem arm_vaff (h : Hdr) (w lit : Nat) : decodeLane h w lit 0x36 = need (decide (fld w 8 6 < 16)) .outOfRange (need (fld w 2 6 == 0) .nonzeroField (need (fld w 0 2 == 0) .nonzeroField (.ok (.vaff h (fld w 14 6) (fld w 8 6))))) := rfl
theorem arm_vbcast (h : Hdr) (w lit : Nat) : decodeLane h w lit 0x37 = need (fld w 2 6 == 0) .nonzeroField (need (fld w 0 2 == 0) .nonzeroField (.ok (.vbcast h (fld w 14 6) (fld w 8 6)))) := rfl
theorem arm_vld (h : Hdr) (w lit : Nat) : decodeLane h w lit 0x38 = sub (Adr.ofCode (fld w 8 6)) .badAddress (fun a => sub (MemK.ofCode (fld w 2 2)) .reservedSub (fun k => sub (Hint.ofCode (fld w 0 2)) .reservedSub (fun t => need (t != .release) .badHint (.ok (.vld h (fld w 14 6) a (fld w 4 4) k t))))) := rfl
theorem arm_vldnf (h : Hdr) (w lit : Nat) : decodeLane h w lit 0x39 = sub (Adr.ofCode (fld w 8 6)) .badAddress (fun a => sub (MemK.ofCode (fld w 2 2)) .reservedSub (fun k => sub (Hint.ofCode (fld w 0 2)) .reservedSub (fun t => need (t != .release) .badHint (.ok (.vldnf h (fld w 14 6) a (fld w 4 4) k t))))) := rfl
theorem arm_vst (h : Hdr) (w lit : Nat) : decodeLane h w lit 0x3A = sub (Adr.ofCode (fld w 8 6)) .badAddress (fun a => sub (MemK.ofCode (fld w 2 2)) .reservedSub (fun k => sub (Hint.ofCode (fld w 0 2)) .reservedSub (fun t => need (t != .acquire) .badHint (.ok (.vst h (fld w 14 6) a (fld w 4 4) k t))))) := rfl
theorem arm_vldn (h : Hdr) (w lit : Nat) : decodeLane h w lit 0x3B = sub (Adr.ofCode (fld w 8 6)) .badAddress (fun a => sub (PackK.ofCode (fld w 2 2)) .reservedSub (fun k => sub (Hint.ofCode (fld w 0 2)) .reservedSub (fun t => need (t != .release) .badHint (.ok (.vldn h (fld w 14 6) a (fld w 4 4) k t))))) := rfl
theorem arm_vstn (h : Hdr) (w lit : Nat) : decodeLane h w lit 0x3C = sub (Adr.ofCode (fld w 8 6)) .badAddress (fun a => sub (PackK.ofCode (fld w 2 2)) .reservedSub (fun k => sub (Hint.ofCode (fld w 0 2)) .reservedSub (fun t => need (t != .acquire) .badHint (.ok (.vstn h (fld w 14 6) a (fld w 4 4) k t))))) := rfl
theorem arm_vatadd (h : Hdr) (w lit : Nat) : decodeLane h w lit 0x3D = sub (Adr.ofCode (fld w 8 6)) .badAddress (fun a => sub (AtAddK.ofCode (fld w 2 2)) .reservedSub (fun k => sub (Hint.ofCode (fld w 0 2)) .reservedSub (fun t => need (t != .nontemporal) .badHint (.ok (.vatadd h (fld w 14 6) a (fld w 4 4) k t))))) := rfl
theorem arm_vatmm (h : Hdr) (w lit : Nat) : decodeLane h w lit 0x3E = sub (Adr.ofCode (fld w 8 6)) .badAddress (fun a => sub (AtMmK.ofCode (fld w 2 2)) .reservedSub (fun k => sub (Hint.ofCode (fld w 0 2)) .reservedSub (fun t => need (t != .nontemporal) .badHint (.ok (.vatmm h (fld w 14 6) a (fld w 4 4) k t))))) := rfl
theorem arm_vatbit (h : Hdr) (w lit : Nat) : decodeLane h w lit 0x3F = sub (Adr.ofCode (fld w 8 6)) .badAddress (fun a => sub (AtBitK.ofCode (fld w 2 2)) .reservedSub (fun k => sub (Hint.ofCode (fld w 0 2)) .reservedSub (fun t => need (t != .nontemporal) .badHint (.ok (.vatbit h (fld w 14 6) a (fld w 4 4) k t))))) := rfl
theorem arm_vcas (h : Hdr) (w lit : Nat) : decodeLane h w lit 0x40 = sub (Adr.ofCode (fld w 8 6)) .badAddress (fun a => sub (CasK.ofCode (fld w 2 2)) .reservedSub (fun k => sub (Hint.ofCode (fld w 0 2)) .reservedSub (fun t => need (t != .nontemporal) .badHint (.ok (.vcas h (fld w 14 6) a (fld w 4 4) k t))))) := rfl
theorem arm_vldxW (h : Hdr) (w lit : Nat) : decodeLane h w lit 0x41 = .ok (.vldxW h (fld w 14 6) (fld w 10 4) (fld w 4 6) (fld w 0 4)) := rfl
theorem arm_vldxD (h : Hdr) (w lit : Nat) : decodeLane h w lit 0x42 = .ok (.vldxD h (fld w 14 6) (fld w 10 4) (fld w 4 6) (fld w 0 4)) := rfl
theorem arm_vstxW (h : Hdr) (w lit : Nat) : decodeLane h w lit 0x43 = .ok (.vstxW h (fld w 14 6) (fld w 10 4) (fld w 4 6) (fld w 0 4)) := rfl
theorem arm_vstxD (h : Hdr) (w lit : Nat) : decodeLane h w lit 0x44 = .ok (.vstxD h (fld w 14 6) (fld w 10 4) (fld w 4 6) (fld w 0 4)) := rfl
theorem arm_vldf (h : Hdr) (w lit : Nat) : decodeLane h w lit 0x45 = need (fld w 2 2 == 2) .reservedSub (sub (Adr.ofCode (fld w 8 6)) .badAddress (fun a => sub (Hint.ofCode (fld w 0 2)) .reservedSub (fun t => need (t != .release) .badHint (.ok (.vldf h (fld w 14 6) a (fld w 4 4) t))))) := rfl
theorem arm_vtrd (h : Hdr) (w lit : Nat) : decodeLane h w lit 0x50 = .ok (.vtrd h (fld w 16 4) (fld w 15 1 == 1) (fld w 10 5) (fld w 6 4) (fld w 0 6)) := rfl
theorem arm_vtwr (h : Hdr) (w lit : Nat) : decodeLane h w lit 0x51 = .ok (.vtwr h (fld w 16 4) (fld w 15 1 == 1) (fld w 10 5) (fld w 6 4) (fld w 0 6)) := rfl
theorem arm_vtaddF32 (h : Hdr) (w lit : Nat) : decodeLane h w lit 0x52 = .ok (.vtaddF32 h (fld w 16 4) (fld w 15 1 == 1) (fld w 10 5) (fld w 6 4) (fld w 0 6)) := rfl
theorem arm_vtmaxF32 (h : Hdr) (w lit : Nat) : decodeLane h w lit 0x53 = .ok (.vtmaxF32 h (fld w 16 4) (fld w 15 1 == 1) (fld w 10 5) (fld w 6 4) (fld w 0 6)) := rfl
theorem arm_vyield (h : Hdr) (w lit : Nat) : decodeLane h w lit 0x57 = need (fld w 0 20 == 0) .nonzeroField (.ok (.vyield h)) := rfl
theorem arm_vbr (h : Hdr) (w lit : Nat) : decodeLane h w lit 0x58 = .ok (.vbr h (BitVec.ofNat 20 (fld w 0 20))) := rfl
theorem arm_vjtab (h : Hdr) (w lit : Nat) : decodeLane h w lit 0x59 = need (fld w 14 6 == 0) .nonzeroField (need (fld w 0 2 == 0) .nonzeroField (.ok (.vjtab h (fld w 8 6) (fld w 2 6)))) := rfl
theorem arm_vcall (h : Hdr) (w lit : Nat) : decodeLane h w lit 0x5A = .ok (.vcall h (BitVec.ofNat 20 (fld w 0 20))) := rfl
theorem arm_vcallx (h : Hdr) (w lit : Nat) : decodeLane h w lit 0x5B = need (fld w 14 6 == 0) .nonzeroField (need (fld w 2 6 == 0) .nonzeroField (need (fld w 0 2 == 0) .nonzeroField (.ok (.vcallx h (fld w 8 6))))) := rfl
theorem arm_vret (h : Hdr) (w lit : Nat) : decodeLane h w lit 0x5C = need (fld w 0 20 == 0) .nonzeroField (.ok (.vret h)) := rfl
theorem arm_vsusp (h : Hdr) (w lit : Nat) : decodeLane h w lit 0x5D = need (decide (fld w 8 6 < 16)) .outOfRange (need (fld w 2 6 == 0) .nonzeroField (sub (SuspK.ofCode (fld w 0 2)) .reservedSub (fun k => .ok (.vsusp h (fld w 14 6) (fld w 8 6) k)))) := rfl
theorem arm_vspawn (h : Hdr) (w lit : Nat) : decodeLane h w lit 0x5E = need (decide (fld w 8 6 < 16)) .outOfRange (need (fld w 0 2 == 0) .nonzeroField (.ok (.vspawn h (fld w 14 6) (fld w 8 6) (fld w 2 6)))) := rfl
theorem arm_vexit (h : Hdr) (w lit : Nat) : decodeLane h w lit 0x5F = need (fld w 0 20 == 0) .nonzeroField (.ok (.vexit h)) := rfl
theorem arm_vrcp (h : Hdr) (w lit : Nat) : decodeLane h w lit 0x60 = need (fld w 2 6 == 0) .nonzeroField (need (fld w 0 2 == 0) .nonzeroField (.ok (.vrcp h (fld w 14 6) (fld w 8 6)))) := rfl
theorem arm_vrsq (h : Hdr) (w lit : Nat) : decodeLane h w lit 0x61 = need (fld w 2 6 == 0) .nonzeroField (need (fld w 0 2 == 0) .nonzeroField (.ok (.vrsq h (fld w 14 6) (fld w 8 6)))) := rfl
theorem arm_vsqrt (h : Hdr) (w lit : Nat) : decodeLane h w lit 0x62 = need (fld w 2 6 == 0) .nonzeroField (need (fld w 0 2 == 0) .nonzeroField (.ok (.vsqrt h (fld w 14 6) (fld w 8 6)))) := rfl
theorem arm_vexp2 (h : Hdr) (w lit : Nat) : decodeLane h w lit 0x63 = need (fld w 2 6 == 0) .nonzeroField (need (fld w 0 2 == 0) .nonzeroField (.ok (.vexp2 h (fld w 14 6) (fld w 8 6)))) := rfl
theorem arm_vlog2 (h : Hdr) (w lit : Nat) : decodeLane h w lit 0x64 = need (fld w 2 6 == 0) .nonzeroField (need (fld w 0 2 == 0) .nonzeroField (.ok (.vlog2 h (fld w 14 6) (fld w 8 6)))) := rfl
theorem arm_vtanh (h : Hdr) (w lit : Nat) : decodeLane h w lit 0x65 = need (fld w 2 6 == 0) .nonzeroField (need (fld w 0 2 == 0) .nonzeroField (.ok (.vtanh h (fld w 14 6) (fld w 8 6)))) := rfl
theorem arm_vdiv (h : Hdr) (w lit : Nat) : decodeLane h w lit 0x66 = need (fld w 0 2 == 0) .nonzeroField (.ok (.vdiv h (fld w 14 6) (fld w 8 6) (fld w 2 6))) := rfl
theorem arm_sadd (h : Hdr) (w lit : Nat) : decodeUni h w lit 0x00 = sub (SAddK.ofCode (fld w 0 2)) .reservedSub (fun k => .ok (.sadd h (fld w 14 6) (fld w 8 6) (fld w 2 6) k)) := rfl
theorem arm_ssub (h : Hdr) (w lit : Nat) : decodeUni h w lit 0x01 = sub (SAddK.ofCode (fld w 0 2)) .reservedSub (fun k => .ok (.ssub h (fld w 14 6) (fld w 8 6) (fld w 2 6) k)) := rfl
theorem arm_smul (h : Hdr) (w lit : Nat) : decodeUni h w lit 0x02 = sub (SMulK.ofCode (fld w 0 2)) .reservedSub (fun k => .ok (.smul h (fld w 14 6) (fld w 8 6) (fld w 2 6) k)) := rfl
theorem arm_sand (h : Hdr) (w lit : Nat) : decodeUni h w lit 0x03 = need (fld w 0 2 == 0) .nonzeroField (.ok (.sand h (fld w 14 6) (fld w 8 6) (fld w 2 6))) := rfl
theorem arm_sor (h : Hdr) (w lit : Nat) : decodeUni h w lit 0x04 = need (fld w 0 2 == 0) .nonzeroField (.ok (.sor h (fld w 14 6) (fld w 8 6) (fld w 2 6))) := rfl
theorem arm_sxor (h : Hdr) (w lit : Nat) : decodeUni h w lit 0x05 = need (fld w 0 2 == 0) .nonzeroField (.ok (.sxor h (fld w 14 6) (fld w 8 6) (fld w 2 6))) := rfl
theorem arm_sshl (h : Hdr) (w lit : Nat) : decodeUni h w lit 0x06 = need (fld w 0 2 == 0) .nonzeroField (.ok (.sshl h (fld w 14 6) (fld w 8 6) (fld w 2 6))) := rfl
theorem arm_sshr (h : Hdr) (w lit : Nat) : decodeUni h w lit 0x07 = sub (ShrK.ofCode (fld w 0 2)) .reservedSub (fun k => .ok (.sshr h (fld w 14 6) (fld w 8 6) (fld w 2 6) k)) := rfl
theorem arm_smin (h : Hdr) (w lit : Nat) : decodeUni h w lit 0x08 = sub (SgnK.ofCode (fld w 0 2)) .reservedSub (fun k => .ok (.smin h (fld w 14 6) (fld w 8 6) (fld w 2 6) k)) := rfl
theorem arm_smax (h : Hdr) (w lit : Nat) : decodeUni h w lit 0x09 = sub (SgnK.ofCode (fld w 0 2)) .reservedSub (fun k => .ok (.smax h (fld w 14 6) (fld w 8 6) (fld w 2 6) k)) := rfl
theorem arm_saddi (h : Hdr) (w lit : Nat) : decodeUni h w lit 0x0A = .ok (.saddi h (fld w 14 6) (fld w 8 6) (BitVec.ofNat 8 (fld w 0 8))) := rfl
theorem arm_smovi (h : Hdr) (w lit : Nat) : decodeUni h w lit 0x0B = .ok (.smovi h (fld w 14 6) (BitVec.ofNat 14 (fld w 0 14))) := rfl
theorem arm_smovl (h : Hdr) (w lit : Nat) : decodeUni h w lit 0x0C = need (fld w 0 14 == 0) .nonzeroField (.ok (.smovl h (fld w 14 6) (BitVec.ofNat 32 lit))) := rfl
theorem arm_smov (h : Hdr) (w lit : Nat) : decodeUniFam0D h w 0 = need (fld w 0 2 == 0) .nonzeroField (.ok (.smov h (fld w 14 6) (fld w 8 6))) := rfl
theorem arm_snot (h : Hdr) (w lit : Nat) : decodeUniFam0D h w 1 = need (fld w 0 2 == 0) .nonzeroField (.ok (.snot h (fld w 14 6) (fld w 8 6))) := rfl
theorem arm_spopc (h : Hdr) (w lit : Nat) : decodeUniFam0D h w 2 = need (fld w 0 2 == 0) .nonzeroField (.ok (.spopc h (fld w 14 6) (fld w 8 6))) := rfl
theorem arm_sclz (h : Hdr) (w lit : Nat) : decodeUniFam0D h w 3 = need (fld w 0 2 == 0) .nonzeroField (.ok (.sclz h (fld w 14 6) (fld w 8 6))) := rfl
theorem arm_sreadl (h : Hdr) (w lit : Nat) : decodeUni h w lit 0x0E = need (fld w 0 2 == 0) .nonzeroField (.ok (.sreadl h (fld w 14 6) (fld w 8 6) (fld w 2 6))) := rfl
theorem arm_slui (h : Hdr) (w lit : Nat) : decodeUni h w lit 0x0F = .ok (.slui h (fld w 14 6) (BitVec.ofNat 14 (fld w 0 14))) := rfl
theorem arm_xset (h : Hdr) (w lit : Nat) : decodeUni h w lit 0x10 = need (decide (fld w 14 6 < 16)) .outOfRange (need (fld w 0 2 == 0) .nonzeroField (.ok (.xset h (fld w 14 6) (fld w 8 6) (fld w 2 6)))) := rfl
theorem arm_xaddb (h : Hdr) (w lit : Nat) : decodeUni h w lit 0x11 = need (decide (fld w 14 6 < 16)) .outOfRange (need (fld w 8 6 == 0) .nonzeroField (need (fld w 0 2 == 0) .nonzeroField (.ok (.xaddb h (fld w 14 6) (fld w 2 6))))) := rfl
theorem arm_xaddbi (h : Hdr) (w lit : Nat) : decodeUni h w lit 0x12 = need (decide (fld w 14 6 < 16)) .outOfRange (need (fld w 8 6 == 0) .nonzeroField (.ok (.xaddbi h (fld w 14 6) (BitVec.ofNat 8 (fld w 0 8))))) := rfl
theorem arm_xstr (h : Hdr) (w lit : Nat) : decodeUni h w lit 0x13 = need (decide (fld w 14 6 < 16)) .outOfRange (need (fld w 8 6 == 0) .nonzeroField (need (fld w 0 2 == 0) .nonzeroField (.ok (.xstr h (fld w 14 6) (fld w 2 6))))) := rfl
theorem arm_xget (h : Hdr) (w lit : Nat) : decodeUni h w lit 0x14 = need (decide (fld w 8 6 < 16)) .outOfRange (need (fld w 2 6 == 0) .nonzeroField (sub (XgetK.ofCode (fld w 0 2)) .reservedSub (fun k => .ok (.xget h (fld w 14 6) (fld w 8 6) k)))) := rfl
theorem arm_xadd (h : Hdr) (w lit : Nat) : decodeUni h w lit 0x15 = need (decide (fld w 14 6 < 16)) .outOfRange (need (decide (fld w 8 6 < 16)) .outOfRange (need (decide (fld w 2 6 < 16)) .outOfRange (need (fld w 0 2 == 0) .nonzeroField (.ok (.xadd h (fld w 14 6) (fld w 8 6) (fld w 2 6)))))) := rfl
theorem arm_xmuls (h : Hdr) (w lit : Nat) : decodeUni h w lit 0x16 = need (decide (fld w 14 6 < 16)) .outOfRange (need (fld w 8 6 == 0) .nonzeroField (.ok (.xmuls h (fld w 14 6) (BitVec.ofNat 8 (fld w 0 8))))) := rfl
theorem arm_scmpeq (h : Hdr) (w lit : Nat) : decodeUni h w lit 0x18 = need (decide (fld w 14 6 < 16)) .outOfRange (sub (SCmpK.ofCode (fld w 0 2)) .reservedSub (fun k => .ok (.scmpeq h (fld w 14 6) (fld w 8 6) (fld w 2 6) k))) := rfl
theorem arm_scmpne (h : Hdr) (w lit : Nat) : decodeUni h w lit 0x19 = need (decide (fld w 14 6 < 16)) .outOfRange (sub (SCmpK.ofCode (fld w 0 2)) .reservedSub (fun k => .ok (.scmpne h (fld w 14 6) (fld w 8 6) (fld w 2 6) k))) := rfl
theorem arm_scmplt (h : Hdr) (w lit : Nat) : decodeUni h w lit 0x1A = need (decide (fld w 14 6 < 16)) .outOfRange (sub (SCmpK.ofCode (fld w 0 2)) .reservedSub (fun k => .ok (.scmplt h (fld w 14 6) (fld w 8 6) (fld w 2 6) k))) := rfl
theorem arm_scmple (h : Hdr) (w lit : Nat) : decodeUni h w lit 0x1B = need (decide (fld w 14 6 < 16)) .outOfRange (sub (SCmpK.ofCode (fld w 0 2)) .reservedSub (fun k => .ok (.scmple h (fld w 14 6) (fld w 8 6) (fld w 2 6) k))) := rfl
theorem arm_qlog (h : Hdr) (w lit : Nat) : decodeUni h w lit 0x1C = need (decide (fld w 14 6 < 16)) .outOfRange (need (decide (fld w 8 6 < 16)) .outOfRange (need (decide (fld w 2 6 < 16)) .outOfRange (sub (LogK.ofCode (fld w 0 2)) .reservedSub (fun k => .ok (.qlog h (fld w 14 6) (fld w 8 6) (fld w 2 6) k))))) := rfl
theorem arm_qany (h : Hdr) (w lit : Nat) : decodeUni h w lit 0x1D = need (decide (fld w 14 6 < 16)) .outOfRange (need (fld w 2 6 == 0) .nonzeroField (sub (AnyK.ofCode (fld w 0 2)) .reservedSub (fun k => .ok (.qany h (fld w 14 6) (fld w 8 6) k)))) := rfl
theorem arm_qmov (h : Hdr) (w lit : Nat) : decodeUni h w lit 0x1E = need (decide (fld w 14 6 < 16)) .outOfRange (need (decide (fld w 8 6 < 16)) .outOfRange (need (fld w 2 6 == 0) .nonzeroField (sub (MovK.ofCode (fld w 0 2)) .reservedSub (fun k => need ((k.code < 2 || fld w 8 6 == 0)) .nonzeroField (.ok (.qmov h (fld w 14 6) (fld w 8 6) k)))))) := rfl
theorem arm_bra (h : Hdr) (w lit : Nat) : decodeUni h w lit 0x20 = .ok (.bra h (BitVec.ofNat 20 (fld w 0 20))) := rfl
theorem arm_brx (h : Hdr) (w lit : Nat) : decodeUni h w lit 0x21 = need (fld w 14 6 == 0) .nonzeroField (need (fld w 2 6 == 0) .nonzeroField (need (fld w 0 2 == 0) .nonzeroField (.ok (.brx h (fld w 8 6))))) := rfl
theorem arm_barg (h : Hdr) (w lit : Nat) : decodeUni h w lit 0x22 = need (fld w 0 20 == 0) .nonzeroField (.ok (.barg h)) := rfl
theorem arm_bar (h : Hdr) (w lit : Nat) : decodeUni h w lit 0x23 = need (fld w 14 6 == 0) .nonzeroField (need (fld w 8 6 == 0) .nonzeroField (need (fld w 5 3 == 0) .nonzeroField (.ok (.bar h (fld w 4 1 == 1) (fld w 0 4))))) := rfl
theorem arm_fence (h : Hdr) (w lit : Nat) : decodeUni h w lit 0x24 = need (fld w 14 6 == 0) .nonzeroField (need (fld w 8 6 == 0) .nonzeroField (sub (PathMask.ofCode (fld w 5 3)) .reservedSub (fun p => sub (FenceK.ofCode (fld w 3 2)) .reservedSub (fun k => sub (Scope.ofCode (fld w 0 3)) .reservedSub (fun sc => .ok (.fence h p k sc)))))) := rfl
theorem arm_nop (h : Hdr) (w lit : Nat) : decodeUni h w lit 0x25 = need (fld w 0 20 == 0) .nonzeroField (.ok (.nop h)) := rfl
theorem arm_end_ (h : Hdr) (w lit : Nat) : decodeUni h w lit 0x26 = need (fld w 0 20 == 0) .nonzeroField (.ok (.end_ h)) := rfl
theorem arm_waitt (h : Hdr) (w lit : Nat) : decodeUni h w lit 0x27 = need (fld w 14 6 == 0) .nonzeroField (need (fld w 2 6 == 0) .nonzeroField (need (fld w 0 2 == 0) .nonzeroField (.ok (.waitt h (fld w 8 6))))) := rfl
theorem arm_launch (h : Hdr) (w lit : Nat) : decodeUni h w lit 0x28 = need (fld w 2 6 == 0) .nonzeroField (need (fld w 0 2 == 0) .nonzeroField (.ok (.launch h (fld w 14 6) (fld w 8 6)))) := rfl
theorem arm_fork (h : Hdr) (w lit : Nat) : decodeUni h w lit 0x30 = need (fld w 14 6 == 0) .nonzeroField (sub (ForkK.ofCode (fld w 0 2)) .reservedSub (fun k => .ok (.fork h (fld w 8 6) (fld w 2 6) k))) := rfl
theorem arm_rdv (h : Hdr) (w lit : Nat) : decodeUni h w lit 0x31 = need (fld w 14 6 == 0) .nonzeroField (need (fld w 8 6 == 0) .nonzeroField (need (fld w 3 5 == 0) .nonzeroField (.ok (.rdv h (fld w 0 3))))) := rfl
theorem arm_cpy (h : Hdr) (w lit : Nat) : decodeUni h w lit 0x32 = need (fld w 2 6 == 0) .nonzeroField (need (fld w 0 2 == 0) .nonzeroField (.ok (.cpy h (fld w 14 6) (fld w 8 6)))) := rfl
theorem arm_cpyw (h : Hdr) (w lit : Nat) : decodeUni h w lit 0x33 = need (fld w 2 6 == 0) .nonzeroField (need (fld w 0 2 == 0) .nonzeroField (.ok (.cpyw h (fld w 14 6) (fld w 8 6)))) := rfl
theorem arm_rbind (h : Hdr) (w lit : Nat) : decodeUni h w lit 0x34 = need (decide (fld w 14 6 < 8)) .outOfRange (need (fld w 2 6 == 0) .nonzeroField (need (fld w 0 2 == 0) .nonzeroField (.ok (.rbind h (fld w 14 6) (fld w 8 6))))) := rfl
theorem arm_rpub (h : Hdr) (w lit : Nat) : decodeUni h w lit 0x35 = need (decide (fld w 14 6 < 8)) .outOfRange (need (fld w 8 6 == 0) .nonzeroField (need (decide (0 < fld w 0 8)) .reservedSub (.ok (.rpub h (fld w 14 6) (fld w 0 8))))) := rfl
theorem arm_rwaitf (h : Hdr) (w lit : Nat) : decodeUni h w lit 0x36 = need (decide (fld w 14 6 < 8)) .outOfRange (need (fld w 8 6 == 0) .nonzeroField (need (decide (0 < fld w 0 8)) .reservedSub (.ok (.rwaitf h (fld w 14 6) (fld w 0 8))))) := rfl
theorem arm_steep (h : Hdr) (w lit : Nat) : decodeUni h w lit 0x37 = need (fld w 0 2 == 0) .nonzeroField (.ok (.steep h (fld w 14 6) (fld w 8 6) (fld w 2 6))) := rfl
theorem arm_meas (h : Hdr) (w lit : Nat) : decodeUni h w lit 0x38 = need (fld w 0 2 == 0) .nonzeroField (.ok (.meas h (fld w 14 6) (fld w 8 6) (fld w 2 6))) := rfl
theorem arm_trap (h : Hdr) (w lit : Nat) : decodeUni h w lit 0x40 = need (fld w 14 6 == 0) .nonzeroField (.ok (.trap h (BitVec.ofNat 14 (fld w 0 14)))) := rfl
theorem arm_cbegin (h : Hdr) (w lit : Nat) : decodeUni h w lit 0x41 = .ok (.cbegin h (BitVec.ofNat 20 (fld w 0 20))) := rfl
theorem arm_cend (h : Hdr) (w lit : Nat) : decodeUni h w lit 0x42 = need (fld w 0 20 == 0) .nonzeroField (.ok (.cend h)) := rfl
theorem arm_tlbw (h : Hdr) (w lit : Nat) : decodeUni h w lit 0x43 = need (fld w 2 6 == 0) .nonzeroField (need (fld w 0 2 == 0) .nonzeroField (.ok (.tlbw h (fld w 14 6) (fld w 8 6)))) := rfl
theorem arm_tlbi (h : Hdr) (w lit : Nat) : decodeUni h w lit 0x44 = need (fld w 14 6 == 0) .nonzeroField (need (fld w 2 6 == 0) .nonzeroField (sub (TlbiK.ofCode (fld w 0 2)) .reservedSub (fun k => need ((k != .all || fld w 8 6 == 0)) .nonzeroField (.ok (.tlbi h (fld w 8 6) k))))) := rfl
theorem arm_pgreq (h : Hdr) (w lit : Nat) : decodeUni h w lit 0x45 = need (fld w 2 6 == 0) .nonzeroField (need (fld w 0 2 == 0) .nonzeroField (.ok (.pgreq h (fld w 14 6) (fld w 8 6)))) := rfl
theorem arm_framea (h : Hdr) (w lit : Nat) : decodeUni h w lit 0x46 = need (fld w 8 6 == 0) .nonzeroField (need (fld w 2 6 == 0) .nonzeroField (need (fld w 0 2 == 0) .nonzeroField (.ok (.framea h (fld w 14 6))))) := rfl
theorem arm_framef (h : Hdr) (w lit : Nat) : decodeUni h w lit 0x47 = need (fld w 2 6 == 0) .nonzeroField (need (fld w 0 2 == 0) .nonzeroField (.ok (.framef h (fld w 14 6) (fld w 8 6)))) := rfl
theorem arm_migr (h : Hdr) (w lit : Nat) : decodeUni h w lit 0x48 = need (fld w 0 2 == 0) .nonzeroField (.ok (.migr h (fld w 14 6) (fld w 8 6) (fld w 2 6))) := rfl
theorem arm_csrr (h : Hdr) (w lit : Nat) : decodeUni h w lit 0x49 = need (fld w 12 2 == 0) .nonzeroField (need (csrKnown (BitVec.ofNat 12 (fld w 0 12))) .badCsr (.ok (.csrr h (fld w 14 6) (BitVec.ofNat 12 (fld w 0 12))))) := rfl
theorem arm_csrw (h : Hdr) (w lit : Nat) : decodeUni h w lit 0x4A = need (fld w 12 2 == 0) .nonzeroField (need (csrWritable (BitVec.ofNat 12 (fld w 0 12))) .badCsr (.ok (.csrw h (fld w 14 6) (BitVec.ofNat 12 (fld w 0 12))))) := rfl
theorem arm_hret (h : Hdr) (w lit : Nat) : decodeUni h w lit 0x4B = need (fld w 14 6 == 0) .nonzeroField (need (fld w 2 6 == 0) .nonzeroField (sub (HretK.ofCode (fld w 0 2)) .reservedSub (fun k => need ((k != .saved || fld w 8 6 == 0)) .nonzeroField (.ok (.hret h (fld w 8 6) k))))) := rfl
theorem arm_halto (h : Hdr) (w lit : Nat) : decodeUni h w lit 0x4C = need (fld w 14 6 == 0) .nonzeroField (need (fld w 2 6 == 0) .nonzeroField (need (fld w 0 2 == 0) .nonzeroField (.ok (.halto h (fld w 8 6))))) := rfl
theorem arm_discard (h : Hdr) (w lit : Nat) : decodeUni h w lit 0x4D = need (fld w 0 2 == 0) .nonzeroField (.ok (.discard h (fld w 14 6) (fld w 8 6) (fld w 2 6))) := rfl
theorem arm_bincfg (h : Hdr) (w lit : Nat) : decodeUni h w lit 0x50 = need (decide (fld w 14 6 < 16)) .outOfRange (need (decide (fld w 8 6 < 16)) .outOfRange (need (fld w 0 2 == 0) .nonzeroField (.ok (.bincfg h (fld w 14 6) (fld w 8 6) (fld w 2 6))))) := rfl
theorem arm_binwake (h : Hdr) (w lit : Nat) : decodeUni h w lit 0x51 = need (decide (fld w 14 6 < 16)) .outOfRange (need (fld w 2 6 == 0) .nonzeroField (need (fld w 0 2 == 0) .nonzeroField (.ok (.binwake h (fld w 14 6) (fld w 8 6))))) := rfl
theorem arm_binflush (h : Hdr) (w lit : Nat) : decodeUni h w lit 0x52 = need (decide (fld w 14 6 < 16)) .outOfRange (need (fld w 8 6 == 0) .nonzeroField (need (fld w 2 6 == 0) .nonzeroField (need (fld w 0 2 == 0) .nonzeroField (.ok (.binflush h (fld w 14 6)))))) := rfl
theorem arm_binq (h : Hdr) (w lit : Nat) : decodeUni h w lit 0x53 = need (decide (fld w 8 6 < 16)) .outOfRange (need (fld w 2 6 == 0) .nonzeroField (sub (BinqK.ofCode (fld w 0 2)) .reservedSub (fun k => .ok (.binq h (fld w 14 6) (fld w 8 6) k)))) := rfl
theorem arm_frameld (h : Hdr) (w lit : Nat) : decodeUni h w lit 0x54 = need (fld w 0 20 == 0) .nonzeroField (need (h.g == 7) .guarded (.ok (.frameld h))) := rfl
theorem arm_tbind (h : Hdr) (w lit : Nat) : decodeUni h w lit 0x60 = need (decide (fld w 14 6 < 16)) .outOfRange (need (fld w 2 6 == 0) .nonzeroField (need (fld w 0 2 == 0) .nonzeroField (.ok (.tbind h (fld w 14 6) (fld w 8 6))))) := rfl
theorem arm_tzero (h : Hdr) (w lit : Nat) : decodeUni h w lit 0x61 = need (decide (fld w 14 6 < 16)) .outOfRange (need (fld w 8 6 == 0) .nonzeroField (need (fld w 2 6 == 0) .nonzeroField (need (fld w 0 2 == 0) .nonzeroField (.ok (.tzero h (fld w 14 6)))))) := rfl
theorem arm_tcolop (h : Hdr) (w lit : Nat) : decodeUni h w lit 0x62 = need (decide (fld w 14 6 < 16)) .outOfRange (sub (ColOpK.ofCode (fld w 0 2)) .reservedSub (fun k => .ok (.tcolop h (fld w 14 6) (fld w 8 6) (fld w 2 6) k))) := rfl
theorem arm_tload (h : Hdr) (w lit : Nat) : decodeUni h w lit 0x63 = need (decide (fld w 14 6 < 16)) .outOfRange (need (fld w 2 6 == 0) .nonzeroField (need (fld w 0 2 == 0) .nonzeroField (.ok (.tload h (fld w 14 6) (fld w 8 6))))) := rfl
theorem arm_tstore (h : Hdr) (w lit : Nat) : decodeUni h w lit 0x64 = need (decide (fld w 14 6 < 16)) .outOfRange (need (fld w 2 6 == 0) .nonzeroField (need (fld w 0 2 == 0) .nonzeroField (.ok (.tstore h (fld w 14 6) (fld w 8 6))))) := rfl
theorem arm_tacc (h : Hdr) (w lit : Nat) : decodeUni h w lit 0x65 = need (decide (fld w 14 6 < 16)) .outOfRange (need (decide (fld w 8 6 < 16)) .outOfRange (need (fld w 2 6 == 0) .nonzeroField (need (fld w 0 2 == 0) .nonzeroField (.ok (.tacc h (fld w 14 6) (fld w 8 6)))))) := rfl

end Sys2Proof
end

