-- ==== Sys2Proof/Laws/Word.lean ====
section
/-! SUPPORT. The laws of sparse maps and lane masks: read after write, and the canonical form. -/

set_option linter.unusedVariables false

namespace Sys2Proof

/-! ## Sparse maps: read after write -/

@[simp] theorem SMap.get_nil {w : Nat} (j : Nat) : SMap.get ([] : SMap w) j = 0 := rfl

theorem SMap.get_erase {w : Nat} (m : SMap w) (k j : Nat) :
    (SMap.erase m k).get j = if j = k then 0 else m.get j := by
  induction m with
  | nil => simp [SMap.erase]
  | cons a m ih =>
    obtain ⟨i, u⟩ := a
    by_cases h1 : i = k
    · subst h1
      by_cases h2 : j = i
      · subst h2; simp [SMap.erase, ih]
      · simp [SMap.erase, ih, h2, SMap.get, Ne.symm h2]
    · by_cases h2 : i = j
      · subst h2; simp [SMap.erase, h1, SMap.get]
      · simp [SMap.erase, h1, SMap.get, h2, ih]

theorem SMap.key_of_mem_erase {w : Nat} (m : SMap w) (k : Nat) (p : Nat × BitVec w) (h : p ∈ SMap.erase m k) :
    p.1 ≠ k ∧ p ∈ m := by
  induction m with
  | nil => simp [SMap.erase] at h
  | cons a m ih =>
    obtain ⟨i, u⟩ := a
    by_cases h1 : i = k
    · simp only [SMap.erase, h1, if_true] at h
      exact ⟨(ih h).1, List.mem_cons_of_mem _ (ih h).2⟩
    · simp only [SMap.erase, h1, if_false, List.mem_cons] at h
      rcases h with rfl | h
      · exact ⟨h1, List.mem_cons_self⟩
      · exact ⟨(ih h).1, List.mem_cons_of_mem _ (ih h).2⟩

theorem SMap.get_ins {w : Nat} (m : SMap w) (k : Nat) (v : BitVec w) (j : Nat) (h : ∀ p ∈ m, p.1 ≠ k) :
    (SMap.ins m k v).get j = if j = k then v else m.get j := by
  induction m with
  | nil =>
    by_cases h2 : k = j
    · simp [SMap.ins, SMap.get, h2]
    · simp [SMap.ins, SMap.get, h2, Ne.symm h2]
  | cons a m ih =>
    obtain ⟨i, u⟩ := a
    have hi : i ≠ k := h (i, u) List.mem_cons_self
    by_cases h1 : k < i
    · by_cases h2 : k = j
      · subst h2; simp [SMap.ins, h1, SMap.get]
      · simp [SMap.ins, h1, SMap.get, h2, Ne.symm h2]
    · have ih' := ih (fun p hp => h p (List.mem_cons_of_mem _ hp))
      by_cases h2 : i = j
      · subst h2; simp [SMap.ins, h1, SMap.get, hi]
      · simp [SMap.ins, h1, SMap.get, h2, ih']

/-- Reading a sparse map after a write. -/
theorem SMap.get_set {w : Nat} (m : SMap w) (k : Nat) (v : BitVec w) (j : Nat) :
    (m.set k v).get j = if j = k then v else m.get j := by
  unfold SMap.set
  by_cases h : v = 0
  · rw [if_pos h, SMap.get_erase]; simp [h]
  · rw [if_neg h, SMap.get_ins _ _ _ _ (fun p hp => (SMap.key_of_mem_erase m k p hp).1), SMap.get_erase]
    by_cases h2 : j = k <;> simp [h2]

@[simp] theorem SMap.get_set_self {w : Nat} (m : SMap w) (k : Nat) (v : BitVec w) : (m.set k v).get k = v := by
  simp [SMap.get_set]

theorem SMap.get_set_ne {w : Nat} (m : SMap w) (k : Nat) (v : BitVec w) (j : Nat) (h : j ≠ k) :
    (m.set k v).get j = m.get j := by
  simp [SMap.get_set, h]

/-- Reading a sparse map after a write of many keys. -/
theorem SMap.get_setMany {w : Nat} (m : SMap w) (base : Nat) (p : Nat → Bool) (f : Nat → BitVec w) (n j : Nat) :
    (m.setMany base p f n).get j =
      if base ≤ j ∧ j < base + n ∧ p (j - base) = true then f (j - base) else m.get j := by
  induction n with
  | zero => simp [SMap.setMany]; omega
  | succ n ih =>
    by_cases hp : p n = true
    · simp only [SMap.setMany, hp, if_true, SMap.get_set, ih]
      by_cases hj : j = base + n
      · subst hj; simp [hp]
      · have : (base ≤ j ∧ j < base + n ∧ p (j - base) = true) ↔
            (base ≤ j ∧ j < base + (n + 1) ∧ p (j - base) = true) := by
          constructor <;> (rintro ⟨a, b, c⟩; exact ⟨a, by omega, c⟩)
        simp only [hj, if_false, this]
    · have : (base ≤ j ∧ j < base + n ∧ p (j - base) = true) ↔
          (base ≤ j ∧ j < base + (n + 1) ∧ p (j - base) = true) := by
        constructor
        · rintro ⟨a, b, c⟩; exact ⟨a, by omega, c⟩
        · rintro ⟨a, b, c⟩
          refine ⟨a, ?_, c⟩
          rcases Nat.lt_or_ge j (base + n) with h | h
          · exact h
          · exact absurd (by rwa [show j - base = n by omega] at c) hp
      simp only [SMap.setMany, hp, Bool.false_eq_true, if_false]
      rw [ih]; simp only [this]

/-! ## Sparse maps: the canonical form -/

theorem SMap.wfFrom_mono {w : Nat} (m : SMap w) (a b : Nat) (h : a ≤ b) (hm : SMap.wfFrom (some b) m = true) :
    SMap.wfFrom (some a) m = true := by
  cases m with
  | nil => rfl
  | cons p m =>
    obtain ⟨i, u⟩ := p
    simp only [SMap.wfFrom, Bool.and_eq_true, decide_eq_true_eq] at hm ⊢
    exact ⟨⟨by omega, hm.1.2⟩, hm.2⟩

theorem SMap.wfFrom_none {w : Nat} (m : SMap w) (a : Nat) (hm : SMap.wfFrom (some a) m = true) :
    SMap.wfFrom none m = true := by
  cases m with
  | nil => rfl
  | cons p m =>
    obtain ⟨i, u⟩ := p
    simp only [SMap.wfFrom, Bool.and_eq_true, decide_eq_true_eq] at hm ⊢
    exact ⟨⟨trivial, hm.1.2⟩, hm.2⟩

theorem SMap.wfFrom_erase {w : Nat} (m : SMap w) (k : Nat) (lo : Option Nat) (hm : SMap.wfFrom lo m = true) :
    SMap.wfFrom lo (SMap.erase m k) = true := by
  induction m generalizing lo with
  | nil => exact hm
  | cons p m ih =>
    obtain ⟨i, u⟩ := p
    simp only [SMap.wfFrom, Bool.and_eq_true] at hm
    by_cases h : i = k
    · simp only [SMap.erase, h, if_true]
      have h2 := ih (some i) hm.2
      cases lo with
      | none => exact SMap.wfFrom_none _ _ h2
      | some l =>
        have hl : l < i := by simpa using hm.1.1
        exact SMap.wfFrom_mono _ _ _ (Nat.le_of_lt hl) h2
    · simp only [SMap.erase, h, if_false, SMap.wfFrom, Bool.and_eq_true]
      exact ⟨hm.1, ih (some i) hm.2⟩

theorem SMap.wfFrom_ins {w : Nat} (m : SMap w) (k : Nat) (v : BitVec w) (lo : Option Nat) (hv : v ≠ 0)
    (hk : ∀ p ∈ m, p.1 ≠ k) (hlo : ∀ l, lo = some l → l < k) (hm : SMap.wfFrom lo m = true) :
    SMap.wfFrom lo (SMap.ins m k v) = true := by
  have hb : ∀ lo : Option Nat, (∀ l, lo = some l → l < k) →
      (match lo with | none => true | some l => decide (l < k)) = true := by
    intro lo h
    cases lo with
    | none => rfl
    | some l => simpa using h l rfl
  have hv' : (v != 0) = true := by simpa using hv
  induction m generalizing lo with
  | nil => simp only [SMap.ins, SMap.wfFrom, Bool.and_eq_true]; exact ⟨⟨hb lo hlo, hv'⟩, trivial⟩
  | cons p m ih =>
    obtain ⟨i, u⟩ := p
    simp only [SMap.wfFrom, Bool.and_eq_true] at hm
    by_cases h : k < i
    · simp only [SMap.ins, h, if_true, SMap.wfFrom, Bool.and_eq_true, decide_eq_true_eq]
      exact ⟨⟨hb lo hlo, hv'⟩, ⟨trivial, hm.1.2⟩, hm.2⟩
    · have hi : i ≠ k := hk (i, u) List.mem_cons_self
      simp only [SMap.ins, h, if_false, SMap.wfFrom, Bool.and_eq_true]
      refine ⟨hm.1, ih (some i) (fun q hq => hk q (List.mem_cons_of_mem _ hq)) ?_ hm.2⟩
      intro l hl; cases hl; omega

/-- A write keeps the canonical form. -/
theorem SMap.wf_set {w : Nat} (m : SMap w) (k : Nat) (v : BitVec w) (h : m.wf = true) : (m.set k v).wf = true := by
  unfold SMap.set
  by_cases hv : v = 0
  · rw [if_pos hv]; exact SMap.wfFrom_erase m k none h
  · rw [if_neg hv]
    exact SMap.wfFrom_ins _ k v none hv (fun p hp => (SMap.key_of_mem_erase m k p hp).1) (by intro l hl; cases hl)
      (SMap.wfFrom_erase m k none h)

theorem SMap.wf_setMany {w : Nat} (m : SMap w) (base : Nat) (p : Nat → Bool) (f : Nat → BitVec w) (n : Nat)
    (h : m.wf = true) : (m.setMany base p f n).wf = true := by
  induction n with
  | zero => exact h
  | succ n ih =>
    simp only [SMap.setMany]
    split
    · exact SMap.wf_set _ _ _ ih
    · exact ih

/-- Dropping keys keeps the canonical form. -/
theorem SMap.wfFrom_filter {w : Nat} (m : SMap w) (q : Nat × BitVec w → Bool) (lo : Option Nat)
    (h : SMap.wfFrom lo m = true) : SMap.wfFrom lo (m.filter q) = true := by
  induction m generalizing lo with
  | nil => exact h
  | cons p m ih =>
    obtain ⟨i, u⟩ := p
    simp only [SMap.wfFrom, Bool.and_eq_true] at h
    by_cases hq : q (i, u) = true
    · simp only [List.filter_cons, hq, if_true, SMap.wfFrom, Bool.and_eq_true]
      exact ⟨h.1, ih (some i) h.2⟩
    · simp only [List.filter_cons, hq]
      have h2 := ih (some i) h.2
      cases lo with
      | none => exact SMap.wfFrom_none _ _ h2
      | some l =>
        have hl : l < i := by simpa using h.1.1
        exact SMap.wfFrom_mono _ _ _ (Nat.le_of_lt hl) h2

theorem SMap.wf_filter {w : Nat} (m : SMap w) (q : Nat × BitVec w → Bool) (h : m.wf = true) :
    SMap.wf (m.filter q) = true := SMap.wfFrom_filter m q none h

/-! ## Lane masks -/

@[simp] theorem Mask.has_and (a b : Mask) (i : Nat) : Mask.has (a &&& b) i = (Mask.has a i && Mask.has b i) := by
  simp [Mask.has]

@[simp] theorem Mask.has_or (a b : Mask) (i : Nat) : Mask.has (a ||| b) i = (Mask.has a i || Mask.has b i) := by
  simp [Mask.has]

@[simp] theorem Mask.has_zero (i : Nat) : Mask.has 0 i = false := by simp [Mask.has]

theorem Mask.has_not (a : Mask) (i : Nat) (h : i < 64) : Mask.has (~~~a) i = !(Mask.has a i) := by
  simp [Mask.has, h]

theorem Mask.has_one (i j : Nat) (hi : i < 64) : Mask.has (Mask.one i) j = decide (i = j) := by
  have h : Mask.one i = BitVec.twoPow 64 i := by
    apply BitVec.eq_of_toNat_eq
    simp [Mask.one, BitVec.toNat_twoPow]
  rw [h, Mask.has, BitVec.getLsbD_twoPow]
  simp [hi]

theorem Mask.has_lt (m : Mask) (i : Nat) (h : Mask.has m i = true) : i < 64 := by
  rcases Nat.lt_or_ge i 64 with h1 | h1
  · exact h1
  · simp [Mask.has, BitVec.getLsbD_of_ge m i h1] at h

/-- Lane `i` of a mask made by a test. -/
theorem Mask.has_ofFn (p : Nat → Bool) (n i : Nat) (hn : n ≤ 64) :
    Mask.has (Mask.ofFn p n) i = (decide (i < n) && p i) := by
  induction n with
  | zero => simp [Mask.ofFn, Mask.has]
  | succ n ih =>
    have ih := ih (by omega)
    by_cases hp : p n = true
    · simp only [Mask.ofFn, hp, if_true, Mask.has_or, ih, Mask.has_one n i (by omega)]
      by_cases hi : i = n
      · subst hi; simp [hp]
      · have h1 : decide (n = i) = false := by simp; omega
        have h2 : decide (i < n + 1) = decide (i < n) := by simp; omega
        rw [h1, h2]; simp
    · simp only [Mask.ofFn, hp, Bool.false_eq_true, if_false]
      rw [ih]
      by_cases hi : i = n
      · subst hi; simp [hp]
      · have h2 : decide (i < n + 1) = decide (i < n) := by simp; omega
        rw [h2]

theorem Mask.mem_lanes (m : Mask) (i : Nat) : i ∈ Mask.lanes m ↔ Mask.has m i = true := by
  simp only [Mask.lanes, List.mem_filter, List.mem_range]
  exact ⟨fun h => h.2, fun h => ⟨Mask.has_lt m i h, h⟩⟩

/-! ## Bytes -/

@[simp] theorem leBytes_length (n x : Nat) : (leBytes n x).length = n := by
  induction n generalizing x with
  | zero => rfl
  | succ n ih => simp [leBytes, ih]

/-- Little-endian bytes read back (00 R3). -/
theorem leNat_leBytes (n x : Nat) (h : x < 256 ^ n) : leNat (leBytes n x) = x := by
  induction n generalizing x with
  | zero => simp [leBytes, leNat] at *; omega
  | succ n ih =>
    have h1 : x / 256 < 256 ^ n := by rw [Nat.pow_succ] at h; omega
    simp only [leBytes, leNat, ih _ h1, BitVec.toNat_ofNat]
    omega

end Sys2Proof
end

