-- ==== Sys2Proof/Laws/Memory.lean ====
section
/-! SUPPORT. The memory operations: read after write, and the canonical form that every one of them keeps. -/

set_option linter.unusedVariables false

namespace Sys2Proof.Machine

/-- Reading one byte after a write of bytes. -/
theorem Memory.get_write (m : Memory) (a : Nat) (bs : List (BitVec 8)) (j : Nat) :
    SMap.get (Memory.write m a bs) j = if a ≤ j ∧ j < a + bs.length then bs.getD (j - a) 0 else SMap.get m j := by
  induction bs generalizing m a with
  | nil =>
    have h : ¬ (a ≤ j ∧ j < a + 0) := by omega
    simp only [Memory.write, List.length_nil, h, if_false]
  | cons b bs ih =>
    simp only [Memory.write, ih, SMap.get_set, List.length_cons]
    by_cases h : j = a
    · subst h
      have h1 : ¬ (j + 1 ≤ j ∧ j < j + 1 + bs.length) := by omega
      rw [if_neg h1]
      simp
    · by_cases h2 : a + 1 ≤ j ∧ j < a + 1 + bs.length
      · have h3 : a ≤ j ∧ j < a + (bs.length + 1) := by omega
        have h4 : j - a = (j - (a + 1)) + 1 := by omega
        simp only [h2, h3, and_self, if_true, h4, List.getD_cons_succ]
      · have h3 : ¬ (a ≤ j ∧ j < a + (bs.length + 1)) := by omega
        simp only [h2, h3, h, if_false]

/-- A write of bytes leaves every byte outside them alone. -/
theorem Memory.get_write_outside (m : Memory) (a : Nat) (bs : List (BitVec 8)) (j : Nat)
    (h : j < a ∨ a + bs.length ≤ j) : SMap.get (Memory.write m a bs) j = SMap.get m j := by
  rw [Memory.get_write, if_neg (by omega)]

@[simp] theorem Memory.bytes_length (m : Memory) (a n : Nat) : (Memory.bytes m a n).length = n := by
  induction n generalizing a with
  | zero => rfl
  | succ n ih => simp [Memory.bytes, ih]

/-- Bytes that are written read back. -/
theorem Memory.bytes_write (m : Memory) (a : Nat) (bs : List (BitVec 8)) :
    Memory.bytes (Memory.write m a bs) a bs.length = bs := by
  induction bs generalizing m a with
  | nil => rfl
  | cons b bs ih =>
    simp only [Memory.write, List.length_cons, Memory.bytes, ih]
    rw [Memory.get_write, if_neg (by omega), SMap.get_set_self]

theorem Memory.wf_write (m : Memory) (a : Nat) (bs : List (BitVec 8)) (h : Memory.wf m = true) :
    Memory.wf (Memory.write m a bs) = true := by
  induction bs generalizing m a with
  | nil => exact h
  | cons b bs ih => exact ih _ _ (SMap.wf_set _ _ _ h)

/-- One access writes its bytes, or none when the frame is lost (13 R223; 22 R406). -/
theorem State.writeKey_mem (s : State) (key : Nat) (bs : List (BitVec 8)) :
    (s.writeKey key bs).mem = s.mem ∨ (s.writeKey key bs).mem = Memory.write s.mem key bs := by
  unfold State.writeKey; split <;> simp

theorem State.writeKey_wf (s : State) (key : Nat) (bs : List (BitVec 8)) (h : Memory.wf s.mem = true) :
    Memory.wf (s.writeKey key bs).mem = true := by
  rcases State.writeKey_mem s key bs with e | e <;> rw [e]
  · exact h
  · exact Memory.wf_write _ _ _ h

theorem State.writeKey_outside (s : State) (key : Nat) (bs : List (BitVec 8)) (j : Nat)
    (h : j < key ∨ key + bs.length ≤ j) : SMap.get (s.writeKey key bs).mem j = SMap.get s.mem j := by
  rcases State.writeKey_mem s key bs with e | e <;> rw [e]
  exact Memory.get_write_outside _ _ _ _ h

@[simp] theorem State.addPoison_mem (s : State) (b : Nat) : (s.addPoison b).mem = s.mem := by
  unfold State.addPoison; split <;> rfl

@[simp] theorem State.poisonRange_mem (s : State) (key n : Nat) : (s.poisonRange key n).mem = s.mem := by
  unfold State.poisonRange
  generalize List.range _ = l
  induction l generalizing s with
  | nil => rfl
  | cons i l ih => rw [List.foldl_cons, ih, State.addPoison_mem]

@[simp] theorem State.clearCovered_mem (s : State) (ws : List (Nat × Nat)) : (s.clearCovered ws).mem = s.mem := rfl
@[simp] theorem State.markRacking_mem (s : State) (owner key n : Nat) : (s.markRacking owner key n).mem = s.mem := rfl
@[simp] theorem State.queueMiss_mem (s : State) (owner : Nat) (m : Miss) : (s.queueMiss owner m).mem = s.mem := rfl
@[simp] theorem State.queueRequest_mem (s : State) (owner : Nat) (m : Miss) : (s.queueRequest owner m).mem = s.mem := rfl
@[simp] theorem State.touchPort_mem (s : State) (owner core : Nat) : (s.touchPort owner core).mem = s.mem := rfl
@[simp] theorem State.psiekPackets_mem (s : State) (o : Owner) (dev : Nat) : (s.psiekPackets o dev).mem = s.mem := rfl
@[simp] theorem State.reportTags_mem (s : State) (key n : Nat) : (s.reportTags key n).mem = s.mem := by
  unfold State.reportTags
  generalize s.tagFails.filter _ = l
  induction l generalizing s with
  | nil => rfl
  | cons b l ih => rw [List.foldl_cons, ih]; rfl

/-- Traffic changes no byte. -/
@[simp] theorem State.traffic_mem (s : State) (owner key n core page : Nat) :
    (s.traffic owner key n core page).mem = s.mem := by
  simp only [State.traffic]
  repeat' split
  all_goals (simp only [State.touchPort_mem, State.psiekPackets_mem, State.reportTags_mem]; rfl)
@[simp] theorem State.logViolation_mem (s : State) (v : Violation) : (s.logViolation v).mem = s.mem := rfl
@[simp] theorem State.logEvent_mem (s : State) (e : Event) : (s.logEvent e).mem = s.mem := rfl

/-- An engine's write of owner memory keeps the canonical form. -/
theorem State.writeVa_wf (s : State) (owner : Nat) (t : Team) (core : Nat) (va : DWord) (bs : List (BitVec 8))
    (h : Memory.wf s.mem = true) : Memory.wf (s.writeVa owner t core va bs).mem = true := by
  induction bs generalizing s va with
  | nil => exact h
  | cons b bs ih =>
    simp only [State.writeVa]
    apply ih
    split
    · rw [State.markRacking_mem]; exact State.writeKey_wf _ _ _ h
    · exact h

end Sys2Proof.Machine
end

