-- ==== Sys2Proof/Laws/State.lean ====
section
/-! SUPPORT. The field lemmas of the updates of State and Group: what each one changes, true by rfl. -/

set_option linter.unusedVariables false

namespace Sys2Proof.Machine

/-! ## Group updates -/

@[simp] theorem Group.setV_gid (g : Group) (m : Mask) (r : Nat) (f : Nat → Word) : (g.setV m r f).gid = g.gid := rfl
@[simp] theorem Group.setV_kind (g : Group) (m : Mask) (r : Nat) (f : Nat → Word) : (g.setV m r f).kind = g.kind := rfl
@[simp] theorem Group.setV_owner (g : Group) (m : Mask) (r : Nat) (f : Nat → Word) : (g.setV m r f).owner = g.owner := rfl
@[simp] theorem Group.setV_grid (g : Group) (m : Mask) (r : Nat) (f : Nat → Word) : (g.setV m r f).grid = g.grid := rfl
@[simp] theorem Group.setV_team (g : Group) (m : Mask) (r : Nat) (f : Nat → Word) : (g.setV m r f).team = g.team := rfl
@[simp] theorem Group.setV_gnum (g : Group) (m : Mask) (r : Nat) (f : Nat → Word) : (g.setV m r f).gnum = g.gnum := rfl
@[simp] theorem Group.setV_sp (g : Group) (m : Mask) (r : Nat) (f : Nat → Word) : (g.setV m r f).sp = g.sp := rfl
@[simp] theorem Group.setV_slot (g : Group) (m : Mask) (r : Nat) (f : Nat → Word) : (g.setV m r f).slot = g.slot := rfl
@[simp] theorem Group.setV_width (g : Group) (m : Mask) (r : Nat) (f : Nat → Word) : (g.setV m r f).width = g.width := rfl
@[simp] theorem Group.setV_vregs (g : Group) (m : Mask) (r : Nat) (f : Nat → Word) : (g.setV m r f).vregs = g.vregs := rfl
@[simp] theorem Group.setV_sregs (g : Group) (m : Mask) (r : Nat) (f : Nat → Word) : (g.setV m r f).sregs = g.sregs := rfl
@[simp] theorem Group.setV_prio (g : Group) (m : Mask) (r : Nat) (f : Nat → Word) : (g.setV m r f).prio = g.prio := rfl
@[simp] theorem Group.setV_pc (g : Group) (m : Mask) (r : Nat) (f : Nat → Word) : (g.setV m r f).pc = g.pc := rfl
@[simp] theorem Group.setV_csp (g : Group) (m : Mask) (r : Nat) (f : Nat → Word) : (g.setV m r f).csp = g.csp := rfl
@[simp] theorem Group.setV_cstk (g : Group) (m : Mask) (r : Nat) (f : Nat → Word) : (g.setV m r f).cstk = g.cstk := rfl
@[simp] theorem Group.setV_p (g : Group) (m : Mask) (r : Nat) (f : Nat → Word) : (g.setV m r f).p = g.p := rfl
@[simp] theorem Group.setV_s (g : Group) (m : Mask) (r : Nat) (f : Nat → Word) : (g.setV m r f).s = g.s := rfl
@[simp] theorem Group.setV_q (g : Group) (m : Mask) (r : Nat) (f : Nat → Word) : (g.setV m r f).q = g.q := rfl
@[simp] theorem Group.setV_xb (g : Group) (m : Mask) (r : Nat) (f : Nat → Word) : (g.setV m r f).xb = g.xb := rfl
@[simp] theorem Group.setV_xs (g : Group) (m : Mask) (r : Nat) (f : Nat → Word) : (g.setV m r f).xs = g.xs := rfl
@[simp] theorem Group.setV_live (g : Group) (m : Mask) (r : Nat) (f : Nat → Word) : (g.setV m r f).live = g.live := rfl
@[simp] theorem Group.setV_fbin (g : Group) (m : Mask) (r : Nat) (f : Nat → Word) : (g.setV m r f).fbin = g.fbin := rfl
@[simp] theorem Group.setV_binned (g : Group) (m : Mask) (r : Nat) (f : Nat → Word) : (g.setV m r f).binned = g.binned := rfl
@[simp] theorem Group.setV_hlv (g : Group) (m : Mask) (r : Nat) (f : Nat → Word) : (g.setV m r f).hlv = g.hlv := rfl
@[simp] theorem Group.setV_hl (g : Group) (m : Mask) (r : Nat) (f : Nat → Word) : (g.setV m r f).hl = g.hl := rfl
@[simp] theorem Group.setV_savedPc (g : Group) (m : Mask) (r : Nat) (f : Nat → Word) : (g.setV m r f).savedPc = g.savedPc := rfl
@[simp] theorem Group.setV_barg (g : Group) (m : Mask) (r : Nat) (f : Nat → Word) : (g.setV m r f).barg = g.barg := rfl
@[simp] theorem Group.setV_barWait (g : Group) (m : Mask) (r : Nat) (f : Nat → Word) : (g.setV m r f).barWait = g.barWait := rfl
@[simp] theorem Group.setV_yielded (g : Group) (m : Mask) (r : Nat) (f : Nat → Word) : (g.setV m r f).yielded = g.yielded := rfl
@[simp] theorem Group.setV_yrem (g : Group) (m : Mask) (r : Nat) (f : Nat → Word) : (g.setV m r f).yrem = g.yrem := rfl
@[simp] theorem Group.setV_asleep (g : Group) (m : Mask) (r : Nat) (f : Nat → Word) : (g.setV m r f).asleep = g.asleep := rfl
@[simp] theorem Group.setV_deadline (g : Group) (m : Mask) (r : Nat) (f : Nat → Word) : (g.setV m r f).deadline = g.deadline := rfl
@[simp] theorem Group.setV_mqWait (g : Group) (m : Mask) (r : Nat) (f : Nat → Word) : (g.setV m r f).mqWait = g.mqWait := rfl
@[simp] theorem Group.setV_walkPage (g : Group) (m : Mask) (r : Nat) (f : Nat → Word) : (g.setV m r f).walkPage = g.walkPage := rfl
@[simp] theorem Group.setV_waits (g : Group) (m : Mask) (r : Nat) (f : Nat → Word) : (g.setV m r f).waits = g.waits := rfl
@[simp] theorem Group.setV_await (g : Group) (m : Mask) (r : Nat) (f : Nat → Word) : (g.setV m r f).await = g.await := rfl
@[simp] theorem Group.setV_frm (g : Group) (m : Mask) (r : Nat) (f : Nat → Word) : (g.setV m r f).frm = g.frm := rfl
@[simp] theorem Group.setV_fstat (g : Group) (m : Mask) (r : Nat) (f : Nat → Word) : (g.setV m r f).fstat = g.fstat := rfl
@[simp] theorem Group.setV_cause (g : Group) (m : Mask) (r : Nat) (f : Nat → Word) : (g.setV m r f).cause = g.cause := rfl
@[simp] theorem Group.setV_tval (g : Group) (m : Mask) (r : Nat) (f : Nat → Word) : (g.setV m r f).tval = g.tval := rfl
@[simp] theorem Group.setV_tlane (g : Group) (m : Mask) (r : Nat) (f : Nat → Word) : (g.setV m r f).tlane = g.tlane := rfl
@[simp] theorem Group.setV_gtmr (g : Group) (m : Mask) (r : Nat) (f : Nat → Word) : (g.setV m r f).gtmr = g.gtmr := rfl
@[simp] theorem Group.setV_gtcmp (g : Group) (m : Mask) (r : Nat) (f : Nat → Word) : (g.setV m r f).gtcmp = g.gtcmp := rfl
@[simp] theorem Group.setV_tmp (g : Group) (m : Mask) (r : Nat) (f : Nat → Word) : (g.setV m r f).tmp = g.tmp := rfl
@[simp] theorem Group.setV_ceinj (g : Group) (m : Mask) (r : Nat) (f : Nat → Word) : (g.setV m r f).ceinj = g.ceinj := rfl
@[simp] theorem Group.setV_cstack (g : Group) (m : Mask) (r : Nat) (f : Nat → Word) : (g.setV m r f).cstack = g.cstack := rfl
@[simp] theorem Group.setV_xfer (g : Group) (m : Mask) (r : Nat) (f : Nat → Word) : (g.setV m r f).xfer = g.xfer := rfl
@[simp] theorem Group.setV_moving (g : Group) (m : Mask) (r : Nat) (f : Nat → Word) : (g.setV m r f).moving = g.moving := rfl
@[simp] theorem Group.setV_trap (g : Group) (m : Mask) (r : Nat) (f : Nat → Word) : (g.setV m r f).trap = g.trap := rfl
@[simp] theorem Group.setV_bin (g : Group) (m : Mask) (r : Nat) (f : Nat → Word) : (g.setV m r f).bin = g.bin := rfl
@[simp] theorem Group.setV_rows (g : Group) (m : Mask) (r : Nat) (f : Nat → Word) : (g.setV m r f).rows = g.rows := rfl
@[simp] theorem Group.setV_frameldDone (g : Group) (m : Mask) (r : Nat) (f : Nat → Word) : (g.setV m r f).frameldDone = g.frameldDone := rfl
@[simp] theorem Group.setV_started (g : Group) (m : Mask) (r : Nat) (f : Nat → Word) : (g.setV m r f).started = g.started := rfl
@[simp] theorem Group.setV_inRun (g : Group) (m : Mask) (r : Nat) (f : Nat → Word) : (g.setV m r f).inRun = g.inRun := rfl
@[simp] theorem Group.setV_iss (g : Group) (m : Mask) (r : Nat) (f : Nat → Word) : (g.setV m r f).iss = g.iss := rfl
@[simp] theorem Group.setV_ipc (g : Group) (m : Mask) (r : Nat) (f : Nat → Word) : (g.setV m r f).ipc = g.ipc := rfl
@[simp] theorem Group.setV_runLen (g : Group) (m : Mask) (r : Nat) (f : Nat → Word) : (g.setV m r f).runLen = g.runLen := rfl
@[simp] theorem Group.setV_stall (g : Group) (m : Mask) (r : Nat) (f : Nat → Word) : (g.setV m r f).stall = g.stall := rfl
@[simp] theorem Group.setV_waitClk (g : Group) (m : Mask) (r : Nat) (f : Nat → Word) : (g.setV m r f).waitClk = g.waitClk := rfl
@[simp] theorem Group.setV_served (g : Group) (m : Mask) (r : Nat) (f : Nat → Word) : (g.setV m r f).served = g.served := rfl
@[simp] theorem Group.setV_armed (g : Group) (m : Mask) (r : Nat) (f : Nat → Word) : (g.setV m r f).armed = g.armed := rfl
@[simp] theorem Group.setV_placed (g : Group) (m : Mask) (r : Nat) (f : Nat → Word) : (g.setV m r f).placed = g.placed := rfl
@[simp] theorem Group.setV_cpyAt (g : Group) (m : Mask) (r : Nat) (f : Nat → Word) : (g.setV m r f).cpyAt = g.cpyAt := rfl
@[simp] theorem Group.setP_gid (g : Group) (m : Mask) (r : Nat) (x : Mask) : (g.setP m r x).gid = g.gid := rfl
@[simp] theorem Group.setP_kind (g : Group) (m : Mask) (r : Nat) (x : Mask) : (g.setP m r x).kind = g.kind := rfl
@[simp] theorem Group.setP_owner (g : Group) (m : Mask) (r : Nat) (x : Mask) : (g.setP m r x).owner = g.owner := rfl
@[simp] theorem Group.setP_grid (g : Group) (m : Mask) (r : Nat) (x : Mask) : (g.setP m r x).grid = g.grid := rfl
@[simp] theorem Group.setP_team (g : Group) (m : Mask) (r : Nat) (x : Mask) : (g.setP m r x).team = g.team := rfl
@[simp] theorem Group.setP_gnum (g : Group) (m : Mask) (r : Nat) (x : Mask) : (g.setP m r x).gnum = g.gnum := rfl
@[simp] theorem Group.setP_sp (g : Group) (m : Mask) (r : Nat) (x : Mask) : (g.setP m r x).sp = g.sp := rfl
@[simp] theorem Group.setP_slot (g : Group) (m : Mask) (r : Nat) (x : Mask) : (g.setP m r x).slot = g.slot := rfl
@[simp] theorem Group.setP_width (g : Group) (m : Mask) (r : Nat) (x : Mask) : (g.setP m r x).width = g.width := rfl
@[simp] theorem Group.setP_vregs (g : Group) (m : Mask) (r : Nat) (x : Mask) : (g.setP m r x).vregs = g.vregs := rfl
@[simp] theorem Group.setP_sregs (g : Group) (m : Mask) (r : Nat) (x : Mask) : (g.setP m r x).sregs = g.sregs := rfl
@[simp] theorem Group.setP_prio (g : Group) (m : Mask) (r : Nat) (x : Mask) : (g.setP m r x).prio = g.prio := rfl
@[simp] theorem Group.setP_pc (g : Group) (m : Mask) (r : Nat) (x : Mask) : (g.setP m r x).pc = g.pc := rfl
@[simp] theorem Group.setP_csp (g : Group) (m : Mask) (r : Nat) (x : Mask) : (g.setP m r x).csp = g.csp := rfl
@[simp] theorem Group.setP_cstk (g : Group) (m : Mask) (r : Nat) (x : Mask) : (g.setP m r x).cstk = g.cstk := rfl
@[simp] theorem Group.setP_v (g : Group) (m : Mask) (r : Nat) (x : Mask) : (g.setP m r x).v = g.v := rfl
@[simp] theorem Group.setP_s (g : Group) (m : Mask) (r : Nat) (x : Mask) : (g.setP m r x).s = g.s := rfl
@[simp] theorem Group.setP_q (g : Group) (m : Mask) (r : Nat) (x : Mask) : (g.setP m r x).q = g.q := rfl
@[simp] theorem Group.setP_xb (g : Group) (m : Mask) (r : Nat) (x : Mask) : (g.setP m r x).xb = g.xb := rfl
@[simp] theorem Group.setP_xs (g : Group) (m : Mask) (r : Nat) (x : Mask) : (g.setP m r x).xs = g.xs := rfl
@[simp] theorem Group.setP_live (g : Group) (m : Mask) (r : Nat) (x : Mask) : (g.setP m r x).live = g.live := rfl
@[simp] theorem Group.setP_fbin (g : Group) (m : Mask) (r : Nat) (x : Mask) : (g.setP m r x).fbin = g.fbin := rfl
@[simp] theorem Group.setP_binned (g : Group) (m : Mask) (r : Nat) (x : Mask) : (g.setP m r x).binned = g.binned := rfl
@[simp] theorem Group.setP_hlv (g : Group) (m : Mask) (r : Nat) (x : Mask) : (g.setP m r x).hlv = g.hlv := rfl
@[simp] theorem Group.setP_hl (g : Group) (m : Mask) (r : Nat) (x : Mask) : (g.setP m r x).hl = g.hl := rfl
@[simp] theorem Group.setP_savedPc (g : Group) (m : Mask) (r : Nat) (x : Mask) : (g.setP m r x).savedPc = g.savedPc := rfl
@[simp] theorem Group.setP_barg (g : Group) (m : Mask) (r : Nat) (x : Mask) : (g.setP m r x).barg = g.barg := rfl
@[simp] theorem Group.setP_barWait (g : Group) (m : Mask) (r : Nat) (x : Mask) : (g.setP m r x).barWait = g.barWait := rfl
@[simp] theorem Group.setP_yielded (g : Group) (m : Mask) (r : Nat) (x : Mask) : (g.setP m r x).yielded = g.yielded := rfl
@[simp] theorem Group.setP_yrem (g : Group) (m : Mask) (r : Nat) (x : Mask) : (g.setP m r x).yrem = g.yrem := rfl
@[simp] theorem Group.setP_asleep (g : Group) (m : Mask) (r : Nat) (x : Mask) : (g.setP m r x).asleep = g.asleep := rfl
@[simp] theorem Group.setP_deadline (g : Group) (m : Mask) (r : Nat) (x : Mask) : (g.setP m r x).deadline = g.deadline := rfl
@[simp] theorem Group.setP_mqWait (g : Group) (m : Mask) (r : Nat) (x : Mask) : (g.setP m r x).mqWait = g.mqWait := rfl
@[simp] theorem Group.setP_walkPage (g : Group) (m : Mask) (r : Nat) (x : Mask) : (g.setP m r x).walkPage = g.walkPage := rfl
@[simp] theorem Group.setP_waits (g : Group) (m : Mask) (r : Nat) (x : Mask) : (g.setP m r x).waits = g.waits := rfl
@[simp] theorem Group.setP_await (g : Group) (m : Mask) (r : Nat) (x : Mask) : (g.setP m r x).await = g.await := rfl
@[simp] theorem Group.setP_frm (g : Group) (m : Mask) (r : Nat) (x : Mask) : (g.setP m r x).frm = g.frm := rfl
@[simp] theorem Group.setP_fstat (g : Group) (m : Mask) (r : Nat) (x : Mask) : (g.setP m r x).fstat = g.fstat := rfl
@[simp] theorem Group.setP_cause (g : Group) (m : Mask) (r : Nat) (x : Mask) : (g.setP m r x).cause = g.cause := rfl
@[simp] theorem Group.setP_tval (g : Group) (m : Mask) (r : Nat) (x : Mask) : (g.setP m r x).tval = g.tval := rfl
@[simp] theorem Group.setP_tlane (g : Group) (m : Mask) (r : Nat) (x : Mask) : (g.setP m r x).tlane = g.tlane := rfl
@[simp] theorem Group.setP_gtmr (g : Group) (m : Mask) (r : Nat) (x : Mask) : (g.setP m r x).gtmr = g.gtmr := rfl
@[simp] theorem Group.setP_gtcmp (g : Group) (m : Mask) (r : Nat) (x : Mask) : (g.setP m r x).gtcmp = g.gtcmp := rfl
@[simp] theorem Group.setP_tmp (g : Group) (m : Mask) (r : Nat) (x : Mask) : (g.setP m r x).tmp = g.tmp := rfl
@[simp] theorem Group.setP_ceinj (g : Group) (m : Mask) (r : Nat) (x : Mask) : (g.setP m r x).ceinj = g.ceinj := rfl
@[simp] theorem Group.setP_cstack (g : Group) (m : Mask) (r : Nat) (x : Mask) : (g.setP m r x).cstack = g.cstack := rfl
@[simp] theorem Group.setP_xfer (g : Group) (m : Mask) (r : Nat) (x : Mask) : (g.setP m r x).xfer = g.xfer := rfl
@[simp] theorem Group.setP_moving (g : Group) (m : Mask) (r : Nat) (x : Mask) : (g.setP m r x).moving = g.moving := rfl
@[simp] theorem Group.setP_trap (g : Group) (m : Mask) (r : Nat) (x : Mask) : (g.setP m r x).trap = g.trap := rfl
@[simp] theorem Group.setP_bin (g : Group) (m : Mask) (r : Nat) (x : Mask) : (g.setP m r x).bin = g.bin := rfl
@[simp] theorem Group.setP_rows (g : Group) (m : Mask) (r : Nat) (x : Mask) : (g.setP m r x).rows = g.rows := rfl
@[simp] theorem Group.setP_frameldDone (g : Group) (m : Mask) (r : Nat) (x : Mask) : (g.setP m r x).frameldDone = g.frameldDone := rfl
@[simp] theorem Group.setP_started (g : Group) (m : Mask) (r : Nat) (x : Mask) : (g.setP m r x).started = g.started := rfl
@[simp] theorem Group.setP_inRun (g : Group) (m : Mask) (r : Nat) (x : Mask) : (g.setP m r x).inRun = g.inRun := rfl
@[simp] theorem Group.setP_iss (g : Group) (m : Mask) (r : Nat) (x : Mask) : (g.setP m r x).iss = g.iss := rfl
@[simp] theorem Group.setP_ipc (g : Group) (m : Mask) (r : Nat) (x : Mask) : (g.setP m r x).ipc = g.ipc := rfl
@[simp] theorem Group.setP_runLen (g : Group) (m : Mask) (r : Nat) (x : Mask) : (g.setP m r x).runLen = g.runLen := rfl
@[simp] theorem Group.setP_stall (g : Group) (m : Mask) (r : Nat) (x : Mask) : (g.setP m r x).stall = g.stall := rfl
@[simp] theorem Group.setP_waitClk (g : Group) (m : Mask) (r : Nat) (x : Mask) : (g.setP m r x).waitClk = g.waitClk := rfl
@[simp] theorem Group.setP_served (g : Group) (m : Mask) (r : Nat) (x : Mask) : (g.setP m r x).served = g.served := rfl
@[simp] theorem Group.setP_armed (g : Group) (m : Mask) (r : Nat) (x : Mask) : (g.setP m r x).armed = g.armed := rfl
@[simp] theorem Group.setP_placed (g : Group) (m : Mask) (r : Nat) (x : Mask) : (g.setP m r x).placed = g.placed := rfl
@[simp] theorem Group.setP_cpyAt (g : Group) (m : Mask) (r : Nat) (x : Mask) : (g.setP m r x).cpyAt = g.cpyAt := rfl
@[simp] theorem Group.setS_gid (g : Group) (r : Nat) (x : Word) : (g.setS r x).gid = g.gid := rfl
@[simp] theorem Group.setS_kind (g : Group) (r : Nat) (x : Word) : (g.setS r x).kind = g.kind := rfl
@[simp] theorem Group.setS_owner (g : Group) (r : Nat) (x : Word) : (g.setS r x).owner = g.owner := rfl
@[simp] theorem Group.setS_grid (g : Group) (r : Nat) (x : Word) : (g.setS r x).grid = g.grid := rfl
@[simp] theorem Group.setS_team (g : Group) (r : Nat) (x : Word) : (g.setS r x).team = g.team := rfl
@[simp] theorem Group.setS_gnum (g : Group) (r : Nat) (x : Word) : (g.setS r x).gnum = g.gnum := rfl
@[simp] theorem Group.setS_sp (g : Group) (r : Nat) (x : Word) : (g.setS r x).sp = g.sp := rfl
@[simp] theorem Group.setS_slot (g : Group) (r : Nat) (x : Word) : (g.setS r x).slot = g.slot := rfl
@[simp] theorem Group.setS_width (g : Group) (r : Nat) (x : Word) : (g.setS r x).width = g.width := rfl
@[simp] theorem Group.setS_vregs (g : Group) (r : Nat) (x : Word) : (g.setS r x).vregs = g.vregs := rfl
@[simp] theorem Group.setS_sregs (g : Group) (r : Nat) (x : Word) : (g.setS r x).sregs = g.sregs := rfl
@[simp] theorem Group.setS_prio (g : Group) (r : Nat) (x : Word) : (g.setS r x).prio = g.prio := rfl
@[simp] theorem Group.setS_pc (g : Group) (r : Nat) (x : Word) : (g.setS r x).pc = g.pc := rfl
@[simp] theorem Group.setS_csp (g : Group) (r : Nat) (x : Word) : (g.setS r x).csp = g.csp := rfl
@[simp] theorem Group.setS_cstk (g : Group) (r : Nat) (x : Word) : (g.setS r x).cstk = g.cstk := rfl
@[simp] theorem Group.setS_v (g : Group) (r : Nat) (x : Word) : (g.setS r x).v = g.v := rfl
@[simp] theorem Group.setS_p (g : Group) (r : Nat) (x : Word) : (g.setS r x).p = g.p := rfl
@[simp] theorem Group.setS_q (g : Group) (r : Nat) (x : Word) : (g.setS r x).q = g.q := rfl
@[simp] theorem Group.setS_xb (g : Group) (r : Nat) (x : Word) : (g.setS r x).xb = g.xb := rfl
@[simp] theorem Group.setS_xs (g : Group) (r : Nat) (x : Word) : (g.setS r x).xs = g.xs := rfl
@[simp] theorem Group.setS_live (g : Group) (r : Nat) (x : Word) : (g.setS r x).live = g.live := rfl
@[simp] theorem Group.setS_fbin (g : Group) (r : Nat) (x : Word) : (g.setS r x).fbin = g.fbin := rfl
@[simp] theorem Group.setS_binned (g : Group) (r : Nat) (x : Word) : (g.setS r x).binned = g.binned := rfl
@[simp] theorem Group.setS_hlv (g : Group) (r : Nat) (x : Word) : (g.setS r x).hlv = g.hlv := rfl
@[simp] theorem Group.setS_hl (g : Group) (r : Nat) (x : Word) : (g.setS r x).hl = g.hl := rfl
@[simp] theorem Group.setS_savedPc (g : Group) (r : Nat) (x : Word) : (g.setS r x).savedPc = g.savedPc := rfl
@[simp] theorem Group.setS_barg (g : Group) (r : Nat) (x : Word) : (g.setS r x).barg = g.barg := rfl
@[simp] theorem Group.setS_barWait (g : Group) (r : Nat) (x : Word) : (g.setS r x).barWait = g.barWait := rfl
@[simp] theorem Group.setS_yielded (g : Group) (r : Nat) (x : Word) : (g.setS r x).yielded = g.yielded := rfl
@[simp] theorem Group.setS_yrem (g : Group) (r : Nat) (x : Word) : (g.setS r x).yrem = g.yrem := rfl
@[simp] theorem Group.setS_asleep (g : Group) (r : Nat) (x : Word) : (g.setS r x).asleep = g.asleep := rfl
@[simp] theorem Group.setS_deadline (g : Group) (r : Nat) (x : Word) : (g.setS r x).deadline = g.deadline := rfl
@[simp] theorem Group.setS_mqWait (g : Group) (r : Nat) (x : Word) : (g.setS r x).mqWait = g.mqWait := rfl
@[simp] theorem Group.setS_walkPage (g : Group) (r : Nat) (x : Word) : (g.setS r x).walkPage = g.walkPage := rfl
@[simp] theorem Group.setS_waits (g : Group) (r : Nat) (x : Word) : (g.setS r x).waits = g.waits := rfl
@[simp] theorem Group.setS_outst (g : Group) (r : Nat) (x : Word) : (g.setS r x).outst = g.outst := rfl
@[simp] theorem Group.setS_await (g : Group) (r : Nat) (x : Word) : (g.setS r x).await = g.await := rfl
@[simp] theorem Group.setS_frm (g : Group) (r : Nat) (x : Word) : (g.setS r x).frm = g.frm := rfl
@[simp] theorem Group.setS_fstat (g : Group) (r : Nat) (x : Word) : (g.setS r x).fstat = g.fstat := rfl
@[simp] theorem Group.setS_cause (g : Group) (r : Nat) (x : Word) : (g.setS r x).cause = g.cause := rfl
@[simp] theorem Group.setS_tval (g : Group) (r : Nat) (x : Word) : (g.setS r x).tval = g.tval := rfl
@[simp] theorem Group.setS_tlane (g : Group) (r : Nat) (x : Word) : (g.setS r x).tlane = g.tlane := rfl
@[simp] theorem Group.setS_gtmr (g : Group) (r : Nat) (x : Word) : (g.setS r x).gtmr = g.gtmr := rfl
@[simp] theorem Group.setS_gtcmp (g : Group) (r : Nat) (x : Word) : (g.setS r x).gtcmp = g.gtcmp := rfl
@[simp] theorem Group.setS_tmp (g : Group) (r : Nat) (x : Word) : (g.setS r x).tmp = g.tmp := rfl
@[simp] theorem Group.setS_ceinj (g : Group) (r : Nat) (x : Word) : (g.setS r x).ceinj = g.ceinj := rfl
@[simp] theorem Group.setS_cstack (g : Group) (r : Nat) (x : Word) : (g.setS r x).cstack = g.cstack := rfl
@[simp] theorem Group.setS_xfer (g : Group) (r : Nat) (x : Word) : (g.setS r x).xfer = g.xfer := rfl
@[simp] theorem Group.setS_moving (g : Group) (r : Nat) (x : Word) : (g.setS r x).moving = g.moving := rfl
@[simp] theorem Group.setS_trap (g : Group) (r : Nat) (x : Word) : (g.setS r x).trap = g.trap := rfl
@[simp] theorem Group.setS_bin (g : Group) (r : Nat) (x : Word) : (g.setS r x).bin = g.bin := rfl
@[simp] theorem Group.setS_rows (g : Group) (r : Nat) (x : Word) : (g.setS r x).rows = g.rows := rfl
@[simp] theorem Group.setS_frameldDone (g : Group) (r : Nat) (x : Word) : (g.setS r x).frameldDone = g.frameldDone := rfl
@[simp] theorem Group.setS_started (g : Group) (r : Nat) (x : Word) : (g.setS r x).started = g.started := rfl
@[simp] theorem Group.setS_inRun (g : Group) (r : Nat) (x : Word) : (g.setS r x).inRun = g.inRun := rfl
@[simp] theorem Group.setS_iss (g : Group) (r : Nat) (x : Word) : (g.setS r x).iss = g.iss := rfl
@[simp] theorem Group.setS_ipc (g : Group) (r : Nat) (x : Word) : (g.setS r x).ipc = g.ipc := rfl
@[simp] theorem Group.setS_runLen (g : Group) (r : Nat) (x : Word) : (g.setS r x).runLen = g.runLen := rfl
@[simp] theorem Group.setS_stall (g : Group) (r : Nat) (x : Word) : (g.setS r x).stall = g.stall := rfl
@[simp] theorem Group.setS_waitClk (g : Group) (r : Nat) (x : Word) : (g.setS r x).waitClk = g.waitClk := rfl
@[simp] theorem Group.setS_served (g : Group) (r : Nat) (x : Word) : (g.setS r x).served = g.served := rfl
@[simp] theorem Group.setS_armed (g : Group) (r : Nat) (x : Word) : (g.setS r x).armed = g.armed := rfl
@[simp] theorem Group.setS_placed (g : Group) (r : Nat) (x : Word) : (g.setS r x).placed = g.placed := rfl
@[simp] theorem Group.setS_cpyAt (g : Group) (r : Nat) (x : Word) : (g.setS r x).cpyAt = g.cpyAt := rfl
@[simp] theorem Group.setQ_gid (g : Group) (r : Nat) (b : Bool) : (g.setQ r b).gid = g.gid := rfl
@[simp] theorem Group.setQ_kind (g : Group) (r : Nat) (b : Bool) : (g.setQ r b).kind = g.kind := rfl
@[simp] theorem Group.setQ_owner (g : Group) (r : Nat) (b : Bool) : (g.setQ r b).owner = g.owner := rfl
@[simp] theorem Group.setQ_grid (g : Group) (r : Nat) (b : Bool) : (g.setQ r b).grid = g.grid := rfl
@[simp] theorem Group.setQ_team (g : Group) (r : Nat) (b : Bool) : (g.setQ r b).team = g.team := rfl
@[simp] theorem Group.setQ_gnum (g : Group) (r : Nat) (b : Bool) : (g.setQ r b).gnum = g.gnum := rfl
@[simp] theorem Group.setQ_sp (g : Group) (r : Nat) (b : Bool) : (g.setQ r b).sp = g.sp := rfl
@[simp] theorem Group.setQ_slot (g : Group) (r : Nat) (b : Bool) : (g.setQ r b).slot = g.slot := rfl
@[simp] theorem Group.setQ_width (g : Group) (r : Nat) (b : Bool) : (g.setQ r b).width = g.width := rfl
@[simp] theorem Group.setQ_vregs (g : Group) (r : Nat) (b : Bool) : (g.setQ r b).vregs = g.vregs := rfl
@[simp] theorem Group.setQ_sregs (g : Group) (r : Nat) (b : Bool) : (g.setQ r b).sregs = g.sregs := rfl
@[simp] theorem Group.setQ_prio (g : Group) (r : Nat) (b : Bool) : (g.setQ r b).prio = g.prio := rfl
@[simp] theorem Group.setQ_pc (g : Group) (r : Nat) (b : Bool) : (g.setQ r b).pc = g.pc := rfl
@[simp] theorem Group.setQ_csp (g : Group) (r : Nat) (b : Bool) : (g.setQ r b).csp = g.csp := rfl
@[simp] theorem Group.setQ_cstk (g : Group) (r : Nat) (b : Bool) : (g.setQ r b).cstk = g.cstk := rfl
@[simp] theorem Group.setQ_v (g : Group) (r : Nat) (b : Bool) : (g.setQ r b).v = g.v := rfl
@[simp] theorem Group.setQ_p (g : Group) (r : Nat) (b : Bool) : (g.setQ r b).p = g.p := rfl
@[simp] theorem Group.setQ_s (g : Group) (r : Nat) (b : Bool) : (g.setQ r b).s = g.s := rfl
@[simp] theorem Group.setQ_xb (g : Group) (r : Nat) (b : Bool) : (g.setQ r b).xb = g.xb := rfl
@[simp] theorem Group.setQ_xs (g : Group) (r : Nat) (b : Bool) : (g.setQ r b).xs = g.xs := rfl
@[simp] theorem Group.setQ_live (g : Group) (r : Nat) (b : Bool) : (g.setQ r b).live = g.live := rfl
@[simp] theorem Group.setQ_fbin (g : Group) (r : Nat) (b : Bool) : (g.setQ r b).fbin = g.fbin := rfl
@[simp] theorem Group.setQ_binned (g : Group) (r : Nat) (b : Bool) : (g.setQ r b).binned = g.binned := rfl
@[simp] theorem Group.setQ_hlv (g : Group) (r : Nat) (b : Bool) : (g.setQ r b).hlv = g.hlv := rfl
@[simp] theorem Group.setQ_hl (g : Group) (r : Nat) (b : Bool) : (g.setQ r b).hl = g.hl := rfl
@[simp] theorem Group.setQ_savedPc (g : Group) (r : Nat) (b : Bool) : (g.setQ r b).savedPc = g.savedPc := rfl
@[simp] theorem Group.setQ_barg (g : Group) (r : Nat) (b : Bool) : (g.setQ r b).barg = g.barg := rfl
@[simp] theorem Group.setQ_barWait (g : Group) (r : Nat) (b : Bool) : (g.setQ r b).barWait = g.barWait := rfl
@[simp] theorem Group.setQ_yielded (g : Group) (r : Nat) (b : Bool) : (g.setQ r b).yielded = g.yielded := rfl
@[simp] theorem Group.setQ_yrem (g : Group) (r : Nat) (b : Bool) : (g.setQ r b).yrem = g.yrem := rfl
@[simp] theorem Group.setQ_asleep (g : Group) (r : Nat) (b : Bool) : (g.setQ r b).asleep = g.asleep := rfl
@[simp] theorem Group.setQ_deadline (g : Group) (r : Nat) (b : Bool) : (g.setQ r b).deadline = g.deadline := rfl
@[simp] theorem Group.setQ_mqWait (g : Group) (r : Nat) (b : Bool) : (g.setQ r b).mqWait = g.mqWait := rfl
@[simp] theorem Group.setQ_walkPage (g : Group) (r : Nat) (b : Bool) : (g.setQ r b).walkPage = g.walkPage := rfl
@[simp] theorem Group.setQ_waits (g : Group) (r : Nat) (b : Bool) : (g.setQ r b).waits = g.waits := rfl
@[simp] theorem Group.setQ_outst (g : Group) (r : Nat) (b : Bool) : (g.setQ r b).outst = g.outst := rfl
@[simp] theorem Group.setQ_await (g : Group) (r : Nat) (b : Bool) : (g.setQ r b).await = g.await := rfl
@[simp] theorem Group.setQ_frm (g : Group) (r : Nat) (b : Bool) : (g.setQ r b).frm = g.frm := rfl
@[simp] theorem Group.setQ_fstat (g : Group) (r : Nat) (b : Bool) : (g.setQ r b).fstat = g.fstat := rfl
@[simp] theorem Group.setQ_cause (g : Group) (r : Nat) (b : Bool) : (g.setQ r b).cause = g.cause := rfl
@[simp] theorem Group.setQ_tval (g : Group) (r : Nat) (b : Bool) : (g.setQ r b).tval = g.tval := rfl
@[simp] theorem Group.setQ_tlane (g : Group) (r : Nat) (b : Bool) : (g.setQ r b).tlane = g.tlane := rfl
@[simp] theorem Group.setQ_gtmr (g : Group) (r : Nat) (b : Bool) : (g.setQ r b).gtmr = g.gtmr := rfl
@[simp] theorem Group.setQ_gtcmp (g : Group) (r : Nat) (b : Bool) : (g.setQ r b).gtcmp = g.gtcmp := rfl
@[simp] theorem Group.setQ_tmp (g : Group) (r : Nat) (b : Bool) : (g.setQ r b).tmp = g.tmp := rfl
@[simp] theorem Group.setQ_ceinj (g : Group) (r : Nat) (b : Bool) : (g.setQ r b).ceinj = g.ceinj := rfl
@[simp] theorem Group.setQ_cstack (g : Group) (r : Nat) (b : Bool) : (g.setQ r b).cstack = g.cstack := rfl
@[simp] theorem Group.setQ_xfer (g : Group) (r : Nat) (b : Bool) : (g.setQ r b).xfer = g.xfer := rfl
@[simp] theorem Group.setQ_moving (g : Group) (r : Nat) (b : Bool) : (g.setQ r b).moving = g.moving := rfl
@[simp] theorem Group.setQ_trap (g : Group) (r : Nat) (b : Bool) : (g.setQ r b).trap = g.trap := rfl
@[simp] theorem Group.setQ_bin (g : Group) (r : Nat) (b : Bool) : (g.setQ r b).bin = g.bin := rfl
@[simp] theorem Group.setQ_rows (g : Group) (r : Nat) (b : Bool) : (g.setQ r b).rows = g.rows := rfl
@[simp] theorem Group.setQ_frameldDone (g : Group) (r : Nat) (b : Bool) : (g.setQ r b).frameldDone = g.frameldDone := rfl
@[simp] theorem Group.setQ_started (g : Group) (r : Nat) (b : Bool) : (g.setQ r b).started = g.started := rfl
@[simp] theorem Group.setQ_inRun (g : Group) (r : Nat) (b : Bool) : (g.setQ r b).inRun = g.inRun := rfl
@[simp] theorem Group.setQ_iss (g : Group) (r : Nat) (b : Bool) : (g.setQ r b).iss = g.iss := rfl
@[simp] theorem Group.setQ_ipc (g : Group) (r : Nat) (b : Bool) : (g.setQ r b).ipc = g.ipc := rfl
@[simp] theorem Group.setQ_runLen (g : Group) (r : Nat) (b : Bool) : (g.setQ r b).runLen = g.runLen := rfl
@[simp] theorem Group.setQ_stall (g : Group) (r : Nat) (b : Bool) : (g.setQ r b).stall = g.stall := rfl
@[simp] theorem Group.setQ_waitClk (g : Group) (r : Nat) (b : Bool) : (g.setQ r b).waitClk = g.waitClk := rfl
@[simp] theorem Group.setQ_served (g : Group) (r : Nat) (b : Bool) : (g.setQ r b).served = g.served := rfl
@[simp] theorem Group.setQ_armed (g : Group) (r : Nat) (b : Bool) : (g.setQ r b).armed = g.armed := rfl
@[simp] theorem Group.setQ_placed (g : Group) (r : Nat) (b : Bool) : (g.setQ r b).placed = g.placed := rfl
@[simp] theorem Group.setQ_cpyAt (g : Group) (r : Nat) (b : Bool) : (g.setQ r b).cpyAt = g.cpyAt := rfl
@[simp] theorem Group.setX_gid (g : Group) (r : Nat) (b : DWord) (t : Word) : (g.setX r b t).gid = g.gid := rfl
@[simp] theorem Group.setX_kind (g : Group) (r : Nat) (b : DWord) (t : Word) : (g.setX r b t).kind = g.kind := rfl
@[simp] theorem Group.setX_owner (g : Group) (r : Nat) (b : DWord) (t : Word) : (g.setX r b t).owner = g.owner := rfl
@[simp] theorem Group.setX_grid (g : Group) (r : Nat) (b : DWord) (t : Word) : (g.setX r b t).grid = g.grid := rfl
@[simp] theorem Group.setX_team (g : Group) (r : Nat) (b : DWord) (t : Word) : (g.setX r b t).team = g.team := rfl
@[simp] theorem Group.setX_gnum (g : Group) (r : Nat) (b : DWord) (t : Word) : (g.setX r b t).gnum = g.gnum := rfl
@[simp] theorem Group.setX_sp (g : Group) (r : Nat) (b : DWord) (t : Word) : (g.setX r b t).sp = g.sp := rfl
@[simp] theorem Group.setX_slot (g : Group) (r : Nat) (b : DWord) (t : Word) : (g.setX r b t).slot = g.slot := rfl
@[simp] theorem Group.setX_width (g : Group) (r : Nat) (b : DWord) (t : Word) : (g.setX r b t).width = g.width := rfl
@[simp] theorem Group.setX_vregs (g : Group) (r : Nat) (b : DWord) (t : Word) : (g.setX r b t).vregs = g.vregs := rfl
@[simp] theorem Group.setX_sregs (g : Group) (r : Nat) (b : DWord) (t : Word) : (g.setX r b t).sregs = g.sregs := rfl
@[simp] theorem Group.setX_prio (g : Group) (r : Nat) (b : DWord) (t : Word) : (g.setX r b t).prio = g.prio := rfl
@[simp] theorem Group.setX_pc (g : Group) (r : Nat) (b : DWord) (t : Word) : (g.setX r b t).pc = g.pc := rfl
@[simp] theorem Group.setX_csp (g : Group) (r : Nat) (b : DWord) (t : Word) : (g.setX r b t).csp = g.csp := rfl
@[simp] theorem Group.setX_cstk (g : Group) (r : Nat) (b : DWord) (t : Word) : (g.setX r b t).cstk = g.cstk := rfl
@[simp] theorem Group.setX_v (g : Group) (r : Nat) (b : DWord) (t : Word) : (g.setX r b t).v = g.v := rfl
@[simp] theorem Group.setX_p (g : Group) (r : Nat) (b : DWord) (t : Word) : (g.setX r b t).p = g.p := rfl
@[simp] theorem Group.setX_s (g : Group) (r : Nat) (b : DWord) (t : Word) : (g.setX r b t).s = g.s := rfl
@[simp] theorem Group.setX_q (g : Group) (r : Nat) (b : DWord) (t : Word) : (g.setX r b t).q = g.q := rfl
@[simp] theorem Group.setX_live (g : Group) (r : Nat) (b : DWord) (t : Word) : (g.setX r b t).live = g.live := rfl
@[simp] theorem Group.setX_fbin (g : Group) (r : Nat) (b : DWord) (t : Word) : (g.setX r b t).fbin = g.fbin := rfl
@[simp] theorem Group.setX_binned (g : Group) (r : Nat) (b : DWord) (t : Word) : (g.setX r b t).binned = g.binned := rfl
@[simp] theorem Group.setX_hlv (g : Group) (r : Nat) (b : DWord) (t : Word) : (g.setX r b t).hlv = g.hlv := rfl
@[simp] theorem Group.setX_hl (g : Group) (r : Nat) (b : DWord) (t : Word) : (g.setX r b t).hl = g.hl := rfl
@[simp] theorem Group.setX_savedPc (g : Group) (r : Nat) (b : DWord) (t : Word) : (g.setX r b t).savedPc = g.savedPc := rfl
@[simp] theorem Group.setX_barg (g : Group) (r : Nat) (b : DWord) (t : Word) : (g.setX r b t).barg = g.barg := rfl
@[simp] theorem Group.setX_barWait (g : Group) (r : Nat) (b : DWord) (t : Word) : (g.setX r b t).barWait = g.barWait := rfl
@[simp] theorem Group.setX_yielded (g : Group) (r : Nat) (b : DWord) (t : Word) : (g.setX r b t).yielded = g.yielded := rfl
@[simp] theorem Group.setX_yrem (g : Group) (r : Nat) (b : DWord) (t : Word) : (g.setX r b t).yrem = g.yrem := rfl
@[simp] theorem Group.setX_asleep (g : Group) (r : Nat) (b : DWord) (t : Word) : (g.setX r b t).asleep = g.asleep := rfl
@[simp] theorem Group.setX_deadline (g : Group) (r : Nat) (b : DWord) (t : Word) : (g.setX r b t).deadline = g.deadline := rfl
@[simp] theorem Group.setX_mqWait (g : Group) (r : Nat) (b : DWord) (t : Word) : (g.setX r b t).mqWait = g.mqWait := rfl
@[simp] theorem Group.setX_walkPage (g : Group) (r : Nat) (b : DWord) (t : Word) : (g.setX r b t).walkPage = g.walkPage := rfl
@[simp] theorem Group.setX_waits (g : Group) (r : Nat) (b : DWord) (t : Word) : (g.setX r b t).waits = g.waits := rfl
@[simp] theorem Group.setX_outst (g : Group) (r : Nat) (b : DWord) (t : Word) : (g.setX r b t).outst = g.outst := rfl
@[simp] theorem Group.setX_await (g : Group) (r : Nat) (b : DWord) (t : Word) : (g.setX r b t).await = g.await := rfl
@[simp] theorem Group.setX_frm (g : Group) (r : Nat) (b : DWord) (t : Word) : (g.setX r b t).frm = g.frm := rfl
@[simp] theorem Group.setX_fstat (g : Group) (r : Nat) (b : DWord) (t : Word) : (g.setX r b t).fstat = g.fstat := rfl
@[simp] theorem Group.setX_cause (g : Group) (r : Nat) (b : DWord) (t : Word) : (g.setX r b t).cause = g.cause := rfl
@[simp] theorem Group.setX_tval (g : Group) (r : Nat) (b : DWord) (t : Word) : (g.setX r b t).tval = g.tval := rfl
@[simp] theorem Group.setX_tlane (g : Group) (r : Nat) (b : DWord) (t : Word) : (g.setX r b t).tlane = g.tlane := rfl
@[simp] theorem Group.setX_gtmr (g : Group) (r : Nat) (b : DWord) (t : Word) : (g.setX r b t).gtmr = g.gtmr := rfl
@[simp] theorem Group.setX_gtcmp (g : Group) (r : Nat) (b : DWord) (t : Word) : (g.setX r b t).gtcmp = g.gtcmp := rfl
@[simp] theorem Group.setX_tmp (g : Group) (r : Nat) (b : DWord) (t : Word) : (g.setX r b t).tmp = g.tmp := rfl
@[simp] theorem Group.setX_ceinj (g : Group) (r : Nat) (b : DWord) (t : Word) : (g.setX r b t).ceinj = g.ceinj := rfl
@[simp] theorem Group.setX_cstack (g : Group) (r : Nat) (b : DWord) (t : Word) : (g.setX r b t).cstack = g.cstack := rfl
@[simp] theorem Group.setX_xfer (g : Group) (r : Nat) (b : DWord) (t : Word) : (g.setX r b t).xfer = g.xfer := rfl
@[simp] theorem Group.setX_moving (g : Group) (r : Nat) (b : DWord) (t : Word) : (g.setX r b t).moving = g.moving := rfl
@[simp] theorem Group.setX_trap (g : Group) (r : Nat) (b : DWord) (t : Word) : (g.setX r b t).trap = g.trap := rfl
@[simp] theorem Group.setX_bin (g : Group) (r : Nat) (b : DWord) (t : Word) : (g.setX r b t).bin = g.bin := rfl
@[simp] theorem Group.setX_rows (g : Group) (r : Nat) (b : DWord) (t : Word) : (g.setX r b t).rows = g.rows := rfl
@[simp] theorem Group.setX_frameldDone (g : Group) (r : Nat) (b : DWord) (t : Word) : (g.setX r b t).frameldDone = g.frameldDone := rfl
@[simp] theorem Group.setX_started (g : Group) (r : Nat) (b : DWord) (t : Word) : (g.setX r b t).started = g.started := rfl
@[simp] theorem Group.setX_inRun (g : Group) (r : Nat) (b : DWord) (t : Word) : (g.setX r b t).inRun = g.inRun := rfl
@[simp] theorem Group.setX_iss (g : Group) (r : Nat) (b : DWord) (t : Word) : (g.setX r b t).iss = g.iss := rfl
@[simp] theorem Group.setX_ipc (g : Group) (r : Nat) (b : DWord) (t : Word) : (g.setX r b t).ipc = g.ipc := rfl
@[simp] theorem Group.setX_runLen (g : Group) (r : Nat) (b : DWord) (t : Word) : (g.setX r b t).runLen = g.runLen := rfl
@[simp] theorem Group.setX_stall (g : Group) (r : Nat) (b : DWord) (t : Word) : (g.setX r b t).stall = g.stall := rfl
@[simp] theorem Group.setX_waitClk (g : Group) (r : Nat) (b : DWord) (t : Word) : (g.setX r b t).waitClk = g.waitClk := rfl
@[simp] theorem Group.setX_served (g : Group) (r : Nat) (b : DWord) (t : Word) : (g.setX r b t).served = g.served := rfl
@[simp] theorem Group.setX_armed (g : Group) (r : Nat) (b : DWord) (t : Word) : (g.setX r b t).armed = g.armed := rfl
@[simp] theorem Group.setX_placed (g : Group) (r : Nat) (b : DWord) (t : Word) : (g.setX r b t).placed = g.placed := rfl
@[simp] theorem Group.setX_cpyAt (g : Group) (r : Nat) (b : DWord) (t : Word) : (g.setX r b t).cpyAt = g.cpyAt := rfl
@[simp] theorem Group.setPc_gid (g : Group) (m : Mask) (f : Nat → DWord) : (g.setPc m f).gid = g.gid := rfl
@[simp] theorem Group.setPc_kind (g : Group) (m : Mask) (f : Nat → DWord) : (g.setPc m f).kind = g.kind := rfl
@[simp] theorem Group.setPc_owner (g : Group) (m : Mask) (f : Nat → DWord) : (g.setPc m f).owner = g.owner := rfl
@[simp] theorem Group.setPc_grid (g : Group) (m : Mask) (f : Nat → DWord) : (g.setPc m f).grid = g.grid := rfl
@[simp] theorem Group.setPc_team (g : Group) (m : Mask) (f : Nat → DWord) : (g.setPc m f).team = g.team := rfl
@[simp] theorem Group.setPc_gnum (g : Group) (m : Mask) (f : Nat → DWord) : (g.setPc m f).gnum = g.gnum := rfl
@[simp] theorem Group.setPc_sp (g : Group) (m : Mask) (f : Nat → DWord) : (g.setPc m f).sp = g.sp := rfl
@[simp] theorem Group.setPc_slot (g : Group) (m : Mask) (f : Nat → DWord) : (g.setPc m f).slot = g.slot := rfl
@[simp] theorem Group.setPc_width (g : Group) (m : Mask) (f : Nat → DWord) : (g.setPc m f).width = g.width := rfl
@[simp] theorem Group.setPc_vregs (g : Group) (m : Mask) (f : Nat → DWord) : (g.setPc m f).vregs = g.vregs := rfl
@[simp] theorem Group.setPc_sregs (g : Group) (m : Mask) (f : Nat → DWord) : (g.setPc m f).sregs = g.sregs := rfl
@[simp] theorem Group.setPc_prio (g : Group) (m : Mask) (f : Nat → DWord) : (g.setPc m f).prio = g.prio := rfl
@[simp] theorem Group.setPc_csp (g : Group) (m : Mask) (f : Nat → DWord) : (g.setPc m f).csp = g.csp := rfl
@[simp] theorem Group.setPc_cstk (g : Group) (m : Mask) (f : Nat → DWord) : (g.setPc m f).cstk = g.cstk := rfl
@[simp] theorem Group.setPc_v (g : Group) (m : Mask) (f : Nat → DWord) : (g.setPc m f).v = g.v := rfl
@[simp] theorem Group.setPc_p (g : Group) (m : Mask) (f : Nat → DWord) : (g.setPc m f).p = g.p := rfl
@[simp] theorem Group.setPc_s (g : Group) (m : Mask) (f : Nat → DWord) : (g.setPc m f).s = g.s := rfl
@[simp] theorem Group.setPc_q (g : Group) (m : Mask) (f : Nat → DWord) : (g.setPc m f).q = g.q := rfl
@[simp] theorem Group.setPc_xb (g : Group) (m : Mask) (f : Nat → DWord) : (g.setPc m f).xb = g.xb := rfl
@[simp] theorem Group.setPc_xs (g : Group) (m : Mask) (f : Nat → DWord) : (g.setPc m f).xs = g.xs := rfl
@[simp] theorem Group.setPc_live (g : Group) (m : Mask) (f : Nat → DWord) : (g.setPc m f).live = g.live := rfl
@[simp] theorem Group.setPc_fbin (g : Group) (m : Mask) (f : Nat → DWord) : (g.setPc m f).fbin = g.fbin := rfl
@[simp] theorem Group.setPc_binned (g : Group) (m : Mask) (f : Nat → DWord) : (g.setPc m f).binned = g.binned := rfl
@[simp] theorem Group.setPc_hlv (g : Group) (m : Mask) (f : Nat → DWord) : (g.setPc m f).hlv = g.hlv := rfl
@[simp] theorem Group.setPc_hl (g : Group) (m : Mask) (f : Nat → DWord) : (g.setPc m f).hl = g.hl := rfl
@[simp] theorem Group.setPc_savedPc (g : Group) (m : Mask) (f : Nat → DWord) : (g.setPc m f).savedPc = g.savedPc := rfl
@[simp] theorem Group.setPc_barg (g : Group) (m : Mask) (f : Nat → DWord) : (g.setPc m f).barg = g.barg := rfl
@[simp] theorem Group.setPc_barWait (g : Group) (m : Mask) (f : Nat → DWord) : (g.setPc m f).barWait = g.barWait := rfl
@[simp] theorem Group.setPc_yielded (g : Group) (m : Mask) (f : Nat → DWord) : (g.setPc m f).yielded = g.yielded := rfl
@[simp] theorem Group.setPc_yrem (g : Group) (m : Mask) (f : Nat → DWord) : (g.setPc m f).yrem = g.yrem := rfl
@[simp] theorem Group.setPc_asleep (g : Group) (m : Mask) (f : Nat → DWord) : (g.setPc m f).asleep = g.asleep := rfl
@[simp] theorem Group.setPc_deadline (g : Group) (m : Mask) (f : Nat → DWord) : (g.setPc m f).deadline = g.deadline := rfl
@[simp] theorem Group.setPc_mqWait (g : Group) (m : Mask) (f : Nat → DWord) : (g.setPc m f).mqWait = g.mqWait := rfl
@[simp] theorem Group.setPc_walkPage (g : Group) (m : Mask) (f : Nat → DWord) : (g.setPc m f).walkPage = g.walkPage := rfl
@[simp] theorem Group.setPc_waits (g : Group) (m : Mask) (f : Nat → DWord) : (g.setPc m f).waits = g.waits := rfl
@[simp] theorem Group.setPc_outst (g : Group) (m : Mask) (f : Nat → DWord) : (g.setPc m f).outst = g.outst := rfl
@[simp] theorem Group.setPc_await (g : Group) (m : Mask) (f : Nat → DWord) : (g.setPc m f).await = g.await := rfl
@[simp] theorem Group.setPc_frm (g : Group) (m : Mask) (f : Nat → DWord) : (g.setPc m f).frm = g.frm := rfl
@[simp] theorem Group.setPc_fstat (g : Group) (m : Mask) (f : Nat → DWord) : (g.setPc m f).fstat = g.fstat := rfl
@[simp] theorem Group.setPc_cause (g : Group) (m : Mask) (f : Nat → DWord) : (g.setPc m f).cause = g.cause := rfl
@[simp] theorem Group.setPc_tval (g : Group) (m : Mask) (f : Nat → DWord) : (g.setPc m f).tval = g.tval := rfl
@[simp] theorem Group.setPc_tlane (g : Group) (m : Mask) (f : Nat → DWord) : (g.setPc m f).tlane = g.tlane := rfl
@[simp] theorem Group.setPc_gtmr (g : Group) (m : Mask) (f : Nat → DWord) : (g.setPc m f).gtmr = g.gtmr := rfl
@[simp] theorem Group.setPc_gtcmp (g : Group) (m : Mask) (f : Nat → DWord) : (g.setPc m f).gtcmp = g.gtcmp := rfl
@[simp] theorem Group.setPc_tmp (g : Group) (m : Mask) (f : Nat → DWord) : (g.setPc m f).tmp = g.tmp := rfl
@[simp] theorem Group.setPc_ceinj (g : Group) (m : Mask) (f : Nat → DWord) : (g.setPc m f).ceinj = g.ceinj := rfl
@[simp] theorem Group.setPc_cstack (g : Group) (m : Mask) (f : Nat → DWord) : (g.setPc m f).cstack = g.cstack := rfl
@[simp] theorem Group.setPc_xfer (g : Group) (m : Mask) (f : Nat → DWord) : (g.setPc m f).xfer = g.xfer := rfl
@[simp] theorem Group.setPc_moving (g : Group) (m : Mask) (f : Nat → DWord) : (g.setPc m f).moving = g.moving := rfl
@[simp] theorem Group.setPc_trap (g : Group) (m : Mask) (f : Nat → DWord) : (g.setPc m f).trap = g.trap := rfl
@[simp] theorem Group.setPc_bin (g : Group) (m : Mask) (f : Nat → DWord) : (g.setPc m f).bin = g.bin := rfl
@[simp] theorem Group.setPc_rows (g : Group) (m : Mask) (f : Nat → DWord) : (g.setPc m f).rows = g.rows := rfl
@[simp] theorem Group.setPc_frameldDone (g : Group) (m : Mask) (f : Nat → DWord) : (g.setPc m f).frameldDone = g.frameldDone := rfl
@[simp] theorem Group.setPc_started (g : Group) (m : Mask) (f : Nat → DWord) : (g.setPc m f).started = g.started := rfl
@[simp] theorem Group.setPc_inRun (g : Group) (m : Mask) (f : Nat → DWord) : (g.setPc m f).inRun = g.inRun := rfl
@[simp] theorem Group.setPc_iss (g : Group) (m : Mask) (f : Nat → DWord) : (g.setPc m f).iss = g.iss := rfl
@[simp] theorem Group.setPc_ipc (g : Group) (m : Mask) (f : Nat → DWord) : (g.setPc m f).ipc = g.ipc := rfl
@[simp] theorem Group.setPc_runLen (g : Group) (m : Mask) (f : Nat → DWord) : (g.setPc m f).runLen = g.runLen := rfl
@[simp] theorem Group.setPc_stall (g : Group) (m : Mask) (f : Nat → DWord) : (g.setPc m f).stall = g.stall := rfl
@[simp] theorem Group.setPc_waitClk (g : Group) (m : Mask) (f : Nat → DWord) : (g.setPc m f).waitClk = g.waitClk := rfl
@[simp] theorem Group.setPc_served (g : Group) (m : Mask) (f : Nat → DWord) : (g.setPc m f).served = g.served := rfl
@[simp] theorem Group.setPc_armed (g : Group) (m : Mask) (f : Nat → DWord) : (g.setPc m f).armed = g.armed := rfl
@[simp] theorem Group.setPc_placed (g : Group) (m : Mask) (f : Nat → DWord) : (g.setPc m f).placed = g.placed := rfl
@[simp] theorem Group.setPc_cpyAt (g : Group) (m : Mask) (f : Nat → DWord) : (g.setPc m f).cpyAt = g.cpyAt := rfl

@[simp] theorem Group.setV_v (g : Group) (m : Mask) (r : Nat) (f : Nat → Word) :
    (g.setV m r f).v = g.v.setMany (64 * r) m.has f 64 := rfl
@[simp] theorem Group.setP_p (g : Group) (m : Mask) (r : Nat) (x : Mask) :
    (g.setP m r x).p = g.p.set r ((g.p.get r &&& ~~~m) ||| (x &&& m)) := rfl
@[simp] theorem Group.setS_s (g : Group) (r : Nat) (x : Word) : (g.setS r x).s = g.s.set r x := rfl
@[simp] theorem Group.setX_xb (g : Group) (r : Nat) (b : DWord) (t : Word) : (g.setX r b t).xb = g.xb.set r b := rfl
@[simp] theorem Group.setX_xs (g : Group) (r : Nat) (b : DWord) (t : Word) : (g.setX r b t).xs = g.xs.set r t := rfl
@[simp] theorem Group.setPc_pc (g : Group) (m : Mask) (f : Nat → DWord) :
    (g.setPc m f).pc = g.pc.setMany 0 m.has f 64 := rfl


/-! ## State updates -/

@[simp] theorem State.modCur_groups (s : State) (f : Group → Group) : (s.modCur f).groups = s.groups := rfl
@[simp] theorem State.modCur_teams (s : State) (f : Group → Group) : (s.modCur f).teams = s.teams := rfl
@[simp] theorem State.modCur_grids (s : State) (f : Group → Group) : (s.modCur f).grids = s.grids := rfl
@[simp] theorem State.modCur_owners (s : State) (f : Group → Group) : (s.modCur f).owners = s.owners := rfl
@[simp] theorem State.modCur_sps (s : State) (f : Group → Group) : (s.modCur f).sps = s.sps := rfl
@[simp] theorem State.modCur_chains (s : State) (f : Group → Group) : (s.modCur f).chains = s.chains := rfl
@[simp] theorem State.modCur_steeps (s : State) (f : Group → Group) : (s.modCur f).steeps = s.steeps := rfl
@[simp] theorem State.modCur_rackings (s : State) (f : Group → Group) : (s.modCur f).rackings = s.rackings := rfl
@[simp] theorem State.modCur_banks (s : State) (f : Group → Group) : (s.modCur f).banks = s.banks := rfl
@[simp] theorem State.modCur_mem (s : State) (f : Group → Group) : (s.modCur f).mem = s.mem := rfl
@[simp] theorem State.modCur_stale (s : State) (f : Group → Group) : (s.modCur f).stale = s.stale := rfl
@[simp] theorem State.modCur_versions (s : State) (f : Group → Group) : (s.modCur f).versions = s.versions := rfl
@[simp] theorem State.modCur_poison (s : State) (f : Group → Group) : (s.modCur f).poison = s.poison := rfl
@[simp] theorem State.modCur_saved (s : State) (f : Group → Group) : (s.modCur f).saved = s.saved := rfl
@[simp] theorem State.modCur_keys (s : State) (f : Group → Group) : (s.modCur f).keys = s.keys := rfl
@[simp] theorem State.modCur_portKeys (s : State) (f : Group → Group) : (s.modCur f).portKeys = s.portKeys := rfl
@[simp] theorem State.modCur_flows (s : State) (f : Group → Group) : (s.modCur f).flows = s.flows := rfl
@[simp] theorem State.modCur_ports (s : State) (f : Group → Group) : (s.modCur f).ports = s.ports := rfl
@[simp] theorem State.modCur_lostPeers (s : State) (f : Group → Group) : (s.modCur f).lostPeers = s.lostPeers := rfl
@[simp] theorem State.modCur_worldEnds (s : State) (f : Group → Group) : (s.modCur f).worldEnds = s.worldEnds := rfl
@[simp] theorem State.modCur_routes (s : State) (f : Group → Group) : (s.modCur f).routes = s.routes := rfl
@[simp] theorem State.modCur_inbound (s : State) (f : Group → Group) : (s.modCur f).inbound = s.inbound := rfl
@[simp] theorem State.modCur_events (s : State) (f : Group → Group) : (s.modCur f).events = s.events := rfl
@[simp] theorem State.modCur_violations (s : State) (f : Group → Group) : (s.modCur f).violations = s.violations := rfl
@[simp] theorem State.modCur_remaps (s : State) (f : Group → Group) : (s.modCur f).remaps = s.remaps := rfl
@[simp] theorem State.modCur_failedBonds (s : State) (f : Group → Group) : (s.modCur f).failedBonds = s.failedBonds := rfl
@[simp] theorem State.modCur_rowErrs (s : State) (f : Group → Group) : (s.modCur f).rowErrs = s.rowErrs := rfl
@[simp] theorem State.modCur_tagFails (s : State) (f : Group → Group) : (s.modCur f).tagFails = s.tagFails := rfl
@[simp] theorem State.modCur_bondErrs (s : State) (f : Group → Group) : (s.modCur f).bondErrs = s.bondErrs := rfl
@[simp] theorem State.modCur_sessions (s : State) (f : Group → Group) : (s.modCur f).sessions = s.sessions := rfl
@[simp] theorem State.modCur_retiredBanks (s : State) (f : Group → Group) : (s.modCur f).retiredBanks = s.retiredBanks := rfl
@[simp] theorem State.modCur_retiredCores (s : State) (f : Group → Group) : (s.modCur f).retiredCores = s.retiredCores := rfl
@[simp] theorem State.modCur_sdcCount (s : State) (f : Group → Group) : (s.modCur f).sdcCount = s.sdcCount := rfl
@[simp] theorem State.modCur_meWake (s : State) (f : Group → Group) : (s.modCur f).meWake = s.meWake := rfl
@[simp] theorem State.modCur_kilnStopped (s : State) (f : Group → Group) : (s.modCur f).kilnStopped = s.kilnStopped := rfl
@[simp] theorem State.modCur_bringUp (s : State) (f : Group → Group) : (s.modCur f).bringUp = s.bringUp := rfl
@[simp] theorem State.modCur_spAt (s : State) (f : Group → Group) : (s.modCur f).spAt = s.spAt := rfl
@[simp] theorem State.modCur_minVersion (s : State) (f : Group → Group) : (s.modCur f).minVersion = s.minVersion := rfl
@[simp] theorem State.modCur_version (s : State) (f : Group → Group) : (s.modCur f).version = s.version := rfl
@[simp] theorem State.modCur_firmware (s : State) (f : Group → Group) : (s.modCur f).firmware = s.firmware := rfl
@[simp] theorem State.modCur_cdi0 (s : State) (f : Group → Group) : (s.modCur f).cdi0 = s.cdi0 := rfl
@[simp] theorem State.modCur_seedLocked (s : State) (f : Group → Group) : (s.modCur f).seedLocked = s.seedLocked := rfl
@[simp] theorem State.modCur_failUnit (s : State) (f : Group → Group) : (s.modCur f).failUnit = s.failUnit := rfl
@[simp] theorem State.modCur_stepAt (s : State) (f : Group → Group) : (s.modCur f).stepAt = s.stepAt := rfl
@[simp] theorem State.modCur_regs (s : State) (f : Group → Group) : (s.modCur f).regs = s.regs := rfl
@[simp] theorem State.modCur_pwr (s : State) (f : Group → Group) : (s.modCur f).pwr = s.pwr := rfl
@[simp] theorem State.modCur_temp (s : State) (f : Group → Group) : (s.modCur f).temp = s.temp := rfl
@[simp] theorem State.modCur_aclk (s : State) (f : Group → Group) : (s.modCur f).aclk = s.aclk := rfl
@[simp] theorem State.modCur_link (s : State) (f : Group → Group) : (s.modCur f).link = s.link := rfl
@[simp] theorem State.modCur_powerOff (s : State) (f : Group → Group) : (s.modCur f).powerOff = s.powerOff := rfl
@[simp] theorem State.modCur_cyc (s : State) (f : Group → Group) : (s.modCur f).cyc = s.cyc := rfl
@[simp] theorem State.modCur_answer (s : State) (f : Group → Group) : (s.modCur f).answer = s.answer := rfl
@[simp] theorem State.modCur_nextId (s : State) (f : Group → Group) : (s.modCur f).nextId = s.nextId := rfl
@[simp] theorem State.modCur_nextSeq (s : State) (f : Group → Group) : (s.modCur f).nextSeq = s.nextSeq := rfl
@[simp] theorem State.modCur_freeCtr (s : State) (f : Group → Group) : (s.modCur f).freeCtr = s.freeCtr := rfl
@[simp] theorem State.modCur_turns (s : State) (f : Group → Group) : (s.modCur f).turns = s.turns := rfl
@[simp] theorem State.modCur_upsets (s : State) (f : Group → Group) : (s.modCur f).upsets = s.upsets := rfl
@[simp] theorem State.modCur_cur (s : State) (f : Group → Group) : (s.modCur f).cur = f s.cur := rfl
@[simp] theorem State.modOwner_cur (s : State) (i : Nat) (f : Owner → Owner) : (s.modOwner i f).cur = s.cur := rfl
@[simp] theorem State.modOwner_groups (s : State) (i : Nat) (f : Owner → Owner) : (s.modOwner i f).groups = s.groups := rfl
@[simp] theorem State.modOwner_teams (s : State) (i : Nat) (f : Owner → Owner) : (s.modOwner i f).teams = s.teams := rfl
@[simp] theorem State.modOwner_grids (s : State) (i : Nat) (f : Owner → Owner) : (s.modOwner i f).grids = s.grids := rfl
@[simp] theorem State.modOwner_sps (s : State) (i : Nat) (f : Owner → Owner) : (s.modOwner i f).sps = s.sps := rfl
@[simp] theorem State.modOwner_chains (s : State) (i : Nat) (f : Owner → Owner) : (s.modOwner i f).chains = s.chains := rfl
@[simp] theorem State.modOwner_steeps (s : State) (i : Nat) (f : Owner → Owner) : (s.modOwner i f).steeps = s.steeps := rfl
@[simp] theorem State.modOwner_rackings (s : State) (i : Nat) (f : Owner → Owner) : (s.modOwner i f).rackings = s.rackings := rfl
@[simp] theorem State.modOwner_banks (s : State) (i : Nat) (f : Owner → Owner) : (s.modOwner i f).banks = s.banks := rfl
@[simp] theorem State.modOwner_mem (s : State) (i : Nat) (f : Owner → Owner) : (s.modOwner i f).mem = s.mem := rfl
@[simp] theorem State.modOwner_stale (s : State) (i : Nat) (f : Owner → Owner) : (s.modOwner i f).stale = s.stale := rfl
@[simp] theorem State.modOwner_versions (s : State) (i : Nat) (f : Owner → Owner) : (s.modOwner i f).versions = s.versions := rfl
@[simp] theorem State.modOwner_poison (s : State) (i : Nat) (f : Owner → Owner) : (s.modOwner i f).poison = s.poison := rfl
@[simp] theorem State.modOwner_saved (s : State) (i : Nat) (f : Owner → Owner) : (s.modOwner i f).saved = s.saved := rfl
@[simp] theorem State.modOwner_keys (s : State) (i : Nat) (f : Owner → Owner) : (s.modOwner i f).keys = s.keys := rfl
@[simp] theorem State.modOwner_portKeys (s : State) (i : Nat) (f : Owner → Owner) : (s.modOwner i f).portKeys = s.portKeys := rfl
@[simp] theorem State.modOwner_flows (s : State) (i : Nat) (f : Owner → Owner) : (s.modOwner i f).flows = s.flows := rfl
@[simp] theorem State.modOwner_ports (s : State) (i : Nat) (f : Owner → Owner) : (s.modOwner i f).ports = s.ports := rfl
@[simp] theorem State.modOwner_lostPeers (s : State) (i : Nat) (f : Owner → Owner) : (s.modOwner i f).lostPeers = s.lostPeers := rfl
@[simp] theorem State.modOwner_worldEnds (s : State) (i : Nat) (f : Owner → Owner) : (s.modOwner i f).worldEnds = s.worldEnds := rfl
@[simp] theorem State.modOwner_routes (s : State) (i : Nat) (f : Owner → Owner) : (s.modOwner i f).routes = s.routes := rfl
@[simp] theorem State.modOwner_inbound (s : State) (i : Nat) (f : Owner → Owner) : (s.modOwner i f).inbound = s.inbound := rfl
@[simp] theorem State.modOwner_events (s : State) (i : Nat) (f : Owner → Owner) : (s.modOwner i f).events = s.events := rfl
@[simp] theorem State.modOwner_violations (s : State) (i : Nat) (f : Owner → Owner) : (s.modOwner i f).violations = s.violations := rfl
@[simp] theorem State.modOwner_remaps (s : State) (i : Nat) (f : Owner → Owner) : (s.modOwner i f).remaps = s.remaps := rfl
@[simp] theorem State.modOwner_failedBonds (s : State) (i : Nat) (f : Owner → Owner) : (s.modOwner i f).failedBonds = s.failedBonds := rfl
@[simp] theorem State.modOwner_rowErrs (s : State) (i : Nat) (f : Owner → Owner) : (s.modOwner i f).rowErrs = s.rowErrs := rfl
@[simp] theorem State.modOwner_tagFails (s : State) (i : Nat) (f : Owner → Owner) : (s.modOwner i f).tagFails = s.tagFails := rfl
@[simp] theorem State.modOwner_bondErrs (s : State) (i : Nat) (f : Owner → Owner) : (s.modOwner i f).bondErrs = s.bondErrs := rfl
@[simp] theorem State.modOwner_sessions (s : State) (i : Nat) (f : Owner → Owner) : (s.modOwner i f).sessions = s.sessions := rfl
@[simp] theorem State.modOwner_retiredBanks (s : State) (i : Nat) (f : Owner → Owner) : (s.modOwner i f).retiredBanks = s.retiredBanks := rfl
@[simp] theorem State.modOwner_retiredCores (s : State) (i : Nat) (f : Owner → Owner) : (s.modOwner i f).retiredCores = s.retiredCores := rfl
@[simp] theorem State.modOwner_sdcCount (s : State) (i : Nat) (f : Owner → Owner) : (s.modOwner i f).sdcCount = s.sdcCount := rfl
@[simp] theorem State.modOwner_meWake (s : State) (i : Nat) (f : Owner → Owner) : (s.modOwner i f).meWake = s.meWake := rfl
@[simp] theorem State.modOwner_kilnStopped (s : State) (i : Nat) (f : Owner → Owner) : (s.modOwner i f).kilnStopped = s.kilnStopped := rfl
@[simp] theorem State.modOwner_bringUp (s : State) (i : Nat) (f : Owner → Owner) : (s.modOwner i f).bringUp = s.bringUp := rfl
@[simp] theorem State.modOwner_spAt (s : State) (i : Nat) (f : Owner → Owner) : (s.modOwner i f).spAt = s.spAt := rfl
@[simp] theorem State.modOwner_minVersion (s : State) (i : Nat) (f : Owner → Owner) : (s.modOwner i f).minVersion = s.minVersion := rfl
@[simp] theorem State.modOwner_version (s : State) (i : Nat) (f : Owner → Owner) : (s.modOwner i f).version = s.version := rfl
@[simp] theorem State.modOwner_firmware (s : State) (i : Nat) (f : Owner → Owner) : (s.modOwner i f).firmware = s.firmware := rfl
@[simp] theorem State.modOwner_cdi0 (s : State) (i : Nat) (f : Owner → Owner) : (s.modOwner i f).cdi0 = s.cdi0 := rfl
@[simp] theorem State.modOwner_seedLocked (s : State) (i : Nat) (f : Owner → Owner) : (s.modOwner i f).seedLocked = s.seedLocked := rfl
@[simp] theorem State.modOwner_failUnit (s : State) (i : Nat) (f : Owner → Owner) : (s.modOwner i f).failUnit = s.failUnit := rfl
@[simp] theorem State.modOwner_stepAt (s : State) (i : Nat) (f : Owner → Owner) : (s.modOwner i f).stepAt = s.stepAt := rfl
@[simp] theorem State.modOwner_regs (s : State) (i : Nat) (f : Owner → Owner) : (s.modOwner i f).regs = s.regs := rfl
@[simp] theorem State.modOwner_pwr (s : State) (i : Nat) (f : Owner → Owner) : (s.modOwner i f).pwr = s.pwr := rfl
@[simp] theorem State.modOwner_temp (s : State) (i : Nat) (f : Owner → Owner) : (s.modOwner i f).temp = s.temp := rfl
@[simp] theorem State.modOwner_aclk (s : State) (i : Nat) (f : Owner → Owner) : (s.modOwner i f).aclk = s.aclk := rfl
@[simp] theorem State.modOwner_link (s : State) (i : Nat) (f : Owner → Owner) : (s.modOwner i f).link = s.link := rfl
@[simp] theorem State.modOwner_powerOff (s : State) (i : Nat) (f : Owner → Owner) : (s.modOwner i f).powerOff = s.powerOff := rfl
@[simp] theorem State.modOwner_cyc (s : State) (i : Nat) (f : Owner → Owner) : (s.modOwner i f).cyc = s.cyc := rfl
@[simp] theorem State.modOwner_answer (s : State) (i : Nat) (f : Owner → Owner) : (s.modOwner i f).answer = s.answer := rfl
@[simp] theorem State.modOwner_nextId (s : State) (i : Nat) (f : Owner → Owner) : (s.modOwner i f).nextId = s.nextId := rfl
@[simp] theorem State.modOwner_nextSeq (s : State) (i : Nat) (f : Owner → Owner) : (s.modOwner i f).nextSeq = s.nextSeq := rfl
@[simp] theorem State.modOwner_freeCtr (s : State) (i : Nat) (f : Owner → Owner) : (s.modOwner i f).freeCtr = s.freeCtr := rfl
@[simp] theorem State.modOwner_turns (s : State) (i : Nat) (f : Owner → Owner) : (s.modOwner i f).turns = s.turns := rfl
@[simp] theorem State.modOwner_upsets (s : State) (i : Nat) (f : Owner → Owner) : (s.modOwner i f).upsets = s.upsets := rfl
@[simp] theorem State.modGrid_cur (s : State) (i : Nat) (f : Grid → Grid) : (s.modGrid i f).cur = s.cur := rfl
@[simp] theorem State.modGrid_groups (s : State) (i : Nat) (f : Grid → Grid) : (s.modGrid i f).groups = s.groups := rfl
@[simp] theorem State.modGrid_teams (s : State) (i : Nat) (f : Grid → Grid) : (s.modGrid i f).teams = s.teams := rfl
@[simp] theorem State.modGrid_owners (s : State) (i : Nat) (f : Grid → Grid) : (s.modGrid i f).owners = s.owners := rfl
@[simp] theorem State.modGrid_sps (s : State) (i : Nat) (f : Grid → Grid) : (s.modGrid i f).sps = s.sps := rfl
@[simp] theorem State.modGrid_chains (s : State) (i : Nat) (f : Grid → Grid) : (s.modGrid i f).chains = s.chains := rfl
@[simp] theorem State.modGrid_steeps (s : State) (i : Nat) (f : Grid → Grid) : (s.modGrid i f).steeps = s.steeps := rfl
@[simp] theorem State.modGrid_rackings (s : State) (i : Nat) (f : Grid → Grid) : (s.modGrid i f).rackings = s.rackings := rfl
@[simp] theorem State.modGrid_banks (s : State) (i : Nat) (f : Grid → Grid) : (s.modGrid i f).banks = s.banks := rfl
@[simp] theorem State.modGrid_mem (s : State) (i : Nat) (f : Grid → Grid) : (s.modGrid i f).mem = s.mem := rfl
@[simp] theorem State.modGrid_stale (s : State) (i : Nat) (f : Grid → Grid) : (s.modGrid i f).stale = s.stale := rfl
@[simp] theorem State.modGrid_versions (s : State) (i : Nat) (f : Grid → Grid) : (s.modGrid i f).versions = s.versions := rfl
@[simp] theorem State.modGrid_poison (s : State) (i : Nat) (f : Grid → Grid) : (s.modGrid i f).poison = s.poison := rfl
@[simp] theorem State.modGrid_saved (s : State) (i : Nat) (f : Grid → Grid) : (s.modGrid i f).saved = s.saved := rfl
@[simp] theorem State.modGrid_keys (s : State) (i : Nat) (f : Grid → Grid) : (s.modGrid i f).keys = s.keys := rfl
@[simp] theorem State.modGrid_portKeys (s : State) (i : Nat) (f : Grid → Grid) : (s.modGrid i f).portKeys = s.portKeys := rfl
@[simp] theorem State.modGrid_flows (s : State) (i : Nat) (f : Grid → Grid) : (s.modGrid i f).flows = s.flows := rfl
@[simp] theorem State.modGrid_ports (s : State) (i : Nat) (f : Grid → Grid) : (s.modGrid i f).ports = s.ports := rfl
@[simp] theorem State.modGrid_lostPeers (s : State) (i : Nat) (f : Grid → Grid) : (s.modGrid i f).lostPeers = s.lostPeers := rfl
@[simp] theorem State.modGrid_worldEnds (s : State) (i : Nat) (f : Grid → Grid) : (s.modGrid i f).worldEnds = s.worldEnds := rfl
@[simp] theorem State.modGrid_routes (s : State) (i : Nat) (f : Grid → Grid) : (s.modGrid i f).routes = s.routes := rfl
@[simp] theorem State.modGrid_inbound (s : State) (i : Nat) (f : Grid → Grid) : (s.modGrid i f).inbound = s.inbound := rfl
@[simp] theorem State.modGrid_events (s : State) (i : Nat) (f : Grid → Grid) : (s.modGrid i f).events = s.events := rfl
@[simp] theorem State.modGrid_violations (s : State) (i : Nat) (f : Grid → Grid) : (s.modGrid i f).violations = s.violations := rfl
@[simp] theorem State.modGrid_remaps (s : State) (i : Nat) (f : Grid → Grid) : (s.modGrid i f).remaps = s.remaps := rfl
@[simp] theorem State.modGrid_failedBonds (s : State) (i : Nat) (f : Grid → Grid) : (s.modGrid i f).failedBonds = s.failedBonds := rfl
@[simp] theorem State.modGrid_rowErrs (s : State) (i : Nat) (f : Grid → Grid) : (s.modGrid i f).rowErrs = s.rowErrs := rfl
@[simp] theorem State.modGrid_tagFails (s : State) (i : Nat) (f : Grid → Grid) : (s.modGrid i f).tagFails = s.tagFails := rfl
@[simp] theorem State.modGrid_bondErrs (s : State) (i : Nat) (f : Grid → Grid) : (s.modGrid i f).bondErrs = s.bondErrs := rfl
@[simp] theorem State.modGrid_sessions (s : State) (i : Nat) (f : Grid → Grid) : (s.modGrid i f).sessions = s.sessions := rfl
@[simp] theorem State.modGrid_retiredBanks (s : State) (i : Nat) (f : Grid → Grid) : (s.modGrid i f).retiredBanks = s.retiredBanks := rfl
@[simp] theorem State.modGrid_retiredCores (s : State) (i : Nat) (f : Grid → Grid) : (s.modGrid i f).retiredCores = s.retiredCores := rfl
@[simp] theorem State.modGrid_sdcCount (s : State) (i : Nat) (f : Grid → Grid) : (s.modGrid i f).sdcCount = s.sdcCount := rfl
@[simp] theorem State.modGrid_meWake (s : State) (i : Nat) (f : Grid → Grid) : (s.modGrid i f).meWake = s.meWake := rfl
@[simp] theorem State.modGrid_kilnStopped (s : State) (i : Nat) (f : Grid → Grid) : (s.modGrid i f).kilnStopped = s.kilnStopped := rfl
@[simp] theorem State.modGrid_bringUp (s : State) (i : Nat) (f : Grid → Grid) : (s.modGrid i f).bringUp = s.bringUp := rfl
@[simp] theorem State.modGrid_spAt (s : State) (i : Nat) (f : Grid → Grid) : (s.modGrid i f).spAt = s.spAt := rfl
@[simp] theorem State.modGrid_minVersion (s : State) (i : Nat) (f : Grid → Grid) : (s.modGrid i f).minVersion = s.minVersion := rfl
@[simp] theorem State.modGrid_version (s : State) (i : Nat) (f : Grid → Grid) : (s.modGrid i f).version = s.version := rfl
@[simp] theorem State.modGrid_firmware (s : State) (i : Nat) (f : Grid → Grid) : (s.modGrid i f).firmware = s.firmware := rfl
@[simp] theorem State.modGrid_cdi0 (s : State) (i : Nat) (f : Grid → Grid) : (s.modGrid i f).cdi0 = s.cdi0 := rfl
@[simp] theorem State.modGrid_seedLocked (s : State) (i : Nat) (f : Grid → Grid) : (s.modGrid i f).seedLocked = s.seedLocked := rfl
@[simp] theorem State.modGrid_failUnit (s : State) (i : Nat) (f : Grid → Grid) : (s.modGrid i f).failUnit = s.failUnit := rfl
@[simp] theorem State.modGrid_stepAt (s : State) (i : Nat) (f : Grid → Grid) : (s.modGrid i f).stepAt = s.stepAt := rfl
@[simp] theorem State.modGrid_regs (s : State) (i : Nat) (f : Grid → Grid) : (s.modGrid i f).regs = s.regs := rfl
@[simp] theorem State.modGrid_pwr (s : State) (i : Nat) (f : Grid → Grid) : (s.modGrid i f).pwr = s.pwr := rfl
@[simp] theorem State.modGrid_temp (s : State) (i : Nat) (f : Grid → Grid) : (s.modGrid i f).temp = s.temp := rfl
@[simp] theorem State.modGrid_aclk (s : State) (i : Nat) (f : Grid → Grid) : (s.modGrid i f).aclk = s.aclk := rfl
@[simp] theorem State.modGrid_link (s : State) (i : Nat) (f : Grid → Grid) : (s.modGrid i f).link = s.link := rfl
@[simp] theorem State.modGrid_powerOff (s : State) (i : Nat) (f : Grid → Grid) : (s.modGrid i f).powerOff = s.powerOff := rfl
@[simp] theorem State.modGrid_cyc (s : State) (i : Nat) (f : Grid → Grid) : (s.modGrid i f).cyc = s.cyc := rfl
@[simp] theorem State.modGrid_answer (s : State) (i : Nat) (f : Grid → Grid) : (s.modGrid i f).answer = s.answer := rfl
@[simp] theorem State.modGrid_nextId (s : State) (i : Nat) (f : Grid → Grid) : (s.modGrid i f).nextId = s.nextId := rfl
@[simp] theorem State.modGrid_nextSeq (s : State) (i : Nat) (f : Grid → Grid) : (s.modGrid i f).nextSeq = s.nextSeq := rfl
@[simp] theorem State.modGrid_freeCtr (s : State) (i : Nat) (f : Grid → Grid) : (s.modGrid i f).freeCtr = s.freeCtr := rfl
@[simp] theorem State.modGrid_turns (s : State) (i : Nat) (f : Grid → Grid) : (s.modGrid i f).turns = s.turns := rfl
@[simp] theorem State.modGrid_upsets (s : State) (i : Nat) (f : Grid → Grid) : (s.modGrid i f).upsets = s.upsets := rfl
@[simp] theorem State.modTeam_cur (s : State) (i : Nat) (f : Team → Team) : (s.modTeam i f).cur = s.cur := rfl
@[simp] theorem State.modTeam_groups (s : State) (i : Nat) (f : Team → Team) : (s.modTeam i f).groups = s.groups := rfl
@[simp] theorem State.modTeam_grids (s : State) (i : Nat) (f : Team → Team) : (s.modTeam i f).grids = s.grids := rfl
@[simp] theorem State.modTeam_owners (s : State) (i : Nat) (f : Team → Team) : (s.modTeam i f).owners = s.owners := rfl
@[simp] theorem State.modTeam_sps (s : State) (i : Nat) (f : Team → Team) : (s.modTeam i f).sps = s.sps := rfl
@[simp] theorem State.modTeam_chains (s : State) (i : Nat) (f : Team → Team) : (s.modTeam i f).chains = s.chains := rfl
@[simp] theorem State.modTeam_steeps (s : State) (i : Nat) (f : Team → Team) : (s.modTeam i f).steeps = s.steeps := rfl
@[simp] theorem State.modTeam_rackings (s : State) (i : Nat) (f : Team → Team) : (s.modTeam i f).rackings = s.rackings := rfl
@[simp] theorem State.modTeam_banks (s : State) (i : Nat) (f : Team → Team) : (s.modTeam i f).banks = s.banks := rfl
@[simp] theorem State.modTeam_mem (s : State) (i : Nat) (f : Team → Team) : (s.modTeam i f).mem = s.mem := rfl
@[simp] theorem State.modTeam_stale (s : State) (i : Nat) (f : Team → Team) : (s.modTeam i f).stale = s.stale := rfl
@[simp] theorem State.modTeam_versions (s : State) (i : Nat) (f : Team → Team) : (s.modTeam i f).versions = s.versions := rfl
@[simp] theorem State.modTeam_poison (s : State) (i : Nat) (f : Team → Team) : (s.modTeam i f).poison = s.poison := rfl
@[simp] theorem State.modTeam_saved (s : State) (i : Nat) (f : Team → Team) : (s.modTeam i f).saved = s.saved := rfl
@[simp] theorem State.modTeam_keys (s : State) (i : Nat) (f : Team → Team) : (s.modTeam i f).keys = s.keys := rfl
@[simp] theorem State.modTeam_portKeys (s : State) (i : Nat) (f : Team → Team) : (s.modTeam i f).portKeys = s.portKeys := rfl
@[simp] theorem State.modTeam_flows (s : State) (i : Nat) (f : Team → Team) : (s.modTeam i f).flows = s.flows := rfl
@[simp] theorem State.modTeam_ports (s : State) (i : Nat) (f : Team → Team) : (s.modTeam i f).ports = s.ports := rfl
@[simp] theorem State.modTeam_lostPeers (s : State) (i : Nat) (f : Team → Team) : (s.modTeam i f).lostPeers = s.lostPeers := rfl
@[simp] theorem State.modTeam_worldEnds (s : State) (i : Nat) (f : Team → Team) : (s.modTeam i f).worldEnds = s.worldEnds := rfl
@[simp] theorem State.modTeam_routes (s : State) (i : Nat) (f : Team → Team) : (s.modTeam i f).routes = s.routes := rfl
@[simp] theorem State.modTeam_inbound (s : State) (i : Nat) (f : Team → Team) : (s.modTeam i f).inbound = s.inbound := rfl
@[simp] theorem State.modTeam_events (s : State) (i : Nat) (f : Team → Team) : (s.modTeam i f).events = s.events := rfl
@[simp] theorem State.modTeam_violations (s : State) (i : Nat) (f : Team → Team) : (s.modTeam i f).violations = s.violations := rfl
@[simp] theorem State.modTeam_remaps (s : State) (i : Nat) (f : Team → Team) : (s.modTeam i f).remaps = s.remaps := rfl
@[simp] theorem State.modTeam_failedBonds (s : State) (i : Nat) (f : Team → Team) : (s.modTeam i f).failedBonds = s.failedBonds := rfl
@[simp] theorem State.modTeam_rowErrs (s : State) (i : Nat) (f : Team → Team) : (s.modTeam i f).rowErrs = s.rowErrs := rfl
@[simp] theorem State.modTeam_tagFails (s : State) (i : Nat) (f : Team → Team) : (s.modTeam i f).tagFails = s.tagFails := rfl
@[simp] theorem State.modTeam_bondErrs (s : State) (i : Nat) (f : Team → Team) : (s.modTeam i f).bondErrs = s.bondErrs := rfl
@[simp] theorem State.modTeam_sessions (s : State) (i : Nat) (f : Team → Team) : (s.modTeam i f).sessions = s.sessions := rfl
@[simp] theorem State.modTeam_retiredBanks (s : State) (i : Nat) (f : Team → Team) : (s.modTeam i f).retiredBanks = s.retiredBanks := rfl
@[simp] theorem State.modTeam_retiredCores (s : State) (i : Nat) (f : Team → Team) : (s.modTeam i f).retiredCores = s.retiredCores := rfl
@[simp] theorem State.modTeam_sdcCount (s : State) (i : Nat) (f : Team → Team) : (s.modTeam i f).sdcCount = s.sdcCount := rfl
@[simp] theorem State.modTeam_meWake (s : State) (i : Nat) (f : Team → Team) : (s.modTeam i f).meWake = s.meWake := rfl
@[simp] theorem State.modTeam_kilnStopped (s : State) (i : Nat) (f : Team → Team) : (s.modTeam i f).kilnStopped = s.kilnStopped := rfl
@[simp] theorem State.modTeam_bringUp (s : State) (i : Nat) (f : Team → Team) : (s.modTeam i f).bringUp = s.bringUp := rfl
@[simp] theorem State.modTeam_spAt (s : State) (i : Nat) (f : Team → Team) : (s.modTeam i f).spAt = s.spAt := rfl
@[simp] theorem State.modTeam_minVersion (s : State) (i : Nat) (f : Team → Team) : (s.modTeam i f).minVersion = s.minVersion := rfl
@[simp] theorem State.modTeam_version (s : State) (i : Nat) (f : Team → Team) : (s.modTeam i f).version = s.version := rfl
@[simp] theorem State.modTeam_firmware (s : State) (i : Nat) (f : Team → Team) : (s.modTeam i f).firmware = s.firmware := rfl
@[simp] theorem State.modTeam_cdi0 (s : State) (i : Nat) (f : Team → Team) : (s.modTeam i f).cdi0 = s.cdi0 := rfl
@[simp] theorem State.modTeam_seedLocked (s : State) (i : Nat) (f : Team → Team) : (s.modTeam i f).seedLocked = s.seedLocked := rfl
@[simp] theorem State.modTeam_failUnit (s : State) (i : Nat) (f : Team → Team) : (s.modTeam i f).failUnit = s.failUnit := rfl
@[simp] theorem State.modTeam_stepAt (s : State) (i : Nat) (f : Team → Team) : (s.modTeam i f).stepAt = s.stepAt := rfl
@[simp] theorem State.modTeam_regs (s : State) (i : Nat) (f : Team → Team) : (s.modTeam i f).regs = s.regs := rfl
@[simp] theorem State.modTeam_pwr (s : State) (i : Nat) (f : Team → Team) : (s.modTeam i f).pwr = s.pwr := rfl
@[simp] theorem State.modTeam_temp (s : State) (i : Nat) (f : Team → Team) : (s.modTeam i f).temp = s.temp := rfl
@[simp] theorem State.modTeam_aclk (s : State) (i : Nat) (f : Team → Team) : (s.modTeam i f).aclk = s.aclk := rfl
@[simp] theorem State.modTeam_link (s : State) (i : Nat) (f : Team → Team) : (s.modTeam i f).link = s.link := rfl
@[simp] theorem State.modTeam_powerOff (s : State) (i : Nat) (f : Team → Team) : (s.modTeam i f).powerOff = s.powerOff := rfl
@[simp] theorem State.modTeam_cyc (s : State) (i : Nat) (f : Team → Team) : (s.modTeam i f).cyc = s.cyc := rfl
@[simp] theorem State.modTeam_answer (s : State) (i : Nat) (f : Team → Team) : (s.modTeam i f).answer = s.answer := rfl
@[simp] theorem State.modTeam_nextId (s : State) (i : Nat) (f : Team → Team) : (s.modTeam i f).nextId = s.nextId := rfl
@[simp] theorem State.modTeam_nextSeq (s : State) (i : Nat) (f : Team → Team) : (s.modTeam i f).nextSeq = s.nextSeq := rfl
@[simp] theorem State.modTeam_freeCtr (s : State) (i : Nat) (f : Team → Team) : (s.modTeam i f).freeCtr = s.freeCtr := rfl
@[simp] theorem State.modTeam_turns (s : State) (i : Nat) (f : Team → Team) : (s.modTeam i f).turns = s.turns := rfl
@[simp] theorem State.modTeam_upsets (s : State) (i : Nat) (f : Team → Team) : (s.modTeam i f).upsets = s.upsets := rfl
@[simp] theorem State.modSp_cur (s : State) (i : Nat) (f : Sp → Sp) : (s.modSp i f).cur = s.cur := rfl
@[simp] theorem State.modSp_groups (s : State) (i : Nat) (f : Sp → Sp) : (s.modSp i f).groups = s.groups := rfl
@[simp] theorem State.modSp_teams (s : State) (i : Nat) (f : Sp → Sp) : (s.modSp i f).teams = s.teams := rfl
@[simp] theorem State.modSp_grids (s : State) (i : Nat) (f : Sp → Sp) : (s.modSp i f).grids = s.grids := rfl
@[simp] theorem State.modSp_owners (s : State) (i : Nat) (f : Sp → Sp) : (s.modSp i f).owners = s.owners := rfl
@[simp] theorem State.modSp_chains (s : State) (i : Nat) (f : Sp → Sp) : (s.modSp i f).chains = s.chains := rfl
@[simp] theorem State.modSp_steeps (s : State) (i : Nat) (f : Sp → Sp) : (s.modSp i f).steeps = s.steeps := rfl
@[simp] theorem State.modSp_rackings (s : State) (i : Nat) (f : Sp → Sp) : (s.modSp i f).rackings = s.rackings := rfl
@[simp] theorem State.modSp_banks (s : State) (i : Nat) (f : Sp → Sp) : (s.modSp i f).banks = s.banks := rfl
@[simp] theorem State.modSp_mem (s : State) (i : Nat) (f : Sp → Sp) : (s.modSp i f).mem = s.mem := rfl
@[simp] theorem State.modSp_stale (s : State) (i : Nat) (f : Sp → Sp) : (s.modSp i f).stale = s.stale := rfl
@[simp] theorem State.modSp_versions (s : State) (i : Nat) (f : Sp → Sp) : (s.modSp i f).versions = s.versions := rfl
@[simp] theorem State.modSp_poison (s : State) (i : Nat) (f : Sp → Sp) : (s.modSp i f).poison = s.poison := rfl
@[simp] theorem State.modSp_saved (s : State) (i : Nat) (f : Sp → Sp) : (s.modSp i f).saved = s.saved := rfl
@[simp] theorem State.modSp_keys (s : State) (i : Nat) (f : Sp → Sp) : (s.modSp i f).keys = s.keys := rfl
@[simp] theorem State.modSp_portKeys (s : State) (i : Nat) (f : Sp → Sp) : (s.modSp i f).portKeys = s.portKeys := rfl
@[simp] theorem State.modSp_flows (s : State) (i : Nat) (f : Sp → Sp) : (s.modSp i f).flows = s.flows := rfl
@[simp] theorem State.modSp_ports (s : State) (i : Nat) (f : Sp → Sp) : (s.modSp i f).ports = s.ports := rfl
@[simp] theorem State.modSp_lostPeers (s : State) (i : Nat) (f : Sp → Sp) : (s.modSp i f).lostPeers = s.lostPeers := rfl
@[simp] theorem State.modSp_worldEnds (s : State) (i : Nat) (f : Sp → Sp) : (s.modSp i f).worldEnds = s.worldEnds := rfl
@[simp] theorem State.modSp_routes (s : State) (i : Nat) (f : Sp → Sp) : (s.modSp i f).routes = s.routes := rfl
@[simp] theorem State.modSp_inbound (s : State) (i : Nat) (f : Sp → Sp) : (s.modSp i f).inbound = s.inbound := rfl
@[simp] theorem State.modSp_events (s : State) (i : Nat) (f : Sp → Sp) : (s.modSp i f).events = s.events := rfl
@[simp] theorem State.modSp_violations (s : State) (i : Nat) (f : Sp → Sp) : (s.modSp i f).violations = s.violations := rfl
@[simp] theorem State.modSp_remaps (s : State) (i : Nat) (f : Sp → Sp) : (s.modSp i f).remaps = s.remaps := rfl
@[simp] theorem State.modSp_failedBonds (s : State) (i : Nat) (f : Sp → Sp) : (s.modSp i f).failedBonds = s.failedBonds := rfl
@[simp] theorem State.modSp_rowErrs (s : State) (i : Nat) (f : Sp → Sp) : (s.modSp i f).rowErrs = s.rowErrs := rfl
@[simp] theorem State.modSp_tagFails (s : State) (i : Nat) (f : Sp → Sp) : (s.modSp i f).tagFails = s.tagFails := rfl
@[simp] theorem State.modSp_bondErrs (s : State) (i : Nat) (f : Sp → Sp) : (s.modSp i f).bondErrs = s.bondErrs := rfl
@[simp] theorem State.modSp_sessions (s : State) (i : Nat) (f : Sp → Sp) : (s.modSp i f).sessions = s.sessions := rfl
@[simp] theorem State.modSp_retiredBanks (s : State) (i : Nat) (f : Sp → Sp) : (s.modSp i f).retiredBanks = s.retiredBanks := rfl
@[simp] theorem State.modSp_retiredCores (s : State) (i : Nat) (f : Sp → Sp) : (s.modSp i f).retiredCores = s.retiredCores := rfl
@[simp] theorem State.modSp_sdcCount (s : State) (i : Nat) (f : Sp → Sp) : (s.modSp i f).sdcCount = s.sdcCount := rfl
@[simp] theorem State.modSp_meWake (s : State) (i : Nat) (f : Sp → Sp) : (s.modSp i f).meWake = s.meWake := rfl
@[simp] theorem State.modSp_kilnStopped (s : State) (i : Nat) (f : Sp → Sp) : (s.modSp i f).kilnStopped = s.kilnStopped := rfl
@[simp] theorem State.modSp_bringUp (s : State) (i : Nat) (f : Sp → Sp) : (s.modSp i f).bringUp = s.bringUp := rfl
@[simp] theorem State.modSp_spAt (s : State) (i : Nat) (f : Sp → Sp) : (s.modSp i f).spAt = s.spAt := rfl
@[simp] theorem State.modSp_minVersion (s : State) (i : Nat) (f : Sp → Sp) : (s.modSp i f).minVersion = s.minVersion := rfl
@[simp] theorem State.modSp_version (s : State) (i : Nat) (f : Sp → Sp) : (s.modSp i f).version = s.version := rfl
@[simp] theorem State.modSp_firmware (s : State) (i : Nat) (f : Sp → Sp) : (s.modSp i f).firmware = s.firmware := rfl
@[simp] theorem State.modSp_cdi0 (s : State) (i : Nat) (f : Sp → Sp) : (s.modSp i f).cdi0 = s.cdi0 := rfl
@[simp] theorem State.modSp_seedLocked (s : State) (i : Nat) (f : Sp → Sp) : (s.modSp i f).seedLocked = s.seedLocked := rfl
@[simp] theorem State.modSp_failUnit (s : State) (i : Nat) (f : Sp → Sp) : (s.modSp i f).failUnit = s.failUnit := rfl
@[simp] theorem State.modSp_stepAt (s : State) (i : Nat) (f : Sp → Sp) : (s.modSp i f).stepAt = s.stepAt := rfl
@[simp] theorem State.modSp_regs (s : State) (i : Nat) (f : Sp → Sp) : (s.modSp i f).regs = s.regs := rfl
@[simp] theorem State.modSp_pwr (s : State) (i : Nat) (f : Sp → Sp) : (s.modSp i f).pwr = s.pwr := rfl
@[simp] theorem State.modSp_temp (s : State) (i : Nat) (f : Sp → Sp) : (s.modSp i f).temp = s.temp := rfl
@[simp] theorem State.modSp_aclk (s : State) (i : Nat) (f : Sp → Sp) : (s.modSp i f).aclk = s.aclk := rfl
@[simp] theorem State.modSp_link (s : State) (i : Nat) (f : Sp → Sp) : (s.modSp i f).link = s.link := rfl
@[simp] theorem State.modSp_powerOff (s : State) (i : Nat) (f : Sp → Sp) : (s.modSp i f).powerOff = s.powerOff := rfl
@[simp] theorem State.modSp_cyc (s : State) (i : Nat) (f : Sp → Sp) : (s.modSp i f).cyc = s.cyc := rfl
@[simp] theorem State.modSp_answer (s : State) (i : Nat) (f : Sp → Sp) : (s.modSp i f).answer = s.answer := rfl
@[simp] theorem State.modSp_nextId (s : State) (i : Nat) (f : Sp → Sp) : (s.modSp i f).nextId = s.nextId := rfl
@[simp] theorem State.modSp_nextSeq (s : State) (i : Nat) (f : Sp → Sp) : (s.modSp i f).nextSeq = s.nextSeq := rfl
@[simp] theorem State.modSp_freeCtr (s : State) (i : Nat) (f : Sp → Sp) : (s.modSp i f).freeCtr = s.freeCtr := rfl
@[simp] theorem State.modSp_turns (s : State) (i : Nat) (f : Sp → Sp) : (s.modSp i f).turns = s.turns := rfl
@[simp] theorem State.modSp_upsets (s : State) (i : Nat) (f : Sp → Sp) : (s.modSp i f).upsets = s.upsets := rfl
@[simp] theorem State.modMe_cur (s : State) (i : Nat) (f : Me → Me) : (s.modMe i f).cur = s.cur := rfl
@[simp] theorem State.modMe_groups (s : State) (i : Nat) (f : Me → Me) : (s.modMe i f).groups = s.groups := rfl
@[simp] theorem State.modMe_teams (s : State) (i : Nat) (f : Me → Me) : (s.modMe i f).teams = s.teams := rfl
@[simp] theorem State.modMe_grids (s : State) (i : Nat) (f : Me → Me) : (s.modMe i f).grids = s.grids := rfl
@[simp] theorem State.modMe_owners (s : State) (i : Nat) (f : Me → Me) : (s.modMe i f).owners = s.owners := rfl
@[simp] theorem State.modMe_chains (s : State) (i : Nat) (f : Me → Me) : (s.modMe i f).chains = s.chains := rfl
@[simp] theorem State.modMe_steeps (s : State) (i : Nat) (f : Me → Me) : (s.modMe i f).steeps = s.steeps := rfl
@[simp] theorem State.modMe_rackings (s : State) (i : Nat) (f : Me → Me) : (s.modMe i f).rackings = s.rackings := rfl
@[simp] theorem State.modMe_banks (s : State) (i : Nat) (f : Me → Me) : (s.modMe i f).banks = s.banks := rfl
@[simp] theorem State.modMe_mem (s : State) (i : Nat) (f : Me → Me) : (s.modMe i f).mem = s.mem := rfl
@[simp] theorem State.modMe_stale (s : State) (i : Nat) (f : Me → Me) : (s.modMe i f).stale = s.stale := rfl
@[simp] theorem State.modMe_versions (s : State) (i : Nat) (f : Me → Me) : (s.modMe i f).versions = s.versions := rfl
@[simp] theorem State.modMe_poison (s : State) (i : Nat) (f : Me → Me) : (s.modMe i f).poison = s.poison := rfl
@[simp] theorem State.modMe_saved (s : State) (i : Nat) (f : Me → Me) : (s.modMe i f).saved = s.saved := rfl
@[simp] theorem State.modMe_keys (s : State) (i : Nat) (f : Me → Me) : (s.modMe i f).keys = s.keys := rfl
@[simp] theorem State.modMe_portKeys (s : State) (i : Nat) (f : Me → Me) : (s.modMe i f).portKeys = s.portKeys := rfl
@[simp] theorem State.modMe_flows (s : State) (i : Nat) (f : Me → Me) : (s.modMe i f).flows = s.flows := rfl
@[simp] theorem State.modMe_ports (s : State) (i : Nat) (f : Me → Me) : (s.modMe i f).ports = s.ports := rfl
@[simp] theorem State.modMe_lostPeers (s : State) (i : Nat) (f : Me → Me) : (s.modMe i f).lostPeers = s.lostPeers := rfl
@[simp] theorem State.modMe_worldEnds (s : State) (i : Nat) (f : Me → Me) : (s.modMe i f).worldEnds = s.worldEnds := rfl
@[simp] theorem State.modMe_routes (s : State) (i : Nat) (f : Me → Me) : (s.modMe i f).routes = s.routes := rfl
@[simp] theorem State.modMe_inbound (s : State) (i : Nat) (f : Me → Me) : (s.modMe i f).inbound = s.inbound := rfl
@[simp] theorem State.modMe_events (s : State) (i : Nat) (f : Me → Me) : (s.modMe i f).events = s.events := rfl
@[simp] theorem State.modMe_violations (s : State) (i : Nat) (f : Me → Me) : (s.modMe i f).violations = s.violations := rfl
@[simp] theorem State.modMe_remaps (s : State) (i : Nat) (f : Me → Me) : (s.modMe i f).remaps = s.remaps := rfl
@[simp] theorem State.modMe_failedBonds (s : State) (i : Nat) (f : Me → Me) : (s.modMe i f).failedBonds = s.failedBonds := rfl
@[simp] theorem State.modMe_rowErrs (s : State) (i : Nat) (f : Me → Me) : (s.modMe i f).rowErrs = s.rowErrs := rfl
@[simp] theorem State.modMe_tagFails (s : State) (i : Nat) (f : Me → Me) : (s.modMe i f).tagFails = s.tagFails := rfl
@[simp] theorem State.modMe_bondErrs (s : State) (i : Nat) (f : Me → Me) : (s.modMe i f).bondErrs = s.bondErrs := rfl
@[simp] theorem State.modMe_sessions (s : State) (i : Nat) (f : Me → Me) : (s.modMe i f).sessions = s.sessions := rfl
@[simp] theorem State.modMe_retiredBanks (s : State) (i : Nat) (f : Me → Me) : (s.modMe i f).retiredBanks = s.retiredBanks := rfl
@[simp] theorem State.modMe_retiredCores (s : State) (i : Nat) (f : Me → Me) : (s.modMe i f).retiredCores = s.retiredCores := rfl
@[simp] theorem State.modMe_sdcCount (s : State) (i : Nat) (f : Me → Me) : (s.modMe i f).sdcCount = s.sdcCount := rfl
@[simp] theorem State.modMe_meWake (s : State) (i : Nat) (f : Me → Me) : (s.modMe i f).meWake = s.meWake := rfl
@[simp] theorem State.modMe_kilnStopped (s : State) (i : Nat) (f : Me → Me) : (s.modMe i f).kilnStopped = s.kilnStopped := rfl
@[simp] theorem State.modMe_bringUp (s : State) (i : Nat) (f : Me → Me) : (s.modMe i f).bringUp = s.bringUp := rfl
@[simp] theorem State.modMe_spAt (s : State) (i : Nat) (f : Me → Me) : (s.modMe i f).spAt = s.spAt := rfl
@[simp] theorem State.modMe_minVersion (s : State) (i : Nat) (f : Me → Me) : (s.modMe i f).minVersion = s.minVersion := rfl
@[simp] theorem State.modMe_version (s : State) (i : Nat) (f : Me → Me) : (s.modMe i f).version = s.version := rfl
@[simp] theorem State.modMe_firmware (s : State) (i : Nat) (f : Me → Me) : (s.modMe i f).firmware = s.firmware := rfl
@[simp] theorem State.modMe_cdi0 (s : State) (i : Nat) (f : Me → Me) : (s.modMe i f).cdi0 = s.cdi0 := rfl
@[simp] theorem State.modMe_seedLocked (s : State) (i : Nat) (f : Me → Me) : (s.modMe i f).seedLocked = s.seedLocked := rfl
@[simp] theorem State.modMe_failUnit (s : State) (i : Nat) (f : Me → Me) : (s.modMe i f).failUnit = s.failUnit := rfl
@[simp] theorem State.modMe_stepAt (s : State) (i : Nat) (f : Me → Me) : (s.modMe i f).stepAt = s.stepAt := rfl
@[simp] theorem State.modMe_regs (s : State) (i : Nat) (f : Me → Me) : (s.modMe i f).regs = s.regs := rfl
@[simp] theorem State.modMe_pwr (s : State) (i : Nat) (f : Me → Me) : (s.modMe i f).pwr = s.pwr := rfl
@[simp] theorem State.modMe_temp (s : State) (i : Nat) (f : Me → Me) : (s.modMe i f).temp = s.temp := rfl
@[simp] theorem State.modMe_aclk (s : State) (i : Nat) (f : Me → Me) : (s.modMe i f).aclk = s.aclk := rfl
@[simp] theorem State.modMe_link (s : State) (i : Nat) (f : Me → Me) : (s.modMe i f).link = s.link := rfl
@[simp] theorem State.modMe_powerOff (s : State) (i : Nat) (f : Me → Me) : (s.modMe i f).powerOff = s.powerOff := rfl
@[simp] theorem State.modMe_cyc (s : State) (i : Nat) (f : Me → Me) : (s.modMe i f).cyc = s.cyc := rfl
@[simp] theorem State.modMe_answer (s : State) (i : Nat) (f : Me → Me) : (s.modMe i f).answer = s.answer := rfl
@[simp] theorem State.modMe_nextId (s : State) (i : Nat) (f : Me → Me) : (s.modMe i f).nextId = s.nextId := rfl
@[simp] theorem State.modMe_nextSeq (s : State) (i : Nat) (f : Me → Me) : (s.modMe i f).nextSeq = s.nextSeq := rfl
@[simp] theorem State.modMe_freeCtr (s : State) (i : Nat) (f : Me → Me) : (s.modMe i f).freeCtr = s.freeCtr := rfl
@[simp] theorem State.modMe_turns (s : State) (i : Nat) (f : Me → Me) : (s.modMe i f).turns = s.turns := rfl
@[simp] theorem State.modMe_upsets (s : State) (i : Nat) (f : Me → Me) : (s.modMe i f).upsets = s.upsets := rfl
@[simp] theorem State.modChain_cur (s : State) (i : Nat) (f : Chain → Chain) : (s.modChain i f).cur = s.cur := rfl
@[simp] theorem State.modChain_groups (s : State) (i : Nat) (f : Chain → Chain) : (s.modChain i f).groups = s.groups := rfl
@[simp] theorem State.modChain_teams (s : State) (i : Nat) (f : Chain → Chain) : (s.modChain i f).teams = s.teams := rfl
@[simp] theorem State.modChain_grids (s : State) (i : Nat) (f : Chain → Chain) : (s.modChain i f).grids = s.grids := rfl
@[simp] theorem State.modChain_owners (s : State) (i : Nat) (f : Chain → Chain) : (s.modChain i f).owners = s.owners := rfl
@[simp] theorem State.modChain_sps (s : State) (i : Nat) (f : Chain → Chain) : (s.modChain i f).sps = s.sps := rfl
@[simp] theorem State.modChain_steeps (s : State) (i : Nat) (f : Chain → Chain) : (s.modChain i f).steeps = s.steeps := rfl
@[simp] theorem State.modChain_rackings (s : State) (i : Nat) (f : Chain → Chain) : (s.modChain i f).rackings = s.rackings := rfl
@[simp] theorem State.modChain_banks (s : State) (i : Nat) (f : Chain → Chain) : (s.modChain i f).banks = s.banks := rfl
@[simp] theorem State.modChain_mem (s : State) (i : Nat) (f : Chain → Chain) : (s.modChain i f).mem = s.mem := rfl
@[simp] theorem State.modChain_stale (s : State) (i : Nat) (f : Chain → Chain) : (s.modChain i f).stale = s.stale := rfl
@[simp] theorem State.modChain_versions (s : State) (i : Nat) (f : Chain → Chain) : (s.modChain i f).versions = s.versions := rfl
@[simp] theorem State.modChain_poison (s : State) (i : Nat) (f : Chain → Chain) : (s.modChain i f).poison = s.poison := rfl
@[simp] theorem State.modChain_saved (s : State) (i : Nat) (f : Chain → Chain) : (s.modChain i f).saved = s.saved := rfl
@[simp] theorem State.modChain_keys (s : State) (i : Nat) (f : Chain → Chain) : (s.modChain i f).keys = s.keys := rfl
@[simp] theorem State.modChain_portKeys (s : State) (i : Nat) (f : Chain → Chain) : (s.modChain i f).portKeys = s.portKeys := rfl
@[simp] theorem State.modChain_flows (s : State) (i : Nat) (f : Chain → Chain) : (s.modChain i f).flows = s.flows := rfl
@[simp] theorem State.modChain_ports (s : State) (i : Nat) (f : Chain → Chain) : (s.modChain i f).ports = s.ports := rfl
@[simp] theorem State.modChain_lostPeers (s : State) (i : Nat) (f : Chain → Chain) : (s.modChain i f).lostPeers = s.lostPeers := rfl
@[simp] theorem State.modChain_worldEnds (s : State) (i : Nat) (f : Chain → Chain) : (s.modChain i f).worldEnds = s.worldEnds := rfl
@[simp] theorem State.modChain_routes (s : State) (i : Nat) (f : Chain → Chain) : (s.modChain i f).routes = s.routes := rfl
@[simp] theorem State.modChain_inbound (s : State) (i : Nat) (f : Chain → Chain) : (s.modChain i f).inbound = s.inbound := rfl
@[simp] theorem State.modChain_events (s : State) (i : Nat) (f : Chain → Chain) : (s.modChain i f).events = s.events := rfl
@[simp] theorem State.modChain_violations (s : State) (i : Nat) (f : Chain → Chain) : (s.modChain i f).violations = s.violations := rfl
@[simp] theorem State.modChain_remaps (s : State) (i : Nat) (f : Chain → Chain) : (s.modChain i f).remaps = s.remaps := rfl
@[simp] theorem State.modChain_failedBonds (s : State) (i : Nat) (f : Chain → Chain) : (s.modChain i f).failedBonds = s.failedBonds := rfl
@[simp] theorem State.modChain_rowErrs (s : State) (i : Nat) (f : Chain → Chain) : (s.modChain i f).rowErrs = s.rowErrs := rfl
@[simp] theorem State.modChain_tagFails (s : State) (i : Nat) (f : Chain → Chain) : (s.modChain i f).tagFails = s.tagFails := rfl
@[simp] theorem State.modChain_bondErrs (s : State) (i : Nat) (f : Chain → Chain) : (s.modChain i f).bondErrs = s.bondErrs := rfl
@[simp] theorem State.modChain_sessions (s : State) (i : Nat) (f : Chain → Chain) : (s.modChain i f).sessions = s.sessions := rfl
@[simp] theorem State.modChain_retiredBanks (s : State) (i : Nat) (f : Chain → Chain) : (s.modChain i f).retiredBanks = s.retiredBanks := rfl
@[simp] theorem State.modChain_retiredCores (s : State) (i : Nat) (f : Chain → Chain) : (s.modChain i f).retiredCores = s.retiredCores := rfl
@[simp] theorem State.modChain_sdcCount (s : State) (i : Nat) (f : Chain → Chain) : (s.modChain i f).sdcCount = s.sdcCount := rfl
@[simp] theorem State.modChain_meWake (s : State) (i : Nat) (f : Chain → Chain) : (s.modChain i f).meWake = s.meWake := rfl
@[simp] theorem State.modChain_kilnStopped (s : State) (i : Nat) (f : Chain → Chain) : (s.modChain i f).kilnStopped = s.kilnStopped := rfl
@[simp] theorem State.modChain_bringUp (s : State) (i : Nat) (f : Chain → Chain) : (s.modChain i f).bringUp = s.bringUp := rfl
@[simp] theorem State.modChain_spAt (s : State) (i : Nat) (f : Chain → Chain) : (s.modChain i f).spAt = s.spAt := rfl
@[simp] theorem State.modChain_minVersion (s : State) (i : Nat) (f : Chain → Chain) : (s.modChain i f).minVersion = s.minVersion := rfl
@[simp] theorem State.modChain_version (s : State) (i : Nat) (f : Chain → Chain) : (s.modChain i f).version = s.version := rfl
@[simp] theorem State.modChain_firmware (s : State) (i : Nat) (f : Chain → Chain) : (s.modChain i f).firmware = s.firmware := rfl
@[simp] theorem State.modChain_cdi0 (s : State) (i : Nat) (f : Chain → Chain) : (s.modChain i f).cdi0 = s.cdi0 := rfl
@[simp] theorem State.modChain_seedLocked (s : State) (i : Nat) (f : Chain → Chain) : (s.modChain i f).seedLocked = s.seedLocked := rfl
@[simp] theorem State.modChain_failUnit (s : State) (i : Nat) (f : Chain → Chain) : (s.modChain i f).failUnit = s.failUnit := rfl
@[simp] theorem State.modChain_stepAt (s : State) (i : Nat) (f : Chain → Chain) : (s.modChain i f).stepAt = s.stepAt := rfl
@[simp] theorem State.modChain_regs (s : State) (i : Nat) (f : Chain → Chain) : (s.modChain i f).regs = s.regs := rfl
@[simp] theorem State.modChain_pwr (s : State) (i : Nat) (f : Chain → Chain) : (s.modChain i f).pwr = s.pwr := rfl
@[simp] theorem State.modChain_temp (s : State) (i : Nat) (f : Chain → Chain) : (s.modChain i f).temp = s.temp := rfl
@[simp] theorem State.modChain_aclk (s : State) (i : Nat) (f : Chain → Chain) : (s.modChain i f).aclk = s.aclk := rfl
@[simp] theorem State.modChain_link (s : State) (i : Nat) (f : Chain → Chain) : (s.modChain i f).link = s.link := rfl
@[simp] theorem State.modChain_powerOff (s : State) (i : Nat) (f : Chain → Chain) : (s.modChain i f).powerOff = s.powerOff := rfl
@[simp] theorem State.modChain_cyc (s : State) (i : Nat) (f : Chain → Chain) : (s.modChain i f).cyc = s.cyc := rfl
@[simp] theorem State.modChain_answer (s : State) (i : Nat) (f : Chain → Chain) : (s.modChain i f).answer = s.answer := rfl
@[simp] theorem State.modChain_nextId (s : State) (i : Nat) (f : Chain → Chain) : (s.modChain i f).nextId = s.nextId := rfl
@[simp] theorem State.modChain_nextSeq (s : State) (i : Nat) (f : Chain → Chain) : (s.modChain i f).nextSeq = s.nextSeq := rfl
@[simp] theorem State.modChain_freeCtr (s : State) (i : Nat) (f : Chain → Chain) : (s.modChain i f).freeCtr = s.freeCtr := rfl
@[simp] theorem State.modChain_turns (s : State) (i : Nat) (f : Chain → Chain) : (s.modChain i f).turns = s.turns := rfl
@[simp] theorem State.modChain_upsets (s : State) (i : Nat) (f : Chain → Chain) : (s.modChain i f).upsets = s.upsets := rfl
@[simp] theorem State.modBank_cur (s : State) (i : Nat) (f : Bank → Bank) : (s.modBank i f).cur = s.cur := rfl
@[simp] theorem State.modBank_groups (s : State) (i : Nat) (f : Bank → Bank) : (s.modBank i f).groups = s.groups := rfl
@[simp] theorem State.modBank_teams (s : State) (i : Nat) (f : Bank → Bank) : (s.modBank i f).teams = s.teams := rfl
@[simp] theorem State.modBank_grids (s : State) (i : Nat) (f : Bank → Bank) : (s.modBank i f).grids = s.grids := rfl
@[simp] theorem State.modBank_owners (s : State) (i : Nat) (f : Bank → Bank) : (s.modBank i f).owners = s.owners := rfl
@[simp] theorem State.modBank_sps (s : State) (i : Nat) (f : Bank → Bank) : (s.modBank i f).sps = s.sps := rfl
@[simp] theorem State.modBank_chains (s : State) (i : Nat) (f : Bank → Bank) : (s.modBank i f).chains = s.chains := rfl
@[simp] theorem State.modBank_steeps (s : State) (i : Nat) (f : Bank → Bank) : (s.modBank i f).steeps = s.steeps := rfl
@[simp] theorem State.modBank_rackings (s : State) (i : Nat) (f : Bank → Bank) : (s.modBank i f).rackings = s.rackings := rfl
@[simp] theorem State.modBank_mem (s : State) (i : Nat) (f : Bank → Bank) : (s.modBank i f).mem = s.mem := rfl
@[simp] theorem State.modBank_stale (s : State) (i : Nat) (f : Bank → Bank) : (s.modBank i f).stale = s.stale := rfl
@[simp] theorem State.modBank_versions (s : State) (i : Nat) (f : Bank → Bank) : (s.modBank i f).versions = s.versions := rfl
@[simp] theorem State.modBank_poison (s : State) (i : Nat) (f : Bank → Bank) : (s.modBank i f).poison = s.poison := rfl
@[simp] theorem State.modBank_saved (s : State) (i : Nat) (f : Bank → Bank) : (s.modBank i f).saved = s.saved := rfl
@[simp] theorem State.modBank_keys (s : State) (i : Nat) (f : Bank → Bank) : (s.modBank i f).keys = s.keys := rfl
@[simp] theorem State.modBank_portKeys (s : State) (i : Nat) (f : Bank → Bank) : (s.modBank i f).portKeys = s.portKeys := rfl
@[simp] theorem State.modBank_flows (s : State) (i : Nat) (f : Bank → Bank) : (s.modBank i f).flows = s.flows := rfl
@[simp] theorem State.modBank_ports (s : State) (i : Nat) (f : Bank → Bank) : (s.modBank i f).ports = s.ports := rfl
@[simp] theorem State.modBank_lostPeers (s : State) (i : Nat) (f : Bank → Bank) : (s.modBank i f).lostPeers = s.lostPeers := rfl
@[simp] theorem State.modBank_worldEnds (s : State) (i : Nat) (f : Bank → Bank) : (s.modBank i f).worldEnds = s.worldEnds := rfl
@[simp] theorem State.modBank_routes (s : State) (i : Nat) (f : Bank → Bank) : (s.modBank i f).routes = s.routes := rfl
@[simp] theorem State.modBank_inbound (s : State) (i : Nat) (f : Bank → Bank) : (s.modBank i f).inbound = s.inbound := rfl
@[simp] theorem State.modBank_events (s : State) (i : Nat) (f : Bank → Bank) : (s.modBank i f).events = s.events := rfl
@[simp] theorem State.modBank_violations (s : State) (i : Nat) (f : Bank → Bank) : (s.modBank i f).violations = s.violations := rfl
@[simp] theorem State.modBank_remaps (s : State) (i : Nat) (f : Bank → Bank) : (s.modBank i f).remaps = s.remaps := rfl
@[simp] theorem State.modBank_failedBonds (s : State) (i : Nat) (f : Bank → Bank) : (s.modBank i f).failedBonds = s.failedBonds := rfl
@[simp] theorem State.modBank_rowErrs (s : State) (i : Nat) (f : Bank → Bank) : (s.modBank i f).rowErrs = s.rowErrs := rfl
@[simp] theorem State.modBank_tagFails (s : State) (i : Nat) (f : Bank → Bank) : (s.modBank i f).tagFails = s.tagFails := rfl
@[simp] theorem State.modBank_bondErrs (s : State) (i : Nat) (f : Bank → Bank) : (s.modBank i f).bondErrs = s.bondErrs := rfl
@[simp] theorem State.modBank_sessions (s : State) (i : Nat) (f : Bank → Bank) : (s.modBank i f).sessions = s.sessions := rfl
@[simp] theorem State.modBank_retiredBanks (s : State) (i : Nat) (f : Bank → Bank) : (s.modBank i f).retiredBanks = s.retiredBanks := rfl
@[simp] theorem State.modBank_retiredCores (s : State) (i : Nat) (f : Bank → Bank) : (s.modBank i f).retiredCores = s.retiredCores := rfl
@[simp] theorem State.modBank_sdcCount (s : State) (i : Nat) (f : Bank → Bank) : (s.modBank i f).sdcCount = s.sdcCount := rfl
@[simp] theorem State.modBank_meWake (s : State) (i : Nat) (f : Bank → Bank) : (s.modBank i f).meWake = s.meWake := rfl
@[simp] theorem State.modBank_kilnStopped (s : State) (i : Nat) (f : Bank → Bank) : (s.modBank i f).kilnStopped = s.kilnStopped := rfl
@[simp] theorem State.modBank_bringUp (s : State) (i : Nat) (f : Bank → Bank) : (s.modBank i f).bringUp = s.bringUp := rfl
@[simp] theorem State.modBank_spAt (s : State) (i : Nat) (f : Bank → Bank) : (s.modBank i f).spAt = s.spAt := rfl
@[simp] theorem State.modBank_minVersion (s : State) (i : Nat) (f : Bank → Bank) : (s.modBank i f).minVersion = s.minVersion := rfl
@[simp] theorem State.modBank_version (s : State) (i : Nat) (f : Bank → Bank) : (s.modBank i f).version = s.version := rfl
@[simp] theorem State.modBank_firmware (s : State) (i : Nat) (f : Bank → Bank) : (s.modBank i f).firmware = s.firmware := rfl
@[simp] theorem State.modBank_cdi0 (s : State) (i : Nat) (f : Bank → Bank) : (s.modBank i f).cdi0 = s.cdi0 := rfl
@[simp] theorem State.modBank_seedLocked (s : State) (i : Nat) (f : Bank → Bank) : (s.modBank i f).seedLocked = s.seedLocked := rfl
@[simp] theorem State.modBank_failUnit (s : State) (i : Nat) (f : Bank → Bank) : (s.modBank i f).failUnit = s.failUnit := rfl
@[simp] theorem State.modBank_stepAt (s : State) (i : Nat) (f : Bank → Bank) : (s.modBank i f).stepAt = s.stepAt := rfl
@[simp] theorem State.modBank_regs (s : State) (i : Nat) (f : Bank → Bank) : (s.modBank i f).regs = s.regs := rfl
@[simp] theorem State.modBank_pwr (s : State) (i : Nat) (f : Bank → Bank) : (s.modBank i f).pwr = s.pwr := rfl
@[simp] theorem State.modBank_temp (s : State) (i : Nat) (f : Bank → Bank) : (s.modBank i f).temp = s.temp := rfl
@[simp] theorem State.modBank_aclk (s : State) (i : Nat) (f : Bank → Bank) : (s.modBank i f).aclk = s.aclk := rfl
@[simp] theorem State.modBank_link (s : State) (i : Nat) (f : Bank → Bank) : (s.modBank i f).link = s.link := rfl
@[simp] theorem State.modBank_powerOff (s : State) (i : Nat) (f : Bank → Bank) : (s.modBank i f).powerOff = s.powerOff := rfl
@[simp] theorem State.modBank_cyc (s : State) (i : Nat) (f : Bank → Bank) : (s.modBank i f).cyc = s.cyc := rfl
@[simp] theorem State.modBank_answer (s : State) (i : Nat) (f : Bank → Bank) : (s.modBank i f).answer = s.answer := rfl
@[simp] theorem State.modBank_nextId (s : State) (i : Nat) (f : Bank → Bank) : (s.modBank i f).nextId = s.nextId := rfl
@[simp] theorem State.modBank_nextSeq (s : State) (i : Nat) (f : Bank → Bank) : (s.modBank i f).nextSeq = s.nextSeq := rfl
@[simp] theorem State.modBank_freeCtr (s : State) (i : Nat) (f : Bank → Bank) : (s.modBank i f).freeCtr = s.freeCtr := rfl
@[simp] theorem State.modBank_turns (s : State) (i : Nat) (f : Bank → Bank) : (s.modBank i f).turns = s.turns := rfl
@[simp] theorem State.modBank_upsets (s : State) (i : Nat) (f : Bank → Bank) : (s.modBank i f).upsets = s.upsets := rfl
@[simp] theorem State.modGroups_teams (s : State) (p : Group → Bool) (f : Group → Group) : (s.modGroups p f).teams = s.teams := rfl
@[simp] theorem State.modGroups_grids (s : State) (p : Group → Bool) (f : Group → Group) : (s.modGroups p f).grids = s.grids := rfl
@[simp] theorem State.modGroups_owners (s : State) (p : Group → Bool) (f : Group → Group) : (s.modGroups p f).owners = s.owners := rfl
@[simp] theorem State.modGroups_sps (s : State) (p : Group → Bool) (f : Group → Group) : (s.modGroups p f).sps = s.sps := rfl
@[simp] theorem State.modGroups_chains (s : State) (p : Group → Bool) (f : Group → Group) : (s.modGroups p f).chains = s.chains := rfl
@[simp] theorem State.modGroups_steeps (s : State) (p : Group → Bool) (f : Group → Group) : (s.modGroups p f).steeps = s.steeps := rfl
@[simp] theorem State.modGroups_rackings (s : State) (p : Group → Bool) (f : Group → Group) : (s.modGroups p f).rackings = s.rackings := rfl
@[simp] theorem State.modGroups_banks (s : State) (p : Group → Bool) (f : Group → Group) : (s.modGroups p f).banks = s.banks := rfl
@[simp] theorem State.modGroups_mem (s : State) (p : Group → Bool) (f : Group → Group) : (s.modGroups p f).mem = s.mem := rfl
@[simp] theorem State.modGroups_stale (s : State) (p : Group → Bool) (f : Group → Group) : (s.modGroups p f).stale = s.stale := rfl
@[simp] theorem State.modGroups_versions (s : State) (p : Group → Bool) (f : Group → Group) : (s.modGroups p f).versions = s.versions := rfl
@[simp] theorem State.modGroups_poison (s : State) (p : Group → Bool) (f : Group → Group) : (s.modGroups p f).poison = s.poison := rfl
@[simp] theorem State.modGroups_saved (s : State) (p : Group → Bool) (f : Group → Group) : (s.modGroups p f).saved = s.saved := rfl
@[simp] theorem State.modGroups_keys (s : State) (p : Group → Bool) (f : Group → Group) : (s.modGroups p f).keys = s.keys := rfl
@[simp] theorem State.modGroups_portKeys (s : State) (p : Group → Bool) (f : Group → Group) : (s.modGroups p f).portKeys = s.portKeys := rfl
@[simp] theorem State.modGroups_flows (s : State) (p : Group → Bool) (f : Group → Group) : (s.modGroups p f).flows = s.flows := rfl
@[simp] theorem State.modGroups_ports (s : State) (p : Group → Bool) (f : Group → Group) : (s.modGroups p f).ports = s.ports := rfl
@[simp] theorem State.modGroups_lostPeers (s : State) (p : Group → Bool) (f : Group → Group) : (s.modGroups p f).lostPeers = s.lostPeers := rfl
@[simp] theorem State.modGroups_worldEnds (s : State) (p : Group → Bool) (f : Group → Group) : (s.modGroups p f).worldEnds = s.worldEnds := rfl
@[simp] theorem State.modGroups_routes (s : State) (p : Group → Bool) (f : Group → Group) : (s.modGroups p f).routes = s.routes := rfl
@[simp] theorem State.modGroups_inbound (s : State) (p : Group → Bool) (f : Group → Group) : (s.modGroups p f).inbound = s.inbound := rfl
@[simp] theorem State.modGroups_events (s : State) (p : Group → Bool) (f : Group → Group) : (s.modGroups p f).events = s.events := rfl
@[simp] theorem State.modGroups_violations (s : State) (p : Group → Bool) (f : Group → Group) : (s.modGroups p f).violations = s.violations := rfl
@[simp] theorem State.modGroups_remaps (s : State) (p : Group → Bool) (f : Group → Group) : (s.modGroups p f).remaps = s.remaps := rfl
@[simp] theorem State.modGroups_failedBonds (s : State) (p : Group → Bool) (f : Group → Group) : (s.modGroups p f).failedBonds = s.failedBonds := rfl
@[simp] theorem State.modGroups_rowErrs (s : State) (p : Group → Bool) (f : Group → Group) : (s.modGroups p f).rowErrs = s.rowErrs := rfl
@[simp] theorem State.modGroups_tagFails (s : State) (p : Group → Bool) (f : Group → Group) : (s.modGroups p f).tagFails = s.tagFails := rfl
@[simp] theorem State.modGroups_bondErrs (s : State) (p : Group → Bool) (f : Group → Group) : (s.modGroups p f).bondErrs = s.bondErrs := rfl
@[simp] theorem State.modGroups_sessions (s : State) (p : Group → Bool) (f : Group → Group) : (s.modGroups p f).sessions = s.sessions := rfl
@[simp] theorem State.modGroups_retiredBanks (s : State) (p : Group → Bool) (f : Group → Group) : (s.modGroups p f).retiredBanks = s.retiredBanks := rfl
@[simp] theorem State.modGroups_retiredCores (s : State) (p : Group → Bool) (f : Group → Group) : (s.modGroups p f).retiredCores = s.retiredCores := rfl
@[simp] theorem State.modGroups_sdcCount (s : State) (p : Group → Bool) (f : Group → Group) : (s.modGroups p f).sdcCount = s.sdcCount := rfl
@[simp] theorem State.modGroups_meWake (s : State) (p : Group → Bool) (f : Group → Group) : (s.modGroups p f).meWake = s.meWake := rfl
@[simp] theorem State.modGroups_kilnStopped (s : State) (p : Group → Bool) (f : Group → Group) : (s.modGroups p f).kilnStopped = s.kilnStopped := rfl
@[simp] theorem State.modGroups_bringUp (s : State) (p : Group → Bool) (f : Group → Group) : (s.modGroups p f).bringUp = s.bringUp := rfl
@[simp] theorem State.modGroups_spAt (s : State) (p : Group → Bool) (f : Group → Group) : (s.modGroups p f).spAt = s.spAt := rfl
@[simp] theorem State.modGroups_minVersion (s : State) (p : Group → Bool) (f : Group → Group) : (s.modGroups p f).minVersion = s.minVersion := rfl
@[simp] theorem State.modGroups_version (s : State) (p : Group → Bool) (f : Group → Group) : (s.modGroups p f).version = s.version := rfl
@[simp] theorem State.modGroups_firmware (s : State) (p : Group → Bool) (f : Group → Group) : (s.modGroups p f).firmware = s.firmware := rfl
@[simp] theorem State.modGroups_cdi0 (s : State) (p : Group → Bool) (f : Group → Group) : (s.modGroups p f).cdi0 = s.cdi0 := rfl
@[simp] theorem State.modGroups_seedLocked (s : State) (p : Group → Bool) (f : Group → Group) : (s.modGroups p f).seedLocked = s.seedLocked := rfl
@[simp] theorem State.modGroups_failUnit (s : State) (p : Group → Bool) (f : Group → Group) : (s.modGroups p f).failUnit = s.failUnit := rfl
@[simp] theorem State.modGroups_stepAt (s : State) (p : Group → Bool) (f : Group → Group) : (s.modGroups p f).stepAt = s.stepAt := rfl
@[simp] theorem State.modGroups_regs (s : State) (p : Group → Bool) (f : Group → Group) : (s.modGroups p f).regs = s.regs := rfl
@[simp] theorem State.modGroups_pwr (s : State) (p : Group → Bool) (f : Group → Group) : (s.modGroups p f).pwr = s.pwr := rfl
@[simp] theorem State.modGroups_temp (s : State) (p : Group → Bool) (f : Group → Group) : (s.modGroups p f).temp = s.temp := rfl
@[simp] theorem State.modGroups_aclk (s : State) (p : Group → Bool) (f : Group → Group) : (s.modGroups p f).aclk = s.aclk := rfl
@[simp] theorem State.modGroups_link (s : State) (p : Group → Bool) (f : Group → Group) : (s.modGroups p f).link = s.link := rfl
@[simp] theorem State.modGroups_powerOff (s : State) (p : Group → Bool) (f : Group → Group) : (s.modGroups p f).powerOff = s.powerOff := rfl
@[simp] theorem State.modGroups_cyc (s : State) (p : Group → Bool) (f : Group → Group) : (s.modGroups p f).cyc = s.cyc := rfl
@[simp] theorem State.modGroups_answer (s : State) (p : Group → Bool) (f : Group → Group) : (s.modGroups p f).answer = s.answer := rfl
@[simp] theorem State.modGroups_nextId (s : State) (p : Group → Bool) (f : Group → Group) : (s.modGroups p f).nextId = s.nextId := rfl
@[simp] theorem State.modGroups_nextSeq (s : State) (p : Group → Bool) (f : Group → Group) : (s.modGroups p f).nextSeq = s.nextSeq := rfl
@[simp] theorem State.modGroups_freeCtr (s : State) (p : Group → Bool) (f : Group → Group) : (s.modGroups p f).freeCtr = s.freeCtr := rfl
@[simp] theorem State.modGroups_turns (s : State) (p : Group → Bool) (f : Group → Group) : (s.modGroups p f).turns = s.turns := rfl
@[simp] theorem State.modGroups_upsets (s : State) (p : Group → Bool) (f : Group → Group) : (s.modGroups p f).upsets = s.upsets := rfl
@[simp] theorem State.modContexts_teams (s : State) (p : Group → Bool) (f : Group → Group) : (s.modContexts p f).teams = s.teams := rfl
@[simp] theorem State.modContexts_grids (s : State) (p : Group → Bool) (f : Group → Group) : (s.modContexts p f).grids = s.grids := rfl
@[simp] theorem State.modContexts_owners (s : State) (p : Group → Bool) (f : Group → Group) : (s.modContexts p f).owners = s.owners := rfl
@[simp] theorem State.modContexts_chains (s : State) (p : Group → Bool) (f : Group → Group) : (s.modContexts p f).chains = s.chains := rfl
@[simp] theorem State.modContexts_steeps (s : State) (p : Group → Bool) (f : Group → Group) : (s.modContexts p f).steeps = s.steeps := rfl
@[simp] theorem State.modContexts_rackings (s : State) (p : Group → Bool) (f : Group → Group) : (s.modContexts p f).rackings = s.rackings := rfl
@[simp] theorem State.modContexts_banks (s : State) (p : Group → Bool) (f : Group → Group) : (s.modContexts p f).banks = s.banks := rfl
@[simp] theorem State.modContexts_mem (s : State) (p : Group → Bool) (f : Group → Group) : (s.modContexts p f).mem = s.mem := rfl
@[simp] theorem State.modContexts_stale (s : State) (p : Group → Bool) (f : Group → Group) : (s.modContexts p f).stale = s.stale := rfl
@[simp] theorem State.modContexts_versions (s : State) (p : Group → Bool) (f : Group → Group) : (s.modContexts p f).versions = s.versions := rfl
@[simp] theorem State.modContexts_poison (s : State) (p : Group → Bool) (f : Group → Group) : (s.modContexts p f).poison = s.poison := rfl
@[simp] theorem State.modContexts_keys (s : State) (p : Group → Bool) (f : Group → Group) : (s.modContexts p f).keys = s.keys := rfl
@[simp] theorem State.modContexts_portKeys (s : State) (p : Group → Bool) (f : Group → Group) : (s.modContexts p f).portKeys = s.portKeys := rfl
@[simp] theorem State.modContexts_flows (s : State) (p : Group → Bool) (f : Group → Group) : (s.modContexts p f).flows = s.flows := rfl
@[simp] theorem State.modContexts_ports (s : State) (p : Group → Bool) (f : Group → Group) : (s.modContexts p f).ports = s.ports := rfl
@[simp] theorem State.modContexts_lostPeers (s : State) (p : Group → Bool) (f : Group → Group) : (s.modContexts p f).lostPeers = s.lostPeers := rfl
@[simp] theorem State.modContexts_worldEnds (s : State) (p : Group → Bool) (f : Group → Group) : (s.modContexts p f).worldEnds = s.worldEnds := rfl
@[simp] theorem State.modContexts_routes (s : State) (p : Group → Bool) (f : Group → Group) : (s.modContexts p f).routes = s.routes := rfl
@[simp] theorem State.modContexts_inbound (s : State) (p : Group → Bool) (f : Group → Group) : (s.modContexts p f).inbound = s.inbound := rfl
@[simp] theorem State.modContexts_events (s : State) (p : Group → Bool) (f : Group → Group) : (s.modContexts p f).events = s.events := rfl
@[simp] theorem State.modContexts_violations (s : State) (p : Group → Bool) (f : Group → Group) : (s.modContexts p f).violations = s.violations := rfl
@[simp] theorem State.modContexts_remaps (s : State) (p : Group → Bool) (f : Group → Group) : (s.modContexts p f).remaps = s.remaps := rfl
@[simp] theorem State.modContexts_failedBonds (s : State) (p : Group → Bool) (f : Group → Group) : (s.modContexts p f).failedBonds = s.failedBonds := rfl
@[simp] theorem State.modContexts_rowErrs (s : State) (p : Group → Bool) (f : Group → Group) : (s.modContexts p f).rowErrs = s.rowErrs := rfl
@[simp] theorem State.modContexts_tagFails (s : State) (p : Group → Bool) (f : Group → Group) : (s.modContexts p f).tagFails = s.tagFails := rfl
@[simp] theorem State.modContexts_bondErrs (s : State) (p : Group → Bool) (f : Group → Group) : (s.modContexts p f).bondErrs = s.bondErrs := rfl
@[simp] theorem State.modContexts_sessions (s : State) (p : Group → Bool) (f : Group → Group) : (s.modContexts p f).sessions = s.sessions := rfl
@[simp] theorem State.modContexts_retiredBanks (s : State) (p : Group → Bool) (f : Group → Group) : (s.modContexts p f).retiredBanks = s.retiredBanks := rfl
@[simp] theorem State.modContexts_retiredCores (s : State) (p : Group → Bool) (f : Group → Group) : (s.modContexts p f).retiredCores = s.retiredCores := rfl
@[simp] theorem State.modContexts_sdcCount (s : State) (p : Group → Bool) (f : Group → Group) : (s.modContexts p f).sdcCount = s.sdcCount := rfl
@[simp] theorem State.modContexts_meWake (s : State) (p : Group → Bool) (f : Group → Group) : (s.modContexts p f).meWake = s.meWake := rfl
@[simp] theorem State.modContexts_kilnStopped (s : State) (p : Group → Bool) (f : Group → Group) : (s.modContexts p f).kilnStopped = s.kilnStopped := rfl
@[simp] theorem State.modContexts_bringUp (s : State) (p : Group → Bool) (f : Group → Group) : (s.modContexts p f).bringUp = s.bringUp := rfl
@[simp] theorem State.modContexts_spAt (s : State) (p : Group → Bool) (f : Group → Group) : (s.modContexts p f).spAt = s.spAt := rfl
@[simp] theorem State.modContexts_minVersion (s : State) (p : Group → Bool) (f : Group → Group) : (s.modContexts p f).minVersion = s.minVersion := rfl
@[simp] theorem State.modContexts_version (s : State) (p : Group → Bool) (f : Group → Group) : (s.modContexts p f).version = s.version := rfl
@[simp] theorem State.modContexts_firmware (s : State) (p : Group → Bool) (f : Group → Group) : (s.modContexts p f).firmware = s.firmware := rfl
@[simp] theorem State.modContexts_cdi0 (s : State) (p : Group → Bool) (f : Group → Group) : (s.modContexts p f).cdi0 = s.cdi0 := rfl
@[simp] theorem State.modContexts_seedLocked (s : State) (p : Group → Bool) (f : Group → Group) : (s.modContexts p f).seedLocked = s.seedLocked := rfl
@[simp] theorem State.modContexts_failUnit (s : State) (p : Group → Bool) (f : Group → Group) : (s.modContexts p f).failUnit = s.failUnit := rfl
@[simp] theorem State.modContexts_stepAt (s : State) (p : Group → Bool) (f : Group → Group) : (s.modContexts p f).stepAt = s.stepAt := rfl
@[simp] theorem State.modContexts_regs (s : State) (p : Group → Bool) (f : Group → Group) : (s.modContexts p f).regs = s.regs := rfl
@[simp] theorem State.modContexts_pwr (s : State) (p : Group → Bool) (f : Group → Group) : (s.modContexts p f).pwr = s.pwr := rfl
@[simp] theorem State.modContexts_temp (s : State) (p : Group → Bool) (f : Group → Group) : (s.modContexts p f).temp = s.temp := rfl
@[simp] theorem State.modContexts_aclk (s : State) (p : Group → Bool) (f : Group → Group) : (s.modContexts p f).aclk = s.aclk := rfl
@[simp] theorem State.modContexts_link (s : State) (p : Group → Bool) (f : Group → Group) : (s.modContexts p f).link = s.link := rfl
@[simp] theorem State.modContexts_powerOff (s : State) (p : Group → Bool) (f : Group → Group) : (s.modContexts p f).powerOff = s.powerOff := rfl
@[simp] theorem State.modContexts_cyc (s : State) (p : Group → Bool) (f : Group → Group) : (s.modContexts p f).cyc = s.cyc := rfl
@[simp] theorem State.modContexts_answer (s : State) (p : Group → Bool) (f : Group → Group) : (s.modContexts p f).answer = s.answer := rfl
@[simp] theorem State.modContexts_nextId (s : State) (p : Group → Bool) (f : Group → Group) : (s.modContexts p f).nextId = s.nextId := rfl
@[simp] theorem State.modContexts_nextSeq (s : State) (p : Group → Bool) (f : Group → Group) : (s.modContexts p f).nextSeq = s.nextSeq := rfl
@[simp] theorem State.modContexts_freeCtr (s : State) (p : Group → Bool) (f : Group → Group) : (s.modContexts p f).freeCtr = s.freeCtr := rfl
@[simp] theorem State.modContexts_turns (s : State) (p : Group → Bool) (f : Group → Group) : (s.modContexts p f).turns = s.turns := rfl
@[simp] theorem State.modContexts_upsets (s : State) (p : Group → Bool) (f : Group → Group) : (s.modContexts p f).upsets = s.upsets := rfl
@[simp] theorem State.modGid_teams (s : State) (i : Nat) (f : Group → Group) : (s.modGid i f).teams = s.teams := rfl
@[simp] theorem State.modGid_grids (s : State) (i : Nat) (f : Group → Group) : (s.modGid i f).grids = s.grids := rfl
@[simp] theorem State.modGid_owners (s : State) (i : Nat) (f : Group → Group) : (s.modGid i f).owners = s.owners := rfl
@[simp] theorem State.modGid_chains (s : State) (i : Nat) (f : Group → Group) : (s.modGid i f).chains = s.chains := rfl
@[simp] theorem State.modGid_steeps (s : State) (i : Nat) (f : Group → Group) : (s.modGid i f).steeps = s.steeps := rfl
@[simp] theorem State.modGid_rackings (s : State) (i : Nat) (f : Group → Group) : (s.modGid i f).rackings = s.rackings := rfl
@[simp] theorem State.modGid_banks (s : State) (i : Nat) (f : Group → Group) : (s.modGid i f).banks = s.banks := rfl
@[simp] theorem State.modGid_mem (s : State) (i : Nat) (f : Group → Group) : (s.modGid i f).mem = s.mem := rfl
@[simp] theorem State.modGid_stale (s : State) (i : Nat) (f : Group → Group) : (s.modGid i f).stale = s.stale := rfl
@[simp] theorem State.modGid_versions (s : State) (i : Nat) (f : Group → Group) : (s.modGid i f).versions = s.versions := rfl
@[simp] theorem State.modGid_poison (s : State) (i : Nat) (f : Group → Group) : (s.modGid i f).poison = s.poison := rfl
@[simp] theorem State.modGid_keys (s : State) (i : Nat) (f : Group → Group) : (s.modGid i f).keys = s.keys := rfl
@[simp] theorem State.modGid_portKeys (s : State) (i : Nat) (f : Group → Group) : (s.modGid i f).portKeys = s.portKeys := rfl
@[simp] theorem State.modGid_flows (s : State) (i : Nat) (f : Group → Group) : (s.modGid i f).flows = s.flows := rfl
@[simp] theorem State.modGid_ports (s : State) (i : Nat) (f : Group → Group) : (s.modGid i f).ports = s.ports := rfl
@[simp] theorem State.modGid_lostPeers (s : State) (i : Nat) (f : Group → Group) : (s.modGid i f).lostPeers = s.lostPeers := rfl
@[simp] theorem State.modGid_worldEnds (s : State) (i : Nat) (f : Group → Group) : (s.modGid i f).worldEnds = s.worldEnds := rfl
@[simp] theorem State.modGid_routes (s : State) (i : Nat) (f : Group → Group) : (s.modGid i f).routes = s.routes := rfl
@[simp] theorem State.modGid_inbound (s : State) (i : Nat) (f : Group → Group) : (s.modGid i f).inbound = s.inbound := rfl
@[simp] theorem State.modGid_events (s : State) (i : Nat) (f : Group → Group) : (s.modGid i f).events = s.events := rfl
@[simp] theorem State.modGid_violations (s : State) (i : Nat) (f : Group → Group) : (s.modGid i f).violations = s.violations := rfl
@[simp] theorem State.modGid_remaps (s : State) (i : Nat) (f : Group → Group) : (s.modGid i f).remaps = s.remaps := rfl
@[simp] theorem State.modGid_failedBonds (s : State) (i : Nat) (f : Group → Group) : (s.modGid i f).failedBonds = s.failedBonds := rfl
@[simp] theorem State.modGid_rowErrs (s : State) (i : Nat) (f : Group → Group) : (s.modGid i f).rowErrs = s.rowErrs := rfl
@[simp] theorem State.modGid_tagFails (s : State) (i : Nat) (f : Group → Group) : (s.modGid i f).tagFails = s.tagFails := rfl
@[simp] theorem State.modGid_bondErrs (s : State) (i : Nat) (f : Group → Group) : (s.modGid i f).bondErrs = s.bondErrs := rfl
@[simp] theorem State.modGid_sessions (s : State) (i : Nat) (f : Group → Group) : (s.modGid i f).sessions = s.sessions := rfl
@[simp] theorem State.modGid_retiredBanks (s : State) (i : Nat) (f : Group → Group) : (s.modGid i f).retiredBanks = s.retiredBanks := rfl
@[simp] theorem State.modGid_retiredCores (s : State) (i : Nat) (f : Group → Group) : (s.modGid i f).retiredCores = s.retiredCores := rfl
@[simp] theorem State.modGid_sdcCount (s : State) (i : Nat) (f : Group → Group) : (s.modGid i f).sdcCount = s.sdcCount := rfl
@[simp] theorem State.modGid_meWake (s : State) (i : Nat) (f : Group → Group) : (s.modGid i f).meWake = s.meWake := rfl
@[simp] theorem State.modGid_kilnStopped (s : State) (i : Nat) (f : Group → Group) : (s.modGid i f).kilnStopped = s.kilnStopped := rfl
@[simp] theorem State.modGid_bringUp (s : State) (i : Nat) (f : Group → Group) : (s.modGid i f).bringUp = s.bringUp := rfl
@[simp] theorem State.modGid_spAt (s : State) (i : Nat) (f : Group → Group) : (s.modGid i f).spAt = s.spAt := rfl
@[simp] theorem State.modGid_minVersion (s : State) (i : Nat) (f : Group → Group) : (s.modGid i f).minVersion = s.minVersion := rfl
@[simp] theorem State.modGid_version (s : State) (i : Nat) (f : Group → Group) : (s.modGid i f).version = s.version := rfl
@[simp] theorem State.modGid_firmware (s : State) (i : Nat) (f : Group → Group) : (s.modGid i f).firmware = s.firmware := rfl
@[simp] theorem State.modGid_cdi0 (s : State) (i : Nat) (f : Group → Group) : (s.modGid i f).cdi0 = s.cdi0 := rfl
@[simp] theorem State.modGid_seedLocked (s : State) (i : Nat) (f : Group → Group) : (s.modGid i f).seedLocked = s.seedLocked := rfl
@[simp] theorem State.modGid_failUnit (s : State) (i : Nat) (f : Group → Group) : (s.modGid i f).failUnit = s.failUnit := rfl
@[simp] theorem State.modGid_stepAt (s : State) (i : Nat) (f : Group → Group) : (s.modGid i f).stepAt = s.stepAt := rfl
@[simp] theorem State.modGid_regs (s : State) (i : Nat) (f : Group → Group) : (s.modGid i f).regs = s.regs := rfl
@[simp] theorem State.modGid_pwr (s : State) (i : Nat) (f : Group → Group) : (s.modGid i f).pwr = s.pwr := rfl
@[simp] theorem State.modGid_temp (s : State) (i : Nat) (f : Group → Group) : (s.modGid i f).temp = s.temp := rfl
@[simp] theorem State.modGid_aclk (s : State) (i : Nat) (f : Group → Group) : (s.modGid i f).aclk = s.aclk := rfl
@[simp] theorem State.modGid_link (s : State) (i : Nat) (f : Group → Group) : (s.modGid i f).link = s.link := rfl
@[simp] theorem State.modGid_powerOff (s : State) (i : Nat) (f : Group → Group) : (s.modGid i f).powerOff = s.powerOff := rfl
@[simp] theorem State.modGid_cyc (s : State) (i : Nat) (f : Group → Group) : (s.modGid i f).cyc = s.cyc := rfl
@[simp] theorem State.modGid_answer (s : State) (i : Nat) (f : Group → Group) : (s.modGid i f).answer = s.answer := rfl
@[simp] theorem State.modGid_nextId (s : State) (i : Nat) (f : Group → Group) : (s.modGid i f).nextId = s.nextId := rfl
@[simp] theorem State.modGid_nextSeq (s : State) (i : Nat) (f : Group → Group) : (s.modGid i f).nextSeq = s.nextSeq := rfl
@[simp] theorem State.modGid_freeCtr (s : State) (i : Nat) (f : Group → Group) : (s.modGid i f).freeCtr = s.freeCtr := rfl
@[simp] theorem State.modGid_turns (s : State) (i : Nat) (f : Group → Group) : (s.modGid i f).turns = s.turns := rfl
@[simp] theorem State.modGid_upsets (s : State) (i : Nat) (f : Group → Group) : (s.modGid i f).upsets = s.upsets := rfl
@[simp] theorem State.goOn_groups (s : State) (m : Mask) (n : Nat) : (s.goOn m n).groups = s.groups := rfl
@[simp] theorem State.goOn_teams (s : State) (m : Mask) (n : Nat) : (s.goOn m n).teams = s.teams := rfl
@[simp] theorem State.goOn_grids (s : State) (m : Mask) (n : Nat) : (s.goOn m n).grids = s.grids := rfl
@[simp] theorem State.goOn_owners (s : State) (m : Mask) (n : Nat) : (s.goOn m n).owners = s.owners := rfl
@[simp] theorem State.goOn_sps (s : State) (m : Mask) (n : Nat) : (s.goOn m n).sps = s.sps := rfl
@[simp] theorem State.goOn_chains (s : State) (m : Mask) (n : Nat) : (s.goOn m n).chains = s.chains := rfl
@[simp] theorem State.goOn_steeps (s : State) (m : Mask) (n : Nat) : (s.goOn m n).steeps = s.steeps := rfl
@[simp] theorem State.goOn_rackings (s : State) (m : Mask) (n : Nat) : (s.goOn m n).rackings = s.rackings := rfl
@[simp] theorem State.goOn_banks (s : State) (m : Mask) (n : Nat) : (s.goOn m n).banks = s.banks := rfl
@[simp] theorem State.goOn_mem (s : State) (m : Mask) (n : Nat) : (s.goOn m n).mem = s.mem := rfl
@[simp] theorem State.goOn_stale (s : State) (m : Mask) (n : Nat) : (s.goOn m n).stale = s.stale := rfl
@[simp] theorem State.goOn_versions (s : State) (m : Mask) (n : Nat) : (s.goOn m n).versions = s.versions := rfl
@[simp] theorem State.goOn_poison (s : State) (m : Mask) (n : Nat) : (s.goOn m n).poison = s.poison := rfl
@[simp] theorem State.goOn_saved (s : State) (m : Mask) (n : Nat) : (s.goOn m n).saved = s.saved := rfl
@[simp] theorem State.goOn_keys (s : State) (m : Mask) (n : Nat) : (s.goOn m n).keys = s.keys := rfl
@[simp] theorem State.goOn_portKeys (s : State) (m : Mask) (n : Nat) : (s.goOn m n).portKeys = s.portKeys := rfl
@[simp] theorem State.goOn_flows (s : State) (m : Mask) (n : Nat) : (s.goOn m n).flows = s.flows := rfl
@[simp] theorem State.goOn_ports (s : State) (m : Mask) (n : Nat) : (s.goOn m n).ports = s.ports := rfl
@[simp] theorem State.goOn_lostPeers (s : State) (m : Mask) (n : Nat) : (s.goOn m n).lostPeers = s.lostPeers := rfl
@[simp] theorem State.goOn_worldEnds (s : State) (m : Mask) (n : Nat) : (s.goOn m n).worldEnds = s.worldEnds := rfl
@[simp] theorem State.goOn_routes (s : State) (m : Mask) (n : Nat) : (s.goOn m n).routes = s.routes := rfl
@[simp] theorem State.goOn_inbound (s : State) (m : Mask) (n : Nat) : (s.goOn m n).inbound = s.inbound := rfl
@[simp] theorem State.goOn_events (s : State) (m : Mask) (n : Nat) : (s.goOn m n).events = s.events := rfl
@[simp] theorem State.goOn_violations (s : State) (m : Mask) (n : Nat) : (s.goOn m n).violations = s.violations := rfl
@[simp] theorem State.goOn_remaps (s : State) (m : Mask) (n : Nat) : (s.goOn m n).remaps = s.remaps := rfl
@[simp] theorem State.goOn_failedBonds (s : State) (m : Mask) (n : Nat) : (s.goOn m n).failedBonds = s.failedBonds := rfl
@[simp] theorem State.goOn_rowErrs (s : State) (m : Mask) (n : Nat) : (s.goOn m n).rowErrs = s.rowErrs := rfl
@[simp] theorem State.goOn_tagFails (s : State) (m : Mask) (n : Nat) : (s.goOn m n).tagFails = s.tagFails := rfl
@[simp] theorem State.goOn_bondErrs (s : State) (m : Mask) (n : Nat) : (s.goOn m n).bondErrs = s.bondErrs := rfl
@[simp] theorem State.goOn_sessions (s : State) (m : Mask) (n : Nat) : (s.goOn m n).sessions = s.sessions := rfl
@[simp] theorem State.goOn_retiredBanks (s : State) (m : Mask) (n : Nat) : (s.goOn m n).retiredBanks = s.retiredBanks := rfl
@[simp] theorem State.goOn_retiredCores (s : State) (m : Mask) (n : Nat) : (s.goOn m n).retiredCores = s.retiredCores := rfl
@[simp] theorem State.goOn_sdcCount (s : State) (m : Mask) (n : Nat) : (s.goOn m n).sdcCount = s.sdcCount := rfl
@[simp] theorem State.goOn_meWake (s : State) (m : Mask) (n : Nat) : (s.goOn m n).meWake = s.meWake := rfl
@[simp] theorem State.goOn_kilnStopped (s : State) (m : Mask) (n : Nat) : (s.goOn m n).kilnStopped = s.kilnStopped := rfl
@[simp] theorem State.goOn_bringUp (s : State) (m : Mask) (n : Nat) : (s.goOn m n).bringUp = s.bringUp := rfl
@[simp] theorem State.goOn_spAt (s : State) (m : Mask) (n : Nat) : (s.goOn m n).spAt = s.spAt := rfl
@[simp] theorem State.goOn_minVersion (s : State) (m : Mask) (n : Nat) : (s.goOn m n).minVersion = s.minVersion := rfl
@[simp] theorem State.goOn_version (s : State) (m : Mask) (n : Nat) : (s.goOn m n).version = s.version := rfl
@[simp] theorem State.goOn_firmware (s : State) (m : Mask) (n : Nat) : (s.goOn m n).firmware = s.firmware := rfl
@[simp] theorem State.goOn_cdi0 (s : State) (m : Mask) (n : Nat) : (s.goOn m n).cdi0 = s.cdi0 := rfl
@[simp] theorem State.goOn_seedLocked (s : State) (m : Mask) (n : Nat) : (s.goOn m n).seedLocked = s.seedLocked := rfl
@[simp] theorem State.goOn_failUnit (s : State) (m : Mask) (n : Nat) : (s.goOn m n).failUnit = s.failUnit := rfl
@[simp] theorem State.goOn_stepAt (s : State) (m : Mask) (n : Nat) : (s.goOn m n).stepAt = s.stepAt := rfl
@[simp] theorem State.goOn_regs (s : State) (m : Mask) (n : Nat) : (s.goOn m n).regs = s.regs := rfl
@[simp] theorem State.goOn_pwr (s : State) (m : Mask) (n : Nat) : (s.goOn m n).pwr = s.pwr := rfl
@[simp] theorem State.goOn_temp (s : State) (m : Mask) (n : Nat) : (s.goOn m n).temp = s.temp := rfl
@[simp] theorem State.goOn_aclk (s : State) (m : Mask) (n : Nat) : (s.goOn m n).aclk = s.aclk := rfl
@[simp] theorem State.goOn_link (s : State) (m : Mask) (n : Nat) : (s.goOn m n).link = s.link := rfl
@[simp] theorem State.goOn_powerOff (s : State) (m : Mask) (n : Nat) : (s.goOn m n).powerOff = s.powerOff := rfl
@[simp] theorem State.goOn_cyc (s : State) (m : Mask) (n : Nat) : (s.goOn m n).cyc = s.cyc := rfl
@[simp] theorem State.goOn_answer (s : State) (m : Mask) (n : Nat) : (s.goOn m n).answer = s.answer := rfl
@[simp] theorem State.goOn_nextId (s : State) (m : Mask) (n : Nat) : (s.goOn m n).nextId = s.nextId := rfl
@[simp] theorem State.goOn_nextSeq (s : State) (m : Mask) (n : Nat) : (s.goOn m n).nextSeq = s.nextSeq := rfl
@[simp] theorem State.goOn_freeCtr (s : State) (m : Mask) (n : Nat) : (s.goOn m n).freeCtr = s.freeCtr := rfl
@[simp] theorem State.goOn_turns (s : State) (m : Mask) (n : Nat) : (s.goOn m n).turns = s.turns := rfl
@[simp] theorem State.goOn_upsets (s : State) (m : Mask) (n : Nat) : (s.goOn m n).upsets = s.upsets := rfl
@[simp] theorem State.goTo_groups (s : State) (m : Mask) (f : Nat → DWord) : (s.goTo m f).groups = s.groups := rfl
@[simp] theorem State.goTo_teams (s : State) (m : Mask) (f : Nat → DWord) : (s.goTo m f).teams = s.teams := rfl
@[simp] theorem State.goTo_grids (s : State) (m : Mask) (f : Nat → DWord) : (s.goTo m f).grids = s.grids := rfl
@[simp] theorem State.goTo_owners (s : State) (m : Mask) (f : Nat → DWord) : (s.goTo m f).owners = s.owners := rfl
@[simp] theorem State.goTo_sps (s : State) (m : Mask) (f : Nat → DWord) : (s.goTo m f).sps = s.sps := rfl
@[simp] theorem State.goTo_chains (s : State) (m : Mask) (f : Nat → DWord) : (s.goTo m f).chains = s.chains := rfl
@[simp] theorem State.goTo_steeps (s : State) (m : Mask) (f : Nat → DWord) : (s.goTo m f).steeps = s.steeps := rfl
@[simp] theorem State.goTo_rackings (s : State) (m : Mask) (f : Nat → DWord) : (s.goTo m f).rackings = s.rackings := rfl
@[simp] theorem State.goTo_banks (s : State) (m : Mask) (f : Nat → DWord) : (s.goTo m f).banks = s.banks := rfl
@[simp] theorem State.goTo_mem (s : State) (m : Mask) (f : Nat → DWord) : (s.goTo m f).mem = s.mem := rfl
@[simp] theorem State.goTo_stale (s : State) (m : Mask) (f : Nat → DWord) : (s.goTo m f).stale = s.stale := rfl
@[simp] theorem State.goTo_versions (s : State) (m : Mask) (f : Nat → DWord) : (s.goTo m f).versions = s.versions := rfl
@[simp] theorem State.goTo_poison (s : State) (m : Mask) (f : Nat → DWord) : (s.goTo m f).poison = s.poison := rfl
@[simp] theorem State.goTo_saved (s : State) (m : Mask) (f : Nat → DWord) : (s.goTo m f).saved = s.saved := rfl
@[simp] theorem State.goTo_keys (s : State) (m : Mask) (f : Nat → DWord) : (s.goTo m f).keys = s.keys := rfl
@[simp] theorem State.goTo_portKeys (s : State) (m : Mask) (f : Nat → DWord) : (s.goTo m f).portKeys = s.portKeys := rfl
@[simp] theorem State.goTo_flows (s : State) (m : Mask) (f : Nat → DWord) : (s.goTo m f).flows = s.flows := rfl
@[simp] theorem State.goTo_ports (s : State) (m : Mask) (f : Nat → DWord) : (s.goTo m f).ports = s.ports := rfl
@[simp] theorem State.goTo_lostPeers (s : State) (m : Mask) (f : Nat → DWord) : (s.goTo m f).lostPeers = s.lostPeers := rfl
@[simp] theorem State.goTo_worldEnds (s : State) (m : Mask) (f : Nat → DWord) : (s.goTo m f).worldEnds = s.worldEnds := rfl
@[simp] theorem State.goTo_routes (s : State) (m : Mask) (f : Nat → DWord) : (s.goTo m f).routes = s.routes := rfl
@[simp] theorem State.goTo_inbound (s : State) (m : Mask) (f : Nat → DWord) : (s.goTo m f).inbound = s.inbound := rfl
@[simp] theorem State.goTo_events (s : State) (m : Mask) (f : Nat → DWord) : (s.goTo m f).events = s.events := rfl
@[simp] theorem State.goTo_violations (s : State) (m : Mask) (f : Nat → DWord) : (s.goTo m f).violations = s.violations := rfl
@[simp] theorem State.goTo_remaps (s : State) (m : Mask) (f : Nat → DWord) : (s.goTo m f).remaps = s.remaps := rfl
@[simp] theorem State.goTo_failedBonds (s : State) (m : Mask) (f : Nat → DWord) : (s.goTo m f).failedBonds = s.failedBonds := rfl
@[simp] theorem State.goTo_rowErrs (s : State) (m : Mask) (f : Nat → DWord) : (s.goTo m f).rowErrs = s.rowErrs := rfl
@[simp] theorem State.goTo_tagFails (s : State) (m : Mask) (f : Nat → DWord) : (s.goTo m f).tagFails = s.tagFails := rfl
@[simp] theorem State.goTo_bondErrs (s : State) (m : Mask) (f : Nat → DWord) : (s.goTo m f).bondErrs = s.bondErrs := rfl
@[simp] theorem State.goTo_sessions (s : State) (m : Mask) (f : Nat → DWord) : (s.goTo m f).sessions = s.sessions := rfl
@[simp] theorem State.goTo_retiredBanks (s : State) (m : Mask) (f : Nat → DWord) : (s.goTo m f).retiredBanks = s.retiredBanks := rfl
@[simp] theorem State.goTo_retiredCores (s : State) (m : Mask) (f : Nat → DWord) : (s.goTo m f).retiredCores = s.retiredCores := rfl
@[simp] theorem State.goTo_sdcCount (s : State) (m : Mask) (f : Nat → DWord) : (s.goTo m f).sdcCount = s.sdcCount := rfl
@[simp] theorem State.goTo_meWake (s : State) (m : Mask) (f : Nat → DWord) : (s.goTo m f).meWake = s.meWake := rfl
@[simp] theorem State.goTo_kilnStopped (s : State) (m : Mask) (f : Nat → DWord) : (s.goTo m f).kilnStopped = s.kilnStopped := rfl
@[simp] theorem State.goTo_bringUp (s : State) (m : Mask) (f : Nat → DWord) : (s.goTo m f).bringUp = s.bringUp := rfl
@[simp] theorem State.goTo_spAt (s : State) (m : Mask) (f : Nat → DWord) : (s.goTo m f).spAt = s.spAt := rfl
@[simp] theorem State.goTo_minVersion (s : State) (m : Mask) (f : Nat → DWord) : (s.goTo m f).minVersion = s.minVersion := rfl
@[simp] theorem State.goTo_version (s : State) (m : Mask) (f : Nat → DWord) : (s.goTo m f).version = s.version := rfl
@[simp] theorem State.goTo_firmware (s : State) (m : Mask) (f : Nat → DWord) : (s.goTo m f).firmware = s.firmware := rfl
@[simp] theorem State.goTo_cdi0 (s : State) (m : Mask) (f : Nat → DWord) : (s.goTo m f).cdi0 = s.cdi0 := rfl
@[simp] theorem State.goTo_seedLocked (s : State) (m : Mask) (f : Nat → DWord) : (s.goTo m f).seedLocked = s.seedLocked := rfl
@[simp] theorem State.goTo_failUnit (s : State) (m : Mask) (f : Nat → DWord) : (s.goTo m f).failUnit = s.failUnit := rfl
@[simp] theorem State.goTo_stepAt (s : State) (m : Mask) (f : Nat → DWord) : (s.goTo m f).stepAt = s.stepAt := rfl
@[simp] theorem State.goTo_regs (s : State) (m : Mask) (f : Nat → DWord) : (s.goTo m f).regs = s.regs := rfl
@[simp] theorem State.goTo_pwr (s : State) (m : Mask) (f : Nat → DWord) : (s.goTo m f).pwr = s.pwr := rfl
@[simp] theorem State.goTo_temp (s : State) (m : Mask) (f : Nat → DWord) : (s.goTo m f).temp = s.temp := rfl
@[simp] theorem State.goTo_aclk (s : State) (m : Mask) (f : Nat → DWord) : (s.goTo m f).aclk = s.aclk := rfl
@[simp] theorem State.goTo_link (s : State) (m : Mask) (f : Nat → DWord) : (s.goTo m f).link = s.link := rfl
@[simp] theorem State.goTo_powerOff (s : State) (m : Mask) (f : Nat → DWord) : (s.goTo m f).powerOff = s.powerOff := rfl
@[simp] theorem State.goTo_cyc (s : State) (m : Mask) (f : Nat → DWord) : (s.goTo m f).cyc = s.cyc := rfl
@[simp] theorem State.goTo_answer (s : State) (m : Mask) (f : Nat → DWord) : (s.goTo m f).answer = s.answer := rfl
@[simp] theorem State.goTo_nextId (s : State) (m : Mask) (f : Nat → DWord) : (s.goTo m f).nextId = s.nextId := rfl
@[simp] theorem State.goTo_nextSeq (s : State) (m : Mask) (f : Nat → DWord) : (s.goTo m f).nextSeq = s.nextSeq := rfl
@[simp] theorem State.goTo_freeCtr (s : State) (m : Mask) (f : Nat → DWord) : (s.goTo m f).freeCtr = s.freeCtr := rfl
@[simp] theorem State.goTo_turns (s : State) (m : Mask) (f : Nat → DWord) : (s.goTo m f).turns = s.turns := rfl
@[simp] theorem State.goTo_upsets (s : State) (m : Mask) (f : Nat → DWord) : (s.goTo m f).upsets = s.upsets := rfl
@[simp] theorem State.settle_groups (s : State) (m : Mask) : (s.settle m).groups = s.groups := rfl
@[simp] theorem State.settle_teams (s : State) (m : Mask) : (s.settle m).teams = s.teams := rfl
@[simp] theorem State.settle_grids (s : State) (m : Mask) : (s.settle m).grids = s.grids := rfl
@[simp] theorem State.settle_owners (s : State) (m : Mask) : (s.settle m).owners = s.owners := rfl
@[simp] theorem State.settle_sps (s : State) (m : Mask) : (s.settle m).sps = s.sps := rfl
@[simp] theorem State.settle_chains (s : State) (m : Mask) : (s.settle m).chains = s.chains := rfl
@[simp] theorem State.settle_steeps (s : State) (m : Mask) : (s.settle m).steeps = s.steeps := rfl
@[simp] theorem State.settle_rackings (s : State) (m : Mask) : (s.settle m).rackings = s.rackings := rfl
@[simp] theorem State.settle_banks (s : State) (m : Mask) : (s.settle m).banks = s.banks := rfl
@[simp] theorem State.settle_mem (s : State) (m : Mask) : (s.settle m).mem = s.mem := rfl
@[simp] theorem State.settle_stale (s : State) (m : Mask) : (s.settle m).stale = s.stale := rfl
@[simp] theorem State.settle_versions (s : State) (m : Mask) : (s.settle m).versions = s.versions := rfl
@[simp] theorem State.settle_poison (s : State) (m : Mask) : (s.settle m).poison = s.poison := rfl
@[simp] theorem State.settle_saved (s : State) (m : Mask) : (s.settle m).saved = s.saved := rfl
@[simp] theorem State.settle_keys (s : State) (m : Mask) : (s.settle m).keys = s.keys := rfl
@[simp] theorem State.settle_portKeys (s : State) (m : Mask) : (s.settle m).portKeys = s.portKeys := rfl
@[simp] theorem State.settle_flows (s : State) (m : Mask) : (s.settle m).flows = s.flows := rfl
@[simp] theorem State.settle_ports (s : State) (m : Mask) : (s.settle m).ports = s.ports := rfl
@[simp] theorem State.settle_lostPeers (s : State) (m : Mask) : (s.settle m).lostPeers = s.lostPeers := rfl
@[simp] theorem State.settle_worldEnds (s : State) (m : Mask) : (s.settle m).worldEnds = s.worldEnds := rfl
@[simp] theorem State.settle_routes (s : State) (m : Mask) : (s.settle m).routes = s.routes := rfl
@[simp] theorem State.settle_inbound (s : State) (m : Mask) : (s.settle m).inbound = s.inbound := rfl
@[simp] theorem State.settle_events (s : State) (m : Mask) : (s.settle m).events = s.events := rfl
@[simp] theorem State.settle_violations (s : State) (m : Mask) : (s.settle m).violations = s.violations := rfl
@[simp] theorem State.settle_remaps (s : State) (m : Mask) : (s.settle m).remaps = s.remaps := rfl
@[simp] theorem State.settle_failedBonds (s : State) (m : Mask) : (s.settle m).failedBonds = s.failedBonds := rfl
@[simp] theorem State.settle_rowErrs (s : State) (m : Mask) : (s.settle m).rowErrs = s.rowErrs := rfl
@[simp] theorem State.settle_tagFails (s : State) (m : Mask) : (s.settle m).tagFails = s.tagFails := rfl
@[simp] theorem State.settle_bondErrs (s : State) (m : Mask) : (s.settle m).bondErrs = s.bondErrs := rfl
@[simp] theorem State.settle_sessions (s : State) (m : Mask) : (s.settle m).sessions = s.sessions := rfl
@[simp] theorem State.settle_retiredBanks (s : State) (m : Mask) : (s.settle m).retiredBanks = s.retiredBanks := rfl
@[simp] theorem State.settle_retiredCores (s : State) (m : Mask) : (s.settle m).retiredCores = s.retiredCores := rfl
@[simp] theorem State.settle_sdcCount (s : State) (m : Mask) : (s.settle m).sdcCount = s.sdcCount := rfl
@[simp] theorem State.settle_meWake (s : State) (m : Mask) : (s.settle m).meWake = s.meWake := rfl
@[simp] theorem State.settle_kilnStopped (s : State) (m : Mask) : (s.settle m).kilnStopped = s.kilnStopped := rfl
@[simp] theorem State.settle_bringUp (s : State) (m : Mask) : (s.settle m).bringUp = s.bringUp := rfl
@[simp] theorem State.settle_spAt (s : State) (m : Mask) : (s.settle m).spAt = s.spAt := rfl
@[simp] theorem State.settle_minVersion (s : State) (m : Mask) : (s.settle m).minVersion = s.minVersion := rfl
@[simp] theorem State.settle_version (s : State) (m : Mask) : (s.settle m).version = s.version := rfl
@[simp] theorem State.settle_firmware (s : State) (m : Mask) : (s.settle m).firmware = s.firmware := rfl
@[simp] theorem State.settle_cdi0 (s : State) (m : Mask) : (s.settle m).cdi0 = s.cdi0 := rfl
@[simp] theorem State.settle_seedLocked (s : State) (m : Mask) : (s.settle m).seedLocked = s.seedLocked := rfl
@[simp] theorem State.settle_failUnit (s : State) (m : Mask) : (s.settle m).failUnit = s.failUnit := rfl
@[simp] theorem State.settle_stepAt (s : State) (m : Mask) : (s.settle m).stepAt = s.stepAt := rfl
@[simp] theorem State.settle_regs (s : State) (m : Mask) : (s.settle m).regs = s.regs := rfl
@[simp] theorem State.settle_pwr (s : State) (m : Mask) : (s.settle m).pwr = s.pwr := rfl
@[simp] theorem State.settle_temp (s : State) (m : Mask) : (s.settle m).temp = s.temp := rfl
@[simp] theorem State.settle_aclk (s : State) (m : Mask) : (s.settle m).aclk = s.aclk := rfl
@[simp] theorem State.settle_link (s : State) (m : Mask) : (s.settle m).link = s.link := rfl
@[simp] theorem State.settle_powerOff (s : State) (m : Mask) : (s.settle m).powerOff = s.powerOff := rfl
@[simp] theorem State.settle_cyc (s : State) (m : Mask) : (s.settle m).cyc = s.cyc := rfl
@[simp] theorem State.settle_answer (s : State) (m : Mask) : (s.settle m).answer = s.answer := rfl
@[simp] theorem State.settle_nextId (s : State) (m : Mask) : (s.settle m).nextId = s.nextId := rfl
@[simp] theorem State.settle_nextSeq (s : State) (m : Mask) : (s.settle m).nextSeq = s.nextSeq := rfl
@[simp] theorem State.settle_freeCtr (s : State) (m : Mask) : (s.settle m).freeCtr = s.freeCtr := rfl
@[simp] theorem State.settle_turns (s : State) (m : Mask) : (s.settle m).turns = s.turns := rfl
@[simp] theorem State.settle_upsets (s : State) (m : Mask) : (s.settle m).upsets = s.upsets := rfl
@[simp] theorem State.endRun_groups (s : State) : (s.endRun).groups = s.groups := rfl
@[simp] theorem State.endRun_teams (s : State) : (s.endRun).teams = s.teams := rfl
@[simp] theorem State.endRun_grids (s : State) : (s.endRun).grids = s.grids := rfl
@[simp] theorem State.endRun_owners (s : State) : (s.endRun).owners = s.owners := rfl
@[simp] theorem State.endRun_sps (s : State) : (s.endRun).sps = s.sps := rfl
@[simp] theorem State.endRun_chains (s : State) : (s.endRun).chains = s.chains := rfl
@[simp] theorem State.endRun_steeps (s : State) : (s.endRun).steeps = s.steeps := rfl
@[simp] theorem State.endRun_rackings (s : State) : (s.endRun).rackings = s.rackings := rfl
@[simp] theorem State.endRun_banks (s : State) : (s.endRun).banks = s.banks := rfl
@[simp] theorem State.endRun_mem (s : State) : (s.endRun).mem = s.mem := rfl
@[simp] theorem State.endRun_stale (s : State) : (s.endRun).stale = s.stale := rfl
@[simp] theorem State.endRun_versions (s : State) : (s.endRun).versions = s.versions := rfl
@[simp] theorem State.endRun_poison (s : State) : (s.endRun).poison = s.poison := rfl
@[simp] theorem State.endRun_saved (s : State) : (s.endRun).saved = s.saved := rfl
@[simp] theorem State.endRun_keys (s : State) : (s.endRun).keys = s.keys := rfl
@[simp] theorem State.endRun_portKeys (s : State) : (s.endRun).portKeys = s.portKeys := rfl
@[simp] theorem State.endRun_flows (s : State) : (s.endRun).flows = s.flows := rfl
@[simp] theorem State.endRun_ports (s : State) : (s.endRun).ports = s.ports := rfl
@[simp] theorem State.endRun_lostPeers (s : State) : (s.endRun).lostPeers = s.lostPeers := rfl
@[simp] theorem State.endRun_worldEnds (s : State) : (s.endRun).worldEnds = s.worldEnds := rfl
@[simp] theorem State.endRun_routes (s : State) : (s.endRun).routes = s.routes := rfl
@[simp] theorem State.endRun_inbound (s : State) : (s.endRun).inbound = s.inbound := rfl
@[simp] theorem State.endRun_events (s : State) : (s.endRun).events = s.events := rfl
@[simp] theorem State.endRun_violations (s : State) : (s.endRun).violations = s.violations := rfl
@[simp] theorem State.endRun_remaps (s : State) : (s.endRun).remaps = s.remaps := rfl
@[simp] theorem State.endRun_failedBonds (s : State) : (s.endRun).failedBonds = s.failedBonds := rfl
@[simp] theorem State.endRun_rowErrs (s : State) : (s.endRun).rowErrs = s.rowErrs := rfl
@[simp] theorem State.endRun_tagFails (s : State) : (s.endRun).tagFails = s.tagFails := rfl
@[simp] theorem State.endRun_bondErrs (s : State) : (s.endRun).bondErrs = s.bondErrs := rfl
@[simp] theorem State.endRun_sessions (s : State) : (s.endRun).sessions = s.sessions := rfl
@[simp] theorem State.endRun_retiredBanks (s : State) : (s.endRun).retiredBanks = s.retiredBanks := rfl
@[simp] theorem State.endRun_retiredCores (s : State) : (s.endRun).retiredCores = s.retiredCores := rfl
@[simp] theorem State.endRun_sdcCount (s : State) : (s.endRun).sdcCount = s.sdcCount := rfl
@[simp] theorem State.endRun_meWake (s : State) : (s.endRun).meWake = s.meWake := rfl
@[simp] theorem State.endRun_kilnStopped (s : State) : (s.endRun).kilnStopped = s.kilnStopped := rfl
@[simp] theorem State.endRun_bringUp (s : State) : (s.endRun).bringUp = s.bringUp := rfl
@[simp] theorem State.endRun_spAt (s : State) : (s.endRun).spAt = s.spAt := rfl
@[simp] theorem State.endRun_minVersion (s : State) : (s.endRun).minVersion = s.minVersion := rfl
@[simp] theorem State.endRun_version (s : State) : (s.endRun).version = s.version := rfl
@[simp] theorem State.endRun_firmware (s : State) : (s.endRun).firmware = s.firmware := rfl
@[simp] theorem State.endRun_cdi0 (s : State) : (s.endRun).cdi0 = s.cdi0 := rfl
@[simp] theorem State.endRun_seedLocked (s : State) : (s.endRun).seedLocked = s.seedLocked := rfl
@[simp] theorem State.endRun_failUnit (s : State) : (s.endRun).failUnit = s.failUnit := rfl
@[simp] theorem State.endRun_stepAt (s : State) : (s.endRun).stepAt = s.stepAt := rfl
@[simp] theorem State.endRun_regs (s : State) : (s.endRun).regs = s.regs := rfl
@[simp] theorem State.endRun_pwr (s : State) : (s.endRun).pwr = s.pwr := rfl
@[simp] theorem State.endRun_temp (s : State) : (s.endRun).temp = s.temp := rfl
@[simp] theorem State.endRun_aclk (s : State) : (s.endRun).aclk = s.aclk := rfl
@[simp] theorem State.endRun_link (s : State) : (s.endRun).link = s.link := rfl
@[simp] theorem State.endRun_powerOff (s : State) : (s.endRun).powerOff = s.powerOff := rfl
@[simp] theorem State.endRun_cyc (s : State) : (s.endRun).cyc = s.cyc := rfl
@[simp] theorem State.endRun_answer (s : State) : (s.endRun).answer = s.answer := rfl
@[simp] theorem State.endRun_nextId (s : State) : (s.endRun).nextId = s.nextId := rfl
@[simp] theorem State.endRun_nextSeq (s : State) : (s.endRun).nextSeq = s.nextSeq := rfl
@[simp] theorem State.endRun_freeCtr (s : State) : (s.endRun).freeCtr = s.freeCtr := rfl
@[simp] theorem State.endRun_turns (s : State) : (s.endRun).turns = s.turns := rfl
@[simp] theorem State.endRun_upsets (s : State) : (s.endRun).upsets = s.upsets := rfl
@[simp] theorem State.waitFor_groups (s : State) (m : Mask) (c : WaitCond) : (s.waitFor m c).groups = s.groups := rfl
@[simp] theorem State.waitFor_teams (s : State) (m : Mask) (c : WaitCond) : (s.waitFor m c).teams = s.teams := rfl
@[simp] theorem State.waitFor_grids (s : State) (m : Mask) (c : WaitCond) : (s.waitFor m c).grids = s.grids := rfl
@[simp] theorem State.waitFor_owners (s : State) (m : Mask) (c : WaitCond) : (s.waitFor m c).owners = s.owners := rfl
@[simp] theorem State.waitFor_sps (s : State) (m : Mask) (c : WaitCond) : (s.waitFor m c).sps = s.sps := rfl
@[simp] theorem State.waitFor_chains (s : State) (m : Mask) (c : WaitCond) : (s.waitFor m c).chains = s.chains := rfl
@[simp] theorem State.waitFor_steeps (s : State) (m : Mask) (c : WaitCond) : (s.waitFor m c).steeps = s.steeps := rfl
@[simp] theorem State.waitFor_rackings (s : State) (m : Mask) (c : WaitCond) : (s.waitFor m c).rackings = s.rackings := rfl
@[simp] theorem State.waitFor_banks (s : State) (m : Mask) (c : WaitCond) : (s.waitFor m c).banks = s.banks := rfl
@[simp] theorem State.waitFor_mem (s : State) (m : Mask) (c : WaitCond) : (s.waitFor m c).mem = s.mem := rfl
@[simp] theorem State.waitFor_stale (s : State) (m : Mask) (c : WaitCond) : (s.waitFor m c).stale = s.stale := rfl
@[simp] theorem State.waitFor_versions (s : State) (m : Mask) (c : WaitCond) : (s.waitFor m c).versions = s.versions := rfl
@[simp] theorem State.waitFor_poison (s : State) (m : Mask) (c : WaitCond) : (s.waitFor m c).poison = s.poison := rfl
@[simp] theorem State.waitFor_saved (s : State) (m : Mask) (c : WaitCond) : (s.waitFor m c).saved = s.saved := rfl
@[simp] theorem State.waitFor_keys (s : State) (m : Mask) (c : WaitCond) : (s.waitFor m c).keys = s.keys := rfl
@[simp] theorem State.waitFor_portKeys (s : State) (m : Mask) (c : WaitCond) : (s.waitFor m c).portKeys = s.portKeys := rfl
@[simp] theorem State.waitFor_flows (s : State) (m : Mask) (c : WaitCond) : (s.waitFor m c).flows = s.flows := rfl
@[simp] theorem State.waitFor_ports (s : State) (m : Mask) (c : WaitCond) : (s.waitFor m c).ports = s.ports := rfl
@[simp] theorem State.waitFor_lostPeers (s : State) (m : Mask) (c : WaitCond) : (s.waitFor m c).lostPeers = s.lostPeers := rfl
@[simp] theorem State.waitFor_worldEnds (s : State) (m : Mask) (c : WaitCond) : (s.waitFor m c).worldEnds = s.worldEnds := rfl
@[simp] theorem State.waitFor_routes (s : State) (m : Mask) (c : WaitCond) : (s.waitFor m c).routes = s.routes := rfl
@[simp] theorem State.waitFor_inbound (s : State) (m : Mask) (c : WaitCond) : (s.waitFor m c).inbound = s.inbound := rfl
@[simp] theorem State.waitFor_events (s : State) (m : Mask) (c : WaitCond) : (s.waitFor m c).events = s.events := rfl
@[simp] theorem State.waitFor_violations (s : State) (m : Mask) (c : WaitCond) : (s.waitFor m c).violations = s.violations := rfl
@[simp] theorem State.waitFor_remaps (s : State) (m : Mask) (c : WaitCond) : (s.waitFor m c).remaps = s.remaps := rfl
@[simp] theorem State.waitFor_failedBonds (s : State) (m : Mask) (c : WaitCond) : (s.waitFor m c).failedBonds = s.failedBonds := rfl
@[simp] theorem State.waitFor_rowErrs (s : State) (m : Mask) (c : WaitCond) : (s.waitFor m c).rowErrs = s.rowErrs := rfl
@[simp] theorem State.waitFor_tagFails (s : State) (m : Mask) (c : WaitCond) : (s.waitFor m c).tagFails = s.tagFails := rfl
@[simp] theorem State.waitFor_bondErrs (s : State) (m : Mask) (c : WaitCond) : (s.waitFor m c).bondErrs = s.bondErrs := rfl
@[simp] theorem State.waitFor_sessions (s : State) (m : Mask) (c : WaitCond) : (s.waitFor m c).sessions = s.sessions := rfl
@[simp] theorem State.waitFor_retiredBanks (s : State) (m : Mask) (c : WaitCond) : (s.waitFor m c).retiredBanks = s.retiredBanks := rfl
@[simp] theorem State.waitFor_retiredCores (s : State) (m : Mask) (c : WaitCond) : (s.waitFor m c).retiredCores = s.retiredCores := rfl
@[simp] theorem State.waitFor_sdcCount (s : State) (m : Mask) (c : WaitCond) : (s.waitFor m c).sdcCount = s.sdcCount := rfl
@[simp] theorem State.waitFor_meWake (s : State) (m : Mask) (c : WaitCond) : (s.waitFor m c).meWake = s.meWake := rfl
@[simp] theorem State.waitFor_kilnStopped (s : State) (m : Mask) (c : WaitCond) : (s.waitFor m c).kilnStopped = s.kilnStopped := rfl
@[simp] theorem State.waitFor_bringUp (s : State) (m : Mask) (c : WaitCond) : (s.waitFor m c).bringUp = s.bringUp := rfl
@[simp] theorem State.waitFor_spAt (s : State) (m : Mask) (c : WaitCond) : (s.waitFor m c).spAt = s.spAt := rfl
@[simp] theorem State.waitFor_minVersion (s : State) (m : Mask) (c : WaitCond) : (s.waitFor m c).minVersion = s.minVersion := rfl
@[simp] theorem State.waitFor_version (s : State) (m : Mask) (c : WaitCond) : (s.waitFor m c).version = s.version := rfl
@[simp] theorem State.waitFor_firmware (s : State) (m : Mask) (c : WaitCond) : (s.waitFor m c).firmware = s.firmware := rfl
@[simp] theorem State.waitFor_cdi0 (s : State) (m : Mask) (c : WaitCond) : (s.waitFor m c).cdi0 = s.cdi0 := rfl
@[simp] theorem State.waitFor_seedLocked (s : State) (m : Mask) (c : WaitCond) : (s.waitFor m c).seedLocked = s.seedLocked := rfl
@[simp] theorem State.waitFor_failUnit (s : State) (m : Mask) (c : WaitCond) : (s.waitFor m c).failUnit = s.failUnit := rfl
@[simp] theorem State.waitFor_stepAt (s : State) (m : Mask) (c : WaitCond) : (s.waitFor m c).stepAt = s.stepAt := rfl
@[simp] theorem State.waitFor_regs (s : State) (m : Mask) (c : WaitCond) : (s.waitFor m c).regs = s.regs := rfl
@[simp] theorem State.waitFor_pwr (s : State) (m : Mask) (c : WaitCond) : (s.waitFor m c).pwr = s.pwr := rfl
@[simp] theorem State.waitFor_temp (s : State) (m : Mask) (c : WaitCond) : (s.waitFor m c).temp = s.temp := rfl
@[simp] theorem State.waitFor_aclk (s : State) (m : Mask) (c : WaitCond) : (s.waitFor m c).aclk = s.aclk := rfl
@[simp] theorem State.waitFor_link (s : State) (m : Mask) (c : WaitCond) : (s.waitFor m c).link = s.link := rfl
@[simp] theorem State.waitFor_powerOff (s : State) (m : Mask) (c : WaitCond) : (s.waitFor m c).powerOff = s.powerOff := rfl
@[simp] theorem State.waitFor_cyc (s : State) (m : Mask) (c : WaitCond) : (s.waitFor m c).cyc = s.cyc := rfl
@[simp] theorem State.waitFor_answer (s : State) (m : Mask) (c : WaitCond) : (s.waitFor m c).answer = s.answer := rfl
@[simp] theorem State.waitFor_nextId (s : State) (m : Mask) (c : WaitCond) : (s.waitFor m c).nextId = s.nextId := rfl
@[simp] theorem State.waitFor_nextSeq (s : State) (m : Mask) (c : WaitCond) : (s.waitFor m c).nextSeq = s.nextSeq := rfl
@[simp] theorem State.waitFor_freeCtr (s : State) (m : Mask) (c : WaitCond) : (s.waitFor m c).freeCtr = s.freeCtr := rfl
@[simp] theorem State.waitFor_turns (s : State) (m : Mask) (c : WaitCond) : (s.waitFor m c).turns = s.turns := rfl
@[simp] theorem State.waitFor_upsets (s : State) (m : Mask) (c : WaitCond) : (s.waitFor m c).upsets = s.upsets := rfl

end Sys2Proof.Machine
end

