-- ==== Sys2Proof/Laws/Ops.lean ====
section
/-! SUPPORT. What the shared operations of Machine/Ops.lean do in a state in which no load is outstanding, in the
terms of Safety.lean. -/

set_option linter.unusedVariables false

namespace Sys2Proof.Machine

/-! ## Lookahead windows that are empty -/

theorem Group.deliverIf_settled (ctr : Nat) (g : Group) (p : OutRes → Bool) (h : g.outst = []) :
    g.deliverIf ctr p = g := by
  unfold Group.deliverIf
  rw [h]
  simp only [List.filter_nil, List.foldl_nil]
  cases g; simp_all

theorem Group.complete_settled (ctr : Nat) (g : Group) (m : Mask) (h : g.outst = []) : g.complete ctr m = g := by
  unfold Group.complete
  rw [h]
  simp only [List.map_nil]
  rw [Group.deliverIf_settled]
  · cases g; simp_all
  · rfl

theorem State.goOn_settled (s : State) (m : Mask) (len : Nat) (h : s.cur.outst = []) :
    s.goOn m len = { s with cur := s.cur.setPc m (fun _ => s.cur.ipc + BitVec.ofNat 64 len) } := by
  unfold State.goOn
  rw [Group.complete_settled _ _ _ h]

theorem State.goTo_settled (s : State) (m : Mask) (f : Nat → DWord) (h : s.cur.outst = []) :
    s.goTo m f = { s with cur := s.cur.setPc m f } := by
  unfold State.goTo
  rw [Group.complete_settled _ _ _ h]

theorem State.vreg_settled (s : State) (n r i : Nat) (h : s.cur.outst = []) : s.vreg n r i = s.cur.vraw r i := by
  unfold State.vreg; rw [h]; rfl

theorem State.preg_settled (s : State) (n r : Nat) (h : s.cur.outst = []) : s.preg n r = s.cur.p.get r := by
  unfold State.preg; rw [h]; rfl

theorem Group.vraw_setV (g : Group) (m : Mask) (r : Nat) (f : Nat → Word) (q i : Nat) (hi : i < 64) :
    (g.setV m r f).vraw q i = if q = r ∧ m.has i = true then f i else g.vraw q i := by
  unfold Group.vraw
  rw [Group.setV_v, SMap.get_setMany]
  by_cases hq : q = r
  · subst hq
    have h1 : 64 * q + i - 64 * q = i := by omega
    have h2 : 64 * q ≤ 64 * q + i ∧ 64 * q + i < 64 * q + 64 := by omega
    simp [h1, h2]
  · have h1 : ¬ (64 * r ≤ 64 * q + i ∧ 64 * q + i < 64 * r + 64) := by omega
    simp only [hq, false_and, if_false]
    rw [if_neg (fun hc => h1 ⟨hc.1, hc.2.1⟩)]

theorem Group.pc_setPc (g : Group) (m : Mask) (f : Nat → DWord) (i : Nat) (hi : i < 64) :
    (g.setPc m f).pc.get i = if m.has i = true then f i else g.pc.get i := by
  rw [Group.setPc_pc, SMap.get_setMany]
  simp [hi]

theorem Group.setV_settled (g : Group) (m : Mask) (r : Nat) (f : Nat → Word) (h : g.outst = []) :
    (g.setV m r f).outst = [] := by
  unfold Group.setV markClob; simp [h]

theorem Group.setP_settled (g : Group) (m : Mask) (r : Nat) (x : Mask) (h : g.outst = []) :
    (g.setP m r x).outst = [] := by
  unfold Group.setP markClob; simp [h]

/-! ## The common shapes of a word's effect -/

theorem State.wentOn_goOn (s u : State) (len : Nat) (hu : u.cur.outst = []) (hp : u.cur.pc = s.cur.pc)
    (hi : u.cur.ipc = s.cur.ipc) : s.wentOn (u.goOn s.cur.iss len) len := by
  intro l hl
  rw [State.goOn_settled _ _ _ hu, Group.pc_setPc _ _ _ _ hl, hp, hi]

/-- A lane-set word whose registers are allocated writes `f` to v(d) in its active lanes. -/
theorem State.laneAlu_wroteV (s : State) (h : Hdr) (ok : Bool) (d : Nat) (f : Nat → Word) (len : Nat) (ho : s.settled)
    (hok : ok = true) : s.wroteV (s.laneAlu h ok d f len) (s.active h) d len f := by
  unfold State.settled at ho
  have hu : (s.cur.setV (s.active h) d f).outst = [] := Group.setV_settled _ _ _ _ ho
  unfold State.laneAlu
  rw [if_pos hok]
  refine ⟨?_, ?_, State.wentOn_goOn _ _ _ hu rfl rfl, ?_⟩
  · intro l hl
    rw [State.goOn_settled _ _ _ hu]
    show (Group.vraw (s.cur.setV (s.active h) d f) d l) = _
    rw [Group.vraw_setV _ _ _ _ _ _ hl]; simp
  · intro r l hr hl
    rw [State.goOn_settled _ _ _ hu]
    show (Group.vraw (s.cur.setV (s.active h) d f) r l) = _
    rw [Group.vraw_setV _ _ _ _ _ _ hl]; simp [hr]
  · rw [State.goOn_settled _ _ _ hu]
    simp [State.modCur, Group.setPc, Group.setV, markClob, ho]

theorem State.onlyWentOn_goOn (s : State) (len : Nat) (ho : s.settled) : s.onlyWentOn (s.goOn s.cur.iss len) len :=
  ⟨State.wentOn_goOn _ _ _ ho rfl rfl, by rw [State.goOn_settled _ _ _ ho]; rfl⟩

theorem Group.sreg_setS (g : Group) (r : Nat) (x : Word) (q : Nat) :
    (g.setS r x).sreg q = if q = r then x else g.sreg q := by
  unfold Group.sreg; rw [Group.setS_s, SMap.get_set]

/-- A uniform word that is not guarded off writes `x` to s(d). -/
theorem State.uniAlu_wroteS (s : State) (h : Hdr) (ok : Bool) (d : Nat) (x : Word) (len : Nat) (ho : s.settled)
    (hok : ok = true) (hg : s.uguard h = true) : s.wroteS (s.uniAlu h ok (fun g => g.setS d x) len) d len x := by
  unfold State.uniAlu State.uniOp
  rw [if_pos hok, if_pos hg]
  have hu : (s.modCur (fun g => g.setS d x)).cur.outst = [] := ho
  refine ⟨?_, ?_, State.wentOn_goOn _ _ _ hu rfl rfl, ?_⟩
  · rw [State.goOn_settled _ _ _ hu]
    show (s.cur.setS d x).sreg d = x
    rw [Group.sreg_setS, if_pos rfl]
  · intro r hr
    rw [State.goOn_settled _ _ _ hu]
    show (s.cur.setS d x).sreg r = _
    rw [Group.sreg_setS, if_neg hr]
  · rw [State.goOn_settled _ _ _ hu]; rfl

/-- A uniform word that is guarded off only goes on. -/
theorem State.uniOp_off (s : State) (h : Hdr) (ok : Bool) (f : State → State) (len : Nat) (ho : s.settled)
    (hok : ok = true) (hg : s.uguard h = false) : s.onlyWentOn (s.uniOp h ok f len) len := by
  unfold State.uniOp
  rw [if_pos hok, hg]
  exact State.onlyWentOn_goOn s len ho

end Sys2Proof.Machine
end

