-- ==== Sys2Proof/Laws/PerInstr.lean ====
section
/-! SUPPORT. The family Encoding: the decoder reads a well-formed instruction word back from the number the
encoder writes for it, and a matrix command from its two words; the lemmas of the other constructors say that
these have no word of their own. -/

set_option linter.unusedVariables false
set_option linter.unusedSimpArgs false
set_option Elab.async false

namespace Sys2Proof.Laws.Encoding

/-- The SP of a matrix command that is not illegal. -/
def mxSp : Instr → Option Nat
  | .mxcfg sp _ _ _ _ => some sp
  | .mxzero sp _ => some sp
  | .mxwait sp _ _ => some sp
  | .mxrel sp _ _ => some sp
  | .mxmma sp _ _ _ _ => some sp
  | .mxdrain sp _ _ _ _ => some sp
  | .mxloop sp _ _ => some sp
  | .mxsig sp _ => some sp
  | .mxfence sp => some sp
  | .mxend sp => some sp
  | _ => none

/-- The numbers of the encoding are words of 32 bits, and decoding gives the instruction back. -/
def Concl (i : Instr) : Prop :=
  (∀ h, Machine.wordHdr i = some h → ∃ w rest, encode i = w :: rest ∧ w < 2 ^ 32 ∧
    ∀ l, decodeWord w ((rest ++ [l]).headD 0) = .ok i) ∧
  (∀ sp, mxSp i = some sp → ∃ lo hi, encode i = [lo, hi] ∧ lo < 2 ^ 32 ∧ hi < 2 ^ 32 ∧
    decodeMx sp (lo + 2 ^ 32 * hi) = i)

def Statement (i : Instr) : Prop := i.wf = true → Concl i

theorem lane_intro {i : Instr} {h : Hdr} {op area : Nat} {rest : List Nat} (hx : encode i = encWord 0 h op area :: rest)
    (hm : mxSp i = none) (hg : h.g < 8) (ho : op < 128) (ha : area < 1048576)
    (hd : ∀ l, decodeLane h (encWord 0 h op area) ((rest ++ [l]).headD 0) op = .ok i) : Concl i := by
  refine ⟨fun _ _ => ⟨_, rest, hx, encWord_lt _ _ _ _ (by decide) hg ho ha, fun l => ?_⟩, fun sp h => by (rw [hm] at h; cases h)⟩
  rw [decodeWord_enc 0 h op area _ (by decide) hg ho ha, if_pos rfl, hd]

theorem uni_intro {i : Instr} {h : Hdr} {op area : Nat} {rest : List Nat} (hx : encode i = encWord 1 h op area :: rest)
    (hm : mxSp i = none) (hg : h.g < 8) (ho : op < 128) (ha : area < 1048576)
    (hd : ∀ l, decodeUni h (encWord 1 h op area) ((rest ++ [l]).headD 0) op = .ok i) : Concl i := by
  refine ⟨fun _ _ => ⟨_, rest, hx, encWord_lt _ _ _ _ (by decide) hg ho ha, fun l => ?_⟩, fun sp h => by (rw [hm] at h; cases h)⟩
  rw [decodeWord_enc 1 h op area _ (by decide) hg ho ha, if_neg (by decide), hd]

/-- A constructor that is no word and no legal matrix command. -/
theorem none_intro {i : Instr} (h1 : Machine.wordHdr i = none) (h2 : mxSp i = none) : Statement i := by
  intro _
  exact ⟨fun h hh => by (rw [h1] at hh; cases hh), fun sp hs => by (rw [h2] at hs; cases hs)⟩

theorem mx_intro {i : Instr} {op f sp : Nat} (he : encode i = encMx op f) (h1 : Machine.wordHdr i = none)
    (hs : mxSp i = some sp) (ho : op < 64) (hf : f < 2 ^ 58) (hd : decodeMx sp (op * 2 ^ 58 + f) = i) : Statement i := by
  intro _
  refine ⟨fun h hh => by (rw [h1] at hh; cases hh), fun sp' hs' => ?_⟩
  obtain rfl : sp = sp' := by rw [hs] at hs'; exact Option.some.inj hs'
  refine ⟨_, _, he, Nat.mod_lt _ (by decide), by omega, ?_⟩
  have e : (op * 2 ^ 58 + f) % 2 ^ 32 + 2 ^ 32 * ((op * 2 ^ 58 + f) / 2 ^ 32) = op * 2 ^ 58 + f := Nat.mod_add_div _ _
  rw [e, hd]

theorem vadd (h : Hdr) (d : Nat) (a : Nat) (b : Nat) (k : AddK) : Statement (.vadd h d a b k) := by
  intro (hwf : (h.wf && decide (d < 64) && decide (a < 64) && decide (b < 64)) = true)
  simp only [Hdr.wf, Bool.and_eq_true, decide_eq_true_eq] at hwf
  obtain ⟨⟨⟨hg, h1⟩, h2⟩, h3⟩ := hwf
  obtain ⟨ha, f0, f1, f2, f3⟩ := flds0 0 h 0x00 d a b k.code h1 h2 h3 k.code_lt
  refine lane_intro rfl rfl hg (by decide) ha (fun l => ?_)
  rw [arm_vadd]
  simp only [f0, f1, f2, f3, AddK.ofCode_code, need_true, sub_some, bit_eq_one, beq_self_eq_true, BitVec.ofNat_toNat, BitVec.setWidth_eq, decide_true, h1, h2, h3]

theorem vsub (h : Hdr) (d : Nat) (a : Nat) (b : Nat) (k : AddK) : Statement (.vsub h d a b k) := by
  intro (hwf : (h.wf && decide (d < 64) && decide (a < 64) && decide (b < 64)) = true)
  simp only [Hdr.wf, Bool.and_eq_true, decide_eq_true_eq] at hwf
  obtain ⟨⟨⟨hg, h1⟩, h2⟩, h3⟩ := hwf
  obtain ⟨ha, f0, f1, f2, f3⟩ := flds0 0 h 0x01 d a b k.code h1 h2 h3 k.code_lt
  refine lane_intro rfl rfl hg (by decide) ha (fun l => ?_)
  rw [arm_vsub]
  simp only [f0, f1, f2, f3, AddK.ofCode_code, need_true, sub_some, bit_eq_one, beq_self_eq_true, BitVec.ofNat_toNat, BitVec.setWidth_eq, decide_true, h1, h2, h3]

theorem vmul (h : Hdr) (d : Nat) (a : Nat) (b : Nat) (k : MulK) : Statement (.vmul h d a b k) := by
  intro (hwf : (h.wf && decide (d < 64) && decide (a < 64) && decide (b < 64)) = true)
  simp only [Hdr.wf, Bool.and_eq_true, decide_eq_true_eq] at hwf
  obtain ⟨⟨⟨hg, h1⟩, h2⟩, h3⟩ := hwf
  obtain ⟨ha, f0, f1, f2, f3⟩ := flds0 0 h 0x02 d a b k.code h1 h2 h3 k.code_lt
  refine lane_intro rfl rfl hg (by decide) ha (fun l => ?_)
  rw [arm_vmul]
  simp only [f0, f1, f2, f3, MulK.ofCode_code, need_true, sub_some, bit_eq_one, beq_self_eq_true, BitVec.ofNat_toNat, BitVec.setWidth_eq, decide_true, h1, h2, h3]

theorem vmad (h : Hdr) (d : Nat) (a : Nat) (b : Nat) : Statement (.vmad h d a b) := by
  intro (hwf : (h.wf && decide (d < 64) && decide (a < 64) && decide (b < 64)) = true)
  simp only [Hdr.wf, Bool.and_eq_true, decide_eq_true_eq] at hwf
  obtain ⟨⟨⟨hg, h1⟩, h2⟩, h3⟩ := hwf
  obtain ⟨ha, f0, f1, f2, f3⟩ := flds1 0 h 0x03 d a b h1 h2 h3
  refine lane_intro rfl rfl hg (by decide) ha (fun l => ?_)
  rw [arm_vmad]
  simp only [f0, f1, f2, f3, need_true, sub_some, bit_eq_one, beq_self_eq_true, BitVec.ofNat_toNat, BitVec.setWidth_eq, decide_true, h1, h2, h3]

theorem vand (h : Hdr) (d : Nat) (a : Nat) (b : Nat) : Statement (.vand h d a b) := by
  intro (hwf : (h.wf && decide (d < 64) && decide (a < 64) && decide (b < 64)) = true)
  simp only [Hdr.wf, Bool.and_eq_true, decide_eq_true_eq] at hwf
  obtain ⟨⟨⟨hg, h1⟩, h2⟩, h3⟩ := hwf
  obtain ⟨ha, f0, f1, f2, f3⟩ := flds1 0 h 0x04 d a b h1 h2 h3
  refine lane_intro rfl rfl hg (by decide) ha (fun l => ?_)
  rw [arm_vand]
  simp only [f0, f1, f2, f3, need_true, sub_some, bit_eq_one, beq_self_eq_true, BitVec.ofNat_toNat, BitVec.setWidth_eq, decide_true, h1, h2, h3]

theorem vor (h : Hdr) (d : Nat) (a : Nat) (b : Nat) : Statement (.vor h d a b) := by
  intro (hwf : (h.wf && decide (d < 64) && decide (a < 64) && decide (b < 64)) = true)
  simp only [Hdr.wf, Bool.and_eq_true, decide_eq_true_eq] at hwf
  obtain ⟨⟨⟨hg, h1⟩, h2⟩, h3⟩ := hwf
  obtain ⟨ha, f0, f1, f2, f3⟩ := flds1 0 h 0x05 d a b h1 h2 h3
  refine lane_intro rfl rfl hg (by decide) ha (fun l => ?_)
  rw [arm_vor]
  simp only [f0, f1, f2, f3, need_true, sub_some, bit_eq_one, beq_self_eq_true, BitVec.ofNat_toNat, BitVec.setWidth_eq, decide_true, h1, h2, h3]

theorem vxor (h : Hdr) (d : Nat) (a : Nat) (b : Nat) : Statement (.vxor h d a b) := by
  intro (hwf : (h.wf && decide (d < 64) && decide (a < 64) && decide (b < 64)) = true)
  simp only [Hdr.wf, Bool.and_eq_true, decide_eq_true_eq] at hwf
  obtain ⟨⟨⟨hg, h1⟩, h2⟩, h3⟩ := hwf
  obtain ⟨ha, f0, f1, f2, f3⟩ := flds1 0 h 0x06 d a b h1 h2 h3
  refine lane_intro rfl rfl hg (by decide) ha (fun l => ?_)
  rw [arm_vxor]
  simp only [f0, f1, f2, f3, need_true, sub_some, bit_eq_one, beq_self_eq_true, BitVec.ofNat_toNat, BitVec.setWidth_eq, decide_true, h1, h2, h3]

theorem vandn (h : Hdr) (d : Nat) (a : Nat) (b : Nat) : Statement (.vandn h d a b) := by
  intro (hwf : (h.wf && decide (d < 64) && decide (a < 64) && decide (b < 64)) = true)
  simp only [Hdr.wf, Bool.and_eq_true, decide_eq_true_eq] at hwf
  obtain ⟨⟨⟨hg, h1⟩, h2⟩, h3⟩ := hwf
  obtain ⟨ha, f0, f1, f2, f3⟩ := flds1 0 h 0x07 d a b h1 h2 h3
  refine lane_intro rfl rfl hg (by decide) ha (fun l => ?_)
  rw [arm_vandn]
  simp only [f0, f1, f2, f3, need_true, sub_some, bit_eq_one, beq_self_eq_true, BitVec.ofNat_toNat, BitVec.setWidth_eq, decide_true, h1, h2, h3]

theorem vshl (h : Hdr) (d : Nat) (a : Nat) (b : Nat) : Statement (.vshl h d a b) := by
  intro (hwf : (h.wf && decide (d < 64) && decide (a < 64) && decide (b < 64)) = true)
  simp only [Hdr.wf, Bool.and_eq_true, decide_eq_true_eq] at hwf
  obtain ⟨⟨⟨hg, h1⟩, h2⟩, h3⟩ := hwf
  obtain ⟨ha, f0, f1, f2, f3⟩ := flds1 0 h 0x08 d a b h1 h2 h3
  refine lane_intro rfl rfl hg (by decide) ha (fun l => ?_)
  rw [arm_vshl]
  simp only [f0, f1, f2, f3, need_true, sub_some, bit_eq_one, beq_self_eq_true, BitVec.ofNat_toNat, BitVec.setWidth_eq, decide_true, h1, h2, h3]

theorem vshr (h : Hdr) (d : Nat) (a : Nat) (b : Nat) (k : ShrK) : Statement (.vshr h d a b k) := by
  intro (hwf : (h.wf && decide (d < 64) && decide (a < 64) && decide (b < 64)) = true)
  simp only [Hdr.wf, Bool.and_eq_true, decide_eq_true_eq] at hwf
  obtain ⟨⟨⟨hg, h1⟩, h2⟩, h3⟩ := hwf
  obtain ⟨ha, f0, f1, f2, f3⟩ := flds0 0 h 0x09 d a b k.code h1 h2 h3 k.code_lt
  refine lane_intro rfl rfl hg (by decide) ha (fun l => ?_)
  rw [arm_vshr]
  simp only [f0, f1, f2, f3, ShrK.ofCode_code, need_true, sub_some, bit_eq_one, beq_self_eq_true, BitVec.ofNat_toNat, BitVec.setWidth_eq, decide_true, h1, h2, h3]

theorem vmin (h : Hdr) (d : Nat) (a : Nat) (b : Nat) (k : SgnK) : Statement (.vmin h d a b k) := by
  intro (hwf : (h.wf && decide (d < 64) && decide (a < 64) && decide (b < 64)) = true)
  simp only [Hdr.wf, Bool.and_eq_true, decide_eq_true_eq] at hwf
  obtain ⟨⟨⟨hg, h1⟩, h2⟩, h3⟩ := hwf
  obtain ⟨ha, f0, f1, f2, f3⟩ := flds0 0 h 0x0A d a b k.code h1 h2 h3 k.code_lt
  refine lane_intro rfl rfl hg (by decide) ha (fun l => ?_)
  rw [arm_vmin]
  simp only [f0, f1, f2, f3, SgnK.ofCode_code, need_true, sub_some, bit_eq_one, beq_self_eq_true, BitVec.ofNat_toNat, BitVec.setWidth_eq, decide_true, h1, h2, h3]

theorem vmax (h : Hdr) (d : Nat) (a : Nat) (b : Nat) (k : SgnK) : Statement (.vmax h d a b k) := by
  intro (hwf : (h.wf && decide (d < 64) && decide (a < 64) && decide (b < 64)) = true)
  simp only [Hdr.wf, Bool.and_eq_true, decide_eq_true_eq] at hwf
  obtain ⟨⟨⟨hg, h1⟩, h2⟩, h3⟩ := hwf
  obtain ⟨ha, f0, f1, f2, f3⟩ := flds0 0 h 0x0B d a b k.code h1 h2 h3 k.code_lt
  refine lane_intro rfl rfl hg (by decide) ha (fun l => ?_)
  rw [arm_vmax]
  simp only [f0, f1, f2, f3, SgnK.ofCode_code, need_true, sub_some, bit_eq_one, beq_self_eq_true, BitVec.ofNat_toNat, BitVec.setWidth_eq, decide_true, h1, h2, h3]

theorem vaddi (h : Hdr) (d : Nat) (a : Nat) (imm : BitVec 8) : Statement (.vaddi h d a imm) := by
  intro (hwf : (h.wf && decide (d < 64) && decide (a < 64)) = true)
  simp only [Hdr.wf, Bool.and_eq_true, decide_eq_true_eq] at hwf
  obtain ⟨⟨hg, h1⟩, h2⟩ := hwf
  obtain ⟨ha, f0, f1, f2⟩ := flds2 0 h 0x0C d a imm.toNat h1 h2 imm.isLt
  refine lane_intro rfl rfl hg (by decide) ha (fun l => ?_)
  rw [arm_vaddi]
  simp only [f0, f1, f2, need_true, sub_some, bit_eq_one, beq_self_eq_true, BitVec.ofNat_toNat, BitVec.setWidth_eq, decide_true, h1, h2]

theorem vshi (h : Hdr) (d : Nat) (a : Nat) (k : ShiK) (n : Nat) : Statement (.vshi h d a k n) := by
  intro (hwf : (h.wf && decide (d < 64) && decide (a < 64) && decide (n < 32)) = true)
  simp only [Hdr.wf, Bool.and_eq_true, decide_eq_true_eq] at hwf
  obtain ⟨⟨⟨hg, h1⟩, h2⟩, h3⟩ := hwf
  obtain ⟨ha, f0, f1, f2, f3, f4⟩ := flds3 0 h 0x0D d a k.code n h1 h2 k.code_lt h3
  refine lane_intro rfl rfl hg (by decide) ha (fun l => ?_)
  rw [arm_vshi]
  simp only [f0, f1, f2, f3, f4, ShiK.ofCode_code, need_true, sub_some, bit_eq_one, beq_self_eq_true, BitVec.ofNat_toNat, BitVec.setWidth_eq, decide_true, h1, h2, h3]

theorem vmovi (h : Hdr) (d : Nat) (imm : BitVec 14) : Statement (.vmovi h d imm) := by
  intro (hwf : (h.wf && decide (d < 64)) = true)
  simp only [Hdr.wf, Bool.and_eq_true, decide_eq_true_eq] at hwf
  obtain ⟨hg, h1⟩ := hwf
  obtain ⟨ha, f0, f1⟩ := flds4 0 h 0x0E d imm.toNat h1 imm.isLt
  refine lane_intro rfl rfl hg (by decide) ha (fun l => ?_)
  rw [arm_vmovi]
  simp only [f0, f1, need_true, sub_some, bit_eq_one, beq_self_eq_true, BitVec.ofNat_toNat, BitVec.setWidth_eq, decide_true, h1]

theorem vmov (h : Hdr) (d : Nat) (a : Nat) : Statement (.vmov h d a) := by
  intro (hwf : (h.wf && decide (d < 64) && decide (a < 64)) = true)
  simp only [Hdr.wf, Bool.and_eq_true, decide_eq_true_eq] at hwf
  obtain ⟨⟨hg, h1⟩, h2⟩ := hwf
  obtain ⟨ha, f0, f1, f2, f3⟩ := flds5 0 h 0x0F d a h1 h2
  refine lane_intro rfl rfl hg (by decide) ha (fun l => ?_)
  rw [fam_decodeLaneFam0F, f3, arm_vmov _ _ 0]
  simp only [f0, f1, f2, f3, need_true, sub_some, bit_eq_one, beq_self_eq_true, BitVec.ofNat_toNat, BitVec.setWidth_eq, decide_true, h1, h2]

theorem vnot (h : Hdr) (d : Nat) (a : Nat) : Statement (.vnot h d a) := by
  intro (hwf : (h.wf && decide (d < 64) && decide (a < 64)) = true)
  simp only [Hdr.wf, Bool.and_eq_true, decide_eq_true_eq] at hwf
  obtain ⟨⟨hg, h1⟩, h2⟩ := hwf
  obtain ⟨ha, f0, f1, f2, f3⟩ := flds6 0 h 0x0F d a h1 h2
  refine lane_intro rfl rfl hg (by decide) ha (fun l => ?_)
  rw [fam_decodeLaneFam0F, f3, arm_vnot _ _ 0]
  simp only [f0, f1, f2, f3, need_true, sub_some, bit_eq_one, beq_self_eq_true, BitVec.ofNat_toNat, BitVec.setWidth_eq, decide_true, h1, h2]

theorem vneg (h : Hdr) (d : Nat) (a : Nat) : Statement (.vneg h d a) := by
  intro (hwf : (h.wf && decide (d < 64) && decide (a < 64)) = true)
  simp only [Hdr.wf, Bool.and_eq_true, decide_eq_true_eq] at hwf
  obtain ⟨⟨hg, h1⟩, h2⟩ := hwf
  obtain ⟨ha, f0, f1, f2, f3⟩ := flds7 0 h 0x0F d a h1 h2
  refine lane_intro rfl rfl hg (by decide) ha (fun l => ?_)
  rw [fam_decodeLaneFam0F, f3, arm_vneg _ _ 0]
  simp only [f0, f1, f2, f3, need_true, sub_some, bit_eq_one, beq_self_eq_true, BitVec.ofNat_toNat, BitVec.setWidth_eq, decide_true, h1, h2]

theorem vabs (h : Hdr) (d : Nat) (a : Nat) : Statement (.vabs h d a) := by
  intro (hwf : (h.wf && decide (d < 64) && decide (a < 64)) = true)
  simp only [Hdr.wf, Bool.and_eq_true, decide_eq_true_eq] at hwf
  obtain ⟨⟨hg, h1⟩, h2⟩ := hwf
  obtain ⟨ha, f0, f1, f2, f3⟩ := flds8 0 h 0x0F d a h1 h2
  refine lane_intro rfl rfl hg (by decide) ha (fun l => ?_)
  rw [fam_decodeLaneFam0F, f3, arm_vabs _ _ 0]
  simp only [f0, f1, f2, f3, need_true, sub_some, bit_eq_one, beq_self_eq_true, BitVec.ofNat_toNat, BitVec.setWidth_eq, decide_true, h1, h2]

theorem vpopc (h : Hdr) (d : Nat) (a : Nat) : Statement (.vpopc h d a) := by
  intro (hwf : (h.wf && decide (d < 64) && decide (a < 64)) = true)
  simp only [Hdr.wf, Bool.and_eq_true, decide_eq_true_eq] at hwf
  obtain ⟨⟨hg, h1⟩, h2⟩ := hwf
  obtain ⟨ha, f0, f1, f2, f3⟩ := flds9 0 h 0x0F d a h1 h2
  refine lane_intro rfl rfl hg (by decide) ha (fun l => ?_)
  rw [fam_decodeLaneFam0F, f3, arm_vpopc _ _ 0]
  simp only [f0, f1, f2, f3, need_true, sub_some, bit_eq_one, beq_self_eq_true, BitVec.ofNat_toNat, BitVec.setWidth_eq, decide_true, h1, h2]

theorem vclz (h : Hdr) (d : Nat) (a : Nat) : Statement (.vclz h d a) := by
  intro (hwf : (h.wf && decide (d < 64) && decide (a < 64)) = true)
  simp only [Hdr.wf, Bool.and_eq_true, decide_eq_true_eq] at hwf
  obtain ⟨⟨hg, h1⟩, h2⟩ := hwf
  obtain ⟨ha, f0, f1, f2, f3⟩ := flds10 0 h 0x0F d a h1 h2
  refine lane_intro rfl rfl hg (by decide) ha (fun l => ?_)
  rw [fam_decodeLaneFam0F, f3, arm_vclz _ _ 0]
  simp only [f0, f1, f2, f3, need_true, sub_some, bit_eq_one, beq_self_eq_true, BitVec.ofNat_toNat, BitVec.setWidth_eq, decide_true, h1, h2]

theorem vbrev (h : Hdr) (d : Nat) (a : Nat) : Statement (.vbrev h d a) := by
  intro (hwf : (h.wf && decide (d < 64) && decide (a < 64)) = true)
  simp only [Hdr.wf, Bool.and_eq_true, decide_eq_true_eq] at hwf
  obtain ⟨⟨hg, h1⟩, h2⟩ := hwf
  obtain ⟨ha, f0, f1, f2, f3⟩ := flds11 0 h 0x0F d a h1 h2
  refine lane_intro rfl rfl hg (by decide) ha (fun l => ?_)
  rw [fam_decodeLaneFam0F, f3, arm_vbrev _ _ 0]
  simp only [f0, f1, f2, f3, need_true, sub_some, bit_eq_one, beq_self_eq_true, BitVec.ofNat_toNat, BitVec.setWidth_eq, decide_true, h1, h2]

theorem vsext8 (h : Hdr) (d : Nat) (a : Nat) : Statement (.vsext8 h d a) := by
  intro (hwf : (h.wf && decide (d < 64) && decide (a < 64)) = true)
  simp only [Hdr.wf, Bool.and_eq_true, decide_eq_true_eq] at hwf
  obtain ⟨⟨hg, h1⟩, h2⟩ := hwf
  obtain ⟨ha, f0, f1, f2, f3⟩ := flds12 0 h 0x0F d a h1 h2
  refine lane_intro rfl rfl hg (by decide) ha (fun l => ?_)
  rw [fam_decodeLaneFam0F, f3, arm_vsext8 _ _ 0]
  simp only [f0, f1, f2, f3, need_true, sub_some, bit_eq_one, beq_self_eq_true, BitVec.ofNat_toNat, BitVec.setWidth_eq, decide_true, h1, h2]

theorem vsext16 (h : Hdr) (d : Nat) (a : Nat) : Statement (.vsext16 h d a) := by
  intro (hwf : (h.wf && decide (d < 64) && decide (a < 64)) = true)
  simp only [Hdr.wf, Bool.and_eq_true, decide_eq_true_eq] at hwf
  obtain ⟨⟨hg, h1⟩, h2⟩ := hwf
  obtain ⟨ha, f0, f1, f2, f3⟩ := flds13 0 h 0x0F d a h1 h2
  refine lane_intro rfl rfl hg (by decide) ha (fun l => ?_)
  rw [fam_decodeLaneFam0F, f3, arm_vsext16 _ _ 0]
  simp only [f0, f1, f2, f3, need_true, sub_some, bit_eq_one, beq_self_eq_true, BitVec.ofNat_toNat, BitVec.setWidth_eq, decide_true, h1, h2]

theorem vfadd (h : Hdr) (d : Nat) (a : Nat) (b : Nat) (k : FmtK) : Statement (.vfadd h d a b k) := by
  intro (hwf : (h.wf && decide (d < 64) && decide (a < 64) && decide (b < 64)) = true)
  simp only [Hdr.wf, Bool.and_eq_true, decide_eq_true_eq] at hwf
  obtain ⟨⟨⟨hg, h1⟩, h2⟩, h3⟩ := hwf
  obtain ⟨ha, f0, f1, f2, f3⟩ := flds0 0 h 0x10 d a b k.code h1 h2 h3 k.code_lt
  refine lane_intro rfl rfl hg (by decide) ha (fun l => ?_)
  rw [arm_vfadd]
  simp only [f0, f1, f2, f3, FmtK.ofCode_code, need_true, sub_some, bit_eq_one, beq_self_eq_true, BitVec.ofNat_toNat, BitVec.setWidth_eq, decide_true, h1, h2, h3]

theorem vfsub (h : Hdr) (d : Nat) (a : Nat) (b : Nat) (k : FmtK) : Statement (.vfsub h d a b k) := by
  intro (hwf : (h.wf && decide (d < 64) && decide (a < 64) && decide (b < 64)) = true)
  simp only [Hdr.wf, Bool.and_eq_true, decide_eq_true_eq] at hwf
  obtain ⟨⟨⟨hg, h1⟩, h2⟩, h3⟩ := hwf
  obtain ⟨ha, f0, f1, f2, f3⟩ := flds0 0 h 0x11 d a b k.code h1 h2 h3 k.code_lt
  refine lane_intro rfl rfl hg (by decide) ha (fun l => ?_)
  rw [arm_vfsub]
  simp only [f0, f1, f2, f3, FmtK.ofCode_code, need_true, sub_some, bit_eq_one, beq_self_eq_true, BitVec.ofNat_toNat, BitVec.setWidth_eq, decide_true, h1, h2, h3]

theorem vfmul (h : Hdr) (d : Nat) (a : Nat) (b : Nat) (k : FmtK) : Statement (.vfmul h d a b k) := by
  intro (hwf : (h.wf && decide (d < 64) && decide (a < 64) && decide (b < 64)) = true)
  simp only [Hdr.wf, Bool.and_eq_true, decide_eq_true_eq] at hwf
  obtain ⟨⟨⟨hg, h1⟩, h2⟩, h3⟩ := hwf
  obtain ⟨ha, f0, f1, f2, f3⟩ := flds0 0 h 0x12 d a b k.code h1 h2 h3 k.code_lt
  refine lane_intro rfl rfl hg (by decide) ha (fun l => ?_)
  rw [arm_vfmul]
  simp only [f0, f1, f2, f3, FmtK.ofCode_code, need_true, sub_some, bit_eq_one, beq_self_eq_true, BitVec.ofNat_toNat, BitVec.setWidth_eq, decide_true, h1, h2, h3]

theorem vfma (h : Hdr) (d : Nat) (a : Nat) (b : Nat) (k : FmtK) : Statement (.vfma h d a b k) := by
  intro (hwf : (h.wf && decide (d < 64) && decide (a < 64) && decide (b < 64)) = true)
  simp only [Hdr.wf, Bool.and_eq_true, decide_eq_true_eq] at hwf
  obtain ⟨⟨⟨hg, h1⟩, h2⟩, h3⟩ := hwf
  obtain ⟨ha, f0, f1, f2, f3⟩ := flds0 0 h 0x13 d a b k.code h1 h2 h3 k.code_lt
  refine lane_intro rfl rfl hg (by decide) ha (fun l => ?_)
  rw [arm_vfma]
  simp only [f0, f1, f2, f3, FmtK.ofCode_code, need_true, sub_some, bit_eq_one, beq_self_eq_true, BitVec.ofNat_toNat, BitVec.setWidth_eq, decide_true, h1, h2, h3]

theorem vfmin (h : Hdr) (d : Nat) (a : Nat) (b : Nat) (k : FmtK) : Statement (.vfmin h d a b k) := by
  intro (hwf : (h.wf && decide (d < 64) && decide (a < 64) && decide (b < 64)) = true)
  simp only [Hdr.wf, Bool.and_eq_true, decide_eq_true_eq] at hwf
  obtain ⟨⟨⟨hg, h1⟩, h2⟩, h3⟩ := hwf
  obtain ⟨ha, f0, f1, f2, f3⟩ := flds0 0 h 0x14 d a b k.code h1 h2 h3 k.code_lt
  refine lane_intro rfl rfl hg (by decide) ha (fun l => ?_)
  rw [arm_vfmin]
  simp only [f0, f1, f2, f3, FmtK.ofCode_code, need_true, sub_some, bit_eq_one, beq_self_eq_true, BitVec.ofNat_toNat, BitVec.setWidth_eq, decide_true, h1, h2, h3]

theorem vfmax (h : Hdr) (d : Nat) (a : Nat) (b : Nat) (k : FmtK) : Statement (.vfmax h d a b k) := by
  intro (hwf : (h.wf && decide (d < 64) && decide (a < 64) && decide (b < 64)) = true)
  simp only [Hdr.wf, Bool.and_eq_true, decide_eq_true_eq] at hwf
  obtain ⟨⟨⟨hg, h1⟩, h2⟩, h3⟩ := hwf
  obtain ⟨ha, f0, f1, f2, f3⟩ := flds0 0 h 0x15 d a b k.code h1 h2 h3 k.code_lt
  refine lane_intro rfl rfl hg (by decide) ha (fun l => ?_)
  rw [arm_vfmax]
  simp only [f0, f1, f2, f3, FmtK.ofCode_code, need_true, sub_some, bit_eq_one, beq_self_eq_true, BitVec.ofNat_toNat, BitVec.setWidth_eq, decide_true, h1, h2, h3]

theorem vfabs (h : Hdr) (d : Nat) (a : Nat) (k : FmtK) : Statement (.vfabs h d a k) := by
  intro (hwf : (h.wf && decide (d < 64) && decide (a < 64)) = true)
  simp only [Hdr.wf, Bool.and_eq_true, decide_eq_true_eq] at hwf
  obtain ⟨⟨hg, h1⟩, h2⟩ := hwf
  obtain ⟨ha, f0, f1, f2, f3⟩ := flds14 0 h 0x16 d a k.code h1 h2 k.code_lt
  refine lane_intro rfl rfl hg (by decide) ha (fun l => ?_)
  rw [fam_decodeLaneFam16, f3, arm_vfabs _ _ 0]
  simp only [f0, f1, f2, f3, FmtK.ofCode_code, need_true, sub_some, bit_eq_one, beq_self_eq_true, BitVec.ofNat_toNat, BitVec.setWidth_eq, decide_true, h1, h2]

theorem vfneg (h : Hdr) (d : Nat) (a : Nat) (k : FmtK) : Statement (.vfneg h d a k) := by
  intro (hwf : (h.wf && decide (d < 64) && decide (a < 64)) = true)
  simp only [Hdr.wf, Bool.and_eq_true, decide_eq_true_eq] at hwf
  obtain ⟨⟨hg, h1⟩, h2⟩ := hwf
  obtain ⟨ha, f0, f1, f2, f3⟩ := flds15 0 h 0x16 d a k.code h1 h2 k.code_lt
  refine lane_intro rfl rfl hg (by decide) ha (fun l => ?_)
  rw [fam_decodeLaneFam16, f3, arm_vfneg _ _ 0]
  simp only [f0, f1, f2, f3, FmtK.ofCode_code, need_true, sub_some, bit_eq_one, beq_self_eq_true, BitVec.ofNat_toNat, BitVec.setWidth_eq, decide_true, h1, h2]

theorem vfrint (h : Hdr) (d : Nat) (a : Nat) (k : FmtK) : Statement (.vfrint h d a k) := by
  intro (hwf : (h.wf && decide (d < 64) && decide (a < 64)) = true)
  simp only [Hdr.wf, Bool.and_eq_true, decide_eq_true_eq] at hwf
  obtain ⟨⟨hg, h1⟩, h2⟩ := hwf
  obtain ⟨ha, f0, f1, f2, f3⟩ := flds16 0 h 0x16 d a k.code h1 h2 k.code_lt
  refine lane_intro rfl rfl hg (by decide) ha (fun l => ?_)
  rw [fam_decodeLaneFam16, f3, arm_vfrint _ _ 0]
  simp only [f0, f1, f2, f3, FmtK.ofCode_code, need_true, sub_some, bit_eq_one, beq_self_eq_true, BitVec.ofNat_toNat, BitVec.setWidth_eq, decide_true, h1, h2]

theorem vfcls (h : Hdr) (d : Nat) (a : Nat) (k : FmtK) : Statement (.vfcls h d a k) := by
  intro (hwf : (h.wf && decide (d < 64) && decide (a < 64)) = true)
  simp only [Hdr.wf, Bool.and_eq_true, decide_eq_true_eq] at hwf
  obtain ⟨⟨hg, h1⟩, h2⟩ := hwf
  obtain ⟨ha, f0, f1, f2, f3⟩ := flds17 0 h 0x16 d a k.code h1 h2 k.code_lt
  refine lane_intro rfl rfl hg (by decide) ha (fun l => ?_)
  rw [fam_decodeLaneFam16, f3, arm_vfcls _ _ 0]
  simp only [f0, f1, f2, f3, FmtK.ofCode_code, need_true, sub_some, bit_eq_one, beq_self_eq_true, BitVec.ofNat_toNat, BitVec.setWidth_eq, decide_true, h1, h2]

theorem vfscl (h : Hdr) (d : Nat) (a : Nat) (b : Nat) : Statement (.vfscl h d a b) := by
  intro (hwf : (h.wf && decide (d < 64) && decide (a < 64) && decide (b < 64)) = true)
  simp only [Hdr.wf, Bool.and_eq_true, decide_eq_true_eq] at hwf
  obtain ⟨⟨⟨hg, h1⟩, h2⟩, h3⟩ := hwf
  obtain ⟨ha, f0, f1, f2, f3⟩ := flds1 0 h 0x17 d a b h1 h2 h3
  refine lane_intro rfl rfl hg (by decide) ha (fun l => ?_)
  rw [arm_vfscl]
  simp only [f0, f1, f2, f3, need_true, sub_some, bit_eq_one, beq_self_eq_true, BitVec.ofNat_toNat, BitVec.setWidth_eq, decide_true, h1, h2, h3]

theorem vmovl (h : Hdr) (d : Nat) (lit : BitVec 32) : Statement (.vmovl h d lit) := by
  intro (hwf : (h.wf && decide (d < 64)) = true)
  simp only [Hdr.wf, Bool.and_eq_true, decide_eq_true_eq] at hwf
  obtain ⟨hg, h1⟩ := hwf
  obtain ⟨ha, f0, f1⟩ := flds18 0 h 0x18 d h1
  refine lane_intro rfl rfl hg (by decide) ha (fun l => ?_)
  rw [arm_vmovl]
  simp only [f0, f1, List.cons_append, List.headD_cons, need_true, sub_some, bit_eq_one, beq_self_eq_true, BitVec.ofNat_toNat, BitVec.setWidth_eq, decide_true, h1]

theorem vcvt (h : Hdr) (d : Nat) (a : Nat) (dst : CvtKind) (src : CvtKind) (r : Rnd) : Statement (.vcvt h d a dst src r) := by
  intro (hwf : (h.wf && decide (d < 64) && decide (a < 64) && dst != src) = true)
  simp only [Hdr.wf, Bool.and_eq_true, decide_eq_true_eq] at hwf
  obtain ⟨⟨⟨hg, h1⟩, h2⟩, h3⟩ := hwf
  obtain ⟨ha, f0, f1, f2, f3, f4⟩ := flds19 0 h 0x20 d a dst.code src.code r.code h1 h2 dst.code_lt src.code_lt r.code_lt
  refine lane_intro rfl rfl hg (by decide) ha (fun l => ?_)
  rw [arm_vcvt]
  simp only [f0, f1, f2, f3, f4, CvtKind.ofCode_code, Rnd.ofCode_code, need_true, sub_some, bit_eq_one, beq_self_eq_true, BitVec.ofNat_toNat, BitVec.setWidth_eq, decide_true, h1, h2, h3]

theorem vcvt6 (h : Hdr) (d : Nat) (a : Nat) (k : Cvt6K) (r : Rnd) : Statement (.vcvt6 h d a k r) := by
  intro (hwf : (h.wf && decide (d < 64) && decide (a < 64) && (k.code < 2 || r == .rne)) = true)
  simp only [Hdr.wf, Bool.and_eq_true, decide_eq_true_eq] at hwf
  obtain ⟨⟨⟨hg, h1⟩, h2⟩, h3⟩ := hwf
  obtain ⟨ha, f0, f1, f2, f3, f4⟩ := flds20 0 h 0x21 d a k.code r.code h1 h2 k.code_lt r.code_lt
  refine lane_intro rfl rfl hg (by decide) ha (fun l => ?_)
  rw [arm_vcvt6]
  simp only [f0, f1, f2, f3, f4, Cvt6K.ofCode_code, Rnd.ofCode_code, need_true, sub_some, bit_eq_one, beq_self_eq_true, BitVec.ofNat_toNat, BitVec.setWidth_eq, decide_true, h1, h2, h3]

theorem vqnt (h : Hdr) (d : Nat) (a : Nat) (n : Nat) (f : Nat) : Statement (.vqnt h d a n f) := by
  intro (hwf : (h.wf && decide (d < 64) && decide (a < 64) && decide (n < 32) && decide (f < 8)) = true)
  simp only [Hdr.wf, Bool.and_eq_true, decide_eq_true_eq] at hwf
  obtain ⟨⟨⟨⟨hg, h1⟩, h2⟩, h3⟩, h4⟩ := hwf
  obtain ⟨ha, f0, f1, f2, f3⟩ := flds21 0 h 0x22 d a n f h1 h2 h3 h4
  refine lane_intro rfl rfl hg (by decide) ha (fun l => ?_)
  rw [arm_vqnt]
  simp only [f0, f1, f2, f3, need_true, sub_some, bit_eq_one, beq_self_eq_true, BitVec.ofNat_toNat, BitVec.setWidth_eq, decide_true, h1, h2, h3, h4]

theorem vdqnt (h : Hdr) (d : Nat) (a : Nat) (n : Nat) (f : Nat) : Statement (.vdqnt h d a n f) := by
  intro (hwf : (h.wf && decide (d < 64) && decide (a < 64) && decide (n < 32) && decide (f < 8)) = true)
  simp only [Hdr.wf, Bool.and_eq_true, decide_eq_true_eq] at hwf
  obtain ⟨⟨⟨⟨hg, h1⟩, h2⟩, h3⟩, h4⟩ := hwf
  obtain ⟨ha, f0, f1, f2, f3⟩ := flds21 0 h 0x23 d a n f h1 h2 h3 h4
  refine lane_intro rfl rfl hg (by decide) ha (fun l => ?_)
  rw [arm_vdqnt]
  simp only [f0, f1, f2, f3, need_true, sub_some, bit_eq_one, beq_self_eq_true, BitVec.ofNat_toNat, BitVec.setWidth_eq, decide_true, h1, h2, h3, h4]

theorem vpkh (h : Hdr) (d : Nat) (a : Nat) (b : Nat) (k : PkhK) : Statement (.vpkh h d a b k) := by
  intro (hwf : (h.wf && decide (d < 64) && decide (a < 64) && decide (b < 64)) = true)
  simp only [Hdr.wf, Bool.and_eq_true, decide_eq_true_eq] at hwf
  obtain ⟨⟨⟨hg, h1⟩, h2⟩, h3⟩ := hwf
  obtain ⟨ha, f0, f1, f2, f3⟩ := flds0 0 h 0x24 d a b k.code h1 h2 h3 k.code_lt
  refine lane_intro rfl rfl hg (by decide) ha (fun l => ?_)
  rw [arm_vpkh]
  simp only [f0, f1, f2, f3, PkhK.ofCode_code, need_true, sub_some, bit_eq_one, beq_self_eq_true, BitVec.ofNat_toNat, BitVec.setWidth_eq, decide_true, h1, h2, h3]

theorem vupkh (h : Hdr) (d : Nat) (a : Nat) (k : UpkhK) : Statement (.vupkh h d a k) := by
  intro (hwf : (h.wf && decide (d < 64) && decide (a < 64)) = true)
  simp only [Hdr.wf, Bool.and_eq_true, decide_eq_true_eq] at hwf
  obtain ⟨⟨hg, h1⟩, h2⟩ := hwf
  obtain ⟨ha, f0, f1, f2, f3⟩ := flds22 0 h 0x25 d a k.code h1 h2 k.code_lt
  refine lane_intro rfl rfl hg (by decide) ha (fun l => ?_)
  rw [arm_vupkh]
  simp only [f0, f1, f2, f3, UpkhK.ofCode_code, need_true, sub_some, bit_eq_one, beq_self_eq_true, BitVec.ofNat_toNat, BitVec.setWidth_eq, decide_true, h1, h2]

theorem vcmpeq (h : Hdr) (d : Nat) (a : Nat) (b : Nat) (k : CmpK) : Statement (.vcmpeq h d a b k) := by
  intro (hwf : (h.wf && decide (d < 64) && decide (a < 64) && decide (b < 64)) = true)
  simp only [Hdr.wf, Bool.and_eq_true, decide_eq_true_eq] at hwf
  obtain ⟨⟨⟨hg, h1⟩, h2⟩, h3⟩ := hwf
  obtain ⟨ha, f0, f1, f2, f3⟩ := flds0 0 h 0x28 d a b k.code h1 h2 h3 k.code_lt
  refine lane_intro rfl rfl hg (by decide) ha (fun l => ?_)
  rw [arm_vcmpeq]
  simp only [f0, f1, f2, f3, CmpK.ofCode_code, need_true, sub_some, bit_eq_one, beq_self_eq_true, BitVec.ofNat_toNat, BitVec.setWidth_eq, decide_true, h1, h2, h3]

theorem vcmpne (h : Hdr) (d : Nat) (a : Nat) (b : Nat) (k : CmpK) : Statement (.vcmpne h d a b k) := by
  intro (hwf : (h.wf && decide (d < 64) && decide (a < 64) && decide (b < 64)) = true)
  simp only [Hdr.wf, Bool.and_eq_true, decide_eq_true_eq] at hwf
  obtain ⟨⟨⟨hg, h1⟩, h2⟩, h3⟩ := hwf
  obtain ⟨ha, f0, f1, f2, f3⟩ := flds0 0 h 0x29 d a b k.code h1 h2 h3 k.code_lt
  refine lane_intro rfl rfl hg (by decide) ha (fun l => ?_)
  rw [arm_vcmpne]
  simp only [f0, f1, f2, f3, CmpK.ofCode_code, need_true, sub_some, bit_eq_one, beq_self_eq_true, BitVec.ofNat_toNat, BitVec.setWidth_eq, decide_true, h1, h2, h3]

theorem vcmplt (h : Hdr) (d : Nat) (a : Nat) (b : Nat) (k : CmpK) : Statement (.vcmplt h d a b k) := by
  intro (hwf : (h.wf && decide (d < 64) && decide (a < 64) && decide (b < 64)) = true)
  simp only [Hdr.wf, Bool.and_eq_true, decide_eq_true_eq] at hwf
  obtain ⟨⟨⟨hg, h1⟩, h2⟩, h3⟩ := hwf
  obtain ⟨ha, f0, f1, f2, f3⟩ := flds0 0 h 0x2A d a b k.code h1 h2 h3 k.code_lt
  refine lane_intro rfl rfl hg (by decide) ha (fun l => ?_)
  rw [arm_vcmplt]
  simp only [f0, f1, f2, f3, CmpK.ofCode_code, need_true, sub_some, bit_eq_one, beq_self_eq_true, BitVec.ofNat_toNat, BitVec.setWidth_eq, decide_true, h1, h2, h3]

theorem vcmple (h : Hdr) (d : Nat) (a : Nat) (b : Nat) (k : CmpK) : Statement (.vcmple h d a b k) := by
  intro (hwf : (h.wf && decide (d < 64) && decide (a < 64) && decide (b < 64)) = true)
  simp only [Hdr.wf, Bool.and_eq_true, decide_eq_true_eq] at hwf
  obtain ⟨⟨⟨hg, h1⟩, h2⟩, h3⟩ := hwf
  obtain ⟨ha, f0, f1, f2, f3⟩ := flds0 0 h 0x2B d a b k.code h1 h2 h3 k.code_lt
  refine lane_intro rfl rfl hg (by decide) ha (fun l => ?_)
  rw [arm_vcmple]
  simp only [f0, f1, f2, f3, CmpK.ofCode_code, need_true, sub_some, bit_eq_one, beq_self_eq_true, BitVec.ofNat_toNat, BitVec.setWidth_eq, decide_true, h1, h2, h3]

theorem vsel (h : Hdr) (d : Nat) (a : Nat) (b : Nat) : Statement (.vsel h d a b) := by
  intro (hwf : (h.wf && decide (d < 64) && decide (a < 64) && decide (b < 64) && decide (h.g < 7)) = true)
  simp only [Hdr.wf, Bool.and_eq_true, decide_eq_true_eq] at hwf
  obtain ⟨⟨⟨⟨hg, h1⟩, h2⟩, h3⟩, h4⟩ := hwf
  obtain ⟨ha, f0, f1, f2, f3⟩ := flds1 0 h 0x2C d a b h1 h2 h3
  refine lane_intro rfl rfl hg (by decide) ha (fun l => ?_)
  rw [arm_vsel]
  simp only [f0, f1, f2, f3, need_true, sub_some, bit_eq_one, beq_self_eq_true, BitVec.ofNat_toNat, BitVec.setWidth_eq, decide_true, h1, h2, h3, h4]

theorem plog (h : Hdr) (d : Nat) (a : Nat) (b : Nat) (k : LogK) : Statement (.plog h d a b k) := by
  intro (hwf : (h.wf && decide (d < 64) && decide (a < 64) && decide (b < 64)) = true)
  simp only [Hdr.wf, Bool.and_eq_true, decide_eq_true_eq] at hwf
  obtain ⟨⟨⟨hg, h1⟩, h2⟩, h3⟩ := hwf
  obtain ⟨ha, f0, f1, f2, f3⟩ := flds0 0 h 0x2D d a b k.code h1 h2 h3 k.code_lt
  refine lane_intro rfl rfl hg (by decide) ha (fun l => ?_)
  rw [arm_plog]
  simp only [f0, f1, f2, f3, LogK.ofCode_code, need_true, sub_some, bit_eq_one, beq_self_eq_true, BitVec.ofNat_toNat, BitVec.setWidth_eq, decide_true, h1, h2, h3]

theorem pmov (h : Hdr) (d : Nat) (a : Nat) (k : MovK) : Statement (.pmov h d a k) := by
  intro (hwf : (h.wf && decide (d < 64) && decide (a < 64) && (k.code < 2 || a == 0)) = true)
  simp only [Hdr.wf, Bool.and_eq_true, decide_eq_true_eq] at hwf
  obtain ⟨⟨⟨hg, h1⟩, h2⟩, h3⟩ := hwf
  obtain ⟨ha, f0, f1, f2, f3⟩ := flds23 0 h 0x2E d a k.code h1 h2 k.code_lt
  refine lane_intro rfl rfl hg (by decide) ha (fun l => ?_)
  rw [arm_pmov]
  simp only [f0, f1, f2, f3, MovK.ofCode_code, need_true, sub_some, bit_eq_one, beq_self_eq_true, BitVec.ofNat_toNat, BitVec.setWidth_eq, decide_true, h1, h2, h3]

theorem vshfl (h : Hdr) (d : Nat) (a : Nat) (b : Nat) : Statement (.vshfl h d a b) := by
  intro (hwf : (h.wf && decide (d < 64) && decide (a < 64) && decide (b < 64)) = true)
  simp only [Hdr.wf, Bool.and_eq_true, decide_eq_true_eq] at hwf
  obtain ⟨⟨⟨hg, h1⟩, h2⟩, h3⟩ := hwf
  obtain ⟨ha, f0, f1, f2, f3⟩ := flds1 0 h 0x30 d a b h1 h2 h3
  refine lane_intro rfl rfl hg (by decide) ha (fun l => ?_)
  rw [arm_vshfl]
  simp only [f0, f1, f2, f3, need_true, sub_some, bit_eq_one, beq_self_eq_true, BitVec.ofNat_toNat, BitVec.setWidth_eq, decide_true, h1, h2, h3]

theorem vshflx (h : Hdr) (d : Nat) (a : Nat) (n : Nat) : Statement (.vshflx h d a n) := by
  intro (hwf : (h.wf && decide (d < 64) && decide (a < 64) && decide (n < 64)) = true)
  simp only [Hdr.wf, Bool.and_eq_true, decide_eq_true_eq] at hwf
  obtain ⟨⟨⟨hg, h1⟩, h2⟩, h3⟩ := hwf
  obtain ⟨ha, f0, f1, f2, f3⟩ := flds24 0 h 0x31 d a n h1 h2 h3
  refine lane_intro rfl rfl hg (by decide) ha (fun l => ?_)
  rw [arm_vshflx]
  simp only [f0, f1, f2, f3, need_true, sub_some, bit_eq_one, beq_self_eq_true, BitVec.ofNat_toNat, BitVec.setWidth_eq, decide_true, h1, h2, h3]

theorem vshflu (h : Hdr) (d : Nat) (a : Nat) (n : Nat) : Statement (.vshflu h d a n) := by
  intro (hwf : (h.wf && decide (d < 64) && decide (a < 64) && decide (n < 64)) = true)
  simp only [Hdr.wf, Bool.and_eq_true, decide_eq_true_eq] at hwf
  obtain ⟨⟨⟨hg, h1⟩, h2⟩, h3⟩ := hwf
  obtain ⟨ha, f0, f1, f2, f3⟩ := flds24 0 h 0x32 d a n h1 h2 h3
  refine lane_intro rfl rfl hg (by decide) ha (fun l => ?_)
  rw [arm_vshflu]
  simp only [f0, f1, f2, f3, need_true, sub_some, bit_eq_one, beq_self_eq_true, BitVec.ofNat_toNat, BitVec.setWidth_eq, decide_true, h1, h2, h3]

theorem vshfld (h : Hdr) (d : Nat) (a : Nat) (n : Nat) : Statement (.vshfld h d a n) := by
  intro (hwf : (h.wf && decide (d < 64) && decide (a < 64) && decide (n < 64)) = true)
  simp only [Hdr.wf, Bool.and_eq_true, decide_eq_true_eq] at hwf
  obtain ⟨⟨⟨hg, h1⟩, h2⟩, h3⟩ := hwf
  obtain ⟨ha, f0, f1, f2, f3⟩ := flds24 0 h 0x33 d a n h1 h2 h3
  refine lane_intro rfl rfl hg (by decide) ha (fun l => ?_)
  rw [arm_vshfld]
  simp only [f0, f1, f2, f3, need_true, sub_some, bit_eq_one, beq_self_eq_true, BitVec.ofNat_toNat, BitVec.setWidth_eq, decide_true, h1, h2, h3]

theorem vballot (h : Hdr) (d : Nat) (a : Nat) : Statement (.vballot h d a) := by
  intro (hwf : (h.wf && decide (d < 64) && decide (a < 64)) = true)
  simp only [Hdr.wf, Bool.and_eq_true, decide_eq_true_eq] at hwf
  obtain ⟨⟨hg, h1⟩, h2⟩ := hwf
  obtain ⟨ha, f0, f1, f2, f3⟩ := flds25 0 h 0x34 d a h1 h2
  refine lane_intro rfl rfl hg (by decide) ha (fun l => ?_)
  rw [arm_vballot]
  simp only [f0, f1, f2, f3, need_true, sub_some, bit_eq_one, beq_self_eq_true, BitVec.ofNat_toNat, BitVec.setWidth_eq, decide_true, h1, h2]

theorem vred (h : Hdr) (d : Nat) (a : Nat) (k : RedK) : Statement (.vred h d a k) := by
  intro (hwf : (h.wf && decide (d < 64) && decide (a < 64)) = true)
  simp only [Hdr.wf, Bool.and_eq_true, decide_eq_true_eq] at hwf
  obtain ⟨⟨hg, h1⟩, h2⟩ := hwf
  obtain ⟨ha, f0, f1, f2, f3⟩ := flds22 0 h 0x35 d a k.code h1 h2 k.code_lt
  refine lane_intro rfl rfl hg (by decide) ha (fun l => ?_)
  rw [arm_vred]
  simp only [f0, f1, f2, f3, RedK.ofCode_code, need_true, sub_some, bit_eq_one, beq_self_eq_true, BitVec.ofNat_toNat, BitVec.setWidth_eq, decide_true, h1, h2]

theorem vaff (h : Hdr) (d : Nat) (a : Nat) : Statement (.vaff h d a) := by
  intro (hwf : (h.wf && decide (d < 64) && decide (a < 16)) = true)
  simp only [Hdr.wf, Bool.and_eq_true, decide_eq_true_eq] at hwf
  obtain ⟨⟨hg, h1⟩, h2⟩ := hwf
  obtain ⟨ha, f0, f1, f2, f3⟩ := flds26 0 h 0x36 d a h1 (by omega)
  refine lane_intro rfl rfl hg (by decide) ha (fun l => ?_)
  rw [arm_vaff]
  simp only [f0, f1, f2, f3, need_true, sub_some, bit_eq_one, beq_self_eq_true, BitVec.ofNat_toNat, BitVec.setWidth_eq, decide_true, h1, h2]

theorem vbcast (h : Hdr) (d : Nat) (a : Nat) : Statement (.vbcast h d a) := by
  intro (hwf : (h.wf && decide (d < 64) && decide (a < 64)) = true)
  simp only [Hdr.wf, Bool.and_eq_true, decide_eq_true_eq] at hwf
  obtain ⟨⟨hg, h1⟩, h2⟩ := hwf
  obtain ⟨ha, f0, f1, f2, f3⟩ := flds25 0 h 0x37 d a h1 h2
  refine lane_intro rfl rfl hg (by decide) ha (fun l => ?_)
  rw [arm_vbcast]
  simp only [f0, f1, f2, f3, need_true, sub_some, bit_eq_one, beq_self_eq_true, BitVec.ofNat_toNat, BitVec.setWidth_eq, decide_true, h1, h2]

theorem vld (h : Hdr) (d : Nat) (a : Adr) (l : Nat) (k : MemK) (t : Hint) : Statement (.vld h d a l k t) := by
  intro (hwf : (h.wf && decide (d < 64) && a.wf && decide (l < 16) && t != .release) = true)
  simp only [Hdr.wf, Bool.and_eq_true, decide_eq_true_eq] at hwf
  obtain ⟨⟨⟨⟨hg, h1⟩, h2⟩, h3⟩, h4⟩ := hwf
  obtain ⟨ha, f0, f1, f2, f3, f4⟩ := flds27 0 h 0x38 d a.code l k.code t.code h1 (Adr.code_lt a (by assumption)) h3 k.code_lt t.code_lt
  refine lane_intro rfl rfl hg (by decide) ha (fun l => ?_)
  rw [arm_vld]
  simp only [f0, f1, f2, f3, f4, MemK.ofCode_code, Hint.ofCode_code, Adr.ofCode_code a (by assumption), need_true, sub_some, bit_eq_one, beq_self_eq_true, BitVec.ofNat_toNat, BitVec.setWidth_eq, decide_true, h1, h2, h3, h4]

theorem vldnf (h : Hdr) (d : Nat) (a : Adr) (l : Nat) (k : MemK) (t : Hint) : Statement (.vldnf h d a l k t) := by
  intro (hwf : (h.wf && decide (d < 64) && a.wf && decide (l < 16) && t != .release) = true)
  simp only [Hdr.wf, Bool.and_eq_true, decide_eq_true_eq] at hwf
  obtain ⟨⟨⟨⟨hg, h1⟩, h2⟩, h3⟩, h4⟩ := hwf
  obtain ⟨ha, f0, f1, f2, f3, f4⟩ := flds27 0 h 0x39 d a.code l k.code t.code h1 (Adr.code_lt a (by assumption)) h3 k.code_lt t.code_lt
  refine lane_intro rfl rfl hg (by decide) ha (fun l => ?_)
  rw [arm_vldnf]
  simp only [f0, f1, f2, f3, f4, MemK.ofCode_code, Hint.ofCode_code, Adr.ofCode_code a (by assumption), need_true, sub_some, bit_eq_one, beq_self_eq_true, BitVec.ofNat_toNat, BitVec.setWidth_eq, decide_true, h1, h2, h3, h4]

theorem vst (h : Hdr) (d : Nat) (a : Adr) (l : Nat) (k : MemK) (t : Hint) : Statement (.vst h d a l k t) := by
  intro (hwf : (h.wf && decide (d < 64) && a.wf && decide (l < 16) && t != .acquire) = true)
  simp only [Hdr.wf, Bool.and_eq_true, decide_eq_true_eq] at hwf
  obtain ⟨⟨⟨⟨hg, h1⟩, h2⟩, h3⟩, h4⟩ := hwf
  obtain ⟨ha, f0, f1, f2, f3, f4⟩ := flds27 0 h 0x3A d a.code l k.code t.code h1 (Adr.code_lt a (by assumption)) h3 k.code_lt t.code_lt
  refine lane_intro rfl rfl hg (by decide) ha (fun l => ?_)
  rw [arm_vst]
  simp only [f0, f1, f2, f3, f4, MemK.ofCode_code, Hint.ofCode_code, Adr.ofCode_code a (by assumption), need_true, sub_some, bit_eq_one, beq_self_eq_true, BitVec.ofNat_toNat, BitVec.setWidth_eq, decide_true, h1, h2, h3, h4]

theorem vldn (h : Hdr) (d : Nat) (a : Adr) (l : Nat) (k : PackK) (t : Hint) : Statement (.vldn h d a l k t) := by
  intro (hwf : (h.wf && decide (d < 64) && a.wf && decide (l < 16) && t != .release) = true)
  simp only [Hdr.wf, Bool.and_eq_true, decide_eq_true_eq] at hwf
  obtain ⟨⟨⟨⟨hg, h1⟩, h2⟩, h3⟩, h4⟩ := hwf
  obtain ⟨ha, f0, f1, f2, f3, f4⟩ := flds27 0 h 0x3B d a.code l k.code t.code h1 (Adr.code_lt a (by assumption)) h3 k.code_lt t.code_lt
  refine lane_intro rfl rfl hg (by decide) ha (fun l => ?_)
  rw [arm_vldn]
  simp only [f0, f1, f2, f3, f4, PackK.ofCode_code, Hint.ofCode_code, Adr.ofCode_code a (by assumption), need_true, sub_some, bit_eq_one, beq_self_eq_true, BitVec.ofNat_toNat, BitVec.setWidth_eq, decide_true, h1, h2, h3, h4]

theorem vstn (h : Hdr) (d : Nat) (a : Adr) (l : Nat) (k : PackK) (t : Hint) : Statement (.vstn h d a l k t) := by
  intro (hwf : (h.wf && decide (d < 64) && a.wf && decide (l < 16) && t != .acquire) = true)
  simp only [Hdr.wf, Bool.and_eq_true, decide_eq_true_eq] at hwf
  obtain ⟨⟨⟨⟨hg, h1⟩, h2⟩, h3⟩, h4⟩ := hwf
  obtain ⟨ha, f0, f1, f2, f3, f4⟩ := flds27 0 h 0x3C d a.code l k.code t.code h1 (Adr.code_lt a (by assumption)) h3 k.code_lt t.code_lt
  refine lane_intro rfl rfl hg (by decide) ha (fun l => ?_)
  rw [arm_vstn]
  simp only [f0, f1, f2, f3, f4, PackK.ofCode_code, Hint.ofCode_code, Adr.ofCode_code a (by assumption), need_true, sub_some, bit_eq_one, beq_self_eq_true, BitVec.ofNat_toNat, BitVec.setWidth_eq, decide_true, h1, h2, h3, h4]

theorem vatadd (h : Hdr) (d : Nat) (a : Adr) (l : Nat) (k : AtAddK) (t : Hint) : Statement (.vatadd h d a l k t) := by
  intro (hwf : (h.wf && decide (d < 64) && a.wf && decide (l < 16) && t != .nontemporal) = true)
  simp only [Hdr.wf, Bool.and_eq_true, decide_eq_true_eq] at hwf
  obtain ⟨⟨⟨⟨hg, h1⟩, h2⟩, h3⟩, h4⟩ := hwf
  obtain ⟨ha, f0, f1, f2, f3, f4⟩ := flds27 0 h 0x3D d a.code l k.code t.code h1 (Adr.code_lt a (by assumption)) h3 k.code_lt t.code_lt
  refine lane_intro rfl rfl hg (by decide) ha (fun l => ?_)
  rw [arm_vatadd]
  simp only [f0, f1, f2, f3, f4, AtAddK.ofCode_code, Hint.ofCode_code, Adr.ofCode_code a (by assumption), need_true, sub_some, bit_eq_one, beq_self_eq_true, BitVec.ofNat_toNat, BitVec.setWidth_eq, decide_true, h1, h2, h3, h4]

theorem vatmm (h : Hdr) (d : Nat) (a : Adr) (l : Nat) (k : AtMmK) (t : Hint) : Statement (.vatmm h d a l k t) := by
  intro (hwf : (h.wf && decide (d < 64) && a.wf && decide (l < 16) && t != .nontemporal) = true)
  simp only [Hdr.wf, Bool.and_eq_true, decide_eq_true_eq] at hwf
  obtain ⟨⟨⟨⟨hg, h1⟩, h2⟩, h3⟩, h4⟩ := hwf
  obtain ⟨ha, f0, f1, f2, f3, f4⟩ := flds27 0 h 0x3E d a.code l k.code t.code h1 (Adr.code_lt a (by assumption)) h3 k.code_lt t.code_lt
  refine lane_intro rfl rfl hg (by decide) ha (fun l => ?_)
  rw [arm_vatmm]
  simp only [f0, f1, f2, f3, f4, AtMmK.ofCode_code, Hint.ofCode_code, Adr.ofCode_code a (by assumption), need_true, sub_some, bit_eq_one, beq_self_eq_true, BitVec.ofNat_toNat, BitVec.setWidth_eq, decide_true, h1, h2, h3, h4]

theorem vatbit (h : Hdr) (d : Nat) (a : Adr) (l : Nat) (k : AtBitK) (t : Hint) : Statement (.vatbit h d a l k t) := by
  intro (hwf : (h.wf && decide (d < 64) && a.wf && decide (l < 16) && t != .nontemporal) = true)
  simp only [Hdr.wf, Bool.and_eq_true, decide_eq_true_eq] at hwf
  obtain ⟨⟨⟨⟨hg, h1⟩, h2⟩, h3⟩, h4⟩ := hwf
  obtain ⟨ha, f0, f1, f2, f3, f4⟩ := flds27 0 h 0x3F d a.code l k.code t.code h1 (Adr.code_lt a (by assumption)) h3 k.code_lt t.code_lt
  refine lane_intro rfl rfl hg (by decide) ha (fun l => ?_)
  rw [arm_vatbit]
  simp only [f0, f1, f2, f3, f4, AtBitK.ofCode_code, Hint.ofCode_code, Adr.ofCode_code a (by assumption), need_true, sub_some, bit_eq_one, beq_self_eq_true, BitVec.ofNat_toNat, BitVec.setWidth_eq, decide_true, h1, h2, h3, h4]

theorem vcas (h : Hdr) (d : Nat) (a : Adr) (l : Nat) (k : CasK) (t : Hint) : Statement (.vcas h d a l k t) := by
  intro (hwf : (h.wf && decide (d < 64) && a.wf && decide (l < 16) && t != .nontemporal) = true)
  simp only [Hdr.wf, Bool.and_eq_true, decide_eq_true_eq] at hwf
  obtain ⟨⟨⟨⟨hg, h1⟩, h2⟩, h3⟩, h4⟩ := hwf
  obtain ⟨ha, f0, f1, f2, f3, f4⟩ := flds27 0 h 0x40 d a.code l k.code t.code h1 (Adr.code_lt a (by assumption)) h3 k.code_lt t.code_lt
  refine lane_intro rfl rfl hg (by decide) ha (fun l => ?_)
  rw [arm_vcas]
  simp only [f0, f1, f2, f3, f4, CasK.ofCode_code, Hint.ofCode_code, Adr.ofCode_code a (by assumption), need_true, sub_some, bit_eq_one, beq_self_eq_true, BitVec.ofNat_toNat, BitVec.setWidth_eq, decide_true, h1, h2, h3, h4]

theorem vldxW (h : Hdr) (d : Nat) (x : Nat) (o : Nat) (l : Nat) : Statement (.vldxW h d x o l) := by
  intro (hwf : (h.wf && decide (d < 64) && decide (x < 16) && decide (o < 64) && decide (l < 16)) = true)
  simp only [Hdr.wf, Bool.and_eq_true, decide_eq_true_eq] at hwf
  obtain ⟨⟨⟨⟨hg, h1⟩, h2⟩, h3⟩, h4⟩ := hwf
  obtain ⟨ha, f0, f1, f2, f3⟩ := flds28 0 h 0x41 d x o l h1 h2 h3 h4
  refine lane_intro rfl rfl hg (by decide) ha (fun l => ?_)
  rw [arm_vldxW]
  simp only [f0, f1, f2, f3, need_true, sub_some, bit_eq_one, beq_self_eq_true, BitVec.ofNat_toNat, BitVec.setWidth_eq, decide_true, h1, h2, h3, h4]

theorem vldxD (h : Hdr) (d : Nat) (x : Nat) (o : Nat) (l : Nat) : Statement (.vldxD h d x o l) := by
  intro (hwf : (h.wf && decide (d < 64) && decide (x < 16) && decide (o < 64) && decide (l < 16)) = true)
  simp only [Hdr.wf, Bool.and_eq_true, decide_eq_true_eq] at hwf
  obtain ⟨⟨⟨⟨hg, h1⟩, h2⟩, h3⟩, h4⟩ := hwf
  obtain ⟨ha, f0, f1, f2, f3⟩ := flds28 0 h 0x42 d x o l h1 h2 h3 h4
  refine lane_intro rfl rfl hg (by decide) ha (fun l => ?_)
  rw [arm_vldxD]
  simp only [f0, f1, f2, f3, need_true, sub_some, bit_eq_one, beq_self_eq_true, BitVec.ofNat_toNat, BitVec.setWidth_eq, decide_true, h1, h2, h3, h4]

theorem vstxW (h : Hdr) (d : Nat) (x : Nat) (o : Nat) (l : Nat) : Statement (.vstxW h d x o l) := by
  intro (hwf : (h.wf && decide (d < 64) && decide (x < 16) && decide (o < 64) && decide (l < 16)) = true)
  simp only [Hdr.wf, Bool.and_eq_true, decide_eq_true_eq] at hwf
  obtain ⟨⟨⟨⟨hg, h1⟩, h2⟩, h3⟩, h4⟩ := hwf
  obtain ⟨ha, f0, f1, f2, f3⟩ := flds28 0 h 0x43 d x o l h1 h2 h3 h4
  refine lane_intro rfl rfl hg (by decide) ha (fun l => ?_)
  rw [arm_vstxW]
  simp only [f0, f1, f2, f3, need_true, sub_some, bit_eq_one, beq_self_eq_true, BitVec.ofNat_toNat, BitVec.setWidth_eq, decide_true, h1, h2, h3, h4]

theorem vstxD (h : Hdr) (d : Nat) (x : Nat) (o : Nat) (l : Nat) : Statement (.vstxD h d x o l) := by
  intro (hwf : (h.wf && decide (d < 64) && decide (x < 16) && decide (o < 64) && decide (l < 16)) = true)
  simp only [Hdr.wf, Bool.and_eq_true, decide_eq_true_eq] at hwf
  obtain ⟨⟨⟨⟨hg, h1⟩, h2⟩, h3⟩, h4⟩ := hwf
  obtain ⟨ha, f0, f1, f2, f3⟩ := flds28 0 h 0x44 d x o l h1 h2 h3 h4
  refine lane_intro rfl rfl hg (by decide) ha (fun l => ?_)
  rw [arm_vstxD]
  simp only [f0, f1, f2, f3, need_true, sub_some, bit_eq_one, beq_self_eq_true, BitVec.ofNat_toNat, BitVec.setWidth_eq, decide_true, h1, h2, h3, h4]

theorem vldf (h : Hdr) (d : Nat) (a : Adr) (l : Nat) (t : Hint) : Statement (.vldf h d a l t) := by
  intro (hwf : (h.wf && decide (d < 64) && a.wf && decide (l < 16) && t != .release) = true)
  simp only [Hdr.wf, Bool.and_eq_true, decide_eq_true_eq] at hwf
  obtain ⟨⟨⟨⟨hg, h1⟩, h2⟩, h3⟩, h4⟩ := hwf
  obtain ⟨ha, f0, f1, f2, f3, f4⟩ := flds29 0 h 0x45 d a.code l t.code h1 (Adr.code_lt a (by assumption)) h3 t.code_lt
  refine lane_intro rfl rfl hg (by decide) ha (fun l => ?_)
  rw [arm_vldf]
  simp only [f0, f1, f2, f3, f4, Hint.ofCode_code, Adr.ofCode_code a (by assumption), need_true, sub_some, bit_eq_one, beq_self_eq_true, BitVec.ofNat_toNat, BitVec.setWidth_eq, decide_true, h1, h2, h3, h4]

theorem vtrd (h : Hdr) (t : Nat) (c : Bool) (i : Nat) (n : Nat) (v : Nat) : Statement (.vtrd h t c i n v) := by
  intro (hwf : (h.wf && decide (t < 16) && decide (i < 32) && decide (n < 16) && decide (v < 64)) = true)
  simp only [Hdr.wf, Bool.and_eq_true, decide_eq_true_eq] at hwf
  obtain ⟨⟨⟨⟨hg, h1⟩, h2⟩, h3⟩, h4⟩ := hwf
  obtain ⟨ha, f0, f1, f2, f3, f4⟩ := flds30 0 h 0x50 t (bit c) i n v h1 (bit_lt c) h2 h3 h4
  refine lane_intro rfl rfl hg (by decide) ha (fun l => ?_)
  rw [arm_vtrd]
  simp only [f0, f1, f2, f3, f4, need_true, sub_some, bit_eq_one, beq_self_eq_true, BitVec.ofNat_toNat, BitVec.setWidth_eq, decide_true, h1, h2, h3, h4]

theorem vtwr (h : Hdr) (t : Nat) (c : Bool) (i : Nat) (n : Nat) (v : Nat) : Statement (.vtwr h t c i n v) := by
  intro (hwf : (h.wf && decide (t < 16) && decide (i < 32) && decide (n < 16) && decide (v < 64)) = true)
  simp only [Hdr.wf, Bool.and_eq_true, decide_eq_true_eq] at hwf
  obtain ⟨⟨⟨⟨hg, h1⟩, h2⟩, h3⟩, h4⟩ := hwf
  obtain ⟨ha, f0, f1, f2, f3, f4⟩ := flds30 0 h 0x51 t (bit c) i n v h1 (bit_lt c) h2 h3 h4
  refine lane_intro rfl rfl hg (by decide) ha (fun l => ?_)
  rw [arm_vtwr]
  simp only [f0, f1, f2, f3, f4, need_true, sub_some, bit_eq_one, beq_self_eq_true, BitVec.ofNat_toNat, BitVec.setWidth_eq, decide_true, h1, h2, h3, h4]

theorem vtaddF32 (h : Hdr) (t : Nat) (c : Bool) (i : Nat) (n : Nat) (v : Nat) : Statement (.vtaddF32 h t c i n v) := by
  intro (hwf : (h.wf && decide (t < 16) && decide (i < 32) && decide (n < 16) && decide (v < 64)) = true)
  simp only [Hdr.wf, Bool.and_eq_true, decide_eq_true_eq] at hwf
  obtain ⟨⟨⟨⟨hg, h1⟩, h2⟩, h3⟩, h4⟩ := hwf
  obtain ⟨ha, f0, f1, f2, f3, f4⟩ := flds30 0 h 0x52 t (bit c) i n v h1 (bit_lt c) h2 h3 h4
  refine lane_intro rfl rfl hg (by decide) ha (fun l => ?_)
  rw [arm_vtaddF32]
  simp only [f0, f1, f2, f3, f4, need_true, sub_some, bit_eq_one, beq_self_eq_true, BitVec.ofNat_toNat, BitVec.setWidth_eq, decide_true, h1, h2, h3, h4]

theorem vtmaxF32 (h : Hdr) (t : Nat) (c : Bool) (i : Nat) (n : Nat) (v : Nat) : Statement (.vtmaxF32 h t c i n v) := by
  intro (hwf : (h.wf && decide (t < 16) && decide (i < 32) && decide (n < 16) && decide (v < 64)) = true)
  simp only [Hdr.wf, Bool.and_eq_true, decide_eq_true_eq] at hwf
  obtain ⟨⟨⟨⟨hg, h1⟩, h2⟩, h3⟩, h4⟩ := hwf
  obtain ⟨ha, f0, f1, f2, f3, f4⟩ := flds30 0 h 0x53 t (bit c) i n v h1 (bit_lt c) h2 h3 h4
  refine lane_intro rfl rfl hg (by decide) ha (fun l => ?_)
  rw [arm_vtmaxF32]
  simp only [f0, f1, f2, f3, f4, need_true, sub_some, bit_eq_one, beq_self_eq_true, BitVec.ofNat_toNat, BitVec.setWidth_eq, decide_true, h1, h2, h3, h4]

theorem vyield (h : Hdr) : Statement (.vyield h) := by
  intro (hwf : (h.wf) = true)
  have hg : h.g < 8 := decide_eq_true_iff.1 hwf
  obtain ⟨ha, f0⟩ := flds31 0 h 0x57  
  refine lane_intro rfl rfl hg (by decide) ha (fun l => ?_)
  rw [arm_vyield]
  simp only [f0, need_true, sub_some, bit_eq_one, beq_self_eq_true, BitVec.ofNat_toNat, BitVec.setWidth_eq, decide_true]

theorem vbr (h : Hdr) (off : BitVec 20) : Statement (.vbr h off) := by
  intro (hwf : (h.wf) = true)
  have hg : h.g < 8 := decide_eq_true_iff.1 hwf
  obtain ⟨ha, f0⟩ := flds32 0 h 0x58 off.toNat off.isLt
  refine lane_intro rfl rfl hg (by decide) ha (fun l => ?_)
  rw [arm_vbr]
  simp only [f0, need_true, sub_some, bit_eq_one, beq_self_eq_true, BitVec.ofNat_toNat, BitVec.setWidth_eq, decide_true]

theorem vjtab (h : Hdr) (a : Nat) (b : Nat) : Statement (.vjtab h a b) := by
  intro (hwf : (h.wf && decide (a < 64) && decide (b < 64)) = true)
  simp only [Hdr.wf, Bool.and_eq_true, decide_eq_true_eq] at hwf
  obtain ⟨⟨hg, h1⟩, h2⟩ := hwf
  obtain ⟨ha, f0, f1, f2, f3⟩ := flds33 0 h 0x59 a b h1 h2
  refine lane_intro rfl rfl hg (by decide) ha (fun l => ?_)
  rw [arm_vjtab]
  simp only [f0, f1, f2, f3, need_true, sub_some, bit_eq_one, beq_self_eq_true, BitVec.ofNat_toNat, BitVec.setWidth_eq, decide_true, h1, h2]

theorem vcall (h : Hdr) (off : BitVec 20) : Statement (.vcall h off) := by
  intro (hwf : (h.wf) = true)
  have hg : h.g < 8 := decide_eq_true_iff.1 hwf
  obtain ⟨ha, f0⟩ := flds32 0 h 0x5A off.toNat off.isLt
  refine lane_intro rfl rfl hg (by decide) ha (fun l => ?_)
  rw [arm_vcall]
  simp only [f0, need_true, sub_some, bit_eq_one, beq_self_eq_true, BitVec.ofNat_toNat, BitVec.setWidth_eq, decide_true]

theorem vcallx (h : Hdr) (a : Nat) : Statement (.vcallx h a) := by
  intro (hwf : (h.wf && decide (a < 64)) = true)
  simp only [Hdr.wf, Bool.and_eq_true, decide_eq_true_eq] at hwf
  obtain ⟨hg, h1⟩ := hwf
  obtain ⟨ha, f0, f1, f2, f3⟩ := flds34 0 h 0x5B a h1
  refine lane_intro rfl rfl hg (by decide) ha (fun l => ?_)
  rw [arm_vcallx]
  simp only [f0, f1, f2, f3, need_true, sub_some, bit_eq_one, beq_self_eq_true, BitVec.ofNat_toNat, BitVec.setWidth_eq, decide_true, h1]

theorem vret (h : Hdr) : Statement (.vret h) := by
  intro (hwf : (h.wf) = true)
  have hg : h.g < 8 := decide_eq_true_iff.1 hwf
  obtain ⟨ha, f0⟩ := flds31 0 h 0x5C  
  refine lane_intro rfl rfl hg (by decide) ha (fun l => ?_)
  rw [arm_vret]
  simp only [f0, need_true, sub_some, bit_eq_one, beq_self_eq_true, BitVec.ofNat_toNat, BitVec.setWidth_eq, decide_true]

theorem vsusp (h : Hdr) (d : Nat) (a : Nat) (k : SuspK) : Statement (.vsusp h d a k) := by
  intro (hwf : (h.wf && decide (d < 64) && decide (a < 16)) = true)
  simp only [Hdr.wf, Bool.and_eq_true, decide_eq_true_eq] at hwf
  obtain ⟨⟨hg, h1⟩, h2⟩ := hwf
  obtain ⟨ha, f0, f1, f2, f3⟩ := flds35 0 h 0x5D d a k.code h1 (by omega) k.code_lt
  refine lane_intro rfl rfl hg (by decide) ha (fun l => ?_)
  rw [arm_vsusp]
  simp only [f0, f1, f2, f3, SuspK.ofCode_code, need_true, sub_some, bit_eq_one, beq_self_eq_true, BitVec.ofNat_toNat, BitVec.setWidth_eq, decide_true, h1, h2]

theorem vspawn (h : Hdr) (d : Nat) (a : Nat) (b : Nat) : Statement (.vspawn h d a b) := by
  intro (hwf : (h.wf && decide (d < 64) && decide (a < 16) && decide (b < 64)) = true)
  simp only [Hdr.wf, Bool.and_eq_true, decide_eq_true_eq] at hwf
  obtain ⟨⟨⟨hg, h1⟩, h2⟩, h3⟩ := hwf
  obtain ⟨ha, f0, f1, f2, f3⟩ := flds36 0 h 0x5E d a b h1 (by omega) h3
  refine lane_intro rfl rfl hg (by decide) ha (fun l => ?_)
  rw [arm_vspawn]
  simp only [f0, f1, f2, f3, need_true, sub_some, bit_eq_one, beq_self_eq_true, BitVec.ofNat_toNat, BitVec.setWidth_eq, decide_true, h1, h2, h3]

theorem vexit (h : Hdr) : Statement (.vexit h) := by
  intro (hwf : (h.wf) = true)
  have hg : h.g < 8 := decide_eq_true_iff.1 hwf
  obtain ⟨ha, f0⟩ := flds31 0 h 0x5F  
  refine lane_intro rfl rfl hg (by decide) ha (fun l => ?_)
  rw [arm_vexit]
  simp only [f0, need_true, sub_some, bit_eq_one, beq_self_eq_true, BitVec.ofNat_toNat, BitVec.setWidth_eq, decide_true]

theorem vrcp (h : Hdr) (d : Nat) (a : Nat) : Statement (.vrcp h d a) := by
  intro (hwf : (h.wf && decide (d < 64) && decide (a < 64)) = true)
  simp only [Hdr.wf, Bool.and_eq_true, decide_eq_true_eq] at hwf
  obtain ⟨⟨hg, h1⟩, h2⟩ := hwf
  obtain ⟨ha, f0, f1, f2, f3⟩ := flds25 0 h 0x60 d a h1 h2
  refine lane_intro rfl rfl hg (by decide) ha (fun l => ?_)
  rw [arm_vrcp]
  simp only [f0, f1, f2, f3, need_true, sub_some, bit_eq_one, beq_self_eq_true, BitVec.ofNat_toNat, BitVec.setWidth_eq, decide_true, h1, h2]

theorem vrsq (h : Hdr) (d : Nat) (a : Nat) : Statement (.vrsq h d a) := by
  intro (hwf : (h.wf && decide (d < 64) && decide (a < 64)) = true)
  simp only [Hdr.wf, Bool.and_eq_true, decide_eq_true_eq] at hwf
  obtain ⟨⟨hg, h1⟩, h2⟩ := hwf
  obtain ⟨ha, f0, f1, f2, f3⟩ := flds25 0 h 0x61 d a h1 h2
  refine lane_intro rfl rfl hg (by decide) ha (fun l => ?_)
  rw [arm_vrsq]
  simp only [f0, f1, f2, f3, need_true, sub_some, bit_eq_one, beq_self_eq_true, BitVec.ofNat_toNat, BitVec.setWidth_eq, decide_true, h1, h2]

theorem vsqrt (h : Hdr) (d : Nat) (a : Nat) : Statement (.vsqrt h d a) := by
  intro (hwf : (h.wf && decide (d < 64) && decide (a < 64)) = true)
  simp only [Hdr.wf, Bool.and_eq_true, decide_eq_true_eq] at hwf
  obtain ⟨⟨hg, h1⟩, h2⟩ := hwf
  obtain ⟨ha, f0, f1, f2, f3⟩ := flds25 0 h 0x62 d a h1 h2
  refine lane_intro rfl rfl hg (by decide) ha (fun l => ?_)
  rw [arm_vsqrt]
  simp only [f0, f1, f2, f3, need_true, sub_some, bit_eq_one, beq_self_eq_true, BitVec.ofNat_toNat, BitVec.setWidth_eq, decide_true, h1, h2]

theorem vexp2 (h : Hdr) (d : Nat) (a : Nat) : Statement (.vexp2 h d a) := by
  intro (hwf : (h.wf && decide (d < 64) && decide (a < 64)) = true)
  simp only [Hdr.wf, Bool.and_eq_true, decide_eq_true_eq] at hwf
  obtain ⟨⟨hg, h1⟩, h2⟩ := hwf
  obtain ⟨ha, f0, f1, f2, f3⟩ := flds25 0 h 0x63 d a h1 h2
  refine lane_intro rfl rfl hg (by decide) ha (fun l => ?_)
  rw [arm_vexp2]
  simp only [f0, f1, f2, f3, need_true, sub_some, bit_eq_one, beq_self_eq_true, BitVec.ofNat_toNat, BitVec.setWidth_eq, decide_true, h1, h2]

theorem vlog2 (h : Hdr) (d : Nat) (a : Nat) : Statement (.vlog2 h d a) := by
  intro (hwf : (h.wf && decide (d < 64) && decide (a < 64)) = true)
  simp only [Hdr.wf, Bool.and_eq_true, decide_eq_true_eq] at hwf
  obtain ⟨⟨hg, h1⟩, h2⟩ := hwf
  obtain ⟨ha, f0, f1, f2, f3⟩ := flds25 0 h 0x64 d a h1 h2
  refine lane_intro rfl rfl hg (by decide) ha (fun l => ?_)
  rw [arm_vlog2]
  simp only [f0, f1, f2, f3, need_true, sub_some, bit_eq_one, beq_self_eq_true, BitVec.ofNat_toNat, BitVec.setWidth_eq, decide_true, h1, h2]

theorem vtanh (h : Hdr) (d : Nat) (a : Nat) : Statement (.vtanh h d a) := by
  intro (hwf : (h.wf && decide (d < 64) && decide (a < 64)) = true)
  simp only [Hdr.wf, Bool.and_eq_true, decide_eq_true_eq] at hwf
  obtain ⟨⟨hg, h1⟩, h2⟩ := hwf
  obtain ⟨ha, f0, f1, f2, f3⟩ := flds25 0 h 0x65 d a h1 h2
  refine lane_intro rfl rfl hg (by decide) ha (fun l => ?_)
  rw [arm_vtanh]
  simp only [f0, f1, f2, f3, need_true, sub_some, bit_eq_one, beq_self_eq_true, BitVec.ofNat_toNat, BitVec.setWidth_eq, decide_true, h1, h2]

theorem vdiv (h : Hdr) (d : Nat) (a : Nat) (b : Nat) : Statement (.vdiv h d a b) := by
  intro (hwf : (h.wf && decide (d < 64) && decide (a < 64) && decide (b < 64)) = true)
  simp only [Hdr.wf, Bool.and_eq_true, decide_eq_true_eq] at hwf
  obtain ⟨⟨⟨hg, h1⟩, h2⟩, h3⟩ := hwf
  obtain ⟨ha, f0, f1, f2, f3⟩ := flds1 0 h 0x66 d a b h1 h2 h3
  refine lane_intro rfl rfl hg (by decide) ha (fun l => ?_)
  rw [arm_vdiv]
  simp only [f0, f1, f2, f3, need_true, sub_some, bit_eq_one, beq_self_eq_true, BitVec.ofNat_toNat, BitVec.setWidth_eq, decide_true, h1, h2, h3]

theorem sadd (h : Hdr) (d : Nat) (a : Nat) (b : Nat) (k : SAddK) : Statement (.sadd h d a b k) := by
  intro (hwf : (h.wf && decide (d < 64) && decide (a < 64) && decide (b < 64)) = true)
  simp only [Hdr.wf, Bool.and_eq_true, decide_eq_true_eq] at hwf
  obtain ⟨⟨⟨hg, h1⟩, h2⟩, h3⟩ := hwf
  obtain ⟨ha, f0, f1, f2, f3⟩ := flds0 1 h 0x00 d a b k.code h1 h2 h3 k.code_lt
  refine uni_intro rfl rfl hg (by decide) ha (fun l => ?_)
  rw [arm_sadd]
  simp only [f0, f1, f2, f3, SAddK.ofCode_code, need_true, sub_some, bit_eq_one, beq_self_eq_true, BitVec.ofNat_toNat, BitVec.setWidth_eq, decide_true, h1, h2, h3]

theorem ssub (h : Hdr) (d : Nat) (a : Nat) (b : Nat) (k : SAddK) : Statement (.ssub h d a b k) := by
  intro (hwf : (h.wf && decide (d < 64) && decide (a < 64) && decide (b < 64)) = true)
  simp only [Hdr.wf, Bool.and_eq_true, decide_eq_true_eq] at hwf
  obtain ⟨⟨⟨hg, h1⟩, h2⟩, h3⟩ := hwf
  obtain ⟨ha, f0, f1, f2, f3⟩ := flds0 1 h 0x01 d a b k.code h1 h2 h3 k.code_lt
  refine uni_intro rfl rfl hg (by decide) ha (fun l => ?_)
  rw [arm_ssub]
  simp only [f0, f1, f2, f3, SAddK.ofCode_code, need_true, sub_some, bit_eq_one, beq_self_eq_true, BitVec.ofNat_toNat, BitVec.setWidth_eq, decide_true, h1, h2, h3]

theorem smul (h : Hdr) (d : Nat) (a : Nat) (b : Nat) (k : SMulK) : Statement (.smul h d a b k) := by
  intro (hwf : (h.wf && decide (d < 64) && decide (a < 64) && decide (b < 64)) = true)
  simp only [Hdr.wf, Bool.and_eq_true, decide_eq_true_eq] at hwf
  obtain ⟨⟨⟨hg, h1⟩, h2⟩, h3⟩ := hwf
  obtain ⟨ha, f0, f1, f2, f3⟩ := flds0 1 h 0x02 d a b k.code h1 h2 h3 k.code_lt
  refine uni_intro rfl rfl hg (by decide) ha (fun l => ?_)
  rw [arm_smul]
  simp only [f0, f1, f2, f3, SMulK.ofCode_code, need_true, sub_some, bit_eq_one, beq_self_eq_true, BitVec.ofNat_toNat, BitVec.setWidth_eq, decide_true, h1, h2, h3]

theorem sand (h : Hdr) (d : Nat) (a : Nat) (b : Nat) : Statement (.sand h d a b) := by
  intro (hwf : (h.wf && decide (d < 64) && decide (a < 64) && decide (b < 64)) = true)
  simp only [Hdr.wf, Bool.and_eq_true, decide_eq_true_eq] at hwf
  obtain ⟨⟨⟨hg, h1⟩, h2⟩, h3⟩ := hwf
  obtain ⟨ha, f0, f1, f2, f3⟩ := flds1 1 h 0x03 d a b h1 h2 h3
  refine uni_intro rfl rfl hg (by decide) ha (fun l => ?_)
  rw [arm_sand]
  simp only [f0, f1, f2, f3, need_true, sub_some, bit_eq_one, beq_self_eq_true, BitVec.ofNat_toNat, BitVec.setWidth_eq, decide_true, h1, h2, h3]

theorem sor (h : Hdr) (d : Nat) (a : Nat) (b : Nat) : Statement (.sor h d a b) := by
  intro (hwf : (h.wf && decide (d < 64) && decide (a < 64) && decide (b < 64)) = true)
  simp only [Hdr.wf, Bool.and_eq_true, decide_eq_true_eq] at hwf
  obtain ⟨⟨⟨hg, h1⟩, h2⟩, h3⟩ := hwf
  obtain ⟨ha, f0, f1, f2, f3⟩ := flds1 1 h 0x04 d a b h1 h2 h3
  refine uni_intro rfl rfl hg (by decide) ha (fun l => ?_)
  rw [arm_sor]
  simp only [f0, f1, f2, f3, need_true, sub_some, bit_eq_one, beq_self_eq_true, BitVec.ofNat_toNat, BitVec.setWidth_eq, decide_true, h1, h2, h3]

theorem sxor (h : Hdr) (d : Nat) (a : Nat) (b : Nat) : Statement (.sxor h d a b) := by
  intro (hwf : (h.wf && decide (d < 64) && decide (a < 64) && decide (b < 64)) = true)
  simp only [Hdr.wf, Bool.and_eq_true, decide_eq_true_eq] at hwf
  obtain ⟨⟨⟨hg, h1⟩, h2⟩, h3⟩ := hwf
  obtain ⟨ha, f0, f1, f2, f3⟩ := flds1 1 h 0x05 d a b h1 h2 h3
  refine uni_intro rfl rfl hg (by decide) ha (fun l => ?_)
  rw [arm_sxor]
  simp only [f0, f1, f2, f3, need_true, sub_some, bit_eq_one, beq_self_eq_true, BitVec.ofNat_toNat, BitVec.setWidth_eq, decide_true, h1, h2, h3]

theorem sshl (h : Hdr) (d : Nat) (a : Nat) (b : Nat) : Statement (.sshl h d a b) := by
  intro (hwf : (h.wf && decide (d < 64) && decide (a < 64) && decide (b < 64)) = true)
  simp only [Hdr.wf, Bool.and_eq_true, decide_eq_true_eq] at hwf
  obtain ⟨⟨⟨hg, h1⟩, h2⟩, h3⟩ := hwf
  obtain ⟨ha, f0, f1, f2, f3⟩ := flds1 1 h 0x06 d a b h1 h2 h3
  refine uni_intro rfl rfl hg (by decide) ha (fun l => ?_)
  rw [arm_sshl]
  simp only [f0, f1, f2, f3, need_true, sub_some, bit_eq_one, beq_self_eq_true, BitVec.ofNat_toNat, BitVec.setWidth_eq, decide_true, h1, h2, h3]

theorem sshr (h : Hdr) (d : Nat) (a : Nat) (b : Nat) (k : ShrK) : Statement (.sshr h d a b k) := by
  intro (hwf : (h.wf && decide (d < 64) && decide (a < 64) && decide (b < 64)) = true)
  simp only [Hdr.wf, Bool.and_eq_true, decide_eq_true_eq] at hwf
  obtain ⟨⟨⟨hg, h1⟩, h2⟩, h3⟩ := hwf
  obtain ⟨ha, f0, f1, f2, f3⟩ := flds0 1 h 0x07 d a b k.code h1 h2 h3 k.code_lt
  refine uni_intro rfl rfl hg (by decide) ha (fun l => ?_)
  rw [arm_sshr]
  simp only [f0, f1, f2, f3, ShrK.ofCode_code, need_true, sub_some, bit_eq_one, beq_self_eq_true, BitVec.ofNat_toNat, BitVec.setWidth_eq, decide_true, h1, h2, h3]

theorem smin (h : Hdr) (d : Nat) (a : Nat) (b : Nat) (k : SgnK) : Statement (.smin h d a b k) := by
  intro (hwf : (h.wf && decide (d < 64) && decide (a < 64) && decide (b < 64)) = true)
  simp only [Hdr.wf, Bool.and_eq_true, decide_eq_true_eq] at hwf
  obtain ⟨⟨⟨hg, h1⟩, h2⟩, h3⟩ := hwf
  obtain ⟨ha, f0, f1, f2, f3⟩ := flds0 1 h 0x08 d a b k.code h1 h2 h3 k.code_lt
  refine uni_intro rfl rfl hg (by decide) ha (fun l => ?_)
  rw [arm_smin]
  simp only [f0, f1, f2, f3, SgnK.ofCode_code, need_true, sub_some, bit_eq_one, beq_self_eq_true, BitVec.ofNat_toNat, BitVec.setWidth_eq, decide_true, h1, h2, h3]

theorem smax (h : Hdr) (d : Nat) (a : Nat) (b : Nat) (k : SgnK) : Statement (.smax h d a b k) := by
  intro (hwf : (h.wf && decide (d < 64) && decide (a < 64) && decide (b < 64)) = true)
  simp only [Hdr.wf, Bool.and_eq_true, decide_eq_true_eq] at hwf
  obtain ⟨⟨⟨hg, h1⟩, h2⟩, h3⟩ := hwf
  obtain ⟨ha, f0, f1, f2, f3⟩ := flds0 1 h 0x09 d a b k.code h1 h2 h3 k.code_lt
  refine uni_intro rfl rfl hg (by decide) ha (fun l => ?_)
  rw [arm_smax]
  simp only [f0, f1, f2, f3, SgnK.ofCode_code, need_true, sub_some, bit_eq_one, beq_self_eq_true, BitVec.ofNat_toNat, BitVec.setWidth_eq, decide_true, h1, h2, h3]

theorem saddi (h : Hdr) (d : Nat) (a : Nat) (imm : BitVec 8) : Statement (.saddi h d a imm) := by
  intro (hwf : (h.wf && decide (d < 64) && decide (a < 64)) = true)
  simp only [Hdr.wf, Bool.and_eq_true, decide_eq_true_eq] at hwf
  obtain ⟨⟨hg, h1⟩, h2⟩ := hwf
  obtain ⟨ha, f0, f1, f2⟩ := flds2 1 h 0x0A d a imm.toNat h1 h2 imm.isLt
  refine uni_intro rfl rfl hg (by decide) ha (fun l => ?_)
  rw [arm_saddi]
  simp only [f0, f1, f2, need_true, sub_some, bit_eq_one, beq_self_eq_true, BitVec.ofNat_toNat, BitVec.setWidth_eq, decide_true, h1, h2]

theorem smovi (h : Hdr) (d : Nat) (imm : BitVec 14) : Statement (.smovi h d imm) := by
  intro (hwf : (h.wf && decide (d < 64)) = true)
  simp only [Hdr.wf, Bool.and_eq_true, decide_eq_true_eq] at hwf
  obtain ⟨hg, h1⟩ := hwf
  obtain ⟨ha, f0, f1⟩ := flds4 1 h 0x0B d imm.toNat h1 imm.isLt
  refine uni_intro rfl rfl hg (by decide) ha (fun l => ?_)
  rw [arm_smovi]
  simp only [f0, f1, need_true, sub_some, bit_eq_one, beq_self_eq_true, BitVec.ofNat_toNat, BitVec.setWidth_eq, decide_true, h1]

theorem smovl (h : Hdr) (d : Nat) (lit : BitVec 32) : Statement (.smovl h d lit) := by
  intro (hwf : (h.wf && decide (d < 64)) = true)
  simp only [Hdr.wf, Bool.and_eq_true, decide_eq_true_eq] at hwf
  obtain ⟨hg, h1⟩ := hwf
  obtain ⟨ha, f0, f1⟩ := flds18 1 h 0x0C d h1
  refine uni_intro rfl rfl hg (by decide) ha (fun l => ?_)
  rw [arm_smovl]
  simp only [f0, f1, List.cons_append, List.headD_cons, need_true, sub_some, bit_eq_one, beq_self_eq_true, BitVec.ofNat_toNat, BitVec.setWidth_eq, decide_true, h1]

theorem smov (h : Hdr) (d : Nat) (a : Nat) : Statement (.smov h d a) := by
  intro (hwf : (h.wf && decide (d < 64) && decide (a < 64)) = true)
  simp only [Hdr.wf, Bool.and_eq_true, decide_eq_true_eq] at hwf
  obtain ⟨⟨hg, h1⟩, h2⟩ := hwf
  obtain ⟨ha, f0, f1, f2, f3⟩ := flds5 1 h 0x0D d a h1 h2
  refine uni_intro rfl rfl hg (by decide) ha (fun l => ?_)
  rw [fam_decodeUniFam0D, f3, arm_smov _ _ 0]
  simp only [f0, f1, f2, f3, need_true, sub_some, bit_eq_one, beq_self_eq_true, BitVec.ofNat_toNat, BitVec.setWidth_eq, decide_true, h1, h2]

theorem snot (h : Hdr) (d : Nat) (a : Nat) : Statement (.snot h d a) := by
  intro (hwf : (h.wf && decide (d < 64) && decide (a < 64)) = true)
  simp only [Hdr.wf, Bool.and_eq_true, decide_eq_true_eq] at hwf
  obtain ⟨⟨hg, h1⟩, h2⟩ := hwf
  obtain ⟨ha, f0, f1, f2, f3⟩ := flds6 1 h 0x0D d a h1 h2
  refine uni_intro rfl rfl hg (by decide) ha (fun l => ?_)
  rw [fam_decodeUniFam0D, f3, arm_snot _ _ 0]
  simp only [f0, f1, f2, f3, need_true, sub_some, bit_eq_one, beq_self_eq_true, BitVec.ofNat_toNat, BitVec.setWidth_eq, decide_true, h1, h2]

theorem spopc (h : Hdr) (d : Nat) (a : Nat) : Statement (.spopc h d a) := by
  intro (hwf : (h.wf && decide (d < 64) && decide (a < 64)) = true)
  simp only [Hdr.wf, Bool.and_eq_true, decide_eq_true_eq] at hwf
  obtain ⟨⟨hg, h1⟩, h2⟩ := hwf
  obtain ⟨ha, f0, f1, f2, f3⟩ := flds7 1 h 0x0D d a h1 h2
  refine uni_intro rfl rfl hg (by decide) ha (fun l => ?_)
  rw [fam_decodeUniFam0D, f3, arm_spopc _ _ 0]
  simp only [f0, f1, f2, f3, need_true, sub_some, bit_eq_one, beq_self_eq_true, BitVec.ofNat_toNat, BitVec.setWidth_eq, decide_true, h1, h2]

theorem sclz (h : Hdr) (d : Nat) (a : Nat) : Statement (.sclz h d a) := by
  intro (hwf : (h.wf && decide (d < 64) && decide (a < 64)) = true)
  simp only [Hdr.wf, Bool.and_eq_true, decide_eq_true_eq] at hwf
  obtain ⟨⟨hg, h1⟩, h2⟩ := hwf
  obtain ⟨ha, f0, f1, f2, f3⟩ := flds8 1 h 0x0D d a h1 h2
  refine uni_intro rfl rfl hg (by decide) ha (fun l => ?_)
  rw [fam_decodeUniFam0D, f3, arm_sclz _ _ 0]
  simp only [f0, f1, f2, f3, need_true, sub_some, bit_eq_one, beq_self_eq_true, BitVec.ofNat_toNat, BitVec.setWidth_eq, decide_true, h1, h2]

theorem sreadl (h : Hdr) (d : Nat) (a : Nat) (b : Nat) : Statement (.sreadl h d a b) := by
  intro (hwf : (h.wf && decide (d < 64) && decide (a < 64) && decide (b < 64)) = true)
  simp only [Hdr.wf, Bool.and_eq_true, decide_eq_true_eq] at hwf
  obtain ⟨⟨⟨hg, h1⟩, h2⟩, h3⟩ := hwf
  obtain ⟨ha, f0, f1, f2, f3⟩ := flds1 1 h 0x0E d a b h1 h2 h3
  refine uni_intro rfl rfl hg (by decide) ha (fun l => ?_)
  rw [arm_sreadl]
  simp only [f0, f1, f2, f3, need_true, sub_some, bit_eq_one, beq_self_eq_true, BitVec.ofNat_toNat, BitVec.setWidth_eq, decide_true, h1, h2, h3]

theorem slui (h : Hdr) (d : Nat) (imm : BitVec 14) : Statement (.slui h d imm) := by
  intro (hwf : (h.wf && decide (d < 64)) = true)
  simp only [Hdr.wf, Bool.and_eq_true, decide_eq_true_eq] at hwf
  obtain ⟨hg, h1⟩ := hwf
  obtain ⟨ha, f0, f1⟩ := flds4 1 h 0x0F d imm.toNat h1 imm.isLt
  refine uni_intro rfl rfl hg (by decide) ha (fun l => ?_)
  rw [arm_slui]
  simp only [f0, f1, need_true, sub_some, bit_eq_one, beq_self_eq_true, BitVec.ofNat_toNat, BitVec.setWidth_eq, decide_true, h1]

theorem xset (h : Hdr) (d : Nat) (a : Nat) (b : Nat) : Statement (.xset h d a b) := by
  intro (hwf : (h.wf && decide (d < 16) && decide (a < 64) && decide (b < 64)) = true)
  simp only [Hdr.wf, Bool.and_eq_true, decide_eq_true_eq] at hwf
  obtain ⟨⟨⟨hg, h1⟩, h2⟩, h3⟩ := hwf
  obtain ⟨ha, f0, f1, f2, f3⟩ := flds37 1 h 0x10 d a b (by omega) h2 h3
  refine uni_intro rfl rfl hg (by decide) ha (fun l => ?_)
  rw [arm_xset]
  simp only [f0, f1, f2, f3, need_true, sub_some, bit_eq_one, beq_self_eq_true, BitVec.ofNat_toNat, BitVec.setWidth_eq, decide_true, h1, h2, h3]

theorem xaddb (h : Hdr) (d : Nat) (b : Nat) : Statement (.xaddb h d b) := by
  intro (hwf : (h.wf && decide (d < 16) && decide (b < 64)) = true)
  simp only [Hdr.wf, Bool.and_eq_true, decide_eq_true_eq] at hwf
  obtain ⟨⟨hg, h1⟩, h2⟩ := hwf
  obtain ⟨ha, f0, f1, f2, f3⟩ := flds38 1 h 0x11 d b (by omega) h2
  refine uni_intro rfl rfl hg (by decide) ha (fun l => ?_)
  rw [arm_xaddb]
  simp only [f0, f1, f2, f3, need_true, sub_some, bit_eq_one, beq_self_eq_true, BitVec.ofNat_toNat, BitVec.setWidth_eq, decide_true, h1, h2]

theorem xaddbi (h : Hdr) (d : Nat) (imm : BitVec 8) : Statement (.xaddbi h d imm) := by
  intro (hwf : (h.wf && decide (d < 16)) = true)
  simp only [Hdr.wf, Bool.and_eq_true, decide_eq_true_eq] at hwf
  obtain ⟨hg, h1⟩ := hwf
  obtain ⟨ha, f0, f1, f2⟩ := flds39 1 h 0x12 d imm.toNat (by omega) imm.isLt
  refine uni_intro rfl rfl hg (by decide) ha (fun l => ?_)
  rw [arm_xaddbi]
  simp only [f0, f1, f2, need_true, sub_some, bit_eq_one, beq_self_eq_true, BitVec.ofNat_toNat, BitVec.setWidth_eq, decide_true, h1]

theorem xstr (h : Hdr) (d : Nat) (b : Nat) : Statement (.xstr h d b) := by
  intro (hwf : (h.wf && decide (d < 16) && decide (b < 64)) = true)
  simp only [Hdr.wf, Bool.and_eq_true, decide_eq_true_eq] at hwf
  obtain ⟨⟨hg, h1⟩, h2⟩ := hwf
  obtain ⟨ha, f0, f1, f2, f3⟩ := flds38 1 h 0x13 d b (by omega) h2
  refine uni_intro rfl rfl hg (by decide) ha (fun l => ?_)
  rw [arm_xstr]
  simp only [f0, f1, f2, f3, need_true, sub_some, bit_eq_one, beq_self_eq_true, BitVec.ofNat_toNat, BitVec.setWidth_eq, decide_true, h1, h2]

theorem xget (h : Hdr) (d : Nat) (a : Nat) (k : XgetK) : Statement (.xget h d a k) := by
  intro (hwf : (h.wf && decide (d < 64) && decide (a < 16)) = true)
  simp only [Hdr.wf, Bool.and_eq_true, decide_eq_true_eq] at hwf
  obtain ⟨⟨hg, h1⟩, h2⟩ := hwf
  obtain ⟨ha, f0, f1, f2, f3⟩ := flds35 1 h 0x14 d a k.code h1 (by omega) k.code_lt
  refine uni_intro rfl rfl hg (by decide) ha (fun l => ?_)
  rw [arm_xget]
  simp only [f0, f1, f2, f3, XgetK.ofCode_code, need_true, sub_some, bit_eq_one, beq_self_eq_true, BitVec.ofNat_toNat, BitVec.setWidth_eq, decide_true, h1, h2]

theorem xadd (h : Hdr) (d : Nat) (a : Nat) (b : Nat) : Statement (.xadd h d a b) := by
  intro (hwf : (h.wf && decide (d < 16) && decide (a < 16) && decide (b < 16)) = true)
  simp only [Hdr.wf, Bool.and_eq_true, decide_eq_true_eq] at hwf
  obtain ⟨⟨⟨hg, h1⟩, h2⟩, h3⟩ := hwf
  obtain ⟨ha, f0, f1, f2, f3⟩ := flds40 1 h 0x15 d a b (by omega) (by omega) (by omega)
  refine uni_intro rfl rfl hg (by decide) ha (fun l => ?_)
  rw [arm_xadd]
  simp only [f0, f1, f2, f3, need_true, sub_some, bit_eq_one, beq_self_eq_true, BitVec.ofNat_toNat, BitVec.setWidth_eq, decide_true, h1, h2, h3]

theorem xmuls (h : Hdr) (d : Nat) (imm : BitVec 8) : Statement (.xmuls h d imm) := by
  intro (hwf : (h.wf && decide (d < 16)) = true)
  simp only [Hdr.wf, Bool.and_eq_true, decide_eq_true_eq] at hwf
  obtain ⟨hg, h1⟩ := hwf
  obtain ⟨ha, f0, f1, f2⟩ := flds39 1 h 0x16 d imm.toNat (by omega) imm.isLt
  refine uni_intro rfl rfl hg (by decide) ha (fun l => ?_)
  rw [arm_xmuls]
  simp only [f0, f1, f2, need_true, sub_some, bit_eq_one, beq_self_eq_true, BitVec.ofNat_toNat, BitVec.setWidth_eq, decide_true, h1]

theorem scmpeq (h : Hdr) (d : Nat) (a : Nat) (b : Nat) (k : SCmpK) : Statement (.scmpeq h d a b k) := by
  intro (hwf : (h.wf && decide (d < 16) && decide (a < 64) && decide (b < 64)) = true)
  simp only [Hdr.wf, Bool.and_eq_true, decide_eq_true_eq] at hwf
  obtain ⟨⟨⟨hg, h1⟩, h2⟩, h3⟩ := hwf
  obtain ⟨ha, f0, f1, f2, f3⟩ := flds41 1 h 0x18 d a b k.code (by omega) h2 h3 k.code_lt
  refine uni_intro rfl rfl hg (by decide) ha (fun l => ?_)
  rw [arm_scmpeq]
  simp only [f0, f1, f2, f3, SCmpK.ofCode_code, need_true, sub_some, bit_eq_one, beq_self_eq_true, BitVec.ofNat_toNat, BitVec.setWidth_eq, decide_true, h1, h2, h3]

theorem scmpne (h : Hdr) (d : Nat) (a : Nat) (b : Nat) (k : SCmpK) : Statement (.scmpne h d a b k) := by
  intro (hwf : (h.wf && decide (d < 16) && decide (a < 64) && decide (b < 64)) = true)
  simp only [Hdr.wf, Bool.and_eq_true, decide_eq_true_eq] at hwf
  obtain ⟨⟨⟨hg, h1⟩, h2⟩, h3⟩ := hwf
  obtain ⟨ha, f0, f1, f2, f3⟩ := flds41 1 h 0x19 d a b k.code (by omega) h2 h3 k.code_lt
  refine uni_intro rfl rfl hg (by decide) ha (fun l => ?_)
  rw [arm_scmpne]
  simp only [f0, f1, f2, f3, SCmpK.ofCode_code, need_true, sub_some, bit_eq_one, beq_self_eq_true, BitVec.ofNat_toNat, BitVec.setWidth_eq, decide_true, h1, h2, h3]

theorem scmplt (h : Hdr) (d : Nat) (a : Nat) (b : Nat) (k : SCmpK) : Statement (.scmplt h d a b k) := by
  intro (hwf : (h.wf && decide (d < 16) && decide (a < 64) && decide (b < 64)) = true)
  simp only [Hdr.wf, Bool.and_eq_true, decide_eq_true_eq] at hwf
  obtain ⟨⟨⟨hg, h1⟩, h2⟩, h3⟩ := hwf
  obtain ⟨ha, f0, f1, f2, f3⟩ := flds41 1 h 0x1A d a b k.code (by omega) h2 h3 k.code_lt
  refine uni_intro rfl rfl hg (by decide) ha (fun l => ?_)
  rw [arm_scmplt]
  simp only [f0, f1, f2, f3, SCmpK.ofCode_code, need_true, sub_some, bit_eq_one, beq_self_eq_true, BitVec.ofNat_toNat, BitVec.setWidth_eq, decide_true, h1, h2, h3]

theorem scmple (h : Hdr) (d : Nat) (a : Nat) (b : Nat) (k : SCmpK) : Statement (.scmple h d a b k) := by
  intro (hwf : (h.wf && decide (d < 16) && decide (a < 64) && decide (b < 64)) = true)
  simp only [Hdr.wf, Bool.and_eq_true, decide_eq_true_eq] at hwf
  obtain ⟨⟨⟨hg, h1⟩, h2⟩, h3⟩ := hwf
  obtain ⟨ha, f0, f1, f2, f3⟩ := flds41 1 h 0x1B d a b k.code (by omega) h2 h3 k.code_lt
  refine uni_intro rfl rfl hg (by decide) ha (fun l => ?_)
  rw [arm_scmple]
  simp only [f0, f1, f2, f3, SCmpK.ofCode_code, need_true, sub_some, bit_eq_one, beq_self_eq_true, BitVec.ofNat_toNat, BitVec.setWidth_eq, decide_true, h1, h2, h3]

theorem qlog (h : Hdr) (d : Nat) (a : Nat) (b : Nat) (k : LogK) : Statement (.qlog h d a b k) := by
  intro (hwf : (h.wf && decide (d < 16) && decide (a < 16) && decide (b < 16)) = true)
  simp only [Hdr.wf, Bool.and_eq_true, decide_eq_true_eq] at hwf
  obtain ⟨⟨⟨hg, h1⟩, h2⟩, h3⟩ := hwf
  obtain ⟨ha, f0, f1, f2, f3⟩ := flds42 1 h 0x1C d a b k.code (by omega) (by omega) (by omega) k.code_lt
  refine uni_intro rfl rfl hg (by decide) ha (fun l => ?_)
  rw [arm_qlog]
  simp only [f0, f1, f2, f3, LogK.ofCode_code, need_true, sub_some, bit_eq_one, beq_self_eq_true, BitVec.ofNat_toNat, BitVec.setWidth_eq, decide_true, h1, h2, h3]

theorem qany (h : Hdr) (d : Nat) (a : Nat) (k : AnyK) : Statement (.qany h d a k) := by
  intro (hwf : (h.wf && decide (d < 16) && decide (a < 64)) = true)
  simp only [Hdr.wf, Bool.and_eq_true, decide_eq_true_eq] at hwf
  obtain ⟨⟨hg, h1⟩, h2⟩ := hwf
  obtain ⟨ha, f0, f1, f2, f3⟩ := flds43 1 h 0x1D d a k.code (by omega) h2 k.code_lt
  refine uni_intro rfl rfl hg (by decide) ha (fun l => ?_)
  rw [arm_qany]
  simp only [f0, f1, f2, f3, AnyK.ofCode_code, need_true, sub_some, bit_eq_one, beq_self_eq_true, BitVec.ofNat_toNat, BitVec.setWidth_eq, decide_true, h1, h2]

theorem qmov (h : Hdr) (d : Nat) (a : Nat) (k : MovK) : Statement (.qmov h d a k) := by
  intro (hwf : (h.wf && decide (d < 16) && decide (a < 16) && (k.code < 2 || a == 0)) = true)
  simp only [Hdr.wf, Bool.and_eq_true, decide_eq_true_eq] at hwf
  obtain ⟨⟨⟨hg, h1⟩, h2⟩, h3⟩ := hwf
  obtain ⟨ha, f0, f1, f2, f3⟩ := flds44 1 h 0x1E d a k.code (by omega) (by omega) k.code_lt
  refine uni_intro rfl rfl hg (by decide) ha (fun l => ?_)
  rw [arm_qmov]
  simp only [f0, f1, f2, f3, MovK.ofCode_code, need_true, sub_some, bit_eq_one, beq_self_eq_true, BitVec.ofNat_toNat, BitVec.setWidth_eq, decide_true, h1, h2, h3]

theorem bra (h : Hdr) (off : BitVec 20) : Statement (.bra h off) := by
  intro (hwf : (h.wf) = true)
  have hg : h.g < 8 := decide_eq_true_iff.1 hwf
  obtain ⟨ha, f0⟩ := flds32 1 h 0x20 off.toNat off.isLt
  refine uni_intro rfl rfl hg (by decide) ha (fun l => ?_)
  rw [arm_bra]
  simp only [f0, need_true, sub_some, bit_eq_one, beq_self_eq_true, BitVec.ofNat_toNat, BitVec.setWidth_eq, decide_true]

theorem brx (h : Hdr) (a : Nat) : Statement (.brx h a) := by
  intro (hwf : (h.wf && decide (a < 64)) = true)
  simp only [Hdr.wf, Bool.and_eq_true, decide_eq_true_eq] at hwf
  obtain ⟨hg, h1⟩ := hwf
  obtain ⟨ha, f0, f1, f2, f3⟩ := flds34 1 h 0x21 a h1
  refine uni_intro rfl rfl hg (by decide) ha (fun l => ?_)
  rw [arm_brx]
  simp only [f0, f1, f2, f3, need_true, sub_some, bit_eq_one, beq_self_eq_true, BitVec.ofNat_toNat, BitVec.setWidth_eq, decide_true, h1]

theorem barg (h : Hdr) : Statement (.barg h) := by
  intro (hwf : (h.wf) = true)
  have hg : h.g < 8 := decide_eq_true_iff.1 hwf
  obtain ⟨ha, f0⟩ := flds31 1 h 0x22  
  refine uni_intro rfl rfl hg (by decide) ha (fun l => ?_)
  rw [arm_barg]
  simp only [f0, need_true, sub_some, bit_eq_one, beq_self_eq_true, BitVec.ofNat_toNat, BitVec.setWidth_eq, decide_true]

theorem bar (h : Hdr) (nowait : Bool) (id : Nat) : Statement (.bar h nowait id) := by
  intro (hwf : (h.wf && decide (id < 16)) = true)
  simp only [Hdr.wf, Bool.and_eq_true, decide_eq_true_eq] at hwf
  obtain ⟨hg, h1⟩ := hwf
  obtain ⟨ha, f0, f1, f2, f3, f4⟩ := flds45 1 h 0x23 (bit nowait) id (bit_lt nowait) h1
  refine uni_intro rfl rfl hg (by decide) ha (fun l => ?_)
  rw [arm_bar]
  simp only [f0, f1, f2, f3, f4, need_true, sub_some, bit_eq_one, beq_self_eq_true, BitVec.ofNat_toNat, BitVec.setWidth_eq, decide_true, h1]

theorem fence (h : Hdr) (p : PathMask) (k : FenceK) (sc : Scope) : Statement (.fence h p k sc) := by
  intro (hwf : (h.wf) = true)
  have hg : h.g < 8 := decide_eq_true_iff.1 hwf
  obtain ⟨ha, f0, f1, f2, f3, f4⟩ := flds46 1 h 0x24 p.code k.code sc.code p.code_lt k.code_lt sc.code_lt
  refine uni_intro rfl rfl hg (by decide) ha (fun l => ?_)
  rw [arm_fence]
  simp only [f0, f1, f2, f3, f4, PathMask.ofCode_code, FenceK.ofCode_code, Scope.ofCode_code, need_true, sub_some, bit_eq_one, beq_self_eq_true, BitVec.ofNat_toNat, BitVec.setWidth_eq, decide_true]

theorem nop (h : Hdr) : Statement (.nop h) := by
  intro (hwf : (h.wf) = true)
  have hg : h.g < 8 := decide_eq_true_iff.1 hwf
  obtain ⟨ha, f0⟩ := flds31 1 h 0x25  
  refine uni_intro rfl rfl hg (by decide) ha (fun l => ?_)
  rw [arm_nop]
  simp only [f0, need_true, sub_some, bit_eq_one, beq_self_eq_true, BitVec.ofNat_toNat, BitVec.setWidth_eq, decide_true]

theorem end_ (h : Hdr) : Statement (.end_ h) := by
  intro (hwf : (h.wf) = true)
  have hg : h.g < 8 := decide_eq_true_iff.1 hwf
  obtain ⟨ha, f0⟩ := flds31 1 h 0x26  
  refine uni_intro rfl rfl hg (by decide) ha (fun l => ?_)
  rw [arm_end_]
  simp only [f0, need_true, sub_some, bit_eq_one, beq_self_eq_true, BitVec.ofNat_toNat, BitVec.setWidth_eq, decide_true]

theorem waitt (h : Hdr) (a : Nat) : Statement (.waitt h a) := by
  intro (hwf : (h.wf && decide (a < 64)) = true)
  simp only [Hdr.wf, Bool.and_eq_true, decide_eq_true_eq] at hwf
  obtain ⟨hg, h1⟩ := hwf
  obtain ⟨ha, f0, f1, f2, f3⟩ := flds34 1 h 0x27 a h1
  refine uni_intro rfl rfl hg (by decide) ha (fun l => ?_)
  rw [arm_waitt]
  simp only [f0, f1, f2, f3, need_true, sub_some, bit_eq_one, beq_self_eq_true, BitVec.ofNat_toNat, BitVec.setWidth_eq, decide_true, h1]

theorem launch (h : Hdr) (d : Nat) (a : Nat) : Statement (.launch h d a) := by
  intro (hwf : (h.wf && decide (d < 64) && decide (a < 64)) = true)
  simp only [Hdr.wf, Bool.and_eq_true, decide_eq_true_eq] at hwf
  obtain ⟨⟨hg, h1⟩, h2⟩ := hwf
  obtain ⟨ha, f0, f1, f2, f3⟩ := flds25 1 h 0x28 d a h1 h2
  refine uni_intro rfl rfl hg (by decide) ha (fun l => ?_)
  rw [arm_launch]
  simp only [f0, f1, f2, f3, need_true, sub_some, bit_eq_one, beq_self_eq_true, BitVec.ofNat_toNat, BitVec.setWidth_eq, decide_true, h1, h2]

theorem fork (h : Hdr) (a : Nat) (b : Nat) (k : ForkK) : Statement (.fork h a b k) := by
  intro (hwf : (h.wf && decide (a < 64) && decide (b < 64)) = true)
  simp only [Hdr.wf, Bool.and_eq_true, decide_eq_true_eq] at hwf
  obtain ⟨⟨hg, h1⟩, h2⟩ := hwf
  obtain ⟨ha, f0, f1, f2, f3⟩ := flds47 1 h 0x30 a b k.code h1 h2 k.code_lt
  refine uni_intro rfl rfl hg (by decide) ha (fun l => ?_)
  rw [arm_fork]
  simp only [f0, f1, f2, f3, ForkK.ofCode_code, need_true, sub_some, bit_eq_one, beq_self_eq_true, BitVec.ofNat_toNat, BitVec.setWidth_eq, decide_true, h1, h2]

theorem rdv (h : Hdr) (id : Nat) : Statement (.rdv h id) := by
  intro (hwf : (h.wf && decide (id < 8)) = true)
  simp only [Hdr.wf, Bool.and_eq_true, decide_eq_true_eq] at hwf
  obtain ⟨hg, h1⟩ := hwf
  obtain ⟨ha, f0, f1, f2, f3⟩ := flds48 1 h 0x31 id h1
  refine uni_intro rfl rfl hg (by decide) ha (fun l => ?_)
  rw [arm_rdv]
  simp only [f0, f1, f2, f3, need_true, sub_some, bit_eq_one, beq_self_eq_true, BitVec.ofNat_toNat, BitVec.setWidth_eq, decide_true, h1]

theorem cpy (h : Hdr) (d : Nat) (a : Nat) : Statement (.cpy h d a) := by
  intro (hwf : (h.wf && decide (d < 64) && decide (a < 64)) = true)
  simp only [Hdr.wf, Bool.and_eq_true, decide_eq_true_eq] at hwf
  obtain ⟨⟨hg, h1⟩, h2⟩ := hwf
  obtain ⟨ha, f0, f1, f2, f3⟩ := flds25 1 h 0x32 d a h1 h2
  refine uni_intro rfl rfl hg (by decide) ha (fun l => ?_)
  rw [arm_cpy]
  simp only [f0, f1, f2, f3, need_true, sub_some, bit_eq_one, beq_self_eq_true, BitVec.ofNat_toNat, BitVec.setWidth_eq, decide_true, h1, h2]

theorem cpyw (h : Hdr) (d : Nat) (a : Nat) : Statement (.cpyw h d a) := by
  intro (hwf : (h.wf && decide (d < 64) && decide (a < 64)) = true)
  simp only [Hdr.wf, Bool.and_eq_true, decide_eq_true_eq] at hwf
  obtain ⟨⟨hg, h1⟩, h2⟩ := hwf
  obtain ⟨ha, f0, f1, f2, f3⟩ := flds25 1 h 0x33 d a h1 h2
  refine uni_intro rfl rfl hg (by decide) ha (fun l => ?_)
  rw [arm_cpyw]
  simp only [f0, f1, f2, f3, need_true, sub_some, bit_eq_one, beq_self_eq_true, BitVec.ofNat_toNat, BitVec.setWidth_eq, decide_true, h1, h2]

theorem rbind (h : Hdr) (d : Nat) (a : Nat) : Statement (.rbind h d a) := by
  intro (hwf : (h.wf && decide (d < 8) && decide (a < 64)) = true)
  simp only [Hdr.wf, Bool.and_eq_true, decide_eq_true_eq] at hwf
  obtain ⟨⟨hg, h1⟩, h2⟩ := hwf
  obtain ⟨ha, f0, f1, f2, f3⟩ := flds49 1 h 0x34 d a (by omega) h2
  refine uni_intro rfl rfl hg (by decide) ha (fun l => ?_)
  rw [arm_rbind]
  simp only [f0, f1, f2, f3, need_true, sub_some, bit_eq_one, beq_self_eq_true, BitVec.ofNat_toNat, BitVec.setWidth_eq, decide_true, h1, h2]

theorem rpub (h : Hdr) (d : Nat) (n : Nat) : Statement (.rpub h d n) := by
  intro (hwf : (h.wf && decide (d < 8) && decide (0 < n) && decide (n < 256)) = true)
  simp only [Hdr.wf, Bool.and_eq_true, decide_eq_true_eq] at hwf
  obtain ⟨⟨⟨hg, h1⟩, h2⟩, h3⟩ := hwf
  obtain ⟨ha, f0, f1, f2⟩ := flds39 1 h 0x35 d n (by omega) h3
  refine uni_intro rfl rfl hg (by decide) ha (fun l => ?_)
  rw [arm_rpub]
  simp only [f0, f1, f2, need_true, sub_some, bit_eq_one, beq_self_eq_true, BitVec.ofNat_toNat, BitVec.setWidth_eq, decide_true, h1, h2, h3]

theorem rwaitf (h : Hdr) (d : Nat) (n : Nat) : Statement (.rwaitf h d n) := by
  intro (hwf : (h.wf && decide (d < 8) && decide (0 < n) && decide (n < 256)) = true)
  simp only [Hdr.wf, Bool.and_eq_true, decide_eq_true_eq] at hwf
  obtain ⟨⟨⟨hg, h1⟩, h2⟩, h3⟩ := hwf
  obtain ⟨ha, f0, f1, f2⟩ := flds39 1 h 0x36 d n (by omega) h3
  refine uni_intro rfl rfl hg (by decide) ha (fun l => ?_)
  rw [arm_rwaitf]
  simp only [f0, f1, f2, need_true, sub_some, bit_eq_one, beq_self_eq_true, BitVec.ofNat_toNat, BitVec.setWidth_eq, decide_true, h1, h2, h3]

theorem steep (h : Hdr) (d : Nat) (a : Nat) (b : Nat) : Statement (.steep h d a b) := by
  intro (hwf : (h.wf && decide (d < 64) && decide (a < 64) && decide (b < 64)) = true)
  simp only [Hdr.wf, Bool.and_eq_true, decide_eq_true_eq] at hwf
  obtain ⟨⟨⟨hg, h1⟩, h2⟩, h3⟩ := hwf
  obtain ⟨ha, f0, f1, f2, f3⟩ := flds1 1 h 0x37 d a b h1 h2 h3
  refine uni_intro rfl rfl hg (by decide) ha (fun l => ?_)
  rw [arm_steep]
  simp only [f0, f1, f2, f3, need_true, sub_some, bit_eq_one, beq_self_eq_true, BitVec.ofNat_toNat, BitVec.setWidth_eq, decide_true, h1, h2, h3]

theorem meas (h : Hdr) (d : Nat) (a : Nat) (b : Nat) : Statement (.meas h d a b) := by
  intro (hwf : (h.wf && decide (d < 64) && decide (a < 64) && decide (b < 64)) = true)
  simp only [Hdr.wf, Bool.and_eq_true, decide_eq_true_eq] at hwf
  obtain ⟨⟨⟨hg, h1⟩, h2⟩, h3⟩ := hwf
  obtain ⟨ha, f0, f1, f2, f3⟩ := flds1 1 h 0x38 d a b h1 h2 h3
  refine uni_intro rfl rfl hg (by decide) ha (fun l => ?_)
  rw [arm_meas]
  simp only [f0, f1, f2, f3, need_true, sub_some, bit_eq_one, beq_self_eq_true, BitVec.ofNat_toNat, BitVec.setWidth_eq, decide_true, h1, h2, h3]

theorem trap (h : Hdr) (code : BitVec 14) : Statement (.trap h code) := by
  intro (hwf : (h.wf) = true)
  have hg : h.g < 8 := decide_eq_true_iff.1 hwf
  obtain ⟨ha, f0, f1⟩ := flds50 1 h 0x40 code.toNat code.isLt
  refine uni_intro rfl rfl hg (by decide) ha (fun l => ?_)
  rw [arm_trap]
  simp only [f0, f1, need_true, sub_some, bit_eq_one, beq_self_eq_true, BitVec.ofNat_toNat, BitVec.setWidth_eq, decide_true]

theorem cbegin (h : Hdr) (off : BitVec 20) : Statement (.cbegin h off) := by
  intro (hwf : (h.wf) = true)
  have hg : h.g < 8 := decide_eq_true_iff.1 hwf
  obtain ⟨ha, f0⟩ := flds32 1 h 0x41 off.toNat off.isLt
  refine uni_intro rfl rfl hg (by decide) ha (fun l => ?_)
  rw [arm_cbegin]
  simp only [f0, need_true, sub_some, bit_eq_one, beq_self_eq_true, BitVec.ofNat_toNat, BitVec.setWidth_eq, decide_true]

theorem cend (h : Hdr) : Statement (.cend h) := by
  intro (hwf : (h.wf) = true)
  have hg : h.g < 8 := decide_eq_true_iff.1 hwf
  obtain ⟨ha, f0⟩ := flds31 1 h 0x42  
  refine uni_intro rfl rfl hg (by decide) ha (fun l => ?_)
  rw [arm_cend]
  simp only [f0, need_true, sub_some, bit_eq_one, beq_self_eq_true, BitVec.ofNat_toNat, BitVec.setWidth_eq, decide_true]

theorem tlbw (h : Hdr) (d : Nat) (a : Nat) : Statement (.tlbw h d a) := by
  intro (hwf : (h.wf && decide (d < 64) && decide (a < 64)) = true)
  simp only [Hdr.wf, Bool.and_eq_true, decide_eq_true_eq] at hwf
  obtain ⟨⟨hg, h1⟩, h2⟩ := hwf
  obtain ⟨ha, f0, f1, f2, f3⟩ := flds25 1 h 0x43 d a h1 h2
  refine uni_intro rfl rfl hg (by decide) ha (fun l => ?_)
  rw [arm_tlbw]
  simp only [f0, f1, f2, f3, need_true, sub_some, bit_eq_one, beq_self_eq_true, BitVec.ofNat_toNat, BitVec.setWidth_eq, decide_true, h1, h2]

theorem tlbi (h : Hdr) (a : Nat) (k : TlbiK) : Statement (.tlbi h a k) := by
  intro (hwf : (h.wf && decide (a < 64) && (k != .all || a == 0)) = true)
  simp only [Hdr.wf, Bool.and_eq_true, decide_eq_true_eq] at hwf
  obtain ⟨⟨hg, h1⟩, h2⟩ := hwf
  obtain ⟨ha, f0, f1, f2, f3⟩ := flds51 1 h 0x44 a k.code h1 k.code_lt
  refine uni_intro rfl rfl hg (by decide) ha (fun l => ?_)
  rw [arm_tlbi]
  simp only [f0, f1, f2, f3, TlbiK.ofCode_code, need_true, sub_some, bit_eq_one, beq_self_eq_true, BitVec.ofNat_toNat, BitVec.setWidth_eq, decide_true, h1, h2]

theorem pgreq (h : Hdr) (d : Nat) (a : Nat) : Statement (.pgreq h d a) := by
  intro (hwf : (h.wf && decide (d < 64) && decide (a < 64)) = true)
  simp only [Hdr.wf, Bool.and_eq_true, decide_eq_true_eq] at hwf
  obtain ⟨⟨hg, h1⟩, h2⟩ := hwf
  obtain ⟨ha, f0, f1, f2, f3⟩ := flds25 1 h 0x45 d a h1 h2
  refine uni_intro rfl rfl hg (by decide) ha (fun l => ?_)
  rw [arm_pgreq]
  simp only [f0, f1, f2, f3, need_true, sub_some, bit_eq_one, beq_self_eq_true, BitVec.ofNat_toNat, BitVec.setWidth_eq, decide_true, h1, h2]

theorem framea (h : Hdr) (d : Nat) : Statement (.framea h d) := by
  intro (hwf : (h.wf && decide (d < 64)) = true)
  simp only [Hdr.wf, Bool.and_eq_true, decide_eq_true_eq] at hwf
  obtain ⟨hg, h1⟩ := hwf
  obtain ⟨ha, f0, f1, f2, f3⟩ := flds52 1 h 0x46 d h1
  refine uni_intro rfl rfl hg (by decide) ha (fun l => ?_)
  rw [arm_framea]
  simp only [f0, f1, f2, f3, need_true, sub_some, bit_eq_one, beq_self_eq_true, BitVec.ofNat_toNat, BitVec.setWidth_eq, decide_true, h1]

theorem framef (h : Hdr) (d : Nat) (a : Nat) : Statement (.framef h d a) := by
  intro (hwf : (h.wf && decide (d < 64) && decide (a < 64)) = true)
  simp only [Hdr.wf, Bool.and_eq_true, decide_eq_true_eq] at hwf
  obtain ⟨⟨hg, h1⟩, h2⟩ := hwf
  obtain ⟨ha, f0, f1, f2, f3⟩ := flds25 1 h 0x47 d a h1 h2
  refine uni_intro rfl rfl hg (by decide) ha (fun l => ?_)
  rw [arm_framef]
  simp only [f0, f1, f2, f3, need_true, sub_some, bit_eq_one, beq_self_eq_true, BitVec.ofNat_toNat, BitVec.setWidth_eq, decide_true, h1, h2]

theorem migr (h : Hdr) (d : Nat) (a : Nat) (b : Nat) : Statement (.migr h d a b) := by
  intro (hwf : (h.wf && decide (d < 64) && decide (a < 64) && decide (b < 64)) = true)
  simp only [Hdr.wf, Bool.and_eq_true, decide_eq_true_eq] at hwf
  obtain ⟨⟨⟨hg, h1⟩, h2⟩, h3⟩ := hwf
  obtain ⟨ha, f0, f1, f2, f3⟩ := flds1 1 h 0x48 d a b h1 h2 h3
  refine uni_intro rfl rfl hg (by decide) ha (fun l => ?_)
  rw [arm_migr]
  simp only [f0, f1, f2, f3, need_true, sub_some, bit_eq_one, beq_self_eq_true, BitVec.ofNat_toNat, BitVec.setWidth_eq, decide_true, h1, h2, h3]

theorem csrr (h : Hdr) (d : Nat) (csr : BitVec 12) : Statement (.csrr h d csr) := by
  intro (hwf : (h.wf && decide (d < 64) && csrKnown csr) = true)
  simp only [Hdr.wf, Bool.and_eq_true, decide_eq_true_eq] at hwf
  obtain ⟨⟨hg, h1⟩, h2⟩ := hwf
  obtain ⟨ha, f0, f1, f2⟩ := flds53 1 h 0x49 d csr.toNat h1 csr.isLt
  refine uni_intro rfl rfl hg (by decide) ha (fun l => ?_)
  rw [arm_csrr]
  simp only [f0, f1, f2, need_true, sub_some, bit_eq_one, beq_self_eq_true, BitVec.ofNat_toNat, BitVec.setWidth_eq, decide_true, h1, h2]

theorem csrw (h : Hdr) (d : Nat) (csr : BitVec 12) : Statement (.csrw h d csr) := by
  intro (hwf : (h.wf && decide (d < 64) && csrWritable csr) = true)
  simp only [Hdr.wf, Bool.and_eq_true, decide_eq_true_eq] at hwf
  obtain ⟨⟨hg, h1⟩, h2⟩ := hwf
  obtain ⟨ha, f0, f1, f2⟩ := flds53 1 h 0x4A d csr.toNat h1 csr.isLt
  refine uni_intro rfl rfl hg (by decide) ha (fun l => ?_)
  rw [arm_csrw]
  simp only [f0, f1, f2, need_true, sub_some, bit_eq_one, beq_self_eq_true, BitVec.ofNat_toNat, BitVec.setWidth_eq, decide_true, h1, h2]

theorem hret (h : Hdr) (a : Nat) (k : HretK) : Statement (.hret h a k) := by
  intro (hwf : (h.wf && decide (a < 64) && (k != .saved || a == 0)) = true)
  simp only [Hdr.wf, Bool.and_eq_true, decide_eq_true_eq] at hwf
  obtain ⟨⟨hg, h1⟩, h2⟩ := hwf
  obtain ⟨ha, f0, f1, f2, f3⟩ := flds51 1 h 0x4B a k.code h1 k.code_lt
  refine uni_intro rfl rfl hg (by decide) ha (fun l => ?_)
  rw [arm_hret]
  simp only [f0, f1, f2, f3, HretK.ofCode_code, need_true, sub_some, bit_eq_one, beq_self_eq_true, BitVec.ofNat_toNat, BitVec.setWidth_eq, decide_true, h1, h2]

theorem halto (h : Hdr) (a : Nat) : Statement (.halto h a) := by
  intro (hwf : (h.wf && decide (a < 64)) = true)
  simp only [Hdr.wf, Bool.and_eq_true, decide_eq_true_eq] at hwf
  obtain ⟨hg, h1⟩ := hwf
  obtain ⟨ha, f0, f1, f2, f3⟩ := flds34 1 h 0x4C a h1
  refine uni_intro rfl rfl hg (by decide) ha (fun l => ?_)
  rw [arm_halto]
  simp only [f0, f1, f2, f3, need_true, sub_some, bit_eq_one, beq_self_eq_true, BitVec.ofNat_toNat, BitVec.setWidth_eq, decide_true, h1]

theorem discard (h : Hdr) (d : Nat) (a : Nat) (b : Nat) : Statement (.discard h d a b) := by
  intro (hwf : (h.wf && decide (d < 64) && decide (a < 64) && decide (b < 64)) = true)
  simp only [Hdr.wf, Bool.and_eq_true, decide_eq_true_eq] at hwf
  obtain ⟨⟨⟨hg, h1⟩, h2⟩, h3⟩ := hwf
  obtain ⟨ha, f0, f1, f2, f3⟩ := flds1 1 h 0x4D d a b h1 h2 h3
  refine uni_intro rfl rfl hg (by decide) ha (fun l => ?_)
  rw [arm_discard]
  simp only [f0, f1, f2, f3, need_true, sub_some, bit_eq_one, beq_self_eq_true, BitVec.ofNat_toNat, BitVec.setWidth_eq, decide_true, h1, h2, h3]

theorem bincfg (h : Hdr) (d : Nat) (a : Nat) (b : Nat) : Statement (.bincfg h d a b) := by
  intro (hwf : (h.wf && decide (d < 16) && decide (a < 16) && decide (b < 64)) = true)
  simp only [Hdr.wf, Bool.and_eq_true, decide_eq_true_eq] at hwf
  obtain ⟨⟨⟨hg, h1⟩, h2⟩, h3⟩ := hwf
  obtain ⟨ha, f0, f1, f2, f3⟩ := flds54 1 h 0x50 d a b (by omega) (by omega) h3
  refine uni_intro rfl rfl hg (by decide) ha (fun l => ?_)
  rw [arm_bincfg]
  simp only [f0, f1, f2, f3, need_true, sub_some, bit_eq_one, beq_self_eq_true, BitVec.ofNat_toNat, BitVec.setWidth_eq, decide_true, h1, h2, h3]

theorem binwake (h : Hdr) (d : Nat) (a : Nat) : Statement (.binwake h d a) := by
  intro (hwf : (h.wf && decide (d < 16) && decide (a < 64)) = true)
  simp only [Hdr.wf, Bool.and_eq_true, decide_eq_true_eq] at hwf
  obtain ⟨⟨hg, h1⟩, h2⟩ := hwf
  obtain ⟨ha, f0, f1, f2, f3⟩ := flds49 1 h 0x51 d a (by omega) h2
  refine uni_intro rfl rfl hg (by decide) ha (fun l => ?_)
  rw [arm_binwake]
  simp only [f0, f1, f2, f3, need_true, sub_some, bit_eq_one, beq_self_eq_true, BitVec.ofNat_toNat, BitVec.setWidth_eq, decide_true, h1, h2]

theorem binflush (h : Hdr) (d : Nat) : Statement (.binflush h d) := by
  intro (hwf : (h.wf && decide (d < 16)) = true)
  simp only [Hdr.wf, Bool.and_eq_true, decide_eq_true_eq] at hwf
  obtain ⟨hg, h1⟩ := hwf
  obtain ⟨ha, f0, f1, f2, f3⟩ := flds55 1 h 0x52 d (by omega)
  refine uni_intro rfl rfl hg (by decide) ha (fun l => ?_)
  rw [arm_binflush]
  simp only [f0, f1, f2, f3, need_true, sub_some, bit_eq_one, beq_self_eq_true, BitVec.ofNat_toNat, BitVec.setWidth_eq, decide_true, h1]

theorem binq (h : Hdr) (d : Nat) (a : Nat) (k : BinqK) : Statement (.binq h d a k) := by
  intro (hwf : (h.wf && decide (d < 64) && decide (a < 16)) = true)
  simp only [Hdr.wf, Bool.and_eq_true, decide_eq_true_eq] at hwf
  obtain ⟨⟨hg, h1⟩, h2⟩ := hwf
  obtain ⟨ha, f0, f1, f2, f3⟩ := flds35 1 h 0x53 d a k.code h1 (by omega) k.code_lt
  refine uni_intro rfl rfl hg (by decide) ha (fun l => ?_)
  rw [arm_binq]
  simp only [f0, f1, f2, f3, BinqK.ofCode_code, need_true, sub_some, bit_eq_one, beq_self_eq_true, BitVec.ofNat_toNat, BitVec.setWidth_eq, decide_true, h1, h2]

theorem frameld (h : Hdr) : Statement (.frameld h) := by
  intro (hwf : (h.wf && h.g == 7) = true)
  simp only [Hdr.wf, Bool.and_eq_true, decide_eq_true_eq] at hwf
  obtain ⟨hg, h1⟩ := hwf
  obtain ⟨ha, f0⟩ := flds31 1 h 0x54  
  refine uni_intro rfl rfl hg (by decide) ha (fun l => ?_)
  rw [arm_frameld]
  simp only [f0, need_true, sub_some, bit_eq_one, beq_self_eq_true, BitVec.ofNat_toNat, BitVec.setWidth_eq, decide_true, h1]

theorem tbind (h : Hdr) (d : Nat) (a : Nat) : Statement (.tbind h d a) := by
  intro (hwf : (h.wf && decide (d < 16) && decide (a < 64)) = true)
  simp only [Hdr.wf, Bool.and_eq_true, decide_eq_true_eq] at hwf
  obtain ⟨⟨hg, h1⟩, h2⟩ := hwf
  obtain ⟨ha, f0, f1, f2, f3⟩ := flds49 1 h 0x60 d a (by omega) h2
  refine uni_intro rfl rfl hg (by decide) ha (fun l => ?_)
  rw [arm_tbind]
  simp only [f0, f1, f2, f3, need_true, sub_some, bit_eq_one, beq_self_eq_true, BitVec.ofNat_toNat, BitVec.setWidth_eq, decide_true, h1, h2]

theorem tzero (h : Hdr) (d : Nat) : Statement (.tzero h d) := by
  intro (hwf : (h.wf && decide (d < 16)) = true)
  simp only [Hdr.wf, Bool.and_eq_true, decide_eq_true_eq] at hwf
  obtain ⟨hg, h1⟩ := hwf
  obtain ⟨ha, f0, f1, f2, f3⟩ := flds55 1 h 0x61 d (by omega)
  refine uni_intro rfl rfl hg (by decide) ha (fun l => ?_)
  rw [arm_tzero]
  simp only [f0, f1, f2, f3, need_true, sub_some, bit_eq_one, beq_self_eq_true, BitVec.ofNat_toNat, BitVec.setWidth_eq, decide_true, h1]

theorem tcolop (h : Hdr) (d : Nat) (a : Nat) (b : Nat) (k : ColOpK) : Statement (.tcolop h d a b k) := by
  intro (hwf : (h.wf && decide (d < 16) && decide (a < 64) && decide (b < 64)) = true)
  simp only [Hdr.wf, Bool.and_eq_true, decide_eq_true_eq] at hwf
  obtain ⟨⟨⟨hg, h1⟩, h2⟩, h3⟩ := hwf
  obtain ⟨ha, f0, f1, f2, f3⟩ := flds41 1 h 0x62 d a b k.code (by omega) h2 h3 k.code_lt
  refine uni_intro rfl rfl hg (by decide) ha (fun l => ?_)
  rw [arm_tcolop]
  simp only [f0, f1, f2, f3, ColOpK.ofCode_code, need_true, sub_some, bit_eq_one, beq_self_eq_true, BitVec.ofNat_toNat, BitVec.setWidth_eq, decide_true, h1, h2, h3]

theorem tload (h : Hdr) (d : Nat) (a : Nat) : Statement (.tload h d a) := by
  intro (hwf : (h.wf && decide (d < 16) && decide (a < 64)) = true)
  simp only [Hdr.wf, Bool.and_eq_true, decide_eq_true_eq] at hwf
  obtain ⟨⟨hg, h1⟩, h2⟩ := hwf
  obtain ⟨ha, f0, f1, f2, f3⟩ := flds49 1 h 0x63 d a (by omega) h2
  refine uni_intro rfl rfl hg (by decide) ha (fun l => ?_)
  rw [arm_tload]
  simp only [f0, f1, f2, f3, need_true, sub_some, bit_eq_one, beq_self_eq_true, BitVec.ofNat_toNat, BitVec.setWidth_eq, decide_true, h1, h2]

theorem tstore (h : Hdr) (d : Nat) (a : Nat) : Statement (.tstore h d a) := by
  intro (hwf : (h.wf && decide (d < 16) && decide (a < 64)) = true)
  simp only [Hdr.wf, Bool.and_eq_true, decide_eq_true_eq] at hwf
  obtain ⟨⟨hg, h1⟩, h2⟩ := hwf
  obtain ⟨ha, f0, f1, f2, f3⟩ := flds49 1 h 0x64 d a (by omega) h2
  refine uni_intro rfl rfl hg (by decide) ha (fun l => ?_)
  rw [arm_tstore]
  simp only [f0, f1, f2, f3, need_true, sub_some, bit_eq_one, beq_self_eq_true, BitVec.ofNat_toNat, BitVec.setWidth_eq, decide_true, h1, h2]

theorem tacc (h : Hdr) (d : Nat) (a : Nat) : Statement (.tacc h d a) := by
  intro (hwf : (h.wf && decide (d < 16) && decide (a < 16)) = true)
  simp only [Hdr.wf, Bool.and_eq_true, decide_eq_true_eq] at hwf
  obtain ⟨⟨hg, h1⟩, h2⟩ := hwf
  obtain ⟨ha, f0, f1, f2, f3⟩ := flds56 1 h 0x65 d a (by omega) (by omega)
  refine uni_intro rfl rfl hg (by decide) ha (fun l => ?_)
  rw [arm_tacc]
  simp only [f0, f1, f2, f3, need_true, sub_some, bit_eq_one, beq_self_eq_true, BitVec.ofNat_toNat, BitVec.setWidth_eq, decide_true, h1, h2]

theorem reservedOpcode (w : BitVec 32) : Statement (.reservedOpcode w) := none_intro rfl rfl

theorem mxcfg (sp aSlot bSlot : Nat) (paired : Bool) (k : Nat) : Statement (.mxcfg sp aSlot bSlot paired k) := by
  intro hwf
  have hw := hwf
  simp only [Instr.wf, Bool.and_eq_true, decide_eq_true_eq] at hw
  obtain ⟨⟨⟨⟨h0, h1⟩, h2⟩, h3⟩, h4⟩ := hw
  have hb := bit_lt paired
  refine mx_intro (op := 0x01) rfl rfl rfl (by decide) (by omega) ?_ hwf
  have hW : ∃ W, W = 1 * 2 ^ 58 + (aSlot * 2 ^ 55 + bSlot * 2 ^ 52 + bit paired * 2 ^ 51 + k * 2 ^ 32) := ⟨_, rfl⟩
  obtain ⟨W, hW⟩ := hW
  have e : fld W 58 6 = 1 ∧ fld W 48 3 = 0 ∧ fld W 0 32 = 0 ∧ fld W 55 3 = aSlot ∧ fld W 52 3 = bSlot ∧ fld W 51 1 = bit paired ∧ fld W 32 16 = k := by
    simp only [fld]; omega
  have e2 : decodeMx sp W = Instr.mxcfg sp aSlot bSlot paired k := by
    clear hW
    obtain ⟨e3, e4, e5, e6, e7, e8, e9⟩ := e
    simp [decodeMx, bit_eq_one, e3, e4, e5, e6, e7, e8, e9]
    try omega
  rw [← e2, hW]

theorem mxzero (sp acc : Nat) : Statement (.mxzero sp acc) := by
  intro hwf
  have hw := hwf
  simp only [Instr.wf, Bool.and_eq_true, decide_eq_true_eq] at hw
  obtain ⟨h0, h1⟩ := hw
  refine mx_intro (op := 0x02) rfl rfl rfl (by decide) (by omega) ?_ hwf
  have hW : ∃ W, W = 2 * 2 ^ 58 + (acc * 2 ^ 54) := ⟨_, rfl⟩
  obtain ⟨W, hW⟩ := hW
  have e : fld W 58 6 = 2 ∧ fld W 0 54 = 0 ∧ fld W 54 4 = acc := by
    simp only [fld]; omega
  have e2 : decodeMx sp W = Instr.mxzero sp acc := by
    clear hW
    obtain ⟨e3, e4, e5⟩ := e
    simp [decodeMx, bit_eq_one, e3, e4, e5]
    try omega
  rw [← e2, hW]

theorem mxwait (sp ring n : Nat) : Statement (.mxwait sp ring n) := by
  intro hwf
  have hw := hwf
  simp only [Instr.wf, Bool.and_eq_true, decide_eq_true_eq] at hw
  obtain ⟨⟨⟨h0, h1⟩, h2⟩, h3⟩ := hw
  refine mx_intro (op := 0x04) rfl rfl rfl (by decide) (by omega) ?_ hwf
  have hW : ∃ W, W = 4 * 2 ^ 58 + (ring * 2 ^ 51 + n * 2 ^ 32) := ⟨_, rfl⟩
  obtain ⟨W, hW⟩ := hW
  have e : fld W 58 6 = 4 ∧ fld W 54 4 = 0 ∧ fld W 48 3 = 0 ∧ fld W 0 32 = 0 ∧ fld W 51 3 = ring ∧ fld W 32 16 = n := by
    simp only [fld]; omega
  have e2 : decodeMx sp W = Instr.mxwait sp ring n := by
    clear hW
    obtain ⟨e3, e4, e5, e6, e7, e8⟩ := e
    simp [decodeMx, bit_eq_one, e3, e4, e5, e6, e7, e8]
    try omega
  rw [← e2, hW]

theorem mxrel (sp ring n : Nat) : Statement (.mxrel sp ring n) := by
  intro hwf
  have hw := hwf
  simp only [Instr.wf, Bool.and_eq_true, decide_eq_true_eq] at hw
  obtain ⟨⟨⟨h0, h1⟩, h2⟩, h3⟩ := hw
  refine mx_intro (op := 0x05) rfl rfl rfl (by decide) (by omega) ?_ hwf
  have hW : ∃ W, W = 5 * 2 ^ 58 + (ring * 2 ^ 51 + n * 2 ^ 32) := ⟨_, rfl⟩
  obtain ⟨W, hW⟩ := hW
  have e : fld W 58 6 = 5 ∧ fld W 54 4 = 0 ∧ fld W 48 3 = 0 ∧ fld W 0 32 = 0 ∧ fld W 51 3 = ring ∧ fld W 32 16 = n := by
    simp only [fld]; omega
  have e2 : decodeMx sp W = Instr.mxrel sp ring n := by
    clear hW
    obtain ⟨e3, e4, e5, e6, e7, e8⟩ := e
    simp [decodeMx, bit_eq_one, e3, e4, e5, e6, e7, e8]
    try omega
  rw [← e2, hW]

theorem mxmma (sp acc ra rb k : Nat) : Statement (.mxmma sp acc ra rb k) := by
  intro hwf
  have hw := hwf
  simp only [Instr.wf, Bool.and_eq_true, decide_eq_true_eq] at hw
  obtain ⟨⟨⟨⟨⟨h0, h1⟩, h2⟩, h3⟩, h4⟩, h5⟩ := hw
  refine mx_intro (op := 0x03) rfl rfl rfl (by decide) (by omega) ?_ hwf
  have hW : ∃ W, W = 3 * 2 ^ 58 + (acc * 2 ^ 54 + ra * 2 ^ 51 + rb * 2 ^ 48 + k * 2 ^ 32) := ⟨_, rfl⟩
  obtain ⟨W, hW⟩ := hW
  have e : fld W 58 6 = 3 ∧ fld W 0 32 = 0 ∧ fld W 54 4 = acc ∧ fld W 51 3 = ra ∧ fld W 48 3 = rb ∧ fld W 32 16 = k := by
    simp only [fld]; omega
  have e2 : decodeMx sp W = Instr.mxmma sp acc ra rb k := by
    clear hW
    obtain ⟨e3, e4, e5, e6, e7, e8⟩ := e
    simp [decodeMx, bit_eq_one, e3, e4, e5, e6, e7, e8]
    try omega
  rw [← e2, hW]

theorem mxdrain (sp acc slot : Nat) (ring : Bool) (target : Nat) : Statement (.mxdrain sp acc slot ring target) := by
  intro hwf
  have hw := hwf
  simp only [Instr.wf, Bool.and_eq_true, decide_eq_true_eq] at hw
  obtain ⟨⟨⟨h0, h1⟩, h2⟩, h3⟩ := hw
  have ht : target < 16 := by cases ring <;> simp at h3 <;> omega
  have hb := bit_lt ring
  have hr : bit ring = 1 → target < 8 := by cases ring <;> simp [bit] at h3 ⊢; exact h3
  refine mx_intro (op := 0x06) rfl rfl rfl (by decide) (by omega) ?_ hwf
  have hW : ∃ W, W = 6 * 2 ^ 58 + (acc * 2 ^ 54 + slot * 2 ^ 51 + bit ring * 2 ^ 50 + target * 2 ^ 46) := ⟨_, rfl⟩
  obtain ⟨W, hW⟩ := hW
  have e : fld W 58 6 = 6 ∧ fld W 0 46 = 0 ∧ fld W 54 4 = acc ∧ fld W 51 3 = slot ∧ fld W 50 1 = bit ring ∧
      fld W 46 4 = target ∧ (fld W 50 1 = 0 ∨ fld W 49 1 = 0) := by
    simp only [fld]; omega
  have e2 : decodeMx sp W = Instr.mxdrain sp acc slot ring target := by
    clear hW
    obtain ⟨e3, e4, e5, e6, e7, e8, e9⟩ := e
    have e10 : (fld W 50 1 == 0 || fld W 49 1 == 0) = true := by simpa using e9
    rw [e7] at e10
    simp [decodeMx, bit_eq_one, e3, e4, e5, e6, e7, e8] at e10 ⊢
    exact fun h => e10.resolve_left h
  rw [← e2, hW]

theorem mxloop (sp count back : Nat) : Statement (.mxloop sp count back) := by
  intro hwf
  have hw := hwf
  simp only [Instr.wf, Bool.and_eq_true, decide_eq_true_eq] at hw
  obtain ⟨⟨⟨⟨h0, h1⟩, h2⟩, h3⟩, h4⟩ := hw
  refine mx_intro (op := 0x07) rfl rfl rfl (by decide) (by omega) ?_ hwf
  have hW : ∃ W, W = 7 * 2 ^ 58 + (count * 2 ^ 32 + back) := ⟨_, rfl⟩
  obtain ⟨W, hW⟩ := hW
  have e : fld W 58 6 = 7 ∧ fld W 48 10 = 0 ∧ fld W 16 16 = 0 ∧ fld W 32 16 = count ∧ fld W 0 16 = back := by
    simp only [fld]; omega
  have e2 : decodeMx sp W = Instr.mxloop sp count back := by
    clear hW
    obtain ⟨e3, e4, e5, e6, e7⟩ := e
    simp [decodeMx, bit_eq_one, e3, e4, e5, e6, e7]
    try omega
  rw [← e2, hW]

theorem mxsig (sp id : Nat) : Statement (.mxsig sp id) := by
  intro hwf
  have hw := hwf
  simp only [Instr.wf, Bool.and_eq_true, decide_eq_true_eq] at hw
  obtain ⟨h0, h1⟩ := hw
  refine mx_intro (op := 0x08) rfl rfl rfl (by decide) (by omega) ?_ hwf
  have hW : ∃ W, W = 8 * 2 ^ 58 + (id * 2 ^ 55) := ⟨_, rfl⟩
  obtain ⟨W, hW⟩ := hW
  have e : fld W 58 6 = 8 ∧ fld W 0 55 = 0 ∧ fld W 55 3 = id := by
    simp only [fld]; omega
  have e2 : decodeMx sp W = Instr.mxsig sp id := by
    clear hW
    obtain ⟨e3, e4, e5⟩ := e
    simp [decodeMx, bit_eq_one, e3, e4, e5]
    try omega
  rw [← e2, hW]

theorem mxfence (sp : Nat) : Statement (.mxfence sp) := by
  intro hwf
  have hw := hwf
  simp only [Instr.wf, Bool.and_eq_true, decide_eq_true_eq] at hw
  refine mx_intro (op := 0x09) rfl rfl rfl (by decide) (by omega) ?_ hwf
  have hW : ∃ W, W = 9 * 2 ^ 58 + (0) := ⟨_, rfl⟩
  obtain ⟨W, hW⟩ := hW
  have e : fld W 58 6 = 9 ∧ fld W 0 58 = 0 := by
    simp only [fld]; omega
  have e2 : decodeMx sp W = Instr.mxfence sp := by
    clear hW
    obtain ⟨e3, e4⟩ := e
    simp [decodeMx, bit_eq_one, e3, e4]
    try omega
  rw [← e2, hW]

theorem mxend (sp : Nat) : Statement (.mxend sp) := by
  intro hwf
  have hw := hwf
  simp only [Instr.wf, Bool.and_eq_true, decide_eq_true_eq] at hw
  refine mx_intro (op := 0x0A) rfl rfl rfl (by decide) (by omega) ?_ hwf
  have hW : ∃ W, W = 10 * 2 ^ 58 + (0) := ⟨_, rfl⟩
  obtain ⟨W, hW⟩ := hW
  have e : fld W 58 6 = 10 ∧ fld W 0 58 = 0 := by
    simp only [fld]; omega
  have e2 : decodeMx sp W = Instr.mxend sp := by
    clear hW
    obtain ⟨e3, e4⟩ := e
    simp [decodeMx, bit_eq_one, e3, e4]
    try omega
  rw [← e2, hW]

theorem mxIllegalCommand (sp : Nat) (w : BitVec 64) : Statement (.mxIllegalCommand sp w) := none_intro rfl rfl

theorem copy (chain : Nat) (c : Card) : Statement (.copy chain c) := none_intro rfl rfl

theorem copyAead (chain : Nat) (c : Card) : Statement (.copyAead chain c) := none_intro rfl rfl

theorem fill (chain : Nat) (c : Card) : Statement (.fill chain c) := none_intro rfl rfl

theorem post (chain : Nat) (c : Card) : Statement (.post chain c) := none_intro rfl rfl

theorem bcast (chain : Nat) (c : Card) : Statement (.bcast chain c) := none_intro rfl rfl

theorem sig (chain : Nat) (c : Card) : Statement (.sig chain c) := none_intro rfl rfl

theorem promise (chain : Nat) : Statement (.promise chain) := none_intro rfl rfl

theorem stpFill (job : Nat) : Statement (.stpFill job) := none_intro rfl rfl

theorem stpAddF32 (job : Nat) : Statement (.stpAddF32 job) := none_intro rfl rfl

theorem stpScale (job : Nat) : Statement (.stpScale job) := none_intro rfl rfl

theorem stpMaxfold (job : Nat) : Statement (.stpMaxfold job) := none_intro rfl rfl

theorem stpSumx (job : Nat) : Statement (.stpSumx job) := none_intro rfl rfl

theorem stpCvt (job : Nat) : Statement (.stpCvt job) := none_intro rfl rfl

theorem stpXsum (job : Nat) : Statement (.stpXsum job) := none_intro rfl rfl

theorem runStart (sp : Nat) : Statement (.runStart sp) := none_intro rfl rfl

theorem memoryResult (gid lane reg : Nat) : Statement (.memoryResult gid lane reg) := none_intro rfl rfl

theorem vldfDelivery (team bin row : Nat) (inCask : Bool) : Statement (.vldfDelivery team bin row inCask) := none_intro rfl rfl

theorem waittDeadline (gid : Nat) : Statement (.waittDeadline gid) := none_intro rfl rfl

theorem gtcmpMatch (gid : Nat) : Statement (.gtcmpMatch gid) := none_intro rfl rfl

theorem promiseMissed (gid : Nat) : Statement (.promiseMissed gid) := none_intro rfl rfl

theorem flushTimer (team bin : Nat) : Statement (.flushTimer team bin) := none_intro rfl rfl

theorem binLaunch (team bin : Nat) : Statement (.binLaunch team bin) := none_intro rfl rfl

theorem caskRefill (team bin : Nat) : Statement (.caskRefill team bin) := none_intro rfl rfl

theorem missQueued (owner : Nat) : Statement (.missQueued owner) := none_intro rfl rfl

theorem walkHandlerLaunch (owner : Nat) : Statement (.walkHandlerLaunch owner) := none_intro rfl rfl

theorem pageHandlerLaunch (sp : Nat) : Statement (.pageHandlerLaunch sp) := none_intro rfl rfl

theorem requestHandlerLaunch (owner : Nat) : Statement (.requestHandlerLaunch owner) := none_intro rfl rfl

theorem haltRecord (owner : Nat) : Statement (.haltRecord owner) := none_intro rfl rfl

theorem trapRecord (owner : Nat) : Statement (.trapRecord owner) := none_intro rfl rfl

theorem syscallSlotPoll (owner : Nat) : Statement (.syscallSlotPoll owner) := none_intro rfl rfl

theorem teamPlacement (grid : Nat) : Statement (.teamPlacement grid) := none_intro rfl rfl

theorem gangStart (grid : Nat) : Statement (.gangStart grid) := none_intro rfl rfl

theorem gangAgeing (owner : Nat) : Statement (.gangAgeing owner) := none_intro rfl rfl

theorem launchAccept (owner : Nat) : Statement (.launchAccept owner) := none_intro rfl rfl

theorem teamRetire (team : Nat) : Statement (.teamRetire team) := none_intro rfl rfl

theorem gridCompletion (grid : Nat) : Statement (.gridCompletion grid) := none_intro rfl rfl

theorem receiptWrite (grid : Nat) : Statement (.receiptWrite grid) := none_intro rfl rfl

theorem preemption (sp : Nat) (incoming : Option Nat) : Statement (.preemption sp incoming) := none_intro rfl rfl

theorem bankSwap (sp : Nat) : Statement (.bankSwap sp) := none_intro rfl rfl

theorem contextSpill (sp : Nat) : Statement (.contextSpill sp) := none_intro rfl rfl

theorem contextFill (sp ctx : Nat) : Statement (.contextFill sp ctx) := none_intro rfl rfl

theorem teamEviction (team : Nat) : Statement (.teamEviction team) := none_intro rfl rfl

theorem teamRestore (team : Nat) : Statement (.teamRestore team) := none_intro rfl rfl

theorem rackingEnd (owner : Nat) (va : BitVec 64) : Statement (.rackingEnd owner va) := none_intro rfl rfl

theorem peerLost (dev cause : Nat) : Statement (.peerLost dev cause) := none_intro rfl rfl

theorem portDown (port : Nat) : Statement (.portDown port) := none_intro rfl rfl

theorem flitReceive (port seq : Nat) (crcOk tagOk : Bool) (corrected : Nat) : Statement (.flitReceive port seq crcOk tagOk corrected) := none_intro rfl rfl

theorem peerAccess (dev owner offset : Nat) (op : PeerOp) : Statement (.peerAccess dev owner offset op) := none_intro rfl rfl

theorem packetReceive (flow epoch ctr : Nat) (tagOk : Bool) (addr : Nat) (isWrite : Bool) : Statement (.packetReceive flow epoch ctr tagOk addr isWrite) := none_intro rfl rfl

theorem keyRegisterLoad (port owner : Nat) : Statement (.keyRegisterLoad port owner) := none_intro rfl rfl

theorem hostCompletion (owner : Nat) (request : Nat) (kBit : Bool) (integrityOk linkOk errorStatus : Bool) : Statement (.hostCompletion owner request kBit integrityOk linkOk errorStatus) := none_intro rfl rfl

theorem completionTimeout (owner request : Nat) : Statement (.completionTimeout owner request) := none_intro rfl rfl

theorem keySetErase (owner : Nat) : Statement (.keySetErase owner) := none_intro rfl rfl

theorem lockWalker (owner : Nat) : Statement (.lockWalker owner) := none_intro rfl rfl

theorem lq (owner : Nat) (va : BitVec 64) : Statement (.lq owner va) := none_intro rfl rfl

theorem reply (owner : Nat) (seq : BitVec 32) : Statement (.reply owner seq) := none_intro rfl rfl

theorem hatom (owner : Nat) (v : BitVec 32) : Statement (.hatom owner v) := none_intro rfl rfl

theorem registerPageWrite (owner offset width : Nat) (v : BitVec 64) : Statement (.registerPageWrite owner offset width v) := none_intro rfl rfl

theorem lockedRegisterWrite (owner : Nat) (reg : Nat) (v : BitVec 32) : Statement (.lockedRegisterWrite owner reg v) := none_intro rfl rfl

theorem telemetryRead (owner offset width : Nat) : Statement (.telemetryRead owner offset width) := none_intro rfl rfl

theorem lockInterface (owner : Nat) : Statement (.lockInterface owner) := none_intro rfl rfl

theorem startInterface (owner : Nat) : Statement (.startInterface owner) := none_intro rfl rfl

theorem stopInterface (owner : Nat) : Statement (.stopInterface owner) := none_intro rfl rfl

theorem kSetGo (owner : Nat) : Statement (.kSetGo owner) := none_intro rfl rfl

theorem spdmRequest (request : Nat) : Statement (.spdmRequest request) := none_intro rfl rfl

theorem createOwner (desc : List (BitVec 8)) (tenantKey : List (BitVec 8)) : Statement (.createOwner desc tenantKey) := none_intro rfl rfl

theorem destroyOwner (owner : Nat) : Statement (.destroyOwner owner) := none_intro rfl rfl

theorem grant (owner : Nat) (extents : List Extent) : Statement (.grant owner extents) := none_intro rfl rfl

theorem quota (owner : Nat) (q : Quotas) : Statement (.quota owner q) := none_intro rfl rfl

theorem peer (owner : Nat) (table : List Nat) : Statement (.peer owner table) := none_intro rfl rfl

theorem slotAssign (owner : Nat) (slots : List Nat) : Statement (.slotAssign owner slots) := none_intro rfl rfl

theorem diag (owner : Option Nat) : Statement (.diag owner) := none_intro rfl rfl

theorem logRead (violations : Bool) : Statement (.logRead violations) := none_intro rfl rfl

theorem setReceiptRing (owner : Nat) (va : BitVec 64) (count : Nat) : Statement (.setReceiptRing owner va count) := none_intro rfl rfl

theorem keyPut (owner slot : Nat) (key : BitVec 256) (authenticated : Bool) : Statement (.keyPut owner slot key authenticated) := none_intro rfl rfl

theorem allow (owner : Nat) (list : BitVec 32) (authenticated : Bool) : Statement (.allow owner list authenticated) := none_intro rfl rfl

theorem worldShare (owner dev : Nat) (key : BitVec 256) : Statement (.worldShare owner dev key) := none_intro rfl rfl

theorem fusedMinimumRaise (version : Nat) (signed : Bool) : Statement (.fusedMinimumRaise version signed) := none_intro rfl rfl

theorem regulatorSetting (q : Regulator) (value : Nat) : Statement (.regulatorSetting q value) := none_intro rfl rfl

theorem kilnLockstepMismatch : Statement (.kilnLockstepMismatch) := none_intro rfl rfl

theorem rowRemap (bank row : Nat) (bad : List Nat) : Statement (.rowRemap bank row bad) := none_intro rfl rfl

theorem bondSteering (channel bond : Nat) : Statement (.bondSteering channel bond) := none_intro rfl rfl

theorem coreRetire (core : Nat) : Statement (.coreRetire core) := none_intro rfl rfl

theorem governorStep (die step : Nat) : Statement (.governorStep die step) := none_intro rfl rfl

theorem currentClamp : Statement (.currentClamp) := none_intro rfl rfl

theorem thermtrip : Statement (.thermtrip) := none_intro rfl rfl

theorem reset (imageOk : Bool) (version step : Nat) : Statement (.reset imageOk version step) := none_intro rfl rfl

theorem spStart (sp : Nat) : Statement (.spStart sp) := none_intro rfl rfl

theorem meWake (sp : Nat) : Statement (.meWake sp) := none_intro rfl rfl

theorem forcedRunBoundary (sp : Nat) : Statement (.forcedRunBoundary sp) := none_intro rfl rfl

end Sys2Proof.Laws.Encoding
end

