-- ==== Sys2Proof/Tests/Slice0.lean ====
section
/-! SUPPORT. Small tests. First well-formedness and decoding, against words written out from the encoding tables of the
spec; then, for every statement, that a concrete state and operands meet the hypotheses of each of its clauses. -/

set_option Elab.async false
set_option linter.unusedVariables false
set_option maxRecDepth 4000

namespace Sys2Proof.Tests

open Sys2Proof Sys2Proof.Machine

/-! ## The states the witnesses stand in -/

/-- The instruction ends in a next state. -/
def Runs (i : Instr) (s : State) : Prop := ∃ t, exec i s = .next t

theorem r1 {i s} {Q : State → Prop} (h : ∃ t, exec i s = .next t ∧ Q t) : Runs i s := h.imp fun _ h => h.1
theorem r2 {i s} {α : Sort _} {Q : State → α → Prop} (h : ∃ t x, exec i s = .next t ∧ Q t x) : Runs i s :=
  h.imp fun _ h => h.elim fun _ h => h.1
theorem r3 {i s} {α β : Sort _} {Q : State → α → β → Prop} (h : ∃ t x y, exec i s = .next t ∧ Q t x y) : Runs i s :=
  h.imp fun _ h => h.elim fun _ h => h.elim fun _ h => h.1

theorem only_zero {m : Mask} (h : m = 1) {l : Nat} (hl : m.has l = true) : l = 0 := by
  have := Mask.has_one 0 l (by decide)
  simp only [show Mask.one 0 = (1 : Mask) from rfl] at this
  rw [h, this] at hl; exact (show 0 = l by simpa using hl).symm

def h7 : Hdr := ⟨false, 7⟩
def SB : DWord := 0x01E0000000000000
def GB : Nat := 0x01F0000000000000

def pg (n : Nat) : Tlb :=
  { page := n, big := false, pin := false, st := .resident, ord := 1, r := true, w := true, x := false, frame := n, cores := [0] }

/-- The loaded owner, grid, team and group, with two banks, a page 17 of data and a handler for every cause; lane 0 issues. -/
def wA : State :=
  let s := State.reset.loaded
  { s with
    teams := [{ loadTeam with banks := [0, 1] }], banks := [⟨0, 1, false, []⟩, ⟨1, 1, false, []⟩]
    owners := [{ loadOwner with tlb := pg 17 :: loadOwner.tlb, quotas := { loadOwner.quotas with ceSlots := 256 } }]
    grids := [{ loadGrid with handlers := List.replicate 16 0x100040 }]
    cur := { loadGroup with iss := 1 } }
def md (f : Group → Group) (s : State) : State := { s with cur := f s.cur }
def mo (f : Owner → Owner) (s : State) : State := { s with owners := s.owners.map f }
def mtm (f : Team → Team) (s : State) : State := { s with teams := s.teams.map f }
def mg (f : Grid → Grid) (s : State) : State := { s with grids := s.grids.map f }
def mme (f : Me → Me) (s : State) : State := { s with sps := s.sps.map (fun p => { p with me := f p.me }) }
def msp (f : Sp → Sp) (s : State) : State := { s with sps := s.sps.map f }
/-- Uniform registers, and vector registers of lane 0. -/
def us (l : List (Nat × Nat)) : State → State := md (fun g => { g with s := l.map (fun p => (p.1, BitVec.ofNat 32 p.2)) })
def vs (l : List (Nat × Nat)) : State → State := md (fun g => { g with v := l.map (fun p => (64 * p.1, BitVec.ofNat 32 p.2)) })
/-- At handler level. -/
def atHandler : State → State := md (fun g => { g with hlv := true, hl := 1 })

/-! ## Decoding, against words written out from 03 R38-R52

The helpers below lay out the fields as R38 and R41 draw them, the opcodes and sub-field values are those of the maps
R45 and R46; nothing here comes from the encoder. -/

/-- A lane-set word: S 0, E 0, G 5 (R38). -/
def lw (op area : Nat) : Nat := 5 * 0x8000000 + op * 0x100000 + area
/-- A uniform-set word: S 1, E 1, G 6 (R38). -/
def uw (op area : Nat) : Nat := 0x80000000 + 0x40000000 + 6 * 0x8000000 + op * 0x100000 + area
def hl5 : Hdr := ⟨false, 5⟩
def hu6 : Hdr := ⟨true, 6⟩
/-- Format A. -/
def fA (d a b m : Nat) : Nat := d * 0x4000 + a * 0x100 + b * 4 + m
/-- Format B. -/
def fB (d a i : Nat) : Nat := d * 0x4000 + a * 0x100 + i
/-- Format C. -/
def fC (d i : Nat) : Nat := d * 0x4000 + i
/-- Format M. -/
def fM (d a l s h : Nat) : Nat := d * 0x4000 + a * 0x100 + l * 0x10 + s * 4 + h
/-- Format MX. -/
def fX (d x o l : Nat) : Nat := d * 0x4000 + x * 0x400 + o * 0x10 + l
/-- Format T. -/
def fT (t c i n v : Nat) : Nat := t * 0x10000 + c * 0x8000 + i * 0x400 + n * 0x40 + v

def decodesAll (l : List (Nat × Instr)) : Bool := l.all (fun p => decide (decodeTableWord 32 p.1 = some p.2))

/-- R45, 0x00-0x07. -/
theorem test_words_lane_arithmetic : decodesAll [
    (lw 0x00 (fA 63 1 2 0), .vadd hl5 63 1 2 .i32), (lw 0x00 (fA 0 1 2 1), .vadd hl5 0 1 2 .si32),
    (lw 0x00 (fA 0 1 2 2), .vadd hl5 0 1 2 .su32), (lw 0x00 (fA 0 1 2 3), .vadd hl5 0 1 2 .i16x2),
    (lw 0x01 (fA 3 62 2 1), .vsub hl5 3 62 2 .si32), (lw 0x01 (fA 3 62 2 3), .vsub hl5 3 62 2 .i16x2),
    (lw 0x02 (fA 3 2 61 0), .vmul hl5 3 2 61 .lo), (lw 0x02 (fA 3 2 61 1), .vmul hl5 3 2 61 .hiI32),
    (lw 0x02 (fA 3 2 61 2), .vmul hl5 3 2 61 .hiU32), (lw 0x02 (fA 3 2 61 3), .vmul hl5 3 2 61 .i16x2),
    (lw 0x03 (fA 3 2 1 0), .vmad hl5 3 2 1), (lw 0x04 (fA 3 2 1 0), .vand hl5 3 2 1),
    (lw 0x05 (fA 3 2 1 0), .vor hl5 3 2 1), (lw 0x06 (fA 3 2 1 0), .vxor hl5 3 2 1),
    (lw 0x07 (fA 3 2 1 0), .vandn hl5 3 2 1)] = true := by decide

/-- R45, 0x08-0x0F. -/
theorem test_words_lane_shift_unary : decodesAll [
    (lw 0x08 (fA 3 2 1 0), .vshl hl5 3 2 1), (lw 0x09 (fA 3 2 1 0), .vshr hl5 3 2 1 .l), (lw 0x09 (fA 3 2 1 1), .vshr hl5 3 2 1 .a),
    (lw 0x0A (fA 3 2 1 0), .vmin hl5 3 2 1 .i32), (lw 0x0A (fA 3 2 1 1), .vmin hl5 3 2 1 .u32),
    (lw 0x0B (fA 3 2 1 0), .vmax hl5 3 2 1 .i32), (lw 0x0B (fA 3 2 1 1), .vmax hl5 3 2 1 .u32),
    (lw 0x0C (fB 3 2 0x80), .vaddi hl5 3 2 0x80#8),
    (lw 0x0D (fB 3 2 0x1F), .vshi hl5 3 2 .shl 31), (lw 0x0D (fB 3 2 0x21), .vshi hl5 3 2 .shrL 1),
    (lw 0x0D (fB 3 2 0x42), .vshi hl5 3 2 .shrA 2), (lw 0x0D (fB 3 2 0x68), .vshi hl5 3 2 .rotr 8),
    (lw 0x0E (fC 3 0x2001), .vmovi hl5 3 0x2001#14),
    (lw 0x0F (fA 3 2 0 0), .vmov hl5 3 2), (lw 0x0F (fA 3 2 1 0), .vnot hl5 3 2), (lw 0x0F (fA 3 2 2 0), .vneg hl5 3 2),
    (lw 0x0F (fA 3 2 3 0), .vabs hl5 3 2), (lw 0x0F (fA 3 2 4 0), .vpopc hl5 3 2), (lw 0x0F (fA 3 2 5 0), .vclz hl5 3 2),
    (lw 0x0F (fA 3 2 6 0), .vbrev hl5 3 2), (lw 0x0F (fA 3 2 7 0), .vsext8 hl5 3 2), (lw 0x0F (fA 3 2 8 0), .vsext16 hl5 3 2)]
    = true := by decide

/-- R45, 0x10-0x17 and 0x60-0x66. -/
theorem test_words_float : decodesAll [
    (lw 0x10 (fA 3 2 1 0), .vfadd hl5 3 2 1 .f32), (lw 0x11 (fA 3 2 1 1), .vfsub hl5 3 2 1 .f16x2),
    (lw 0x12 (fA 3 2 1 2), .vfmul hl5 3 2 1 .bf16x2), (lw 0x13 (fA 3 2 1 0), .vfma hl5 3 2 1 .f32),
    (lw 0x14 (fA 3 2 1 1), .vfmin hl5 3 2 1 .f16x2), (lw 0x15 (fA 3 2 1 2), .vfmax hl5 3 2 1 .bf16x2),
    (lw 0x16 (fA 3 2 0 0), .vfabs hl5 3 2 .f32), (lw 0x16 (fA 3 2 1 1), .vfneg hl5 3 2 .f16x2),
    (lw 0x16 (fA 3 2 2 2), .vfrint hl5 3 2 .bf16x2), (lw 0x16 (fA 3 2 3 0), .vfcls hl5 3 2 .f32),
    (lw 0x17 (fA 3 2 1 0), .vfscl hl5 3 2 1),
    (lw 0x60 (fA 3 2 0 0), .vrcp hl5 3 2), (lw 0x61 (fA 3 2 0 0), .vrsq hl5 3 2), (lw 0x62 (fA 3 2 0 0), .vsqrt hl5 3 2),
    (lw 0x63 (fA 3 2 0 0), .vexp2 hl5 3 2), (lw 0x64 (fA 3 2 0 0), .vlog2 hl5 3 2), (lw 0x65 (fA 3 2 0 0), .vtanh hl5 3 2),
    (lw 0x66 (fA 3 2 1 0), .vdiv hl5 3 2 1)] = true := by decide

/-- R44: the literal is the second word. -/
theorem test_words_literals :
    decodeTableWord 64 (0xFFFFFFFE * 2 ^ 32 + lw 0x18 (fC 3 0)) = some (.vmovl hl5 3 0xFFFFFFFE#32) ∧
    decodeTableWord 64 (0x3F800000 * 2 ^ 32 + 0xB8C50000) = some (.smovl ⟨false, 7⟩ 20 0x3F800000#32) := by decide

/-- R45, 0x20-0x25: conversions, quantisation, packing. -/
theorem test_words_convert : decodesAll [
    (lw 0x20 (fA 3 2 (8 * 0 + 2) 1), .vcvt hl5 3 2 .i32 .f32 .rtz), (lw 0x20 (fA 3 2 (8 * 6 + 3) 3), .vcvt hl5 3 2 .e5m2 .f16 .rup),
    (lw 0x20 (fA 3 2 (8 * 4 + 1) 2), .vcvt hl5 3 2 .bf16 .u32 .rdn), (lw 0x20 (fA 3 2 (8 * 2 + 5) 0), .vcvt hl5 3 2 .f32 .e4m3 .rne),
    (lw 0x21 (fA 3 2 0 3), .vcvt6 hl5 3 2 .toE3m2 .rup), (lw 0x21 (fA 3 2 1 1), .vcvt6 hl5 3 2 .toE2m3 .rtz),
    (lw 0x21 (fA 3 2 2 0), .vcvt6 hl5 3 2 .fromE3m2 .rne), (lw 0x21 (fA 3 2 3 0), .vcvt6 hl5 3 2 .fromE2m3 .rne),
    (lw 0x22 (fB 3 2 (8 * 31 + 5)), .vqnt hl5 3 2 31 5), (lw 0x23 (fB 3 2 (8 * 30 + 7)), .vdqnt hl5 3 2 30 7),
    (lw 0x24 (fA 3 2 1 0), .vpkh hl5 3 2 1 .f16x2), (lw 0x24 (fA 3 2 1 1), .vpkh hl5 3 2 1 .bf16x2),
    (lw 0x25 (fA 3 2 0 0), .vupkh hl5 3 2 .loF16), (lw 0x25 (fA 3 2 0 1), .vupkh hl5 3 2 .hiF16),
    (lw 0x25 (fA 3 2 0 2), .vupkh hl5 3 2 .loBf16), (lw 0x25 (fA 3 2 0 3), .vupkh hl5 3 2 .hiBf16)] = true := by decide

/-- R45, 0x28-0x37: compares, predicates, lane exchange. -/
theorem test_words_predicates_shuffles : decodesAll [
    (lw 0x28 (fA 63 2 1 0), .vcmpeq hl5 63 2 1 .i32), (lw 0x29 (fA 3 2 1 1), .vcmpne hl5 3 2 1 .u32),
    (lw 0x2A (fA 3 2 1 2), .vcmplt hl5 3 2 1 .f32), (lw 0x2B (fA 3 2 1 0), .vcmple hl5 3 2 1 .i32),
    (lw 0x2C (fA 3 2 1 0), .vsel hl5 3 2 1), (lw 0x2D (fA 3 2 1 0), .plog hl5 3 2 1 .and),
    (lw 0x2D (fA 3 2 1 1), .plog hl5 3 2 1 .or), (lw 0x2D (fA 3 2 1 2), .plog hl5 3 2 1 .xor),
    (lw 0x2D (fA 3 2 1 3), .plog hl5 3 2 1 .andn), (lw 0x2E (fA 3 2 0 0), .pmov hl5 3 2 .cpy),
    (lw 0x2E (fA 3 2 0 1), .pmov hl5 3 2 .not), (lw 0x2E (fA 3 0 0 2), .pmov hl5 3 0 .set),
    (lw 0x2E (fA 3 0 0 3), .pmov hl5 3 0 .clr), (lw 0x30 (fA 3 2 1 0), .vshfl hl5 3 2 1),
    (lw 0x31 (fB 3 2 0x3F), .vshflx hl5 3 2 63), (lw 0x32 (fB 3 2 0x20), .vshflu hl5 3 2 32),
    (lw 0x33 (fB 3 2 0x01), .vshfld hl5 3 2 1), (lw 0x34 (fA 4 2 0 0), .vballot hl5 4 2),
    (lw 0x35 (fA 3 2 0 0), .vred hl5 3 2 .addI32), (lw 0x35 (fA 3 2 0 1), .vred hl5 3 2 .minI32),
    (lw 0x35 (fA 3 2 0 2), .vred hl5 3 2 .maxI32), (lw 0x35 (fA 3 2 0 3), .vred hl5 3 2 .addF32),
    (lw 0x36 (fA 3 15 0 0), .vaff hl5 3 15), (lw 0x37 (fA 3 2 0 0), .vbcast hl5 3 2)] = true := by decide

/-- R45, 0x38-0x45, with each hint R43 accepts. -/
theorem test_words_memory : decodesAll [
    (lw 0x38 (fM 3 15 7 0 0), .vld hl5 3 (.aff 15) 7 .b8 .plain), (lw 0x38 (fM 3 16 7 1 1), .vld hl5 3 (.pair 0) 7 .b16 .acquire),
    (lw 0x38 (fM 3 47 15 2 3), .vld hl5 3 (.pair 31) 15 .w32 .nontemporal), (lw 0x38 (fM 4 1 0 3 0), .vld hl5 4 (.aff 1) 0 .w64 .plain),
    (lw 0x39 (fM 3 1 2 2 0), .vldnf hl5 3 (.aff 1) 2 .w32 .plain), (lw 0x3A (fM 3 1 0 2 2), .vst hl5 3 (.aff 1) 0 .w32 .release),
    (lw 0x3A (fM 3 20 0 0 3), .vst hl5 3 (.pair 4) 0 .b8 .nontemporal), (lw 0x3B (fM 3 1 2 0 0), .vldn hl5 3 (.aff 1) 2 .n4 .plain),
    (lw 0x3B (fM 3 1 2 1 1), .vldn hl5 3 (.aff 1) 2 .n6 .acquire), (lw 0x3C (fM 3 1 0 2 2), .vstn hl5 3 (.aff 1) 0 .n8 .release),
    (lw 0x3D (fM 3 1 2 0 1), .vatadd hl5 3 (.aff 1) 2 .i32 .acquire), (lw 0x3D (fM 4 1 2 1 2), .vatadd hl5 4 (.aff 1) 2 .u64 .release),
    (lw 0x3D (fM 3 1 2 2 0), .vatadd hl5 3 (.aff 1) 2 .f32 .plain), (lw 0x3E (fM 3 1 2 0 0), .vatmm hl5 3 (.aff 1) 2 .minI32 .plain),
    (lw 0x3E (fM 3 1 2 1 0), .vatmm hl5 3 (.aff 1) 2 .maxI32 .plain), (lw 0x3E (fM 3 1 2 2 0), .vatmm hl5 3 (.aff 1) 2 .maxF32 .plain),
    (lw 0x3E (fM 3 1 2 3 0), .vatmm hl5 3 (.aff 1) 2 .minF32 .plain), (lw 0x3F (fM 3 1 2 0 0), .vatbit hl5 3 (.aff 1) 2 .and .plain),
    (lw 0x3F (fM 3 1 2 1 0), .vatbit hl5 3 (.aff 1) 2 .or .plain), (lw 0x3F (fM 3 1 2 2 0), .vatbit hl5 3 (.aff 1) 2 .xor .plain),
    (lw 0x3F (fM 3 1 2 3 1), .vatbit hl5 3 (.aff 1) 2 .exch .acquire), (lw 0x40 (fM 4 1 2 0 2), .vcas hl5 4 (.aff 1) 2 .w32 .release),
    (lw 0x40 (fM 4 1 2 1 0), .vcas hl5 4 (.aff 1) 2 .w64 .plain), (lw 0x41 (fX 12 3 7 5), .vldxW hl5 12 3 7 5),
    (lw 0x42 (fX 12 3 63 5), .vldxD hl5 12 3 63 5), (lw 0x43 (fX 12 15 7 0), .vstxW hl5 12 15 7 0),
    (lw 0x44 (fX 12 3 7 0), .vstxD hl5 12 3 7 0), (lw 0x45 (fM 3 1 2 2 0), .vldf hl5 3 (.aff 1) 2 .plain)] = true := by decide

/-- R45, 0x50-0x5F. -/
theorem test_words_tile_slices_control : decodesAll [
    (lw 0x50 (fT 3 1 4 2 9), .vtrd hl5 3 true 4 2 9), (lw 0x51 (fT 15 0 31 15 63), .vtwr hl5 15 false 31 15 63),
    (lw 0x52 (fT 3 1 4 2 9), .vtaddF32 hl5 3 true 4 2 9), (lw 0x53 (fT 3 0 4 2 9), .vtmaxF32 hl5 3 false 4 2 9),
    (lw 0x57 0, .vyield hl5), (lw 0x58 0xFFFFA, .vbr hl5 0xFFFFA#20), (lw 0x59 (fA 0 4 7 0), .vjtab hl5 4 7),
    (lw 0x5A 0x00005, .vcall hl5 5#20), (lw 0x5B (fA 0 4 0 0), .vcallx hl5 4), (lw 0x5C 0, .vret hl5),
    (lw 0x5D (fA 3 15 0 0), .vsusp hl5 3 15 .explicit), (lw 0x5D (fA 3 15 0 1), .vsusp hl5 3 15 .frameLoad),
    (lw 0x5E (fA 3 15 40 0), .vspawn hl5 3 15 40), (lw 0x5F 0, .vexit hl5)] = true := by decide

/-- R46, 0x00-0x0F. -/
theorem test_words_uniform : decodesAll [
    (uw 0x00 (fA 3 2 1 0), .sadd hu6 3 2 1 .i32), (uw 0x00 (fA 4 6 8 1), .sadd hu6 4 6 8 .u64), (uw 0x00 (fA 3 2 1 2), .sadd hu6 3 2 1 .su32),
    (uw 0x01 (fA 3 2 1 0), .ssub hu6 3 2 1 .i32), (uw 0x02 (fA 3 2 1 0), .smul hu6 3 2 1 .lo), (uw 0x02 (fA 3 2 1 1), .smul hu6 3 2 1 .hiI32),
    (uw 0x02 (fA 3 2 1 2), .smul hu6 3 2 1 .hiU32), (uw 0x02 (fA 4 6 8 3), .smul hu6 4 6 8 .u64lo), (uw 0x03 (fA 3 2 1 0), .sand hu6 3 2 1),
    (uw 0x04 (fA 3 2 1 0), .sor hu6 3 2 1), (uw 0x05 (fA 3 2 1 0), .sxor hu6 3 2 1), (uw 0x06 (fA 3 2 1 0), .sshl hu6 3 2 1),
    (uw 0x07 (fA 3 2 1 0), .sshr hu6 3 2 1 .l), (uw 0x07 (fA 3 2 1 1), .sshr hu6 3 2 1 .a), (uw 0x08 (fA 3 2 1 0), .smin hu6 3 2 1 .i32),
    (uw 0x09 (fA 3 2 1 1), .smax hu6 3 2 1 .u32), (uw 0x0A (fB 3 2 0xFF), .saddi hu6 3 2 0xFF#8), (uw 0x0B (fC 3 0x3FFF), .smovi hu6 3 0x3FFF#14),
    (uw 0x0D (fA 3 2 0 0), .smov hu6 3 2), (uw 0x0D (fA 3 2 1 0), .snot hu6 3 2), (uw 0x0D (fA 3 2 2 0), .spopc hu6 3 2),
    (uw 0x0D (fA 3 2 3 0), .sclz hu6 3 2), (uw 0x0E (fA 3 2 1 0), .sreadl hu6 3 2 1), (uw 0x0F (fC 3 0x2AAA), .slui hu6 3 0x2AAA#14)]
    = true := by decide

/-- R46, 0x10-0x1E. -/
theorem test_words_affine_uniform_predicates : decodesAll [
    (uw 0x10 (fA 15 2 1 0), .xset hu6 15 2 1), (uw 0x11 (fA 3 0 1 0), .xaddb hu6 3 1), (uw 0x12 (fB 2 0 128), .xaddbi hu6 2 128#8),
    (uw 0x13 (fA 3 0 1 0), .xstr hu6 3 1), (uw 0x14 (fA 4 2 0 0), .xget hu6 4 2 .base), (uw 0x14 (fA 3 2 0 1), .xget hu6 3 2 .stride),
    (uw 0x15 (fA 3 2 1 0), .xadd hu6 3 2 1), (uw 0x16 (fB 3 0 0xFE), .xmuls hu6 3 0xFE#8), (uw 0x18 (fA 3 2 1 0), .scmpeq hu6 3 2 1 .i32),
    (uw 0x19 (fA 3 2 1 1), .scmpne hu6 3 2 1 .u32), (uw 0x1A (fA 3 4 6 2), .scmplt hu6 3 4 6 .u64), (uw 0x1B (fA 3 2 1 0), .scmple hu6 3 2 1 .i32),
    (uw 0x1C (fA 3 2 1 3), .qlog hu6 3 2 1 .andn), (uw 0x1D (fA 3 63 0 0), .qany hu6 3 63 .any), (uw 0x1D (fA 3 63 0 1), .qany hu6 3 63 .all),
    (uw 0x1D (fA 3 63 0 2), .qany hu6 3 63 .none), (uw 0x1E (fA 3 2 0 0), .qmov hu6 3 2 .cpy), (uw 0x1E (fA 3 2 0 1), .qmov hu6 3 2 .not),
    (uw 0x1E (fA 3 0 0 2), .qmov hu6 3 0 .set), (uw 0x1E (fA 3 0 0 3), .qmov hu6 3 0 .clr)] = true := by decide

/-- R46, 0x20-0x38. -/
theorem test_words_control_engines : decodesAll [
    (uw 0x20 0x80000, .bra hu6 0x80000#20), (uw 0x21 (fA 0 4 0 0), .brx hu6 4), (uw 0x22 0, .barg hu6),
    (uw 0x23 (fB 0 0 0x0F), .bar hu6 false 15), (uw 0x23 (fB 0 0 0x13), .bar hu6 true 3),
    (uw 0x24 (fB 0 0 0xFD), .fence hu6 .seh .sc .system), (uw 0x24 (fB 0 0 0x28), .fence hu6 .s .rel .lane),
    (uw 0x24 (fB 0 0 0x52), .fence hu6 .e .acqrel .team), (uw 0x24 (fB 0 0 0x81), .fence hu6 .h .acq .group),
    (uw 0x25 0, .nop hu6), (uw 0x26 0, .end_ hu6), (uw 0x27 (fA 0 4 0 0), .waitt hu6 4), (uw 0x28 (fA 3 4 0 0), .launch hu6 3 4),
    (uw 0x30 (fA 0 4 6 1), .fork hu6 4 6 .me), (uw 0x30 (fA 0 4 6 2), .fork hu6 4 6 .ce), (uw 0x30 (fA 0 4 6 3), .fork hu6 4 6 .both),
    (uw 0x31 (fB 0 0 7), .rdv hu6 7), (uw 0x32 (fA 3 4 0 0), .cpy hu6 3 4), (uw 0x33 (fA 3 4 0 0), .cpyw hu6 3 4),
    (uw 0x34 (fA 7 4 0 0), .rbind hu6 7 4), (uw 0x35 (fB 7 0 255), .rpub hu6 7 255), (uw 0x36 (fB 1 0 1), .rwaitf hu6 1 1),
    (uw 0x37 (fA 3 4 6 0), .steep hu6 3 4 6), (uw 0x38 (fA 3 4 6 0), .meas hu6 3 4 6)] = true := by decide

/-- R46, 0x40-0x65. -/
theorem test_words_system_tiles : decodesAll [
    (uw 0x40 (fC 0 0x3FFF), .trap hu6 0x3FFF#14), (uw 0x41 0x00010, .cbegin hu6 16#20), (uw 0x42 0, .cend hu6),
    (uw 0x43 (fA 3 4 0 0), .tlbw hu6 3 4), (uw 0x44 (fA 0 4 0 0), .tlbi hu6 4 .one), (uw 0x44 (fA 0 0 0 1), .tlbi hu6 0 .all),
    (uw 0x45 (fA 3 4 0 0), .pgreq hu6 3 4), (uw 0x46 (fA 4 0 0 0), .framea hu6 4), (uw 0x47 (fA 3 4 0 0), .framef hu6 3 4),
    (uw 0x48 (fA 3 4 6 0), .migr hu6 3 4 6), (uw 0x49 (fC 3 0x045), .csrr hu6 3 0x045#12), (uw 0x4A (fC 3 0x0C8), .csrw hu6 3 0x0C8#12),
    (uw 0x4B (fA 0 0 0 0), .hret hu6 0 .saved), (uw 0x4B (fA 0 4 0 1), .hret hu6 4 .uniform), (uw 0x4B (fA 0 4 0 2), .hret hu6 4 .vector),
    (uw 0x4C (fA 0 4 0 0), .halto hu6 4), (uw 0x4D (fA 3 4 6 0), .discard hu6 3 4 6), (uw 0x50 (fA 15 14 8 0), .bincfg hu6 15 14 8),
    (uw 0x51 (fA 3 4 0 0), .binwake hu6 3 4), (uw 0x52 (fA 3 0 0 0), .binflush hu6 3), (uw 0x53 (fA 4 15 0 0), .binq hu6 4 15 .occupancy),
    (uw 0x53 (fA 4 15 0 1), .binq hu6 4 15 .wake), (0xFD400000, .frameld ⟨true, 7⟩), (uw 0x60 (fA 3 4 0 0), .tbind hu6 3 4),
    (uw 0x61 (fA 3 0 0 0), .tzero hu6 3), (uw 0x62 (fA 3 2 1 0), .tcolop hu6 3 2 1 .addF32), (uw 0x62 (fA 3 2 1 1), .tcolop hu6 3 2 1 .addI32),
    (uw 0x62 (fA 3 2 1 2), .tcolop hu6 3 2 1 .maxF32), (uw 0x62 (fA 3 2 1 3), .tcolop hu6 3 2 1 .set), (uw 0x63 (fA 3 4 0 0), .tload hu6 3 4),
    (uw 0x64 (fA 3 4 0 0), .tstore hu6 3 4), (uw 0x65 (fA 3 15 0 0), .tacc hu6 3 15)] = true := by decide

/-- The words the spec itself prints: 03 "Worked encodings" and R47, and the worked encodings of 05. -/
theorem test_words_printed : decodesAll [
    (0x12C1461C, .vsel ⟨false, 2⟩ 5 6 7), (0x3D039089, .vtrd ⟨false, 7⟩ 3 true 4 2 9), (0x3C130C75, .vldxW ⟨false, 7⟩ 12 3 7 5),
    (0x3A00C2A8, .vcvt ⟨false, 7⟩ 3 2 .e4m3 .f32 .rne), (0xBA40004C, .fence ⟨false, 7⟩ .e .rel .device),
    (0xFA0FFFFA, .bra ⟨true, 7⟩ 0xFFFFA#20), (0x00000000, .vadd ⟨false, 0⟩ 0 0 0 .i32), (0x3800C415, .vadd ⟨false, 7⟩ 3 4 5 .si32),
    (0x38D04268, .vshi ⟨false, 7⟩ 1 2 .rotr 8), (0x0AA0C011, .vcmplt ⟨false, 1⟩ 3 0 4 .u32), (0x3AE24002, .pmov ⟨false, 7⟩ 9 0 .set),
    (0xB8010621, .sadd ⟨false, 7⟩ 4 6 8 .u64), (0xB8F28FE0, .slui ⟨false, 7⟩ 10 0x0FE0#14), (0xB9208008, .xaddbi ⟨false, 7⟩ 2 8#8),
    (0xB940C201, .xget ⟨false, 7⟩ 3 2 .stride), (0xB9D08501, .qany ⟨false, 7⟩ 2 5 .all), (0xBA500000, .nop ⟨false, 7⟩)] = true := by decide

/-- Reserved, must-be-zero and out-of-range words (R42, R43, R45-R47). -/
theorem test_words_refused : ([
    0xFFFFFFFF,                                           -- OP 0x7F of the uniform set
    lw 0x19 0, lw 0x26 0, lw 0x2F 0, lw 0x46 0, lw 0x54 0, lw 0x67 0, uw 0x17 0, uw 0x1F 0, uw 0x29 0, uw 0x39 0, uw 0x4E 0, uw 0x55 0, uw 0x66 0,
    lw 0x03 (fA 3 2 1 1), lw 0x09 (fA 3 2 1 2), lw 0x0A (fA 3 2 1 3), lw 0x0F (fA 3 2 9 0), lw 0x10 (fA 3 2 1 3), lw 0x16 (fA 3 2 4 0),
    lw 0x0D (fB 3 2 0x80), lw 0x18 (fC 3 1),              -- imm[7] of VSHI, imm14 of VMOVL
    lw 0x20 (fA 3 2 (8 * 2 + 2) 0), lw 0x20 (fA 3 2 (8 * 7 + 2) 0), lw 0x20 (fA 3 2 (8 * 2 + 7) 0),
    lw 0x21 (fA 3 2 2 1), lw 0x21 (fA 3 2 4 0), lw 0x2E (fA 3 1 0 2), lw 0x31 (fB 3 2 0x40), lw 0x36 (fA 3 16 0 0),
    7 * 0x8000000 + 0x2C * 0x100000,                      -- VSEL with G = 7
    lw 0x38 (fM 3 48 0 2 0), lw 0x38 (fM 3 1 0 2 2), lw 0x3A (fM 3 1 0 2 1), lw 0x3B (fM 3 1 0 3 0), lw 0x3C (fM 3 1 0 0 1),
    lw 0x3D (fM 3 1 0 0 3), lw 0x3D (fM 3 1 0 3 0), lw 0x40 (fM 4 1 0 2 0), lw 0x45 (fM 3 1 0 3 0), lw 0x57 1, lw 0x5D (fA 3 16 0 0),
    uw 0x00 (fA 3 2 1 3), uw 0x0D (fA 3 2 4 0), uw 0x10 (fA 16 2 1 0), uw 0x11 (fA 3 1 1 0), uw 0x18 (fA 3 2 1 3), uw 0x1C (fA 3 16 1 0),
    uw 0x1D (fA 3 2 0 3), uw 0x1E (fA 3 1 0 3), uw 0x23 (fB 0 0 0x20), uw 0x24 (fB 0 0 0x08), uw 0x24 (fB 0 0 0x26), uw 0x25 1,
    uw 0x30 (fA 0 4 6 0), uw 0x31 (fB 0 0 8), uw 0x34 (fA 8 4 0 0), uw 0x35 (fB 7 0 0), uw 0x40 (fC 1 5), uw 0x49 (fC 3 0x7FF),
    uw 0x4A (fC 3 0x010), uw 0x44 (fA 0 4 0 1), uw 0x4B (fA 0 0 0 3), uw 0x4B (fA 0 1 0 0), uw 0x50 (fA 16 1 8 0), uw 0x54 0,
    uw 0x60 (fA 16 4 0 0), uw 0x65 (fA 3 16 0 0)].all (fun w => decide (decodeTableWord 32 w = none))) = true := by decide

/-- R48: the matrix commands, the fields at the bits the table gives. -/
theorem test_matrix_commands :
    decodeMx 5 (0x01 * 2 ^ 58 + 7 * 2 ^ 55 + 3 * 2 ^ 52 + 2 ^ 51 + 65535 * 2 ^ 32) = .mxcfg 5 7 3 true 65535 ∧
    decodeMx 5 (0x02 * 2 ^ 58 + 15 * 2 ^ 54) = .mxzero 5 15 ∧
    decodeMx 5 (0x03 * 2 ^ 58 + 9 * 2 ^ 54 + 6 * 2 ^ 51 + 5 * 2 ^ 48 + 1 * 2 ^ 32) = .mxmma 5 9 6 5 1 ∧
    decodeMx 5 (0x04 * 2 ^ 58 + 6 * 2 ^ 51 + 300 * 2 ^ 32) = .mxwait 5 6 300 ∧
    decodeMx 5 (0x05 * 2 ^ 58 + 6 * 2 ^ 51 + 300 * 2 ^ 32) = .mxrel 5 6 300 ∧
    decodeMx 5 (0x06 * 2 ^ 58 + 9 * 2 ^ 54 + 4 * 2 ^ 51 + 12 * 2 ^ 46) = .mxdrain 5 9 4 false 12 ∧
    decodeMx 5 (0x06 * 2 ^ 58 + 9 * 2 ^ 54 + 4 * 2 ^ 51 + 2 ^ 50 + 6 * 2 ^ 46) = .mxdrain 5 9 4 true 6 ∧
    decodeMx 5 (0x07 * 2 ^ 58 + 1000 * 2 ^ 32 + 12) = .mxloop 5 1000 12 ∧
    decodeMx 5 (0x08 * 2 ^ 58 + 7 * 2 ^ 55) = .mxsig 5 7 ∧
    decodeMx 5 (0x09 * 2 ^ 58) = .mxfence 5 ∧ decodeMx 5 (0x0A * 2 ^ 58) = .mxend 5 := by decide

/-- R48: opcode 0, opcode 0x0B, a nonzero bit not listed, a zero count. -/
theorem test_matrix_commands_refused :
    [0, 0x0B * 2 ^ 58, 0x3F * 2 ^ 58, 0x09 * 2 ^ 58 + 1, 0x02 * 2 ^ 58 + 2 ^ 53, 0x04 * 2 ^ 58 + 6 * 2 ^ 51, 0x07 * 2 ^ 58 + 2 ^ 32,
      0x06 * 2 ^ 58 + 2 ^ 50 + 8 * 2 ^ 46].all (fun w => decide (decodeMx 5 w = .mxIllegalCommand 5 (BitVec.ofNat 64 w))) = true := by decide

/-! ## Well-formedness: an ill-formed term for each check -/

theorem test_ill_formed : ([
    .vadd ⟨false, 8⟩ 0 0 0 .i32, .vadd h7 64 0 0 .i32, .vadd h7 0 64 0 .i32, .vadd h7 0 0 64 .i32,   -- guard, d, a, b
    .vshi h7 0 0 .shl 32, .vcvt h7 0 0 .f32 .f32 .rne, .vcvt6 h7 0 0 .fromE3m2 .rup, .vqnt h7 0 0 32 0, .vdqnt h7 0 0 0 8,
    .vsel h7 0 0 0, .pmov h7 0 1 .set, .vshflx h7 0 0 64, .vaff h7 0 16,
    .vld h7 0 (.aff 16) 0 .w32 .plain, .vld h7 0 (.pair 32) 0 .w32 .plain, .vld h7 0 (.aff 0) 16 .w32 .plain, .vld h7 0 (.aff 0) 0 .w32 .release,
    .vst h7 0 (.aff 0) 0 .w32 .acquire, .vatadd h7 0 (.aff 0) 0 .i32 .nontemporal, .vldxW h7 0 16 0 0, .vldxW h7 0 0 64 0, .vldxW h7 0 0 0 16,
    .vtrd h7 16 false 0 0 0, .vtrd h7 0 false 32 0 0, .vtrd h7 0 false 0 16 0, .vtrd h7 0 false 0 0 64,
    .vsusp h7 0 16 .explicit, .vspawn h7 0 16 0, .xset h7 16 0 0, .xadd h7 0 16 0, .xget h7 0 16 .base, .scmpeq h7 16 0 0 .i32, .qlog h7 0 16 0 .and,
    .qmov h7 0 1 .clr, .bar h7 false 16, .rdv h7 8, .rbind h7 8 0, .rpub h7 0 0, .rpub h7 0 256, .rwaitf h7 0 0, .tlbi h7 1 .all,
    .csrr h7 0 0x7FF, .csrw h7 0 0x010, .hret h7 1 .saved, .bincfg h7 16 0 0, .bincfg h7 0 16 0, .binq h7 0 16 .wake, .frameld ⟨false, 0⟩,
    .tbind h7 16 0, .tacc h7 0 16, .mxcfg 1024 0 0 false 1, .mxcfg 0 8 0 false 1, .mxcfg 0 0 0 false 0, .mxzero 0 16, .mxwait 0 8 1, .mxwait 0 0 0,
    .mxmma 0 0 0 0 65536, .mxdrain 0 0 0 true 8, .mxdrain 0 0 0 false 16, .mxloop 0 0 1, .mxloop 0 1 0, .mxsig 0 8,
    .runStart 1024, .portDown 16, .coreRetire 256] : List Instr).all (fun i => !i.wf) = true := by decide

/-- A card constructor whose card is of another kind. -/
theorem test_ill_formed_card :
    let c := decodeCard 0 (List.replicate 128 0) ⟨[1], [0], [0], [0], false⟩
    (Instr.copy 0 c).wf = false ∧ (Instr.post 0 { c with opcode := 4, collOp := 2 }).wf = false ∧
      (Instr.post 0 { c with opcode := 4, collOp := 1 }).wf = true := by decide

/-- The check value of 15 R274. -/
theorem test_crc32c_check_value : crc32c 0 ((List.range 9).map (fun i => BitVec.ofNat 8 (0x31 + i))) = 0xE3069283#32 := by decide +kernel

/-! ## Worked values of the spec, each through one execution -/

/-- Register 2 of lane 0 and FSTAT (R139: NX 1, UF 2, OF 4) after the instruction, with v0 and v1 given and FRM as given. -/
def after (i : Instr) (x y : Nat) (frm : Nat) : Option (Word × Word) :=
  match exec i (md (fun g => { g with frm := BitVec.ofNat 32 frm }) (vs [(0, x), (1, y)] wA)) with
  | .next t => some (t.cur.vraw 2 0, t.cur.fstat)
  | _ => none

/-- The values 09 R173 lists for RNE. -/
theorem test_special_values :
    after (.vrcp h7 2 0) 0x40400000 0 0 = some (0x3EAAAAAB, 1) ∧ after (.vsqrt h7 2 0) 0x40000000 0 0 = some (0x3FB504F3, 1) ∧
      after (.vsqrt h7 2 0) 1 0 0 = some (0x1A3504F3, 1) ∧ after (.vexp2 h7 2 0) 0xBF800000 0 0 = some (0x3F000000, 0) ∧
      after (.vexp2 h7 2 0) 0x43000000 0 0 = some (0x7F800000, 5) ∧ after (.vexp2 h7 2 0) 0xC3160000 0 0 = some (0, 3) ∧
      after (.vlog2 h7 2 0) 0x41000000 0 0 = some (0x40400000, 0) ∧ after (.vtanh h7 2 0) 0x41200000 0 0 = some (0x3F800000, 1) ∧
      after (.vdiv h7 2 0 1) 0x3F800000 0x40400000 0 = some (0x3EAAAAAB, 1) := by decide +kernel

theorem test_tanh_toward_zero : after (.vtanh h7 2 0) 0x41200000 0 1 = some (0x3F7FFFFF, 1) := by decide +kernel
/-- The value worked in 07_layernorm_program.md. -/
theorem test_rsq_worked : (after (.vrsq h7 2 0) 0x40000004 0 0).map (·.1) = some 0x3F3504F0 := by decide +kernel
/-- The block worked at 08 R149: INT, X = 31, the bytes E3 01 05 as codes, NX. -/
theorem test_quantised_block :
    quantise ([0x40400000, 0xBFC00000, 0x3F400000, 0x3EC00000, 0x40A00000] ++ List.replicate 27 0) 4 false =
      (0x1F, [3, 14, 1, 0, 5] ++ List.replicate 27 0, fNX) := by decide +kernel

/-- 2^-6 - 2^-10 rounds up to 2^-6, the smallest normal number of E4M3: the conversion is inexact and not tiny (08 R144). -/
theorem test_cvt_rounds_up_to_normal : cvt (.fin false 15 (-10)) .e4m3 .rne false false = (8, fNX) := by decide +kernel
/-! ## Every statement's hypotheses are met -/

theorem witness_LaneIntegerResults (H : Obligations.LaneIntegerResults) : Runs (.vadd h7 63 0 63 .i32) wA :=
  r1 (H wA h7 63 0 63 rfl (by decide) (by decide) (by decide) _ (.head _))

theorem witness_LaneUnaryAndImmediateResults (H : Obligations.LaneUnaryAndImmediateResults) :
    Runs (.vaddi h7 63 0 0x80) wA ∧ Runs (.vpopc h7 63 0) wA ∧ Runs (.vclz h7 63 0) wA ∧ Runs (.vbrev h7 63 0) wA :=
  ⟨r1 (H.1 wA h7 63 0 31 0x80 0x2000 5 rfl (by decide) (by decide) (by decide) _ (.head _)),
   r1 (H.2 wA h7 63 0 rfl (by decide) (by decide)).1, r1 (H.2 wA h7 63 0 rfl (by decide) (by decide)).2.1,
   r1 (H.2 wA h7 63 0 rfl (by decide) (by decide)).2.2⟩

theorem witness_LanePredicateResults (H : Obligations.LanePredicateResults) :
    Runs (.vcmpeq h7 63 0 63 .i32) wA ∧ Runs (.plog h7 63 0 63 .and) wA ∧ Runs (.vsel ⟨false, 6⟩ 63 0 63) wA ∧
    Runs (.vcmpeq h7 63 0 63 .f32) wA :=
  ⟨r1 ((H.1 wA h7 63 0 63 rfl).1 (by decide) (by decide) _ (.head _)),
   r1 ((H.1 wA h7 63 0 63 rfl).2.1 _ (.head _)),
   r1 ((H.1 wA ⟨false, 6⟩ 63 0 63 rfl).2.2 (by decide) (by decide) (by decide) (by decide)),
   r1 (H.2 wA h7 63 0 63 rfl (by decide) (by decide) _ (.head _))⟩

theorem witness_UniformResults (H : Obligations.UniformResults) :
    Runs (.sadd h7 63 0 63 .i32) wA ∧ Runs (.sadd h7 62 0 2 .u64) wA ∧ Runs (.sadd h7 62 0 63 .u64) wA ∧ Runs (.sreadl h7 63 63 0) wA :=
  ⟨r1 (H.1 wA h7 63 0 63 0x80 0 5 rfl (by decide) (by decide) (by decide) _ (.head _)),
   r1 ((H.2.1 wA h7 62 0 2 rfl _ (.head _)).1 (by decide)),
   ⟨_, (H.2.1 wA h7 62 0 63 rfl _ (.head _)).2 (by decide)⟩,
   r1 (H.2.2 wA h7 63 63 0 rfl rfl (by decide) (by decide) (by decide) (.inl rfl))⟩

theorem witness_AffineResults (H : Obligations.AffineResults) :
    Runs (.xset h7 15 62 63) wA ∧ Runs (.xaddb h7 15 63) wA ∧ Runs (.xaddbi h7 62 0x80) wA ∧ Runs (.xstr h7 15 63) wA ∧
    Runs (.xmuls h7 62 0x80) wA ∧ Runs (.xadd h7 15 62 63) wA ∧ Runs (.xget h7 62 15 .base) wA ∧ Runs (.xget h7 62 15 .stride) wA ∧
    Runs (.xset h7 15 63 0) wA ∧ (∃ w, encode (.xset h7 15 62 63) = [w]) :=
  have a := H wA h7 15 62 63 0x80 rfl rfl
  have b := H wA h7 62 15 63 0x80 rfl rfl
  ⟨r1 (a.1 (by decide) (by decide) (by decide)), r1 (a.2.1 (by decide)), r1 b.2.2.1, r1 (a.2.2.2.1 (by decide)), r1 b.2.2.2.2.1,
   r1 a.2.2.2.2.2.1, r1 (b.2.2.2.2.2.2.1 (by decide) (by decide)), r1 (b.2.2.2.2.2.2.2.1 (by decide)),
   ⟨_, (H wA h7 15 63 0 0 rfl rfl).2.2.2.2.2.2.2.2.2 (by decide)⟩, (a.2.2.2.2.2.2.2.2.1 (by decide)).2.imp fun _ h => h.1⟩

theorem witness_UniformPredicateResults (H : Obligations.UniformPredicateResults) :
    Runs (.scmpeq h7 15 62 0 .i32) wA ∧ Runs (.scmpeq h7 15 62 0 .u32) wA ∧ Runs (.scmpeq h7 15 62 0 .u64) wA ∧
    Runs (.qlog h7 15 62 0 .and) wA ∧ Runs (.qany h7 15 63 .any) wA :=
  have a := H.1 wA h7 15 62 0 rfl rfl (by decide)
  have b := a.1 (by decide) (by decide) _ (.head _)
  have c := H.2 wA h7 15 63 rfl rfl (by decide) _ (.head _)
  ⟨r1 b.1, r1 b.2.1, r1 (b.2.2 (by decide) (by decide) (by decide) (by decide)), r1 (a.2 _ (.head _)),
   r1 c⟩

theorem witness_LaneExchangeResults (H : Obligations.LaneExchangeResults) :
    Runs (.vshfl h7 62 0 63) wA ∧ Runs (.vshflx h7 62 0 15) wA ∧ Runs (.vshflu h7 62 0 15) wA ∧ Runs (.vshfld h7 62 0 15) wA ∧
    Runs (.vaff h7 62 0) wA ∧ Runs (.vbcast h7 62 0) wA ∧ Runs (.vballot h7 62 0) wA ∧
    Runs (.vballot h7 62 0) (md (fun g => { g with width := 64 }) wA) :=
  have a := H wA h7 62 0 63 15 rfl (.inl rfl) (by decide) (fun l h => by rw [only_zero rfl h]; decide)
  have b := H (md (fun g => { g with width := 64 }) wA) h7 62 0 63 15 rfl (.inr (.inr rfl)) (by decide)
    (fun l h => by rw [only_zero rfl h]; decide)
  have c := a.1 (by decide) (by decide) (by decide)
  ⟨r1 c.1, r1 c.2.1, r1 c.2.2.1, r1 c.2.2.2, r1 (a.2.1 (by decide)), r1 (a.2.2.1 (by decide) (by decide)),
   r1 (a.2.2.2.1 (by decide) (by decide)), r1 (b.2.2.2.2 rfl (by decide) (by decide))⟩

theorem witness_ReductionResults (H : Obligations.ReductionResults) :
    Runs (.vred h7 63 0 .minI32) (md (fun g => { g with iss := 0 }) wA) ∧ Runs (.vred h7 63 0 .addI32) wA ∧
    Runs (.vred h7 63 0 .minI32) wA ∧ Runs (.vred h7 63 0 .maxI32) wA ∧ Runs (.vred h7 63 0 .addF32) wA :=
  have z := (H.1 (md (fun g => { g with iss := 0 }) wA) h7 63 0 rfl (.inl rfl)
    (fun l h => by simp [State.active, h7, md, Mask.has] at h) (by decide) (by decide)).1 rfl
  have a := (H.1 wA h7 63 0 rfl (.inl rfl) (fun l h => by rw [only_zero rfl h]; decide) (by decide) (by decide)).2 (by decide)
  ⟨r1 (z .minI32), r1 a.1, r2 a.2.1, r2 a.2.2, r1 (H.2 wA h7 63 0 rfl (.inl rfl) (by decide) (by decide) (by decide))⟩

theorem witness_FloatElementResults (H : Obligations.FloatElementResults) :
    Runs (.vfadd h7 63 0 63 .f32) wA ∧ Runs (.vfadd h7 63 0 63 .bf16x2) wA :=
  ⟨r1 (H wA h7 63 0 63 .f32 rfl (by decide) (by decide) (by decide) _ (.head _)),
   r1 (H wA h7 63 0 63 .bf16x2 rfl (by decide) (by decide) (by decide) _ (.head _))⟩

theorem witness_FloatUnaryResults (H : Obligations.FloatUnaryResults) : Runs (.vfscl h7 63 0 63) wA :=
  r1 (H wA h7 63 0 63 .i32 .f32 .rne .toE3m2 .hiF16 rfl (by decide) (by decide) (by decide) _ (.head _))

theorem witness_FloatCornerValues (H : Obligations.FloatCornerValues) :
    cvtWord .i32 .f32 .rtz 0x7FC00000 = (0, fNV) ∧ cvt (decodeF .e4m3 0) .e4m3 .rne false false = (0, 0) ∧
    (mulX (decodeF .f32 0x7FC00000) (decodeF .f32 0)).2 = 0 :=
  ⟨(H.1.2.2.1 0x7FC00000 .rtz (by decide +kernel)).1,
   H.2.1 .e4m3 .rne 0 (by decide) (by decide +kernel) (by decide +kernel),
   by rw [(H.2.2 .rne (decodeF .f32 0x7FC00000) (decodeF .f32 0) (.inl (by decide +kernel))).2]; decide +kernel⟩

def slotGrid (f : Nat) : State → State := mg (fun g => { g with record := { g.record with formats := [f] } })
theorem witness_QuantiserResults (H : Obligations.QuantiserResults) :
    Runs (.vqnt h7 63 0 63 0) (slotGrid 0x1000 wA) ∧ Runs (.vdqnt h7 63 0 63 0) (slotGrid 0x1000 wA) ∧
    Runs (.vdqnt h7 63 0 63 0) (slotGrid 0 wA) ∧
    Runs (.vqnt h7 63 0 63 0) (slotGrid 0x7000 (md (fun g => { g with iss := 0 }) wA)) ∧ Runs (.vqnt h7 63 0 63 0) (slotGrid 0x7000 wA) ∧
    Runs (.vdqnt h7 63 0 63 0) (slotGrid 0x7000 wA) := by
  have a := (H (slotGrid 0x1000 wA) h7 63 0 63 0 rfl (by decide) (by decide) (by decide)).1 .f16 (by decide +kernel)
  have b := (H (slotGrid 0 wA) h7 63 0 63 0 rfl (by decide) (by decide) (by decide)).1 .f32 (by decide +kernel)
  have z := (H (slotGrid 0x7000 (md (fun g => { g with iss := 0 }) wA)) h7 63 0 63 0 rfl (by decide) (by decide) (by decide)).2 (by decide +kernel)
  have c := (H (slotGrid 0x7000 wA) h7 63 0 63 0 rfl (by decide) (by decide) (by decide)).2 (by decide +kernel)
  exact ⟨r1 a.1, r1 (a.2.2 (by decide)), r1 (b.2.1 rfl), r1 (z.1 rfl), r1 (c.2.1 (by decide)), r1 c.2.2⟩

/-- x1 addresses the last `n` bytes of the 64 at 0x110000. -/
def xw (n : Nat) : State := md (fun g => { g with xb := [(1, BitVec.ofNat 64 (0x110040 - n))] }) wA
def xk (n : Nat) : Nat → Nat := fun _ => 0x110040 - n

theorem xw_reaches (n : Nat) (va : Nat → DWord) (mo : Mode) (at_ : Option (Nat × Bool))
    (h : (xw n).classify mo n at_ (va 0) = .ok (xk n 0)) (hk : isHostKey (xk n 0) = false) (hp : (xw n).poisoned (xk n 0) n = false) :
    (xw n).reaches h7 mo n n at_ va (xk n) :=
  ⟨rfl, fun l hl => by rw [only_zero rfl hl]; exact ⟨h, hk, hp⟩⟩

theorem witness_LoadResults (H : Obligations.LoadResults) :
    Runs (.vld h7 63 (.aff 1) 0 .w32 .plain) (xw 4) ∧ Runs (.vld h7 62 (.aff 1) 0 .w64 .plain) (xw 8) ∧
    Runs (.vldxW h7 63 1 5 0) (xw 4) ∧ Runs (.vldxD h7 62 1 5 0) (xw 8) ∧ Runs (.vldn h7 63 (.aff 1) 0 .n8 .plain) (xw 32) ∧
    Runs (.vldnf h7 63 (.aff 1) 0 .b8 .plain) (xw 1) ∧
    Runs (.vldnf h7 63 (.aff 1) 0 .b8 .plain) (mo (fun o => { o with tlb := [{ pg 17 with st := .absent }] }) (xw 1)) := by
  have l4 := H.1 (xw 4) h7 63 (.aff 1) 1 5 .w32 .plain (xk 4) rfl
  have l8 := H.1 (xw 8) h7 62 (.aff 1) 1 5 .w64 .plain (xk 8) rfl
  refine ⟨r1 (l4 _ (.head _) (by decide) (by decide) (by decide) (xw_reaches 4 _ _ _ (by decide +kernel) (by decide) (by decide +kernel))),
    r1 (l8 _ (.head _) (by decide) (by decide) (by decide) (xw_reaches 8 _ _ _ (by decide +kernel) (by decide) (by decide +kernel))),
    r1 (l4 _ (.tail _ (.head _)) (by decide) (by decide) (by decide) (xw_reaches 4 _ _ _ (by decide +kernel) (by decide) (by decide +kernel))),
    r1 (l8 _ (.tail _ (.tail _ (.head _))) (by decide) (by decide) (by decide) (xw_reaches 8 _ _ _ (by decide +kernel) (by decide) (by decide +kernel))),
    r1 (H.2.1 (xw 32) h7 63 (.aff 1) .n8 .plain (xk 32) rfl (by decide) (by decide) (fun l hl => by rw [only_zero rfl hl]; decide +kernel)
      ⟨rfl, fun l hl => by rw [only_zero rfl hl]; decide +kernel⟩),
    r1 (H.2.2.1 (xw 1) h7 63 (.aff 1) .b8 .plain (xk 1) rfl (by decide) (by decide) (by decide)
      ⟨rfl, fun l hl => by rw [only_zero rfl hl]; decide +kernel⟩),
    r1 (H.2.2.2 _ h7 63 (.aff 1) .b8 .plain rfl rfl (by decide) (by decide) (by decide)
      (fun l hl => by rw [only_zero rfl hl]; decide +kernel))⟩

/-- The word behind the issuing one lies on a page that is not executable. -/
def atEnd : State := md (fun g => { g with ipc := 0x10FFFC }) (xw 4)

theorem witness_LookaheadResults (H : Obligations.LookaheadResults) :
    Runs (.vld h7 63 (.aff 1) 1 .w32 .plain) (xw 4) ∧
    (∀ left, left = 1 ∨ left = 7 → (({ (xw 4).cur with outst := [⟨63, 63, false, 9, left, false, false, 0, 0, false, 0, 0⟩] } : Group).complete 0
      (Mask.one 63)).outst.length = left / 7) ∧
    exec (.vldf h7 63 (.aff 1) 7 .plain) (xw 4) = exec (.vld h7 63 (.aff 1) 7 .w32 .plain) (xw 4) ∧ Runs (.vldf h7 63 (.aff 1) 7 .plain) atEnd := by
  have re := xw_reaches 4 ((xw 4).addrM (.aff 1)) .read none (by decide +kernel) (by decide) (by decide +kernel)
  refine ⟨r1 (H.1 (xw 4) h7 63 1 (.aff 1) .plain (xk 4) rfl (by decide) (by decide) (by decide) re), ?_,
    (H.2.2 (xw 4) h7 63 7 (.aff 1) .plain (xk 4) rfl (by decide) (by decide) re).1 (by decide +kernel),
    r1 ((H.2.2 atEnd h7 63 7 (.aff 1) .plain (xk 4) rfl (by decide) (by decide)
      ⟨rfl, fun l hl => by rw [only_zero rfl hl]; decide +kernel⟩).2 (by decide +kernel))⟩
  intro left hl
  have h := H.2.1 0 { (xw 4).cur with outst := [⟨63, 63, false, 9, left, false, false, 0, 0, false, 0, 0⟩] } (Mask.one 63)
    ⟨63, 63, false, 9, left, false, false, 0, 0, false, 0, 0⟩ rfl rfl rfl rfl (show Mask.has (Mask.one 63) 63 = true by decide) (show 63 < 64 by decide)
  obtain rfl | rfl := hl
  · rw [(h.2 (by decide) (by decide)).1]; rfl
  · rw [(h.1 (by decide)).1]; rfl

theorem witness_StoreResults (H : Obligations.StoreResults) :
    Runs (.vst h7 63 (.aff 1) 0 .w32 .plain) (xw 4) ∧ Runs (.vstxD h7 62 1 5 7) (xw 8) ∧ Runs (.vstn h7 63 (.aff 1) 0 .n8 .plain) (xw 32) :=
  ⟨r1 (H.1 (xw 4) h7 63 (.aff 1) 1 5 0 .w32 .plain (xk 4) rfl _ (.head _) (by decide) (by decide) (by decide) rfl
      (fun l hl => by rw [only_zero rfl hl]; exact ⟨by decide +kernel, by decide +kernel, by decide +kernel, rfl⟩)),
   r1 (H.1 (xw 8) h7 62 (.aff 1) 1 5 7 .w32 .plain (xk 8) rfl _ (.tail _ (.tail _ (.head _))) (by decide) (by decide) (by decide) rfl
      (fun l hl => by rw [only_zero rfl hl]; exact ⟨by decide +kernel, by decide +kernel, by decide +kernel, rfl⟩)),
   r1 (H.2 (xw 32) h7 63 0 0 (.aff 1) .n8 .plain (xk 32 0) rfl rfl (by decide) (by decide) (by decide) (by decide)
      (fun l hl => by rw [only_zero rfl hl]) (by decide +kernel) (by decide +kernel) ⟨by decide +kernel, by decide +kernel, rfl⟩)⟩

theorem witness_AtomicResults (H : Obligations.AtomicResults) :
    Runs (.vatadd h7 63 (.aff 1) 0 .i32 .plain) (xw 4) ∧ Runs (.vcas h7 60 (.aff 1) 0 .w64 .plain) (xw 8) := by
  have re := xw_reaches 4 ((xw 4).addrM (.aff 1)) .write (some (4, true)) (by decide +kernel) (by decide) (by decide +kernel)
  have h8 := H.1 (xw 8) h7 60 (.aff 1) .plain (xk 8) rfl (by decide) (.vcas h7 60 (.aff 1) 0 .w64 .plain, 8, true, 4, _)
    (by repeat' first | exact .head _ | apply List.Mem.tail) (by decide) (by decide)
    (xw_reaches 8 _ _ _ (by decide +kernel) (by decide) (by decide +kernel))
    (fun l hl => by rw [only_zero rfl hl]; exact ⟨by decide +kernel, by decide +kernel, rfl⟩) (fun l l' hl hl' n => absurd ((only_zero rfl hl).trans (only_zero rfl hl').symm) n)
  exact ⟨r1 (H.2 (xw 4) h7 63 (.aff 1) .plain (xk 4 0) rfl (by decide) (by decide) re ⟨by decide +kernel, by decide +kernel, rfl⟩), r1 h8⟩

/-- A jump table of one entry at 0x110000. -/
def jtab (count index : Nat) : State :=
  { us [(60, 0x110000), (62, count)] (vs [(63, index)] wA) with mem := Memory.write [] 0x110000 (leBytes 8 0x100800) }

theorem witness_BranchResults (H : Obligations.BranchResults) :
    Runs (.vbr h7 0x80000) wA ∧ Runs (.bra h7 0x7FFFF) wA ∧ Runs (.brx h7 62) (us [(62, 0x100400)] wA) ∧
    Runs (.brx h7 62) (us [(62, 0x100402)] wA) ∧ Runs (.nop h7) wA ∧ Runs (.vjtab h7 63 60) (jtab 1 0) ∧ Runs (.vjtab h7 63 60) (jtab 1 1) := by
  have a := H.1 wA h7 0x80000 62 rfl
  have b := H.1 wA h7 0x7FFFF 62 rfl
  have c := H.1 (us [(62, 0x100400)] wA) h7 0 62 rfl
  have d := H.1 (us [(62, 0x100402)] wA) h7 0 62 rfl
  refine ⟨r1 a.1, r1 b.2.1, r1 (c.2.2.1 (by decide) (by decide) (fun _ => by decide)),
    r1 (d.2.2.2.1 (by decide) (by decide) rfl (by decide) ⟨rfl, by decide⟩), r1 a.2.2.2.2,
    r1 ((H.2 (jtab 1 0) h7 63 60 (fun _ => 0x110000) rfl rfl (by decide) (by decide) (by decide)).1
      (fun l hl => by rw [only_zero rfl hl]; decide +kernel)),
    r1 ((H.2 (jtab 1 1) h7 63 60 (fun _ => 0x110000) rfl rfl (by decide) (by decide) (by decide)).2
      (by decide) ⟨rfl, by decide⟩ (fun l hl => by rw [only_zero rfl hl]; decide))⟩

def stackOf (n : Nat) : State := md (fun g => { g with csp := [(0, BitVec.ofNat 8 n)] }) (vs [(62, 0x100500)] wA)
theorem stackOf_le (n : Nat) (h : n ≤ 16) (l : Nat) : ((stackOf n).cur.csp.get l).toNat ≤ 16 := by
  have e : (stackOf n).cur.csp.get l = if l = 0 then BitVec.ofNat 8 n else 0 := by
    show SMap.get [(0, BitVec.ofNat 8 n)] l = _
    rcases l with _ | l <;> simp [SMap.get]
  rw [e]; split
  · rw [BitVec.toNat_ofNat, Nat.mod_eq_of_lt (by omega)]; exact h
  · decide
theorem witness_CallAndReturnResults (H : Obligations.CallAndReturnResults) :
    Runs (.vcall h7 0x80000) (stackOf 15) ∧ Runs (.vcallx h7 62) (stackOf 15) ∧ Runs (.vret h7) (stackOf 1) ∧
    Runs (.vcall h7 5) (stackOf 16) ∧ Runs (.vcallx h7 62) (vs [(62, 0x100501)] (stackOf 15)) ∧ Runs (.vret h7) wA ∧
    (∀ t, exec (.vcall h7 5) (stackOf 15) = .next t → ∀ l, (t.cur.csp.get l).toNat ≤ 16) := by
  have b := fun s f m (h : s.settled) (ho : s.canTake .illegalOp) (ha : s.canTake .align) hf => H.2.1 s h7 5 62 f m h ho ha hf
  have a := H.1 (stackOf 15) h7 0x80000 62 rfl
  refine ⟨r1 (a.1 _ (.head _) rfl (fun l hl => by rw [only_zero rfl hl]; decide)),
    r1 (a.1 _ (.tail _ (.head _)) (by decide) (fun l hl => by rw [only_zero rfl hl]; decide)),
    r1 ((H.1 (stackOf 1) h7 0 0 rfl).2 (fun l hl => by rw [only_zero rfl hl]; decide)),
    r1 ((b (stackOf 16) 1 0 rfl ⟨rfl, by decide⟩ ⟨rfl, by decide⟩ (by decide +kernel)).1 (stackOf_le 16 (by decide)) _ (.head _) rfl (by decide +kernel) (by decide)),
    r1 ((b (vs [(62, 0x100501)] (stackOf 15)) 0 1 rfl ⟨rfl, by decide⟩ ⟨rfl, by decide⟩ (by decide +kernel)).1 (stackOf_le 15 (by decide)) _ (.tail _ (.head _)) rfl
      (by decide +kernel) (by decide)),
    r1 ((b wA 0 0 rfl ⟨rfl, by decide⟩ ⟨rfl, by decide⟩ (by decide +kernel)).2 1 (by decide +kernel) (by decide)),
    fun t h => H.2.2 (stackOf 15) t h7 5 0 (stackOf_le 15 (by decide)) ⟨_, .head _, h⟩⟩

def pendingLoad : State := md (fun g => { g with outst := [⟨0, 2, false, 77, 3, false, false, 0, 0, false, 0, 0⟩] }) wA
theorem witness_WaitAndFenceResults (H : Obligations.WaitAndFenceResults) :
    Runs (.vyield h7) wA ∧ Runs (.waitt h7 62) (us [(62, 1)] wA) ∧ Runs (.waitt h7 62) wA ∧ Runs (.fence h7 .e .acq .team) wA ∧
    Runs (.fence h7 .e .acq .team) pendingLoad :=
  ⟨r1 ((H.1 wA h7 62 rfl).1 rfl rfl (by decide)), r1 ((H.1 (us [(62, 1)] wA) h7 62 rfl).2.1 (by decide) (by decide) rfl (by decide)),
   r1 ((H.1 wA h7 62 rfl).2.2 (by decide) (by decide) (.inr (by decide))), r1 ((H.2 wA h7 .e .acq .team).1 rfl),
   r1 ((H.2 pendingLoad h7 .e .acq .team).2 rfl (by decide))⟩

theorem owner_here : ∃ o ∈ wA.owners, o.id = wA.cur.owner := ⟨_, .head _, rfl⟩
def lastLane : State := md (fun g => { g with live := 1 }) wA
theorem witness_BarrierResults (H : Obligations.BarrierResults) :
    Runs (.barg h7) wA ∧ Runs (.barg h7) lastLane ∧ Runs (.bar h7 true 0) (atHandler wA) ∧
    Runs (.bar h7 false 15) wA ∧ Runs (.bar h7 true 15) lastLane := by
  have a := H.2 wA h7 false 15 (wA.teamOf 1) rfl rfl rfl (by decide) (by decide) (by decide) rfl rfl
  have b := H.2 lastLane h7 true 15 (wA.teamOf 1) rfl rfl rfl (by decide) (by decide) (by decide) rfl rfl
  refine ⟨r1 ((H.1 wA h7 rfl rfl rfl).1 rfl (by decide)), r1 ((H.1 lastLane h7 rfl rfl rfl).2.1 rfl (by decide) (by decide)),
    r1 ((H.1 (atHandler wA) h7 rfl rfl rfl).2.2 rfl rfl owner_here _ (.tail _ (.tail _ (.head _)))),
    r1 (a.1 ⟨wA.cur, .head _, rfl, 1, by decide, by decide, by decide, by decide⟩),
    r1 (b.2 (fun g hg _ l _ hl => ?_) (by decide) (fun l hl => by rw [only_zero rfl hl]; decide))⟩
  rw [show lastLane.contextGroups = [lastLane.cur] by decide +kernel] at hg
  obtain rfl := List.mem_singleton.mp hg
  exact .inr ⟨rfl, by rw [only_zero rfl hl]; decide⟩

theorem witness_RetirementResults (H : Obligations.RetirementResults) :
    Runs (.vexit h7) (md (fun g => { g with iss := 0 }) wA) ∧ Runs (.end_ ⟨false, 0⟩) wA ∧ Runs (.vexit h7) wA ∧ Runs (.end_ h7) wA :=
  ⟨r1 ((H (md (fun g => { g with iss := 0 }) wA) h7 rfl).1 rfl rfl), r1 ((H wA ⟨false, 0⟩ rfl).2.1 (by decide)),
   r1 ((H wA h7 rfl).2.2.1 (by decide)), r1 ((H wA h7 rfl).2.2.2 rfl)⟩

def noTable : State := mg (fun g => { g with handlers := [] }) wA
def odd : State := md (fun g => { g with xb := [(1, 0x110001)] }) wA
theorem witness_CausesAreTaken (H : Obligations.CausesAreTaken) :
    Runs (.reservedOpcode 0xFFFFFFFF) wA ∧ Runs (.vadd h7 64 0 0 .i32) wA ∧ Runs (.sadd h7 64 0 0 .i32) wA ∧
    Runs (.reservedOpcode 0xFFFFFFFF) (atHandler wA) ∧ Runs (.reservedOpcode 0xFFFFFFFF) noTable ∧
    Runs (.vld h7 62 (.aff 1) 0 .w64 .plain) odd ∧ Runs (.vst h7 62 (.aff 1) 0 .w64 .plain) odd := by
  have a := H.1 wA 0xFFFFFFFF h7 64 0 0 0 .plain rfl
  have c := H.2.2 odd h7 62 (.aff 1) .w64 .plain rfl rfl (by decide) (by decide) (by decide) (by decide) (by decide)
    (fun l hl => by rw [only_zero rfl hl]; decide +kernel) (by decide)
  exact ⟨r1 (a.1 ⟨rfl, by decide⟩), r1 (a.2.1 ⟨rfl, by decide⟩ (by decide) _ (.head _)), r1 (a.2.2 ⟨rfl, by decide⟩ (by decide) _ (.head _)),
    r1 ((H.2.1 (atHandler wA) 0xFFFFFFFF rfl).1 rfl rfl owner_here),
    r1 ((H.2.1 noTable 0xFFFFFFFF rfl).2 rfl (by decide) ⟨_, .head _, rfl⟩), r1 (c _ (.head _)), r1 (c _ (.tail _ (.head _)))⟩

/-- A PAGE handler group of one lane that serves a parked lane of group 9. -/
def parkedGroup : Group := { wA.cur with gid := 9, live := 1, fbin := 0x8000000000000000 }
def served9 : Served := ⟨0, 0, 9, 0x8000000000000000, 17, 0x110000, false, false, 0, []⟩
def pageGroup : State :=
  { vs [(3, 0x80000000)] (us [(62, 0x100400)] (md (fun g => { g with kind := .page, hlv := true, hl := 1, team := 0, served := [served9] }) wA)) with
    groups := [parkedGroup] }
def held : State := us [(62, 0x100400)] (vs [(62, 0x100500)] (atHandler wA))
def oddPc : State := md (fun g => { g with savedPc := [(0, 0x100402)] }) held
theorem witness_HandlerReturnResults (H : Obligations.HandlerReturnResults) :
    Runs (.hret h7 62 .saved) held ∧ Runs (.hret h7 62 .saved) oddPc ∧ Runs (.hret h7 62 .uniform) held ∧ Runs (.hret h7 62 .vector) held ∧ Runs (.hret h7 62 .saved) wA ∧
    Runs (.hret h7 62 .saved) pageGroup ∧ Runs (.hret h7 62 .uniform) pageGroup := by
  have a := H.1 held h7 62 rfl rfl (.inl rfl)
  have b := H.2 pageGroup h7 62 0 served9 parkedGroup rfl rfl rfl rfl rfl (.inr (.inr rfl))
  have c := b.2 rfl rfl (by decide) rfl rfl rfl rfl (by decide) rfl rfl (by decide) (by decide)
  have z : held.hretSelected = 0 := by decide +kernel
  exact ⟨r1 (a.1 rfl rfl (fun l => ⟨fun hl => by rw [only_zero rfl hl]; decide, fun hl => by simp [z, Mask.has] at hl⟩)),
    r1 ((H.1 oddPc h7 62 rfl rfl (.inl rfl)).2.1 rfl rfl owner_here ⟨0, by decide, by decide⟩), r1 (a.2.2.1 rfl (by decide +kernel) (by decide) (by decide) (by decide)),
    r1 (a.2.2.2.1 rfl (by decide +kernel) (by decide) (by decide) (fun l hl => by rw [only_zero rfl hl]; decide)),
    r1 ((H.1 wA h7 62 rfl rfl (.inl rfl)).2.2.2.2 ⟨rfl, by decide⟩), r1 b.1, r2 (c.2 (by decide))⟩

theorem witness_TrapAndHalt (H : Obligations.TrapAndHalt) :
    Runs (.trap h7 0x3FFF) wA ∧ Runs (.halto h7 63) wA ∧ Runs (.trap h7 0x3FFF) (atHandler wA) :=
  have a := H wA h7 0x3FFF 63 (wA.ownerOf 1) rfl rfl rfl rfl
  ⟨r2 (a.1 rfl rfl), r2 (a.2.1 rfl (by decide)), r1 ((H (atHandler wA) h7 0x3FFF 63 (wA.ownerOf 1) rfl rfl rfl rfl).2.2 rfl rfl)⟩

def regions (n : Nat) : State := md (fun g => { g with cstack := List.replicate n 0x100600 }) wA
def poisonedRegion : State :=
  { md (fun g => { g with cstack := [0x100500, 0x100600], xb := [(1, 0x110000)] }) wA with poison := [0x4400] }
theorem witness_ContainmentResults (H : Obligations.ContainmentResults) :
    Runs (.cbegin h7 0x80000) (regions 3) ∧ Runs (.cend h7) (regions 1) ∧ Runs (.cend ⟨false, 0⟩) wA ∧ Runs (.cbegin h7 0x80000) (regions 4) ∧
    Runs (.cend h7) (regions 0) ∧ Runs (.vld h7 63 (.aff 1) 0 .w32 .plain) poisonedRegion := by
  have a := fun n => H.1 (regions n) h7 0x80000 rfl
  refine ⟨r1 ((a 3).1 rfl rfl (by decide)), r1 ((a 1).2.1 rfl rfl (by decide)),
    r1 ((H.1 wA ⟨false, 0⟩ 0 rfl).2.2.1 (by decide) _ (.tail _ (.head _))), r1 ((a 4).2.2.2.1 rfl ⟨rfl, by decide⟩ (by decide)),
    r1 ((a 0).2.2.2.2 rfl ⟨rfl, by decide⟩ rfl),
    r1 (H.2 poisonedRegion h7 63 (.aff 1) .plain (fun _ => 0x110000) 0x100600 rfl rfl (by decide) (by decide) (by decide) (by decide) rfl rfl
      (fun l hl => by rw [only_zero rfl hl]; decide +kernel) rfl rfl (by decide +kernel))⟩

theorem witness_ControlRegisters (H : Obligations.ControlRegisters) :
    Runs (.csrr h7 62 0x001) wA ∧ Runs (.csrr h7 62 0x011) wA ∧ Runs (.csrw h7 62 0x001) wA ∧ Runs (.csrw h7 62 0x022) wA ∧
    Runs (.csrw h7 62 0x012) (atHandler wA) ∧ Runs (.csrw h7 62 0x012) wA :=
  have a := H wA h7 62 rfl rfl
  ⟨r1 (a.1 (by decide) _ (.head _)), r1 (a.2.1 (by decide) (by decide) _ (.head _)), r1 (a.2.2.1 (by decide) _ (.head _)),
   r1 (a.2.2.2.1 (by decide) (by decide)), r1 ((H (atHandler wA) h7 62 rfl rfl).2.2.2.2.1 (by decide) (by decide) rfl),
   r1 (a.2.2.2.2.2 (by decide) (by decide) ⟨rfl, by decide⟩)⟩
/-! Translation, frames, tiles and rings. -/

/-- Entry words in v60-v63 of lane 0, and a miss of page 18. -/
def entryWords (w0 fr hi : Nat) : State := vs [(60, w0), (61, fr), (62, 0), (63, hi)] wA
def miss (n : Nat) (request : Bool) : Miss :=
  { mid := 0, page := n, request := request, cores := [0], sp := 0, claimed := !request, write := false, fetch := false, engine := false, grid := 1 }
def granting : State := mo (fun o => { o with grants := [⟨0, 64, true, true, true, false⟩], held := [20], misses := [miss 18 false] }) (entryWords (0xF01 + 18 * 65536) 20 0)
def migratingPage (s : State) : State := { s with rackings := [⟨1, 0, 1, 2, 17, 17, 25, [], 1, false⟩] }
def twoMisses : State := mo (fun o => { o with misses := List.replicate 1024 (miss 19 false) }) (vs [(62, 0x120000)] wA)
theorem witness_TranslationResults (H : Obligations.TranslationResults) :
    Runs (.tlbw h7 5 60) (entryWords 0 0 0) ∧ Runs (.tlbw h7 5 60) (entryWords 0xF01 20 0x1E00000) ∧
    (∃ t, exec (.tlbw h7 5 60) granting = .next t ∧ ∃ e ∈ t.curOwner.tlb, e.page = 18 ∧ e.frame = 20) ∧
    Runs (.tlbi h7 62 .one) wA ∧ Runs (.tlbi h7 62 .one) (migratingPage (us [(62, 0x110000)] wA)) ∧ Runs (.tlbi h7 62 .all) wA ∧
    Runs (.tlbi h7 62 .all) (migratingPage wA) ∧ Runs (.pgreq h7 5 62) (entryWords 0 0 0x1E00000) ∧ Runs (.pgreq h7 5 62) (vs [(62, 0x110000)] wA) ∧
    (∃ t, exec (.pgreq h7 5 62) (vs [(62, 0x120000)] wA) = .next t ∧ Mask.has (t.cur.p.get 5) 0 = true) ∧
    (∃ t, exec (.pgreq h7 5 62) twoMisses = .next t ∧ Mask.has (t.cur.p.get 5) 0 = false) := by
  have t := fun s h0 h1 h2 h3 h4 => H.1 s h7 5 60 _ _ h0 h1 h2 h3 h4 (fun _ => rfl) (fun _ => rfl)
  have q := fun s h0 h1 h2 h3 h4 => (H.2 s h7 5 62 _ h0 h1 h2).2.2.2 h3 h4 (fun _ => rfl)
  have w := fun s (h0 : s.settled) h1 h2 => H.2 s h7 5 62 (fun _ => 0) h0 h1 h2
  refine ⟨r1 (t (entryWords 0 0 0) rfl rfl (by decide) (by decide) (by decide) (fun l hl => by rw [only_zero rfl hl]; decide +kernel)),
    r1 (t (entryWords 0xF01 20 0x1E00000) rfl rfl (by decide) (by decide) (by decide) (fun l hl => by rw [only_zero rfl hl]; decide +kernel)), ?_,
    r1 ((w wA rfl rfl owner_here).1 (by decide) (by decide) |>.1 (by decide)),
    r1 ((w (migratingPage (us [(62, 0x110000)] wA)) rfl rfl owner_here).1 (by decide) (by decide) |>.2 (by decide)),
    r1 ((w wA rfl rfl owner_here).2.1 (by decide)), r1 ((w (migratingPage wA) rfl rfl owner_here).2.2.1 (by decide)),
    r1 (q (entryWords 0 0 0x1E00000) rfl rfl owner_here (by decide) (by decide)),
    r1 (q (vs [(62, 0x110000)] wA) rfl rfl owner_here (by decide) (by decide)), ?_, ?_⟩
  · obtain ⟨u, h, -, -, -, -, -, e⟩ := t granting rfl rfl (by decide) (by decide) (by decide) (fun l hl => by rw [only_zero rfl hl]; decide +kernel)
    obtain ⟨⟨e, he, h1, h2, -⟩, -⟩ := e 0 (by decide) (by decide +kernel) (by decide +kernel) ⟨_, .head _, rfl⟩ (by decide)
      ⟨miss 18 false, by decide +kernel, rfl, by decide +kernel, by decide +kernel, by decide +kernel⟩
    exact ⟨u, h, e, he, h1.trans (by decide +kernel), h2.trans (by decide +kernel)⟩
  · obtain ⟨u, h, -, -, -, -, -, -, -, -, e⟩ := q (vs [(62, 0x120000)] wA) rfl rfl owner_here (by decide) (by decide)
    exact ⟨u, h, ((e 0 (by decide) (by decide) (by decide) (by decide +kernel) (fun m hm => by cases hm)).1 (by decide +kernel)).1⟩
  · obtain ⟨u, h, -, -, -, -, -, -, -, -, e⟩ := q twoMisses rfl rfl ⟨_, .head _, rfl⟩ (by decide) (by decide)
    refine ⟨u, h, ((e 0 (by decide) (by decide) (by decide) (by decide +kernel) (fun m hm => .inr ?_)).2 (by decide +kernel)).1⟩
    rw [show twoMisses.curOwner.misses = List.replicate 1024 (miss 19 false) from rfl] at hm
    rw [List.eq_of_mem_replicate hm]; rfl

/-- Frames in the allotment and held, and no pinned entry. -/
def frames (allot held : List Nat) (a b : Nat) : State :=
  mo (fun o => { o with tlb := [pg 17], reserve := [], allotment := allot, held := held }) (us [(60, a), (62, b), (63, b)] wA)
def racked (frozen : Bool) : State :=
  { mo (fun o => { o with tlb := [{ pg 17 with st := .migrating }] }) (frames [] [25] 0 0) with rackings := [⟨1, 0, 1, 2, 17, 17, 25, [], 1, frozen⟩] }
/-- A racking with nine lines marked. -/
def marked9 : State := { racked false with rackings := [⟨1, 0, 1, 2, 17, 17, 25, List.range 9, 1, false⟩] }
def fullMeas : State := mg (fun g => { g with meas := List.replicate 64 (0, 0) }) (frames [] [] 0x110000 1)
def bigPage : State := mo (fun o => { o with tlb := [{ pg 0 with big := true }] }) (frames [] [25] 0x110000 25)
theorem witness_FrameResults (H : Obligations.FrameResults) :
    (Runs (.framea h7 62) (frames [] [] 0 0) ∧ Runs (.framea h7 62) (frames [30] [] 0 0) ∧ Runs (.framef h7 5 60) (frames [] [25] 26 0) ∧
      Runs (.framef h7 5 60) (mo (fun o => { o with tlb := [] }) (frames [] [25] 25 0))) ∧
    (Runs (.discard h7 5 60 62) (frames [] [] 0x110001 1) ∧ Runs (.discard h7 5 60 62) (frames [] [] 0x110000 1) ∧
      Runs (.meas h7 5 60 62) (us [(60, 0), (61, 0x1E00000)] wA) ∧ Runs (.meas h7 5 60 62) fullMeas ∧
      Runs (.meas h7 5 60 62) (frames [] [] 0x110000 1)) ∧
    (Runs (.migr h7 5 60 62) (frames [] [] 0x110001 1) ∧ Runs (.migr h7 5 60 62) (us [(60, 0), (61, 0x1E00000)] wA) ∧
      Runs (.migr h7 5 60 62) (us [(60, 0x100000)] wA) ∧ Runs (.migr h7 5 60 62) (migratingPage (frames [] [] 0x110000 1)) ∧
      Runs (.migr h7 5 60 62) bigPage ∧ Runs (.migr h7 5 60 62) (frames [] [25] 0x110000 26) ∧ Runs (.migr h7 5 60 62) (frames [] [25] 0x110000 25)) ∧
    Runs (.rackingEnd 1 (pageVa 17)) (racked false) ∧ Runs (.rackingEnd 1 (pageVa 17)) (racked true) ∧ Runs (.rackingEnd 1 (pageVa 17)) marked9 := by
  have f := fun s (d fr : Nat) h0 h1 h2 h3 => H s h7 d 60 62 fr [] _ _ _ h0 h1 h2 h3 rfl rfl rfl
  have o : ∀ a h x y, ∃ o ∈ (frames a h x y).owners, o.id = (frames a h x y).cur.owner := fun a h x y => ⟨_, .head _, rfl⟩
  have fr := fun (a h : List Nat) (x y d al : Nat) => f (frames a h x y) d al rfl rfl rfl (o a h x y)
  have fe := f (mo (fun o => { o with tlb := [] }) (frames [] [25] 25 0)) 5 25 rfl rfl rfl ⟨_, .head _, rfl⟩
  have d := fun (a h : List Nat) (x y : Nat) => (fr a h x y 5 0).2.2.2.1 (show 5 < 64 by decide) rfl (show 62 ≤ 64 by decide) (show 62 < 64 by decide)
  have d3 := (f fullMeas 5 0 rfl rfl rfl ⟨_, .head _, rfl⟩).2.2.2.1 (by decide) (by decide) (by decide) (by decide)
  have top := (f (us [(60, 0), (61, 0x1E00000)] wA) 5 0 rfl rfl rfl ⟨_, .head _, rfl⟩).2.2.2.1 (by decide) (by decide) (by decide) (by decide)
  have pin := (f (us [(60, 0x100000)] wA) 5 0 rfl rfl rfl ⟨_, .head _, rfl⟩).2.2.2.1 (by decide) (by decide) (by decide) (by decide)
  have mig := (f (migratingPage (frames [] [] 0x110000 1)) 5 0 rfl rfl rfl ⟨_, .head _, rfl⟩).2.2.2.1 (by decide) (by decide) (by decide) (by decide)
  have big := (f bigPage 5 0 rfl rfl rfl ⟨_, .head _, rfl⟩).2.2.2.1 (by decide) (by decide) (by decide) (by decide)
  have p26 := (((((d [] [25] 0x110000 26).2.2.2.2 (by decide +kernel)).2.2 (by decide) (by decide)).2 (by decide)).2 (by decide)).2 (pg 17) (by decide)
  have p25 := (((((d [] [25] 0x110000 25).2.2.2.2 (by decide +kernel)).2.2 (by decide) (by decide)).2 (by decide)).2 (by decide)).2 (pg 17) (by decide)
  have k := fun b => (f (racked b) 5 0 rfl rfl rfl ⟨_, .head _, rfl⟩).2.2.2.2 ⟨1, 0, 1, 2, 17, 17, 25, [], 1, b⟩ rfl rfl (show 17 < 2 ^ 48 by decide) rfl (by cases b <;> decide +kernel)
  have k9 := (f marked9 5 0 rfl rfl rfl ⟨_, .head _, rfl⟩).2.2.2.2 ⟨1, 0, 1, 2, 17, 17, 25, List.range 9, 1, false⟩ rfl rfl (show 17 < 2 ^ 48 by decide) rfl (by decide +kernel)
  exact ⟨⟨r1 ((fr [] [] 0 0 62 0).1 (by decide) (by decide) rfl), r1 ((fr [30] [] 0 0 62 30).2.1 (by decide) (by decide) rfl),
      r1 (((fr [] [25] 26 0 5 26).2.2.1 (by decide) (by decide) rfl 10 (by decide)).1 (by decide)),
      r1 ((fe.2.2.1 (by decide) (by decide) rfl 0 (by decide +kernel)).2 rfl (by decide +kernel))⟩,
    ⟨r1 (((d [] [] 0x110001 1).1 12 (by decide)).1 (by decide)), r1 (((d [] [] 0x110000 1).1 0 (by decide)).2 rfl (by decide)),
      r1 (top.2.1 (by decide)), r1 (d3.2.2.1 (by decide) (by decide) (by decide)),
      r1 ((d [] [] 0x110000 1).2.2.2.1 (by decide) rfl (by decide) (by decide) (by decide))⟩,
    ⟨r1 (((d [] [] 0x110001 1).2.2.2.2 (by decide +kernel)).1 (by decide)), r1 ((top.2.2.2.2 (by decide +kernel)).2.1 (by decide) (by decide)),
      r1 (((pin.2.2.2.2 (by decide +kernel)).2.2 (by decide) (by decide)).1 (by decide)),
      r1 ((((mig.2.2.2.2 (by decide +kernel)).2.2 (by decide) (by decide)).2 (by decide)).1 (by decide)),
      r1 (((((big.2.2.2.2 (by decide +kernel)).2.2 (by decide) (by decide)).2 (by decide)).2 (by decide)).1 (by decide)),
      r1 ((p26 10 (by decide)).1 (by decide)), r2 ((p25 0 (by decide +kernel)).2 rfl)⟩,
    r1 ((k false).2.1 rfl (.inl (by decide))), r1 ((k true).2.2 rfl rfl rfl), r1 (k9.1 rfl (by decide))⟩

def tileBytes : List (BitVec 8) := leBytes 8 (SB.toNat + 0x40) ++ leBytes 2 3 ++ leBytes 2 4 ++ leBytes 2 16 ++ [0, 0]
def ringBytes : List (BitVec 8) := leBytes 8 (SB.toNat + 0x40) ++ leBytes 4 64 ++ [4, 0, 0, 0]
def binding (a : Nat) (bs : List (BitVec 8)) : State := { us [(62, a)] wA with mem := Memory.write [] 0x110000 bs }
theorem witness_BindResults (H : Obligations.BindResults) :
    Runs (.tbind h7 5 62) (binding 0x110008 tileBytes) ∧ Runs (.tbind h7 5 62) (binding 0x110000 tileBytes) ∧
    Runs (.rbind h7 5 62) (binding 0x110000 ringBytes) ∧ Runs (.tbind h7 5 62) (binding 0x110000 ringBytes) ∧
    Runs (.rbind h7 5 62) (binding 0x110000 tileBytes) := by
  have b := fun a bs h5 h6 h7' h8 h9 => H (binding a bs) h7 5 62 0x110000 rfl rfl rfl (by decide) h5 h6 h7' |>.2 h8 h9
  refine ⟨r1 ((H (binding 0x110008 tileBytes) h7 5 62 0x110000 rfl rfl rfl (by decide) (by decide) (by decide +kernel) (by decide +kernel)).1
      (by decide) ⟨rfl, by decide⟩ _ (.head _)),
    r2 ((b 0x110000 tileBytes (by decide) (by decide +kernel) (by decide +kernel) (by decide) (by decide +kernel) (by decide +kernel)).1
      (by decide +kernel) (by decide +kernel)),
    r2 ((b 0x110000 ringBytes (by decide) (by decide +kernel) (by decide +kernel) (by decide) (by decide +kernel) (by decide +kernel)).2.1
      (by decide +kernel) (by decide +kernel)),
    r1 (((b 0x110000 ringBytes (by decide) (by decide +kernel) (by decide +kernel) (by decide) (by decide +kernel) (by decide +kernel)).2.2
      ⟨rfl, by decide⟩).1 (.inl (by decide +kernel))),
    r1 (((b 0x110000 tileBytes (by decide) (by decide +kernel) (by decide +kernel) (by decide) (by decide +kernel) (by decide +kernel)).2.2
      ⟨rfl, by decide⟩).2 (.inl (by decide +kernel)))⟩

/-- A tile of one element, and the 64 × 64 tile, in the team's first bank. -/
def tl1 : Tile := ⟨1, SB, 1, 1, 4, 0⟩
def tl64 : Tile := ⟨1, SB, 64, 64, 256, 0⟩
def tiled (t : Tile) : State := mtm (fun tm => { tm with tiles := [t] }) (us [(60, 0), (61, 0), (62, 0x110000)] wA)


theorem ready1 (s : State) (n : Nat) (t : Tile) (hr : t.rows = 1) (hc : t.cols = 1) (ht : s.curTeam.tile n = some t) (hu : s.upsets = [])
    (hb : s.curTeam.reaches t = true)
    (hk : GB ≤ localKey s.curTeam (t.at 0 0) ∧ s.curTeam.holdsRow t 0 = true ∧ s.curTeam.holdsElem t 0 0 = true) : s.tileReady n t := by
  refine ⟨ht, hu, hb, fun r h1 => ?_, fun r c h1 h2 => ?_, fun r c h1 h2 => ?_, fun r c r' c' h1 h2 h3 h4 n => ?_⟩
  · obtain rfl : r = 0 := by omega
    exact hk.2.1
  · obtain rfl : r = 0 := by omega
    obtain rfl : c = 0 := by omega
    exact hk.2.2
  · obtain rfl : r = 0 := by omega
    obtain rfl : c = 0 := by omega
    exact hk.1
  · exact absurd (by rw [show r = r' by omega, show c = c' by omega]) n
theorem clean1 (s : State) (t : Tile) (hr : t.rows = 1) (hc : t.cols = 1) (h : s.elemPoisoned s.curTeam t 0 0 = false) : s.tileClean t := by
  intro r c h1 h2
  obtain rfl : r = 0 := by omega
  obtain rfl : c = 0 := by omega
  exact h

theorem keys64 : ∀ r, r < 64 → ∀ c, c < 64 → localKey (tiled tl64).curTeam (tl64.at r c) = GB + 256 * r + 4 * c := by decide +kernel
theorem rows64 : ∀ r, r < 64 → (tiled tl64).curTeam.holdsRow tl64 r = true := by decide +kernel
theorem elems64 : ∀ r, r < 64 → ∀ c, c < 64 → (tiled tl64).curTeam.holdsElem tl64 r c = true := by decide +kernel
theorem holds_banks (t u : Team) (va : DWord) (n : Nat) (h : t.banks = u.banks) (h' : t.partnerBanks = u.partnerBanks) : t.holds va n = u.holds va n := by
  simp only [Team.holds, whereIs, h, h']
theorem localKey_banks (t u : Team) (va : DWord) (h : t.banks = u.banks) (h' : t.partnerBanks = u.partnerBanks) : localKey t va = localKey u va := by
  simp only [localKey, whereIs, h, h']
theorem ready64 (s : State) (n : Nat) (hb : s.curTeam.banks = [0, 1]) (hp : s.curTeam.partnerBanks = []) (ht : s.curTeam.tile n = some tl64)
    (hu : s.upsets = []) (hr : s.curTeam.reaches tl64 = true) : s.tileReady n tl64 := by
  have k : ∀ va, localKey s.curTeam va = localKey (tiled tl64).curTeam va := fun va => localKey_banks _ _ va hb hp
  have q : ∀ va n, s.curTeam.holds va n = (tiled tl64).curTeam.holds va n := fun va n => holds_banks _ _ va n hb hp
  refine ⟨ht, hu, hr, fun r h1 => ?_, fun r c h1 h2 => ?_, fun r c h1 h2 => ?_, fun r c r' c' h1 h2 h3 h4 n => ?_⟩
  · simp only [Team.holdsRow, q]; exact rows64 r h1
  · simp only [Team.holdsElem, q]; exact elems64 r h1 c h2
  · rw [k, keys64 r h1 c h2]; show GB ≤ _; omega
  · rw [k, k, keys64 r h1 c h2, keys64 r' h3 c' h4]
    have : ¬ (r = r' ∧ c = c') := fun h => n (by rw [h.1, h.2])
    change r < 64 at h1; change c < 64 at h2; change r' < 64 at h3; change c' < 64 at h4
    show _ + 4 ≤ _ ∨ _ + 4 ≤ _
    omega

def noMatrix : State := mg (fun g => { g with record := { g.record with matrix := false } }) wA
theorem witness_TileFillResults (H : Obligations.TileFillResults) :
    Runs (.tzero h7 1) (tiled tl1) ∧ Runs (.tcolop h7 1 60 61 .addI32) (tiled tl1) ∧ Runs (.tacc h7 1 15) (tiled tl64) ∧
    Runs (.tacc h7 1 15) (mg (fun g => { g with record := { g.record with matrix := false } }) (tiled tl1)) := by
  have rd := ready1 (tiled tl1) 1 tl1 rfl rfl rfl rfl (by decide +kernel) (by decide +kernel)
  have a := H (tiled tl1) h7 1 60 61 tl1 rfl rfl rfl rd
  have b := H (tiled tl64) h7 1 15 61 tl64 rfl rfl rfl (ready64 _ 1 rfl rfl rfl rfl (by decide +kernel))
  have c := H (mg (fun g => { g with record := { g.record with matrix := false } }) (tiled tl1)) h7 1 15 61 tl1 rfl rfl rfl
    (ready1 _ 1 tl1 rfl rfl rfl rfl (by decide +kernel) (by decide +kernel))
  exact ⟨r1 (a.1 (by decide +kernel)),
    r1 (a.2.1 rfl (by decide) (by decide) (by decide) (clean1 _ tl1 rfl rfl (by decide +kernel)) _ (.head _)),
    r1 (b.2.2.1 rfl rfl rfl (by decide)), r1 (c.2.2.2 rfl ⟨rfl, by decide⟩)⟩

theorem witness_TileTransferResults (H : Obligations.TileTransferResults) :
    Runs (.tload h7 1 62) (tiled tl1) ∧ Runs (.tstore h7 1 62) (tiled tl1) ∧ Runs (.tload h7 2 62) (tiled tl1) := by
  have rd := ready1 (tiled tl1) 1 tl1 rfl rfl rfl rfl (by decide +kernel) (by decide +kernel)
  have one : ∀ {i : Nat}, i < tl1.rows * tl1.cols → i = 0 := fun h => by change _ < 1 * 1 at h; omega
  have a := (H (tiled tl1) h7 1 62 tl1 (fun _ => 0x110000) rfl rfl rfl (by decide) (by decide)).1 rd rfl rfl (by decide)
    (fun i hi r c hr hc => .inl (by
      obtain rfl : r = 0 := by change _ < 1 at hr; omega
      obtain rfl : c = 0 := by change _ < 1 at hc; omega
      decide +kernel))
  exact ⟨r1 (a.1 (fun i hi => by rw [one hi]; decide +kernel)),
    r1 (a.2 (clean1 _ tl1 rfl rfl (by decide +kernel)) (fun i hi => by rw [one hi]; decide +kernel)
      (fun i k hi hk n => absurd (by rw [one hi, one hk]) n)),
    r1 ((H (tiled tl1) h7 2 62 tl1 (fun _ => 0) rfl rfl rfl (by decide) (by decide)).2 (by decide +kernel) ⟨rfl, by decide⟩ _ (.head _))⟩

theorem witness_SliceResults (H : Obligations.SliceResults) :
    Runs (.vtrd h7 1 true 60 0 63) (tiled tl1) ∧ Runs (.vtwr h7 1 false 60 0 63) (tiled tl1) ∧ Runs (.vtaddF32 h7 1 true 60 0 63) (tiled tl1) := by
  have rd := ready1 (tiled tl1) 1 tl1 rfl rfl rfl rfl (by decide +kernel) (by decide +kernel)
  have cl := clean1 (tiled tl1) tl1 rfl rfl (by decide +kernel)
  have a := fun col hq => H (tiled tl1) h7 1 col 60 0 63 0 tl1 rfl rfl (by decide) (by decide) rd (by decide) hq (by decide) (by decide)
  exact ⟨r1 ((a true (by decide)).1 cl (.inl rfl)), r1 ((a false (by decide)).2.1 (.inl rfl)), r1 ((a true (by decide)).2.2 rfl cl _ (.head _))⟩

def ringed (pubd cons freed : Nat) : State :=
  mme (fun e => { e with team := 1, state := 1 })
    (mtm (fun tm => { tm with rings := [⟨2, SB, 64, 4, BitVec.ofNat 32 pubd, BitVec.ofNat 32 cons, BitVec.ofNat 32 freed⟩] }) wA)
theorem witness_RingResults (H : Obligations.RingResults) :
    Runs (.rpub h7 2 4) (ringed 1 1 1) ∧ Runs (.rpub h7 2 1) (ringed 3 0 4294967295) ∧ Runs (.rwaitf h7 2 4) (ringed 1 1 1) ∧
    Runs (.rwaitf h7 2 1) (ringed 3 0 4294967295) ∧ Runs (.mxwait 0 2 4) (ringed 3 4294967295 4294967295) ∧ Runs (.mxwait 0 2 1) (ringed 3 3 0) ∧
    Runs (.mxrel 0 2 1) (ringed 3 0 4294967295) ∧ Runs (.mxrel 0 2 1) (ringed 3 0 0) ∧ Runs (.rwaitf h7 2 5) (ringed 0 0 0) ∧
    Runs (.mxwait 0 2 5) (ringed 0 0 0) := by
  have r := fun p c f n h0 h1 h2 => H (ringed p c f) h7 2 n 0 ⟨2, SB, 64, 4, BitVec.ofNat 32 p, BitVec.ofNat 32 c, BitVec.ofNat 32 f⟩ h0 h1 h2
  have e1 := r 1 1 1 4 rfl rfl rfl
  have e2 := r 3 0 4294967295 1 rfl rfl rfl
  have e3 := (r 3 4294967295 4294967295 4 rfl rfl rfl).2.2.2.2.2.2 rfl rfl (.head _) (by decide)
  have e4 := (r 3 3 0 1 rfl rfl rfl).2.2.2.2.2.2 rfl rfl (.head _) (by decide)
  have e5 := (r 3 0 0 1 rfl rfl rfl).2.2.2.2.2.2 rfl rfl (.head _) (by decide)
  have e6 := (r 0 0 0 5 rfl rfl rfl).2.2.2.2
  exact ⟨r1 (e1.1 (by decide)), r1 (e2.2.1 (by decide) ⟨rfl, by decide⟩), r1 (e1.2.2.1 (by decide) (by decide)),
    r1 (e2.2.2.2.1 (by decide) (by decide)), r1 (e3.1 (by decide)), r1 (e4.2.1 (by decide)),
    r1 ((e2.2.2.2.2.2.2 rfl rfl (.head _) (by decide)).2.2.1 (by decide)), r1 (e5.2.2.2 (by decide)), r1 (e6.1 (by decide) ⟨rfl, by decide⟩),
    r1 (e6.2.1 rfl rfl (.head _) (by decide))⟩

/-! Bins, engines and the matrix unit. -/

/-- Bin 2 on tile 1, its live mask column 0; with the one row FREE, or asleep. -/
def bin (rows cask : List Row) : Bin := ⟨2, 1, 0x100800, 1, 0x110000, 0, rows, cask, 7, false, false⟩
def rowA : Row := ⟨0, .asleep, false, none, 0⟩
def rowL : Row := ⟨0, .launched, false, none, 0⟩
def binned (b : Bin) : State := mtm (fun tm => { tm with bins := [b] }) (us [(56, 0x100800), (58, 1), (60, 0x110000), (62, 65536)] (tiled tl1))
theorem binned_ready (b : Bin) : (binned b).tileReady 1 tl1 := ready1 _ 1 tl1 rfl rfl rfl rfl (show (binned (bin [] [])).curTeam.reaches tl1 = true by decide +kernel) (show GB ≤ localKey (binned (bin [] [])).curTeam (tl1.at 0 0) ∧ (binned (bin [] [])).curTeam.holdsRow tl1 0 = true ∧
    (binned (bin [] [])).curTeam.holdsElem tl1 0 0 = true by decide +kernel)
theorem one_bit (c : Nat) (h : (1 : DWord).getLsbD c = true) : c = 0 := only_zero rfl h

theorem witness_BinControlResults (H : Obligations.BinControlResults) :
    Runs (.bincfg h7 2 1 56) (binned (bin [] [])) ∧ Runs (.binwake h7 2 58) (binned (bin [rowA] [])) ∧ Runs (.binflush h7 2) (binned (bin [rowA] [])) ∧
    Runs (.binq h7 62 2 .occupancy) (binned (bin [rowA] [])) ∧ Runs (.binq h7 62 2 .wake) (binned (bin [rowA] [])) ∧
    Runs (.binq h7 62 3 .wake) (binned (bin [] [])) := by
  have a := H (binned (bin [] [])) h7 2 1 56 tl1 (bin [] []) rfl rfl
  have b := H (binned (bin [rowA] [])) h7 2 58 0 tl1 (bin [rowA] []) rfl rfl
  have c := H (binned (bin [rowA] [])) h7 62 2 0 tl1 (bin [rowA] []) rfl rfl
  have d := H (binned (bin [] [])) h7 62 3 0 tl1 (bin [] []) rfl rfl
  have b' := b.2.1 rfl (by decide) (by decide)
  have c' := c.2.2.1 rfl (by decide) (by decide)
  exact ⟨r1 (a.1 (by decide) (by decide) rfl rfl (by decide) (fun c _ hc => by rw [one_bit c hc]; decide) (by decide) (by decide) (by decide)
      (fun y hy => by cases hy; exact ⟨rfl, rfl⟩)),
    r2 b'.1, r2 b'.2, r2 c'.1, r2 c'.2, r1 (d.2.2.2 rfl (by decide) (by decide) .wake)⟩

theorem witness_SuspendAndSpawn (H : Obligations.SuspendAndSpawn) :
    Runs (.vsusp h7 5 2 .explicit) (binned (bin [] [])) ∧ Runs (.vspawn h7 5 2 63) (binned (bin [] [])) ∧
    Runs (.vsusp h7 5 2 .explicit) (binned (bin [rowA] [])) := by
  have a := H (binned (bin [] [])) h7 5 2 63 0 0 tl1 (bin [] []) rfl rfl (by decide) rfl rfl rfl (binned_ready _) rfl (by decide) (by decide)
    (fun c _ hc => by rw [one_bit c hc]; decide)
  have b := H (binned (bin [rowA] [])) h7 5 2 63 0 0 tl1 (bin [rowA] []) rfl rfl (by decide) rfl rfl rfl (binned_ready _) rfl (by decide) (by decide)
    (fun c _ hc => by rw [one_bit c hc]; decide)
  have a' := a.1 (by decide) rfl (fun q h => absurd h (by omega))
  exact ⟨r2 (a'.1 (by decide) (by decide) .explicit), r2 (a'.2 (by decide) (by decide)),
    r1 (b.2 (fun q hq => by obtain rfl : q = 0 := by (change q < 1 at hq); omega
                            decide) rfl rfl)⟩

def launched : State := md (fun g => { g with kind := .bin, bin := 2, rows := [(0, 0)], live := 1 }) (binned (bin [rowL] []))
theorem witness_FrameLoadResults (H : Obligations.FrameLoadResults) : Runs (.frameld h7) launched ∧ Runs (.frameld h7) wA :=
  ⟨r2 ((H launched h7 tl1 (bin [rowL] []) rfl).1 rfl rfl rfl rfl rfl (ready1 _ 1 tl1 rfl rfl rfl rfl (by decide +kernel) (by decide +kernel))
      (clean1 _ tl1 rfl rfl (by decide +kernel)) rfl rfl (by decide) (by decide) (by decide)
      (fun c _ hc => by rw [one_bit c hc]; decide)),
   r1 ((H wA h7 tl1 (bin [] []) rfl).2 (by decide) ⟨rfl, by decide⟩)⟩

def ch0 : Chain := ⟨0, 0, 1, 1, 1, 5, 0x110000, 0x110000, 0, true, 0, 0, 0, false, none, 0, 0, false, 0, 0, none, false, 0, 1, none, false, [], 0x110000, [], 0, none, 0, false, none⟩
/-- Chain 0 with ticket 5 of core 0, whose last ticket is 5. -/
def chained (ch : Chain) : State := { mo (fun o => { o with tickets := [(0, 5)] }) wA with chains := [ch] }
def noSlots : State := mo (fun o => { o with quotas := { o.quotas with ceSlots := 0 } }) wA
def running : State := mme (fun e => { e with state := 1 }) wA
def steepAt (va hi cmd : Nat) : State := us [(58, va), (59, hi), (60, cmd)] wA
theorem witness_CopySubmission (H : Obligations.EngineSubmission) :
    Runs (.cpy h7 61 58) wA ∧ Runs (.cpy h7 61 58) noSlots ∧ Runs (.cpyw h7 61 58) wA ∧ Runs (.cpyw h7 61 58) (us [(58, 5)] (chained { ch0 with cid := 7, owner := 9 })) ∧
    Runs (.cpyw h7 61 58) (us [(58, 5)] (chained { ch0 with status := some 9 })) ∧ Runs (.cpyw h7 61 58) (us [(58, 5)] (chained { ch0 with read := false })) ∧
    Runs (.cpyw h7 61 58) (us [(58, 5)] { chained { ch0 with promise := 3 } with cyc := 4 }) := by
  have e := fun s h0 h1 h2 h3 => H.1 s h7 61 58 _ h0 h1 h2 h3 rfl
  have a := e wA rfl rfl rfl owner_here
  have n := (e noSlots rfl rfl rfl ⟨_, .head _, rfl⟩).1 (by decide) (by decide) (by decide) (by decide)
  have w := fun ch => (e (us [(58, 5)] (chained ch)) rfl rfl rfl ⟨_, .head _, rfl⟩).2 (show 61 < 64 by decide) (show 58 < 64 by decide)
  have l := ((e (us [(58, 5)] { chained { ch0 with promise := 3 } with cyc := 4 }) rfl rfl rfl ⟨_, .head _, rfl⟩).2 (by decide) (by decide)).2 0 (by decide +kernel)
  exact ⟨r2 ((a.1 (by decide) (by decide) (by decide) (by decide)).1 (by decide +kernel)), r1 (n.2 (by decide +kernel)),
    r1 ((a.2 (by decide) (by decide)).1 (by decide +kernel)), r1 (((w { ch0 with cid := 7, owner := 9 }).2 0 (by decide +kernel)).1 (.inr (by decide +kernel))),
    r1 ((((w { ch0 with status := some 9 }).2 0 (by decide +kernel)).2 (by decide) { ch0 with status := some 9 } (by decide +kernel)).1 9 rfl),
    r1 ((((w { ch0 with read := false }).2 0 (by decide +kernel)).2 (by decide) { ch0 with read := false } (by decide +kernel)).2.1 rfl (.inl (by decide +kernel))),
    r1 ((l.2 (by decide) { ch0 with promise := 3 } (by decide +kernel)).2.2 rfl (by decide +kernel) rfl ⟨rfl, by decide⟩)⟩

theorem witness_MatrixFork (H : Obligations.EngineSubmission) :
    Runs (.fork h7 58 60 .me) wA ∧ Runs (.fork h7 58 60 .both) wA ∧ Runs (.fork h7 58 60 .me) running ∧ Runs (.fork h7 58 60 .both) (us [(58, 0x110004)] wA) ∧
    Runs (.fork h7 58 60 .ce) wA ∧ Runs (.fork h7 58 60 .ce) noSlots ∧ Runs (.rdv h7 0) (mme (fun e => { e with state := 3 }) wA) ∧ Runs (.rdv h7 1) running ∧
    Runs (.rdv h7 1) noMatrix := by
  have f := fun s id h0 h1 h2 h3 h4 h5 => H.2.1 s h7 58 60 id h0 h1 h2 h3 rfl h4 rfl h5
  have a := fun s h0 h1 h2 h3 h4 h5 h6 => (f s 1 h0 h1 h2 h3 h4 h5).1 h6
  have w := a wA rfl rfl rfl owner_here (by decide) (by decide) rfl
  have r := a running rfl rfl rfl ⟨_, .head _, rfl⟩ (by decide) (by decide) rfl
  have m := (w.1 (by decide)).1 rfl (.inl rfl)
  exact ⟨r1 m.1, r2 (m.2 (by decide +kernel)), r1 ((r.1 (by decide)).2 (.inr (.inl rfl))).1,
    r1 ((a (us [(58, 0x110004)] wA) rfl rfl rfl owner_here (by decide) (by decide) rfl).2.1 (by decide) ⟨rfl, by decide⟩ _ (.tail _ (.head _))),
    r2 (w.2.2.1 (by decide +kernel)), r1 ((a noSlots rfl rfl rfl ⟨_, .head _, rfl⟩ (by decide) (by decide) rfl).2.2.2.1 (by decide +kernel)),
    r1 (((f (mme (fun e => { e with state := 3 }) wA) 0 rfl rfl rfl ⟨_, .head _, rfl⟩ (by decide) (by decide)).1 rfl).2.2.2.2.1 (.inl (by decide))
      (fun c ch hc => by cases hc)),
    r1 (r.2.2.2.2.2 (.inl (by decide))),
    r1 ((f noMatrix 1 rfl rfl rfl ⟨_, .head _, rfl⟩ (by decide) (by decide)).2 rfl ⟨rfl, by decide⟩ _ (.tail _ (.tail _ (.tail _ (.head _)))))⟩

theorem witness_SteepSubmission (H : Obligations.EngineSubmission) :
    Runs (.steep h7 62 58 60) noSlots ∧ Runs (.steep h7 62 58 60) wA ∧ Runs (.steep h7 62 58 60) (steepAt 0x110000 0 0x10001000) ∧
    Runs (.steep h7 62 58 60) (steepAt 2 0x1E00000 0x10001000) ∧ Runs (.steep h7 62 58 60) (steepAt 0 0x1E00000 0x10001000) := by
  have e := fun s h0 h1 h2 h3 h4 h5 => H.2.2 s h7 62 58 60 h0 h1 h2 rfl h3 h4 h5
  have a := fun va hi => (e (steepAt va hi 0x10001000) rfl rfl rfl (show 60 ≤ 64 by decide) (show 62 ≤ 64 by decide) (show 64 ≤ 64 by decide)).2
  exact ⟨r1 ((e noSlots rfl rfl rfl (by decide) (by decide) (by decide)).1 (by decide +kernel)),
    r1 (((e wA rfl rfl rfl (by decide) (by decide) (by decide)).2 (by decide +kernel)).1 (by decide +kernel)),
    r1 ((a 0x110000 0 (by decide +kernel)).2.1 (by decide +kernel) (by decide)),
    r1 ((a 2 0x1E00000 (by decide +kernel)).2.2.1 (by decide +kernel) (by decide +kernel) (by decide)),
    r2 ((a 0 0x1E00000 (by decide +kernel)).2.2.2 (by decide +kernel) (by decide +kernel) (by decide))⟩

def mx (loops : List Loop) : State :=
  mg (fun g => { g with record := { g.record with formats := [0x1000, 0x1000, 0, 0x7000] } })
    (mme (fun e => { e with team := 1, grid := 1, gid := 1, state := 1, pc := 0x110000, loops := loops, idx := List.replicate 16 0 }) wA)
theorem mx_alone (l : List Loop) : (mx l).meAlone 0 := ⟨.head _, rfl, rfl⟩
theorem witness_MatrixCommandResults (H : Obligations.MatrixCommandResults) :
    Runs (.mxcfg 0 0 1 false 65535) (mx []) ∧ Runs (.mxcfg 0 2 1 false 1) (mx []) ∧ Runs (.mxzero 0 15) (mx []) ∧ Runs (.mxsig 0 7) (mx []) ∧
    Runs (.mxfence 0) (mx []) ∧ Runs (.mxend 0) (mx []) ∧ Runs (.mxIllegalCommand 0 5) (mx []) ∧ Runs (.mxloop 0 1 1) (mx []) ∧
    Runs (.mxloop 0 2 1) (mx []) ∧ Runs (.mxloop 0 2 1) (mx [⟨0x110000, 1⟩]) ∧ Runs (.mxdrain 0 15 0 false 15) (mx []) := by
  have m := fun a b k => H (mx []) 0 15 15 a b k 5 (mx_alone _) (by decide)
  exact ⟨r1 ((m 0 1 65535).1 (by decide +kernel) (by decide +kernel)), r1 ((m 2 1 1).2.1 (by decide +kernel)), r1 ((m 0 1 1).2.2.1 rfl),
    r1 ((m 0 1 7).2.2.2.1 (by decide)), r1 (m 0 1 7).2.2.2.2.1, r1 (m 0 1 7).2.2.2.2.2.1, r1 (m 0 1 7).2.2.2.2.2.2.1,
    r1 ((m 0 1 1).2.2.2.2.2.2.2.1 rfl (by decide) rfl), r1 ((m 0 1 2).2.2.2.2.2.2.2.2.1 rfl (by decide)),
    r1 ((H (mx [⟨0x110000, 1⟩]) 0 15 15 0 1 2 5 (mx_alone _) (by decide)).2.2.2.2.2.2.2.2.2.1 0 rfl), r1 ((m 0 1 1).2.2.2.2.2.2.2.2.2.2 rfl)⟩

def mxRing (n : Nat) (off : DWord) (pubd : Nat) : Ring := ⟨n, SB + off, 4096, 1, BitVec.ofNat 32 pubd, 0, 0⟩
def product (pa : Nat) (mma : Option (Word × Word × Nat)) : State :=
  mtm (fun tm => { tm with rings := [mxRing 2 0 pa, mxRing 3 0x4000 1], tiles := [tl64] })
    (mme (fun e => { e with configured := true, aSlot := 0, bSlot := 1, k := 1, mma := mma }) (mx []))
theorem slot_holds (tm : Team) (h : tm.banks = [0, 1]) (hp : tm.partnerBanks = []) : tm.holds (SB + 0) 4096 = true ∧ tm.holds (SB + 0x4000) 4096 = true := by
  have w : ∀ va, whereIs tm va = whereIs wA.curTeam va := fun va => by
    unfold whereIs; rw [h, hp, show wA.curTeam.banks = [0, 1] from rfl, show wA.curTeam.partnerBanks = [] from rfl]
  have e : ∀ va n, tm.holds va n = wA.curTeam.holds va n := fun va n => by unfold Team.holds; simp only [w]
  rw [e, e]; decide +kernel
theorem rings_hold (pa : Nat) (mma : Option (Word × Word × Nat)) :
    ((product pa mma).meTeam 0).holds ((mxRing 2 0 pa).slotAt 0 0) ((slotBytes (.flt .f16)).getD 0) = true ∧
    ((product pa mma).meTeam 0).holds ((mxRing 3 0x4000 1).slotAt 0 0) ((slotBytes (.flt .f16)).getD 0) = true :=
  have e := slot_holds ((product pa mma).meTeam 0) rfl rfl
  have h2 : (mxRing 2 0 pa).slotAt 0 0 = SB + 0 := by show SB + 0 + BitVec.ofNat 64 ((0 + BitVec.ofNat 32 0).toNat % 1 * 4096) = _; decide
  have h3 : (mxRing 3 0x4000 1).slotAt 0 0 = SB + 0x4000 := by unfold Ring.slotAt mxRing; decide
  have hn : (slotBytes (.flt .f16)).getD 0 = 4096 := by decide
  ⟨by rw [h2, hn]; exact e.1, by rw [h3, hn]; exact e.2⟩
theorem witness_MatrixProductAndDrain (H : Obligations.MatrixProductAndDrain) :
    Runs (.mxmma 0 15 2 3 1) (product 1 none) ∧ Runs (.mxmma 0 15 2 3 1) (product 0 none) ∧ Runs (.mxmma 0 15 2 3 1) (product 1 (some (0, 0, 0))) ∧
    Runs (.mxdrain 0 15 2 false 1) (product 1 none) := by
  have m := fun pa mma => H (product pa mma) 0 15 2 3 1 (mxRing 2 0 pa) (mxRing 3 0x4000 1) (.flt .f16) (.flt .f16) ⟨.head _, rfl, rfl⟩
    (by decide) (by decide) rfl rfl rfl rfl (by show _ = ((mx []).meSlot 0 0).kind; decide +kernel) (by show _ = ((mx []).meSlot 0 1).kind; decide +kernel)
  have a := fun pa => (m pa none).1 rfl (show 1 ≤ 1 by decide) (show 1 ≤ 1 by decide) (show (slotBytes (.flt .f16)).getD 0 ≤ 4096 by decide) (show (slotBytes (.flt .f16)).getD 0 ≤ 4096 by decide)
    (show 0 + 1 ≤ 1 by decide) (by decide)
  refine ⟨r1 ((a 1).1 (by decide) (by decide) (rings_hold 1 none).1 (rings_hold 1 none).2 (by decide +kernel)), r1 ((a 0).2 (.inl (by decide))),
    r1 ((m 1 (some (0, 0, 0))).2.1 0 0 0 rfl (rings_hold 1 (some (0, 0, 0))).1 (rings_hold 1 (some (0, 0, 0))).2 (by decide +kernel)),
    r1 ((m 1 none).2.2 2 1 tl64 rfl rfl rfl rfl (by decide +kernel) rfl (ready64 _ 1 rfl rfl rfl rfl (by decide +kernel)))⟩
/-! Cards and steep commands. -/

/-- A card of one 4-byte element from 0x110000 to 0x110020, and the chain that has reached it. -/
def card0 : Card :=
  { addr := 0x110000, raw := [], opcode := 1, csumKind := 0, chainIn := false, chainOut := false, compare := false, esizeLog := 2, signal := 0
    keySlot := 3, source := 0x110000, dest := 0x110020, next := 0, tagAddr := 0x110080, iv := 9, csum := 0, footprints := [], collective := 0x110200
    membership := 7, collOp := 0, extents := [1], srcStrides := [0], dstStrides := [0], perm := [0], bad := false }
def cards (m : SMap 8) : State := { chained ch0 with mem := m, keys := [⟨3, 0x1234, 2, 1, 5, none⟩] }
theorem cards_run (m : SMap 8) (c : Card) (hr : ch0.refuses c = false) (hf : c.footprints = []) (hc : c.compare = false) : (cards m).cardRuns ch0 c :=
  ⟨rfl, rfl, rfl, rfl, hr, by rw [hf]; rfl, rfl, hc, rfl, rfl⟩

theorem zero_of {α} {l : List α} (h : l.length = 1) {i : Nat} (hi : i < l.length) : i = 0 := by omega

theorem witness_CopyCards (H : Obligations.CopyCards) :
    Runs (.sig 0 card0) (cards []) ∧ Runs (.fill 0 card0) (cards []) ∧ Runs (.copy 0 card0) (cards []) ∧
    Runs (.fill 0 { card0 with dest := 0x110021 }) (cards []) := by
  have a := H (cards []) ch0 card0 (fun _ => 0x110000) (fun _ => 0x110020) (cards_run _ _ (by decide +kernel) rfl rfl)
  have b := H (cards []) ch0 { card0 with dest := 0x110021 } (fun _ => 0) (fun _ => 0) (cards_run _ _ (by decide +kernel) rfl rfl)
  have len : card0.walk.length = 1 := by decide +kernel
  have c := a.2.1 (by decide +kernel) (fun i hi => by rw [zero_of len hi]; decide +kernel)
    (fun i j hi hj n => absurd ((zero_of len hi).trans (zero_of len hj).symm) n)
  exact ⟨r1 a.1, r1 (c.1 (by decide +kernel)),
    r1 (c.2 (by decide +kernel) (fun i hi => by rw [zero_of len hi]; decide +kernel) (fun i j hi hj => .inl (by decide +kernel))),
    r2 (b.2.2 (by decide +kernel))⟩

def unread : Chain := { ch0 with cid := 6, read := false, promReg := some 2 }
def card1 : Card := { card0 with esizeLog := 4 }
def goodTag : List (BitVec 8) := gcmTag (keySchedule (keyBytes 0x1234)) (beBytes 12 9) (List.replicate 16 0)
/-- A descriptor of two members with a log of 0, whose rank 1 has left. -/
def collBytes : List (BitVec 8) :=
  leBytes 4 7 ++ leBytes 4 2 ++ leBytes 4 0 ++ leBytes 4 64 ++ leBytes 8 0x110100 ++ leBytes 8 0 ++ leBytes 8 0x40 ++ leBytes 8 0 ++
    leBytes 16 0 ++ leBytes 4 0 ++ leBytes 4 0 ++ leBytes 4 1 ++ leBytes 4 1
def collCard (op : Nat) : Card := { card0 with dest := 0x10, collOp := op }
/-- A chain of one SIG card at 0x110000. -/
def sigCard : Card := { decodeCard 0x110000 (5 :: List.replicate 127 0) ⟨[], [], [], [], true⟩ with bad := false }
def signalling : State := { chained { unread with readAt := 0x110000 } with mem := Memory.write [] 0x110000 [5] }
def toRun : CardStep → Option Card
  | .run _ c => some c
  | _ => none
theorem toRun_some {x : CardStep} {c : Card} (h : toRun x = some c) : ∃ u, x = .run u c := by
  cases x <;> simp_all [toRun]
theorem goodTag_length : goodTag.length = 16 := by decide +kernel
/-- The card's tag stands at 0x110080: the good one, or one that differs in every byte. -/
def tagged (tag : List (BitVec 8)) : State := cards (Memory.write [] 0x110080 tag)
theorem tagged_text (tag : List (BitVec 8)) (h : tag.length = 16) :
    gcmTag (keySchedule (keyBytes ((tagged tag).keySlot card1.keySlot).key)) (beBytes 12 card1.iv) (Memory.bytes (tagged tag).mem 0x110000 card1.esize) = goodTag ∧
    Memory.bytes (tagged tag).mem 0x110080 16 = tag := by
  refine ⟨?_, by rw [← h]; exact Memory.bytes_write _ _ _⟩
  have : ∀ j, j < 16 → SMap.get (tagged tag).mem (0x110000 + j) = 0 := fun j hj =>
    (Memory.get_write_outside [] 0x110080 tag _ (.inl (by omega))).trans rfl
  have hb : Memory.bytes (tagged tag).mem 0x110000 card1.esize = List.replicate 16 0 := by
    show Memory.bytes (tagged tag).mem 0x110000 16 = _
    simp only [Memory.bytes, Nat.reduceAdd, List.replicate]
    simp only [show ∀ j, 0x110000 ≤ j → j < 0x110010 → SMap.get (tagged tag).mem j = 0 from
      fun j h1 h2 => by have := this (j - 0x110000) (by omega); rwa [show 0x110000 + (j - 0x110000) = j by omega] at this, Nat.reduceLeDiff, Nat.reduceLT]
  rw [hb]; rfl

def collAt : State := cards (Memory.write [] 0x110200 collBytes)
/-- What `collAt` gives a card of a collective that moves one word to its one member. -/
def CollReady (c : Card) (d : CollDesc) (r tk ak : Nat) : Prop :=
  d.bad = false ∧ c.collective.toNat % 64 = 0 ∧ c.membership = d.version ∧ d.log = 0 ∧ c.misaligned false = false ∧ (c.collOp = 1 → c.bytes ≤ d.stride) ∧
    c.walk = [(0, 0)] ∧ c.bytes = c.esize ∧ collAt.cardAcc ch0 .read c.source = .ok 0x110000 ∧ collAt.poisoned 0x110000 c.esize = false ∧
    (List.range d.count).filter (fun q => d.flags.getD q 0 == 0) = [r] ∧
    (∀ i, i < c.esize → collAt.cardAcc ch0 .write (d.target c r + BitVec.ofNat 64 i) = .ok (tk + i) ∧ collAt.frameLost (tk + i) = false ∧
      collAt.keyless (tk + i) = false) ∧
    (∀ i, i < 4 → collAt.cardAcc ch0 .write (d.base + d.wstride * BitVec.ofNat 64 r + BitVec.ofNat 64 (d.arrival + 4 * (d.rank / 32)) + BitVec.ofNat 64 i) = .ok (ak + i)) ∧
    collAt.frameLost ak = false ∧ collAt.keyless ak = false
theorem coll_ready : CollReady (collCard 0) (collDesc collBytes) 0 0x110110 0x110140 ∧ CollReady (collCard 1) (collDesc collBytes) 0 0x110110 0x110140 := by
  unfold CollReady; decide +kernel
/-- `signalling` after its chain has been read. -/
def readU : State := (signalling.readChain 6 65536).1
def readC : Chain := readU.chains.getD 0 ch0
theorem read_u : signalling.readChain 6 65536 = (readU, true) := Prod.ext rfl (by decide +kernel)
theorem witness_EngineResults (H : Obligations.EngineResults) :
    Runs (.promise 6) signalling ∧ Runs (.promise 6) signalling ∧ Runs (.copyAead 0 card1) (tagged goodTag) ∧ Runs (.copyAead 0 card1) (tagged (goodTag.map (· + 1))) ∧
    Runs (.post 0 (collCard 0)) collAt ∧ Runs (.bcast 0 (collCard 1)) collAt := by
  have e := fun tag => H.2.1 (tagged tag) ch0 card1 0x110000 0x110020 0x110080 (cards_run _ _ (by decide +kernel) rfl rfl)
    (by decide +kernel) (by decide +kernel) (by decide)
  have e1 := e goodTag (by decide +kernel) (by decide +kernel) (by decide) (by decide) (by decide +kernel) (by decide +kernel) (by decide +kernel) (by decide +kernel) (by decide +kernel)
    (by decide +kernel) rfl rfl (by decide +kernel)
    (fun h => absurd h (by decide)) (by decide +kernel) (by decide +kernel)
  have e2 := e (goodTag.map (· + 1)) (by decide +kernel) (by decide +kernel) (by decide) (by decide) (by decide +kernel) (by decide +kernel) (by decide +kernel) (by decide +kernel) (by decide +kernel)
    (by decide +kernel) rfl rfl (by decide +kernel)
    (fun h => absurd h (by decide)) (by decide +kernel) (by decide +kernel)
  have t1 := tagged_text goodTag goodTag_length
  have t2 := tagged_text (goodTag.map (· + 1)) (by rw [List.length_map]; exact goodTag_length)
  have ne : goodTag ≠ goodTag.map (· + 1) := by
    intro h
    have h0 := congrArg (fun l => l.head?) h
    cases hg : goodTag with
    | nil => have := goodTag_length; rw [hg] at this; cases this
    | cons b bs =>
      rw [hg] at h0
      simp at h0
  have c : ∀ op, CollReady (collCard op) (collDesc collBytes) 0 0x110110 0x110140 →
      ∀ i ∈ ([.post 0 (collCard op), .bcast 0 (collCard op)] : List Instr), Runs i collAt := by
    rintro op ⟨h1, h2, h3, h4, h5, h6, h7, h8, h9, ha, hb, hc, hd, he, hk⟩ i hi
    exact r1 (H.2.2 collAt ch0 (collCard op) _ collBytes _ 0 _ _ (cards_run _ _ rfl rfl rfl) (show collAt.readDesc ch0 (collCard 0).collective = .got collBytes false by decide +kernel) rfl h1 h2 h3 h4 h5 h6 h7 h8 h9 ha hb hc hd he hk (.inl (show 0x110110 + (collCard 0).esize ≤ 0x110140 by decide)) i hi)
  obtain ⟨su, hsu⟩ := toRun_some (x := signalling.fetchCard ({ unread with readAt := 0x110000 } : Chain).reading) (c := sigCard) (by decide +kernel)
  exact ⟨r2 ((H.1 signalling { unread with readAt := 0x110000 } rfl rfl rfl rfl).1 readU readC read_u (by decide +kernel) (by decide +kernel) (.inl (by decide +kernel))),
    r2 ((H.1 signalling { unread with readAt := 0x110000 } rfl rfl rfl rfl).2 su sigCard rfl rfl rfl hsu
      (by decide +kernel) (by decide) rfl), r1 (e1.1 (t1.1.trans t1.2.symm)),
    r2 (e2.2 (by rw [t2.1, t2.2]; exact ne)), c 0 coll_ready.1 _ (.head _),
    c 1 coll_ready.2 _ (.tail _ (.head _))⟩

/-- A steep job of `cmd` on the words from the team's first bank. -/
def job (cmd op : Nat) : SteepJob := ⟨3, 0, 1, 1, 1, 1, BitVec.ofNat 64 GB, BitVec.ofNat 32 cmd, BitVec.ofNat 32 op, 2, 0, BitVec.ofNat 64 GB, false⟩
def steeped (j : SteepJob) : State := { slotGrid 0x1000 wA with steeps := [j] }
theorem steep_runs (j : SteepJob) (hb : whereIs Team.none j.addr = .bank 0 0) (hd : (steeped j).dsClear j.owner j.core j.jid j.prints = true)
    (ho : ((steeped j).bankOf 0).fence = j.owner) (hh : ((steeped j).ownerOf j.owner).halt = none) : (steeped j).steepRuns j GB :=
  ⟨rfl, hh, hd, rfl, by decide, ⟨0, 0, hb, ho, by decide⟩, fun a n _ h _ => by
    have l : ∀ b, (steeped j).bankLost b = false := fun _ => by
      unfold State.bankLost; rw [show (steeped j).banks = wA.banks from rfl]; simp [wA]
    unfold State.poisoned State.keyLost
    rw [show (steeped j).poison = [] from rfl, show (steeped j).upsets = [] from rfl, l, if_pos (show globalBase ≤ a from h)]; simp⟩
theorem witness_SteepResults (H : Obligations.SteepResults) :
    Runs (.stpFill 3) (steeped (job 0x8001000 5)) ∧ Runs (.stpAddF32 3) (steeped (job 0x10001000 5)) ∧ Runs (.stpXsum 3) (steeped (job 0x38001020 5)) ∧
    Runs (.stpCvt 3) (steeped (job 0x30001000 0)) ∧ Runs (.stpSumx 3) (steeped (job 0x28020010 16)) := by
  have a := fun c o h1 h2 => H (steeped (job c o)) (job c o) GB (steep_runs _ h1 h2 rfl rfl)
  exact ⟨r1 (a 0x8001000 5 (by decide +kernel) (by decide +kernel)).1, r1 ((a 0x10001000 5 (by decide +kernel) (by decide +kernel)).2.1 _ (.head _)),
    r1 (a 0x38001020 5 (by decide +kernel) (by decide +kernel)).2.2.1,
    r1 ((a 0x30001000 0 (by decide +kernel) (by decide +kernel)).2.2.2.1 .f16 (by decide +kernel)),
    r1 ((a 0x28020010 16 (by decide +kernel) (by decide +kernel)).2.2.2.2 (by decide +kernel) (by decide) (by decide) (by decide +kernel) (by decide +kernel)
      (by decide +kernel))⟩

/-! Events. -/

def idleGroup : State := md (fun g => { g with inRun := false, iss := 0 }) wA
def chW : Chain := { ch0 with promise := 3 }
def promised : State := { md (fun g => { g with waits := [⟨6, .chain 0 5⟩] }) (chained chW) with cyc := 900 }
def armedTimer : State := md (fun g => { g with armed := true, gtcmp := 5, gtmr := 5 }) wA
def miss0 (n : Nat) : Miss := { miss n false with claimed := false }
def awaited : State := md (fun g => { g with await := [⟨7, 1, [2, 3], [0]⟩] }) pendingLoad
def stalled (c cyc : DWord) : State := { md (fun g => { g with inRun := true, stall := some c }) wA with cyc := cyc }
theorem witness_RunAndWaitEvents (H : Obligations.RunAndWaitEvents) :
    (Runs (.runStart 0) idleGroup ∧ Runs (.runStart 0) (md (fun g => { g with tmp := true }) idleGroup) ∧ Runs (.memoryResult 1 0 2) pendingLoad ∧
      Runs (.memoryResult 1 0 3) awaited ∧ Runs (.waittDeadline 1) wA ∧ Runs (.gtcmpMatch 1) armedTimer) ∧ Runs (.promiseMissed 1) promised ∧
    Runs (.forcedRunBoundary 0) (stalled 3 68) ∧ Runs (.forcedRunBoundary 0) (stalled 3 67) ∧
    Runs (.meWake 0) wA ∧ Runs (.missQueued 1) (mo (fun o => { o with missWaiting := [miss0 18] }) wA) :=
  have r := fun s => (H s 0).2.2
  have w := fun s => (r s).2.2.2.2.2
  ⟨⟨r1 ((H idleGroup 0).1 (by decide +kernel) (by decide +kernel) (.inl rfl)),
    r1 ((H (md (fun g => { g with tmp := true }) idleGroup) 0).2.1 (by decide +kernel) (by decide +kernel) rfl (fun _ h => nomatch h) ⟨rfl, by decide⟩),
    r1 ((r pendingLoad).1 ⟨0, 2, false, 77, 3, false, false, 0, 0, false, 0, 0⟩ rfl rfl rfl rfl (by decide)),
    r1 ((r awaited).2.1 _ (.head _) 0 3 (by decide) (by decide)), r1 ((r wA).2.2.1 rfl rfl),
    r1 ((r armedTimer).2.2.2.1 rfl rfl (by decide) (by decide))⟩,
   r1 ((r promised).2.2.2.2.1 6 0 5 chW rfl (by decide) rfl (by decide +kernel) rfl (by decide +kernel) rfl ⟨rfl, by decide⟩),
   r1 ((w (stalled 3 68)).1 rfl rfl 3 rfl), r1 ((w (stalled 3 67)).1 rfl rfl 3 rfl), r1 ((w wA).2.1 (.head _) rfl (by decide)),
   r1 ((w (mo (fun o => { o with missWaiting := [miss0 18] }) wA)).2.2 _ (miss0 18) [] rfl rfl rfl (by decide) (by decide) (by decide))⟩

def rowW : Row := ⟨0, .woken, false, none, 0⟩
def bin2 (rows cask : List Row) (timer : Nat) (due : Bool) : Bin := { bin rows cask with timer := timer, due := due, caskRows := 1 }
def rowD : Row := ⟨0, .loading, false, some (0, 99, false), 4⟩
theorem witness_BinEvents (H : Obligations.BinEvents) :
    Runs (.vldfDelivery 1 2 0 false) (binned (bin2 [rowD] [] 0 false)) ∧ Runs (.vldfDelivery 1 2 0 true) (binned (bin2 [] [rowD] 0 false)) ∧
    Runs (.flushTimer 1 2) (binned (bin2 [rowW] [] 2048 false)) ∧ Runs (.binLaunch 1 2) (binned (bin2 [rowW] [] 0 true)) ∧
    Runs (.caskRefill 1 2) (binned (bin2 [] [rowA] 0 false)) := by
  have rd : ∀ b, (binned b).tileReady 1 tl1 := binned_ready
  have e := fun b r hb hn => H (binned b) 2 r 0 4 99 b tl1 hb rfl hn (rd b) rfl rfl
  exact ⟨r2 ((e _ 0 rfl rfl).1 rfl (by decide) (by decide)),
    r2 ((e (bin2 [] [rowD] 0 false) 0 rfl rfl).2.1 0x110000 rfl (by decide) (by decide +kernel) (by decide +kernel) (by decide +kernel)),
    r2 ((e (bin2 [rowW] [] 2048 false) 0 rfl rfl).2.2.1 (by decide) ⟨rowW, by decide, rfl⟩),
    r3 ((e (bin2 [rowW] [] 0 true) 0 rfl rfl).2.2.2.1 1 0 rfl rfl rfl (by decide +kernel) (by decide +kernel) (by decide +kernel) (by decide) (by decide)),
    r2 ((e (bin2 [] [rowA] 0 false) 0 rfl rfl).2.2.2.2 rowA 0x110000 rfl (by decide) (by decide +kernel) (fun i h => absurd h (by omega)) (by decide) rfl
      (by decide +kernel) (by decide +kernel))⟩

def walkers : State := mo (fun o => { o with misses := [miss0 18, miss0 19] }) wA
def batch0 : Batch := { sp := 0, gid := 1, grid := 1, pages := [(18, 3, 0x120004)], write := false, fetch := false, addrs := [] }
theorem witness_HandlerGroupLaunches (H : Obligations.HandlerGroupLaunches) :
    Runs (.walkHandlerLaunch 1) walkers ∧ Runs (.pageHandlerLaunch 0) (mo (fun o => { o with batches := [batch0] }) wA) ∧
    Runs (.requestHandlerLaunch 1) (mo (fun o => { o with misses := [{ miss0 18 with request := true }] }) wA) :=
  ⟨r2 ((H walkers _ 0 rfl rfl).1 (miss0 18) [miss0 19] _ (by decide +kernel) rfl (by decide +kernel)),
   r2 ((H (mo (fun o => { o with batches := [batch0] }) wA) _ 0 rfl rfl).2.1 batch0 18 3 0x120004 [] wA.cur rfl rfl (by decide +kernel) rfl (by decide)
     (by decide) (by decide +kernel) (by decide +kernel)),
   r2 ((H (mo (fun o => { o with misses := [{ miss0 18 with request := true }] }) wA) _ 0 rfl rfl).2.2 { miss0 18 with request := true } rfl rfl rfl rfl
     (by decide +kernel) (by decide +kernel))⟩

def halt0 : Halt :=
  { kind := 2, detail := 0, cyc := 0, addr := 0, pc := 5, core := 0, spByte := 0, cause := 0, reasonWord := 7, written := false, ctr := 0 }
def halted (w : Bool) : State := { mo (fun o => { o with halt := some { halt0 with written := w } }) wA with cyc := 5 }
def rec64 : RingRec := { seq := 0, bytes := leBytes 64 0x12345678, gid := some 1 }
def ringAt (ws : List RingRec) (m : SMap 8) : State := { mo (fun o => { o with ringVa := 0x110000, ringWaiting := ws }) wA with mem := m }
def replied : State := md (fun g => { g with trap := some (0, 1) }) (ringAt [] (Memory.write [] 0x110000 (leBytes 64 (0x8001 + 0x1111 * 2 ^ 256))))
def replyWords : List Word := match (replied.modOwner 1 (fun x => { x with replies := x.replies ++ [0] })).ringSlot 1 0 with
  | .reply ws => ws
  | _ => []
theorem witness_RingEvents (H : Obligations.RingEvents) :
    Runs (.haltRecord 1) (halted false) ∧ Runs (.haltRecord 1) (halted true) ∧ Runs (.trapRecord 1) (ringAt [rec64] []) ∧
    Runs (.syscallSlotPoll 1) (ringAt [rec64] []) ∧ Runs (.reply 1 0) replied ∧ Runs (.lq 1 77) wA := by
  have rc := (H (ringAt [rec64] []) _ rfl).2.2.1 rec64 [] 0x110000 rfl rfl (by decide) rfl (by decide +kernel) (by decide +kernel)
  exact ⟨r1 ((H (halted false) _ rfl).1 _ rfl (by decide +kernel) rfl (by decide)), r1 ((H (halted true) _ rfl).2.1 _ rfl (.inl rfl)), r1 (rc _ (.head _)),
    r1 (rc _ (.tail _ (.head _))),
    r1 ((H replied _ rfl).2.2.2.1 0 1 replyWords rfl rfl rfl rfl rfl (by decide +kernel)), r1 ((H wA _ rfl).2.2.2.2 77 (by decide) rfl)⟩

/-- A launch record of `teams` teams of two groups of 16 lanes on two SPs with one bank, in gangs of `gang`. -/
def rec0 (teams gang : Nat) : List (BitVec 8) :=
  leBytes 4 1 ++ leBytes 4 0 ++ leBytes 8 0x100000 ++ leBytes 4 (teams - 1) ++ [4, 2, 8, 4] ++ leBytes 2 1 ++ [1, 2] ++ leBytes 4 gang ++
    List.replicate 96 0
def launching (va : Nat) (l : List DWord) : State :=
  { us [(62, va)] (mo (fun o => { o with launches := l }) wA) with mem := Memory.write [] 0x110000 (rec0 1 0) }
def got (a : Accepted) : State := match a with
  | .ok u => u
  | _ => State.reset
/-- Grid 7 of such a record, with SPs 1 to 3 free. -/
def queued (teams gang : Nat) (cyc : DWord) : State :=
  let s := mo (fun o => { o with saveLen := 100000000 }) wA
  { s with
    sps := s.sps ++ [{ Sp.down with num := 1, up := true }, { Sp.down with num := 2, up := true }, { Sp.down with num := 3, up := true }]
    cyc := cyc
    grids := s.grids ++ [{ Grid.none with gid := 7, owner := 1, record := parseRecord (rec0 teams gang), number := 2 }] }
def site : Site := ((queued 1 0 0).findPlace ((queued 1 0 0).gridOf 7) ((queued 1 0 0).gridOf 7).record.lanesAt (fun sp => !((queued 1 0 0).agedBlocks ((queued 1 0 0).gridOf 7) sp))).getD ⟨0, [], [], []⟩
def offset : Nat := ((queued 1 0 0).saveSlot ((queued 1 0 0).ownerOf 1) 0 ((queued 1 0 0).gridOf 7).record.imageSize).getD 0
def gang : State := queued 1 1 65536
def ended : State := md (fun g => { g with live := 0, inRun := false, iss := 0 }) wA
def finished (w : Word) : State := mo (fun o => { o with stallVa := 0x110000 }) (mg (fun g => { g with complWord := w }) { ended with teams := [] })
def isOk : Accepted → Bool
  | .ok _ => true
  | _ => false
def codeOf : Accepted → Option Nat
  | .refuse c => some c
  | _ => none
theorem refused_of (a : Accepted) (c : Nat) (h : codeOf a = some c) : a = .refuse c := by cases a <;> simp_all [codeOf]
theorem got_ok (a : Accepted) (h : isOk a = true) : a = .ok (got a) := by cases a <;> first | rfl | cases h

def askedBefore (s : State) : State := mo (fun o => { o with devLaunches := [⟨1, 1, 0, 5, 0x110080⟩] }) s
theorem witness_GridLifecycle_launch (H : Obligations.GridLifecycle) :
    Runs (.launch h7 5 62) (launching 0x110020 []) ∧ Runs (.launch h7 5 62) (launching 0x110080 []) ∧ Runs (.launch h7 5 62) (launching 0x110000 []) ∧
    Runs (.launch h7 5 62) (askedBefore (launching 0x110000 [])) ∧ Runs (.launchAccept 1) (askedBefore (launching 0x110000 [])) ∧
    Runs (.launchAccept 1) (launching 0x110000 [0x110000, 0x110080]) ∧ Runs (.launchAccept 1) (launching 0x110000 [0x110080]) := by
  have a := fun s h0 h1 h2 h3 h4 h5 => (H s h7 5 62 0).1 h0 h1 h2 h3 h4 rfl h5
  have n := fun va l => (a (launching va l) rfl rfl rfl rfl (show 5 < 64 by decide) (show 64 ≤ 64 by decide)).1
  have c := fun va l h => (H (launching va l) h7 5 62 0).2.1 _ rfl h
  exact ⟨r1 ((n 0x110020 [] rfl).1 (by decide) (by decide)), r1 ((n 0x110080 [] rfl).2.1 1 (refused_of _ _ (by decide +kernel))),
    r2 ((n 0x110000 [] rfl).2.2 _ (got_ok _ (by decide +kernel))),
    r1 ((a (askedBefore (launching 0x110000 [])) rfl rfl rfl rfl (by decide) (by decide)).2 (by decide)),
    r1 (((H (askedBefore (launching 0x110000 [])) h7 5 62 0).2.1 _ rfl rfl).1 ⟨1, 1, 0, 5, 0x110080⟩ [] 1 rfl rfl (refused_of _ _ (by decide +kernel))),
    r2 (((c 0x110000 [0x110000, 0x110080] rfl).2 0x110000 [0x110080] rfl rfl).1 _ (got_ok _ (by decide +kernel))),
    r1 (((c 0x110000 [0x110080] rfl).2 0x110080 [] rfl rfl).2 1 (refused_of _ _ (by decide +kernel)))⟩

theorem witness_GridLifecycle (H : Obligations.GridLifecycle) :
    Runs (.teamPlacement 7) (queued 1 0 0) ∧ Runs (.gangStart 7) gang ∧
    Runs (.gangAgeing 1) gang ∧ Runs (.teamRetire 1) ended ∧ Runs (.gridCompletion 1) (finished 0) ∧ Runs (.receiptWrite 1) (finished 1) := by
  have p := (H (queued 1 0 0) h7 5 62 7).2.2.1 (by decide) (by decide) (by decide +kernel) (by decide)
  have q := (H gang h7 5 62 7).2.2.1 (by decide) (by decide) (by decide +kernel) (by decide)
  obtain ⟨u, hu⟩ := Option.isSome_iff_exists.mp (show (gang.placeGang 7 (gang.gridOf 7).gangSize).isSome = true by decide +kernel)
  exact ⟨r3 (p.1 (by decide +kernel) (by decide) ⟨0, [1], [2], []⟩ 0 (by decide +kernel) (by decide +kernel)),
    r1 (q.2 u (by decide +kernel) (by decide +kernel) hu),
    r1 ((H gang h7 5 62 7).2.2.2.1 1 (gang.gridOf 7) (by decide +kernel) (by decide +kernel) (by decide)),
    r1 ((H ended h7 5 62 1).2.2.2.2.1 1 (by decide) (by decide +kernel) (by decide)),
    r1 ((H (finished 0) h7 5 62 1).2.2.2.2.2.1 (by decide) rfl rfl (by decide +kernel) rfl rfl rfl rfl
      (Option.isNone_iff_eq_none.mp (by decide +kernel))),
    r1 ((H (finished 1) h7 5 62 1).2.2.2.2.2.2 _ rfl (by decide) rfl (by decide) rfl rfl rfl (by decide))⟩
def small : Group := { wA.cur with vregs := 1, sregs := 1, pc := [], live := 1, inRun := false, iss := 0 }
def saving (s : State) : State :=
  mtm (fun t => { t with banks := [], saveLen := 900000 }) (mg (fun g => { g with record := { g.record with matrix := false } })
    (mo (fun o => { o with stallVa := 0x110000, saveVa := 0x120000, saveLen := 1000000, tlb := o.tlb ++ [pg 18, pg 19] }) s))
def shadowed : State := saving (msp (fun p => { p with shadow := [{ small with gid := 12 }], shadowOwner := 1 }) wA)
def preempted : State := msp (fun p => { p with preempt := true }) wA
def refilled : State := msp (fun p => { p with preempt := true, incoming := some 2, filled := true, shadow := [{ small with gid := 12 }], shadowOwner := 1 }) wA
def evictable : State := saving (md (fun _ => small) wA)
/-- A saved context of one group, whose image is its header and zeros. -/
def ctxOf (eviction : Bool) : Saved :=
  ⟨2, 1, eviction, 0x120000, 3328, 0, [small], [], if eviction then some (evictable.teamOf 1) else none, [], [small], 0⟩
def holding (eviction : Bool) : State :=
  { msp (fun p => { p with preempt := true, incoming := some 2 }) evictable with
    saved := [ctxOf eviction]
    mem := Memory.write [] 0x120000 (teamHeader (if eviction then 1 else 0) 3328 (evictable.teamOf 1) 1 1 0) }
set_option maxRecDepth 20000 in
theorem spillLength : (imageBytes 0 (shadowed.teamOf 1) (shadowed.launchOf (shadowed.teamOf 1)) shadowed.cyc shadowed.freeCtr [{ small with gid := 12 }] []).length = 3328 := by
  decide +kernel
set_option maxRecDepth 20000 in
theorem evictLength : (imageBytes 1 (evictable.teamOf 1) (evictable.launchOf (evictable.teamOf 1)) evictable.cyc evictable.freeCtr [{ evictable.cur with inRun := false, await := [] }] []).length
    = 23296 := by decide +kernel
set_option maxRecDepth 20000 in
theorem witness_PreemptionStages_spill (H : Obligations.PreemptionStages) :
    Runs (.preemption 0 none) wA ∧ Runs (.preemption 0 (some 2)) (msp (fun p => { p with preempt := false }) (holding false)) ∧
    Runs (.bankSwap 0) preempted ∧ Runs (.bankSwap 0) refilled ∧ Runs (.contextSpill 0) shadowed ∧ Runs (.teamEviction 1) evictable := by
  have s := (H shadowed 0 0 (.head _) rfl).2.2.1 { small with gid := 12 } 0 _ rfl rfl (by decide) rfl rfl (by decide) rfl (Option.isNone_iff_eq_none.mp (by decide +kernel))
    ((congrArg (shadowed.partSlot (shadowed.teamOf 1)) spillLength).trans (by decide +kernel))
    ((congrArg (fun n => shadowed.writesReady 1 [(0x120000 + BitVec.ofNat 64 (0 + 0), n)]) spillLength).trans (by decide +kernel))
  have e := (H evictable 0 0 (.head _) rfl).2.2.2.2.1 (evictable.teamOf 1) rfl (by decide) rfl rfl rfl rfl rfl rfl rfl (by decide +kernel) rfl rfl
    (by rw [evictLength]; decide) (Option.isNone_iff_eq_none.mp (by decide +kernel)) (by rw [evictLength]; decide +kernel)
  exact ⟨r1 ((H wA 0 0 (.head _) rfl).1 none rfl rfl rfl (by decide) (fun _ h => nomatch h)),
    r1 ((H (msp (fun p => { p with preempt := false }) (holding false)) 0 0 (.head _) rfl).1 (some 2) rfl rfl rfl (by decide +kernel) (fun _ h => by cases h; decide +kernel)),
    r1 ((H preempted 0 0 (.head _) rfl).2.1 rfl (by decide +kernel) rfl rfl rfl rfl (.inl ⟨rfl, rfl, rfl⟩)),
    r1 ((H refilled 0 0 (.head _) rfl).2.1 rfl (by decide +kernel) rfl rfl rfl rfl (.inr ⟨by decide, rfl⟩)), r2 s, r2 e⟩
set_option maxRecDepth 20000 in
theorem witness_PreemptionStages_fill (H : Obligations.PreemptionStages) :
    Runs (.contextFill 0 2) (holding false) ∧ Runs (.teamRestore 1) (holding true) := by
  have a := (H (holding false) 0 2 (.head _) rfl).2.2.2.1 (ctxOf false) rfl rfl rfl rfl rfl rfl (by decide +kernel) (Option.isNone_iff_eq_none.mp (by decide +kernel)) (by decide +kernel) (by decide +kernel)
  have b := (H (holding true) 0 0 (.head _) rfl).2.2.2.2.2 (ctxOf true) (evictable.teamOf 1) ⟨0, [0], [], []⟩ _
    rfl rfl rfl rfl (by decide +kernel) (Option.isNone_iff_eq_none.mp (by decide +kernel)) (by decide +kernel) rfl (by decide +kernel)
  exact ⟨r1 a, r2 b⟩
def ports2 : State := { wA with ports := [⟨2, 2, 0, 14, 0, 65535⟩] }
def routed (replays : Nat) : State := { wA with ports := [⟨2, 2, 0, replays, 0, 65535⟩], routes := [(3, [2])] }
def exporting : State := mo (fun o => { o with exports := [0x110000], grants := [⟨0, 64, true, true, true, true⟩], allotment := [17], peerKeys := [(3, 5)] }) wA
/-- The same, whose peer has not got the world key. -/
def keyless : State := mo (fun o => { o with peerKeys := [] }) exporting
def flow7 : State := { wA with flows := [⟨77, 1, 5⟩] }
def named : State := mo (fun o => { o with peers := [3] }) wA
def lastEpoch : State := mo (fun o => { o with epoch := 2 ^ 24 - 1 }) wA
theorem witness_LinkEvents (H : Obligations.LinkEvents) :
    Runs (.peerLost 3 1) named ∧ Runs (.peerLost 3 2) { named with worldEnds := [(1, 3)] } ∧ Runs (.portDown 2) ports2 ∧ Runs (.portDown 2) (routed 0) ∧
    Runs (.flitReceive 2 65535 true true 0) ports2 ∧ Runs (.flitReceive 2 65535 true false 0) ports2 ∧ Runs (.flitReceive 2 65535 false true 0) ports2 ∧ Runs (.flitReceive 2 65535 false true 0) (routed 15) := by
  have l := fun s o hs hi => H s 3 2 1 0 4 o hs hi
  have a := (l named (named.ownerOf 1) rfl (by decide +kernel) rfl).1
  have b := (l { named with worldEnds := [(1, 3)] } (named.ownerOf 1) rfl (by decide +kernel) rfl).1
  have p := l ports2 (wA.ownerOf 1) rfl (by decide) rfl
  have q := fun n => l (routed n) (wA.ownerOf 1) rfl (by decide) rfl
  have f := p.2.2.2.1 rfl rfl
  exact ⟨r1 (a 1 (by decide +kernel) (by decide +kernel) nofun), r1 (b 2 (by decide +kernel) (by decide +kernel) (fun _ => rfl)), r1 (p.2.1 (fun _ h => nomatch h)),
    r1 ((q 0).2.2.1 (3, [2]) rfl (by decide)), r1 f.1, r1 f.2.1, r1 (f.2.2.1 (by decide)), r1 (((q 15).2.2.2.1 rfl rfl).2.2.2 (by decide))⟩
theorem witness_LinkEvents_access (H : Obligations.LinkEvents) :
    Runs (.peerAccess 3 1 0xFFFC (.read 4)) exporting ∧ Runs (.peerAccess 3 1 0xFFFC (.write [1, 2, 3, 4])) exporting ∧
    Runs (.peerAccess 3 1 0xFFFC (.write [1, 2, 3, 4])) { exporting with upsets := [.badFlit] } ∧ Runs (.keyRegisterLoad 2 1) { wA with kilnStopped := true } ∧
    Runs (.peerAccess 3 1 0xFFFD (.read 4)) exporting ∧ Runs (.peerAccess 3 1 0xFFFC (.read 4)) keyless ∧ Runs (.peerAccess 3 1 0xFFFC (.write [1, 2, 3, 4])) keyless ∧ Runs (.packetReceive 77 1 5 true 0x110000 true) flow7 ∧
    Runs (.packetReceive 77 1 5 false 0x110000 true) flow7 ∧ Runs (.keyRegisterLoad 2 1) wA ∧ Runs (.keyRegisterLoad 2 1) lastEpoch := by
  have x := fun off => (H exporting 3 2 1 off 4 (exporting.ownerOf 1) rfl (by decide +kernel) rfl).2.2.2.2
  have k := fun s o hs hi he => (H s 3 2 1 0 4 o hs hi he).2.2.2.2.2.2.2.2.2
  have n := (H keyless 3 2 1 0xFFFC 4 (keyless.ownerOf 1) rfl (by decide +kernel) rfl).2.2.2.2.2.2.2.1 [0x11FFFC, 0x11FFFD, 0x11FFFE, 0x11FFFF] [1, 2, 3, 4] rfl
    (by decide +kernel) (by decide +kernel) rfl (by decide +kernel)
  have y := (H { exporting with upsets := [.badFlit] } 3 2 1 0xFFFC 4 (exporting.ownerOf 1) rfl (by decide +kernel) rfl).2.2.2.2.2.1
  have f := (k flow7 (wA.ownerOf 1) rfl (by decide) rfl).1 77 1 0x110000 true rfl rfl
  exact ⟨r1 ((x 0xFFFC).1 [0x11FFFC, 0x11FFFD, 0x11FFFE, 0x11FFFF] rfl (by decide +kernel) (by decide +kernel) (by decide +kernel) ⟨(3, 5), by decide +kernel, rfl⟩),
    r1 ((x 0xFFFC).2.2.1 [0x11FFFC, 0x11FFFD, 0x11FFFE, 0x11FFFF] [1, 2, 3, 4] rfl (by decide +kernel) (by decide +kernel) (by decide) rfl ⟨(3, 5), by decide +kernel, rfl⟩ (by decide +kernel)),
    r1 (y [0x11FFFC, 0x11FFFD, 0x11FFFE, 0x11FFFF] [1, 2, 3, 4] rfl (by decide +kernel) (by decide +kernel) rfl),
    r1 ((k { wA with kilnStopped := true } _ rfl (by decide +kernel) rfl).2.1 rfl),
    r1 ((x 0xFFFD).2.2.2.2.1 rfl (by decide +kernel) (by decide +kernel)), r1 n.1, r1 n.2, r1 f.1, r1 f.2,
    r1 ((k wA _ rfl (by decide +kernel) rfl).2.2.1 rfl (by decide +kernel)), r2 ((k lastEpoch _ rfl (by decide +kernel) rfl).2.2.2 rfl (by decide +kernel) rfl)⟩

def tdi (t : Tdi) (d : Option (BitVec 512)) : State := mo (fun o => { o with tdi := t, lockDigest := d }) wA
def asked (outst : List OutRes) (cyc : DWord) : State :=
  { md (fun g => { g with outst := outst }) (mo (fun o => { o with hostReqs := [⟨4, 4, false, 0, 1, 0, 0x130000, none, none⟩] }) (tdi .run none)) with cyc := cyc }
def hostLoad : OutRes := ⟨0, 2, false, 77, 4, false, false, 0, 0x130000, false, 2, 5⟩
theorem witness_HostInterfaceEvents_tdi (H : Obligations.HostInterfaceEvents) :
    Runs (.lockInterface 1) wA ∧ Runs (.startInterface 1) wA ∧ Runs (.lockedRegisterWrite 1 2 9) wA ∧ Runs (.hatom 1 7) wA ∧
    Runs (.startInterface 1) (tdi .locked none) ∧ Runs (.stopInterface 1) (tdi .run none) ∧ Runs (.lockWalker 1) (tdi .run none) ∧
    Runs (.lockedRegisterWrite 1 2 9) (tdi .locked none) ∧ Runs (.hatom 1 3) (tdi .locked none) ∧
    Runs (.hostCompletion 1 3 true false true false) (tdi .locked none) ∧ Runs (.hostCompletion 1 3 true true false false) (tdi .run none) := by
  have a := H wA _ rfl (by decide +kernel)
  have u := a.1 rfl
  have lk := H (tdi .locked none) _ rfl (by decide +kernel)
  have rn := H (tdi .run none) _ rfl (by decide +kernel)
  have r4 := rn.2.2.2.1 (.inr rfl) rfl
  have l4 := lk.2.2.2.1 (.inl rfl) rfl
  exact ⟨r1 u.1, r1 u.2.1, r1 (u.2.2.1 2 9), r1 (u.2.2.2 rfl 7), r1 (lk.2.1 rfl), r1 (rn.2.2.1 (by decide +kernel)),
    r2 (r4 _ (.inl ⟨rfl, fun h => by cases h⟩)), r2 (l4 _ (.inr (.inl ⟨2, 9, rfl, by decide +kernel⟩))),
    r2 (l4 _ (.inr (.inr (.inl ⟨3, rfl, by decide +kernel⟩)))), r2 (l4 _ (.inr (.inr (.inr (.inl ⟨3, true, rfl⟩))))),
    r2 (r4 _ (.inr (.inr (.inr (.inr ⟨rfl, 3, true, rfl⟩)))))⟩
theorem witness_HostInterfaceEvents (H : Obligations.HostInterfaceEvents) :
    Runs (.hostCompletion 1 4 false true true false) (asked [hostLoad] 0) ∧ Runs (.hostCompletion 1 4 false true true true) (asked [hostLoad] 0) ∧
    Runs (.completionTimeout 1 4) (asked [hostLoad] 0xFFFFFFFFFFFFFFFF) ∧
    Runs (.kSetGo 1) (tdi .run none) ∧ Runs (.keySetErase 1) (mo (fun o => { o with kOld := true }) (tdi .run none)) ∧
    Runs (.registerPageWrite 1 0 64 5) wA ∧ Runs (.registerPageWrite 1 0x30 32 0) wA ∧ Runs (.telemetryRead 1 0x118 32) wA ∧
    Runs (.telemetryRead 1 0x480 64) wA ∧ Runs (.telemetryRead 1 0x480 64) (mo (fun o => { o with allowList := 8 }) wA) ∧
    Runs (.spdmRequest 3) { wA with bringUp := 8 } ∧ Runs (.spdmRequest 3) { wA with bringUp := 3 } := by
  have a := (H wA _ rfl (by decide +kernel)).2.2.2.2.2.2
  have rn := (H (tdi .run none) _ rfl (by decide +kernel)).2.2.2.2.2.1 rfl rfl
  have as := fun c => (H (asked [hostLoad] c) _ rfl (by decide +kernel)).2.2.2.2.1 ⟨4, 4, false, 0, 1, 0, 0x130000, none, none⟩ rfl rfl rfl rfl rfl (by decide) hostLoad rfl rfl rfl rfl rfl rfl rfl
  have old := (H (mo (fun o => { o with kOld := true }) (tdi .run none)) _ rfl (by decide +kernel)).2.2.2.2.2.1 rfl rfl
  have bad := fun c => (as c).2 (show wA.canTake .poison from ⟨rfl, by decide +kernel⟩) rfl
  exact ⟨r1 (as 0).1, r1 (bad 0 _ (.inl rfl)), r1 (bad 0xFFFFFFFFFFFFFFFF _ (.inr ⟨rfl, by decide +kernel⟩)), r1 rn.1, r1 (old.2 rfl), r1 (a.1 rfl 5), r1 a.2.1, r1 a.2.2.1,
    r1 (a.2.2.2.1 (by decide +kernel) (by decide +kernel)),
    r1 ((H (mo (fun o => { o with allowList := 8 }) wA) _ rfl (by decide +kernel)).2.2.2.2.2.2.2.2.2.2.1 (by decide +kernel)),
    r2 ((H { wA with bringUp := 8 } _ rfl (by decide +kernel)).2.2.2.2.2.2.2.2.2.2.2.1 rfl rfl 3),
    r1 ((H { wA with bringUp := 3 } _ rfl (by decide +kernel)).2.2.2.2.2.2.2.2.2.2.2.2 rfl (.inl rfl) 3)⟩

def kiln (s : State) : State := { s with bringUp := 8 }
/-- A descriptor of owner 5. -/
def desc : List (BitVec 8) :=
  leBytes 4 5 ++ leBytes 2 9 ++ leBytes 2 4 ++ leBytes 4 16 ++ leBytes 4 8 ++ leBytes 2 10 ++ leBytes 2 4 ++ [2, 0] ++ List.replicate 6 0 ++
    [0, 0, 1, 1] ++ leBytes 8 0x100000 ++ leBytes 8 0x100040 ++ List.replicate 16 0 ++ leBytes 8 0x40 ++ leBytes 4 16 ++ List.replicate 180 0 ++
    leBytes 8 0x100000 ++ leBytes 8 40 ++ leBytes 8 0x110000 ++ leBytes 8 41 ++ List.replicate 2016 0
def keyed (owner : Nat) : State := { kiln wA with keys := [⟨4095, 0, 0, owner, 0, none⟩] }
/-- A sealed card of the slot has passed its IV check. -/
def sealing : State :=
  { keyed 1 with chains := [{ ch0 with deck := [{ card0 with keySlot := 4095 }], prog := some { pos := 0, data := [], written := [], before := [], wrote := [], desc := [], out := 0, st := 0, ending := none, held := [], ivUsed := true } }] }
def viol : Violation := ⟨1, 2, 3, 4, 5, 6⟩
theorem witness_KilnRequests (H : Obligations.KilnRequests) :
    Runs (.destroyOwner 6) (kiln wA) ∧ Runs (.createOwner desc [1]) (kiln wA) ∧ Runs (.destroyOwner 1) (kiln wA) ∧
    Runs (.grant 1 [⟨100, 4, true, true, true, false⟩]) (kiln wA) ∧ Runs (.quota 1 ⟨1, 2, 3, 4, 5⟩) (kiln wA) ∧ Runs (.peer 1 [1, 2]) (kiln wA) ∧
    Runs (.slotAssign 1 [4095]) (keyed 0) ∧ Runs (.keyPut 1 4095 5 true) (keyed 1) ∧ Runs (.keyPut 1 4095 5 true) sealing ∧ Runs (.keyPut 1 4095 5 false) (keyed 1) ∧
    Runs (.logRead true) { kiln wA with violations := [viol] } ∧ Runs (.diag (some 1)) (kiln (halted false)) ∧ Runs (.diag (some 1)) (kiln wA) ∧
    Runs (.setReceiptRing 1 0x120000 (2 ^ 12)) (kiln wA) ∧ Runs (.allow 1 63 true) (kiln wA) ∧ Runs (.allow 1 63 true) (kiln (tdi .run none)) ∧
    Runs (.worldShare 1 3 77) (kiln wA) ∧ Runs (.worldShare 1 3 77) (kiln { wA with sessions := [3] }) ∧ Runs (.fusedMinimumRaise 3 true) (kiln wA) ∧ Runs .kilnLockstepMismatch (kiln wA) := by
  have k := fun s hk hb hp o hs hi => H (kiln s) o hk hb hp hs hi
  have a := k wA rfl rfl rfl _ rfl (by decide +kernel)
  have ky := fun n => H (keyed n) _ rfl rfl rfl rfl (by decide +kernel)
  have k0 := (ky 0).2.2.2.2.2.2.1 4095 5 rfl (by decide) (by decide +kernel)
  have k2 := ((H sealing _ rfl rfl rfl rfl (by decide +kernel)).2.2.2.2.2.2.1 4095 5 rfl (by decide) (by decide +kernel)).2 (by decide +kernel) (by decide +kernel)
  have k1 := ((ky 1).2.2.2.2.2.2.1 4095 5 rfl (by decide) (by decide +kernel)).2 (by decide +kernel) (by decide +kernel)
  exact ⟨r1 (a.1 6 (by decide +kernel) (by decide) ⟨1, 2, 3, 4, 5⟩ 0 (by decide) _ (.head _)),
    r2 (a.2.1 desc [1] (by decide +kernel) (by decide +kernel) (by decide +kernel) (by decide +kernel) (by decide +kernel) (by decide +kernel)), r1 a.2.2.1,
    r1 (a.2.2.2.1 _ rfl (by decide +kernel) (by decide)), r1 (a.2.2.2.2.1 _ rfl (by decide +kernel)), r1 (a.2.2.2.2.2.1 [1, 2] rfl (by decide)),
    r1 (k0.1 (by decide +kernel) (by decide +kernel)), r1 (k1.1 (by decide)), r1 (k2.2.1 (by decide +kernel)), r1 k1.2.2,
    r2 (H { kiln wA with violations := [viol] } _ rfl rfl rfl rfl (by decide +kernel)).2.2.2.2.2.2.2.1,
    r1 ((k (halted false) rfl rfl rfl _ rfl (by decide +kernel)).2.2.2.2.2.2.2.2.1 _ rfl), r1 (a.2.2.2.2.2.2.2.2.2.1 rfl),
    r1 (a.2.2.2.2.2.2.2.2.2.2.1 0x120000 12 rfl (by decide) (by decide)), r1 (a.2.2.2.2.2.2.2.2.2.2.2.1 63 rfl rfl rfl (by decide)),
    r1 ((k (tdi .run none) rfl rfl rfl _ rfl (by decide +kernel)).2.2.2.2.2.2.2.2.2.2.2.2.1 63 rfl rfl),
    r1 ((a.2.2.2.2.2.2.2.2.2.2.2.2.2.1 3 77 rfl).2 (by decide +kernel)),
    r1 (((k { wA with sessions := [3] } rfl rfl rfl _ rfl (by decide +kernel)).2.2.2.2.2.2.2.2.2.2.2.2.2.1 3 77 rfl).1 (by decide +kernel)), r1 (a.2.2.2.2.2.2.2.2.2.2.2.2.2.2.1 3), r1 a.2.2.2.2.2.2.2.2.2.2.2.2.2.2.2⟩

/-- Row 4 of bank 3 has an uncorrectable line; bonds 4 and 7 of channel 3 have failed their training. -/
def bonds (l : List (Nat × Nat)) : State :=
  { wA with failedBonds := l, rowErrs := [⟨3, 4, true, []⟩], bondErrs := [⟨3, 4, true, []⟩, ⟨3, 7, true, []⟩] }
def failing : State :=
  { wA with teams := [], sps := (List.range 4).map (fun k => { Sp.down with num := k, up := true, quarantined := true }), banks := [⟨1, 0, true, []⟩, ⟨2, 0, true, []⟩] }
def starting : State := { wA with bringUp := 5, sps := [], cyc := 64, spAt := 64 }
theorem witness_DeviceEvents (H : Obligations.DeviceEvents) :
    Runs (.regulatorSetting .clock 1301) wA ∧ Runs (.rowRemap 3 4 [17408]) wA ∧ Runs (.rowRemap 3 4 [17408]) (bonds []) ∧
    Runs (.rowRemap 3 4 []) { bonds [] with remaps := List.replicate 1024 (1, 2) } ∧
    Runs (.bondSteering 3 4) wA ∧ Runs (.bondSteering 3 4) (bonds []) ∧ Runs (.bondSteering 3 7) (bonds [(3, 1), (3, 2)]) ∧ Runs (.coreRetire 0) failing ∧
    Runs (.governorStep 1 0) wA ∧ Runs (.governorStep 1 0) { wA with stepAt := 0xFFFFFFFFFFFFFFFF } ∧
    Runs .currentClamp wA ∧ Runs .thermtrip wA ∧ Runs (.reset true 3 0) { wA with minVersion := 4 } ∧ Runs (.reset false 3 0) wA ∧
    Runs (.reset true 0 4) wA ∧ Runs (.reset true 0 0) wA ∧ Runs (.spStart 0) starting := by
  have a := H wA
  have b := H (bonds [])
  have rs := a.2.2.2.2.2.2.2.2.2.2.2.2.1
  exact ⟨r1 (a.1 .clock 1301 rfl), r1 (a.2.2.1 3 4 17408 (by decide)), r1 (b.2.2.2.1 3 4 17408 (by decide) (by decide +kernel) (by decide)),
    r1 ((H { bonds [] with remaps := List.replicate 1024 (1, 2) }).2.2.2.2.1 3 4 (by decide) (by decide +kernel) (by decide +kernel)),
    r1 (a.2.2.2.2.2.1 3 4 (by decide)), r1 (b.2.2.2.2.2.2.1 3 4 rfl (by decide +kernel)),
    r1 ((H (bonds [(3, 1), (3, 2)])).2.2.2.2.2.2.2.1 3 1 2 7 rfl (by decide) (by decide) (by decide +kernel)),
    r1 ((H failing).2.2.2.2.2.2.2.2.1 0 (by decide) (by decide +kernel) rfl), r1 ((a.2.2.2.2.2.2.2.2.2.1 1 0 (by decide)).1 (by decide +kernel)),
    r1 (((H { wA with stepAt := 0xFFFFFFFFFFFFFFFF }).2.2.2.2.2.2.2.2.2.1 1 0 (by decide)).2 (by decide +kernel)), r1 a.2.2.2.2.2.2.2.2.2.2.1,
    r1 a.2.2.2.2.2.2.2.2.2.2.2.1, r1 (((H { wA with minVersion := 4 }).2.2.2.2.2.2.2.2.2.2.2.2.1 3 0).1 (by decide)), r1 (rs 3 0).2.1,
    r1 ((rs 0 4).2.2.1 (by decide) (.inr rfl)), r1 ((rs 0 0).2.2.2 (by decide) (by decide) (by decide)),
    r1 ((H starting).2.2.2.2.2.2.2.2.2.2.2.2.2 0 rfl rfl (by decide) (by decide))⟩
def midRun (n : Nat) (iss : Mask) (w : List Wait) : State := md (fun g => { g with runLen := n, iss, waits := w }) wA
theorem witness_ControlInstructionsEndRuns (H : Obligations.ControlInstructionsEndRuns) :
    (isControl (.vbr h7 0x80000) = true ↔ isControl (.end_ h7) = true) ∧
    ((midRun 22 1 []).afterWord 1 0 1 (.nop h7)).cur.inRun = true ∧ ((midRun 23 1 []).afterWord 1 0 1 (.nop h7)).cur.inRun = false ∧
    ((midRun 1 0 []).afterWord 1 0 1 (.nop h7)).cur.inRun = false ∧ ((midRun 23 1 [⟨1, .ceSlot⟩]).afterWord 1 0 1 (.nop h7)).cur.inRun = true := by
  have a := H.1 (.vbr h7 0x80000) h7 _ _ (by decide) rfl rfl
  have b := H.1 (.end_ h7) h7 _ _ (by decide) rfl rfl
  have c := fun n iss w => H.2 (midRun n iss w) _ 0 1 (.nop h7) h7 rfl rfl rfl
  have d := fun n => ((c n 1 []).2.2.1 (show (1 : Mask) ≠ 0 by decide) (show (midRun 0 1 []).cur.stalls = false by decide)).1
  refine ⟨?_, (d 22).trans (by decide), (d 23).trans (by decide), ((c 1 0 []).1 rfl).1, ((c 23 1 [⟨1, .ceSlot⟩]).2.1 (show (1 : Mask) ≠ 0 by decide) (by decide)).1⟩
  rw [a, b]; decide +kernel

theorem witness_AffineLaneValues (H : Obligations.AffineLaneValues) : Runs (.vaff h7 63 15) wA := r1 ((H wA h7 63 15).2 rfl (by decide))

theorem witness_ResetAndRemovedPower (H : Obligations.ResetAndRemovedPower) :
    step { wA with powerOff := true } = .fault .powerRemoved ∧
    ∃ t, step { wA with powerOff := true, turns := [.event (.reset true 0 0)] } = .next t := by
  have p := H.2.2.2.2.2.2.2.2.2.2.2.2
  exact ⟨p.1 _ rfl (fun _ _ _ _ h => by cases h), (p.2 { wA with powerOff := true, turns := [.event (.reset true 0 0)] } true 0 0 [] rfl rfl).imp fun _ h => h.1⟩

theorem witness_EveryStepKeepsMemory (H : Obligations.EveryStepKeepsMemory) : ∃ t, step { wA with turns := [.idle] } = .next t ∧ t.MemInv :=
  ⟨_, rfl, H { wA with turns := [.idle] } _ rfl rfl⟩

theorem witness_EncodingAndDecodingAgree (H : Obligations.EncodingAndDecodingAgree) :
    decodeBytes ((encode (.vmovl h7 63 0xFFFFFFFF)).flatMap (leBytes 4) ++ [7]) = .ok (.vmovl h7 63 0xFFFFFFFF, [7]) ∧
    (Instr.vadd h7 3 4 5 .si32).wf = true ∧ (decodeMx 1023 (2 ^ 64 - 1) = .mxIllegalCommand 1023 (BitVec.ofNat 64 (2 ^ 64 - 1)) ∨
      (decodeMx 1023 (2 ^ 64 - 1)).wf = true) :=
  ⟨H.1 (.vmovl h7 63 0xFFFFFFFF) h7 (by decide) rfl [7], (H.2.1 0x3800C415 0 (.vadd h7 3 4 5 .si32) (by decide) (by decide) rfl).1,
   (H.2.2 1023 (2 ^ 64 - 1) (by decide) (by decide)).imp id And.left⟩

/-- SP 0 issues the word at its run's address: a NOP, or a literal move. -/
def fetching (w lit : Nat) : State := { wA.withPortKey with turns := [.issue 0], mem := Memory.write [] 0x100000 (leBytes 4 w ++ leBytes 4 lit) }
def arrived (w lit : Nat) : State := ({ fetching w lit with turns := [] } : State).catchUp.arrive
theorem ok_of {ε α} {e : Except ε α} {x : α} (h : e.toOption = some x) : e = .ok x := by
  cases e with
  | error e => cases h
  | ok y => cases h; rfl
def nexts (i : Instr) (s : State) : Bool := match exec i s with
  | .next _ => true
  | _ => false
theorem next_of {i : Instr} {s : State} (h : nexts i s = true) : Runs i s := by
  unfold nexts at h
  split at h
  · exact ⟨_, by assumption⟩
  · cases h
/-- `arrived` after the fetch of its word, and of a literal. -/
def fetched (w lit : Nat) : State := (arrived w lit).fetchUse (arrived w lit).cur.ipc
def ready (w lit : Nat) (i : Instr) : State := if wordCount i = 1 then fetched w lit else (fetched w lit).fetchUse ((arrived w lit).cur.ipc + 4)
/-- The run of `arrived` reaches its word, and nothing comes before it. -/
def Unhindered (w lit : Nat) (i : Instr) : Prop :=
  let u : State := { fetching w lit with turns := [] }
  let a := arrived w lit
  let b := ready w lit i
  (u.runOn 0 = some 1 ∧ u.catchUp.holdsBack = false ∧ a.cur.iss ≠ 0 ∧ a.portHas a.cur.owner a.curCore = true ∧ a.upsets = [] ∧ a.cur.outst = [] ∧ a.cur.hlv = false ∧ (a.cur.kind = .bin → a.cur.frameldDone = true)) ∧
    a.cur.ipc = 0x100000 ∧ a.xlate a.curOwner a.curTeam a.curCore .fetch a.cur.ipc = .ok 0x100000 ∧ a.badRead 0x100000 4 = false ∧
    a.codeWord 0x100000 = leNat (Memory.bytes a.mem 0x100000 4) ∧ (b.pendingRegs a.cur.gid).any (uniformRegs (a.cur.width == 64) i).contains = false ∧
    b.resultsFirst i = 0 ∧ b.steepsFirst i = false ∧ b.noRoom i = none
theorem step_of (H : Obligations.StepRunsTheDecodedInstruction) (w lit : Nat) (i : Instr) (h : Unhindered w lit i) (hn : nexts i (ready w lit i) = true)
    (hd : (wordCount i = 1 ∧ decodeBytes (Memory.bytes (arrived w lit).mem 0x100000 4) = .ok (i, [])) ∨
      (wordCount i = 2 ∧ (∃ j, decodeWord (leNat (Memory.bytes (arrived w lit).mem 0x100000 4)) 0 = .ok j ∧ wordCount j = 2) ∧
        (fetched w lit).xlate (fetched w lit).curOwner (fetched w lit).curTeam (fetched w lit).curCore .fetch ((arrived w lit).cur.ipc + 4) = .ok 0x100004 ∧
        (fetched w lit).badRead 0x100004 4 = false ∧ (fetched w lit).codeWord 0x100004 = leNat (Memory.bytes (arrived w lit).mem 0x100004 4) ∧
        decodeBytes (Memory.bytes (arrived w lit).mem 0x100000 8) = .ok (i, []))) : ∃ t, step (fetching w lit) = .next t := by
  obtain ⟨⟨h1, h2, h3, hp, h4, h5, h6, h7⟩, h8, h9, ha, hb, hc, hd', he, hf⟩ := h
  obtain ⟨t, ht⟩ := next_of hn
  exact ⟨_, H _ _ (fetched w lit) (ready w lit i) t 0 _ _ i rfl rfl h1 rfl h2 h3 hp h4 h5 h6 h7 (congrArg (fun x => BitVec.toNat x % 4) h8) h9 ha hb rfl rfl hc hd' he hf hd ht⟩
theorem witness_StepRunsTheDecodedInstruction (H : Obligations.StepRunsTheDecodedInstruction) :
    (∃ t, step (fetching 0xBA500000 0) = .next t) ∧ ∃ t, step (fetching 0xB8C10000 77) = .next t :=
  ⟨step_of H 0xBA500000 0 (.nop h7) (by unfold Unhindered; decide +kernel) (by decide +kernel) (.inl ⟨rfl, ok_of (by decide +kernel)⟩),
    step_of H 0xB8C10000 77 (.smovl h7 4 77) (by unfold Unhindered; decide +kernel) (by decide +kernel)
      (.inr ⟨rfl, ⟨.smovl h7 4 0, ok_of (by decide +kernel), rfl⟩, by decide +kernel, by decide +kernel, by decide +kernel, ok_of (by decide +kernel)⟩)⟩

theorem witness_WordsLeaveTheDeviceAlone (H : Obligations.WordsLeaveTheDeviceAlone) : ∃ t, exec (.nop h7) wA = .next t ∧ t.keys = wA.keys :=
  ⟨_, rfl, (H (.nop h7) h7 wA _ rfl rfl).1⟩


end Sys2Proof.Tests
end

section
/-! PROOF. The return from handlers (O23): the rules of barrier releases, of lanes that move or leave and of taking a cause, then
`HRET` of an in-group handler and of a handler group. -/

namespace Sys2Proof

/-! ## Lists and lane masks -/

theorem modAll_of_false {α : Type} (p : α → Bool) (f : α → α) (l : List α) (h : ∀ a ∈ l, p a = false) : modAll p f l = l := by
  unfold modAll
  exact (List.map_congr_left (fun a ha => by simp [h a ha])).trans (List.map_id' l)

theorem findD_modAll {α : Type} (p : α → Bool) (d : α) (f : α → α) (hf : ∀ a, p a = true → p (f a) = true) (l : List α)
    (h : ∃ a ∈ l, p a = true) : findD p d (modAll p f l) = f (findD p d l) := by
  induction l with
  | nil => simp at h
  | cons a l ih =>
    by_cases ha : p a = true
    · simp [modAll, findD, ha, hf a ha]
    · obtain ⟨b, hb, hpb⟩ := h
      obtain rfl | hb := List.mem_cons.mp hb
      · exact absurd hpb ha
      · have ih := ih ⟨b, hb, hpb⟩
        simpa [modAll, findD, ha] using ih

theorem Mask.ofFn_eq_zero (p : Nat → Bool) (n : Nat) (h : ∀ i, i < n → p i = false) : Mask.ofFn p n = 0 := by
  induction n with
  | zero => rfl
  | succ n ih =>
    rw [Mask.ofFn, if_neg (by simp [h n])]
    exact ih (fun i hi => h i (by omega))

theorem Mask.lanes_one (l : Nat) (hl : l < 64) : (Mask.one l).lanes = [l] := by
  have hcount : (List.range 64).count l = 1 := List.nodup_range.count.trans (if_pos (List.mem_range.mpr hl))
  have hlanes : (Mask.one l).lanes = (List.range 64).filter (fun i => decide (i = l)) :=
    List.filter_congr (fun i _ => by rw [Mask.has_one l i hl]; exact decide_eq_decide.mpr eq_comm)
  rw [hlanes, List.filter_eq, hcount]
  rfl

end Sys2Proof

namespace Sys2Proof.Machine

/-! ## Barrier releases -/

/-- The lane waits at no barrier and has arrived at none of the group. -/
def Group.AtNoBarrier (g : Group) (l : Nat) : Prop :=
  g.barg.has l = false ∧ ∀ b, b < 16 → Mask.has (g.barWait.get b) l = false

/-- `g'` is `g` after arrivals were withdrawn or barriers released (06 R128, R129, R131): only PCs and waits at barriers
differ, and a lane at no barrier stands where it stood. -/
structure Group.Released (g g' : Group) : Prop where
  frame : g' = { g with pc := g'.pc, barg := g'.barg, barWait := g'.barWait }
  stays : ∀ l, l < 64 → g.AtNoBarrier l → g'.AtNoBarrier l ∧ g'.pc.get l = g.pc.get l

namespace Group.Released

variable {g g' g'' : Group}

theorem refl (g : Group) : g.Released g := ⟨rfl, fun _ _ h => ⟨h, rfl⟩⟩

theorem trans (h : g.Released g') (h' : g'.Released g'') : g.Released g'' := by
  refine ⟨?_, fun l hl hb => ?_⟩
  · rw [h'.frame, h.frame]
  · obtain ⟨hb', hp⟩ := h.stays l hl hb
    obtain ⟨hb'', hp'⟩ := h'.stays l hl hb'
    exact ⟨hb'', hp'.trans hp⟩

theorem live (h : g.Released g') : g'.live = g.live := by rw [h.frame]
theorem hlv (h : g.Released g') : g'.hlv = g.hlv := by rw [h.frame]
theorem hl (h : g.Released g') : g'.hl = g.hl := by rw [h.frame]
theorem v (h : g.Released g') : g'.v = g.v := by rw [h.frame]
theorem outst (h : g.Released g') : g'.outst = g.outst := by rw [h.frame]
theorem team (h : g.Released g') : g'.team = g.team := by rw [h.frame]

end Group.Released

theorem Group.bargCheck_released (ctr : Nat) (g : Group) (h : g.outst = []) : g.Released (g.bargCheck ctr) := by
  unfold Group.bargCheck
  split
  · rw [Group.complete_settled _ _ _ h]
    refine ⟨rfl, fun l hl hb => ⟨⟨Mask.has_zero l, hb.2⟩, ?_⟩⟩
    exact (Group.pc_setPc g _ _ l hl).trans (if_neg (by simp [hb.1]))
  · exact .refl g

theorem Group.barRelease_released (ctr b : Nat) (g : Group) (hb : b < 16) (h : g.outst = []) :
    g.Released (g.barRelease ctr b) := by
  simp only [Group.barRelease, Group.complete_settled _ _ _ h]
  refine ⟨rfl, fun l hl hn => ⟨⟨hn.1, fun c hc => ?_⟩, ?_⟩⟩
  · show Mask.has ((g.barWait.set b 0).get c) l = false
    rw [SMap.get_set]
    split
    · exact Mask.has_zero l
    · exact hn.2 c hc
  · exact (Group.pc_setPc g _ _ l hl).trans (if_neg (by simp [hn.2 b hb]))

theorem Group.withdraw_released (g : Group) (m : Mask) : g.Released (g.withdraw m) := by
  refine ⟨rfl, fun l _ hn => ⟨⟨by simp [Group.withdraw, hn.1], ?_⟩, rfl⟩⟩
  unfold Group.withdraw
  refine List.foldlRecOn (motive := fun w : SMap 64 => ∀ c, c < 16 → Mask.has (w.get c) l = false) _ _ hn.2
    (fun w hw b hb c hc => ?_)
  rw [SMap.get_set]
  split
  · simp [hw b (List.mem_range.mp hb)]
  · exact hw c hc

theorem State.barCheck_cur_released (s : State) (tid b : Nat) (hb : b < 16) (h : s.cur.outst = []) :
    s.cur.Released (s.barCheck tid b).cur := by
  unfold State.barCheck
  split
  · show s.cur.Released (if State.inTeam tid s.cur then s.cur.barRelease s.freeCtr b else s.cur)
    split
    · exact Group.barRelease_released _ b _ hb h
    · exact .refl _
  · exact .refl _

theorem State.barCheckAll_cur_released (s : State) (tid : Nat) (h : s.cur.outst = []) :
    s.cur.Released (s.barCheckAll tid).cur :=
  List.foldlRecOn (motive := fun t : State => s.cur.Released t.cur) _ _ (.refl _) (fun t ht b hb =>
    ht.trans (t.barCheck_cur_released tid b (List.mem_range.mp hb) (ht.outst.trans h)))

@[simp] theorem State.barCheck_mem (s : State) (tid b : Nat) : (s.barCheck tid b).mem = s.mem := by
  unfold State.barCheck; split <;> rfl

@[simp] theorem State.barCheckAll_mem (s : State) (tid : Nat) : (s.barCheckAll tid).mem = s.mem :=
  List.foldlRecOn (motive := fun t : State => t.mem = s.mem) _ _ rfl (fun t ht b _ => (t.barCheck_mem tid b).trans ht)

/-- A group outside every team is at no team barrier (06 R129). -/
theorem State.barCheck_zero_groups (s : State) (b : Nat) : (s.barCheck 0 b).groups = s.groups := by
  unfold State.barCheck
  split
  · exact modAll_of_false _ _ _ (fun g _ => by simp [State.inTeam])
  · rfl

theorem State.barCheckAll_zero_groups (s : State) : (s.barCheckAll 0).groups = s.groups :=
  List.foldlRecOn (motive := fun t : State => t.groups = s.groups) _ _ rfl (fun t ht b _ => (t.barCheck_zero_groups b).trans ht)

/-- Every barrier the group in the issue slot may be at is checked again: its own, then those of its team. -/
def State.recheck (s : State) : State := (s.modCur (Group.bargCheck s.freeCtr)).barCheckAll s.cur.team

theorem State.recheck_cur_released (s : State) (h : s.cur.outst = []) : s.cur.Released s.recheck.cur := by
  have hb := Group.bargCheck_released s.freeCtr s.cur h
  exact hb.trans ((s.modCur (Group.bargCheck s.freeCtr)).barCheckAll_cur_released _ (hb.outst.trans h))

theorem State.recheck_mem (s : State) : s.recheck.mem = s.mem := State.barCheckAll_mem _ _

theorem State.recheck_groups (s : State) (h : s.cur.team = 0) : s.recheck.groups = s.groups := by
  rw [State.recheck, h]
  exact State.barCheckAll_zero_groups _

/-! ## Lanes that move or leave -/

theorem Group.giveUpMove_frame (g : Group) (m : Mask) :
    ∃ moving xfer, g.giveUpMove m = { g with moving := moving, xfer := xfer } := by
  unfold Group.giveUpMove
  split
  · exact ⟨_, _, rfl⟩
  · exact ⟨_, _, rfl⟩

/-- The group in the issue slot as `moveLanes` leaves it before barriers are checked again. -/
def Group.moveTo (g : Group) (m : Mask) (f : Nat → DWord) : Group :=
  { (((g.giveUpMove m).withdraw m).setPc m f) with
    asleep := g.asleep &&& ~~~m, mqWait := g.mqWait &&& ~~~m, cpyAt := g.cpyAt.setMany 0 m.has (fun _ => 0) 64
    waits := g.waits.map (fun w => { w with lanes := w.lanes &&& ~~~m }) }

theorem State.moveLanes_recheck (s : State) (m : Mask) (f : Nat → DWord) :
    ∃ u : State, u.cur = s.cur.moveTo m f ∧ u.mem = s.mem ∧ s.moveLanes m f = u.recheck :=
  ⟨{ s with teams := _, cur := s.cur.moveTo m f }, rfl, rfl, rfl⟩

/-- Lanes that a handler moves keep the level, the live lanes and the registers of their group; the other lanes that wait at no barrier
stay where they are (06 R131). -/
theorem State.moveLanes_keeps (s : State) (m : Mask) (f : Nat → DWord) (h : s.cur.outst = []) :
    (s.moveLanes m f).cur.hlv = s.cur.hlv ∧ (s.moveLanes m f).cur.hl = s.cur.hl ∧ (s.moveLanes m f).cur.live = s.cur.live ∧
    (s.moveLanes m f).cur.v = s.cur.v ∧ (s.moveLanes m f).mem = s.mem ∧
    ∀ l, l < 64 → m.has l = false → s.cur.AtNoBarrier l → (s.moveLanes m f).cur.pc.get l = s.cur.pc.get l := by
  obtain ⟨mv, xf, hg⟩ := s.cur.giveUpMove_frame m
  obtain ⟨u, hu, hm, ht⟩ := s.moveLanes_recheck m f
  rw [Group.moveTo, hg] at hu
  have hr := u.recheck_cur_released (hu ▸ h)
  rw [hu, ← ht] at hr
  refine ⟨hr.hlv, hr.hl, hr.live, hr.v, ht ▸ u.recheck_mem.trans hm, fun l hl hml hn => ?_⟩
  obtain ⟨hn', hp⟩ := (Group.withdraw_released { s.cur with moving := mv, xfer := xf } m).stays l hl hn
  exact (hr.stays l hl hn').2.trans ((Group.pc_setPc _ m f l hl).trans ((if_neg (by simp [hml])).trans hp))

/-! ## Taking a cause -/

theorem State.raise_took (s : State) (c : Cause) (tval : DWord) (m : Mask) (h : s.canTake c) : s.took (s.raise c tval m) c tval m := by
  obtain ⟨hlv, hh⟩ := h
  unfold State.raise
  rw [if_neg (by simp [hlv]), if_neg hh]
  refine ⟨rfl, rfl, rfl, rfl, rfl, ?_, ?_, rfl⟩
  · intro l hl
    exact Group.pc_setPc (s.cur.saveCause c tval m) m _ l hl
  · intro l hl
    exact (SMap.get_setMany [] 0 m.has s.cur.pc.get 64 l).trans (by simp [hl])

theorem State.raise_atHandler (s : State) (c : Cause) (tval : DWord) (m : Mask) (h : s.cur.hlv = true) :
    s.raise c tval m = s.recursiveFault c.detail tval := if_pos h

theorem State.ownerOf_modOwner (s : State) (id : Nat) (f : Owner → Owner) (hf : ∀ o, (f o).id = o.id)
    (h : ∃ o ∈ s.owners, o.id = id) : (s.modOwner id f).ownerOf id = f (s.ownerOf id) := by
  obtain ⟨o, ho, hid⟩ := h
  exact findD_modAll _ _ f (fun o ho => by simpa [hf] using ho) _ ⟨o, ho, by simp [hid]⟩

/-- The record of a halt of an owner that runs (18 R316). -/
def State.haltRecord (s : State) (kind detail : Nat) (addr pc : DWord) (cause reason : Word) (sp : Nat) (handlerSlot : Bool) : Halt :=
  { kind, detail, cyc := s.cyc, addr, pc, core := coreOf sp, spByte := sp % 4 + (if handlerSlot then 128 else 0), cause
    reasonWord := reason, written := false, ctr := s.freeCtr }

theorem State.haltOwner_running (s : State) (owner kind detail : Nat) (addr pc : DWord) (cause reason : Word) (sp : Nat)
    (handlerSlot : Bool) (hh : (s.ownerOf owner).halt = none) :
    s.haltOwner owner kind detail addr pc cause reason sp handlerSlot =
      (s.modGroups (fun g => g.owner == owner) (Group.freeze s.freeCtr)).modOwner owner
        (fun o => { o with halt := some (s.haltRecord kind detail addr pc cause reason sp handlerSlot) }) := by
  simp only [State.haltOwner, hh, State.haltRecord]

/-- A fault at handler level halts the owner with a record of kind 1 (18 R316, R318). -/
theorem State.recursiveFault_haltedWith (s : State) (detail : Nat) (addr : DWord) (hh : (s.ownerOf s.cur.owner).halt = none)
    (ho : ∃ o ∈ s.owners, o.id = s.cur.owner) :
    (s.recursiveFault detail addr).haltedWith s.cur.owner 1 detail addr s.cur.ipc := by
  rw [State.recursiveFault, s.haltOwner_running _ _ _ _ _ _ _ _ _ hh]
  refine ⟨s.haltRecord 1 detail addr s.cur.ipc s.cur.cause 0 s.cur.sp s.cur.inSlot, ?_, rfl, rfl, rfl, rfl, rfl⟩
  rw [State.ownerOf_modOwner]
  · exact fun _ => rfl
  · exact ho

/-- No lane of the group moves at a recursive fault (18 R316). -/
theorem State.recursiveFault_pc (s : State) (detail : Nat) (addr : DWord) (hh : (s.ownerOf s.cur.owner).halt = none)
    (hs : s.settled) : (s.recursiveFault detail addr).cur.pc = s.cur.pc := by
  rw [State.recursiveFault, s.haltOwner_running _ _ _ _ _ _ _ _ _ hh, State.modOwner_cur, State.modGroups]
  split
  · rw [Group.freeze, Group.deliverIf_settled _ _ _ hs]
  · rfl

/-! ## Lanes that have all their results (02 R31) -/

theorem State.settle_settled (s : State) (m : Mask) (h : s.settled) :
    ∃ w, s.settle m = { s with cur := { s.cur with await := w } } := by
  unfold State.settle
  rw [Group.deliverIf_settled _ _ _ h]
  exact ⟨_, rfl⟩

theorem State.settle_nothing (s : State) (m : Mask) (h : s.settled) (ha : s.cur.await = []) : s.settle m = s := by
  unfold State.settle
  rw [Group.deliverIf_settled _ _ _ h, ha, List.map_nil, List.filter_nil, ← ha]

/-! ## HRET -/

/-- The registers an `HRET` names are allocated (02 R33). -/
def Group.hretOk (g : Group) (a : Nat) : HretK → Bool
  | .saved => true
  | .uniform => g.sPairOk a
  | .vector => g.vPairOk a

theorem Group.sPairOk_of_le (g : Group) {a : Nat} (ha : a % 2 = 0) (h : a + 2 ≤ g.sregs) : g.sPairOk a = true := by
  simp [Group.sPairOk, Group.sOk, ha, h]

theorem Group.vPairOk_of_le (g : Group) {a : Nat} (ha : a % 2 = 0) (h : a + 2 ≤ g.vregs) : g.vPairOk a = true := by
  simp [Group.vPairOk, Group.vOk, ha, h]

theorem exec_hret (h : Hdr) (a : Nat) (k : HretK) (s : State) :
    exec (.hret h a k) s = .next (
      if !(s.cur.hretOk a k) then s.raiseWord .illegalReg
      else if !(s.uguard h) then s.goOn s.cur.iss 4
      else if !s.cur.hlv then s.raiseWord .illegalOp
      else if s.cur.inSlot then s.hretSlot a k
      else s.hretTeam a k) := by
  cases k <;> rfl

theorem exec_hret_team (h : Hdr) (a : Nat) (k : HretK) (s : State) (hok : s.cur.hretOk a k = true) (hg : s.uguard h = true)
    (hv : s.cur.hlv = true) (hk : s.cur.kind = .team ∨ s.cur.kind = .bin) : exec (.hret h a k) s = .next (s.hretTeam a k) := by
  have hi : s.cur.inSlot = false := by
    obtain hk | hk := hk <;> simp [Group.inSlot, hk]
  simp [exec_hret, hok, hg, hv, hi]

theorem exec_hret_slot (h : Hdr) (a : Nat) (k : HretK) (s : State) (hok : s.cur.hretOk a k = true) (hg : s.uguard h = true)
    (hv : s.cur.hlv = true) (hk : s.cur.kind = .walk ∨ s.cur.kind = .request ∨ s.cur.kind = .page) :
    exec (.hret h a k) s = .next (s.hretSlot a k) := by
  have hi : s.cur.inSlot = true := by
    obtain hk | hk | hk := hk <;> simp [Group.inSlot, hk]
  simp [exec_hret, hok, hg, hv, hi]

theorem exec_hret_notAtHandler (h : Hdr) (a : Nat) (k : HretK) (s : State) (hok : s.cur.hretOk a k = true) (hg : s.uguard h = true)
    (hv : s.cur.hlv = false) : exec (.hret h a k) s = .next (s.raiseWord .illegalOp) := by
  simp [exec_hret, hok, hg, hv]

theorem aligned4_iff (x : DWord) : aligned4 x = true ↔ x.toNat % 4 = 0 := by simp [aligned4]

/-! ### In-group handlers (01 R12; 19 R335; 20 R358) -/

theorem State.hretTeam_saved (s : State) (a : Nat) (hs : s.settled) (ha : s.cur.await = [])
    (hal : ∀ l, (s.cur.iss.has l = true → aligned4 (s.cur.savedPc.get l) = true) ∧
      (s.hretSelected.has l = true → aligned4 (s.cur.pc.get l) = true)) :
    s.hretTeam a .saved = { s with cur := { s.cur with
      pc := (s.cur.setPc s.cur.iss s.cur.savedPc.get).pc, hlv := false, hl := 0, savedPc := [], inRun := false } } := by
  have hany : (s.cur.iss ||| s.hretSelected).lanes.any (fun i => !(aligned4 (if s.cur.iss.has i then s.cur.savedPc.get i else s.cur.pc.get i)))
      = false := by
    refine List.any_eq_false.mpr (fun l hl => ?_)
    have hl := (Mask.mem_lanes _ _).mp hl
    obtain ⟨hi, hp⟩ := hal l
    by_cases h : s.cur.iss.has l = true
    · simp [h, hi h]
    · simp only [Mask.has_or, h, Bool.false_or] at hl
      simp [h, hp hl]
  unfold State.hretTeam
  simp only [s.settle_nothing _ hs ha, State.hretTarget, Option.getD_none, hany]
  simp [State.goTo_settled _ _ _ hs, State.modCur, State.endRun, Group.leaveHandler, Group.setPc]

/-- A saved PC that is not aligned is a fault at handler level: the owner is halted and no lane moves. -/
theorem State.hretTeam_saved_misaligned (s : State) (a l : Nat) (hs : s.settled) (hv : s.cur.hlv = true)
    (hh : (s.ownerOf s.cur.owner).halt = none) (ho : ∃ o ∈ s.owners, o.id = s.cur.owner) (hl : s.cur.iss.has l = true)
    (hm : aligned4 (s.cur.savedPc.get l) = false) :
    (s.hretTeam a .saved).haltedWith s.cur.owner 1 3 s.cur.ipc s.cur.ipc ∧ (s.hretTeam a .saved).cur.pc = s.cur.pc := by
  obtain ⟨w, hw⟩ := s.settle_settled s.cur.iss hs
  have hraise : s.hretTeam a .saved = (s.settle s.cur.iss).raiseWord .align := by
    unfold State.hretTeam
    refine if_pos (List.any_eq_true.mpr ⟨l, (Mask.mem_lanes _ _).mpr (by simp [hl]), ?_⟩)
    simp [hw, State.hretTarget, hl, hm]
  have hfault : s.hretTeam a .saved = State.recursiveFault { s with cur := { s.cur with await := w } } 3 s.cur.ipc := by
    rw [hraise, hw]
    exact State.raise_atHandler _ .align _ _ hv
  rw [hfault]
  exact ⟨State.recursiveFault_haltedWith { s with cur := { s.cur with await := w } } 3 s.cur.ipc hh ho,
    State.recursiveFault_pc { s with cur := { s.cur with await := w } } 3 s.cur.ipc hh hs⟩

/-- The group in the issue slot once an `HRET` that names a target has sent its handler lanes there. -/
def Group.sentBack (g : Group) (iss : Mask) (f : Nat → DWord) : Group :=
  { ((g.setPc iss f).leaveHandler.giveUpMove iss) with cpyAt := g.cpyAt.setMany 0 iss.has (fun _ => 0) 64 }

theorem State.settle_hretTarget (s : State) (m : Mask) (a : Nat) (k : HretK) (hs : s.settled) :
    (s.settle m).hretTarget a k = s.hretTarget a k := by
  obtain ⟨w, hw⟩ := s.settle_settled m hs
  rw [hw]
  rfl

theorem State.settle_hretSelected (s : State) (m : Mask) (hs : s.settled) : (s.settle m).hretSelected = s.hretSelected := by
  obtain ⟨w, hw⟩ := s.settle_settled m hs
  rw [hw]
  rfl

/-- An `HRET` of form `k` that sends its handler lanes to `f`, each to an aligned address: no result is outstanding, no held lane is
selected through TLANE, and no lane retires by a target of 0. -/
structure State.HretTo (s : State) (a : Nat) (k : HretK) (f : Nat → DWord) : Prop where
  settled : s.settled
  named : k ≠ .saved
  target : ∀ l, s.hretTarget a k l = some (f l)
  unselected : s.hretSelected = 0
  aligned : ∀ l, s.cur.iss.has l = true → aligned4 (f l) = true
  nonzero : k = .vector → ∀ l, s.cur.iss.has l = true → f l ≠ 0

theorem State.HretTo.hretTeam_eq {s : State} {a : Nat} {k : HretK} {f : Nat → DWord} (h : s.HretTo a k f) :
    s.hretTeam a k =
      (((s.settle s.cur.iss).modCur (fun g => g.sentBack s.cur.iss f)).moveLanes 0 f).endRun := by
  obtain ⟨hs, hk, hd, hsel, hal, hz⟩ := h
  have hd' : (s.settle s.cur.iss).hretTarget a k = fun i => some (f i) := (s.settle_hretTarget _ a k hs).trans (funext hd)
  have hsel' : (s.settle s.cur.iss).hretSelected = 0 := (s.settle_hretSelected _ hs).trans hsel
  have hor : s.cur.iss ||| (0 : Mask) = s.cur.iss := BitVec.or_zero
  have hany : s.cur.iss.lanes.any (fun i => !(aligned4 (f i))) = false :=
    List.any_eq_false.mpr (fun l hl => by simp [hal l ((Mask.mem_lanes _ _).mp hl)])
  have hgone : (if k = .vector then laneSet s.cur.iss (fun i => some (f i) == some 0) else 0) = 0 := by
    split
    · next hv => exact Mask.ofFn_eq_zero _ _ (fun l _ => by simpa using hz hv l)
    · rfl
  have ho : (s.settle s.cur.iss).cur.outst = [] := by
    obtain ⟨w, hw⟩ := s.settle_settled s.cur.iss hs
    rw [hw]
    exact hs
  unfold State.hretTeam
  simp only [hd', hsel', Option.getD_some, hor, hany, hgone, if_neg hk, Bool.false_eq_true, if_false, if_true,
    State.goTo_settled _ _ _ ho]
  rfl

/-- Handler lanes sent back: their PCs, the level of the group and what the lanes waited for change, and nothing else. -/
theorem State.settle_sentBack (s : State) (iss : Mask) (f : Nat → DWord) (hs : s.settled) :
    ∃ w mv xf c, (s.settle iss).modCur (fun g => g.sentBack iss f) = { s with cur := { s.cur with
      pc := (s.cur.setPc iss f).pc, hlv := false, hl := 0, savedPc := [], await := w, moving := mv, xfer := xf, cpyAt := c } } := by
  obtain ⟨w, hw⟩ := s.settle_settled iss hs
  obtain ⟨mv, xf, hg⟩ := ((s.settle iss).cur.setPc iss f).leaveHandler.giveUpMove_frame iss
  rw [State.modCur, Group.sentBack, hg, hw]
  exact ⟨w, mv, xf, _, rfl⟩

/-- Such an `HRET` leaves handler level and keeps the lanes, the vector registers and memory; its lanes that wait at no barrier stand at
their targets. -/
theorem State.HretTo.results {s : State} {a : Nat} {k : HretK} {f : Nat → DWord} (h : s.HretTo a k f) :
    (s.hretTeam a k).cur.hlv = false ∧ (s.hretTeam a k).cur.hl = 0 ∧ (s.hretTeam a k).cur.live = s.cur.live ∧
      (s.hretTeam a k).cur.v = s.cur.v ∧ (s.hretTeam a k).mem = s.mem ∧
      ∀ l, l < 64 → s.cur.iss.has l = true → s.cur.AtNoBarrier l → (s.hretTeam a k).cur.pc.get l = f l := by
  obtain ⟨w, mv, xf, c, hu⟩ := s.settle_sentBack s.cur.iss f h.settled
  rw [h.hretTeam_eq, hu]
  have hkeep := State.moveLanes_keeps { s with cur := { s.cur with
    pc := (s.cur.setPc s.cur.iss f).pc, hlv := false, hl := 0, savedPc := [], await := w, moving := mv, xfer := xf, cpyAt := c } } 0 f h.settled
  generalize State.moveLanes _ 0 f = t at hkeep ⊢
  obtain ⟨hlv, hhl, hlive, hv, hmem, hpc⟩ := hkeep
  exact ⟨hlv, hhl, hlive, hv, hmem, fun l hl hi hn =>
    (hpc l hl (Mask.has_zero l) hn).trans ((Group.pc_setPc s.cur s.cur.iss f l hl).trans (if_pos hi))⟩

theorem State.hretTo_uniform (s : State) (a : Nat) (hs : s.settled) (hsel : s.hretSelected = 0) (hal : (s.cur.spair a).toNat % 4 = 0) :
    s.HretTo a .uniform (fun _ => s.cur.spair a) :=
  ⟨hs, by decide, fun _ => rfl, hsel, fun _ _ => (aligned4_iff _).mpr hal, fun hk => by cases hk⟩

theorem State.vpair_settled (s : State) (n r l : Nat) (hs : s.settled) :
    s.vpair n r l = pairW (s.cur.vraw (r + 1) l) (s.cur.vraw r l) := by
  simp only [State.vpair, s.vreg_settled _ _ _ hs]

theorem State.hretTo_vector (s : State) (a : Nat) (hs : s.settled) (hsel : s.hretSelected = 0)
    (hal : ∀ l, s.cur.iss.has l = true → (pairW (s.cur.vraw (a + 1) l) (s.cur.vraw a l)).toNat % 4 = 0 ∧
      pairW (s.cur.vraw (a + 1) l) (s.cur.vraw a l) ≠ 0) :
    s.HretTo a .vector (fun l => pairW (s.cur.vraw (a + 1) l) (s.cur.vraw a l)) :=
  ⟨hs, by decide, fun l => congrArg some (s.vpair_settled 4 a l hs), hsel, fun l hl => (aligned4_iff _).mpr (hal l hl).1,
    fun _ l hl => (hal l hl).2⟩

/-! ### Handler groups (18 R314; 19 R330, R335) -/

/-- A group whose parked lanes of `m` are live again. -/
def Group.unparkLanes (g : Group) (m : Mask) : Group :=
  { g with live := g.live ||| m, fbin := g.fbin &&& ~~~m, walkPage := g.walkPage.setMany 0 m.has (fun _ => 0) 64 }

/-- A group after its parked lanes of `m` have joined it again, at `dest` when one is given. -/
def Group.rejoin (g : Group) (m : Mask) (dest : Option DWord) : Group :=
  match dest with
  | some x => ((g.unparkLanes (m &&& g.fbin)).giveUpMove (m &&& g.fbin)).setPc (m &&& g.fbin) (fun _ => x)
  | none => g.unparkLanes (m &&& g.fbin)

theorem State.resumeParked_eq (s : State) (gid : Nat) (m : Mask) (dest : Option DWord) :
    s.resumeParked gid m dest = (s.cancelFaults gid m).modGid gid (fun g => g.rejoin m dest) := by
  cases dest <;> rfl

theorem Group.rejoin_frame (g : Group) (m : Mask) (dest : Option DWord) :
    ∃ pc mv xf, g.rejoin m dest = { g.unparkLanes (m &&& g.fbin) with pc := pc, moving := mv, xfer := xf } := by
  cases dest with
  | none => exact ⟨_, _, _, rfl⟩
  | some x =>
    obtain ⟨mv, xf, hg⟩ := (g.unparkLanes (m &&& g.fbin)).giveUpMove_frame (m &&& g.fbin)
    rw [Group.rejoin, hg]
    exact ⟨_, _, _, rfl⟩

theorem Group.rejoin_live (g : Group) (m : Mask) (dest : Option DWord) : (g.rejoin m dest).live = g.live ||| (m &&& g.fbin) := by
  obtain ⟨pc, mv, xf, hg⟩ := g.rejoin_frame m dest
  rw [hg]
  rfl

theorem Group.rejoin_fbin (g : Group) (m : Mask) (dest : Option DWord) : (g.rejoin m dest).fbin = g.fbin &&& ~~~(m &&& g.fbin) := by
  obtain ⟨pc, mv, xf, hg⟩ := g.rejoin_frame m dest
  rw [hg]
  rfl

theorem Group.rejoin_pc (g : Group) (m : Mask) (x : DWord) (j : Nat) (hj : j < 64) :
    (g.rejoin m (some x)).pc.get j = if (m &&& g.fbin).has j then x else g.pc.get j := by
  obtain ⟨mv, xf, hg⟩ := (g.unparkLanes (m &&& g.fbin)).giveUpMove_frame (m &&& g.fbin)
  rw [Group.rejoin, hg]
  exact Group.pc_setPc _ _ _ j hj

theorem State.cancelFaults_cur (s : State) (gid : Nat) (m : Mask) :
    ∃ served, (s.cancelFaults gid m).cur = { s.cur with served := served } := by
  by_cases h : (s.cur.kind == .page) = true
  · exact ⟨_, if_pos h⟩
  · exact ⟨_, if_neg h⟩

theorem State.cancelFaults_groups (s : State) (gid : Nat) (m : Mask) (h : ∀ g ∈ s.groups, g.kind ≠ .page) :
    (s.cancelFaults gid m).groups = s.groups :=
  modAll_of_false _ _ _ (fun g hg => by simpa using h g hg)

/-- `t` is `s` but for what its handler group serves: the group keeps the lanes and the place it has, and memory its bytes. -/
structure State.StillServing (s t : State) : Prop where
  live : t.cur.live = s.cur.live
  fbin : t.cur.fbin = s.cur.fbin
  team : t.cur.team = s.cur.team
  outst : t.cur.outst = s.cur.outst
  mem : t.mem = s.mem

/-- Lanes that are resumed leave a group without parked lanes as it is. -/
theorem State.resumeParked_stillServing (s : State) (gid : Nat) (m : Mask) (dest : Option DWord) (h : s.cur.fbin = 0) :
    s.StillServing (s.resumeParked gid m dest) := by
  obtain ⟨sv, hc⟩ := s.cancelFaults_cur gid m
  have hcur : (s.resumeParked gid m dest).cur =
      if s.cur.gid == gid then Group.rejoin { s.cur with served := sv } m dest else { s.cur with served := sv } := by
    rw [State.resumeParked_eq]
    simp only [State.modGid, State.modContexts, State.modGroups, hc]
  by_cases hgid : (s.cur.gid == gid) = true
  · obtain ⟨pc, mv, xf, hg⟩ := Group.rejoin_frame { s.cur with served := sv } m dest
    rw [if_pos hgid, hg] at hcur
    exact ⟨by rw [hcur]; simp [Group.unparkLanes, h], by rw [hcur]; simp [Group.unparkLanes, h], by rw [hcur]; rfl, by rw [hcur]; rfl, rfl⟩
  · rw [if_neg hgid] at hcur
    exact ⟨by rw [hcur], by rw [hcur], by rw [hcur], by rw [hcur], rfl⟩

/-! ### Lanes that retire (06 R121-R124) -/

theorem State.releaseServed_frame (s : State) (g : Group) (m : Mask) : ∃ o, s.releaseServed g m = { s with owners := o } := by
  unfold State.releaseServed
  simp only
  split
  · exact ⟨_, rfl⟩
  · exact ⟨_, rfl⟩
  · split
    · exact ⟨_, rfl⟩
    · exact ⟨_, rfl⟩
  · exact ⟨_, rfl⟩

theorem State.returnRows_frame (s : State) (g : Group) : ∃ teams, s.returnRows g = { s with teams := teams } := by
  unfold State.returnRows
  split
  · exact ⟨_, rfl⟩
  · exact ⟨_, rfl⟩

theorem State.groupEnd_frame (s : State) : ∃ teams run, s.groupEnd = { s with teams := teams, cur := { s.cur with inRun := run } } := by
  unfold State.groupEnd
  split
  · exact ⟨_, _, rfl⟩
  · obtain ⟨teams, ht⟩ := s.returnRows_frame s.cur
    rw [ht]
    exact ⟨_, _, rfl⟩

theorem State.withdrawLanes_recheck (s : State) (m : Mask) :
    ∃ teams, s.withdrawLanes m = State.recheck { s with teams := teams, cur := s.cur.withdraw m } := ⟨_, rfl⟩

theorem State.withdrawLanes_cur_released (s : State) (m : Mask) (h : s.cur.outst = []) : s.cur.Released (s.withdrawLanes m).cur := by
  obtain ⟨teams, ht⟩ := s.withdrawLanes_recheck m
  rw [ht]
  exact (s.cur.withdraw_released m).trans (State.recheck_cur_released { s with teams := teams, cur := s.cur.withdraw m } h)

theorem State.withdrawLanes_mem (s : State) (m : Mask) : (s.withdrawLanes m).mem = s.mem := State.recheck_mem _

theorem State.withdrawLanes_groups (s : State) (m : Mask) (h : s.cur.team = 0) : (s.withdrawLanes m).groups = s.groups := by
  obtain ⟨teams, ht⟩ := s.withdrawLanes_recheck m
  rw [ht]
  exact State.recheck_groups _ h

theorem Group.yieldCheck_frame (g : Group) : ∃ y, g.yieldCheck = { g with yielded := y } := by
  unfold Group.yieldCheck
  simp only
  split
  · exact ⟨_, rfl⟩
  · exact ⟨_, rfl⟩

/-- A group when the lanes of `m` have left it and it serves nothing for them. -/
def Group.dropOut (g : Group) (m : Mask) : Group :=
  { (g.leave m).yieldCheck with served := (g.leave m).yieldCheck.served.filter (fun v => !(m.has v.lane)) }

theorem Group.dropOut_live (g : Group) (m : Mask) : (g.dropOut m).live = g.live &&& ~~~m := by
  obtain ⟨y, hy⟩ := (g.leave m).yieldCheck_frame
  rw [Group.dropOut, hy]
  rfl

theorem Group.dropOut_team (g : Group) (m : Mask) : (g.dropOut m).team = g.team := by
  obtain ⟨y, hy⟩ := (g.leave m).yieldCheck_frame
  rw [Group.dropOut, hy]
  rfl

theorem Group.dropOut_settled (g : Group) (m : Mask) (h : g.outst = []) : (g.dropOut m).outst = [] := by
  obtain ⟨y, hy⟩ := (g.leave m).yieldCheck_frame
  rw [Group.dropOut, hy]
  simp [Group.leave, h]

/-- A team group leaves handler level with its last handler lane (06 R122). -/
def Group.endHandler (g : Group) : Group :=
  if g.hlv && g.hl == 0 && (g.kind == .team || g.kind == .bin) then g.leaveHandler else g

theorem Group.endHandler_live (g : Group) : g.endHandler.live = g.live := by
  unfold Group.endHandler
  split <;> rfl

theorem State.dropLanes_eq (s : State) (m : Mask) :
    s.dropLanes m = (((((s.releaseServed s.cur m).withdrawLanes m).modCur (fun g => g.dropOut m)).recheck).modCur
      Group.endHandler).groupEnd := by
  simp only [State.dropLanes]
  generalize (s.releaseServed s.cur m).withdrawLanes m = u
  rfl

/-- Lanes that retire change no byte and, in a group outside every team, no other group. -/
theorem State.dropLanes_results (s : State) (m : Mask) (h : s.cur.outst = []) :
    (s.dropLanes m).cur.live = s.cur.live &&& ~~~m ∧ (s.dropLanes m).mem = s.mem ∧
      (s.cur.team = 0 → (s.dropLanes m).groups = s.groups) := by
  obtain ⟨o, ho⟩ := s.releaseServed_frame s.cur m
  have hr := State.withdrawLanes_cur_released { s with owners := o } m h
  have hmem := State.withdrawLanes_mem { s with owners := o } m
  have hgroups := State.withdrawLanes_groups { s with owners := o } m
  rw [s.dropLanes_eq, ho]
  generalize State.withdrawLanes { s with owners := o } m = u at *
  have hr' := (u.modCur (fun g => g.dropOut m)).recheck_cur_released (u.cur.dropOut_settled m (hr.outst.trans h))
  have hmem' := (u.modCur (fun g => g.dropOut m)).recheck_mem
  have hgroups' := (u.modCur (fun g => g.dropOut m)).recheck_groups
  generalize (u.modCur (fun g => g.dropOut m)).recheck = w at *
  obtain ⟨teams, run, he⟩ := (w.modCur Group.endHandler).groupEnd_frame
  rw [he]
  refine ⟨?_, hmem'.trans hmem, fun ht => ?_⟩
  · calc w.cur.endHandler.live = w.cur.live := w.cur.endHandler_live
      _ = (u.cur.dropOut m).live := hr'.live
      _ = u.cur.live &&& ~~~m := u.cur.dropOut_live m
      _ = s.cur.live &&& ~~~m := by rw [hr.live]
  · exact (hgroups' ((u.cur.dropOut_team m).trans (hr.team.trans ht))).trans (hgroups ht)

/-! ### HRET of a handler group -/

/-- The handler lanes of a fault batch resume the parked lanes that their v2:v3 name. -/
def State.resumeBatch (s : State) (a : Nat) (k : HretK) : State :=
  s.cur.iss.lanes.foldl (fun (t : State) i =>
    match s.cur.served.find? (fun v => v.lane == i) with
    | some v => t.resumeParked v.gid (s.vpair 6 2 i &&& ~~~v.cut) (s.hretTarget a k i)
    | none => t) s

/-- What an `HRET` does in a handler group before its lanes retire. -/
def State.serveBatch (s : State) (a : Nat) (k : HretK) : State :=
  if s.cur.kind = .page then
    (s.resumeBatch a k).modCur (fun g => { g with served := g.served.filter (fun v => !(s.cur.iss.has v.lane)) })
  else s

theorem State.hretSlot_eq (s : State) (a : Nat) (k : HretK)
    (hal : ∀ i x, s.cur.iss.has i = true → s.hretTarget a k i = some x → aligned4 x = true) :
    s.hretSlot a k = (((s.serveBatch a k).settle s.cur.iss).dropLanes s.cur.iss).endRun := by
  unfold State.hretSlot State.serveBatch
  simp only
  rw [if_neg]
  · by_cases hk : s.cur.kind = .page
    · simp only [hk, if_true]; rfl
    · simp only [hk, if_false]
  · rintro ⟨-, hany⟩
    obtain ⟨i, hi, hx⟩ := List.any_eq_true.mp hany
    split at hx
    · next x hd => simp [hal i x ((Mask.mem_lanes _ i).mp hi) hd] at hx
    · simp at hx

theorem State.StillServing.trans {s t u : State} (h : s.StillServing t) (h' : t.StillServing u) : s.StillServing u :=
  ⟨h'.live.trans h.live, h'.fbin.trans h.fbin, h'.team.trans h.team, h'.outst.trans h.outst, h'.mem.trans h.mem⟩

theorem State.resumeBatch_stillServing (s : State) (a : Nat) (k : HretK) (h : s.cur.fbin = 0) : s.StillServing (s.resumeBatch a k) :=
  List.foldlRecOn (motive := s.StillServing) _ _ ⟨rfl, rfl, rfl, rfl, rfl⟩ (fun t ht i _ => by
    split
    · exact ht.trans (t.resumeParked_stillServing _ _ _ (ht.fbin.trans h))
    · exact ht)

theorem State.serveBatch_stillServing (s : State) (a : Nat) (k : HretK) (h : s.cur.fbin = 0) : s.StillServing (s.serveBatch a k) := by
  unfold State.serveBatch
  split
  · obtain ⟨hl, hf, ht, ho, hm⟩ := s.resumeBatch_stillServing a k h
    exact ⟨hl, hf, ht, ho, hm⟩
  · exact ⟨rfl, rfl, rfl, rfl, rfl⟩

/-- The issuing lanes of a handler group retire at its `HRET`; the other groups are as its service of parked lanes leaves them. -/
theorem State.hretSlot_results (s : State) (a : Nat) (k : HretK) (hs : s.settled) (hf : s.cur.fbin = 0) (ht : s.cur.team = 0)
    (hal : ∀ i x, s.cur.iss.has i = true → s.hretTarget a k i = some x → aligned4 x = true) :
    (s.hretSlot a k).cur.live = s.cur.live &&& ~~~s.cur.iss ∧ (s.hretSlot a k).mem = s.mem ∧
      (s.hretSlot a k).groups = (s.serveBatch a k).groups := by
  have hsv := s.serveBatch_stillServing a k hf
  obtain ⟨w, hw⟩ := (s.serveBatch a k).settle_settled s.cur.iss (hsv.outst.trans hs)
  rw [s.hretSlot_eq a k hal, hw]
  have hd := State.dropLanes_results { s.serveBatch a k with cur := { (s.serveBatch a k).cur with await := w } } s.cur.iss
    (hsv.outst.trans hs)
  generalize State.dropLanes _ s.cur.iss = t at hd ⊢
  obtain ⟨hlive, hmem, hgroups⟩ := hd
  exact ⟨hlive.trans (congrArg (· &&& ~~~s.cur.iss) hsv.live), hmem.trans hsv.mem, hgroups (hsv.team.trans ht)⟩

/-- One handler lane that serves the parked lanes of the one other group: those its v2:v3 names and whose service stands join it again. -/
theorem State.serveBatch_groups (s : State) (a l : Nat) (k : HretK) (v : Served) (g : Group) (hs : s.settled) (hk : s.cur.kind = .page)
    (hi : s.cur.iss = Mask.one l) (hl : l < 64) (hv : s.cur.served = [v]) (hvl : v.lane = l) (hg : s.groups = [g])
    (hgid : g.gid = v.gid) (hgk : g.kind = .team) :
    (s.serveBatch a k).groups =
      [g.rejoin (pairW (s.cur.vraw 3 l) (s.cur.vraw 2 l) &&& ~~~v.cut) (s.hretTarget a k l)] := by
  have hpair := s.vpair_settled 6 2 l hs
  have hone : s.resumeBatch a k =
      s.resumeParked v.gid (pairW (s.cur.vraw 3 l) (s.cur.vraw 2 l) &&& ~~~v.cut) (s.hretTarget a k l) := by
    simp [State.resumeBatch, hi, Mask.lanes_one l hl, hv, hvl, hpair]
  have hcancel := s.cancelFaults_groups v.gid (pairW (s.cur.vraw 3 l) (s.cur.vraw 2 l) &&& ~~~v.cut) (by simp [hg, hgk])
  rw [State.serveBatch, if_pos hk, hone, State.resumeParked_eq]
  show modAll _ _ (State.cancelFaults s v.gid _).groups = _
  rw [hcancel, hg]
  simp [modAll, hgid]

end Sys2Proof.Machine

open Sys2Proof Sys2Proof.Machine

/-- Settles O23: each form of `HRET` by the rule of its kind of group. -/
theorem handlerReturnResults : Obligations.HandlerReturnResults := by
  unfold Obligations.HandlerReturnResults
  constructor
  · intro s h a hs hg hk
    refine ⟨fun hv ha hal => ?_, fun hv hh ho => ?_, fun hv hsel ha hsr hal => ?_, fun hv hsel ha hvr hal => ?_, fun hc => ?_⟩
    · have ht := s.hretTeam_saved a hs ha (fun l => by simpa only [aligned4_iff] using hal l)
      refine ⟨_, exec_hret_team h a .saved s rfl hg hv hk, fun l hl => ?_, by rw [ht]⟩
      rw [ht]
      exact Group.pc_setPc s.cur s.cur.iss s.cur.savedPc.get l hl
    · rintro ⟨l, hl, hm⟩
      exact ⟨_, exec_hret_team h a .saved s rfl hg hv hk,
        s.hretTeam_saved_misaligned a l hs hv hh ho hl (by simpa [aligned4] using hm)⟩
    · obtain ⟨hlv, hhl, hlive, hvr, hmem, hpc⟩ := (s.hretTo_uniform a hs hsel hal).results
      exact ⟨_, exec_hret_team h a .uniform s (Group.sPairOk_of_le _ ha hsr) hg hv hk, hlv, hhl, hlive, hvr, hmem,
        fun l hl hi hb hw => hpc l hl hi ⟨hb, hw⟩⟩
    · obtain ⟨hlv, hhl, hlive, hvs, hmem, hpc⟩ := (s.hretTo_vector a hs hsel hal).results
      exact ⟨_, exec_hret_team h a .vector s (Group.vPairOk_of_le _ ha hvr) hg hv hk, hlv, hhl, hlive, hvs, hmem,
        fun l hl hi hb hw => hpc l hl hi ⟨hb, hw⟩⟩
    · exact ⟨_, exec_hret_notAtHandler h a .saved s rfl hg hc.1, s.raise_took .illegalOp _ _ hc⟩
  · intro s h a l v g hs hg hv ht hf hk
    obtain ⟨hlive, hmem, hgroups⟩ := s.hretSlot_results a .saved hs hf ht (fun _ _ _ hd => by cases hd)
    refine ⟨⟨_, exec_hret_slot h a .saved s rfl hg hv hk, hlive, hmem⟩, ?_⟩
    intro hp hi hl hsv hvl hgs hgid _ hgk _ ha hsr
    have hserved := fun k => s.serveBatch_groups a l k v g hs hp hi hl hsv hvl hgs hgid hgk
    refine ⟨⟨_, _, exec_hret_slot h a .saved s rfl hg hv hk, hgroups.trans (hserved .saved), rfl,
      g.rejoin_live _ none, g.rejoin_fbin _ none⟩, fun hal => ?_⟩
    obtain ⟨-, -, hgroups⟩ := s.hretSlot_results a .uniform hs hf ht (fun _ x _ hd =>
      (aligned4_iff x).mpr (Option.some.inj hd ▸ hal))
    exact ⟨_, _, exec_hret_slot h a .uniform s (Group.sPairOk_of_le _ ha hsr) hg hv hk, hgroups.trans (hserved .uniform),
      g.rejoin_live _ _, fun j hj => g.rejoin_pc _ _ j hj⟩
end

section
/-! PROOF. Affine lane values (O54) and the waits of a word (O19). -/

namespace Sys2Proof.Machine

/-! ## Affine registers (02 R34) -/

theorem Group.affine_eq_ofInt (g : Group) (x l : Nat) :
    g.affine x l = BitVec.ofInt 64 ((g.xb.get x).toInt + (l : Int) * (g.xs.get x).toInt) := by
  have hbase : BitVec.ofInt 64 (g.xb.get x).toInt = g.xb.get x := BitVec.ofInt_toInt
  have hlane : BitVec.ofInt 64 (l : Int) = BitVec.ofNat 64 l := BitVec.ofInt_natCast 64 l
  rw [BitVec.ofInt_add, BitVec.ofInt_mul, hbase, hlane]
  rfl

end Sys2Proof.Machine

open Sys2Proof Sys2Proof.Machine

/-- Settles O54: the affine value over the integers, and the rule of a lane-set word that writes v(d). -/
theorem affineLaneValues : Obligations.AffineLaneValues := by
  unfold Obligations.AffineLaneValues
  intro s h d x
  refine ⟨s.cur.affine_eq_ofInt x, fun hs hd => ⟨_, rfl, ?_⟩⟩
  exact s.laneAlu_wroteV h _ d _ 4 hs (decide_eq_true hd)
end

section
/-! PROOF. The words that yield, sleep and fence (O19). -/

namespace Sys2Proof.Machine

/-! ## Sets of lanes -/

theorem Mask.ext_has {a b : Mask} (h : ∀ l, l < 64 → a.has l = b.has l) : a = b :=
  BitVec.eq_of_getLsbD_eq h

theorem Mask.has_andNot (a b : Mask) (l : Nat) : (a &&& ~~~b).has l = (a.has l && !(b.has l)) := by
  by_cases hl : l < 64
  · rw [Mask.has_and, Mask.has_not b l hl]
  · have ha : a.has l = false := Bool.eq_false_iff.mpr (fun h => hl (Mask.has_lt a l h))
    rw [Mask.has_and, ha, Bool.false_and, Bool.false_and]

/-- No lane of `a` is outside `b`. -/
theorem Mask.andNot_eq_zero {a b : Mask} : a &&& ~~~b = 0 ↔ ∀ l, a.has l = true → b.has l = true := by
  constructor
  · intro h l hl
    have hz : (a &&& ~~~b).has l = false := by rw [h, Mask.has_zero]
    rw [Mask.has_andNot, hl, Bool.true_and] at hz
    simpa only [Bool.not_eq_eq_eq_not, Bool.not_false] using hz
  · intro h
    refine Mask.ext_has (fun l _ => ?_)
    rw [Mask.has_andNot, Mask.has_zero]
    cases ha : a.has l with
    | false => rfl
    | true => rw [h l ha]; rfl

theorem Mask.eq_of_andNot {a b : Mask} (h : a &&& ~~~b = 0) (h' : b &&& ~~~a = 0) : a = b :=
  Mask.ext_has (fun l _ => Bool.eq_iff_iff.mpr ⟨Mask.andNot_eq_zero.mp h l, Mask.andNot_eq_zero.mp h' l⟩)

/-! ## VYIELD (02 R22) -/

/-- The lanes of `m`, the first of their group to yield, wait for its other live lanes, unless there are none. -/
theorem Group.yieldCheck_first (g : Group) (m : Mask) (hy : g.yielded = m) (hm : m &&& ~~~g.live = 0)
    (hr : ∀ l, l < 64 → m.has l = true → g.yrem.get l = g.live &&& ~~~m) :
    g.yieldCheck = { g with yielded := if m = g.live then 0 else m } := by
  have hothers : g.live &&& ~~~m &&& g.live = g.live &&& ~~~m := by
    rw [BitVec.and_comm, ← BitVec.and_assoc, BitVec.and_self]
  have hstill : Mask.ofFn (fun i => g.yielded.has i && (g.yrem.get i &&& g.live != 0)) 64 = if m = g.live then 0 else m := by
    refine Mask.ext_has (fun l hl => ?_)
    rw [Mask.has_ofFn _ _ _ (by decide), hy, decide_eq_true hl, Bool.true_and]
    by_cases hml : m.has l = true
    · rw [hr l hl hml, hothers, hml, Bool.true_and]
      by_cases he : m = g.live
      · rw [if_pos he, he, BitVec.and_not_self, Mask.has_zero]
        rfl
      · rw [if_neg he, hml]
        exact bne_iff_ne.mpr (fun h => he (Mask.eq_of_andNot hm h))
    · rw [Bool.eq_false_iff.mpr hml, Bool.false_and]
      split
      · exact (Mask.has_zero l).symm
      · exact (Bool.eq_false_iff.mpr hml).symm
  unfold Group.yieldCheck
  rw [hstill]
  by_cases he : m = g.live <;> simp [he]

/-- A group without yields whose lanes of `m` execute a `VYIELD`. -/
theorem Group.yield_first (g : Group) (m : Mask) (hy : g.yielded = 0) (hl : g.hlv = false) (hm : m &&& ~~~g.live = 0) :
    Group.yieldCheck { g with
      yielded := g.yielded ||| m, yrem := g.yrem.setMany 0 m.has (fun _ => g.live &&& ~~~g.held &&& ~~~m) 64 } =
    { g with yielded := if m = g.live then 0 else m, yrem := g.yrem.setMany 0 m.has (fun _ => g.live &&& ~~~m) 64 } := by
  have hheld : g.live &&& ~~~g.held = g.live := by
    rw [Group.held, hl]
    exact (congrArg (g.live &&& ·) BitVec.not_zero).trans BitVec.and_allOnes
  have hyielded : g.yielded ||| m = m := by rw [hy]; exact BitVec.zero_or
  rw [hheld]
  refine Group.yieldCheck_first { g with
    yielded := g.yielded ||| m, yrem := g.yrem.setMany 0 m.has (fun _ => g.live &&& ~~~m) 64 } m hyielded hm (fun l hl hml => ?_)
  simpa [hl, hml] using SMap.get_setMany g.yrem 0 m.has (fun _ => g.live &&& ~~~m) 64 l

theorem exec_vyield (s : State) (h : Hdr) (hs : s.settled) (hy : s.cur.yielded = 0) (hl : s.cur.hlv = false)
    (ha : s.active h &&& ~~~s.cur.live = 0) :
    exec (.vyield h) s = .next { s with cur := { s.cur with
      pc := (s.cur.setPc s.cur.iss (fun _ => s.cur.ipc + BitVec.ofNat 64 4)).pc
      yielded := if s.active h = s.cur.live then 0 else s.active h
      yrem := s.cur.yrem.setMany 0 (s.active h).has (fun _ => s.cur.live &&& ~~~s.active h) 64 } } := by
  have hg := (s.cur.setPc s.cur.iss (fun _ => s.cur.ipc + BitVec.ofNat 64 4)).yield_first (s.active h) hy hl ha
  show Host.Outcome.next (State.modCur (s.goOn s.cur.iss 4) _) = _
  rw [State.goOn_settled _ _ _ hs]
  exact congrArg (fun g => Host.Outcome.next { s with cur := g }) hg

/-! ## WAITT (06 R127) -/

theorem exec_waitt (s : State) (h : Hdr) (a : Nat) (hok : s.cur.sPairOk a = true) :
    exec (.waitt h a) s = .next (
      if s.uguard h = false ∨ (s.cur.spair a).toNat ≤ s.cyc.toNat then s.goOn s.cur.iss 4
      else { s with cur := { s.cur with
        asleep := s.cur.asleep ||| s.cur.iss, deadline := s.cur.deadline.setMany 0 s.cur.iss.has (fun _ => s.cur.spair a) 64 } }) := by
  show Host.Outcome.next _ = _
  simp [hok, State.modCur]

/-! ## FENCE (14 R261) -/

/-- A load that an acquiring fence over `p` waits for: one of the issue set on a path it covers, no frame data. -/
def Group.fenced (g : Group) (p : PathMask) (e : OutRes) : Bool := g.iss.has e.lane && !e.frame && pathCovers p e.path

theorem exec_fence (s : State) (h : Hdr) (p : PathMask) (k : FenceK) (sc : Scope) :
    exec (.fence h p k sc) s = .next (
      if s.uguard h = true ∧ k ≠ .rel then (s.modCur (fun g => g.deliverIf s.freeCtr (g.fenced p))).goOn s.cur.iss 4
      else s.goOn s.cur.iss 4) := by
  show Host.Outcome.next _ = _
  simp only [Bool.and_eq_true, bne_iff_ne]
  rfl

theorem pathCovers_iff (p : PathMask) (path : Nat) :
    pathCovers p path = true ↔ path = 0 ∨ (path = 1 ∧ p.code % 2 = 1) ∨ (2 ≤ path ∧ 4 ≤ p.code) := by
  simp [pathCovers, or_assoc]

/-! ## Registers, PCs and windows when results are delivered (02 R29, R30) -/

theorem Group.deliver_frame (ctr : Nat) (g : Group) (e : OutRes) : ∃ v p, g.deliver ctr e = { g with v := v, p := p } := by
  unfold Group.deliver
  simp only
  split
  · exact ⟨_, _, rfl⟩
  · split
    · exact ⟨_, _, rfl⟩
    · exact ⟨_, _, rfl⟩

theorem Group.deliverIf_frame (ctr : Nat) (g : Group) (p : OutRes → Bool) :
    ∃ v q, g.deliverIf ctr p = { g with v := v, p := q, outst := g.outst.filter (fun e => !p e) } := by
  have hfold : ∀ l : List OutRes, ∃ v q, l.foldl (Group.deliver ctr) g = { g with v := v, p := q } := fun l =>
    List.foldlRecOn (motive := fun u : Group => ∃ v q, u = { g with v := v, p := q }) l _ ⟨_, _, rfl⟩ (fun u hu e _ => by
      obtain ⟨v, q, rfl⟩ := hu
      exact Group.deliver_frame ctr _ e)
  obtain ⟨v, q, hl⟩ := hfold (g.outst.filter p)
  rw [Group.deliverIf, hl]
  exact ⟨v, q, rfl⟩

/-- The window of a result once its lane has completed an instruction, when that lane is in `m`. -/
def OutRes.count (m : Mask) (e : OutRes) : OutRes := if m.has e.lane = true then { e with left := e.left - 1 } else e

theorem Group.complete_frame (ctr : Nat) (g : Group) (m : Mask) :
    ∃ v q, g.complete ctr m = { g with
      v := v, p := q, outst := (g.outst.map (OutRes.count m)).filter (fun e => !(m.has e.lane && e.early)) } :=
  Group.deliverIf_frame ctr { g with outst := g.outst.map (OutRes.count m) } _

theorem OutRes.count_same (m : Mask) (e : OutRes) :
    (e.count m).lane = e.lane ∧ (e.count m).frame = e.frame ∧ (e.count m).path = e.path := by
  unfold OutRes.count
  split <;> exact ⟨rfl, rfl, rfl⟩

/-- Every result outstanding after lanes have gone on was so before, but for its window. -/
theorem State.goOn_outst (s : State) (m : Mask) (len : Nat) : ∀ e ∈ (s.goOn m len).cur.outst, ∃ e' ∈ s.cur.outst, e = e'.count m := by
  obtain ⟨v, q, hc⟩ := s.cur.complete_frame s.freeCtr m
  intro e he
  have he : e ∈ (s.cur.complete s.freeCtr m).outst := he
  rw [hc] at he
  obtain ⟨e', he', rfl⟩ := List.mem_map.mp (List.mem_filter.mp he).1
  exact ⟨e', he', rfl⟩

theorem State.goOn_pc (s : State) (m : Mask) (len l : Nat) (hl : l < 64) :
    (s.goOn m len).cur.pc.get l = if m.has l then s.cur.ipc + BitVec.ofNat 64 len else s.cur.pc.get l := by
  obtain ⟨v, q, hc⟩ := s.cur.complete_frame s.freeCtr m
  rw [State.goOn, hc]
  exact Group.pc_setPc _ m _ l hl

end Sys2Proof.Machine

open Sys2Proof Sys2Proof.Machine

/-- Settles O19: `VYIELD` by what it leaves yielded, `WAITT` by its two outcomes, a fence by the results it delivers. -/
theorem waitAndFenceResults : Obligations.WaitAndFenceResults := by
  unfold Obligations.WaitAndFenceResults
  constructor
  · intro s h a hs
    refine ⟨fun hy hl ha => ?_, fun he hr hg hd => ?_, fun he hr hoff => ?_⟩
    · refine ⟨_, exec_vyield s h hs hy hl ha, fun l => Group.pc_setPc s.cur s.cur.iss _ l, rfl, fun l hl hal => ?_, rfl⟩
      simpa [hl, hal] using SMap.get_setMany s.cur.yrem 0 (s.active h).has (fun _ => s.cur.live &&& ~~~s.active h) 64 l
    · refine ⟨_, (exec_waitt s h a (Group.sPairOk_of_le _ he hr)).trans (congrArg _ (if_neg (by simp [hg, hd]))), fun l hl => ?_, rfl⟩
      simpa [hl] using SMap.get_setMany s.cur.deadline 0 s.cur.iss.has (fun _ => s.cur.spair a) 64 l
    · exact ⟨_, (exec_waitt s h a (Group.sPairOk_of_le _ he hr)).trans (congrArg _ (if_pos hoff)), s.onlyWentOn_goOn 4 hs⟩
  · intro s h p k sc
    refine ⟨fun hs => ⟨_, exec_fence s h p k sc, ?_⟩, fun hg hk => ?_⟩
    · have hnone : s.modCur (fun g => g.deliverIf s.freeCtr (g.fenced p)) = s := by
        rw [State.modCur, Group.deliverIf_settled _ _ _ hs]
      rw [hnone, ite_self]
      exact s.onlyWentOn_goOn 4 hs
    · obtain ⟨v, q, hd⟩ := s.cur.deliverIf_frame s.freeCtr (s.cur.fenced p)
      refine ⟨_, (exec_fence s h p k sc).trans (congrArg _ (if_pos ⟨hg, hk⟩)), fun l hl => ?_, rfl, fun e he hi hf => ?_⟩
      · rw [State.goOn_pc _ _ _ l hl, State.modCur, hd]
      · obtain ⟨e', he', rfl⟩ := State.goOn_outst _ _ _ e he
        obtain ⟨hlane, hframe, hpath⟩ := e'.count_same s.cur.iss
        rw [State.modCur, hd] at he'
        rw [hlane] at hi
        rw [hframe] at hf
        have hleft : s.cur.fenced p e' = false := by simpa using (List.mem_filter.mp he').2
        have hcov : ¬ (pathCovers p e'.path = true) := by simpa [Group.fenced, hi, hf] using hleft
        rw [pathCovers_iff] at hcov
        rw [hpath]
        omega
end

section
/-! PROOF. Control instructions and the end of a run (O53). -/

namespace Sys2Proof.Laws.Encoding

/-- Every constructor of `Instr` decodes from its encoding: the laws of the constructors, put together in their order. -/
theorem statement (i : Instr) : Statement i :=
  Instr.rec (motive := Statement)
    vadd vsub vmul vmad vand vor vxor vandn vshl vshr vmin vmax vaddi vshi vmovi vmov vnot vneg vabs vpopc vclz vbrev vsext8 vsext16
    vfadd vfsub vfmul vfma vfmin vfmax vfabs vfneg vfrint vfcls vfscl vmovl vcvt vcvt6 vqnt vdqnt vpkh vupkh vcmpeq vcmpne vcmplt vcmple
    vsel plog pmov vshfl vshflx vshflu vshfld vballot vred vaff vbcast vld vldnf vst vldn vstn vatadd vatmm vatbit vcas vldxW vldxD
    vstxW vstxD vldf vtrd vtwr vtaddF32 vtmaxF32 vyield vbr vjtab vcall vcallx vret vsusp vspawn vexit vrcp vrsq vsqrt vexp2 vlog2 vtanh
    vdiv sadd ssub smul sand sor sxor sshl sshr smin smax saddi smovi smovl smov snot spopc sclz sreadl slui xset xaddb xaddbi xstr xget
    xadd xmuls scmpeq scmpne scmplt scmple qlog qany qmov bra brx barg bar fence nop end_ waitt launch fork rdv cpy cpyw rbind rpub
    rwaitf steep meas trap cbegin cend tlbw tlbi pgreq framea framef migr csrr csrw hret halto discard bincfg binwake binflush binq
    frameld tbind tzero tcolop tload tstore tacc reservedOpcode mxcfg mxzero mxwait mxrel mxmma mxdrain mxloop mxsig mxfence mxend
    mxIllegalCommand copy copyAead fill post bcast sig promise stpFill stpAddF32 stpScale stpMaxfold stpSumx stpCvt stpXsum runStart
    reset spStart meWake forcedRunBoundary memoryResult vldfDelivery waittDeadline gtcmpMatch promiseMissed flushTimer binLaunch
    caskRefill missQueued walkHandlerLaunch pageHandlerLaunch requestHandlerLaunch haltRecord trapRecord syscallSlotPoll teamPlacement
    gangStart gangAgeing launchAccept teamRetire gridCompletion receiptWrite preemption bankSwap contextSpill contextFill teamEviction
    teamRestore rackingEnd peerLost portDown flitReceive peerAccess packetReceive keyRegisterLoad hostCompletion completionTimeout
    keySetErase lockWalker lq reply hatom registerPageWrite lockedRegisterWrite telemetryRead lockInterface startInterface stopInterface
    kSetGo spdmRequest createOwner destroyOwner grant quota peer slotAssign diag logRead setReceiptRing keyPut allow worldShare
    fusedMinimumRaise regulatorSetting kilnLockstepMismatch rowRemap bondSteering coreRetire governorStep currentClamp thermtrip i

/-- A well-formed word decodes to its instruction, with the literal it has (03 R38, R44). -/
theorem decodeWord_encode {i : Instr} {h : Hdr} {w : Nat} {rest : List Nat} (hwf : i.wf = true) (hh : Machine.wordHdr i = some h)
    (he : encode i = w :: rest) : ∃ lit, decodeWord w lit = .ok i := by
  obtain ⟨hword, -⟩ := statement i hwf
  obtain ⟨w', rest', he', -, hd⟩ := hword h hh
  obtain ⟨rfl, rfl⟩ := List.cons.inj (he.symm.trans he')
  exact ⟨_, hd 0⟩

end Sys2Proof.Laws.Encoding

namespace Sys2Proof

/-! ## What a decoder can answer -/

/-- Every instruction that the decoder's answer gives has `P`. -/
def Decodes (P : Instr → Prop) (r : Except DecodeError Instr) : Prop := ∀ i, r = .ok i → P i

theorem decodes_ok (P : Instr → Prop) (i : Instr) : Decodes P (.ok i) ↔ P i :=
  ⟨fun h => h i rfl, fun h _ hi => Except.ok.inj hi ▸ h⟩

theorem decodes_error (P : Instr → Prop) (e : DecodeError) : Decodes P (.error e) ↔ True :=
  iff_true_intro (fun _ hi => by cases hi)

theorem decodes_need (P : Instr → Prop) (c : Bool) (e : DecodeError) (r : Except DecodeError Instr) :
    Decodes P (need c e r) ↔ (c = true → Decodes P r) := by
  cases c with
  | false => exact iff_of_true ((decodes_error P e).mpr trivial) (fun hc => by cases hc)
  | true => exact ⟨fun h _ => h, fun h => h rfl⟩

theorem decodes_sub {α : Type} (P : Instr → Prop) (o : Option α) (e : DecodeError) (f : α → Except DecodeError Instr) :
    Decodes P (sub o e f) ↔ ∀ a, o = some a → Decodes P (f a) := by
  cases o with
  | none => exact iff_of_true ((decodes_error P e).mpr trivial) (fun _ ha => by cases ha)
  | some a => exact ⟨fun h _ ha => Option.some.inj ha ▸ h, fun h => h a rfl⟩

/-! ## Control instructions (02 R25) -/

/-- The instruction is a control instruction when `c` holds, and only then. -/
def ControlIff (c : Prop) (i : Instr) : Prop := Machine.isControl i = true ↔ c

theorem decodeLaneFam0F_control (h : Hdr) (w b : Nat) : Decodes (ControlIff False) (decodeLaneFam0F h w b) := by
  unfold decodeLaneFam0F
  split <;> simp [decodes_need, decodes_ok, decodes_error, ControlIff, Machine.isControl]

theorem decodeLaneFam16_control (h : Hdr) (w b : Nat) : Decodes (ControlIff False) (decodeLaneFam16 h w b) := by
  unfold decodeLaneFam16
  split <;> simp [decodes_sub, decodes_ok, decodes_error, ControlIff, Machine.isControl]

theorem decodeUniFam0D_control (h : Hdr) (w b : Nat) : Decodes (ControlIff False) (decodeUniFam0D h w b) := by
  unfold decodeUniFam0D
  split <;> simp [decodes_need, decodes_ok, decodes_error, ControlIff, Machine.isControl]

/-- OP of the control instructions in the lane set. -/
def laneControlOp (op : Nat) : Prop := 0x57 ≤ op ∧ op ≤ 0x5F

/-- OP of the control instructions in the uniform set. -/
def uniControlOp (op : Nat) : Prop :=
  (0x20 ≤ op ∧ op ≤ 0x23) ∨ (0x26 ≤ op ∧ op ≤ 0x28) ∨ (0x40 ≤ op ∧ op ≤ 0x42) ∨ op = 0x4B ∨ op = 0x4C

theorem decodeLane_control (h : Hdr) (w lit op : Nat) : Decodes (ControlIff (laneControlOp op)) (decodeLane h w lit op) := by
  unfold decodeLane
  split <;> simp [laneControlOp, decodes_need, decodes_sub, decodes_ok, decodes_error, decodeLaneFam0F_control, decodeLaneFam16_control,
    ControlIff, Machine.isControl]

theorem decodeUni_control (h : Hdr) (w lit op : Nat) : Decodes (ControlIff (uniControlOp op)) (decodeUni h w lit op) := by
  unfold decodeUni
  split <;> simp [uniControlOp, decodes_need, decodes_sub, decodes_ok, decodes_error, decodeUniFam0D_control, ControlIff, Machine.isControl]

/-- S and OP of a word say whether it is a control instruction (02 R25). -/
theorem isControl_of_decodeWord {w lit : Nat} {i : Instr} (hd : decodeWord w lit = .ok i) :
    Machine.isControl i = true ↔
      (fld w 31 1 = 0 ∧ laneControlOp (fld w 20 7)) ∨ (fld w 31 1 = 1 ∧ uniControlOp (fld w 20 7)) := by
  unfold decodeWord at hd
  by_cases hs : fld w 31 1 = 0
  · rw [if_pos hs] at hd
    simpa [hs, ControlIff] using decodeLane_control _ w lit _ i hd
  · have hs1 : fld w 31 1 = 1 := by
      have : fld w 31 1 < 2 := Nat.mod_lt _ (by decide)
      omega
    rw [if_neg hs] at hd
    simpa [hs1, ControlIff] using decodeUni_control _ w lit _ i hd

end Sys2Proof

namespace Sys2Proof.Machine

/-! ## The clock (19 R347; 13 R217) -/

theorem Group.timerCheck_frame (g : Group) : ∃ tmp armed, g.timerCheck = { g with tmp := tmp, armed := armed } := by
  unfold Group.timerCheck
  split
  · exact ⟨_, _, rfl⟩
  · exact ⟨_, _, rfl⟩

theorem Group.tick_frame (g : Group) (d : Nat) (waits : Bool) (cyc : DWord) : ∃ clk tmr tmp armed,
    g.tick d waits cyc = { g with waitClk := clk, gtmr := tmr, tmp := tmp, armed := armed } := by
  have hclk : ∃ clk, (if waits then g else { g with waitClk := cyc.toNat }) = { g with waitClk := clk } := by
    cases waits
    · exact ⟨_, rfl⟩
    · exact ⟨_, rfl⟩
  obtain ⟨clk, hclk⟩ := hclk
  unfold Group.tick
  rw [hclk]
  simp only
  split
  · exact ⟨clk, _, _, _, rfl⟩
  · obtain ⟨tmp, armed, ht⟩ := Group.timerCheck_frame { g with waitClk := clk, gtmr := g.gtmr + BitVec.ofNat 64 d }
    exact ⟨clk, _, tmp, armed, ht⟩

/-- Time moves a group's timer and the clk from which it waits for the picker, and nothing else of it. -/
theorem State.stepDone_cur (s : State) (g : Group) (h : ∃ clk, s.cur = { g with waitClk := clk }) : ∃ clk tmr tmp armed,
    s.stepDone.cur = { g with waitClk := clk, gtmr := tmr, tmp := tmp, armed := armed } := by
  obtain ⟨_, hc⟩ := h
  obtain ⟨clk, tmr, tmp, armed, ht⟩ := s.cur.tick_frame _ _ _
  rw [hc] at ht
  exact ⟨clk, tmr, tmp, armed, (congrArg (fun u : Group => u.tick _ _ _) hc).trans ht⟩

theorem State.stepDone_mem (s : State) : s.stepDone.mem = s.mem := rfl

/-! ## After a word (02 R24, R26) -/

/-- What becomes of the run of a group whose word `i` has been executed: it ends when all its lanes have parked, stays before a word that
all of them wait at, else goes on behind the word or ends after it. -/
def Group.endWord (g : Group) (cyc : DWord) (i : Instr) : Group :=
  if g.iss = 0 then { g with inRun := false }
  else if g.stalls then { g with stall := some (g.stall.getD cyc) }
  else g.runOn i

theorem Group.pickerClk_frame (g : Group) (n : Nat) : ∃ clk, (if g.inRun then g else { g with waitClk := n }) = { g with waitClk := clk } := by
  split
  · exact ⟨_, rfl⟩
  · exact ⟨_, rfl⟩

theorem State.afterWord_cur (t : State) (sp clk : Nat) (i : Instr) (hr : t.cur.inRun = true) : ∃ w tmr tmp armed,
    (t.afterWord t.cur.gid sp clk i).cur = { t.cur.endWord t.cyc i with waitClk := w, gtmr := tmr, tmp := tmp, armed := armed } := by
  have hword : (if t.cur.iss = 0 then t.endRun
      else if t.cur.stalls then t.modCur (fun g => { g with stall := some (g.stall.getD t.cyc) })
      else t.modCur (fun g => g.runOn i)) = t.modCur (fun g => g.endWord t.cyc i) := by
    simp only [State.modCur, Group.endWord]
    split
    · rfl
    · split <;> rfl
  rw [State.afterWord, if_pos ⟨rfl, hr⟩, hword]
  exact State.stepDone_cur _ _ (Group.pickerClk_frame _ t.cyc.toNat)

theorem State.afterWord_mem (t : State) (gid sp clk : Nat) (i : Instr) : (t.afterWord gid sp clk i).mem = t.mem := by
  simp only [State.afterWord, State.stepDone_mem, State.modSp_mem, State.touchPort_mem]
  split
  · split
    · rfl
    · split <;> rfl
  · rfl

theorem Group.endWord_parked (g : Group) (cyc : DWord) (i : Instr) (hi : g.iss = 0) : g.endWord cyc i = { g with inRun := false } :=
  if_pos hi

theorem Group.endWord_stalls (g : Group) (cyc : DWord) (i : Instr) (hi : g.iss ≠ 0) (hw : g.stalls = true) :
    g.endWord cyc i = { g with stall := some (g.stall.getD cyc) } := (if_neg hi).trans (if_pos hw)

theorem Group.endWord_done (g : Group) (cyc : DWord) (i : Instr) (hi : g.iss ≠ 0) (hw : g.stalls = false) :
    g.endWord cyc i = g.runOn i := (if_neg hi).trans (if_neg (by simp [hw]))

theorem Group.endWord_keeps (g : Group) (cyc : DWord) (i : Instr) :
    (g.endWord cyc i).pc = g.pc ∧ (g.endWord cyc i).v = g.v ∧ (g.endWord cyc i).s = g.s := by
  by_cases hi : g.iss = 0
  · rw [g.endWord_parked cyc i hi]
    exact ⟨rfl, rfl, rfl⟩
  · cases hw : g.stalls with
    | true =>
      rw [g.endWord_stalls cyc i hi hw]
      exact ⟨rfl, rfl, rfl⟩
    | false =>
      rw [g.endWord_done cyc i hi hw]
      exact ⟨rfl, rfl, rfl⟩

theorem Group.runOn_run (g : Group) (i : Instr) (h : Hdr) (hr : g.inRun = true) (hh : wordHdr i = some h) :
    (g.runOn i).inRun = !(h.e || isControl i || decide (24 ≤ g.runLen + wordCount i)) := by
  simp [Group.runOn, hh, hr]

end Sys2Proof.Machine

open Sys2Proof Sys2Proof.Machine

/-- Settles O53: the control words from S and OP of what decodes, the end of a run from what a word leaves of it. -/
theorem controlInstructionsEndRuns : Obligations.ControlInstructionsEndRuns := by
  unfold Obligations.ControlInstructionsEndRuns
  constructor
  · intro i h w rest hwf hh he
    obtain ⟨lit, hd⟩ := Laws.Encoding.decodeWord_encode hwf hh he
    exact isControl_of_decodeWord hd
  · rintro t _ sp clk i h hr hh rfl
    obtain ⟨w, tmr, tmp, armed, hu⟩ := t.afterWord_cur sp clk i hr
    obtain ⟨hpc, hv, hs⟩ := t.cur.endWord_keeps t.cyc i
    rw [hu]
    refine ⟨fun hi => ?_, fun hi hw => ?_, fun hi hw => ?_, hpc, hv, hs, t.afterWord_mem _ _ _ _⟩
    · rw [t.cur.endWord_parked t.cyc i hi]
      exact ⟨rfl, rfl⟩
    · rw [t.cur.endWord_stalls t.cyc i hi hw]
      exact ⟨hr, rfl, rfl⟩
    · rw [t.cur.endWord_done t.cyc i hi hw]
      exact ⟨t.cur.runOn_run i h hr hh, rfl, rfl⟩
end

section
/-! PROOF. The turn of an SP that runs a word (O58). -/

namespace Sys2Proof

/-! ## The word that bytes give (03 R39, R44) -/

theorem leField_all (bs : List (BitVec 8)) (n : Nat) (h : bs.length = n) : leField bs 0 n = leNat bs := by
  simp [leField, ← h]

theorem decodeIssued_of_decodeWord {w lit : Nat} {i : Instr} (h : decodeWord w lit = .ok i) : decodeIssued w lit = i := by
  simp [decodeIssued, h]

/-- The instruction at the head of a list of bytes is the one its first two words decode to. -/
theorem decodeWord_of_decodeBytes {bs rest : List (BitVec 8)} {i : Instr} (h : decodeBytes bs = .ok (i, rest)) :
    decodeWord (leField bs 0 4) (leField bs 4 4) = .ok i := by
  unfold decodeBytes at h
  split at h
  · cases h
  · split at h
    · cases h
    · next hd => rw [hd]; cases h; rfl
    · next hd => rw [hd]; cases h; rfl
    · next hd => rw [hd]; cases h; rfl

end Sys2Proof

namespace Sys2Proof.Machine

theorem Memory.bytes_append (m : Memory) (a n k : Nat) : Memory.bytes m a (n + k) = Memory.bytes m a n ++ Memory.bytes m (a + n) k := by
  induction n generalizing a with
  | zero => simp [Memory.bytes]
  | succ n ih =>
    rw [Nat.succ_add, Memory.bytes, Memory.bytes, ih, List.cons_append, Nat.add_assoc a 1 n, Nat.add_comm 1 n]

/-- One word of memory decodes without a literal. -/
theorem decodeIssued_bytes_one {m : Memory} {k : Nat} {i : Instr} (h : decodeBytes (Memory.bytes m k 4) = .ok (i, [])) :
    decodeIssued (leNat (Memory.bytes m k 4)) 0 = i := by
  have hw := leField_all (Memory.bytes m k 4) 4 (Memory.bytes_length m k 4)
  have hlit : leField (Memory.bytes m k 4) 4 4 = 0 := by
    rw [leField, List.drop_eq_nil_of_le (by simp)]
    rfl
  exact decodeIssued_of_decodeWord (hw ▸ hlit ▸ decodeWord_of_decodeBytes h)

/-- Two words of memory decode as a word and its literal. -/
theorem decodeIssued_bytes_two {m : Memory} {k : Nat} {i : Instr} (h : decodeBytes (Memory.bytes m k 8) = .ok (i, [])) :
    decodeIssued (leNat (Memory.bytes m k 4)) (leNat (Memory.bytes m (k + 4) 4)) = i := by
  have hd := decodeWord_of_decodeBytes h
  rw [Memory.bytes_append m k 4 4] at hd
  have hw : leField (Memory.bytes m k 4 ++ Memory.bytes m (k + 4) 4) 0 4 = leNat (Memory.bytes m k 4) := by
    simp [leField]
  have hlit : leField (Memory.bytes m k 4 ++ Memory.bytes m (k + 4) 4) 4 4 = leNat (Memory.bytes m (k + 4) 4) := by
    simp [leField, List.take_of_length_le]
  rw [hw, hlit] at hd
  exact decodeIssued_of_decodeWord hd

/-! ## Traffic (22 R417) -/

/-- `t` is `s` but for what the traffic of accesses leaves: counters, recency, uses of ports, flows and errors of rows. -/
def State.OnlyCounts (s t : State) : Prop := ∃ o e k f, t = { s with owners := o, rowErrs := e, portKeys := k, flows := f }

namespace State.OnlyCounts

variable {s t u : State}

theorem refl (s : State) : s.OnlyCounts s := ⟨_, _, _, _, rfl⟩

theorem trans (h : s.OnlyCounts t) (h' : t.OnlyCounts u) : s.OnlyCounts u := by
  obtain ⟨_, _, _, _, rfl⟩ := h
  obtain ⟨_, _, _, _, rfl⟩ := h'
  exact ⟨_, _, _, _, rfl⟩

theorem cur (h : s.OnlyCounts t) : t.cur = s.cur := by
  obtain ⟨_, _, _, _, rfl⟩ := h
  rfl

theorem mem (h : s.OnlyCounts t) : t.mem = s.mem := by
  obtain ⟨_, _, _, _, rfl⟩ := h
  rfl

theorem upsets (h : s.OnlyCounts t) : t.upsets = s.upsets := by
  obtain ⟨_, _, _, _, rfl⟩ := h
  rfl

theorem freeCtr (h : s.OnlyCounts t) : t.freeCtr = s.freeCtr := by
  obtain ⟨_, _, _, _, rfl⟩ := h
  rfl

theorem poisoned (h : s.OnlyCounts t) (key n : Nat) : t.poisoned key n = s.poisoned key n := by
  obtain ⟨_, _, _, _, rfl⟩ := h
  rfl

end State.OnlyCounts

theorem State.reportTags_onlyCounts (s : State) (key n : Nat) : s.OnlyCounts (s.reportTags key n) :=
  List.foldlRecOn (motive := s.OnlyCounts) _ _ (.refl s) (fun _ ht _ _ => ht.trans ⟨_, _, _, _, rfl⟩)

theorem State.traffic_onlyCounts (s : State) (owner key n core page : Nat) : s.OnlyCounts (s.traffic owner key n core page) := by
  have hmod : s.OnlyCounts (s.modOwner owner (fun o => (o.countBytes key n).touch core page)) := ⟨_, _, _, _, rfl⟩
  refine (hmod.trans (State.reportTags_onlyCounts _ key n)).trans ?_
  unfold State.traffic
  generalize State.reportTags _ key n = t
  cases keyCore key with
  | none => simp only; split <;> exact ⟨_, _, _, _, rfl⟩
  | some c => simp only; split <;> split <;> exact ⟨_, _, _, _, rfl⟩

theorem State.fetchUse_onlyCounts (s : State) (va : DWord) : s.OnlyCounts (s.fetchUse va) := by
  unfold State.fetchUse
  split
  · exact s.traffic_onlyCounts _ _ _ _ _
  · exact .refl s

@[simp] theorem State.fetchUse_cur (s : State) (va : DWord) : (s.fetchUse va).cur = s.cur := (s.fetchUse_onlyCounts va).cur

@[simp] theorem State.fetchUse_upsets (s : State) (va : DWord) : (s.fetchUse va).upsets = s.upsets := (s.fetchUse_onlyCounts va).upsets

/-! ## The fetch of a word and what comes before its meaning (03 R39; 02 R28-R31) -/

theorem State.fetchWordAt_ok (s : State) (va : DWord) (k : Nat) (hv : s.cur.hlv = false)
    (hx : s.xlate s.curOwner s.curTeam s.curCore .fetch va = .ok k) (hb : s.badRead k 4 = false) :
    s.fetchWordAt va = .inr (s.codeWord k) := by
  simp [State.fetchWordAt, hv, hx, hb]

/-- A word of one word's length is fetched. -/
theorem State.fetchIssue_one (s : State) (k : Nat) (hp : s.portHas s.cur.owner s.curCore = true) (ha : s.cur.ipc.toNat % 4 = 0)
    (hf : s.fetchWordAt s.cur.ipc = .inr k) (hc : wordCount (decodeIssued k 0) = 1) :
    s.fetchIssue = .run (s.fetchUse s.cur.ipc) (decodeIssued k 0) := by
  simp [State.fetchIssue, hp, ha, hf, hc]

/-- A word with a literal is fetched. -/
theorem State.fetchIssue_two (s : State) (k lit : Nat) (hp : s.portHas s.cur.owner s.curCore = true) (ha : s.cur.ipc.toNat % 4 = 0)
    (hf : s.fetchWordAt s.cur.ipc = .inr k) (hc : wordCount (decodeIssued k 0) ≠ 1)
    (hl : (s.fetchUse s.cur.ipc).fetchWordAt (s.cur.ipc + 4) = .inr lit) :
    s.fetchIssue = .run ((s.fetchUse s.cur.ipc).fetchUse (s.cur.ipc + 4)) (decodeIssued k lit) := by
  rw [State.fetchIssue, if_neg (by simp [hp]), if_neg (by simp [ha]), hf]
  simp only [if_neg hc, hl]

theorem State.releaseFrames_settled (s : State) (back : Bool) (hit : OutRes → Bool) (h : s.settled) :
    s.releaseFrames back hit = (s, 0, 0) := by
  unfold State.releaseFrames
  rw [if_pos (by rw [h]; rfl)]

/-- Nothing comes before a word that needs nothing still to come. -/
theorem State.beforeWord_run (s : State) (i : Instr) (hu : s.upsets = []) (hs : s.settled)
    (hr : (s.pendingRegs s.cur.gid).any (uniformRegs (s.cur.width == 64) i).contains = false) (hl : s.resultsFirst i = 0)
    (hj : s.steepsFirst i = false) (hn : s.noRoom i = none) : s.beforeWord i = .run s i := by
  have hframes : s.settleFrames i = (s, 0, 0) := s.releaseFrames_settled _ _ hs
  unfold State.beforeWord
  simp [hu, hframes, hl, hr, hj, hn]

/-- An issue whose word is fetched and which nothing comes before runs the word (02 R23). -/
theorem State.issueWord_run (s a b t : State) (i : Instr) (ha : a = s.catchUp.arrive) (hh : s.catchUp.holdsBack = false)
    (hi : a.cur.iss ≠ 0) (hf : a.fetchIssue = .run b i) (hw : b.beforeWord i = .run b i) (hb : b.cur = a.cur)
    (hk : a.cur.kind = .bin → a.cur.frameldDone = true) (hx : exec i b = .next t) :
    s.issueWord = .next (t.afterWord a.cur.gid a.cur.sp (issueClk a.cur i) i) := by
  have hoff : (b.cur.kind == GroupKind.bin && !b.cur.frameldDone && !b.cur.hlv) = false := by
    rw [hb]
    by_cases hbin : a.cur.kind = .bin
    · simp [hk hbin]
    · simp [hbin]
  subst ha
  unfold State.issueWord
  simp only [hh, hi, hf, hw, hx, Bool.false_eq_true, if_false]
  rw [hb]
  split
  · rfl
  · rw [← hb, hoff, hb]
    rfl

/-- The turn of the SP that has the run of the group in the issue slot. -/
theorem State.perform_issue (s : State) (sp : Nat) (hr : s.runOn sp = some s.cur.gid) : s.perform (.issue sp) = s.issueWord := by
  have hfocus : s.focus s.cur.gid = s := if_pos rfl
  simp only [State.perform, hr, State.issueOn, hfocus]

theorem step_turn (s : State) (t : Turn) (ts : List Turn) (hp : s.powerOff = false) (ht : s.turns = t :: ts) :
    step s = State.perform { s with turns := ts } t := by
  unfold step
  rw [ht, hp]

end Sys2Proof.Machine

open Sys2Proof Sys2Proof.Machine

/-- Settles O58: the fetch gives the decoded word, nothing comes before it, and what follows its meaning is `afterWord`. -/
theorem stepRunsTheDecodedInstruction : Obligations.StepRunsTheDecodedInstruction := by
  unfold Obligations.StepRunsTheDecodedInstruction
  rintro s a c b t sp k ts i hp ht hr ha hh hi hport hu hs hv hk hal hx hbad hcode rfl hb hregs hres hst hroom hd hexec
  have hw := a.fetchWordAt_ok a.cur.ipc k hv hx hbad
  rw [hcode] at hw
  have hcur : b.cur = a.cur := by
    rw [hb]
    split <;> simp
  have hups : b.upsets = [] := by
    rw [hb]
    split <;> simp [hu]
  have hbefore := b.beforeWord_run i hups (by rw [State.settled, hcur, hs]) (by rwa [hcur]) hres hst hroom
  have hfetch : a.fetchIssue = .run b i := by
    obtain ⟨hc, hd⟩ | ⟨hc, ⟨j, hj, hjc⟩, hx', hbad', hcode', hd⟩ := hd
    · have hdec := decodeIssued_bytes_one hd
      rw [if_pos hc] at hb
      rw [a.fetchIssue_one _ hport hal hw (by rw [hdec]; exact hc), hdec, hb]
    · have hlit := (a.fetchUse a.cur.ipc).fetchWordAt_ok (a.cur.ipc + 4) (k + 4) (by simp [hv]) hx' hbad'
      rw [hcode'] at hlit
      have htwo : wordCount (decodeIssued (leNat (Memory.bytes a.mem k 4)) 0) ≠ 1 := by
        rw [decodeIssued_of_decodeWord hj, hjc]
        decide
      rw [if_neg (by rw [hc]; decide)] at hb
      rw [a.fetchIssue_two _ _ hport hal hw htwo hlit, decodeIssued_bytes_two hd, hb]
  rw [step_turn s _ ts hp ht, State.perform_issue _ sp hr]
  exact State.issueWord_run _ a b t i ha hh hi hfetch hbefore hcur hk hexec
end

section
/-! PROOF. A miss that is queued parks lanes of switched-out groups too, which can release a barrier (O43). -/

namespace Sys2Proof.Machine

/-- A miss on page 18 that has waited for room in the miss queue. -/
def waitingMiss : Miss :=
  { mid := 0, page := 18, request := false, cores := [0], sp := 1, claimed := false, write := false, fetch := false, engine := false, grid := 1 }

/-- A group of team 1 on SP 0 whose one lane has arrived at barrier 0 of the team and waits there. -/
def groupAtBarrier : Group :=
  { Group.empty with gid := 1, owner := 1, grid := 1, team := 1, gnum := 0, live := 1, pc := [(0, 0x100000)], barWait := [(0, 1)] }

/-- A group of team 1, switched out into the shadow bank of SP 1, whose one lane waits for room in the miss queue. -/
def groupSwitchedOut : Group :=
  { Group.empty with gid := 2, owner := 1, grid := 1, team := 1, gnum := 1, sp := 1, live := 1, mqWait := 1, walkPage := [(0, 19)] }

/-- The owner of both groups, with the miss that waits. -/
def waitingOwner : Owner := { Owner.none with id := 1, missWaiting := [waitingMiss] }

/-- Team 1 runs on SP 0 and is switched out on SP 1. -/
def barrierState : State :=
  { State.reset with
    cur := groupAtBarrier, owners := [waitingOwner]
    teams := [{ Team.none with tid := 1, grid := 1, owner := 1, sps := [0, 1], arrived := [(0, 1)] }]
    sps := [{ Sp.down with num := 0, up := true, owner := 1 },
      { Sp.down with num := 1, up := true, owner := 1, shadow := [groupSwitchedOut], shadowOwner := 1 }] }

/-- What MISS_QUEUED leaves in the issue slot: the lane of the switched-out group parks, so every live lane of the team has arrived at
barrier 0 and the waiting lane goes on. -/
theorem missQueued_barrierState : ∃ t, exec (.missQueued 1) barrierState = .next t ∧ t.cur.pc.get 0 = 0x100004 :=
  ⟨_, rfl, by decide +kernel⟩

end Sys2Proof.Machine

open Sys2Proof Sys2Proof.Machine

/-- Refutes O43: when the oldest waiting miss joins the queue, a lane of a group in a shadow bank that waited for it parks (19 R329), its
barrier arrivals are withdrawn, and the team's barrier releases the lane in the issue slot, whose PC moves: `t.cur = s.cur` fails. -/
theorem not_runAndWaitEvents : ¬ Obligations.RunAndWaitEvents := by
  unfold Obligations.RunAndWaitEvents
  intro h
  obtain ⟨t, ht, hpc⟩ := missQueued_barrierState
  obtain ⟨-, -, -, -, -, -, -, -, -, hqueued⟩ := h barrierState 0
  obtain ⟨u, hu, -, hcur⟩ := hqueued waitingOwner waitingMiss [] rfl rfl rfl (by decide) (by decide) (by decide)
  obtain rfl : t = u := Host.Outcome.next.inj (ht.symm.trans hu)
  rw [hcur] at hpc
  exact absurd hpc (by decide)
end

section
/-! PROOF. Loads whose lanes all reach their bytes, and the lookahead windows of their results (O14). -/

namespace Sys2Proof.Machine

/-! ## Lane sets -/

theorem laneSet_congr {act : Mask} {p q : Nat → Bool} (h : ∀ l, act.has l = true → p l = q l) : laneSet act p = laneSet act q := by
  have hpq : (fun i => act.has i && p i) = fun i => act.has i && q i := by
    funext l
    cases ha : act.has l with
    | false => rfl
    | true => rw [h l ha]
  rw [laneSet, laneSet, hpq]

theorem laneSet_of_false {act : Mask} {p : Nat → Bool} (h : ∀ l, act.has l = true → p l = false) : laneSet act p = 0 :=
  (laneSet_congr h).trans (Mask.ofFn_eq_zero _ _ (fun _ _ => Bool.and_false _))

theorem laneSet_of_true {act : Mask} {p : Nat → Bool} (h : ∀ l, act.has l = true → p l = true) : laneSet act p = act := by
  refine Mask.ext_has (fun l hl => (Mask.has_ofFn _ 64 l (by decide)).trans ?_)
  rw [decide_eq_true hl, Bool.true_and]
  cases ha : act.has l with
  | false => rfl
  | true => rw [h l ha]; rfl

theorem laneSet_zero (p : Nat → Bool) : laneSet 0 p = 0 :=
  laneSet_of_false (fun l hl => by rw [Mask.has_zero] at hl; cases hl)

theorem Mask.lanes_zero : Mask.lanes 0 = [] :=
  List.filter_eq_nil_iff.mpr (fun l _ h => by rw [Mask.has_zero] at h; cases h)

theorem State.active_has (s : State) (h : Hdr) (l : Nat) (hl : (s.active h).has l = true) : s.cur.iss.has l = true := by
  unfold State.active at hl
  split at hl
  · exact hl
  · rw [Mask.has_and, Bool.and_eq_true] at hl
    exact hl.1

/-- Active lanes are lanes of the issue set (03 R40). -/
theorem State.iss_active (s : State) (h : Hdr) : (s.cur.iss &&& ~~~s.active h) ||| s.active h = s.cur.iss := by
  refine Mask.ext_has (fun l _ => ?_)
  have ha := s.active_has h l
  rw [Mask.has_or, Mask.has_andNot]
  cases hact : (s.active h).has l with
  | false => simp
  | true => simp [ha hact]

/-! ## A read whose lanes all find their bytes (14 R247-R250) -/

/-- Every active lane of the read `x` finds its bytes on one page at `key` (02 R29; 14 R247), the group is at no handler level, and lane
`l` answers the results `r l` there. -/
structure State.ReadsAt (s : State) (h : Hdr) (x : LaneMem) (key : Nat → Nat) (r : Nat → List OutRes) : Prop where
  below : s.cur.hlv = false
  read : x.mode = .read
  ordered : x.freeOrd = false
  whole : ∀ l, x.va2 l = none
  inPage : ∀ l, (s.active h).has l = true → crossVa (x.va l) x.size = none
  found : ∀ l, (s.active h).has l = true → s.classify .read x.align x.atom (x.va l) = .ok (key l)
  clean : x.reads = true → ∀ l, (s.active h).has l = true → s.poisoned (key l) x.size = false
  answer : ∀ t l, (s.goOn s.cur.iss 4).OnlyCounts t → (s.active h).has l = true → x.perform t l (key l) = (t, r l)

theorem State.ReadsAt.laneParts {s : State} {h : Hdr} {x : LaneMem} {key : Nat → Nat} {r : Nat → List OutRes} (hx : s.ReadsAt h x key r)
    (l : Nat) (hl : (s.active h).has l = true) : s.laneParts x l = [⟨x.va l, x.size, .ok (key l)⟩] := by
  have hspill : s.spills .read (x.va l) x.size = false := by simp [State.spills, hx.inPage l hl]
  simp [State.laneParts, hx.whole l, hspill, hx.read, hx.found l hl]

theorem partsClass_single (p : Part) (k : Nat) (h : p.cls = .ok k) : partsClass [p] = .ok k := by
  simp [partsClass, h, LaneClass.isOk]

theorem foldl_reads {ω : Type} (f : State × List OutRes × ω → Nat → State × List OutRes × ω) (s : State) (r : Nat → List OutRes)
    (ls : List Nat) (hf : ∀ p, ∀ l ∈ ls, s.OnlyCounts p.1 → s.OnlyCounts (f p l).1 ∧ (f p l).2.1 = p.2.1 ++ r l) :
    ∀ p, s.OnlyCounts p.1 → s.OnlyCounts (ls.foldl f p).1 ∧ (ls.foldl f p).2.1 = p.2.1 ++ ls.flatMap r := by
  induction ls with
  | nil => exact fun p hp => ⟨hp, (List.append_nil _).symm⟩
  | cons l ls ih =>
    intro p hp
    obtain ⟨hcounts, hres⟩ := hf p l List.mem_cons_self hp
    obtain ⟨hcounts', hres'⟩ := ih (fun q k hk => hf q k (List.mem_cons_of_mem _ hk)) (f p l) hcounts
    exact ⟨hcounts', by rw [List.foldl_cons, hres', hres, List.append_assoc, List.flatMap_cons]⟩

theorem laneSet_class {act : Mask} {cls : Nat → LaneClass} (h : ∀ l, act.has l = true → (cls l).isOk = true) (c : LaneClass)
    (hc : c.isOk = false) : laneSet act (fun i => cls i == c) = 0 :=
  laneSet_of_false (fun l hl => by
    refine beq_eq_false_iff_ne.mpr (fun he => ?_)
    rw [← he, h l hl] at hc
    cases hc)

theorem State.parkAccess_ok (s : State) (act : Mask) (cls : Nat → LaneClass) (va : Nat → DWord) (write : Bool)
    (h : ∀ l, act.has l = true → (cls l).isOk = true) : s.parkAccess act cls va write = s := by
  have hpage : s.parkPage 0 va write false = s := if_pos BitVec.zero_and
  have hwalk : s.parkWalk 0 (fun i => (va i).toNat / 65536) write false = s := if_pos BitVec.zero_and
  rw [State.parkAccess, laneSet_class h .page rfl, laneSet_class h .walk rfl, hpage, hwalk]

theorem State.stallAccess_ok (s : State) (act : Mask) (cls : Nat → LaneClass) (va : Nat → DWord) (write : Bool)
    (h : ∀ l, act.has l = true → (cls l).isOk = true) : s.stallAccess act cls va write false = s := by
  unfold State.stallAccess
  simp only [s.parkAccess_ok act cls va write h, laneSet_class h .wait rfl, laneSet_class h .frozen rfl, laneSet_zero, Mask.lanes_zero,
    Bool.false_eq_true, if_false, if_true, List.filterMap_nil, List.map_nil, sortNat, List.foldl_nil]

/-- An access of lanes that all find their bytes has no cause to raise, and none of them parks. -/
theorem State.finishAccess_ok (s : State) (act : Mask) (cls : Nat → LaneClass) (va : Nat → DWord) (counts : Nat → Bool) (write : Bool)
    (h : ∀ l, act.has l = true → (cls l).isOk = true) : s.finishAccess act 0 cls va counts write = s := by
  unfold State.finishAccess
  simp only [laneSet_class h .fence rfl, laneSet_class h .align rfl, laneSet_class h .atomic rfl, laneSet_zero, State.logFences,
    Mask.lanes_zero, List.foldl_nil, ne_eq, not_true_eq_false, if_false]
  exact s.stallAccess_ok act cls va write h

/-- A read whose active lanes all find their bytes: the issue goes on, and the lanes' answers join the outstanding results. -/
theorem State.ReadsAt.laneMem {s : State} {h : Hdr} {x : LaneMem} {key : Nat → Nat} {r : Nat → List OutRes} (hx : s.ReadsAt h x key r) :
    ∃ t words, (s.goOn s.cur.iss 4).OnlyCounts t ∧ s.laneMem h true x = t.addResults words ((s.active h).lanes.flatMap r) := by
  have hcls : ∀ l, (s.active h).has l = true → partsClass (s.laneParts x l) = .ok (key l) := fun l hl => by
    rw [hx.laneParts l hl]
    exact partsClass_single _ _ rfl
  have hok : ∀ l, (s.active h).has l = true → (partsClass (s.laneParts x l)).isOk = true := fun l hl => by
    rw [hcls l hl]
    rfl
  have hpois : (if x.reads = true then laneSet (s.active h) (fun i => ((partsClass (s.laneParts x i)).isOk ||
      partsClass (s.laneParts x i) == .zero || partsClass (s.laneParts x i) == .dead) && (s.laneParts x i).any s.partPoisoned) else 0) = 0 := by
    split
    · next hr => exact laneSet_of_false (fun l hl => by
        have hclean := hx.clean hr l hl
        simp [hx.laneParts l hl, State.partPoisoned, hclean, LaneClass.key, LaneClass.isOk])
    · rfl
  have hflow : stalled (s.active h) (fun i => partsClass (s.laneParts x i)) = 0 :=
    laneSet_of_false (fun l hl => by simp [hcls l hl])
  have hdone : laneSet (s.active h) (fun i => (partsClass (s.laneParts x i)).isOk || partsClass (s.laneParts x i) == .zero ||
      partsClass (s.laneParts x i) == .dead) = s.active h := laneSet_of_true (fun l hl => by rw [hok l hl]; rfl)
  have hall : laneSet (s.active h) (fun i => (partsClass (s.laneParts x i)).isOk) = s.active h := laneSet_of_true hok
  have hfin : s.active h &&& ~~~(0 : Mask) = s.active h := by
    exact (congrArg (s.active h &&& ·) BitVec.not_zero).trans BitVec.and_allOnes
  unfold State.laneMem
  simp only [Bool.not_true, Bool.false_eq_true, if_false, hx.below, hpois, hflow, hdone, hfin, hall, ne_eq, not_true_eq_false,
    Mask.lanes_zero, List.flatMap_nil, List.foldl_nil, s.iss_active h, hx.ordered, laneSet_class hok .zero rfl, laneSet_class hok .dead rfl,
    hx.read]
  generalize hq : List.foldl _ (s.goOn s.cur.iss 4, [], []) (s.active h).lanes = q
  have hread : (s.goOn s.cur.iss 4).OnlyCounts q.1 ∧ q.2.1 = [] ++ (s.active h).lanes.flatMap r := by
    rw [← hq]
    refine foldl_reads _ _ r _ (fun p l hl hp => ?_) _ (.refl _)
    have hl := (Mask.mem_lanes _ l).mp hl
    simp only [hcls l hl, LaneClass.key, hx.answer p.1 l hp hl, and_true]
    exact List.foldlRecOn (motive := (s.goOn s.cur.iss 4).OnlyCounts) _ _ hp (fun t ht part _ => by
      split
      · exact ht.trans (t.traffic_onlyCounts _ _ _ _ _)
      · exact ht)
  obtain ⟨hcounts, hres⟩ := hread
  rw [State.finishAccess_ok _ _ _ _ _ _ hok, hres]
  simp only [reduceCtorEq, decide_false, Bool.false_and, Bool.false_eq_true, if_false, if_true, List.append_nil, List.nil_append]
  exact ⟨q.1, _, hcounts, rfl⟩

/-! ## Results that join the outstanding ones (02 R29, R30; 22 R390) -/

theorem State.noteHost_none (s : State) (words : Nat → Option HostWord) (l : List OutRes) (h : ∀ e ∈ l, e.path ≠ 2) :
    s.noteHost words l = s := by
  have hnone : l.filter (fun e => e.path == 2) = [] := List.filter_eq_nil_iff.mpr (fun e he => by simpa using h e he)
  unfold State.noteHost
  simp only [hnone, List.map_nil, sortNat, List.foldl_nil]

theorem Group.deliverIf_none (ctr : Nat) (g : Group) (p : OutRes → Bool) (h : ∀ e ∈ g.outst, p e = false) : g.deliverIf ctr p = g := by
  have hnone : g.outst.filter p = [] := List.filter_eq_nil_iff.mpr (fun e he => by simp [h e he])
  have hall : g.outst.filter (fun e => !p e) = g.outst := List.filter_eq_self.mpr (fun e he => by simp [h e he])
  unfold Group.deliverIf
  simp only [hnone, hall, List.foldl_nil]

theorem Group.addOut_settled (ctr : Nat) (g : Group) (l : List OutRes) (h : g.outst = []) :
    ∃ w, g.addOut ctr l = { g with outst := l, await := w } := by
  have hover : l.map (OutRes.over ctr g.outst) = l := by
    rw [h]
    exact List.map_id'' (fun _ => rfl) l
  unfold Group.addOut
  rw [hover, h]
  exact ⟨_, rfl⟩

/-- Results that still have a window, or may go to a row, stay outstanding; the registers are as they were (02 R29; 17 R298). -/
theorem State.addResults_held (s : State) (words : Nat → Option HostWord) (l : List OutRes) (hs : s.settled)
    (he : ∀ e ∈ l, e.early = false) (hp : ∀ e ∈ l, e.path ≠ 2) :
    ∃ w, s.addResults words l = { s with cur := { s.cur with outst := l, await := w } } := by
  obtain ⟨w, hw⟩ := s.cur.addOut_settled s.freeCtr l hs
  refine ⟨w, ?_⟩
  unfold State.addResults
  rw [State.noteHost_none _ _ _ hp, State.modCur, hw, Group.deliverIf_none]
  exact fun e hel => by simp [he e hel]

/-- A read whose results stay outstanding: the lanes go on, and registers and memory are as they were. -/
theorem State.ReadsAt.laneMem_held {s : State} {h : Hdr} {x : LaneMem} {key : Nat → Nat} {r : Nat → List OutRes} (hx : s.ReadsAt h x key r)
    (hs : s.settled) (he : ∀ l, (s.active h).has l = true → ∀ e ∈ r l, e.early = false ∧ e.path ≠ 2) :
    s.wentOn (s.laneMem h true x) 4 ∧ (s.laneMem h true x).mem = s.mem ∧ (s.laneMem h true x).cur.v = s.cur.v ∧
      (s.laneMem h true x).cur.outst = (s.active h).lanes.flatMap r := by
  obtain ⟨t, words, hcounts, ht⟩ := hx.laneMem
  have hgo := s.goOn_settled s.cur.iss 4 hs
  have hcur : t.cur = s.cur.setPc s.cur.iss (fun _ => s.cur.ipc + BitVec.ofNat 64 4) := by rw [hcounts.cur, hgo]
  have hmem : t.mem = s.mem := by rw [hcounts.mem, hgo]
  have hres : ∀ e ∈ (s.active h).lanes.flatMap r, e.early = false ∧ e.path ≠ 2 := fun e hel => by
    obtain ⟨l, hl, her⟩ := List.mem_flatMap.mp hel
    exact he l ((Mask.mem_lanes _ l).mp hl) e her
  obtain ⟨w, hw⟩ := t.addResults_held words _ (by rw [State.settled, hcur]; exact hs) (fun e hel => (hres e hel).1) (fun e hel => (hres e hel).2)
  rw [ht, hw]
  refine ⟨fun l hl => ?_, hmem, ?_, rfl⟩
  · show t.cur.pc.get l = _
    rw [hcur]
    exact Group.pc_setPc s.cur s.cur.iss _ l hl
  · show t.cur.v = s.cur.v
    rw [hcur]
    rfl

end Sys2Proof.Machine
end

section
/-! PROOF. Loads with a lookahead (O14): `VLD` and `VLDF` by the rule of a read whose results stay outstanding. -/

namespace Sys2Proof.Machine

/-! ## Words of memory (14 R246, R247) -/

theorem State.classify_ok_aligned {s : State} {m : Mode} {al : Nat} {atom : Option (Nat × Bool)} {va : DWord} {k : Nat}
    (h : s.classify m al atom va = .ok k) : va.toNat % al = 0 := by
  refine Decidable.byContradiction (fun hmis => ?_)
  unfold State.classify at h
  simp only [if_pos hmis] at h
  split at h <;> cases h

/-- An aligned word lies in one page. -/
theorem crossVa_word {va : DWord} (h : va.toNat % 4 = 0) : crossVa va 4 = none :=
  if_pos (by omega)

theorem pathNum_ne_two {key : Nat} (h : isHostKey key = false) : pathNum key ≠ 2 := by
  unfold pathNum
  split
  · decide
  · split
    · decide
    · simp [h]

/-- The outstanding result of a word `x` that lane `i` has loaded at `key` into v(d) with a lookahead of `L`. -/
def State.loadedWord (s : State) (i d L key x : Nat) (va : DWord) : OutRes :=
  { lane := i, reg := d, isPred := false, data := BitVec.ofNat 32 x, left := L, clob := false, frame := false, pc := s.cur.ipc, addr := va
    poisoned := false, path := pathNum key, iid := s.freeCtr }

theorem results_word (s : State) (i d L key x : Nat) (va : DWord) : results s i d L key 1 x va = [s.loadedWord i d L key x va] := by
  simp [results, State.loadedWord]

/-- The word at a key. -/
def State.wordAt (s : State) (key : Nat) : Nat := leNat (Memory.bytes s.mem key 4)

/-! ## VLD.W32 and VLDF (14 R250; 17 R298) -/

theorem exec_vld_word (s : State) (h : Hdr) (d l0 : Nat) (a : Adr) (c : Hint) (hd : d < s.cur.vregs) (ha : s.cur.adrOk a = true) :
    exec (.vld h d a l0 .w32 c) s = .next (s.laneMem h true (loadMem s 4 1 d l0 (s.addrM a))) := by
  have hok : (s.cur.dataOk (wide .w32) d && s.cur.adrOk a) = true := by
    rw [ha, Bool.and_true]
    exact decide_eq_true hd
  exact congrArg (fun ok => Host.Outcome.next (s.laneMem h ok (loadMem s 4 1 d l0 (s.addrM a)))) hok

/-- The read of a `VLDF` whose data may go to a frame row: its results are marked, poisoned or not. -/
def frameMem (s : State) (d L : Nat) (va : Nat → DWord) : LaneMem :=
  { loadMem s 4 1 d L va with
    reads := false
    perform := fun t i key => (t, (results s i d L key 1 (leNat (Memory.bytes t.mem key 4)) (va i)).map (fun e =>
      { e with frame := true, poisoned := t.poisoned key 4 }))
    onZero := fun i => (results s i d L 0 1 0 (va i)).map (fun e => { e with frame := true, poisoned := false }) }

theorem exec_vldf (s : State) (h : Hdr) (d l0 : Nat) (a : Adr) (c : Hint) (hd : d < s.cur.vregs) (ha : s.cur.adrOk a = true) :
    exec (.vldf h d a l0 c) s = .next (s.laneMem h true
      (if s.suspAt (s.cur.ipc + 4) = some false then loadMem s 4 1 d l0 (s.addrM a) else frameMem s d l0 (s.addrM a))) := by
  have hok : (s.cur.vOk d 1 && s.cur.adrOk a) = true := by
    rw [ha, Bool.and_true]
    exact decide_eq_true hd
  exact congrArg (fun ok => Host.Outcome.next (s.laneMem h ok
    (if s.suspAt (s.cur.ipc + 4) = some false then loadMem s 4 1 d l0 (s.addrM a) else frameMem s d l0 (s.addrM a)))) hok

section
variable {s : State} {h : Hdr} {va : Nat → DWord} {key : Nat → Nat}

theorem State.reaches.inPage (hr : s.reaches h .read 4 4 none va key) (l : Nat) (hl : (s.active h).has l = true) : crossVa (va l) 4 = none :=
  crossVa_word (State.classify_ok_aligned (hr.2 l hl).1)

theorem State.reaches.loadMem (hr : s.reaches h .read 4 4 none va key) (d L : Nat) :
    s.ReadsAt h (loadMem s 4 1 d L va) key (fun l => [s.loadedWord l d L (key l) (s.wordAt (key l)) (va l)]) where
  below := hr.1
  read := rfl
  ordered := rfl
  whole := fun _ => rfl
  inPage := hr.inPage
  found := fun l hl => (hr.2 l hl).1
  clean := fun _ l hl => (hr.2 l hl).2.2
  answer := fun t l ht _ => by
    have hmem : t.mem = s.mem := ht.mem
    rw [← results_word, State.wordAt, ← hmem]
    rfl

theorem State.reaches.frameMem (hr : s.reaches h .read 4 4 none va key) (d L : Nat) :
    s.ReadsAt h (frameMem s d L va) key (fun l =>
      [{ s.loadedWord l d L (key l) (s.wordAt (key l)) (va l) with frame := true, poisoned := s.poisoned (key l) 4 }]) where
  below := hr.1
  read := rfl
  ordered := rfl
  whole := fun _ => rfl
  inPage := hr.inPage
  found := fun l hl => (hr.2 l hl).1
  clean := fun hreads => by cases hreads
  answer := fun t l ht _ => by
    have hmem : t.mem = s.mem := ht.mem
    have hpois : t.poisoned (key l) 4 = s.poisoned (key l) 4 := ht.poisoned (key l) 4
    simp only [Machine.frameMem, results_word, List.map_cons, List.map_nil, hmem, hpois, State.wordAt]

end

/-! ## A window that is used up (02 R29-R31) -/

theorem Group.complete_window (ctr : Nat) (g : Group) (m : Mask) (e : OutRes) (ho : g.outst = [e]) (hm : m.has e.lane = true)
    (hl : 1 < e.left) : g.complete ctr m = { g with outst := [{ e with left := e.left - 1 }] } := by
  unfold Group.complete
  simp only [ho, List.map_cons, List.map_nil, if_pos hm]
  refine Group.deliverIf_none ctr _ _ (fun x hx => ?_)
  obtain rfl := List.mem_singleton.mp hx
  have hopen : e.left - 1 ≠ 0 := by omega
  simp [OutRes.early, hopen]

theorem Group.complete_delivers (ctr : Nat) (g : Group) (m : Mask) (e : OutRes) (ho : g.outst = [e]) (hm : m.has e.lane = true)
    (hl : e.left ≤ 1) (hreg : e.isPred = false) (hc : e.clob = false) (hf : e.frame = false) (hp : e.path ≠ 2) :
    g.complete ctr m = { g with outst := [], v := g.v.set (64 * e.reg + e.lane) e.data } := by
  have hspent : e.left - 1 = 0 := by omega
  unfold Group.complete Group.deliverIf
  simp [ho, hm, OutRes.early, hspent, hf, hp, Group.deliver, hc, hreg]

end Sys2Proof.Machine

open Sys2Proof Sys2Proof.Machine

/-- Settles O14: a load and a `VLDF` by the results that stay outstanding, a window by what its lane completes. -/
theorem lookaheadResults : Obligations.LookaheadResults := by
  unfold Obligations.LookaheadResults
  refine ⟨fun s h d l0 a c key hs hl0 ha hd hr => ?_, fun ctr g m e ho hreg hc hf hm _ => ⟨fun hl => ?_, fun hl hp => ?_⟩,
    fun s h d l0 a c key hs ha hd hr => ⟨fun hw => ?_, fun hw => ?_⟩⟩
  · obtain ⟨hpc, hmem, hv, ho⟩ := (hr.loadMem d l0).laneMem_held hs (fun l hl e he => by
      obtain rfl := List.mem_singleton.mp he
      exact ⟨by simp [OutRes.early, State.loadedWord, Nat.pos_iff_ne_zero.mp hl0], pathNum_ne_two (hr.2 l hl).2.1⟩)
    refine ⟨_, exec_vld_word s h d l0 a c hd ha, hv, hpc, hmem, fun l hl => ?_⟩
    rw [ho]
    exact ⟨_, List.mem_flatMap.mpr ⟨l, (Mask.mem_lanes _ l).mpr hl, List.mem_singleton_self _⟩, rfl, rfl, rfl, rfl, rfl, rfl⟩
  · rw [g.complete_window ctr m e ho hm hl]
    exact ⟨rfl, rfl⟩
  · rw [g.complete_delivers ctr m e ho hm hl hreg hc hf hp]
    exact ⟨rfl, SMap.get_set_self _ _ _⟩
  · rw [exec_vldf s h d l0 a c hd ha, exec_vld_word s h d l0 a c hd ha, if_pos hw]
  · obtain ⟨hpc, hmem, hv, ho⟩ := (hr.frameMem d l0).laneMem_held hs (fun l hl e he => by
      obtain rfl := List.mem_singleton.mp he
      exact ⟨by simp [OutRes.early], pathNum_ne_two (hr.2 l hl).2.1⟩)
    refine ⟨_, (exec_vldf s h d l0 a c hd ha).trans (by rw [if_neg hw]), hv, hpc, hmem, fun l hl => ?_⟩
    rw [ho]
    exact ⟨_, List.mem_flatMap.mpr ⟨l, (Mask.mem_lanes _ l).mpr hl, List.mem_singleton_self _⟩, rfl, rfl, rfl, rfl, rfl, rfl, rfl⟩
end

section
/-! PROOF. A word is the encoding of what it decodes to (O57): the fields that each arm of the decoders reads leave no gap. -/

namespace Sys2Proof

/-! ## Sub-fields (03 R41, R45, R46) -/

@[simp] theorem Adr.ofCode_some (n : Nat) (a : Adr) : Adr.ofCode n = some a ↔ a.wf = true ∧ n = a.code := by
  refine ⟨fun h => ?_, fun ⟨hw, hc⟩ => hc ▸ a.ofCode_code hw⟩
  unfold Adr.ofCode at h
  split at h
  · cases h
    exact ⟨decide_eq_true ‹_›, rfl⟩
  · split at h
    · cases h
      exact ⟨decide_eq_true (by omega), by simp only [Adr.code]; omega⟩
    · cases h

@[simp] theorem AddK.ofCode_some (n : Nat) (k : AddK) : AddK.ofCode n = some k ↔ n = k.code :=
  ⟨fun h => by unfold AddK.ofCode at h; split at h <;> cases h <;> rfl, fun h => h ▸ k.ofCode_code⟩
@[simp] theorem MulK.ofCode_some (n : Nat) (k : MulK) : MulK.ofCode n = some k ↔ n = k.code :=
  ⟨fun h => by unfold MulK.ofCode at h; split at h <;> cases h <;> rfl, fun h => h ▸ k.ofCode_code⟩
@[simp] theorem ShrK.ofCode_some (n : Nat) (k : ShrK) : ShrK.ofCode n = some k ↔ n = k.code :=
  ⟨fun h => by unfold ShrK.ofCode at h; split at h <;> cases h <;> rfl, fun h => h ▸ k.ofCode_code⟩
@[simp] theorem SgnK.ofCode_some (n : Nat) (k : SgnK) : SgnK.ofCode n = some k ↔ n = k.code :=
  ⟨fun h => by unfold SgnK.ofCode at h; split at h <;> cases h <;> rfl, fun h => h ▸ k.ofCode_code⟩
@[simp] theorem ShiK.ofCode_some (n : Nat) (k : ShiK) : ShiK.ofCode n = some k ↔ n = k.code :=
  ⟨fun h => by unfold ShiK.ofCode at h; split at h <;> cases h <;> rfl, fun h => h ▸ k.ofCode_code⟩
@[simp] theorem FmtK.ofCode_some (n : Nat) (k : FmtK) : FmtK.ofCode n = some k ↔ n = k.code :=
  ⟨fun h => by unfold FmtK.ofCode at h; split at h <;> cases h <;> rfl, fun h => h ▸ k.ofCode_code⟩
@[simp] theorem Rnd.ofCode_some (n : Nat) (k : Rnd) : Rnd.ofCode n = some k ↔ n = k.code :=
  ⟨fun h => by unfold Rnd.ofCode at h; split at h <;> cases h <;> rfl, fun h => h ▸ k.ofCode_code⟩
@[simp] theorem CvtKind.ofCode_some (n : Nat) (k : CvtKind) : CvtKind.ofCode n = some k ↔ n = k.code :=
  ⟨fun h => by unfold CvtKind.ofCode at h; split at h <;> cases h <;> rfl, fun h => h ▸ k.ofCode_code⟩
@[simp] theorem Cvt6K.ofCode_some (n : Nat) (k : Cvt6K) : Cvt6K.ofCode n = some k ↔ n = k.code :=
  ⟨fun h => by unfold Cvt6K.ofCode at h; split at h <;> cases h <;> rfl, fun h => h ▸ k.ofCode_code⟩
@[simp] theorem PkhK.ofCode_some (n : Nat) (k : PkhK) : PkhK.ofCode n = some k ↔ n = k.code :=
  ⟨fun h => by unfold PkhK.ofCode at h; split at h <;> cases h <;> rfl, fun h => h ▸ k.ofCode_code⟩
@[simp] theorem UpkhK.ofCode_some (n : Nat) (k : UpkhK) : UpkhK.ofCode n = some k ↔ n = k.code :=
  ⟨fun h => by unfold UpkhK.ofCode at h; split at h <;> cases h <;> rfl, fun h => h ▸ k.ofCode_code⟩
@[simp] theorem CmpK.ofCode_some (n : Nat) (k : CmpK) : CmpK.ofCode n = some k ↔ n = k.code :=
  ⟨fun h => by unfold CmpK.ofCode at h; split at h <;> cases h <;> rfl, fun h => h ▸ k.ofCode_code⟩
@[simp] theorem LogK.ofCode_some (n : Nat) (k : LogK) : LogK.ofCode n = some k ↔ n = k.code :=
  ⟨fun h => by unfold LogK.ofCode at h; split at h <;> cases h <;> rfl, fun h => h ▸ k.ofCode_code⟩
@[simp] theorem MovK.ofCode_some (n : Nat) (k : MovK) : MovK.ofCode n = some k ↔ n = k.code :=
  ⟨fun h => by unfold MovK.ofCode at h; split at h <;> cases h <;> rfl, fun h => h ▸ k.ofCode_code⟩
@[simp] theorem RedK.ofCode_some (n : Nat) (k : RedK) : RedK.ofCode n = some k ↔ n = k.code :=
  ⟨fun h => by unfold RedK.ofCode at h; split at h <;> cases h <;> rfl, fun h => h ▸ k.ofCode_code⟩
@[simp] theorem MemK.ofCode_some (n : Nat) (k : MemK) : MemK.ofCode n = some k ↔ n = k.code :=
  ⟨fun h => by unfold MemK.ofCode at h; split at h <;> cases h <;> rfl, fun h => h ▸ k.ofCode_code⟩
@[simp] theorem PackK.ofCode_some (n : Nat) (k : PackK) : PackK.ofCode n = some k ↔ n = k.code :=
  ⟨fun h => by unfold PackK.ofCode at h; split at h <;> cases h <;> rfl, fun h => h ▸ k.ofCode_code⟩
@[simp] theorem AtAddK.ofCode_some (n : Nat) (k : AtAddK) : AtAddK.ofCode n = some k ↔ n = k.code :=
  ⟨fun h => by unfold AtAddK.ofCode at h; split at h <;> cases h <;> rfl, fun h => h ▸ k.ofCode_code⟩
@[simp] theorem AtMmK.ofCode_some (n : Nat) (k : AtMmK) : AtMmK.ofCode n = some k ↔ n = k.code :=
  ⟨fun h => by unfold AtMmK.ofCode at h; split at h <;> cases h <;> rfl, fun h => h ▸ k.ofCode_code⟩
@[simp] theorem AtBitK.ofCode_some (n : Nat) (k : AtBitK) : AtBitK.ofCode n = some k ↔ n = k.code :=
  ⟨fun h => by unfold AtBitK.ofCode at h; split at h <;> cases h <;> rfl, fun h => h ▸ k.ofCode_code⟩
@[simp] theorem CasK.ofCode_some (n : Nat) (k : CasK) : CasK.ofCode n = some k ↔ n = k.code :=
  ⟨fun h => by unfold CasK.ofCode at h; split at h <;> cases h <;> rfl, fun h => h ▸ k.ofCode_code⟩
@[simp] theorem Hint.ofCode_some (n : Nat) (k : Hint) : Hint.ofCode n = some k ↔ n = k.code :=
  ⟨fun h => by unfold Hint.ofCode at h; split at h <;> cases h <;> rfl, fun h => h ▸ k.ofCode_code⟩
@[simp] theorem SuspK.ofCode_some (n : Nat) (k : SuspK) : SuspK.ofCode n = some k ↔ n = k.code :=
  ⟨fun h => by unfold SuspK.ofCode at h; split at h <;> cases h <;> rfl, fun h => h ▸ k.ofCode_code⟩
@[simp] theorem SAddK.ofCode_some (n : Nat) (k : SAddK) : SAddK.ofCode n = some k ↔ n = k.code :=
  ⟨fun h => by unfold SAddK.ofCode at h; split at h <;> cases h <;> rfl, fun h => h ▸ k.ofCode_code⟩
@[simp] theorem SMulK.ofCode_some (n : Nat) (k : SMulK) : SMulK.ofCode n = some k ↔ n = k.code :=
  ⟨fun h => by unfold SMulK.ofCode at h; split at h <;> cases h <;> rfl, fun h => h ▸ k.ofCode_code⟩
@[simp] theorem SCmpK.ofCode_some (n : Nat) (k : SCmpK) : SCmpK.ofCode n = some k ↔ n = k.code :=
  ⟨fun h => by unfold SCmpK.ofCode at h; split at h <;> cases h <;> rfl, fun h => h ▸ k.ofCode_code⟩
@[simp] theorem AnyK.ofCode_some (n : Nat) (k : AnyK) : AnyK.ofCode n = some k ↔ n = k.code :=
  ⟨fun h => by unfold AnyK.ofCode at h; split at h <;> cases h <;> rfl, fun h => h ▸ k.ofCode_code⟩
@[simp] theorem XgetK.ofCode_some (n : Nat) (k : XgetK) : XgetK.ofCode n = some k ↔ n = k.code :=
  ⟨fun h => by unfold XgetK.ofCode at h; split at h <;> cases h <;> rfl, fun h => h ▸ k.ofCode_code⟩
@[simp] theorem Scope.ofCode_some (n : Nat) (k : Scope) : Scope.ofCode n = some k ↔ n = k.code :=
  ⟨fun h => by unfold Scope.ofCode at h; split at h <;> cases h <;> rfl, fun h => h ▸ k.ofCode_code⟩
@[simp] theorem FenceK.ofCode_some (n : Nat) (k : FenceK) : FenceK.ofCode n = some k ↔ n = k.code :=
  ⟨fun h => by unfold FenceK.ofCode at h; split at h <;> cases h <;> rfl, fun h => h ▸ k.ofCode_code⟩
@[simp] theorem PathMask.ofCode_some (n : Nat) (k : PathMask) : PathMask.ofCode n = some k ↔ n = k.code :=
  ⟨fun h => by unfold PathMask.ofCode at h; split at h <;> cases h <;> rfl, fun h => h ▸ k.ofCode_code⟩
@[simp] theorem ForkK.ofCode_some (n : Nat) (k : ForkK) : ForkK.ofCode n = some k ↔ n = k.code :=
  ⟨fun h => by unfold ForkK.ofCode at h; split at h <;> cases h <;> rfl, fun h => h ▸ k.ofCode_code⟩
@[simp] theorem BinqK.ofCode_some (n : Nat) (k : BinqK) : BinqK.ofCode n = some k ↔ n = k.code :=
  ⟨fun h => by unfold BinqK.ofCode at h; split at h <;> cases h <;> rfl, fun h => h ▸ k.ofCode_code⟩
@[simp] theorem TlbiK.ofCode_some (n : Nat) (k : TlbiK) : TlbiK.ofCode n = some k ↔ n = k.code :=
  ⟨fun h => by unfold TlbiK.ofCode at h; split at h <;> cases h <;> rfl, fun h => h ▸ k.ofCode_code⟩
@[simp] theorem HretK.ofCode_some (n : Nat) (k : HretK) : HretK.ofCode n = some k ↔ n = k.code :=
  ⟨fun h => by unfold HretK.ofCode at h; split at h <;> cases h <;> rfl, fun h => h ▸ k.ofCode_code⟩
@[simp] theorem ColOpK.ofCode_some (n : Nat) (k : ColOpK) : ColOpK.ofCode n = some k ↔ n = k.code :=
  ⟨fun h => by unfold ColOpK.ofCode at h; split at h <;> cases h <;> rfl, fun h => h ▸ k.ofCode_code⟩

/-! ## A word is the encoding of what it decodes to (03 R38-R46) -/

theorem fld_lt {w lo n m : Nat} (h : 2 ^ n ≤ m) : fld w lo n < m := Nat.lt_of_lt_of_le (Nat.mod_lt _ (Nat.two_pow_pos n)) h

theorem fld_mod {w lo n m : Nat} (h : 2 ^ n ≤ m) : fld w lo n % m = fld w lo n := Nat.mod_eq_of_lt (fld_lt h)

theorem bit_fld (w lo : Nat) : bit (fld w lo 1 == 1) = fld w lo 1 := by
  have h : fld w lo 1 < 2 := fld_lt (Nat.le_refl 2)
  generalize fld w lo 1 = b at *
  match b, h with
  | 0, _ => rfl
  | 1, _ => rfl

/-- A field of `n + k` bits is its upper `k` bits above its lower `n`. -/
theorem fld_join (w lo n k m N : Nat) (hm : lo + n = m) (hN : n + k = N) : fld w lo N = fld w m k * 2 ^ n + fld w lo n := by
  subst hm hN
  simp only [fld, Nat.pow_add, ← Nat.div_div_eq_div_mul]
  rw [Nat.mod_mul, Nat.add_comm, Nat.mul_comm]

/-- The layouts of the operand area: each cuts it into fields without a gap (03 R41). -/
structure Layouts (w : Nat) : Prop where
  c : fld w 0 20 = fld w 14 6 * 16384 + fld w 0 14
  b : fld w 0 14 = fld w 8 6 * 256 + fld w 0 8
  a : fld w 0 8 = fld w 2 6 * 4 + fld w 0 2
  vshi : fld w 0 8 = fld w 7 1 * 128 + fld w 5 2 * 32 + fld w 0 5
  cvt : fld w 0 8 = fld w 5 3 * 32 + fld w 2 3 * 4 + fld w 0 2
  m : fld w 0 8 = fld w 4 4 * 16 + fld w 2 2 * 4 + fld w 0 2
  fmt : fld w 0 8 = fld w 3 5 * 8 + fld w 0 3
  shfl : fld w 0 8 = fld w 6 2 * 64 + fld w 0 6
  bar : fld w 0 8 = fld w 5 3 * 32 + fld w 4 1 * 16 + fld w 0 4
  fence : fld w 0 8 = fld w 5 3 * 32 + fld w 3 2 * 8 + fld w 0 3
  csr : fld w 0 14 = fld w 12 2 * 4096 + fld w 0 12
  mx : fld w 0 14 = fld w 10 4 * 1024 + fld w 4 6 * 16 + fld w 0 4
  t : fld w 0 20 = fld w 16 4 * 65536 + fld w 15 1 * 32768 + fld w 10 5 * 1024 + fld w 6 4 * 64 + fld w 0 6

theorem layouts (w : Nat) : Layouts w where
  c := fld_join w 0 14 6 14 20 rfl rfl
  b := fld_join w 0 8 6 8 14 rfl rfl
  a := fld_join w 0 2 6 2 8 rfl rfl
  vshi := by rw [fld_join w 0 5 3 5 8 rfl rfl, fld_join w 5 2 1 7 3 rfl rfl]; omega
  cvt := by rw [fld_join w 0 2 6 2 8 rfl rfl, fld_join w 2 3 3 5 6 rfl rfl]; omega
  m := by rw [fld_join w 0 2 6 2 8 rfl rfl, fld_join w 2 2 4 4 6 rfl rfl]; omega
  fmt := fld_join w 0 3 5 3 8 rfl rfl
  shfl := fld_join w 0 6 2 6 8 rfl rfl
  bar := by rw [fld_join w 0 4 4 4 8 rfl rfl, fld_join w 4 1 3 5 4 rfl rfl]; omega
  fence := by rw [fld_join w 0 3 5 3 8 rfl rfl, fld_join w 3 2 3 5 5 rfl rfl]; omega
  csr := fld_join w 0 12 2 12 14 rfl rfl
  mx := by rw [fld_join w 0 4 10 4 14 rfl rfl, fld_join w 4 6 4 10 10 rfl rfl]; omega
  t := by rw [fld_join w 0 6 14 6 20 rfl rfl, fld_join w 6 4 10 10 14 rfl rfl, fld_join w 10 5 5 15 10 rfl rfl, fld_join w 15 1 4 16 5 rfl rfl]; omega

theorem encWord_inj (s : Nat) (h : Hdr) (op x y : Nat) : encWord s h op x = encWord s h op y ↔ x = y := by
  simp [encWord]

/-- The instruction is well-formed, and its words are one with operand area `area`, and at most the literal `lit` after it. -/
def Fills (s : Nat) (h : Hdr) (op area lit : Nat) (i : Instr) : Prop :=
  i.wf = true ∧ (encode i = [encWord s h op area] ∨ encode i = [encWord s h op area, lit])

section
variable (h : Hdr) (w lit : Nat) (hh : h.wf = true)
include hh

theorem decodeLaneFam0F_fills : Decodes (Fills 0 h 0x0F (fld w 0 20) lit) (decodeLaneFam0F h w (fld w 2 6)) := by
  generalize hb : fld w 2 6 = b
  unfold decodeLaneFam0F
  obtain ⟨hc, hb', ha⟩ := layouts w
  split
  all_goals simp [decodes_need, decodes_ok, decodes_error, Fills, Instr.wf, encode, hh, encWord_inj, fld_lt]
  all_goals omega

theorem decodeLaneFam16_fills : Decodes (Fills 0 h 0x16 (fld w 0 20) lit) (decodeLaneFam16 h w (fld w 2 6)) := by
  generalize hb : fld w 2 6 = b
  unfold decodeLaneFam16
  obtain ⟨hc, hb', ha⟩ := layouts w
  split
  all_goals simp [decodes_sub, decodes_ok, decodes_error, Fills, Instr.wf, encode, hh, encWord_inj, fld_lt]
  all_goals omega

theorem decodeLane_fills (op : Nat) (hl : lit < 2 ^ 32) : Decodes (Fills 0 h op (fld w 0 20) lit) (decodeLane h w lit op) := by
  unfold decodeLane
  split
  all_goals simp [decodes_need, decodes_sub, decodes_ok, decodes_error, decodeLaneFam0F_fills h w lit hh, decodeLaneFam16_fills h w lit hh]
  all_goals intros
  all_goals simp [Fills, Instr.wf, encode, encWord_inj, fld_lt, fld_mod, bit_fld, *]
  all_goals obtain ⟨hc, hb, ha, hvshi, hcvt, hm, hfmt, hshfl, hbar, hfence, hcsr, hmx, ht⟩ := layouts w
  all_goals omega

theorem decodeUniFam0D_fills : Decodes (Fills 1 h 0x0D (fld w 0 20) lit) (decodeUniFam0D h w (fld w 2 6)) := by
  generalize hb : fld w 2 6 = b
  unfold decodeUniFam0D
  obtain ⟨hc, hb', ha⟩ := layouts w
  split
  all_goals simp [decodes_need, decodes_ok, decodes_error, Fills, Instr.wf, encode, hh, encWord_inj, fld_lt]
  all_goals omega

theorem decodeUni_fills (op : Nat) (hl : lit < 2 ^ 32) : Decodes (Fills 1 h op (fld w 0 20) lit) (decodeUni h w lit op) := by
  unfold decodeUni
  split
  all_goals simp [decodes_need, decodes_sub, decodes_ok, decodes_error, decodeUniFam0D_fills h w lit hh]
  all_goals intros
  all_goals simp [Fills, Instr.wf, encode, encWord_inj, fld_lt, fld_mod, bit_fld, *]
  all_goals obtain ⟨hc, hb, ha, hvshi, hcvt, hm, hfmt, hshfl, hbar, hfence, hcsr, hmx, ht⟩ := layouts w
  all_goals omega

end
end Sys2Proof
end

section
/-! PROOF. Decoding inverts encoding, and encoding inverts decoding (O57, O59). -/

namespace Sys2Proof

/-! ## A matrix command (03 R48) -/

/-- The layouts of a matrix command, from its opcode down. -/
structure MxLayouts (w : Nat) : Prop where
  op : w = fld w 58 6 * 2 ^ 58 + fld w 0 58
  acc : fld w 0 58 = fld w 54 4 * 2 ^ 54 + fld w 0 54
  slot : fld w 0 58 = fld w 55 3 * 2 ^ 55 + fld w 0 55
  cfg : fld w 0 55 = fld w 52 3 * 2 ^ 52 + fld w 51 1 * 2 ^ 51 + fld w 48 3 * 2 ^ 48 + fld w 32 16 * 2 ^ 32 + fld w 0 32
  rings : fld w 0 54 = fld w 51 3 * 2 ^ 51 + fld w 48 3 * 2 ^ 48 + fld w 32 16 * 2 ^ 32 + fld w 0 32
  drain : fld w 0 54 = fld w 51 3 * 2 ^ 51 + fld w 50 1 * 2 ^ 50 + fld w 46 4 * 2 ^ 46 + fld w 0 46
  target : fld w 46 4 = fld w 49 1 * 2 ^ 3 + fld w 46 3
  loop : fld w 0 58 = fld w 48 10 * 2 ^ 48 + fld w 32 16 * 2 ^ 32 + fld w 16 16 * 2 ^ 16 + fld w 0 16

theorem mxLayouts (w : Nat) (hw : w < 2 ^ 64) : MxLayouts w where
  op := by
    rw [← fld_join w 0 58 6 58 64 rfl rfl]
    exact ((Nat.div_one w).symm ▸ Nat.mod_eq_of_lt hw : w / 2 ^ 0 % 2 ^ 64 = w).symm
  acc := fld_join w 0 54 4 54 58 rfl rfl
  slot := fld_join w 0 55 3 55 58 rfl rfl
  cfg := by
    rw [fld_join w 0 32 23 32 55 rfl rfl, fld_join w 32 16 7 48 23 rfl rfl, fld_join w 48 3 4 51 7 rfl rfl, fld_join w 51 1 3 52 4 rfl rfl]
    omega
  rings := by
    rw [fld_join w 0 32 22 32 54 rfl rfl, fld_join w 32 16 6 48 22 rfl rfl, fld_join w 48 3 3 51 6 rfl rfl]
    omega
  drain := by
    rw [fld_join w 0 46 8 46 54 rfl rfl, fld_join w 46 4 4 50 8 rfl rfl, fld_join w 50 1 3 51 4 rfl rfl]
    omega
  target := fld_join w 46 3 1 49 4 rfl rfl
  loop := by
    rw [fld_join w 0 16 42 16 58 rfl rfl, fld_join w 16 16 26 32 42 rfl rfl, fld_join w 32 16 10 48 26 rfl rfl]
    omega

/-- The command is illegal and holds the word, or it is well-formed and its two words make up the word. -/
def EncodesMx (sp w : Nat) (i : Instr) : Prop :=
  i = .mxIllegalCommand sp (BitVec.ofNat 64 w) ∨ (i.wf = true ∧ encode i = [w % 2 ^ 32, w / 2 ^ 32])

theorem encodesMx_ite {sp w : Nat} {c : Bool} {i : Instr} (hi : c = true → i.wf = true ∧ encode i = [w % 2 ^ 32, w / 2 ^ 32]) :
    EncodesMx sp w (if c then i else .mxIllegalCommand sp (BitVec.ofNat 64 w)) := by
  cases c with
  | false => exact .inl rfl
  | true => exact .inr (hi rfl)

theorem encMx_eq {op f w : Nat} (h : op * 2 ^ 58 + f = w) : encMx op f = [w % 2 ^ 32, w / 2 ^ 32] := by
  rw [← h]
  rfl

theorem decodeMx_encodes (sp w : Nat) (hsp : sp < 1024) (hw : w < 2 ^ 64) : EncodesMx sp w (decodeMx sp w) := by
  obtain ⟨hop, hacc, hslot, hcfg, hrings, hdrain, htarget, hloop⟩ := mxLayouts w hw
  have hpaired := bit_fld w 51
  have hring := bit_fld w 50
  have hlow : fld w 46 3 < 8 := fld_lt (Nat.le_refl 8)
  unfold decodeMx
  split
  case h_11 => exact .inl rfl
  all_goals refine encodesMx_ite (fun hc => ?_)
  all_goals simp at hc
  all_goals refine ⟨?_, encMx_eq (by omega)⟩
  all_goals simp [Instr.wf, hsp, fld_lt, Nat.pos_iff_ne_zero, hc]
  omega

/-! ## A word is read back from its bytes (03 R39, R44) -/

/-- S, E, G, OP and the operand area make up the word (03 R38). -/
theorem encWord_fields (w : Nat) (hw : w < 2 ^ 32) :
    encWord (fld w 31 1) ⟨fld w 30 1 == 1, fld w 27 3⟩ (fld w 20 7) (fld w 0 20) = w := by
  rw [encWord, bit_fld]
  simp only [fld]
  omega

/-- A word that decodes is the encoding of a well-formed instruction, but for the literal it may have. -/
theorem encode_of_decodeWord {w lit : Nat} {i : Instr} (hw : w < 2 ^ 32) (hl : lit < 2 ^ 32) (hd : decodeWord w lit = .ok i) :
    i.wf = true ∧ (encode i = [w] ∨ encode i = [w, lit]) := by
  have hh : Hdr.wf ⟨fld w 30 1 == 1, fld w 27 3⟩ = true := decide_eq_true (fld_lt (Nat.le_refl 8))
  have hfill : Fills (fld w 31 1) ⟨fld w 30 1 == 1, fld w 27 3⟩ (fld w 20 7) (fld w 0 20) lit i := by
    unfold decodeWord at hd
    by_cases hs : fld w 31 1 = 0
    · rw [if_pos hs] at hd
      rw [hs]
      exact decodeLane_fills _ w lit hh _ hl i hd
    · have hs1 : fld w 31 1 = 1 := by
        have : fld w 31 1 < 2 := fld_lt (Nat.le_refl 2)
        omega
      rw [if_neg hs] at hd
      rw [hs1]
      exact decodeUni_fills _ w lit hh _ hl i hd
  unfold Fills at hfill
  rwa [encWord_fields w hw] at hfill

/-- The words of an instruction word: one, or two of which the second is the literal of `VMOVL` or `SMOVL` (03 R44). -/
theorem encode_words {i : Instr} {h : Hdr} {w : Nat} {ws : List Nat} (hh : Machine.wordHdr i = some h) (he : encode i = w :: ws) :
    (Machine.wordCount i = 1 ∧ ws = []) ∨ (Machine.wordCount i = 2 ∧ ∃ lit, ws = [lit] ∧ lit < 2 ^ 32) := by
  have hlen : (encode i).length = Machine.wordCount i := by cases i <;> cases hh <;> rfl
  rw [he] at hlen
  unfold Machine.wordCount at hlen ⊢
  split at hlen
  · next lit => exact .inr ⟨rfl, _, (List.cons.inj he).2.symm, lit.isLt⟩
  · next lit => exact .inr ⟨rfl, _, (List.cons.inj he).2.symm, lit.isLt⟩
  · exact .inl ⟨rfl, List.eq_nil_of_length_eq_zero (Nat.succ.inj hlen)⟩

theorem decodeBytes_of_decodeWord {bs : List (BitVec 8)} {i : Instr} (hlen : 4 ≤ bs.length)
    (hd : decodeWord (leField bs 0 4) (leField bs 4 4) = .ok i) : decodeBytes bs = .ok (i, bs.drop (4 * Machine.wordCount i)) := by
  unfold decodeBytes
  rw [if_neg (Nat.not_lt.mpr hlen), hd]
  cases i <;> rfl

theorem leField_head (w : Nat) (bs : List (BitVec 8)) (hw : w < 2 ^ 32) : leField (leBytes 4 w ++ bs) 0 4 = w := by
  rw [leField, List.drop_zero, List.take_left' (leBytes_length 4 w), leNat_leBytes 4 w hw]

theorem leField_next (w : Nat) (bs : List (BitVec 8)) : leField (leBytes 4 w ++ bs) 4 4 = leField bs 0 4 := by
  rw [leField, List.drop_left' (leBytes_length 4 w)]
  rfl

/-- A well-formed word is read back from the bytes of its words, whatever follows. -/
theorem decodeBytes_encode {i : Instr} {h : Hdr} (hwf : i.wf = true) (hh : Machine.wordHdr i = some h) (rest : List (BitVec 8)) :
    decodeBytes ((encode i).flatMap (leBytes 4) ++ rest) = .ok (i, rest) := by
  obtain ⟨hword, -⟩ := Laws.Encoding.statement i hwf
  obtain ⟨w, ws, he, hw, hd⟩ := hword h hh
  have hbytes : ∀ bs, decodeWord w (leField bs 0 4) = .ok i →
      decodeBytes (leBytes 4 w ++ bs) = .ok (i, (leBytes 4 w ++ bs).drop (4 * Machine.wordCount i)) := fun bs hi =>
    decodeBytes_of_decodeWord (by simp) (by rwa [leField_head w bs hw, leField_next])
  obtain ⟨hc, rfl⟩ | ⟨hc, lit, rfl, hlit⟩ := encode_words hh he
  · rw [he, List.flatMap_singleton, hbytes rest (hd _), hc, List.drop_left' (leBytes_length 4 w)]
  · rw [he, List.flatMap_cons, List.flatMap_singleton, List.append_assoc, hbytes _ (by rw [leField_head lit rest hlit]; exact hd 0), hc,
      ← List.append_assoc, List.drop_left' (by simp)]

end Sys2Proof

open Sys2Proof Sys2Proof.Machine

/-- Settles O57: reading back by the laws of the constructors, the converse by the fields that every arm of the decoders reads. -/
theorem encodingAndDecodingAgree : Obligations.EncodingAndDecodingAgree := by
  unfold Obligations.EncodingAndDecodingAgree
  exact ⟨fun _ _ hwf hh rest => decodeBytes_encode hwf hh rest, fun _ _ _ hw hl hd => encode_of_decodeWord hw hl hd,
    fun sp w hsp hw => decodeMx_encodes sp w hsp hw⟩

/-- Settles O59: each word is decoded. -/
theorem wordsDecodeAsTheTablesSay : Obligations.WordsDecodeAsTheTablesSay := by
  unfold Obligations.WordsDecodeAsTheTablesSay
  exact ⟨rfl, rfl, rfl, rfl, rfl, rfl⟩
end

section
/-! PROOF. Causes of a word, of a group without a handler, and of misaligned accesses (O22). -/

namespace Sys2Proof.Machine

/-! ## Lane masks -/

theorem Mask.has_low {m : Mask} (h : m ≠ 0) : m.has m.low = true := by
  rw [← Mask.mem_lanes]
  unfold Mask.low
  cases hl : m.lanes with
  | nil =>
    refine absurd (Mask.ext_has (fun l _ => ?_)) h
    rw [Mask.has_zero, ← Bool.not_eq_true, ← Mask.mem_lanes, hl]
    exact List.not_mem_nil
  | cons l ls => exact List.mem_cons_self

/-! ## Registers outside the allocation (02 R33; 03 R47) -/

section
variable {g : Group} {d : Nat} (n : Nat)

theorem Group.vOk_outside (h : g.vregs ≤ d) : g.vOk d (n + 1) = false := decide_eq_false (by omega)
theorem Group.sOk_outside (h : g.sregs ≤ d) : g.sOk d (n + 1) = false := decide_eq_false (by omega)
theorem Group.vPairOk_outside (h : g.vregs ≤ d) : g.vPairOk d = false := by rw [Group.vPairOk, g.vOk_outside 1 h, Bool.and_false]
theorem Group.sPairOk_outside (h : g.sregs ≤ d) : g.sPairOk d = false := by rw [Group.sPairOk, g.sOk_outside 1 h, Bool.and_false]

end

/-- The word takes ILLEGAL_REG. -/
def State.refuses (s : State) (i : Instr) : Prop := exec i s = .next (s.raiseWord .illegalReg)

/-- A word whose meaning begins with the check `ok` of its registers is refused when they are not allocated. -/
theorem State.refuses_of_check {s : State} {i : Instr} {ok : Bool} {t : State} (h : exec i s = .next (if ok then t else s.raiseWord .illegalReg))
    (hok : ok = false) : s.refuses i := by
  rw [State.refuses, h, hok]
  rfl

/-- The same for a word that checks the negation. -/
theorem State.refuses_of_fault {s : State} {i : Instr} {ok : Bool} {t : State}
    (h : exec i s = .next (if !ok then s.raiseWord .illegalReg else t)) (hok : ok = false) : s.refuses i := by
  rw [State.refuses, h, hok]
  rfl

theorem State.refuses_vector (s : State) (h : Hdr) (d a b : Nat) (i14 : BitVec 14) (c : Hint) (hd : s.cur.vregs ≤ d) :
    ∀ i ∈ ([.vadd h d a b .i32, .vadd h a d b .i32, .vadd h a b d .i32, .vmovi h d i14, .vfadd h d a b .f32, .vcmplt h a d b .u32,
      .vld h d (.aff 0) 0 .w32 c, .vst h d (.aff 0) 0 .w32 c, .vcallx h d, .vspawn h a b d, .pgreq h a d] : List Instr), s.refuses i := by
  have hone := s.cur.vOk_outside 0 hd
  have hpair := s.cur.vPairOk_outside hd
  simp only [List.forall_mem_cons, List.not_mem_nil, false_imp_iff, implies_true, and_true]
  refine ⟨State.refuses_of_check rfl ?_, State.refuses_of_check rfl ?_, State.refuses_of_check rfl ?_, State.refuses_of_check rfl hone,
    State.refuses_of_check rfl ?_, State.refuses_of_check rfl ?_, State.refuses_of_fault rfl ?_, State.refuses_of_fault rfl ?_,
    State.refuses_of_check rfl hpair, State.refuses_of_fault rfl hone, State.refuses_of_fault rfl hpair⟩
  all_goals simp [State.vvv, Group.dataOk, wide, hone]

theorem State.refuses_uniform (s : State) (h : Hdr) (d a b : Nat) (i14 : BitVec 14) (hd : s.cur.sregs ≤ d) :
    ∀ i ∈ ([.sadd h d a b .i32, .smovi h d i14, .slui h d i14, .smov h a d, .brx h d, .waitt h d, .halto h d, .tbind h a d,
      .csrr h d 0x001, .csrr h d 0x020, .framea h d, .cpy h d a, .launch h d a] : List Instr), s.refuses i := by
  have hone := s.cur.sOk_outside 0 hd
  have hthree := s.cur.sOk_outside 2 hd
  have hpair := s.cur.sPairOk_outside hd
  simp only [List.forall_mem_cons, List.not_mem_nil, false_imp_iff, implies_true, and_true]
  refine ⟨State.refuses_of_check rfl ?_, State.refuses_of_check rfl hone, State.refuses_of_check rfl hone, State.refuses_of_check rfl ?_,
    State.refuses_of_fault rfl hpair, State.refuses_of_fault rfl hpair, State.refuses_of_fault rfl hone, State.refuses_of_fault rfl hpair,
    State.refuses_of_check rfl hone, State.refuses_of_check rfl hpair, State.refuses_of_fault rfl hpair, State.refuses_of_fault rfl ?_,
    State.refuses_of_fault rfl ?_⟩
  all_goals simp [State.sss, State.ss, hone, hthree]

/-! ## A cause at handler level (18 R316) -/

/-- A recursive fault stops the run of its group and changes nothing else of it, nor a byte. -/
theorem State.recursiveFault_frame (s : State) (detail : Nat) (addr : DWord) (hh : (s.ownerOf s.cur.owner).halt = none) (hs : s.settled) :
    (s.recursiveFault detail addr).cur = { s.cur with await := [], inRun := false } ∧ (s.recursiveFault detail addr).mem = s.mem := by
  have hfreeze : s.cur.freeze s.freeCtr = { s.cur with await := [], inRun := false } := by
    rw [Group.freeze, Group.deliverIf_settled _ _ _ hs]
  rw [State.recursiveFault, s.haltOwner_running _ _ _ _ _ _ _ _ _ hh, State.modOwner_cur, State.modGroups]
  exact ⟨(if_pos (beq_self_eq_true s.cur.owner)).trans hfreeze, rfl⟩

/-! ## A group that is terminated (01 R11) -/

@[simp] theorem State.barCheck_grids (s : State) (tid b : Nat) : (s.barCheck tid b).grids = s.grids := by
  unfold State.barCheck
  split <;> rfl

@[simp] theorem State.barCheckAll_grids (s : State) (tid : Nat) : (s.barCheckAll tid).grids = s.grids :=
  List.foldlRecOn (motive := fun t : State => t.grids = s.grids) _ _ rfl (fun t ht b _ => (t.barCheck_grids tid b).trans ht)

theorem State.recheck_grids (s : State) : s.recheck.grids = s.grids := State.barCheckAll_grids _ _

theorem State.withdrawLanes_grids (s : State) (m : Mask) : (s.withdrawLanes m).grids = s.grids := State.recheck_grids _

/-- What stays of a group whose lanes leave it: its parked lanes, and the cause it last took. -/
structure Group.KeepsCause (g g' : Group) : Prop where
  fbin : g'.fbin = g.fbin
  cause : g'.cause = g.cause
  tval : g'.tval = g.tval

namespace Group.KeepsCause

theorem trans {g g' g'' : Group} (h : g.KeepsCause g') (h' : g'.KeepsCause g'') : g.KeepsCause g'' :=
  ⟨h'.fbin.trans h.fbin, h'.cause.trans h.cause, h'.tval.trans h.tval⟩

end Group.KeepsCause

theorem Group.Released.keepsCause {g g' : Group} (h : g.Released g') : g.KeepsCause g' := by
  rw [h.frame]
  exact ⟨rfl, rfl, rfl⟩

theorem Group.dropOut_keepsCause (g : Group) (m : Mask) : g.KeepsCause (g.dropOut m) := by
  obtain ⟨y, hy⟩ := (g.leave m).yieldCheck_frame
  rw [Group.dropOut, hy]
  exact ⟨rfl, rfl, rfl⟩

theorem Group.endHandler_keepsCause (g : Group) : g.KeepsCause g.endHandler := by
  unfold Group.endHandler
  split <;> exact ⟨rfl, rfl, rfl⟩

theorem State.dropLanes_keepsCause (s : State) (m : Mask) (h : s.cur.outst = []) :
    s.cur.KeepsCause (s.dropLanes m).cur ∧ (s.dropLanes m).grids = s.grids := by
  obtain ⟨o, ho⟩ := s.releaseServed_frame s.cur m
  have hr := State.withdrawLanes_cur_released { s with owners := o } m h
  have hgrids := State.withdrawLanes_grids { s with owners := o } m
  rw [s.dropLanes_eq, ho]
  generalize State.withdrawLanes { s with owners := o } m = u at *
  have hr' := (u.modCur (fun g => g.dropOut m)).recheck_cur_released (u.cur.dropOut_settled m (hr.outst.trans h))
  have hgrids' := (u.modCur (fun g => g.dropOut m)).recheck_grids
  generalize (u.modCur (fun g => g.dropOut m)).recheck = w at *
  obtain ⟨teams, run, he⟩ := (w.modCur Group.endHandler).groupEnd_frame
  rw [he]
  refine ⟨?_, hgrids'.trans hgrids⟩
  have hend := ((hr.keepsCause.trans (u.cur.dropOut_keepsCause m)).trans hr'.keepsCause).trans w.cur.endHandler_keepsCause
  exact ⟨hend.fbin, hend.cause, hend.tval⟩

/-- The lanes of a group that retires drop out once nothing of it is outstanding, parked or waited for by a trap. -/
theorem State.retireGroup_dropLanes (s : State) : ∃ (served : List Served) (u : State),
    u.cur = { s.cur with served := served, outst := [], await := [], fbin := 0, trap := none } ∧ u.grids = s.grids ∧ u.mem = s.mem ∧
      s.retireGroup = (u.dropLanes (s.cur.live ||| s.cur.fbin)).endRun := by
  obtain ⟨served, hc⟩ := s.cancelFaults_cur s.cur.gid s.cur.fbin
  refine ⟨served, ((s.cancelFaults s.cur.gid s.cur.fbin).modCur (fun g => { g with outst := [], await := [], fbin := 0 })).modCur
    (fun g => { g with trap := none }), ?_, rfl, rfl, rfl⟩
  simp only [State.modCur, hc]

/-- A group that retires as a whole has no lane left; it keeps its cause, the grids theirs, and memory its bytes (06 R123). -/
theorem State.retireGroup_results (s : State) :
    s.retireGroup.cur.live = 0 ∧ s.retireGroup.cur.fbin = 0 ∧ s.retireGroup.cur.cause = s.cur.cause ∧
      s.retireGroup.cur.tval = s.cur.tval ∧ s.retireGroup.grids = s.grids ∧ s.retireGroup.mem = s.mem := by
  obtain ⟨served, u, hu, hgrids, hmem, hretire⟩ := s.retireGroup_dropLanes
  have hout : u.cur.outst = [] := by rw [hu]
  obtain ⟨hlive, hmem', -⟩ := u.dropLanes_results (s.cur.live ||| s.cur.fbin) hout
  obtain ⟨⟨hfbin, hcause, htval⟩, hgrids'⟩ := u.dropLanes_keepsCause (s.cur.live ||| s.cur.fbin) hout
  rw [hretire]
  rw [hu] at hlive hfbin hcause htval
  refine ⟨hlive.trans (Mask.andNot_eq_zero.mpr (fun l hl => ?_)), hfbin, hcause, htval, hgrids'.trans hgrids, hmem'.trans hmem⟩
  rw [Mask.has_or, show s.cur.live.has l = true from hl, Bool.true_or]

theorem State.gridOf_modGrid (s : State) (id : Nat) (f : Grid → Grid) (hf : ∀ g, (f g).gid = g.gid)
    (h : ∃ g ∈ s.grids, g.gid = id) : (s.modGrid id f).gridOf id = f (s.gridOf id) := by
  obtain ⟨g, hg, hid⟩ := h
  exact findD_modAll _ _ f (fun g hg => by simpa [hf] using hg) _ ⟨g, hg, by simp [hid]⟩

/-- A grid that reports the end of a group. -/
def Grid.report (g : Grid) (e : Ended) : Grid := { g with terminated := true, ended := g.ended ++ [e] }

theorem State.terminate_eq (s : State) (c : Cause) (tval : DWord) (m : Mask) :
    s.terminate c tval m = ((s.modCur (fun g => g.saveCause c tval m)).modGrid s.cur.grid
      (fun g => g.report ⟨s.cur.gnum, BitVec.ofNat 32 c.code, tval, m⟩)).retireGroup := rfl

/-- A group that takes a cause without a handler for it ends, and its grid reports it. -/
theorem State.raise_terminates (s : State) (c : Cause) (tval : DWord) (m : Mask) (hv : s.cur.hlv = false)
    (hh : s.handlerOf s.cur.grid c = 0) (hg : ∃ g ∈ s.grids, g.gid = s.cur.grid) :
    (s.raise c tval m).cur.live = 0 ∧ (s.raise c tval m).cur.alive = false ∧ (s.raise c tval m).cur.cause = BitVec.ofNat 32 c.code ∧
      (s.raise c tval m).cur.tval = tval ∧ (s.raise c tval m).mem = s.mem ∧
      (s.raise c tval m).gridOf s.cur.grid = s.curGrid.report ⟨s.cur.gnum, BitVec.ofNat 32 c.code, tval, m⟩ := by
  have hraise : s.raise c tval m = s.terminate c tval m := (if_neg (by simp [hv])).trans (if_pos hh)
  have hgrid := (s.modCur (fun g => g.saveCause c tval m)).gridOf_modGrid s.cur.grid
    (fun g => g.report ⟨s.cur.gnum, BitVec.ofNat 32 c.code, tval, m⟩) (fun _ => rfl) hg
  obtain ⟨hlive, hfbin, hcause, htval, hgrids, hmem⟩ := ((s.modCur (fun g => g.saveCause c tval m)).modGrid s.cur.grid
    (fun g => g.report ⟨s.cur.gnum, BitVec.ofNat 32 c.code, tval, m⟩)).retireGroup_results
  rw [← s.terminate_eq, ← hraise] at hlive hfbin hcause htval hgrids hmem
  refine ⟨hlive, by simp [Group.alive, hlive, hfbin], hcause, htval, hmem, ?_⟩
  rw [State.gridOf, hgrids]
  exact hgrid

/-! ## Misaligned accesses (14 R247, R248) -/

/-- Every active lane of the access `x` is misaligned and none runs on into a fenced bank; there is an active lane, and the group is at no
handler level. -/
structure State.Misaligned (s : State) (h : Hdr) (x : LaneMem) : Prop where
  settled : s.settled
  below : s.cur.hlv = false
  some : s.active h ≠ 0
  whole : ∀ l, x.va2 l = none
  align : ∀ l, (s.active h).has l = true → s.classify x.mode x.align x.atom (x.va l) = .align
  inBank : ∀ l, (s.active h).has l = true → s.spills x.mode (x.va l) x.size = false

section
variable {s : State} {h : Hdr} {x : LaneMem}

theorem State.Misaligned.laneParts (hx : s.Misaligned h x) (l : Nat) (hl : (s.active h).has l = true) :
    s.laneParts x l = [⟨x.va l, x.size, .align⟩] := by
  simp [State.laneParts, hx.whole l, hx.align l hl, hx.inBank l hl]

/-- An access that writes nothing covers no block, and lifts no poison. -/
theorem State.clearCovered_nil (s : State) : s.clearCovered [] = s := by
  have hkeep : s.poison.filter (fun b => !((List.range 64).all (fun j =>
      ([] : List (Nat × Nat)).any (fun w => decide (w.1 ≤ 64 * b + j) && decide (64 * b + j < w.1 + w.2))))) = s.poison :=
    List.filter_eq_self.mpr (fun _ _ => rfl)
  rw [State.clearCovered, hkeep]

theorem State.addResults_nil (s : State) (words : Nat → Option HostWord) (hs : s.settled) : s.addResults words [] = s := by
  have hout : s.cur.outst.map (fun e => if ([] : List OutRes).any e.sameReg then { e with clob := true } else e) ++
      ([] : List OutRes).map (OutRes.over s.freeCtr s.cur.outst) = s.cur.outst := by
    rw [show s.cur.outst = [] from hs]
    rfl
  have hadd : s.cur.addOut s.freeCtr [] = s.cur := by
    unfold Group.addOut
    rw [hout, if_pos rfl]
  rw [State.addResults, State.modCur, hadd, Group.deliverIf_settled _ _ _ hs, State.noteHost_none _ _ _ (fun _ he => by cases he)]

/-- No lane of a misaligned access is performed: ALIGN is raised where the other lanes of the issue set have gone on. -/
theorem State.Misaligned.laneMem (hx : s.Misaligned h x) : s.laneMem h true x =
    (s.goOn (s.cur.iss &&& ~~~s.active h) 4).raise .align (x.va (s.active h).low) (s.active h) := by
  have hcls : ∀ l, (s.active h).has l = true → partsClass (s.laneParts x l) = .align := fun l hl => by
    rw [hx.laneParts l hl]
    rfl
  have hnone : ∀ p : LaneClass → Bool, p .align = false → laneSet (s.active h) (fun i => p (partsClass (s.laneParts x i))) = 0 :=
    fun p hp => laneSet_of_false (fun l hl => by rw [hcls l hl, hp])
  have hall : laneSet (s.active h) (fun i => partsClass (s.laneParts x i) == .align) = s.active h :=
    laneSet_of_true (fun l hl => by rw [hcls l hl]; rfl)
  have hpois : (if x.reads = true then laneSet (s.active h) (fun i => ((partsClass (s.laneParts x i)).isOk ||
      partsClass (s.laneParts x i) == .zero || partsClass (s.laneParts x i) == .dead) && (s.laneParts x i).any s.partPoisoned) else 0) = 0 := by
    split
    · exact laneSet_of_false (fun l hl => by rw [hcls l hl]; rfl)
    · rfl
  have hflow : stalled (s.active h) (fun i => partsClass (s.laneParts x i)) = 0 := hnone (fun c => c == .wait || c == .frozen) rfl
  have hdone : laneSet (s.active h) (fun i => (partsClass (s.laneParts x i)).isOk || partsClass (s.laneParts x i) == .zero ||
      partsClass (s.laneParts x i) == .dead) = 0 := hnone (fun c => c.isOk || c == .zero || c == .dead) rfl
  have hfin : (0 : Mask) &&& ~~~(0 : Mask) = 0 := BitVec.zero_and
  have hgone : (s.cur.iss &&& ~~~s.active h) ||| (0 : Mask) = s.cur.iss &&& ~~~s.active h := BitVec.or_zero
  unfold State.laneMem
  simp only [Bool.not_true, Bool.false_eq_true, if_false, hx.below, hpois, hflow, hdone, hfin, hgone, laneSet_zero, ne_eq,
    not_true_eq_false, Mask.lanes_zero, List.flatMap_nil, List.foldl_nil, freeOrder, ite_self, List.append_nil]
  have hu : (s.goOn (s.cur.iss &&& ~~~s.active h) 4).settled := by
    rw [s.goOn_settled _ _ hx.settled]
    exact hx.settled
  rw [State.clearCovered_nil, ite_self, State.addResults_nil _ _ hu]
  unfold State.finishAccess
  simp only [hnone (· == .fence) rfl, hall, laneSet_zero, State.logFences, Mask.lanes_zero, List.foldl_nil, ne_eq, not_true_eq_false,
    if_false, hx.some, not_false_eq_true, if_true]
  rw [hx.laneParts _ (Mask.has_low hx.some)]
  rfl

/-- The lanes of a misaligned access stand at the handler of ALIGN with their PCs saved, and nothing has been loaded or stored. -/
theorem State.Misaligned.results (hx : s.Misaligned h x) (hh : s.handlerOf s.cur.grid .align ≠ 0) :
    ∃ t, s.laneMem h true x = t ∧ t.cur.cause = 10 ∧ t.cur.tval = x.va (s.active h).low ∧ t.cur.tlane = s.active h ∧ t.cur.hlv = true ∧
      t.cur.hl = s.active h ∧ t.mem = s.mem ∧ t.cur.v = s.cur.v ∧
      ∀ l, (s.active h).has l = true → t.cur.pc.get l = s.handlerOf s.cur.grid .align ∧ t.cur.savedPc.get l = s.cur.pc.get l := by
  refine ⟨_, hx.laneMem, ?_⟩
  rw [s.goOn_settled _ _ hx.settled]
  obtain ⟨hcause, htval, htlane, hlv, hhl, hpc, hsaved, hframe⟩ := State.raise_took
    { s with cur := s.cur.setPc (s.cur.iss &&& ~~~s.active h) (fun _ => s.cur.ipc + BitVec.ofNat 64 4) } .align (x.va (s.active h).low)
    (s.active h) ⟨hx.below, hh⟩
  refine ⟨hcause, htval, htlane, hlv, hhl, by rw [hframe], by rw [hframe]; rfl, fun l hl => ?_⟩
  have hl64 := Mask.has_lt _ l hl
  refine ⟨(hpc l hl64).trans (if_pos hl), (hsaved l hl64).trans ((if_pos hl).trans ?_)⟩
  exact (Group.pc_setPc _ _ _ l hl64).trans (if_neg (by rw [Mask.has_andNot, hl]; simp))

end

theorem Group.dataOk_of_le (g : Group) (k : MemK) (d : Nat) (hd : d + (memBytes k + 3) / 4 ≤ g.vregs) (hw : k = .w64 → d % 2 = 0) :
    g.dataOk (wide k) d = true := by
  cases k with
  | b8 => exact decide_eq_true hd
  | b16 => exact decide_eq_true hd
  | w32 => exact decide_eq_true hd
  | w64 => exact g.vPairOk_of_le (hw rfl) hd

theorem exec_vld_allocated (s : State) (h : Hdr) (d l0 : Nat) (a : Adr) (k : MemK) (c : Hint) (hd : s.cur.dataOk (wide k) d = true)
    (ha : s.cur.adrOk a = true) :
    exec (.vld h d a l0 k c) s = .next (s.laneMem h true (loadMem s (memBytes k) (regsOf k) d l0 (s.addrM a))) :=
  congrArg (fun ok => Host.Outcome.next (s.laneMem h ok (loadMem s (memBytes k) (regsOf k) d l0 (s.addrM a))))
    (show (s.cur.dataOk (wide k) d && s.cur.adrOk a) = true by rw [hd, ha]; rfl)

theorem exec_vst_allocated (s : State) (h : Hdr) (d l0 : Nat) (a : Adr) (k : MemK) (c : Hint) (hd : s.cur.dataOk (wide k) d = true)
    (ha : s.cur.adrOk a = true) :
    exec (.vst h d a l0 k c) s = .next (s.laneMem h true (storeMem s (memBytes k) (s.addrM a) (s.storeVal k d))) :=
  congrArg (fun ok => Host.Outcome.next (s.laneMem h ok (storeMem s (memBytes k) (s.addrM a) (s.storeVal k d))))
    (show (s.cur.dataOk (wide k) d && s.cur.adrOk a) = true by rw [hd, ha]; rfl)

end Sys2Proof.Machine

open Sys2Proof Sys2Proof.Machine

/-- Settles O22: what a word checks before it acts, the three outcomes of taking a cause, and the access of which no lane is performed. -/
theorem causesAreTaken : Obligations.CausesAreTaken := by
  unfold Obligations.CausesAreTaken
  refine ⟨fun s w h d a b i14 c hs => ⟨fun hc => ?_, fun hc hd i hi => ?_, fun hc hd i hi => ?_⟩,
    fun s w hs => ⟨fun hv hh ho => ?_, fun hv hh hg => ?_⟩, fun s h d a k c hs hv _ ha hd hw hact hmis hh => ?_⟩
  · exact ⟨_, rfl, s.raise_took .illegalOp _ _ hc⟩
  · exact ⟨_, s.refuses_vector h d a b i14 c hd i hi, s.raise_took .illegalReg _ _ hc⟩
  · exact ⟨_, s.refuses_uniform h d a b i14 hd i hi, s.raise_took .illegalReg _ _ hc⟩
  · have hraise : s.raiseWord .illegalOp = s.recursiveFault 3 s.cur.ipc := s.raise_atHandler .illegalOp _ _ hv
    obtain ⟨hcur, hmem⟩ := s.recursiveFault_frame 3 s.cur.ipc hh hs
    refine ⟨_, congrArg Host.Outcome.next hraise, s.recursiveFault_haltedWith 3 s.cur.ipc hh ho, ?_⟩
    rw [hcur]
    exact ⟨rfl, rfl, rfl, rfl, rfl, rfl, hmem, rfl⟩
  · obtain ⟨hlive, halive, hcause, htval, hmem, hgrid⟩ := s.raise_terminates .illegalOp s.cur.ipc s.cur.iss hv hh hg
    exact ⟨s.raiseWord .illegalOp, rfl, hlive, halive, congrArg Grid.terminated hgrid, congrArg Grid.ended hgrid, hcause, htval, hmem⟩
  · have hok := s.cur.dataOk_of_le k d hd hw
    have hload : s.Misaligned h (loadMem s (memBytes k) (regsOf k) d 0 (s.addrM a)) :=
      ⟨hs, hv, hact, fun _ => rfl, fun l hl => (hmis l hl).1, fun l hl => (hmis l hl).2.2.1⟩
    have hstore : s.Misaligned h (storeMem s (memBytes k) (s.addrM a) (s.storeVal k d)) :=
      ⟨hs, hv, hact, fun _ => rfl, fun l hl => (hmis l hl).2.1, fun l hl => (hmis l hl).2.2.2⟩
    simp only [List.forall_mem_cons, List.not_mem_nil, false_imp_iff, implies_true, and_true]
    obtain ⟨t, rfl, ht⟩ := hload.results hh
    obtain ⟨u, rfl, hu⟩ := hstore.results hh
    exact ⟨⟨_, exec_vld_allocated s h d 0 a k c hok ha, ht⟩, ⟨_, exec_vst_allocated s h d 0 a k c hok ha, hu⟩⟩
end

section
/-! PROOF. The values of the integer words, in the integer arithmetic their entries are stated in (O1, O2, O4). -/

namespace Sys2Proof.Machine

/-! ## Sums, differences and products modulo 2^n -/

theorem ofNat_toNat_self {n : Nat} (x : BitVec n) : BitVec.ofNat n x.toNat = x := (BitVec.ofNat_toNat n x).trans (BitVec.setWidth_eq x)

theorem add_eq_ofInt {n : Nat} (x y : BitVec n) : x + y = BitVec.ofInt n ((x.toNat : Int) + y.toNat) :=
  (BitVec.ofInt_natCast n (x.toNat + y.toNat)).symm

theorem sub_eq_ofInt {n : Nat} (x y : BitVec n) : x - y = BitVec.ofInt n ((x.toNat : Int) - y.toNat) := by
  have hx : BitVec.ofInt n (x.toNat : Int) = x := (BitVec.ofInt_natCast n _).trans (ofNat_toNat_self x)
  have hy : BitVec.ofInt n (y.toNat : Int) = y := (BitVec.ofInt_natCast n _).trans (ofNat_toNat_self y)
  rw [Int.sub_eq_add_neg, BitVec.ofInt_add, BitVec.ofInt_neg, hx, hy, BitVec.sub_eq_add_neg]

theorem mul_eq_ofNat {n : Nat} (x y : BitVec n) : x * y = BitVec.ofNat n (x.toNat * y.toNat) := by
  rw [BitVec.ofNat_mul, ofNat_toNat_self, ofNat_toNat_self]

theorem mul_eq_ofInt {n : Nat} (x y : BitVec n) : x * y = BitVec.ofInt n ((x.toNat : Int) * y.toNat) :=
  (mul_eq_ofNat x y).trans (BitVec.ofInt_natCast n (x.toNat * y.toNat)).symm

/-! ## Saturation (05 R78) -/

theorem satS_eq_clamp (x : Int) : satS x = BitVec.ofInt 32 (max (-2147483648) (min 2147483647 x)) := by
  unfold satS
  split
  · rw [show max (-2147483648) (min 2147483647 x) = -2147483648 by omega]
    rfl
  · split
    · rw [show max (-2147483648) (min 2147483647 x) = 2147483647 by omega]
      rfl
    · rw [show max (-2147483648) (min 2147483647 x) = x by omega]

theorem satU_eq_clamp (x : Int) : satU x = BitVec.ofNat 32 (min 4294967295 x.toNat) := by
  unfold satU
  split
  · rw [show min 4294967295 x.toNat = 0 by omega]
    rfl
  · split
    · rw [show min 4294967295 x.toNat = 4294967295 by omega]
      rfl
    · rw [show min 4294967295 x.toNat = x.toNat by omega, ← BitVec.ofInt_natCast, Int.toNat_of_nonneg (by omega)]

/-! ## Sums and differences (05 R79) -/

/-- The halves of a result, as one number (05 R79). -/
theorem halves_eq_ofNat (f : BitVec 16 → BitVec 16 → BitVec 16) (x y : Word) :
    halves f x y = BitVec.ofNat 32 ((f (BitVec.ofNat 16 (x.toNat / 65536)) (BitVec.ofNat 16 (y.toNat / 65536))).toNat * 65536 +
      (f (BitVec.ofNat 16 x.toNat) (BitVec.ofNat 16 y.toNat)).toNat) := by
  have hhigh : ∀ z : Word, z.extractLsb' 16 16 = BitVec.ofNat 16 (z.toNat / 65536) := fun z => by
    rw [BitVec.extractLsb', Nat.shiftRight_eq_div_pow]
  have hlow : ∀ z : Word, z.extractLsb' 0 16 = BitVec.ofNat 16 z.toNat := fun z => rfl
  unfold halves
  rw [hhigh, hhigh, hlow, hlow]
  generalize f (BitVec.ofNat 16 (x.toNat / 65536)) (BitVec.ofNat 16 (y.toNat / 65536)) = hi
  generalize f (BitVec.ofNat 16 x.toNat) (BitVec.ofNat 16 y.toNat) = lo
  apply BitVec.eq_of_toNat_eq
  rw [BitVec.toNat_append, ← Nat.shiftLeft_add_eq_or_of_lt lo.isLt, Nat.shiftLeft_eq, BitVec.toNat_ofNat]
  omega

theorem addK_si32 (x y : Word) : addK .si32 x y = BitVec.ofInt 32 (max (-2147483648) (min 2147483647 (x.toInt + y.toInt))) :=
  satS_eq_clamp _

theorem addK_su32 (x y : Word) : addK .su32 x y = BitVec.ofNat 32 (min 4294967295 (x.toNat + y.toNat)) :=
  satU_eq_clamp _

theorem addK_i16x2 (x y : Word) : addK .i16x2 x y =
    BitVec.ofNat 32 ((x.toNat / 65536 + y.toNat / 65536) % 65536 * 65536 + (x.toNat + y.toNat) % 65536) := by
  rw [addK, halves_eq_ofNat, BitVec.ofNat_add_ofNat, BitVec.ofNat_add_ofNat, BitVec.toNat_ofNat, BitVec.toNat_ofNat]

theorem subK_si32 (x y : Word) : subK .si32 x y = BitVec.ofInt 32 (max (-2147483648) (min 2147483647 (x.toInt - y.toInt))) :=
  satS_eq_clamp _

theorem subK_su32 (x y : Word) : subK .su32 x y = BitVec.ofNat 32 (x.toNat - y.toNat) := by
  have hx := x.isLt
  rw [subK, satU_eq_clamp, show min 4294967295 ((x.toNat : Int) - y.toNat).toNat = x.toNat - y.toNat by omega]

theorem subK_i16x2 (x y : Word) : subK .i16x2 x y =
    BitVec.ofNat 32 ((x.toNat / 65536 + 65536 - y.toNat / 65536) % 65536 * 65536 +
      (x.toNat % 65536 + 65536 - y.toNat % 65536) % 65536) := by
  have hx := x.isLt
  have hy := y.isLt
  rw [subK, halves_eq_ofNat]
  simp only [BitVec.toNat_sub, BitVec.toNat_ofNat]
  refine congrArg (BitVec.ofNat 32) ?_
  omega

/-! ## Products (05 R80) -/

theorem mulK_i16x2 (x y : Word) : mulK .i16x2 x y = BitVec.ofNat 32
    ((x.toNat / 65536 * (y.toNat / 65536)) % 65536 * 65536 + (x.toNat % 65536 * (y.toNat % 65536)) % 65536) := by
  rw [mulK, halves_eq_ofNat, BitVec.ofNat_mul_ofNat, BitVec.ofNat_mul_ofNat, BitVec.toNat_ofNat, BitVec.toNat_ofNat,
    ← Nat.mul_mod x.toNat]

theorem mad_eq_ofNat (x y z : Word) : x * y + z = BitVec.ofNat 32 (x.toNat * y.toNat + z.toNat) := by
  rw [mul_eq_ofNat, BitVec.ofNat_add, ofNat_toNat_self]

/-! ## Shifts (05 R83, R86) -/

theorem shl32_eq_ofNat (x : Word) (n : Nat) : shl32 x n = BitVec.ofNat 32 (x.toNat * 2 ^ (n % 32)) := by
  rw [shl32, ← Nat.shiftLeft_eq]
  rfl

theorem shr32_l_eq_ofNat (x : Word) (n : Nat) : shr32 .l x n = BitVec.ofNat 32 (x.toNat / 2 ^ (n % 32)) := by
  rw [shr32, ← Nat.shiftRight_eq_div_pow, ← BitVec.toNat_ushiftRight, ofNat_toNat_self]

theorem shr32_a_eq_ofInt (x : Word) (n : Nat) : shr32 .a x n = BitVec.ofInt 32 (x.toInt / 2 ^ (n % 32)) := by
  rw [shr32, ← BitVec.ofInt_toInt (x := x.sshiftRight (n % 32)), BitVec.toInt_sshiftRight, Int.shiftRight_eq_div_pow]
  rfl

theorem rotr_eq_ofNat (x : Word) (n : Nat) (hn : n < 32) :
    shiK .rotr x n = BitVec.ofNat 32 (x.toNat / 2 ^ n) ||| BitVec.ofNat 32 (x.toNat * 2 ^ (32 - n)) := by
  have hright : x >>> n = BitVec.ofNat 32 (x.toNat / 2 ^ n) := by
    rw [← Nat.shiftRight_eq_div_pow, ← BitVec.toNat_ushiftRight, ofNat_toNat_self]
  have hleft : x <<< (32 - n) = BitVec.ofNat 32 (x.toNat * 2 ^ (32 - n)) := by
    rw [← Nat.shiftLeft_eq]
    rfl
  rw [shiK, Nat.mod_eq_of_lt hn, BitVec.rotateRight_def, Nat.mod_eq_of_lt hn, hright, hleft]

/-! ## The smaller and the larger (05 R84) -/

theorem minK_i32 (x y : Word) : minK .i32 x y = BitVec.ofInt 32 (min x.toInt y.toInt) := by
  rw [minK, Int.min_def, apply_ite (BitVec.ofInt 32), BitVec.ofInt_toInt, BitVec.ofInt_toInt]

theorem minK_u32 (x y : Word) : minK .u32 x y = BitVec.ofNat 32 (min x.toNat y.toNat) := by
  rw [minK, Nat.min_def, apply_ite (BitVec.ofNat 32), ofNat_toNat_self, ofNat_toNat_self]

theorem maxK_i32 (x y : Word) : maxK .i32 x y = BitVec.ofInt 32 (max x.toInt y.toInt) := by
  rw [maxK, Int.max_comm, Int.max_def, apply_ite (BitVec.ofInt 32), BitVec.ofInt_toInt, BitVec.ofInt_toInt]

theorem maxK_u32 (x y : Word) : maxK .u32 x y = BitVec.ofNat 32 (max x.toNat y.toNat) := by
  rw [maxK, Nat.max_comm, Nat.max_def, apply_ite (BitVec.ofNat 32), ofNat_toNat_self, ofNat_toNat_self]

/-! ## Immediates and the unary words (05 R85, R88) -/

theorem add_imm8_eq_ofInt (x : Word) (i : BitVec 8) : x + imm8 i = BitVec.ofInt 32 (x.toNat + i.toInt) := by
  rw [BitVec.ofInt_add, BitVec.ofInt_natCast, ofNat_toNat_self]
  rfl

theorem neg_eq_ofInt (x : Word) : 0 - x = BitVec.ofInt 32 (0 - (x.toNat : Int)) := sub_eq_ofInt 0 x

theorem abs_eq_ofInt (x : Word) : (if x.toInt < 0 then 0 - x else x) = BitVec.ofInt 32 (x.toInt.natAbs : Int) := by
  split
  · rw [show (x.toInt.natAbs : Int) = -x.toInt by omega, BitVec.ofInt_neg, BitVec.ofInt_toInt]
    exact BitVec.zero_sub x
  · rw [show (x.toInt.natAbs : Int) = x.toInt by omega, BitVec.ofInt_toInt]

/-! ## Counts of bits (05 R88) -/

theorem popc_eq_countP (x : Word) (n : Nat) : popc x n = (List.range n).countP (fun j => x.getLsbD j) := by
  induction n with
  | zero => rfl
  | succ n ih => rw [popc, ih, List.range_succ, List.countP_append, List.countP_singleton]

theorem clz_eq_takeWhile (x : Word) (n : Nat) : clz x n = ((List.range n).reverse.takeWhile (fun j => !x.getLsbD j)).length := by
  induction n with
  | zero => rfl
  | succ n ih =>
    rw [clz, ih, List.range_succ, List.reverse_append, List.reverse_singleton, List.singleton_append, List.takeWhile_cons]
    cases x.getLsbD n with
    | true => rfl
    | false => exact Nat.add_comm _ _

theorem clz_zero (n : Nat) : clz 0 n = n := by
  induction n with
  | zero => rfl
  | succ n ih => rw [clz, ih, if_neg (by simp), Nat.add_comm]

/-- The zero bits counted from bit `n - 1` down end at a one bit, when there is one below `n`. -/
theorem clz_below (x : Word) (n : Nat) (h : ∃ j, j < n ∧ x.getLsbD j = true) :
    clz x n < n ∧ x.getLsbD (n - 1 - clz x n) = true ∧ ∀ j, n - 1 - clz x n < j → j < n → x.getLsbD j = false := by
  induction n with
  | zero =>
    obtain ⟨j, hj, -⟩ := h
    omega
  | succ n ih =>
    cases hb : x.getLsbD n with
    | true =>
      rw [clz, if_pos hb]
      exact ⟨Nat.succ_pos n, hb, fun j hlo hhi => by omega⟩
    | false =>
      obtain ⟨j, hj, hone⟩ := h
      have hne : j ≠ n := fun he => by simp [he, hb] at hone
      obtain ⟨hlt, htop, hzero⟩ := ih ⟨j, by omega, hone⟩
      rw [clz, if_neg (by simp [hb]), show n + 1 - 1 - (1 + clz x n) = n - 1 - clz x n by omega]
      refine ⟨by omega, htop, fun j hlo hhi => ?_⟩
      by_cases hj : j = n
      · rw [hj, hb]
      · exact hzero j hlo (by omega)

/-- The zero bits of a word above its highest one bit. -/
theorem clz_highest (x : Word) (hx : x ≠ 0) : clz x 32 < 32 ∧ x.getLsbD (31 - clz x 32) = true ∧
    ∀ j, 31 - clz x 32 < j → x.getLsbD j = false := by
  have hone : ∃ j, j < 32 ∧ x.getLsbD j = true := by
    refine Classical.byContradiction (fun hnone => hx (BitVec.eq_of_getLsbD_eq (fun j hj => ?_)))
    exact (Bool.eq_false_iff.mpr (fun hb => hnone ⟨j, hj, hb⟩)).trans BitVec.getLsbD_zero.symm
  obtain ⟨hlt, htop, hzero⟩ := clz_below x 32 hone
  refine ⟨hlt, htop, fun j hlo => ?_⟩
  by_cases hj : j < 32
  · exact hzero j hlo hj
  · exact BitVec.getLsbD_of_ge x j (by omega)

theorem getLsbD_brev (x : Word) (j : Nat) (hj : j < 32) : (brev x).getLsbD (31 - j) = x.getLsbD j := by
  rw [brev, BitVec.getLsbD_reverse, BitVec.getMsbD_eq_getLsbD, decide_eq_true (by omega), Bool.true_and]
  exact congrArg x.getLsbD (by omega)

end Sys2Proof.Machine
end

section
/-! PROOF. Lane words on integers, predicates and FP32 compares (O1, O2, O3). -/

namespace Sys2Proof.Machine

/-! ## Words that write v(d) (05 R74) -/

theorem State.wroteV.value {s t : State} {m : Mask} {d len : Nat} {f : Nat → Word} (hw : s.wroteV t m d len f) {l : Nat} (hl : l < 64)
    (hm : m.has l = true) : t.cur.vraw d l = f l := (hw.1 l hl).trans (if_pos hm)

/-- What a word wrote to v(d) is what v(d) then holds. -/
theorem State.wroteV.itself {s t : State} {m : Mask} {d len : Nat} {f : Nat → Word} (hw : s.wroteV t m d len f) :
    s.wroteV t m d len (t.cur.vraw d) := by
  obtain ⟨hd, hrest⟩ := hw
  refine ⟨fun l hl => ?_, hrest⟩
  by_cases hm : m.has l = true
  · rw [if_pos hm]
  · rw [if_neg hm, hd l hl, if_neg hm]

theorem State.vvv_allocated (s : State) {d a b : Nat} (hd : d < s.cur.vregs) (ha : a < s.cur.vregs) (hb : b < s.cur.vregs) :
    s.vvv d a b = true := by
  simp [State.vvv, Group.vOk, Nat.succ_le_of_lt hd, Nat.succ_le_of_lt ha, Nat.succ_le_of_lt hb]

theorem State.vv_allocated (s : State) {d a : Nat} (hd : d < s.cur.vregs) (ha : a < s.cur.vregs) : s.vv d a = true := by
  simp [State.vv, Group.vOk, Nat.succ_le_of_lt hd, Nat.succ_le_of_lt ha]

section
variable {s : State} {h : Hdr} {d a b : Nat} (hs : s.settled)
include hs

theorem State.laneAlu_results {ok : Bool} (hok : ok = true) {i : Instr} {f F : Nat → Word} {len : Nat}
    (he : exec i s = .next (s.laneAlu h ok d f len)) (hf : ∀ l, f l = F l) :
    ∃ t, exec i s = .next t ∧ s.wroteV t (s.active h) d len F :=
  ⟨_, he, funext hf ▸ s.laneAlu_wroteV h ok d f len hs hok⟩

theorem State.lane2_results (hd : d < s.cur.vregs) (ha : a < s.cur.vregs) (hb : b < s.cur.vregs) {i : Instr} {f : Word → Word → Word}
    {F : Nat → Word} (he : exec i s = .next (s.lane2 h d a b f)) (hf : ∀ l, f (s.cur.vraw a l) (s.cur.vraw b l) = F l) :
    ∃ t, exec i s = .next t ∧ s.wroteV t (s.active h) d 4 F :=
  State.laneAlu_results hs (s.vvv_allocated hd ha hb) he (fun l => by rw [s.vreg_settled _ _ _ hs, s.vreg_settled _ _ _ hs, hf])

theorem State.lane1_results (hd : d < s.cur.vregs) (ha : a < s.cur.vregs) {i : Instr} {f : Word → Word} {F : Nat → Word}
    (he : exec i s = .next (s.lane1 h d a f)) (hf : ∀ l, f (s.cur.vraw a l) = F l) :
    ∃ t, exec i s = .next t ∧ s.wroteV t (s.active h) d 4 F :=
  State.laneAlu_results hs (s.vv_allocated hd ha) he (fun l => by rw [s.vreg_settled _ _ _ hs, hf])

/-- The same, with what v(d) holds afterwards in place of the values. -/
theorem State.lane1_reads (hd : d < s.cur.vregs) (ha : a < s.cur.vregs) {i : Instr} {f : Word → Word}
    (he : exec i s = .next (s.lane1 h d a f)) :
    ∃ t, exec i s = .next t ∧ s.wroteV t (s.active h) d 4 (t.cur.vraw d) ∧
      ∀ l, l < 64 → (s.active h).has l = true → t.cur.vraw d l = f (s.cur.vraw a l) := by
  obtain ⟨t, ht, hw⟩ := State.lane1_results hs hd ha he (fun _ => rfl)
  exact ⟨t, ht, hw.itself, fun l hl hm => hw.value hl hm⟩

end

/-! ## Words that write p(d) (05 R105, R108, R109) -/

theorem Mask.has_xor (a b : Mask) (l : Nat) : Mask.has (a ^^^ b) l = (Mask.has a l != Mask.has b l) := BitVec.getLsbD_xor

/-- The bit that a predicate move makes of one bit (05 R109, R113). -/
def movBit : MovK → Bool → Bool
  | .cpy, x => x
  | .not, x => !x
  | .set, _ => true
  | .clr, _ => false

theorem Mask.has_movK (k : MovK) (m : Mask) (l : Nat) (hl : l < 64) : Mask.has (movK k m) l = movBit k (Mask.has m l) := by
  cases k with
  | cpy => rfl
  | not => exact Mask.has_not m l hl
  | set => exact BitVec.getLsbD_allOnes.trans (decide_eq_true hl)
  | clr => exact Mask.has_zero l

/-- Predicate logic is the logic of uniform predicates in each lane (05 R108, R111). -/
theorem Mask.has_logK (k : LogK) (m n : Mask) (l : Nat) : Mask.has (logK k m n) l = qlogK k (Mask.has m l) (Mask.has n l) := by
  cases k with
  | and => exact Mask.has_and m n l
  | or => exact Mask.has_or m n l
  | xor => exact Mask.has_xor m n l
  | andn => exact Mask.has_andNot m n l

theorem Group.addFlags_zero (g : Group) : g.addFlags 0 = g := by
  unfold Group.addFlags
  rw [show g.fstat ||| 0 = g.fstat from BitVec.or_zero]

theorem Group.has_setP (g : Group) (m : Mask) (d : Nat) (x : Mask) (l : Nat) :
    Mask.has ((g.setP m d x).p.get d) l = if m.has l then x.has l else Mask.has (g.p.get d) l := by
  rw [Group.setP, SMap.get_set_self, Mask.has_or, Mask.has_andNot, Mask.has_and]
  cases m.has l <;> simp

theorem State.setP_wroteP (s : State) (m : Mask) (d : Nat) (x : Mask) (fl : Flags) (hs : s.settled) :
    s.wroteP ((s.modCur (fun g => (g.setP m d x).addFlags fl)).goOn s.cur.iss 4) m d x.has fl := by
  have hu : (s.modCur (fun g => (g.setP m d x).addFlags fl)).cur.outst = [] := Group.setP_settled s.cur m d x hs
  have hclob : markClob true m d s.cur.outst = s.cur.outst := by
    rw [show s.cur.outst = [] from hs]
    rfl
  refine ⟨fun l _ => ?_, fun r hr => ?_, State.wentOn_goOn _ _ _ hu rfl rfl, ?_⟩
  · rw [State.goOn_settled _ _ _ hu]
    exact s.cur.has_setP m d x l
  · rw [State.goOn_settled _ _ _ hu]
    exact SMap.get_set_ne s.cur.p d _ r hr
  · rw [State.goOn_settled _ _ _ hu]
    simp only [State.modCur, Group.setP, hclob]
    rfl

section
variable {s : State} {h : Hdr} {d : Nat} (hs : s.settled) {i : Instr} {F : Nat → Bool}
include hs

theorem State.setP_results {x : Mask} {fl : Flags}
    (he : exec i s = .next ((s.modCur (fun g => (g.setP (s.active h) d x).addFlags fl)).goOn s.cur.iss 4))
    (hx : ∀ l, l < 64 → x.has l = F l) : ∃ t, exec i s = .next t ∧ s.wroteP t (s.active h) d F fl := by
  obtain ⟨hd, hrest⟩ := s.setP_wroteP (s.active h) d x fl hs
  exact ⟨_, he, fun l hl => by rw [hd l hl, hx l hl], hrest⟩

theorem State.lanePred_results {x : Mask} (he : exec i s = .next (s.lanePred h true d x)) (hx : ∀ l, l < 64 → x.has l = F l) :
    ∃ t, exec i s = .next t ∧ s.wroteP t (s.active h) d F 0 := by
  refine State.setP_results hs (x := x) (he.trans ?_) hx
  simp only [Group.addFlags_zero]
  rfl

end

theorem State.plog_results (s : State) (h : Hdr) (d a b : Nat) (hs : s.settled) (k : LogK) : ∃ t, exec (.plog h d a b k) s = .next t ∧
    s.wroteP t (s.active h) d (fun l => qlogK k (Mask.has (s.cur.p.get a) l) (Mask.has (s.cur.p.get b) l)) 0 :=
  State.lanePred_results hs rfl (fun l _ => by rw [s.preg_settled _ _ hs, s.preg_settled _ _ hs, Mask.has_logK])

theorem State.pmov_results (s : State) (h : Hdr) (d a : Nat) (hs : s.settled) (k : MovK) : ∃ t, exec (.pmov h d a k) s = .next t ∧
    s.wroteP t (s.active h) d (fun l => movBit k (Mask.has (s.cur.p.get a) l)) 0 :=
  State.lanePred_results hs rfl (fun l hl => by rw [s.preg_settled _ _ hs, Mask.has_movK k _ l hl])

/-! ## VSEL (05 R107) -/

/-- VSEL writes as a word without a guard does. -/
theorem exec_vsel (s : State) (h : Hdr) (d a b : Nat) : exec (.vsel h d a b) s = .next (s.laneAlu ⟨h.e, 7⟩ (s.vvv d a b) d (fun l =>
    if (s.preg 15 h.g).has l then s.vreg 1 a l else s.vreg 2 b l)) := rfl

/-! ## Compares (05 R105, R106) -/

/-- -1, 0 or 1, as the first number is smaller, equal or larger. -/
def cmpI (p q : Int) : Int := if p < q then -1 else if q < p then 1 else 0

theorem cmpI_eq_zero {p q : Int} : cmpI p q = 0 ↔ p = q := by
  unfold cmpI
  omega

theorem cmpI_lt_zero {p q : Int} : cmpI p q < 0 ↔ p < q := by
  unfold cmpI
  omega

theorem cmpI_le_zero {p q : Int} : cmpI p q ≤ 0 ↔ p ≤ q := by
  unfold cmpI
  omega

section
variable {p q : Int} {P : Prop} [Decidable P]

theorem cmpI_beq_zero (h : p = q ↔ P) : (cmpI p q == 0) = decide P := decide_eq_decide.mpr (cmpI_eq_zero.trans h)

theorem cmpI_bne_zero (h : p ≠ q ↔ P) : (cmpI p q != 0) = decide P := by
  rw [Bool.eq_iff_iff, bne_iff_ne, decide_eq_true_eq, ← h]
  exact not_congr cmpI_eq_zero

theorem cmpI_decide_lt (h : p < q ↔ P) : decide (cmpI p q < 0) = decide P := decide_eq_decide.mpr (cmpI_lt_zero.trans h)

theorem cmpI_decide_le (h : p ≤ q ↔ P) : decide (cmpI p q ≤ 0) = decide P := decide_eq_decide.mpr (cmpI_le_zero.trans h)

end

/-- A NaN is compared. -/
def nanIn (x y : Word) : Bool := (f32 x).isNan || (f32 y).isNan

/-- A signalling NaN is compared. -/
def sigIn (x y : Word) : Bool := (f32 x).isSig || (f32 y).isSig

/-- What a lane compare answers for two words, and the flags it sets: `f` of their order, or `un` when a NaN is compared. -/
def cmpWord (k : CmpK) (f : Int → Bool) (un sig : Bool) (x y : Word) : Bool × Flags :=
  match k with
  | .i32 => (f (cmpI x.toInt y.toInt), 0)
  | .u32 => (f (cmpI x.toNat y.toNat), 0)
  | .f32 => (if nanIn x y then un else f (cmpF (f32 x) (f32 y)), fIf (nanIn x y && (sigIn x y || sig)) fNV)

/-- A flag is set when a lane sets it (08 R140). -/
theorem flagsOf_fIf (m : Mask) (p : Nat → Bool) (f : Flags) : flagsOf m (fun l => fIf (p l) f) = fIf (m.lanes.any p) f := by
  have hfold : ∀ (ls : List Nat) (b : Bool), ls.foldl (fun acc l => acc ||| fIf (p l) f) (fIf b f) = fIf (b || ls.any p) f := by
    intro ls
    induction ls with
    | nil => exact fun b => by rw [List.any_nil, Bool.or_false]; rfl
    | cons l ls ih =>
      intro b
      have hor : fIf b f ||| fIf (p l) f = fIf (b || p l) f := by
        cases b <;> cases p l <;> simp [fIf]
      rw [List.foldl_cons, hor, ih, List.any_cons, Bool.or_assoc]
  exact hfold m.lanes false

theorem flagsOf_zero (m : Mask) : flagsOf m (fun _ => 0) = 0 := (flagsOf_fIf m (fun _ => false) 0).trans (ite_self _)

section
variable {s : State} {h : Hdr} {d a b : Nat} (hs : s.settled) (ha : a < s.cur.vregs) (hb : b < s.cur.vregs)
  {i : Instr} {f : Int → Bool} {un sig : Bool}

include hs ha hb

theorem State.laneCmp_allocated (k : CmpK) : s.laneCmp h d a b k f un sig =
    (s.modCur (fun g => (g.setP (s.active h) d (Mask.ofFn (fun l => (cmpWord k f un sig (s.cur.vraw a l) (s.cur.vraw b l)).1) 64)).addFlags
      (flagsOf (s.active h) (fun l => (cmpWord k f un sig (s.cur.vraw a l) (s.cur.vraw b l)).2)))).goOn s.cur.iss 4 := by
  have hok : (s.cur.vOk a 1 && s.cur.vOk b 1) = true := by simp [Group.vOk, Nat.succ_le_of_lt ha, Nat.succ_le_of_lt hb]
  unfold State.laneCmp
  simp only [hok, if_true, s.vreg_settled _ _ _ hs]
  cases k with
  | i32 => rfl
  | u32 => rfl
  | f32 =>
    have hone : ∀ x y : Word, (if (f32 x).isNan || (f32 y).isNan then (un, fIf (sig || (f32 x).isSig || (f32 y).isSig) fNV)
        else (f (cmpF (f32 x) (f32 y)), 0)) = cmpWord .f32 f un sig x y := fun x y => by
      unfold cmpWord nanIn sigIn
      cases (f32 x).isNan || (f32 y).isNan with
      | true => exact congrArg (fun c => (un, fIf c fNV)) (by rw [Bool.true_and, Bool.or_assoc, Bool.or_comm])
      | false => rfl
    simp only [hone]

theorem State.laneCmp_results {F : Nat → Bool} {fl : Flags} {k : CmpK} (he : exec i s = .next (s.laneCmp h d a b k f un sig))
    (hF : ∀ l, (cmpWord k f un sig (s.cur.vraw a l) (s.cur.vraw b l)).1 = F l)
    (hfl : flagsOf (s.active h) (fun l => (cmpWord k f un sig (s.cur.vraw a l) (s.cur.vraw b l)).2) = fl) :
    ∃ t, exec i s = .next t ∧ s.wroteP t (s.active h) d F fl := by
  subst hfl
  refine State.setP_results hs (he.trans (congrArg _ (State.laneCmp_allocated hs ha hb k))) (fun l hl => ?_)
  rw [Mask.has_ofFn _ _ _ (Nat.le_refl 64), decide_eq_true hl, Bool.true_and, hF]

theorem State.laneCmp_i32 {F : Nat → Bool} (he : exec i s = .next (s.laneCmp h d a b .i32 f un sig))
    (hF : ∀ l, f (cmpI (s.cur.vraw a l).toInt (s.cur.vraw b l).toInt) = F l) :
    ∃ t, exec i s = .next t ∧ s.wroteP t (s.active h) d F 0 :=
  State.laneCmp_results hs ha hb he hF (flagsOf_zero _)

theorem State.laneCmp_u32 {F : Nat → Bool} (he : exec i s = .next (s.laneCmp h d a b .u32 f un sig))
    (hF : ∀ l, f (cmpI (s.cur.vraw a l).toNat (s.cur.vraw b l).toNat) = F l) :
    ∃ t, exec i s = .next t ∧ s.wroteP t (s.active h) d F 0 :=
  State.laneCmp_results hs ha hb he hF (flagsOf_zero _)

theorem State.laneCmp_f32 {F : Nat → Bool} {fl : Flags} (he : exec i s = .next (s.laneCmp h d a b .f32 f un sig))
    (hF : ∀ l, (if nanIn (s.cur.vraw a l) (s.cur.vraw b l) then un
      else f (cmpF (f32 (s.cur.vraw a l)) (f32 (s.cur.vraw b l)))) = F l)
    (hfl : fIf ((s.active h).lanes.any (fun l => nanIn (s.cur.vraw a l) (s.cur.vraw b l) &&
      (sigIn (s.cur.vraw a l) (s.cur.vraw b l) || sig))) fNV = fl) :
    ∃ t, exec i s = .next t ∧ s.wroteP t (s.active h) d F fl :=
  State.laneCmp_results hs ha hb he hF ((flagsOf_fIf _ _ _).trans hfl)

end

end Sys2Proof.Machine

open Sys2Proof Sys2Proof.Machine

/-- Settles O1: each word by the rule of a lane word of two registers, with its value as integer arithmetic gives it. -/
theorem laneIntegerResults : Obligations.LaneIntegerResults := by
  unfold Obligations.LaneIntegerResults
  intro s h d a b hs hd ha hb
  have rule := @State.lane2_results s h d a b hs hd ha hb
  have hmad := State.laneAlu_results (i := .vmad h d a b) hs (s.vvv_allocated hd ha hb) rfl
    (fun l => by rw [s.vreg_settled _ _ _ hs, s.vreg_settled _ _ _ hs, s.vreg_settled _ _ _ hs, mad_eq_ofNat])
  simp only [List.forall_mem_cons, List.not_mem_nil, false_imp_iff, implies_true, and_true]
  exact ⟨rule rfl (fun _ => BitVec.add_def _ _), rule rfl (fun _ => addK_si32 _ _), rule rfl (fun _ => addK_su32 _ _),
    rule rfl (fun _ => addK_i16x2 _ _), rule rfl (fun _ => sub_eq_ofInt _ _), rule rfl (fun _ => subK_si32 _ _),
    rule rfl (fun _ => subK_su32 _ _), rule rfl (fun _ => subK_i16x2 _ _), rule rfl (fun _ => mul_eq_ofNat _ _),
    rule rfl (fun _ => rfl), rule rfl (fun _ => rfl), rule rfl (fun _ => mulK_i16x2 _ _), hmad,
    rule rfl (fun _ => rfl), rule rfl (fun _ => rfl), rule rfl (fun _ => rfl), rule rfl (fun _ => rfl),
    rule rfl (fun _ => shl32_eq_ofNat _ _), rule rfl (fun _ => shr32_l_eq_ofNat _ _), rule rfl (fun _ => shr32_a_eq_ofInt _ _),
    rule rfl (fun _ => minK_i32 _ _), rule rfl (fun _ => minK_u32 _ _), rule rfl (fun _ => maxK_i32 _ _), rule rfl (fun _ => maxK_u32 _ _)⟩

/-- Settles O2: the words with an immediate and the unary words by the rule of a lane word of one register, the counts by what is known
of each bit. -/
theorem laneUnaryAndImmediateResults : Obligations.LaneUnaryAndImmediateResults := by
  unfold Obligations.LaneUnaryAndImmediateResults
  constructor
  · intro s h d a n i8 i14 lit hs hd ha hn
    have rule := @State.lane1_results s h d a hs hd ha
    have imm := @State.laneAlu_results s h d hs (s.cur.vOk d 1) (decide_eq_true hd)
    have hmod : n % 32 = n := Nat.mod_eq_of_lt hn
    simp only [List.forall_mem_cons, List.not_mem_nil, false_imp_iff, implies_true, and_true]
    exact ⟨rule rfl (fun _ => add_imm8_eq_ofInt _ _), rule rfl (fun _ => (shl32_eq_ofNat _ n).trans (by rw [hmod])),
      rule rfl (fun _ => (shr32_l_eq_ofNat _ n).trans (by rw [hmod])),
      rule rfl (fun _ => (shr32_a_eq_ofInt _ n).trans (by rw [hmod])), rule rfl (fun _ => rotr_eq_ofNat _ n hn),
      imm rfl (fun _ => rfl), imm rfl (fun _ => rfl), rule rfl (fun _ => rfl), rule rfl (fun _ => rfl),
      rule rfl (fun _ => neg_eq_ofInt _), rule rfl (fun _ => abs_eq_ofInt _), rule rfl (fun _ => rfl),
      rule rfl (fun _ => rfl)⟩
  · intro s h d a hs hd ha
    refine ⟨?_, ?_, ?_⟩
    · obtain ⟨t, ht, hw, hv⟩ := State.lane1_reads (i := .vpopc h d a) hs hd ha rfl
      exact ⟨t, ht, hw, fun l hl hm => (hv l hl hm).trans (congrArg _ (popc_eq_countP _ 32))⟩
    · obtain ⟨t, ht, hw, hv⟩ := State.lane1_reads (i := .vclz h d a) hs hd ha rfl
      refine ⟨t, ht, hw, fun l hl hm => ⟨fun hx => ?_, fun hx => ?_⟩⟩
      · rw [hv l hl hm, hx, clz_zero]
        rfl
      · obtain ⟨hlt, htop, hzero⟩ := clz_highest _ hx
        have hn : (t.cur.vraw d l).toNat = clz (s.cur.vraw a l) 32 := by
          rw [hv l hl hm, BitVec.toNat_ofNat]
          exact Nat.mod_eq_of_lt (by omega)
        rw [hn]
        exact ⟨hlt, htop, hzero⟩
    · obtain ⟨t, ht, hw, hv⟩ := State.lane1_reads (i := .vbrev h d a) hs hd ha rfl
      exact ⟨t, ht, hw, fun l j hl hm hj => by rw [hv l hl hm, getLsbD_brev _ j hj]⟩

/-- Settles O3: predicate words bit by bit, `VSEL` as a word without a guard, compares by the order of two numbers or by `cmpF`. -/
theorem lanePredicateResults : Obligations.LanePredicateResults := by
  unfold Obligations.LanePredicateResults
  constructor
  · intro s h d a b hs
    refine ⟨fun ha hb => ?_, ?_, fun hd ha hb hg => ?_⟩
    · have sgn := @State.laneCmp_i32 s h d a b hs ha hb
      have uns := @State.laneCmp_u32 s h d a b hs ha hb
      simp only [List.forall_mem_cons, List.not_mem_nil, false_imp_iff, implies_true, and_true]
      exact ⟨sgn rfl (fun _ => cmpI_beq_zero Iff.rfl), uns rfl (fun _ => cmpI_beq_zero Int.ofNat_inj),
        sgn rfl (fun _ => cmpI_bne_zero Iff.rfl), uns rfl (fun _ => cmpI_bne_zero (not_congr Int.ofNat_inj)),
        sgn rfl (fun _ => cmpI_decide_lt Iff.rfl), uns rfl (fun _ => cmpI_decide_lt Int.ofNat_lt),
        sgn rfl (fun _ => cmpI_decide_le Iff.rfl), uns rfl (fun _ => cmpI_decide_le Int.ofNat_le)⟩
    · have log := s.plog_results h d a b hs
      have mov := s.pmov_results h d a hs
      simp only [List.forall_mem_cons, List.not_mem_nil, false_imp_iff, implies_true, and_true]
      exact ⟨log .and, log .or, log .xor, log .andn, mov .cpy, mov .not, mov .set, mov .clr⟩
    · exact State.laneAlu_results (h := ⟨h.e, 7⟩) hs (s.vvv_allocated hd ha hb) (exec_vsel s h d a b)
        (fun l => by rw [s.preg_settled _ _ hs, s.vreg_settled _ _ _ hs, s.vreg_settled _ _ _ hs])
  · intro s h d a b hs ha hb
    have flt := @State.laneCmp_f32 s h d a b hs ha hb
    simp only [List.forall_mem_cons, List.not_mem_nil, false_imp_iff, implies_true, and_true]
    exact ⟨flt rfl (fun _ => rfl) rfl, flt rfl (fun _ => rfl) rfl, flt rfl (fun _ => rfl) rfl, flt rfl (fun _ => rfl) rfl⟩
end

section
/-! PROOF. Uniform words on registers, pairs, affine registers and uniform predicates (O4, O5, O6). -/

namespace Sys2Proof.Machine

/-! ## Registers after a write (05 R75) -/

theorem pairW_halves (x : DWord) : pairW (hiW x) (loW x) = x := by
  have hx := x.isLt
  apply BitVec.eq_of_toNat_eq
  simp only [pairW, hiW, loW, BitVec.toNat_or, BitVec.toNat_shiftLeft, BitVec.toNat_setWidth, BitVec.toNat_ushiftRight,
    Nat.shiftLeft_eq, Nat.shiftRight_eq_div_pow]
  rw [Nat.mul_comm, Nat.mod_eq_of_lt (by omega), ← Nat.two_pow_add_eq_or_of_lt (by omega)]
  omega

theorem Group.spair_setSPair (g : Group) (d : Nat) (x : DWord) : (g.setSPair d x).spair d = x := by
  have hhigh : (g.setSPair d x).sreg (d + 1) = hiW x := (Group.sreg_setS _ _ _ _).trans (if_pos rfl)
  have hlow : (g.setSPair d x).sreg d = loW x :=
    ((Group.sreg_setS _ _ _ _).trans (if_neg (by omega))).trans ((Group.sreg_setS g _ _ _).trans (if_pos rfl))
  rw [Group.spair, hhigh, hlow, pairW_halves]

theorem Group.sreg_setSPair_ne (g : Group) (d : Nat) (x : DWord) (r : Nat) (h : r ≠ d) (h' : r ≠ d + 1) :
    (g.setSPair d x).sreg r = g.sreg r :=
  ((Group.sreg_setS _ _ _ _).trans (if_neg h')).trans ((Group.sreg_setS g _ _ _).trans (if_neg h))

theorem Group.qbit_setQ (g : Group) (d : Nat) (x : Bool) (r : Nat) (hd : d < 16) (hr : r < 16) :
    (g.setQ d x).qbit r = if r = d then x else g.qbit r := by
  have hone : BitVec.ofNat 16 (2 ^ d) = BitVec.twoPow 16 d := BitVec.eq_of_toNat_eq (by simp [BitVec.toNat_twoPow])
  unfold Group.setQ Group.qbit
  rw [hone]
  by_cases h : r = d
  · subst h
    cases x <;> simp [hr]
  · cases x <;> simp [h, hr]

/-! ## Uniform words (05 R75) -/

theorem Group.sOk_of_lt (g : Group) {d : Nat} (hd : d < g.sregs) : g.sOk d 1 = true := decide_eq_true hd

theorem State.sss_allocated (s : State) {d a b : Nat} (hd : d < s.cur.sregs) (ha : a < s.cur.sregs) (hb : b < s.cur.sregs) :
    s.sss d a b = true := by
  rw [State.sss, s.cur.sOk_of_lt hd, s.cur.sOk_of_lt ha, s.cur.sOk_of_lt hb]
  rfl

theorem State.ss_allocated (s : State) {d a : Nat} (hd : d < s.cur.sregs) (ha : a < s.cur.sregs) : s.ss d a = true := by
  rw [State.ss, s.cur.sOk_of_lt hd, s.cur.sOk_of_lt ha]
  rfl

section
variable {s : State} {h : Hdr} {ok : Bool} {f : Group → Group} {len : Nat}

/-- Only what the word does to the issuing group counts. -/
theorem State.uniAlu_congr {f' : Group → Group} (hf : f s.cur = f' s.cur) : s.uniAlu h ok f len = s.uniAlu h ok f' len := by
  simp only [State.uniAlu, State.uniOp, State.modCur, hf]

variable (hs : s.settled) (hok : ok = true) (hg : s.uguard h = true)
include hs hok hg

/-- A uniform word whose guard holds changes its group, which goes on. -/
theorem State.uniAlu_on (hf : (f s.cur).outst = s.cur.outst) : s.uniAlu h ok f len =
    { s with cur := (f s.cur).setPc s.cur.iss (fun _ => (f s.cur).ipc + BitVec.ofNat 64 len) } := by
  rw [State.uniAlu, State.uniOp, if_pos hok, if_pos hg]
  exact State.goOn_settled (s.modCur f) _ len (hf.trans hs)

theorem State.uniAlu_setS {d : Nat} {x : Word} (hf : f s.cur = s.cur.setS d x) : s.wroteS (s.uniAlu h ok f len) d len x := by
  rw [State.uniAlu_congr (f' := fun g => g.setS d x) hf]
  exact s.uniAlu_wroteS h ok d x len hs hok hg

theorem State.uniAlu_setSPair {d : Nat} {x : DWord} (hf : f s.cur = s.cur.setSPair d x) : s.wroteSPair (s.uniAlu h ok f) d x := by
  rw [State.uniAlu_congr (f' := fun g => g.setSPair d x) hf, State.uniAlu_on hs hok hg rfl]
  exact ⟨s.cur.spair_setSPair d x, s.cur.sreg_setSPair_ne d x, fun l hl => Group.pc_setPc _ _ _ l hl, rfl⟩

theorem State.uniAlu_setX {d : Nat} {base : DWord} {stride : Word} (hf : f s.cur = s.cur.setX d base stride) :
    s.wroteX (s.uniAlu h ok f) d base stride := by
  rw [State.uniAlu_congr (f' := fun g => g.setX d base stride) hf, State.uniAlu_on hs hok hg rfl]
  exact ⟨SMap.get_set_self _ _ _, SMap.get_set_self _ _ _, fun r hr => ⟨SMap.get_set_ne _ _ _ _ hr, SMap.get_set_ne _ _ _ _ hr⟩,
    fun l hl => Group.pc_setPc _ _ _ l hl, rfl⟩

theorem State.uniAlu_setQ {d : Nat} {x : Bool} (hd : d < 16) (hf : f s.cur = s.cur.setQ d x) : s.wroteQ (s.uniAlu h ok f) d x := by
  rw [State.uniAlu_congr (f' := fun g => g.setQ d x) hf, State.uniAlu_on hs hok hg rfl]
  exact ⟨(s.cur.qbit_setQ d x d hd hd).trans (if_pos rfl), fun r hr hne => (s.cur.qbit_setQ d x r hd hr).trans (if_neg hne),
    fun l hl => Group.pc_setPc _ _ _ l hl, rfl⟩

end

/-! ## Both outcomes of the guard -/

section
variable {s : State} {h : Hdr} {d a b : Nat} (hs : s.settled)
include hs

/-- A uniform word acts when its guard holds, and else only goes on. -/
theorem State.uniAlu_guarded {ok : Bool} (hok : ok = true) {i : Instr} {f : Group → Group} {len : Nat} {P : State → Prop}
    (he : exec i s = .next (s.uniAlu h ok f len)) (hon : s.uguard h = true → P (s.uniAlu h ok f len)) :
    ∃ t, exec i s = .next t ∧ if s.uguard h then P t else s.onlyWentOn t len := by
  refine ⟨_, he, ?_⟩
  cases hg : s.uguard h with
  | true => exact hon hg
  | false => exact s.uniOp_off h ok _ len hs hok hg

theorem State.uniS_results {ok : Bool} (hok : ok = true) {i : Instr} {f : Group → Group} {len : Nat} {x : Word}
    (he : exec i s = .next (s.uniAlu h ok f len)) (hf : f s.cur = s.cur.setS d x) :
    ∃ t, exec i s = .next t ∧ if s.uguard h then s.wroteS t d len x else s.onlyWentOn t len :=
  State.uniAlu_guarded hs hok he (fun hg => State.uniAlu_setS hs hok hg hf)

theorem State.uni2_results (hd : d < s.cur.sregs) (ha : a < s.cur.sregs) (hb : b < s.cur.sregs) {i : Instr} {f : Word → Word → Word}
    {x : Word} (he : exec i s = .next (s.uni2 h d a b f)) (hf : f (s.cur.sreg a) (s.cur.sreg b) = x) :
    ∃ t, exec i s = .next t ∧ if s.uguard h then s.wroteS t d 4 x else s.onlyWentOn t 4 :=
  State.uniS_results hs (s.sss_allocated hd ha hb) he (congrArg (s.cur.setS d) hf)

theorem State.uni1_results (hd : d < s.cur.sregs) (ha : a < s.cur.sregs) {i : Instr} {f : Word → Word} {x : Word}
    (he : exec i s = .next (s.uni1 h d a f)) (hf : f (s.cur.sreg a) = x) :
    ∃ t, exec i s = .next t ∧ if s.uguard h then s.wroteS t d 4 x else s.onlyWentOn t 4 :=
  State.uniS_results hs (s.ss_allocated hd ha) he (congrArg (s.cur.setS d) hf)

/-- A word on pairs: its two outcomes, and its cause when a field is odd (05 R75, R89, R90). -/
theorem State.uniPair_results {i : Instr} {f : DWord → DWord → DWord} {x : DWord} (he : exec i s = .next (s.uniPair h d a b f))
    (hf : f (s.cur.spair a) (s.cur.spair b) = x) :
    (d % 2 = 0 ∧ a % 2 = 0 ∧ b % 2 = 0 ∧ d + 2 ≤ s.cur.sregs ∧ a + 2 ≤ s.cur.sregs ∧ b + 2 ≤ s.cur.sregs →
      ∃ t, exec i s = .next t ∧ if s.uguard h then s.wroteSPair t d x else s.onlyWentOn t 4) ∧
    (d % 2 = 1 ∨ a % 2 = 1 ∨ b % 2 = 1 → exec i s = .next (s.raiseWord .illegalReg)) := by
  refine ⟨fun ⟨hd, ha, hb, hdr, har, hbr⟩ => ?_, fun hodd => State.refuses_of_check he ?_⟩
  · have hok : s.ppp d a b = true := by
      rw [State.ppp, s.cur.sPairOk_of_le hd hdr, s.cur.sPairOk_of_le ha har, s.cur.sPairOk_of_le hb hbr]
      rfl
    exact State.uniAlu_guarded hs hok he (fun hg => State.uniAlu_setSPair hs hok hg (congrArg (s.cur.setSPair d) hf))
  · obtain hodd | hodd | hodd := hodd <;> simp [State.ppp, Group.sPairOk, hodd]

end

/-! ## SREADL (05 R96) -/

/-- AND with 2^k - 1 keeps the low bits. -/
theorem and_low_toNat (x : Word) (k : Nat) (hk : k < 32) : (x &&& BitVec.ofNat 32 (2 ^ k - 1)).toNat = x.toNat % 2 ^ k := by
  have hpow : 2 ^ k < 2 ^ 32 := Nat.pow_lt_pow_right (by decide) hk
  rw [BitVec.toNat_and, BitVec.toNat_ofNat, Nat.mod_eq_of_lt (by omega), Nat.and_two_pow_sub_one_eq_mod]

theorem and_width_toNat (x : Word) {w : Nat} (hw : w = 16 ∨ w = 32 ∨ w = 64) :
    (x &&& BitVec.ofNat 32 (w - 1)).toNat = x.toNat % w := by
  obtain rfl | rfl | rfl := hw
  · exact and_low_toNat x 4 (by decide)
  · exact and_low_toNat x 5 (by decide)
  · exact and_low_toNat x 6 (by decide)

theorem exec_sreadl (s : State) (h : Hdr) (d a b : Nat) (hs : s.settled) :
    exec (.sreadl h d a b) s = .next (s.uniAlu h (s.cur.sOk d 1 && s.cur.vOk a 1 && s.cur.sOk b 1) (fun g =>
      g.setS d (s.cur.vraw a ((s.cur.sreg b).toNat % s.cur.width)))) := by
  show Host.Outcome.next (s.uniOp h _ _) = _
  simp only [State.uniAlu, State.uniOp, State.modCur, Group.deliverIf_settled _ _ _ hs]

/-! ## Immediates (05 R97, R100, R101) -/

theorem lui_eq_ofNat (i : BitVec 14) : i.setWidth 32 <<< 18 = BitVec.ofNat 32 (i.toNat * 2 ^ 18) := by
  rw [← Nat.shiftLeft_eq, ← BitVec.toNat_setWidth_of_le (w' := 32) (b := i) (by decide)]
  rfl

theorem mul_imm8_eq_ofInt (x : Word) (i : BitVec 8) : x * imm8 i = BitVec.ofInt 32 (x.toInt * i.toInt) := by
  rw [BitVec.ofInt_mul, BitVec.ofInt_toInt]
  rfl

theorem sixteen_mul_signExtend (i : BitVec 8) : 16 * i.signExtend 64 = BitVec.ofInt 64 (16 * i.toInt) := by
  rw [BitVec.ofInt_mul]
  rfl

/-! ## Sets of lanes (05 R112) -/

theorem Mask.lanes_and (m n : Mask) : Mask.lanes (m &&& n) = (Mask.lanes m).filter (fun l => n.has l) := by
  unfold Mask.lanes
  rw [List.filter_filter]
  exact List.filter_congr (fun l _ => by rw [Mask.has_and, Bool.and_comm])

theorem Mask.card_eq_zero (m : Mask) : Mask.card m = 0 ↔ m = 0 := by
  rw [Mask.card, List.length_eq_zero_iff]
  refine ⟨fun h => Mask.ext_has (fun l _ => ?_), fun h => h ▸ Mask.lanes_zero⟩
  rw [Mask.has_zero, ← Bool.not_eq_true, ← Mask.mem_lanes, h]
  exact List.not_mem_nil

theorem Mask.card_and_eq (m n : Mask) : Mask.card (m &&& n) = Mask.card m ↔ m &&& ~~~n = 0 := by
  rw [Mask.card, Mask.card, Mask.lanes_and, List.length_filter_eq_length_iff, Mask.andNot_eq_zero]
  exact forall_congr' (fun l => by rw [Mask.mem_lanes])

theorem anyK_any (m n : Mask) : anyK .any m n = decide (0 < Mask.card (m &&& n)) := by
  rw [Bool.eq_iff_iff, decide_eq_true_eq, Nat.pos_iff_ne_zero, Ne, Mask.card_eq_zero]
  exact bne_iff_ne

theorem anyK_all (m n : Mask) : anyK .all m n = decide (Mask.card (m &&& n) = Mask.card m) :=
  (decide_eq_decide.mpr (Mask.card_and_eq m n)).symm

theorem anyK_none (m n : Mask) : anyK .none m n = decide (Mask.card (m &&& n) = 0) :=
  (decide_eq_decide.mpr (Mask.card_eq_zero _)).symm

/-! ## Uniform compares and predicates (05 R110-R113) -/

section
variable {s : State} {h : Hdr} {d a b : Nat} (hs : s.settled) (hg : s.uguard h = true) (hd : d < 16)
include hs hg hd

/-- A uniform compare in its three kinds. -/
theorem State.scmp_results (ha : a < s.cur.sregs) (hb : b < s.cur.sregs) (i : SCmpK → Instr) (f : Int → Int → Bool)
    (he : ∀ k, exec (i k) s = .next (s.scmp h d a b k f)) :
    (∃ t, exec (i .i32) s = .next t ∧ s.wroteQ t d (f (s.cur.sreg a).toInt (s.cur.sreg b).toInt)) ∧
    (∃ t, exec (i .u32) s = .next t ∧ s.wroteQ t d (f (s.cur.sreg a).toNat (s.cur.sreg b).toNat)) ∧
    (a % 2 = 0 → b % 2 = 0 → a + 2 ≤ s.cur.sregs → b + 2 ≤ s.cur.sregs →
      ∃ t, exec (i .u64) s = .next t ∧ s.wroteQ t d (f (s.cur.spair a).toNat (s.cur.spair b).toNat)) := by
  have hok : (s.cur.sOk a 1 && s.cur.sOk b 1) = true := by rw [s.cur.sOk_of_lt ha, s.cur.sOk_of_lt hb]; rfl
  refine ⟨⟨_, he .i32, State.uniAlu_setQ hs hok hg hd rfl⟩, ⟨_, he .u32, State.uniAlu_setQ hs hok hg hd rfl⟩,
    fun hae hbe har hbr => ⟨_, he .u64, State.uniAlu_setQ hs ?_ hg hd rfl⟩⟩
  rw [s.cur.sPairOk_of_le hae har, s.cur.sPairOk_of_le hbe hbr]
  rfl

theorem State.qlog_results (k : LogK) : ∃ t, exec (.qlog h d a b k) s = .next t ∧ s.wroteQ t d (qlogK k (s.cur.qbit a) (s.cur.qbit b)) :=
  ⟨_, rfl, State.uniAlu_setQ hs rfl hg hd rfl⟩

theorem State.qmov_results (k : MovK) : ∃ t, exec (.qmov h d a k) s = .next t ∧ s.wroteQ t d (movBit k (s.cur.qbit a)) :=
  ⟨_, rfl, State.uniAlu_setQ hs rfl hg hd (by cases k <;> rfl)⟩

theorem State.qany_results (k : AnyK) : ∃ t, exec (.qany h d a k) s = .next t ∧ s.wroteQ t d (anyK k s.cur.iss (s.cur.p.get a)) :=
  ⟨_, rfl, State.uniAlu_setQ hs rfl hg hd (by rw [s.preg_settled _ _ hs])⟩

end

end Sys2Proof.Machine

namespace Sys2Proof

/-! ## S and OP of an encoded word (03 R38) -/

theorem fld_set (s : Nat) (h : Hdr) (op area : Nat) (hs : s < 2) (hg : h.g < 8) (ho : op < 128) (ha : area < 2 ^ 20) :
    fld (encWord s h op area) 31 1 = s := by
  have hb := bit_lt h.e
  simp only [fld, encWord]
  omega

theorem fld_op (s : Nat) (h : Hdr) (op area : Nat) (ho : op < 128) (ha : area < 2 ^ 20) :
    fld (encWord s h op area) 20 7 = op := by
  have hb := bit_lt h.e
  simp only [fld, encWord]
  omega

/-- The fields of the word of XSET (05 R99; 03 R41). -/
theorem encode_xset_fields (h : Hdr) (d a b : Nat) (hwf : (Instr.xset h d a b).wf = true) :
    d < 16 ∧ ∃ w, encode (.xset h d a b) = [w] ∧ fld w 31 1 = 1 ∧ fld w 20 7 = 0x10 ∧ fld w 14 6 = d ∧ fld w 8 6 = a ∧ fld w 2 6 = b ∧
      fld w 0 2 = 0 := by
  change (h.wf && decide (d < 16) && decide (a < 64) && decide (b < 64)) = true at hwf
  simp only [Hdr.wf, Bool.and_eq_true, decide_eq_true_eq] at hwf
  obtain ⟨⟨⟨hg, hd⟩, ha⟩, hb⟩ := hwf
  obtain ⟨harea, hfd, hf0, hfa, hfb⟩ := flds37 1 h 0x10 d a b (by omega) ha hb
  exact ⟨hd, _, rfl, fld_set 1 h 0x10 _ (by decide) hg (by decide) harea, fld_op 1 h 0x10 _ (by decide) harea, hfd, hfa, hfb, hf0⟩

end Sys2Proof

open Sys2Proof Sys2Proof.Machine

/-- Settles O4: words on registers and on pairs by the two outcomes of the guard, `SREADL` by the lane it names. -/
theorem uniformResults : Obligations.UniformResults := by
  unfold Obligations.UniformResults
  refine ⟨?_, ?_, ?_⟩
  · intro s h d a b i8 i14 lit hs hd ha hb
    have two := @State.uni2_results s h d a b hs hd ha hb
    have one := @State.uni1_results s h d a hs hd ha
    have imm := @State.uniS_results s h d hs (s.cur.sOk d 1) (s.cur.sOk_of_lt hd)
    simp only [List.forall_mem_cons, List.not_mem_nil, false_imp_iff, implies_true, and_true]
    exact ⟨two rfl (BitVec.add_def _ _), two rfl (addK_su32 _ _), two rfl (sub_eq_ofInt _ _), two rfl (subK_su32 _ _),
      two rfl (mul_eq_ofNat _ _), two rfl rfl, two rfl rfl, two rfl rfl, two rfl rfl, two rfl rfl, two rfl (shl32_eq_ofNat _ _),
      two rfl (shr32_l_eq_ofNat _ _), two rfl (shr32_a_eq_ofInt _ _), two rfl (minK_i32 _ _), two rfl (minK_u32 _ _),
      two rfl (maxK_i32 _ _), two rfl (maxK_u32 _ _), one rfl (add_imm8_eq_ofInt _ _), imm rfl rfl, imm rfl rfl, one rfl rfl,
      one rfl rfl, one rfl (congrArg _ (popc_eq_countP _ 32)), one rfl (congrArg _ (clz_eq_takeWhile _ 32)),
      imm rfl (congrArg (s.cur.setS d) (lui_eq_ofNat i14))⟩
  · intro s h d a b hs
    have pair := @State.uniPair_results s h d a b hs
    simp only [List.forall_mem_cons, List.not_mem_nil, false_imp_iff, implies_true, and_true]
    exact ⟨pair rfl (add_eq_ofInt _ _), pair rfl (sub_eq_ofInt _ _), pair rfl (mul_eq_ofInt _ _)⟩
  · intro s h d a b hs hg hd ha hb hw
    have hok : (s.cur.sOk d 1 && s.cur.vOk a 1 && s.cur.sOk b 1) = true := by
      rw [s.cur.sOk_of_lt hd, s.cur.sOk_of_lt hb, show s.cur.vOk a 1 = true from decide_eq_true ha]
      rfl
    rw [and_width_toNat _ hw]
    exact ⟨_, exec_sreadl s h d a b hs, State.uniAlu_setS hs hok hg rfl⟩

/-- Settles O5: each affine word by what it makes of its register, the word of `XSET` by its fields. -/
theorem affineResults : Obligations.AffineResults := by
  unfold Obligations.AffineResults
  intro s h d a b i8 hs hg
  have hb1 : b < s.cur.sregs → s.cur.sOk b 1 = true := s.cur.sOk_of_lt
  refine ⟨fun he hr hb => ⟨_, rfl, State.uniAlu_setX hs ?_ hg rfl⟩, fun hb => ⟨_, rfl, State.uniAlu_setX hs (hb1 hb) hg rfl⟩,
    ⟨_, rfl, State.uniAlu_setX hs rfl hg ?_⟩, fun hb => ⟨_, rfl, State.uniAlu_setX hs (hb1 hb) hg rfl⟩,
    ⟨_, rfl, State.uniAlu_setX hs rfl hg ?_⟩, ⟨_, rfl, State.uniAlu_setX hs rfl hg rfl⟩,
    fun he hr => ⟨_, rfl, State.uniAlu_setSPair hs (s.cur.sPairOk_of_le he hr) hg rfl⟩,
    fun hd => ⟨_, rfl, State.uniAlu_setS hs (s.cur.sOk_of_lt hd) hg rfl⟩, encode_xset_fields h d a b,
    fun hodd => State.refuses_of_check rfl ?_⟩
  · rw [s.cur.sPairOk_of_le he hr, hb1 hb]
    rfl
  · rw [sixteen_mul_signExtend]
  · rw [mul_imm8_eq_ofInt]
  · simp [Group.sPairOk, hodd]

/-- Settles O6: compares in their three kinds, predicate words by their bits, `QANY` by counts of lanes of the issue set. -/
theorem uniformPredicateResults : Obligations.UniformPredicateResults := by
  unfold Obligations.UniformPredicateResults
  constructor
  · intro s h d a b hs hg hd
    refine ⟨fun ha hb => ?_, ?_⟩
    · have cmp := @State.scmp_results s h d a b hs hg hd ha hb
      simp only [List.forall_mem_cons, List.not_mem_nil, false_imp_iff, implies_true, and_true]
      exact ⟨cmp (.scmpeq h d a b) (fun x y => decide (x = y)) (fun _ => rfl), cmp (.scmpne h d a b) (fun x y => decide (x ≠ y)) (fun _ => rfl),
        cmp (.scmplt h d a b) (fun x y => decide (x < y)) (fun _ => rfl), cmp (.scmple h d a b) (fun x y => decide (x ≤ y)) (fun _ => rfl)⟩
    · have log := @State.qlog_results s h d a b hs hg hd
      have mov := @State.qmov_results s h d a hs hg hd
      simp only [List.forall_mem_cons, List.not_mem_nil, false_imp_iff, implies_true, and_true]
      exact ⟨log .and, log .or, log .xor, log .andn, mov .cpy, mov .not, mov .set, mov .clr⟩
  · intro s h d a hs hg hd
    have any := fun k => State.qany_results (a := a) hs hg hd k
    simp only [List.forall_mem_cons, List.not_mem_nil, false_imp_iff, implies_true, and_true]
    exact ⟨anyK_any _ _ ▸ any .any, anyK_all _ _ ▸ any .all, anyK_none _ _ ▸ any .none⟩
end

section
/-! PROOF. Float words, conversions and quantisers, lane by lane with their flags (O9, O10, O12). -/

namespace Sys2Proof.Machine

/-! ## Words that write v(d) and FSTAT (09 R156; 08 R140) -/

theorem State.setV_wroteVF (s : State) (m : Mask) (d : Nat) (f : Nat → Word) (fl : Flags) (hs : s.settled) :
    s.wroteVF ((s.modCur (fun g => (g.setV m d f).addFlags fl)).goOn s.cur.iss 4) m d f fl := by
  have hu : (s.modCur (fun g => (g.setV m d f).addFlags fl)).cur.outst = [] := s.cur.setV_settled m d f hs
  rw [State.goOn_settled _ _ _ hu]
  refine ⟨fun l hl => ?_, fun r l hr hl => ?_, fun l hl => Group.pc_setPc _ _ _ l hl, ?_⟩
  · exact (s.cur.vraw_setV m d f d l hl).trans (by simp)
  · exact (s.cur.vraw_setV m d f r l hl).trans (by simp [hr])
  · simp [State.modCur, Group.addFlags, Group.setPc, Group.setV, markClob, show s.cur.outst = [] from hs]

section
variable {s : State} {h : Hdr} {d a b : Nat} (hs : s.settled)
include hs

/-- The rule of a float lane word: `f l` is the value and the flags of lane `l`. -/
theorem State.laneFloat_results {ok : Bool} (hok : ok = true) {i : Instr} {f F : Nat → Word × Flags}
    (he : exec i s = .next (s.laneFloat h ok d f)) (hf : ∀ l, f l = F l) :
    ∃ t, exec i s = .next t ∧ s.wroteVF t (s.active h) d (fun l => (F l).1) (flagsOf (s.active h) (fun l => (F l).2)) := by
  obtain rfl : f = F := funext hf
  rw [State.laneFloat, if_pos hok] at he
  exact ⟨_, he, s.setV_wroteVF _ d _ _ hs⟩

/-- A float lane word that sets no flag. -/
theorem State.laneFloat_noFlags {ok : Bool} (hok : ok = true) {i : Instr} {f : Nat → Word × Flags} {F : Nat → Word}
    (he : exec i s = .next (s.laneFloat h ok d f)) (hf : ∀ l, f l = (F l, 0)) :
    ∃ t, exec i s = .next t ∧ s.wroteVF t (s.active h) d F 0 := by
  obtain ⟨t, ht, hw⟩ := State.laneFloat_results hs hok he hf
  rw [flagsOf_zero] at hw
  exact ⟨t, ht, hw⟩

theorem State.laneFloat2_results (hd : d < s.cur.vregs) (ha : a < s.cur.vregs) (hb : b < s.cur.vregs) {i : Instr}
    {f : Word → Word → Word × Flags} {F : Nat → Word × Flags}
    (he : exec i s = .next (s.laneFloat h (s.vvv d a b) d (fun l => f (s.vreg 1 a l) (s.vreg 2 b l))))
    (hf : ∀ l, f (s.cur.vraw a l) (s.cur.vraw b l) = F l) :
    ∃ t, exec i s = .next t ∧ s.wroteVF t (s.active h) d (fun l => (F l).1) (flagsOf (s.active h) (fun l => (F l).2)) :=
  State.laneFloat_results hs (s.vvv_allocated hd ha hb) he
    (fun l => by rw [s.vreg_settled _ _ _ hs, s.vreg_settled _ _ _ hs, hf])

theorem State.laneFloat1_results (hd : d < s.cur.vregs) (ha : a < s.cur.vregs) {i : Instr} {f : Word → Word × Flags}
    {F : Nat → Word × Flags} (he : exec i s = .next (s.laneFloat h (s.vv d a) d (fun l => f (s.vreg 1 a l))))
    (hf : ∀ l, f (s.cur.vraw a l) = F l) :
    ∃ t, exec i s = .next t ∧ s.wroteVF t (s.active h) d (fun l => (F l).1) (flagsOf (s.active h) (fun l => (F l).2)) :=
  State.laneFloat_results hs (s.vv_allocated hd ha) he (fun l => by rw [s.vreg_settled _ _ _ hs, hf])

end

/-! ## Elements of a register (09 R156) -/

/-- The one element of an FP32 register, or the two halves of a packed one. -/
theorem elems_eq (k : FmtK) (f : FK → Nat → Nat → Nat → Nat × Flags) (x y z : Word) :
    elems k f x y z = if k = .f32 then (BitVec.ofNat 32 (f .f32 x.toNat y.toNat z.toNat).1, (f .f32 x.toNat y.toNat z.toNat).2)
      else
        let K : FK := if k = .f16x2 then .f16 else .bf16
        let lo := f K (x.toNat % 65536) (y.toNat % 65536) (z.toNat % 65536)
        let hi := f K (x.toNat / 65536) (y.toNat / 65536) (z.toNat / 65536)
        (BitVec.ofNat 32 (lo.1 + 65536 * hi.1), lo.2 ||| hi.2) := by
  cases k <;> rfl

/-- An operation that does not look at its third operand. -/
theorem elems_binary (k : FmtK) (f : FK → Nat → Nat → Nat × Flags) (x y z z' : Word) :
    elems k (fun K p q _ => f K p q) x y z = elems k (fun K p q _ => f K p q) x y z' := by
  cases k <;> rfl

/-- An operation that looks at its first operand only. -/
theorem elems_unary (k : FmtK) (f : FK → Nat → Nat × Flags) (x y z y' z' : Word) :
    elems k (fun K p _ _ => f K p) x y z = elems k (fun K p _ _ => f K p) x y' z' := by
  cases k <;> rfl

theorem signBit_true (k : FK) : signBit k true = 2 ^ (k.width - 1) := by
  rw [signBit, if_pos rfl, show k.width - 1 = k.eb + k.mb by unfold FK.width; omega]

/-! ## Quantising (09 R168-R170) -/

theorem State.vv_sOk_allocated (s : State) {d a n : Nat} (hd : d < s.cur.vregs) (ha : a < s.cur.vregs) (hn : n < s.cur.sregs) :
    (s.vv d a && s.cur.sOk n 1) = true := by
  rw [s.vv_allocated hd ha, s.cur.sOk_of_lt hn]
  rfl

section
variable (s : State) (h : Hdr) (d a n f : Nat)

theorem exec_vqnt_flt {k : FK} (hk : (s.curGrid.slot f).kind = .flt k) :
    exec (.vqnt h d a n f) s = .next (s.laneFloat h (s.vv d a && s.cur.sOk n 1) d (fun l =>
      (BitVec.ofNat 32 (slotCvt (s.curGrid.slot f) k (s.vreg 1 a l)).1, (slotCvt (s.curGrid.slot f) k (s.vreg 1 a l)).2))) := by
  show execVqnt h d a n f s = _
  simp only [execVqnt, hk]

theorem exec_vdqnt_f32 (hk : (s.curGrid.slot f).kind = .flt .f32) :
    exec (.vdqnt h d a n f) s = .next (s.laneFloat h (s.vv d a && s.cur.sOk n 1) d (fun l => (s.vreg 1 a l, 0))) := by
  show execVdqnt h d a n f s = _
  simp only [execVdqnt, hk]

theorem exec_vdqnt_flt {k : FK} (hk : (s.curGrid.slot f).kind = .flt k) (hne : k ≠ .f32) :
    exec (.vdqnt h d a n f) s = .next (s.laneFloat h (s.vv d a && s.cur.sOk n 1) d (fun l =>
      (BitVec.ofNat 32 (cvt (decodeF k (s.vreg 1 a l).toNat) .f32 .rne false false).1,
        (cvt (decodeF k (s.vreg 1 a l).toNat) .f32 .rne false false).2))) := by
  show execVdqnt h d a n f s = _
  cases k with
  | f32 => exact absurd rfl hne
  | _ => simp only [execVdqnt, hk]

theorem exec_vdqnt_b4 (hk : (s.curGrid.slot f).kind = .b4) :
    exec (.vdqnt h d a n f) s = .next (s.laneFloat h (s.vv d a && s.cur.sOk n 1) d (fun l =>
      (BitVec.ofNat 32 (cvt (b4Elem ((s.cur.sreg n).toNat / 2 ^ (8 * (l / 32)) % 256) ((s.vreg 1 a l).toNat % 16)) .f32 .rne false
        false).1, 0))) := by
  show execVdqnt h d a n f s = _
  simp only [execVdqnt, hk]

/-- What the quantiser makes of block `k` of v(a) through the slot (09 R168, R169). -/
def State.blockCodes (s : State) (h : Hdr) (a f k : Nat) : Nat × List Nat × Flags :=
  quantise ((List.range 32).map (fun j => if (s.active h).has (32 * k + j) then s.cur.vraw a (32 * k + j) else 0))
    (s.curGrid.slot f).type (s.curGrid.slot f).nanSat

theorem State.blockElems_settled (hs : s.settled) (act : Mask) (k : Nat) :
    s.blockElems act a k = (List.range 32).map (fun j => if act.has (32 * k + j) then s.cur.vraw a (32 * k + j) else 0) := by
  simp only [State.blockElems, s.vreg_settled _ _ _ hs]

/-- VQNT through a B4 slot does nothing when no lane is active, and else writes codes, scale bytes and flags. -/
theorem exec_vqnt_b4 (hs : s.settled) (hk : (s.curGrid.slot f).kind = .b4) (hok : (s.vv d a && s.cur.sOk n 1) = true) :
    exec (.vqnt h d a n f) s = .next (if s.active h = 0 then s.goOn s.cur.iss 4 else
      (s.modCur (fun g =>
        ((g.setV (s.active h) d (fun l =>
          BitVec.ofNat 32 ((if l < 32 then s.blockCodes h a f 0 else s.blockCodes h a f 1).2.1.getD (l % 32) 0))).setS n
          (BitVec.ofNat 32 ((s.blockCodes h a f 0).1 + if s.cur.width = 64 then 256 * (s.blockCodes h a f 1).1 else 0))).addFlags
            ((s.blockCodes h a f 0).2.2 ||| if s.cur.width = 64 then (s.blockCodes h a f 1).2.2 else 0))).goOn s.cur.iss 4) := by
  show execVqnt h d a n f s = _
  simp only [execVqnt, hk, hok, Bool.not_true, Bool.false_eq_true, if_false, State.blockElems_settled _ _ hs, beq_iff_eq]
  simp only [apply_ite (fun q : Nat × List Nat × Flags => q.2.1)]
  rfl

end

/-- A word that writes v(d), s(n) and FSTAT. -/
theorem State.setVS_results (s : State) (m : Mask) (d n : Nat) (F : Nat → Word) (x : Word) (fl : Flags) (hs : s.settled) :
    let t := (s.modCur (fun g => ((g.setV m d F).setS n x).addFlags fl)).goOn s.cur.iss 4
    (∀ l, l < 64 → t.cur.vraw d l = if m.has l then F l else s.cur.vraw d l) ∧
    (∀ r l, r ≠ d → l < 64 → t.cur.vraw r l = s.cur.vraw r l) ∧ t.cur.sreg n = x ∧ (∀ r, r ≠ n → t.cur.sreg r = s.cur.sreg r) ∧
    s.wentOn t 4 ∧
    t = { s with cur := { s.cur with v := t.cur.v, s := t.cur.s, pc := t.cur.pc, fstat := s.cur.fstat ||| fl } } := by
  have hu : (s.modCur (fun g => ((g.setV m d F).setS n x).addFlags fl)).cur.outst = [] := s.cur.setV_settled m d F hs
  simp only [State.goOn_settled _ _ _ hu]
  refine ⟨fun l hl => ?_, fun r l hr hl => ?_, ?_, fun r hr => ?_, fun l hl => Group.pc_setPc _ _ _ l hl, ?_⟩
  · exact (s.cur.vraw_setV m d F d l hl).trans (by simp)
  · exact (s.cur.vraw_setV m d F r l hl).trans (by simp [hr])
  · exact (Group.sreg_setS (s.cur.setV m d F) n x n).trans (if_pos rfl)
  · exact (Group.sreg_setS (s.cur.setV m d F) n x r).trans (if_neg hr)
  · simp [State.modCur, Group.addFlags, Group.setPc, Group.setS, Group.setV, markClob, show s.cur.outst = [] from hs]

/-- The codes that lane `l` of a group of up to 64 takes are those of its block. -/
theorem State.blockCodes_lane (s : State) (h : Hdr) (a f : Nat) {l : Nat} (hl : l < 64) :
    (if l < 32 then s.blockCodes h a f 0 else s.blockCodes h a f 1) = s.blockCodes h a f (l / 32) := by
  split
  · rw [show l / 32 = 0 by omega]
  · rw [show l / 32 = 1 by omega]

end Sys2Proof.Machine

open Sys2Proof Sys2Proof.Machine

/-- Settles O9: each word applies its element operation to the elements of its registers. -/
theorem floatElementResults : Obligations.FloatElementResults := by
  unfold Obligations.FloatElementResults
  intro s h d a b k hs hd ha hb
  have three := fun (f : FK → Nat → Nat → Nat → Nat × Flags) (i : Instr) he => State.laneFloat_results (i := i) hs (h := h) (d := d)
    (s.vvv_allocated hd ha hb) (f := fun l => elems k f (s.vreg 1 a l) (s.vreg 2 b l) (s.vreg 3 d l)) he
    (fun l => by rw [s.vreg_settled _ _ _ hs, s.vreg_settled _ _ _ hs, s.vreg_settled _ _ _ hs, elems_eq])
  have two := fun (f : FK → Nat → Nat → Nat × Flags) (i : Instr) he => State.laneFloat2_results (i := i) hs (h := h) (d := d)
    hd ha hb (f := fun x y => elems k (fun K p q _ => f K p q) x y 0) he
    (fun l => (elems_binary k f _ _ 0 (s.cur.vraw d l)).trans (elems_eq k _ _ _ _))
  have one := fun (f : FK → Nat → Nat × Flags) (i : Instr) he => State.laneFloat1_results (i := i) hs (h := h) (d := d)
    hd ha (f := fun x => elems k (fun K p _ _ => f K p) x 0 0) he
    (fun l => (elems_unary k f _ 0 0 (s.cur.vraw b l) (s.cur.vraw d l)).trans (elems_eq k _ _ _ _))
  simp only [List.forall_mem_cons, List.not_mem_nil, false_imp_iff, implies_true, and_true, ← signBit_true]
  exact ⟨two _ (.vfadd h d a b k) rfl, two _ (.vfsub h d a b k) rfl, two _ (.vfmul h d a b k) rfl, three _ (.vfma h d a b k) rfl,
    two _ (.vfmin h d a b k) rfl, two _ (.vfmax h d a b k) rfl, one _ (.vfabs h d a k) rfl, one _ (.vfneg h d a k) rfl,
    one _ (.vfrint h d a k) rfl, one _ (.vfcls h d a k) rfl⟩

/-- Settles O10: each word is a float lane word on one register or on two. -/
theorem floatUnaryResults : Obligations.FloatUnaryResults := by
  unfold Obligations.FloatUnaryResults
  intro s h d a b dst src r c6 u hs hd ha hb
  have two := fun (f : Word → Word → Word × Flags) (i : Instr) he =>
    State.laneFloat2_results (i := i) (f := f) hs (h := h) (d := d) hd ha hb he (fun _ => rfl)
  have one := fun (f : Word → Word × Flags) (i : Instr) he =>
    State.laneFloat1_results (i := i) (f := f) hs (h := h) (d := d) hd ha he (fun _ => rfl)
  have special := fun (f : FVal → FVal × Flags) => one (fun x => toF32 s.cur.rm (f (f32 x)))
  have pack := fun (K : FK) => two (fun x y => (BitVec.ofNat 32 ((cvt (f32 x) K s.cur.rm false false).1 +
    65536 * (cvt (f32 y) K s.cur.rm false false).1), (cvt (f32 x) K s.cur.rm false false).2 ||| (cvt (f32 y) K s.cur.rm false false).2))
  simp only [List.forall_mem_cons, List.not_mem_nil, false_imp_iff, implies_true, and_true]
  exact ⟨two (fun x y => toF32 s.cur.rm (scaleX (f32 x) y.toInt)) (.vfscl h d a b) rfl,
    one (cvtWord dst src r) (.vcvt h d a dst src r) rfl, one (cvt6Word c6 r) (.vcvt6 h d a c6 r) rfl,
    one (upkhWord u) (.vupkh h d a u) rfl, pack .f16 (.vpkh h d a b .f16x2) rfl, pack .bf16 (.vpkh h d a b .bf16x2) rfl,
    special (divX (.fin false 1 0)) (.vrcp h d a) rfl, special rsqX (.vrsq h d a) rfl, special sqrtX (.vsqrt h d a) rfl,
    special exp2X (.vexp2 h d a) rfl, special log2X (.vlog2 h d a) rfl, special tanhX (.vtanh h d a) rfl,
    two (fun x y => toF32 s.cur.rm (divX (f32 x) (f32 y))) (.vdiv h d a b) rfl⟩

/-- Settles O12: a float slot by the rule of a float lane word, a B4 slot by what the quantiser makes of the blocks. -/
theorem quantiserResults : Obligations.QuantiserResults := by
  unfold Obligations.QuantiserResults
  intro s h d a n f hs hd ha hn
  have hok := s.vv_sOk_allocated hd ha hn
  refine ⟨fun k hk => ⟨?_, fun h32 => ?_, fun hne => ?_⟩, fun hk => ⟨fun hz => ?_, fun hnz => ?_, ?_⟩⟩
  · exact State.laneFloat_results hs hok (exec_vqnt_flt s h d a n f hk) (fun l => by rw [s.vreg_settled _ _ _ hs])
  · exact State.laneFloat_noFlags hs hok (exec_vdqnt_f32 s h d a n f (h32 ▸ hk)) (fun l => by rw [s.vreg_settled _ _ _ hs])
  · exact State.laneFloat_results hs hok (exec_vdqnt_flt s h d a n f hk hne) (fun l => by rw [s.vreg_settled _ _ _ hs])
  · exact ⟨_, (exec_vqnt_b4 s h d a n f hs hk hok).trans (congrArg _ (if_pos hz)), s.onlyWentOn_goOn 4 hs⟩
  · obtain ⟨hcodes, hrest⟩ := s.setVS_results (s.active h) d n _ _ _ hs
    refine ⟨_, (exec_vqnt_b4 s h d a n f hs hk hok).trans (congrArg _ (if_neg hnz)), fun l hl => ?_, hrest⟩
    rw [hcodes l hl, s.blockCodes_lane h a f hl]
    rfl
  · exact State.laneFloat_noFlags hs hok (exec_vdqnt_b4 s h d a n f hk) (fun l => by rw [s.vreg_settled _ _ _ hs])
end

section
/-! PROOF. Values of conversions, of codes delivered to their own kind, and of NaN operands (O11). -/

namespace Sys2Proof.Machine

/-! ## Integers and floats to integers (09 R164) -/

theorem cvtClamp_below {k : CvtKind} {y : Int} (h : y < cvtMin k) (e : Bool) : cvtClamp k y e = (BitVec.ofInt 32 (cvtMin k), fNV) :=
  if_pos h

theorem cvtClamp_above {k : CvtKind} {y : Int} (h : cvtMin k ≤ y) (h' : cvtMax k < y) (e : Bool) :
    cvtClamp k y e = (BitVec.ofInt 32 (cvtMax k), fNV) := by
  rw [cvtClamp, if_neg (Int.not_lt.mpr h), if_pos h']

theorem cvtClamp_within {k : CvtKind} {y : Int} (h : cvtMin k ≤ y) (h' : y ≤ cvtMax k) : cvtClamp k y true = (BitVec.ofInt 32 y, 0) := by
  rw [cvtClamp, if_neg (Int.not_lt.mpr h), if_neg (Int.not_lt.mpr h')]
  rfl

theorem cvtWord_u32_i32 (x : Word) (r : Rnd) : cvtWord .u32 .i32 r x = if x.toInt < 0 then (0, fNV) else (x, 0) := by
  show cvtClamp .u32 x.toInt true = _
  split
  · next hneg => exact cvtClamp_below hneg true
  · next hpos =>
    have hmax : x.toInt ≤ 4294967295 := by have := x.toInt_lt; omega
    rw [cvtClamp_within (Int.not_lt.mp hpos) hmax, BitVec.ofInt_toInt]

theorem cvtWord_i32_u32 (x : Word) (r : Rnd) : cvtWord .i32 .u32 r x = if 2147483647 < x.toNat then (0x7FFFFFFF, fNV) else (x, 0) := by
  have hmin : (-2147483648 : Int) ≤ x.toNat := by omega
  show cvtClamp .i32 x.toNat true = _
  split
  · next hbig => exact cvtClamp_above hmin (Int.ofNat_lt.mpr hbig) true
  · next hsmall =>
    rw [cvtClamp_within hmin (Int.ofNat_le.mpr (Nat.not_lt.mp hsmall)), BitVec.ofInt_natCast, ofNat_toNat_self]

theorem floatToInt_nan {x : FVal} (hx : x.isNan = true) (k : CvtKind) (rm : Rnd) : floatToInt x k rm = (0, fNV) := by
  cases x with
  | nan sig s pay => rfl
  | inf s => exact absurd hx Bool.false_ne_true
  | fin s m e => exact absurd hx Bool.false_ne_true

/-! ## The code of a finite value (08 R136, R137, R141-R143) -/

section
variable (k : FK)

/-- The finite value of sign `s` whose exponent and M fields, read as one number, are `c`. -/
def codeValue (s : Bool) (c : Nat) : FVal :=
  if c / 2 ^ k.mb = 0 then .fin s (c % 2 ^ k.mb) k.qmin
  else .fin s (c % 2 ^ k.mb + 2 ^ k.mb) (k.qmin + (c / 2 ^ k.mb : Nat) - 1)

/-- In the kinds that have infinities the largest finite code stands just below infinity. -/
theorem maxCode_succ (hk : k.ieee = true) : k.maxCode + 1 = (2 ^ k.eb - 1) * 2 ^ k.mb := by
  cases k with
  | f32 | f16 | bf16 | e5m2 => rfl
  | e4m3 | e3m2 | e2m3 => exact absurd hk Bool.false_ne_true

/-- Below infinity, below the NaN of E4M3, and anywhere in E3M2 and E2M3, a code is finite. -/
theorem le_maxCode {c : Nat} (hc : c < 2 ^ (k.eb + k.mb)) (hinf : k.ieee = true → c / 2 ^ k.mb ≠ 2 ^ k.eb - 1)
    (hnan : k = .e4m3 → c ≠ 127) : c ≤ k.maxCode := by
  by_cases hk : k.ieee = true
  · have hfield : c / 2 ^ k.mb < 2 ^ k.eb := by
      rwa [Nat.div_lt_iff_lt_mul (Nat.two_pow_pos _), ← Nat.pow_add]
    have hbelow : c / 2 ^ k.mb < 2 ^ k.eb - 1 := Nat.lt_of_le_of_ne (Nat.le_sub_one_of_lt hfield) (hinf hk)
    rw [Nat.div_lt_iff_lt_mul (Nat.two_pow_pos _), ← maxCode_succ k hk] at hbelow
    exact Nat.le_of_lt_succ hbelow
  · cases k with
    | f32 | f16 | bf16 | e5m2 => exact absurd rfl hk
    | e4m3 => exact Nat.le_sub_one_of_lt (Nat.lt_of_le_of_ne (Nat.le_sub_one_of_lt hc) (hnan rfl))
    | e3m2 | e2m3 => exact Nat.le_sub_one_of_lt hc

/-- A code that is no NaN and no infinity is a sign and a number up to the largest finite code. -/
theorem decodeF_finite (x : Nat) (hn : (decodeF k x).isNan = false) (hi : (decodeF k x).isInf = false) :
    decodeF k x = codeValue k (x.testBit (k.eb + k.mb)) (x % 2 ^ (k.eb + k.mb)) ∧ x % 2 ^ (k.eb + k.mb) ≤ k.maxCode := by
  have hexp : x / 2 ^ k.mb % 2 ^ k.eb = x % 2 ^ (k.eb + k.mb) / 2 ^ k.mb := by
    rw [Nat.add_comm k.eb, Nat.pow_add, Nat.mod_mul_right_div_self]
  have hfrac : x % 2 ^ k.mb = x % 2 ^ (k.eb + k.mb) % 2 ^ k.mb :=
    (Nat.mod_mod_of_dvd x (Nat.pow_dvd_pow 2 (Nat.le_add_left _ _))).symm
  have hc : x % 2 ^ (k.eb + k.mb) < 2 ^ (k.eb + k.mb) := Nat.mod_lt _ (Nat.two_pow_pos _)
  unfold decodeF at hn hi ⊢
  simp only [hexp, hfrac] at hn hi ⊢
  generalize hx : x % 2 ^ (k.eb + k.mb) = c at *
  by_cases htop : (k.ieee && c / 2 ^ k.mb == 2 ^ k.eb - 1) = true
  · rw [if_pos htop] at hn hi
    by_cases hz : c % 2 ^ k.mb = 0
    · rw [if_pos hz] at hi
      exact absurd hi.symm Bool.false_ne_true
    · rw [if_neg hz] at hn
      exact absurd hn.symm Bool.false_ne_true
  · rw [if_neg htop] at hn ⊢
    by_cases hnan : (k == .e4m3 && x % 128 == 127) = true
    · rw [if_pos hnan] at hn
      exact absurd hn.symm Bool.false_ne_true
    · rw [if_neg hnan]
      refine ⟨rfl, le_maxCode k hc (fun hk he => htop (by simp [hk, he])) (fun hk he => hnan ?_)⟩
      subst hk
      rw [show x % 128 = 127 from hx.trans he]
      rfl

/-- A significand in its place is delivered without rounding: `g` steps above the subnormals its exponent counts `g` (08 R144). -/
theorem deliverFin_exact (conv : Bool) (rm : Rnd) (sat s : Bool) (m g : Nat) (hm : m ≠ 0)
    (hplace : max k.qmin (k.qmin + g + m.log2 - k.mb) = k.qmin + g) (hmax : g * 2 ^ k.mb + m ≤ k.maxCode) :
    deliverFin conv k rm sat s m (k.qmin + g) = (signBit k s + (g * 2 ^ k.mb + m), 0) := by
  have hround : roundQ rm s m (k.qmin + g) (k.qmin + g) = (m, true) := by
    rw [roundQ, if_pos (Int.le_refl _), Int.sub_self]
    simp
  have hcode : (k.qmin + g - k.qmin) * 2 ^ k.mb + (m : Int) = (g * 2 ^ k.mb + m : Nat) := by
    rw [Int.add_comm k.qmin, Int.add_sub_cancel]
    push_cast
    rfl
  unfold deliverFin
  rw [if_neg hm]
  simp only [hplace, hround, hcode, if_neg (Int.not_lt.mpr (Int.ofNat_le.mpr hmax)), Int.toNat_natCast, Bool.not_true, Bool.false_and]
  rfl

/-- A finite value is delivered to its own kind as its code (08 R139). -/
theorem deliver_codeValue (conv : Bool) (rm : Rnd) (s : Bool) (c : Nat) (hc : c ≤ k.maxCode) :
    deliverTo conv (codeValue k s c) k rm false false = (signBit k s + c, 0) := by
  have hfrac : c % 2 ^ k.mb < 2 ^ k.mb := Nat.mod_lt _ (Nat.two_pow_pos _)
  have hsplit : c / 2 ^ k.mb * 2 ^ k.mb + c % 2 ^ k.mb = c := Nat.div_add_mod' c _
  unfold codeValue
  by_cases hexp : c / 2 ^ k.mb = 0
  · have hc' : c % 2 ^ k.mb = c := by rw [hexp] at hsplit; omega
    rw [if_pos hexp, hc']
    show deliverFin conv k rm false s c k.qmin = _
    by_cases hz : c = 0
    · rw [hz]
      rfl
    · have hlog : c.log2 < k.mb := (Nat.log2_lt hz).mpr (hc' ▸ hfrac)
      have h := deliverFin_exact k conv rm false s c 0 hz (by omega) (by omega)
      rwa [Nat.zero_mul, Nat.zero_add, Int.natCast_zero, Int.add_zero] at h
  · obtain ⟨g, hg⟩ := Nat.exists_eq_succ_of_ne_zero hexp
    have hlog : (c % 2 ^ k.mb + 2 ^ k.mb).log2 = k.mb := by
      rw [Nat.log2_eq_iff (by omega)]
      omega
    have hcode : g * 2 ^ k.mb + (c % 2 ^ k.mb + 2 ^ k.mb) = c := by
      rw [hg, Nat.succ_mul] at hsplit
      omega
    have h := deliverFin_exact k conv rm false s (c % 2 ^ k.mb + 2 ^ k.mb) g (by omega) (by omega) (by omega)
    rw [hcode] at h
    rw [if_neg hexp, show k.qmin + ((c / 2 ^ k.mb : Nat) : Int) - 1 = k.qmin + g by omega]
    exact h

/-- A code is its sign and the rest. -/
theorem signBit_add (x : Nat) (hx : x < 2 ^ k.width) : signBit k (x.testBit (k.eb + k.mb)) + x % 2 ^ (k.eb + k.mb) = x := by
  have htop : x / 2 ^ (k.eb + k.mb) < 2 := by
    rw [Nat.div_lt_iff_lt_mul (Nat.two_pow_pos _), ← Nat.pow_succ']
    rwa [FK.width, show 1 + k.eb + k.mb = k.eb + k.mb + 1 by omega] at hx
  have hsplit := Nat.div_add_mod' x (2 ^ (k.eb + k.mb))
  rw [signBit, Nat.testBit_eq_decide_div_mod_eq]
  obtain h | h := Nat.le_one_iff_eq_zero_or_eq_one.mp (Nat.lt_succ_iff.mp htop)
  · rw [h] at hsplit ⊢
    simpa using hsplit
  · rw [h] at hsplit ⊢
    simpa using hsplit

theorem cvt_decodeF_self (rm : Rnd) (x : Nat) (hx : x < 2 ^ k.width) (hn : (decodeF k x).isNan = false)
    (hi : (decodeF k x).isInf = false) : cvt (decodeF k x) k rm false false = (x, 0) := by
  obtain ⟨hval, hmax⟩ := decodeF_finite k x hn hi
  rw [cvt, hval, deliver_codeValue k true rm _ _ hmax, signBit_add k x hx]

end

/-! ## NaN operands (08 R138; 09 R159) -/

/-- The first NaN in the order x, y, quieted, and NV when one of the two signals. -/
theorem firstNan_pair (x y : FVal) (h : x.isNan = true ∨ y.isNan = true) :
    firstNan [x, y] = some ((if x.isNan then x else y).quiet, if x.isSig || y.isSig then fNV else 0) := by
  unfold firstNan
  cases hx : x.isNan with
  | true => simp [hx, fIf]
  | false => simp [hx, h.resolve_left (by simp [hx]), fIf]

end Sys2Proof.Machine

open Sys2Proof Sys2Proof.Machine

/-- Settles O11: conversions by the bounds of the destination, a finite code as a significand in its place, a sum or a product of a NaN
by the first one. -/
theorem floatCornerValues : Obligations.FloatCornerValues := by
  unfold Obligations.FloatCornerValues
  refine ⟨⟨cvtWord_u32_i32, cvtWord_i32_u32, fun x r hx => ?_, fun r => ?_⟩, fun k r x hx hn hi => cvt_decodeF_self k r x hx hn hi,
    fun r x y h => ?_⟩
  · exact ⟨floatToInt_nan hx .i32 r, floatToInt_nan hx .u32 r⟩
  · exact ⟨rfl, rfl, rfl, rfl⟩
  · simp only [addX, mulX, firstNan_pair x y h, and_self]
end

section
/-! PROOF. Lane exchanges and reductions over the lanes of a group (O7, O8). -/

namespace Sys2Proof.Machine

/-! ## Lane exchanges (09 R157, R158, R174, R175, R177, R178) -/

/-- With no result outstanding a permute is a lane word whose lane `l` reads v(a) of lane `src l`. -/
theorem State.permute_settled (s : State) (h : Hdr) (ok : Bool) (d a : Nat) (src : Nat → Nat) (hs : s.settled) :
    s.permute h ok d a src = s.laneAlu h ok d (fun l => s.cur.vraw a (src l)) := by
  have hnone : ∀ p, s.modCur (fun g => g.deliverIf s.freeCtr p) = s := fun p => by
    rw [State.modCur, Group.deliverIf_settled _ _ _ hs]
  simp only [State.permute, State.laneAlu, hnone, s.vreg_settled _ _ _ hs]

theorem State.permute_results {s : State} {h : Hdr} {d a : Nat} (hs : s.settled) {ok : Bool} (hok : ok = true) {i : Instr}
    {src src' : Nat → Nat} (he : exec i s = .next (s.permute h ok d a src)) (hsrc : ∀ l, src l = src' l) :
    ∃ t, exec i s = .next t ∧ s.wroteV t (s.active h) d 4 (fun l => s.cur.vraw a (src' l)) :=
  State.laneAlu_results hs hok (he.trans (congrArg _ (s.permute_settled h ok d a src hs))) (fun l => by rw [hsrc])

theorem loW_ofInt (z : Int) : loW (BitVec.ofInt 64 z) = BitVec.ofInt 32 z := by
  apply BitVec.eq_of_toNat_eq
  rw [loW, BitVec.toNat_setWidth, BitVec.toNat_ofInt, BitVec.toNat_ofInt]
  omega

/-- The low word of an affine value (02 R34; 09 R177). -/
theorem Group.loW_affine (g : Group) (x l : Nat) :
    loW (g.affine x l) = BitVec.ofInt 32 ((g.xb.get x).toNat + (l : Int) * (g.xs.get x).toInt) := by
  rw [← loW_ofInt, BitVec.ofInt_add, BitVec.ofInt_mul, BitVec.ofInt_natCast, BitVec.ofInt_natCast, ofNat_toNat_self]
  rfl

section
variable {s : State} (h : Hdr) (d a : Nat) (hs : s.settled)
include hs

theorem exec_vballot_narrow (hw : s.cur.width ≠ 64) (hok : s.cur.sOk d 1 = true) :
    exec (.vballot h d a) s = .next (if s.active h = 0 then s.goOn s.cur.iss 4
      else s.uniAlu ⟨h.e, 7⟩ true (fun g => g.setS d (loW (s.active h &&& s.cur.p.get a)))) := by
  show execVballot h d a s = _
  simp only [execVballot, s.preg_settled _ _ hs, beq_eq_false_iff_ne.mpr hw, Bool.false_eq_true, if_false, hok, Bool.not_true]
  rfl

theorem exec_vballot_wide (hw : s.cur.width = 64) (hok : s.cur.sPairOk d = true) :
    exec (.vballot h d a) s = .next (if s.active h = 0 then s.goOn s.cur.iss 4
      else s.uniAlu ⟨h.e, 7⟩ true (fun g => g.setSPair d (s.active h &&& s.cur.p.get a))) := by
  show execVballot h d a s = _
  simp only [execVballot, s.preg_settled _ _ hs, beq_iff_eq.mpr hw, if_true, hok, Bool.not_true, Bool.false_eq_true, if_false]
  rfl

/-- A word that acts when a lane is active, and else only goes on. -/
theorem State.ifActive_results {i : Instr} {t : State} {P : State → Prop}
    (he : exec i s = .next (if s.active h = 0 then s.goOn s.cur.iss 4 else t)) (hP : P t) :
    ∃ t, exec i s = .next t ∧ if s.active h = 0 then s.onlyWentOn t 4 else P t := by
  refine ⟨_, he, ?_⟩
  split
  · exact s.onlyWentOn_goOn 4 hs
  · exact hP

end

/-! ## The reduction tree (09 R176) -/

section
variable {α β : Type} (leaf : Nat → α) (n off : Nat)

/-- A map that respects the operation of the nodes respects the tree. -/
theorem treeFold_hom {f : α → α → α} {f' : β → β → β} (g : α → β) (hg : ∀ x y, g (f x y) = f' (g x) (g y)) :
    g (treeFold f leaf n off) = treeFold f' (fun i => g (leaf i)) n off := by
  induction n generalizing off with
  | zero => rfl
  | succ n ih => rw [treeFold, hg, ih, ih, treeFold]

/-- A tree of sums is the sum of the leaves. -/
theorem treeFold_sum (leaf : Nat → Nat) : treeFold (· + ·) leaf n off = ((List.range' off (2 ^ n)).map leaf).sum := by
  induction n generalizing off with
  | zero => simp [treeFold]
  | succ n ih =>
    rw [treeFold, ih, ih, ← List.sum_append, ← List.map_append, List.range'_append_1, Nat.pow_succ, Nat.mul_two]

/-- The element of the smaller key, the first one when they agree. -/
def leastOf (key : α → Int) (x y : α) : α := if key x ≤ key y then x else y

/-- A tree of choices ends at a leaf of the least key. -/
theorem treeFold_leastOf (key : α → Int) :
    (∃ i, off ≤ i ∧ i < off + 2 ^ n ∧ treeFold (leastOf key) leaf n off = leaf i) ∧
    ∀ i, off ≤ i → i < off + 2 ^ n → key (treeFold (leastOf key) leaf n off) ≤ key (leaf i) := by
  induction n generalizing off with
  | zero =>
    refine ⟨⟨off, by omega, by omega, rfl⟩, fun i hi hi' => ?_⟩
    rw [show i = off by omega]
    exact Int.le_refl _
  | succ n ih =>
    obtain ⟨⟨i, hi, hi', hx⟩, hxle⟩ := ih off
    obtain ⟨⟨j, hj, hj', hy⟩, hyle⟩ := ih (off + 2 ^ n)
    rw [treeFold, Nat.pow_succ]
    generalize treeFold (leastOf key) leaf n off = x at *
    generalize treeFold (leastOf key) leaf n (off + 2 ^ n) = y at *
    have hleast : (leastOf key x y = x ∧ key x ≤ key y) ∨ (leastOf key x y = y ∧ key y ≤ key x) := by
      unfold leastOf
      split
      · exact .inl ⟨rfl, ‹_›⟩
      · exact .inr ⟨rfl, by omega⟩
    refine ⟨?_, fun l hl hl' => ?_⟩
    · obtain ⟨he, -⟩ | ⟨he, -⟩ := hleast
      · exact ⟨i, hi, by omega, he.trans hx⟩
      · exact ⟨j, by omega, by omega, he.trans hy⟩
    · have hl2 : key x ≤ key (leaf l) ∨ key y ≤ key (leaf l) := by
        by_cases hlow : l < off + 2 ^ n
        · exact .inl (hxle l hl hlow)
        · exact .inr (hyle l (by omega) (by omega))
      obtain ⟨he, hle⟩ | ⟨he, hle⟩ := hleast <;> rw [he] <;> omega

end

/-! ## Trees over the lanes of a group -/

section
variable (m : Mask) {n : Nat} (hm : ∀ l, m.has l = true → l < 2 ^ n)
include hm

/-- A sum over lanes in which the lanes outside `m` count 0. -/
theorem treeFold_sum_lanes (hn : 2 ^ n ≤ 64) (v : Nat → Nat) :
    treeFold (· + ·) (fun l => if m.has l then v l else 0) n 0 = (m.lanes.map v).sum := by
  obtain ⟨j, hj⟩ := Nat.exists_eq_add_of_le hn
  have hlanes : m.lanes = (List.range (2 ^ n)).filter m.has := by
    rw [Mask.lanes, hj, List.range_add, List.filter_append, List.append_right_eq_self, List.filter_eq_nil_iff]
    intro l hl hml
    obtain ⟨i, -, rfl⟩ := List.mem_map.mp hl
    have := hm _ hml
    omega
  rw [treeFold_sum, ← List.range_eq_range', hlanes]
  induction List.range (2 ^ n) with
  | nil => rfl
  | cons l ls ih =>
    rw [List.map_cons, List.sum_cons, ih, List.filter_cons]
    split
    · rw [List.map_cons, List.sum_cons]
    · rw [Nat.zero_add]

/-- Among lanes the least key is that of a lane of `m`, when the lanes outside `m` hold an element of the largest key. -/
theorem treeFold_leastOf_lanes {α : Type} (key : α → Int) (hkey : ∀ x y, key x = key y → x = y) (top : α) (htop : ∀ x, key x ≤ key top)
    (v : Nat → α) (hne : m ≠ 0) (x : α) (hx : x = treeFold (leastOf key) (fun l => if m.has l then v l else top) n 0) :
    (∃ l ∈ m.lanes, x = v l) ∧ ∀ l ∈ m.lanes, key x ≤ key (v l) := by
  obtain ⟨⟨i, -, -, hi⟩, hle⟩ := treeFold_leastOf (fun l => if m.has l then v l else top) n 0 key
  rw [← hx] at hi hle
  have hleast : ∀ l ∈ m.lanes, key x ≤ key (v l) := fun l hl => by
    have hl := (m.mem_lanes l).mp hl
    simpa [hl] using hle l (by omega) (by have := hm l hl; omega)
  refine ⟨?_, hleast⟩
  by_cases hmi : m.has i = true
  · exact ⟨i, (m.mem_lanes i).mpr hmi, by simpa [hmi] using hi⟩
  · have hxt : x = top := by simpa [hmi] using hi
    have hlow := (m.mem_lanes _).mpr (Mask.has_low hne)
    exact ⟨m.low, hlow, hkey _ _ (Int.le_antisymm (hleast _ hlow) (hxt ▸ htop _))⟩

end

/-! ## VRED (09 R176) -/

section
variable (s : State) (h : Hdr) (d a : Nat)

/-- The leaf of lane `l`: v(a) of an active lane, else `z`. -/
def State.redLeaf (z : Word) (l : Nat) : Word := if (s.active h).has l then s.cur.vraw a l else z

/-- What VRED writes to s(d), and the flags it sets. -/
def State.reduced (k : RedK) : Word × Flags :=
  treeFold (redK k s.cur.rm) (fun l => (s.redLeaf h a (redIdentity k) l, 0)) s.cur.width.log2 0

variable {s} (hs : s.settled) (hd : d < s.cur.sregs) (ha : a < s.cur.vregs)
include hs hd ha

theorem exec_vred (k : RedK) : exec (.vred h d a k) s = .next (if s.active h = 0 then s.goOn s.cur.iss 4 else
    (s.modCur (fun g => (g.setS d (s.reduced h a k).1).addFlags (s.reduced h a k).2)).goOn s.cur.iss 4) := by
  have hok : (s.cur.sOk d 1 && s.cur.vOk a 1) = true := by
    rw [s.cur.sOk_of_lt hd, show s.cur.vOk a 1 = true from decide_eq_true ha]
    rfl
  show execVred h d a k s = _
  simp only [execVred, hok, s.vreg_settled _ _ _ hs, Bool.not_true, Bool.false_eq_true, if_false]
  rfl

theorem State.vred_none (hz : s.active h = 0) (k : RedK) : ∃ t, exec (.vred h d a k) s = .next t ∧ s.onlyWentOn t 4 :=
  ⟨_, (exec_vred h d a hs hd ha k).trans (congrArg _ (if_pos hz)), s.onlyWentOn_goOn 4 hs⟩

/-- The integer reductions set no flag: `f` is the operation of their nodes. -/
theorem State.vred_integer (hz : s.active h ≠ 0) (k : RedK) (f : Word → Word → Word) (hf : ∀ x y, redK k s.cur.rm x y = (f x.1 y.1, 0)) :
    ∃ t, exec (.vred h d a k) s = .next t ∧
      s.wroteS t d 4 (treeFold f (s.redLeaf h a (redIdentity k)) s.cur.width.log2 0) := by
  have hred : s.reduced h a k = (treeFold f (s.redLeaf h a (redIdentity k)) s.cur.width.log2 0, 0) :=
    (treeFold_hom _ _ 0 (fun x : Word => (x, (0 : Flags))) (fun x y => (hf (x, 0) (y, 0)).symm)).symm
  have he := (exec_vred h d a hs hd ha k).trans (congrArg _ (if_neg hz))
  simp only [hred, Group.addFlags_zero] at he
  exact ⟨_, he, State.uniAlu_setS (h := ⟨h.e, 7⟩) hs (ok := true) rfl rfl rfl⟩

end

/-- A word that writes s(d) and FSTAT. -/
theorem State.setS_addFlags_results (s : State) (d : Nat) (x : Word) (fl : Flags) (hs : s.settled) :
    let t := (s.modCur (fun g => (g.setS d x).addFlags fl)).goOn s.cur.iss 4
    t.cur.sreg d = x ∧ (∀ r, r ≠ d → t.cur.sreg r = s.cur.sreg r) ∧ s.wentOn t 4 ∧
    t = { s with cur := { s.cur with s := t.cur.s, pc := t.cur.pc, fstat := s.cur.fstat ||| fl } } := by
  have hu : (s.modCur (fun g => (g.setS d x).addFlags fl)).cur.outst = [] := hs
  simp only [State.goOn_settled _ _ _ hu]
  exact ⟨(s.cur.sreg_setS d x d).trans (if_pos rfl), fun r hr => (s.cur.sreg_setS d x r).trans (if_neg hr),
    fun l hl => Group.pc_setPc _ _ _ l hl, rfl⟩

theorem minK_i32_eq_leastOf : minK .i32 = leastOf BitVec.toInt := rfl

theorem maxK_i32_eq_leastOf : maxK .i32 = leastOf (fun x => -x.toInt) := by
  funext x y
  simp only [maxK, leastOf, Int.neg_le_neg_iff]

theorem ofNat_treeFold_sum (m : Mask) (v : Nat → Word) (n : Nat) :
    treeFold (· + ·) (fun l => if m.has l then v l else 0) n 0 =
      BitVec.ofNat 32 (treeFold (· + ·) (fun l => if m.has l then (v l).toNat else 0) n 0) := by
  rw [treeFold_hom _ _ _ (BitVec.ofNat 32) (fun x y => BitVec.ofNat_add x y)]
  simp only [apply_ite (BitVec.ofNat 32), ofNat_toNat_self]
  rfl

end Sys2Proof.Machine

open Sys2Proof Sys2Proof.Machine

/-- Settles O7: permutes by the lane they read, VAFF by the low word of the affine value, VBALLOT by the width of its group. -/
theorem laneExchangeResults : Obligations.LaneExchangeResults := by
  unfold Obligations.LaneExchangeResults
  intro s h d a b n hs hw hn hlanes
  refine ⟨fun hd ha hb => ⟨?_, ?_, ?_, ?_⟩, fun hd => ?_, fun hd ha => ?_, fun hne hd => ?_, fun he heven hd => ?_⟩
  · exact State.permute_results hs (s.vvv_allocated hd ha hb) rfl (fun l => by rw [s.vreg_settled _ _ _ hs])
  · exact State.permute_results hs (s.vv_allocated hd ha) rfl (fun _ => rfl)
  · exact State.permute_results hs (s.vv_allocated hd ha) rfl (fun l => by split <;> split <;> omega)
  · exact State.permute_results hs (s.vv_allocated hd ha) rfl (fun l => by split <;> split <;> omega)
  · exact State.laneAlu_results hs (decide_eq_true hd) rfl (s.cur.loW_affine a)
  · have hok : (s.cur.vOk d 1 && s.cur.sOk a 1) = true := by
      rw [s.cur.sOk_of_lt ha, show s.cur.vOk d 1 = true from decide_eq_true hd]
      rfl
    exact State.laneAlu_results hs hok rfl (fun _ => rfl)
  · exact State.ifActive_results h hs (exec_vballot_narrow h d a hs hne (s.cur.sOk_of_lt hd))
      (State.uniAlu_setS (h := ⟨h.e, 7⟩) hs rfl rfl rfl)
  · exact State.ifActive_results h hs (exec_vballot_wide h d a hs he (s.cur.sPairOk_of_le heven hd))
      (State.uniAlu_setSPair (h := ⟨h.e, 7⟩) hs rfl rfl rfl)

/-- Settles O8: the sum of the active lanes as the sum of all leaves, the least and the greatest as the end of a tree of choices, the
FP32 sum as the tree itself. -/
theorem reductionResults : Obligations.ReductionResults := by
  unfold Obligations.ReductionResults
  constructor
  · intro s h d a hs hw hlanes hd ha
    have hpow : 2 ^ s.cur.width.log2 = s.cur.width := by obtain hw | hw | hw := hw <;> rw [hw] <;> decide
    have hin : ∀ l, (s.active h).has l = true → l < 2 ^ s.cur.width.log2 := fun l hl => by rw [hpow]; exact hlanes l hl
    refine ⟨fun hz k => State.vred_none h d a hs hd ha hz k, fun hz => ⟨?_, ?_, ?_⟩⟩
    · obtain ⟨t, ht, hwrote⟩ := State.vred_integer h d a hs hd ha hz .addI32 (· + ·) (fun _ _ => rfl)
      have hsum := (ofNat_treeFold_sum (s.active h) (s.cur.vraw a) s.cur.width.log2).trans
        (congrArg _ (treeFold_sum_lanes _ hin (by omega) _))
      exact ⟨t, ht, hsum ▸ hwrote⟩
    · obtain ⟨t, ht, hwrote⟩ := State.vred_integer h d a hs hd ha hz .minI32 (minK .i32) (fun _ _ => rfl)
      rw [minK_i32_eq_leastOf] at hwrote
      exact ⟨t, _, ht, hwrote, treeFold_leastOf_lanes _ hin _ (fun _ _ => BitVec.eq_of_toInt_eq) (redIdentity .minI32)
        (fun x => Int.le_of_lt_add_one x.toInt_lt) (s.cur.vraw a) hz _ rfl⟩
    · obtain ⟨t, ht, hwrote⟩ := State.vred_integer h d a hs hd ha hz .maxI32 (maxK .i32) (fun _ _ => rfl)
      rw [maxK_i32_eq_leastOf] at hwrote
      obtain ⟨hsome, hall⟩ := treeFold_leastOf_lanes _ hin (fun x => -x.toInt) (fun _ _ he => BitVec.eq_of_toInt_eq (Int.neg_inj.mp he))
        (redIdentity .maxI32) (fun x => Int.neg_le_neg x.le_toInt) (s.cur.vraw a) hz _ rfl
      exact ⟨t, _, ht, hwrote, hsome, fun l hl => Int.neg_le_neg_iff.mp (hall l hl)⟩
  · intro s h d a hs hw hd ha hz
    exact ⟨_, (exec_vred h d a hs hd ha .addF32).trans (congrArg _ (if_neg hz)), s.setS_addFlags_results d _ _ hs⟩
end

section
/-! PROOF. Rings as the groups and the matrix unit use them (O33), and the unit's other commands (O38). -/

namespace Sys2Proof

/-! ## Lists with keys -/

section
variable {α : Type} {p : α → Bool} {f : α → α}

/-- What is found after the first element with `p` was changed, or made, by `f`. -/
theorem findD_modD (d e : α) (hf : ∀ a, p a = true → p (f a) = true) (he : p (f e) = true) (l : List α) :
    findD p d (modD p e f l) = f (findD p e l) := by
  induction l with
  | nil => exact if_pos he
  | cons a l ih =>
    by_cases ha : p a = true
    · simp [modD, findD, ha, hf a ha]
    · simpa [modD, findD, ha] using ih

/-- An element that `p` does not name is found as before. -/
theorem findD_modD_of_ne {q : α → Bool} (d e : α) (hq : ∀ a, p a = true → q a = false) (hf : ∀ a, p a = true → q (f a) = false)
    (he : q (f e) = false) (l : List α) : findD q d (modD p e f l) = findD q d l := by
  induction l with
  | nil => simp [modD, findD, he]
  | cons a l ih =>
    by_cases ha : p a = true
    · simp [modD, findD, ha, hq a ha, hf a ha]
    · by_cases hqa : q a = true
      · simp [modD, findD, ha, hqa]
      · simpa [modD, findD, ha, hqa] using ih

/-- Two defaults that read the same under `g` make no difference to what `g` reads of a lookup. -/
theorem findD_default_congr {β : Type} (g : α → β) (d e : α) (h : g d = g e) (l : List α) : g (findD p d l) = g (findD p e l) := by
  induction l with
  | nil => exact h
  | cons a l ih =>
    unfold findD
    split
    · rfl
    · exact ih

theorem findD_found {d : α} {l : List α} (h : findD p d l ≠ d) : ∃ a ∈ l, p a = true := by
  induction l with
  | nil => exact absurd rfl h
  | cons a l ih =>
    by_cases ha : p a = true
    · exact ⟨a, List.mem_cons_self, ha⟩
    · obtain ⟨b, hb, hpb⟩ := ih (by simpa [findD, ha] using h)
      exact ⟨b, List.mem_cons_of_mem _ hb, hpb⟩

end

/-- Looking for a key other than that of the element put in front. -/
theorem find?_put_ne {α : Type} (key : α → Nat) (x : α) (n : Nat) (h : n ≠ key x) (l : List α) :
    (x :: l.filter (fun a => key a != key x)).find? (fun a => key a == n) = l.find? (fun a => key a == n) := by
  rw [List.find?_cons_of_neg (by simpa using h.symm), List.find?_filter]
  congr 1
  funext a
  by_cases ha : key a = n
  · simp [ha, h]
  · simp [ha]

end Sys2Proof

namespace Sys2Proof.Machine

/-! ## Units and teams after a change -/

theorem State.spOf_modMe_ne (s : State) {sp n : Nat} (f : Me → Me) (h : n ≠ sp) : (s.modMe sp f).spOf n = s.spOf n :=
  findD_modD_of_ne _ _ (fun p hp => by simp_all [Ne.symm h]) (fun p hp => by simp_all [Ne.symm h]) (by simp [Ne.symm h]) _

@[simp] theorem State.meOf_modMe (s : State) (sp : Nat) (f : Me → Me) : (s.modMe sp f).meOf sp = f (s.meOf sp) := by
  have hput := findD_modD (p := fun p : Sp => p.num == sp) (f := fun p => { p with me := f p.me }) Sp.down { Sp.down with num := sp }
    (fun _ hp => hp) (beq_self_eq_true sp) s.sps
  exact (congrArg Sp.me hput).trans (congrArg f (findD_default_congr Sp.me { Sp.down with num := sp } Sp.down rfl s.sps))

theorem Team.ring_setRing (t : Team) (r : Ring) : (t.setRing r).ring r.num = some r :=
  List.find?_cons_of_pos (by simp)

theorem Team.ring_setRing_ne (t : Team) (r : Ring) {n : Nat} (h : n ≠ r.num) : (t.setRing r).ring n = t.ring n :=
  find?_put_ne Ring.num r n h t.rings

theorem Team.num_of_ring {t : Team} {n : Nat} {r : Ring} (h : t.ring n = some r) : r.num = n := by
  simpa using List.find?_some h

theorem State.teamOf_modTeam (s : State) (n : Nat) (f : Team → Team) (hf : ∀ t, (f t).tid = t.tid) (h : ∃ t ∈ s.teams, t.tid = n) :
    (s.modTeam n f).teamOf n = f (s.teamOf n) := by
  obtain ⟨t, ht, hid⟩ := h
  exact findD_modAll _ _ f (fun t ht => by simpa [hf] using ht) _ ⟨t, ht, by simp [hid]⟩

/-- A team with a ring is one of the part's. -/
theorem State.team_of_ring {s : State} {n d : Nat} {r : Ring} (h : (s.teamOf n).ring d = some r) : ∃ t ∈ s.teams, t.tid = n := by
  have hne : s.teamOf n ≠ Team.none := fun he => by
    rw [he] at h
    cases h
  obtain ⟨t, ht, hid⟩ := findD_found hne
  exact ⟨t, ht, by simpa using hid⟩

/-- The ring `r` takes the place of team `n`'s ring of its number (11 R190-R193, R198, R199). -/
def State.putRing (s : State) (n : Nat) (r : Ring) : State := s.modTeam n (fun t => t.setRing r)

theorem State.ring_putRing {s : State} {n : Nat} (r : Ring) (h : ∃ t ∈ s.teams, t.tid = n) :
    ((s.putRing n r).teamOf n).ring r.num = some r ∧ ∀ k, k ≠ r.num → ((s.putRing n r).teamOf n).ring k = (s.teamOf n).ring k := by
  rw [State.putRing, s.teamOf_modTeam n (fun t => t.setRing r) (fun _ => rfl) h]
  exact ⟨Team.ring_setRing _ _, fun k hk => Team.ring_setRing_ne _ _ hk⟩

/-! ## Rings of a group (11 R192, R193) -/

section
variable {s : State} {h : Hdr} {d n : Nat} {r : Ring}

theorem exec_rpub (hg : s.uguard h = true) (hr : s.curTeam.ring d = some r) : exec (.rpub h d n) s = .next (
    if r.free < n then s.raiseWord .tileRange
    else (s.putRing s.cur.team { r with pubd := r.pubd + BitVec.ofNat 32 n }).goOn s.cur.iss 4) := by
  show execRpub h d n s = _
  simp [execRpub, hg, hr, State.putRing]

theorem exec_rwaitf (hg : s.uguard h = true) (hr : s.curTeam.ring d = some r) : exec (.rwaitf h d n) s = .next (
    if r.slots < n then s.raiseWord .tileRange
    else if n ≤ r.free then s.goOn s.cur.iss 4
    else s.waitFor s.cur.iss (.ringFree d n)) := by
  show execRwaitf h d n s = _
  simp [execRwaitf, hg, hr]

end

/-! ## The unit goes on, waits and stops (11 R187, R195, R198) -/

@[simp] theorem State.meOf_meNext (s : State) (sp : Nat) : (s.meNext sp).meOf sp = (s.meOf sp).at ((s.meOf sp).pc + 8) := s.meOf_modMe _ _
@[simp] theorem State.meOf_meWait (s : State) (sp : Nat) : (s.meWait sp).meOf sp = { s.meOf sp with state := 2 } := s.meOf_modMe _ _

theorem State.unpair_frame (s : State) (sp : Nat) : ∃ l, s.unpair sp = { s with sps := l } := by
  unfold State.unpair
  split <;> exact ⟨_, rfl⟩

/-- A program that stops keeps every byte (11 R187). -/
theorem State.meStop_meStopped (s : State) (sp code : Nat) : s.meStopped (s.meStop sp code) sp code := by
  obtain ⟨l, hl⟩ := s.unpair_frame sp
  rw [State.meStop, hl]
  refine ⟨?_, ?_, rfl⟩ <;> rw [State.meOf_modMe]

section
variable {s : State} {sp d n : Nat} {r : Ring}

theorem exec_mxwait (hr : (s.meTeam sp).ring d = some r) : exec (.mxwait sp d n) s = .next (
    if r.slots < n then s.meStop sp 3
    else if n ≤ (r.pubd - r.cons).toNat then s.meNext sp
    else s.meWait sp) := by
  show execMxwait sp d n s = _
  simp [execMxwait, hr]

theorem exec_mxrel (hr : (s.meTeam sp).ring d = some r) : exec (.mxrel sp d n) s = .next (
    if (r.cons - r.freed).toNat < n then s.meStop sp 4
    else (s.putRing (s.meOf sp).team { r with freed := r.freed + BitVec.ofNat 32 n }).meNext sp) := by
  show execMxrel sp d n s = _
  simp [execMxrel, hr, State.putRing]

end

end Sys2Proof.Machine

open Sys2Proof Sys2Proof.Machine

/-- Settles O33: each ring word by the ring it finds, whose counters it moves, and by what taking a cause or stopping a program does. -/
theorem ringResults : Obligations.RingResults := by
  unfold Obligations.RingResults
  intro s h d n sp r hs hg hr
  have hteam := State.team_of_ring hr
  obtain rfl := Team.num_of_ring hr
  refine ⟨fun hn => ?_, fun hn hc => ?_, fun hn hf => ?_, fun hn hf => ?_, fun hn hc => ?_, fun ht _ _ hn => ?_, fun ht _ _ hn => ?_⟩
  · obtain ⟨hring, hothers⟩ := State.ring_putRing { r with pubd := r.pubd + BitVec.ofNat 32 n } hteam
    refine ⟨_, (exec_rpub hg hr).trans (congrArg _ (if_neg (Nat.not_lt.mpr hn))), ?_⟩
    rw [(s.putRing s.cur.team _).goOn_settled _ _ hs]
    exact ⟨fun l hl => Group.pc_setPc s.cur _ _ l hl, rfl, rfl, hring, hothers⟩
  · exact ⟨_, (exec_rpub hg hr).trans (congrArg _ (if_pos hn)), s.raise_took .tileRange _ _ hc⟩
  · exact ⟨_, (exec_rwaitf hg hr).trans (congrArg _ ((if_neg (Nat.not_lt.mpr hn)).trans (if_pos hf))), s.onlyWentOn_goOn 4 hs⟩
  · exact ⟨_, (exec_rwaitf hg hr).trans (congrArg _ ((if_neg (Nat.not_lt.mpr hn)).trans (if_neg (Nat.not_le.mpr hf)))), rfl⟩
  · exact ⟨_, (exec_rwaitf hg hr).trans (congrArg _ (if_pos hn)), s.raise_took .tileRange _ _ hc⟩
  · have hmr : (s.meTeam sp).ring r.num = some r := by rw [State.meTeam, ht]; exact hr
    obtain ⟨hstate, hcode, -⟩ := s.meStop_meStopped sp 3
    exact ⟨_, (exec_mxwait hmr).trans (congrArg _ (if_pos hn)), hstate, hcode⟩
  · have hmr : (s.meTeam sp).ring r.num = some r := by rw [State.meTeam, ht]; exact hr
    have hwait := (exec_mxwait (n := n) hmr).trans (congrArg _ (if_neg (Nat.not_lt.mpr hn)))
    refine ⟨fun hp => ?_, fun hp => ?_, fun hp => ?_, fun hp => ?_⟩
    · refine ⟨_, hwait.trans (congrArg _ (if_pos hp)), ?_⟩
      rw [State.meOf_meNext]
      exact ⟨rfl, rfl, rfl, rfl, rfl⟩
    · refine ⟨_, hwait.trans (congrArg _ (if_neg (Nat.not_le.mpr hp))), ?_⟩
      rw [State.meOf_meWait]
      exact ⟨rfl, rfl⟩
    · obtain ⟨hring, -⟩ := State.ring_putRing { r with freed := r.freed + BitVec.ofNat 32 n } hteam
      refine ⟨_, (exec_mxrel hmr).trans (congrArg _ (if_neg (Nat.not_lt.mpr hp))), ?_⟩
      rw [State.meOf_meNext, ht]
      exact ⟨rfl, hring, rfl⟩
    · obtain ⟨hstate, hcode, -⟩ := s.meStop_meStopped sp 4
      exact ⟨_, (exec_mxrel hmr).trans (congrArg _ (if_pos hp)), hstate, hcode⟩
end

section
/-! PROOF. Descriptors of tiles and rings, and what TBIND and RBIND make of them (O29). -/

namespace Sys2Proof.Machine

/-! ## Fields of bytes in memory -/

theorem leField_bytes (m : Memory) (a n off k : Nat) (h : off + k ≤ n) :
    leField (Memory.bytes m a n) off k = leNat (Memory.bytes m (a + off) k) := by
  obtain ⟨rest, rfl⟩ := Nat.exists_eq_add_of_le h
  rw [Nat.add_assoc, Memory.bytes_append, Memory.bytes_append, leField, List.drop_left' (Memory.bytes_length m a off),
    List.take_left' (Memory.bytes_length m (a + off) k)]

theorem leNat_byte (m : Memory) (a : Nat) : leNat (Memory.bytes m a 1) = (m.get a).toNat := rfl

/-! ## A plain read of a uniform word (11 R190, R207) -/

theorem State.readUni_got {s : State} {va : DWord} {n al key : Nat} (hv : s.cur.hlv = false)
    (hc : s.classify .read al none va = .ok key) (hp : s.poisoned key n = false) :
    ∃ t, s.OnlyCounts t ∧ s.readUni va n al = .got (Memory.bytes s.mem key n) t := by
  refine ⟨s.traffic s.cur.owner key n s.curCore (va.toNat / 65536), s.traffic_onlyCounts _ _ _ _ _, ?_⟩
  unfold State.readUni
  simp [hc, hv, hp, LaneClass.isOk, LaneClass.key]

theorem State.OnlyCounts.teams {s t : State} (h : s.OnlyCounts t) : t.teams = s.teams := by
  obtain ⟨o, e, k, f, rfl⟩ := h
  rfl

theorem State.OnlyCounts.canTake {s t : State} (h : s.OnlyCounts t) {c : Cause} (hc : s.canTake c) : t.canTake c := by
  obtain ⟨o, e, k, f, rfl⟩ := h
  exact hc

/-! ## The shape of TBIND and RBIND -/

/-- A word that reads a descriptor and, when `binds` holds of its bytes, changes the group's team by `bind` (11 R190, R207). -/
def State.bindWord (s : State) (h : Hdr) (a : Nat) (binds : List (BitVec 8) → Bool) (bind : List (BitVec 8) → Team → Team) : State :=
  if !(s.cur.sPairOk a) then s.raiseWord .illegalReg
  else if !(s.uguard h) then s.goOn s.cur.iss 4
  else if (s.cur.spair a).toNat % 16 ≠ 0 then s.named (s.cur.spair a) (s.raiseWord .tileRange)
  else match s.readUni (s.cur.spair a) 16 16 with
    | .stop t => t
    | .got bs t => if binds bs then (t.modTeam s.cur.team (bind bs)).goOn s.cur.iss 4 else t.raiseWord .tileRange

/-- The tile's descriptor keeps the rules, and the tile is no bin's that has occupied rows (11 R206, R207). -/
def State.tileBinds (s : State) (d : Nat) (bs : List (BitVec 8)) : Bool :=
  s.curTeam.tileOk (tileOf d bs) (leField bs 15 1) && !(s.curTeam.frameBusy d)

/-- The ring's descriptor keeps the rules, and no program of the team runs or waits (11 R189, R190). -/
def State.ringBinds (s : State) (d : Nat) (bs : List (BitVec 8)) : Bool :=
  s.curTeam.ringOk (ringOf d bs) (leField bs 13 3) && !(s.meBusy s.cur.team)

/-- The tile takes the place of the team's tile of its number (11 R207). -/
def Team.setTile (t : Team) (tl : Tile) : Team := { t with tiles := tl :: t.tiles.filter (·.num != tl.num) }

theorem Team.tile_setTile (t : Team) (tl : Tile) : (t.setTile tl).tile tl.num = some tl :=
  List.find?_cons_of_pos (by simp)

theorem Team.tile_setTile_ne (t : Team) (tl : Tile) {n : Nat} (h : n ≠ tl.num) : (t.setTile tl).tile n = t.tile n :=
  find?_put_ne Tile.num tl n h t.tiles

theorem exec_tbind (s : State) (h : Hdr) (d a : Nat) :
    exec (.tbind h d a) s = .next (s.bindWord h a (s.tileBinds d) (fun bs t => t.setTile (tileOf d bs))) := rfl

theorem exec_rbind (s : State) (h : Hdr) (d a : Nat) :
    exec (.rbind h d a) s = .next (s.bindWord h a (s.ringBinds d) (fun bs t => t.setRing (ringOf d bs))) := rfl

section
variable {s : State} {h : Hdr} {a key : Nat} {binds : List (BitVec 8) → Bool} {bind : List (BitVec 8) → Team → Team}
  (hg : s.uguard h = true) (hv : s.cur.hlv = false) (ha : s.cur.sPairOk a = true)
include hg hv ha

theorem State.bindWord_misaligned (hal : (s.cur.spair a).toNat % 16 ≠ 0) : s.bindWord h a binds bind = s.raiseWord .tileRange := by
  simp [State.bindWord, ha, hg, hal, State.named, hv]

variable (hal : (s.cur.spair a).toNat % 16 = 0) (hcls : s.classify .read 16 none (s.cur.spair a) = .ok key) (hp : s.poisoned key 16 = false)
include hal hcls hp

theorem State.bindWord_read : ∃ t, s.OnlyCounts t ∧ s.bindWord h a binds bind =
    if binds (Memory.bytes s.mem key 16) then (t.modTeam s.cur.team (bind (Memory.bytes s.mem key 16))).goOn s.cur.iss 4
    else t.raiseWord .tileRange := by
  obtain ⟨t, ht, hread⟩ := State.readUni_got hv hcls hp
  refine ⟨t, ht, ?_⟩
  simp [State.bindWord, ha, hg, hal, hread]

/-- What the descriptor says is bound, and the word goes on. -/
theorem State.bindWord_bound (hs : s.settled) (hin : ∃ t ∈ s.teams, t.tid = s.cur.team)
    (hbind : ∀ t, (bind (Memory.bytes s.mem key 16) t).tid = t.tid) (hb : binds (Memory.bytes s.mem key 16) = true) :
    s.wentOn (s.bindWord h a binds bind) 4 ∧ (s.bindWord h a binds bind).mem = s.mem ∧
      (s.bindWord h a binds bind).teamOf s.cur.team = bind (Memory.bytes s.mem key 16) s.curTeam := by
  obtain ⟨t, ht, hword⟩ := State.bindWord_read (binds := binds) (bind := bind) hg hv ha hal hcls hp
  have hcur : (t.modTeam s.cur.team (bind (Memory.bytes s.mem key 16))).cur = s.cur := ht.cur
  rw [hword, if_pos hb]
  refine ⟨s.wentOn_goOn _ 4 ?_ ?_ ?_, ht.mem, ?_⟩
  · rw [hcur]
    exact hs
  · rw [hcur]
  · rw [hcur]
  · refine (t.teamOf_modTeam s.cur.team _ hbind (by rwa [ht.teams])).trans ?_
    rw [State.teamOf, ht.teams]
    rfl

/-- TILE_RANGE after the descriptor has been read: the word's lanes stand at its handler, and no team and no byte has changed. -/
theorem State.bindWord_refused (hc : s.canTake .tileRange) (hb : binds (Memory.bytes s.mem key 16) = false) :
    (s.bindWord h a binds bind).cur.cause = 6 ∧ (s.bindWord h a binds bind).cur.tval = s.cur.ipc ∧
      (s.bindWord h a binds bind).cur.hl = s.cur.iss ∧ (s.bindWord h a binds bind).cur.hlv = true ∧
      (s.bindWord h a binds bind).teams = s.teams ∧ (s.bindWord h a binds bind).mem = s.mem := by
  obtain ⟨t, ht, hword⟩ := State.bindWord_read (binds := binds) (bind := bind) hg hv ha hal hcls hp
  rw [if_neg (by simp [hb])] at hword
  obtain ⟨hcause, htval, -, hlv, hhl, -, -, hframe⟩ := t.raise_took .tileRange t.cur.ipc t.cur.iss (ht.canTake hc)
  rw [← State.raiseWord, ← hword] at hcause htval hlv hhl hframe
  refine ⟨hcause, by rw [htval, ht.cur], by rw [hhl, ht.cur], hlv, ?_, ?_⟩
  · rw [hframe]
    exact ht.teams
  · rw [hframe]
    exact ht.mem

end

end Sys2Proof.Machine

open Sys2Proof Sys2Proof.Machine

/-- Settles O29: the descriptor's bytes are read at the key of its address, and what they describe is bound or refused as a whole. -/
theorem bindResults : Obligations.BindResults := by
  unfold Obligations.BindResults
  intro s h d a key hs hg hv ha ha' htid hteam
  have hok := s.cur.sPairOk_of_le ha ha'
  have hin : ∃ t ∈ s.teams, t.tid = s.cur.team := ⟨_, hteam, htid⟩
  refine ⟨fun hal hc i hi => ?_, fun hal hcls hp => ?_⟩
  · have htook := s.raise_took .tileRange s.cur.ipc s.cur.iss hc
    simp only [List.mem_cons, List.not_mem_nil, or_false] at hi
    obtain rfl | rfl := hi
    · exact ⟨_, (exec_tbind s h d a).trans (congrArg _ (State.bindWord_misaligned hg hv hok hal)), htook⟩
    · exact ⟨_, (exec_rbind s h d a).trans (congrArg _ (State.bindWord_misaligned hg hv hok hal)), htook⟩
  · have hfield := fun off k hle => leField_bytes s.mem key 16 off k hle
    have hbound := fun binds bind => State.bindWord_bound (binds := binds) (bind := bind) hg hv hok hal hcls hp hs hin
    rw [← leNat_byte, ← hfield 15 1 (by decide), ← hfield 13 3 (by decide)]
    refine ⟨fun hrule hfree => ?_, fun hrule hfree => ?_, fun hc => ⟨fun hno => ?_, fun hno => ?_⟩⟩
    · obtain ⟨hpc, hmem, hnew⟩ := hbound (s.tileBinds d) (fun bs t => t.setTile (tileOf d bs)) (fun _ => rfl)
        (by rw [State.tileBinds, hrule, hfree]; rfl)
      refine ⟨_, tileOf d (Memory.bytes s.mem key 16), exec_tbind s h d a, hpc, hmem, ?_⟩
      rw [hnew]
      exact ⟨Team.tile_setTile _ _, congrArg (BitVec.ofNat 64) (hfield 0 8 (by decide)), hfield 8 2 (by decide), hfield 10 2 (by decide),
        hfield 12 2 (by decide), hfield 14 1 (by decide), fun n hn => Team.tile_setTile_ne _ _ hn⟩
    · obtain ⟨hpc, hmem, hnew⟩ := hbound (s.ringBinds d) (fun bs t => t.setRing (ringOf d bs)) (fun _ => rfl)
        (by rw [State.ringBinds, hrule, hfree]; rfl)
      refine ⟨_, ringOf d (Memory.bytes s.mem key 16), exec_rbind s h d a, hpc, hmem, ?_⟩
      rw [hnew]
      exact ⟨Team.ring_setRing _ _, congrArg (BitVec.ofNat 64) (hfield 0 8 (by decide)), hfield 8 4 (by decide), hfield 12 1 (by decide),
        rfl, rfl, rfl, fun n hn => Team.ring_setRing_ne _ _ hn⟩
    · have hb : s.tileBinds d (Memory.bytes s.mem key 16) = false := by
        obtain hrule | hbusy := hno
        · rw [State.tileBinds, hrule]; rfl
        · rw [State.tileBinds, hbusy, Bool.not_true, Bool.and_false]
      exact ⟨_, exec_tbind s h d a, State.bindWord_refused hg hv hok hal hcls hp hc hb⟩
    · have hb : s.ringBinds d (Memory.bytes s.mem key 16) = false := by
        obtain hrule | hbusy := hno
        · rw [State.ringBinds, hrule]; rfl
        · rw [State.ringBinds, hbusy, Bool.not_true, Bool.and_false]
      exact ⟨_, exec_rbind s h d a, State.bindWord_refused hg hv hok hal hcls hp hc hb⟩
end

section
/-! PROOF. Commands of a matrix unit that is not paired (O38). -/

namespace Sys2Proof

theorem SMap.get_filter_key {w : Nat} (m : SMap w) (q : Nat → Bool) (j : Nat) :
    SMap.get (m.filter (fun x => q x.1)) j = if q j then SMap.get m j else 0 := by
  induction m with
  | nil => simp
  | cons a m ih =>
    obtain ⟨i, u⟩ := a
    by_cases hi : q i = true
    · by_cases hj : i = j
      · subst hj
        simp [hi, SMap.get]
      · simp [hi, SMap.get, hj, ih]
    · by_cases hj : i = j
      · subst hj
        simp [hi, ih]
      · simp [hi, SMap.get, hj, ih]

end Sys2Proof

namespace Sys2Proof.Machine

/-! ## A unit that is paired with no other (11 R196, R202) -/

section
variable {s : State} {sp : Nat} (h : ((s.meOf sp).configured && (s.meOf sp).paired) = false)
include h

theorem State.combine_alone (k : Nat) : s.combine sp k = s := by
  simp [State.combine, h]

theorem State.combineAll_alone : s.combineAll sp = s :=
  List.foldlRecOn (motive := fun t : State => t = s) _ _ rfl (fun t ht k _ => by rw [ht, State.combine_alone h])

theorem State.unpair_alone : s.unpair sp = s := by
  simp [State.unpair, h]

theorem State.meStop_alone (code : Nat) : s.meStop sp code = s.modMe sp (fun e =>
    { e with state := 4, code, cmd := ((e.pc - e.first).toNat / 8) % 4096, word := none, mma := none }) := by
  rw [State.meStop, State.unpair_alone h]

end

/-! ## What a command leaves as it was -/

theorem State.onlyMe_modMe (s : State) (sp : Nat) (f : Me → Me) : s.onlyMe (s.modMe sp f) sp :=
  ⟨rfl, fun _ hp => s.spOf_modMe_ne f hp⟩

theorem State.onlyMe.trans {s t u : State} {sp : Nat} (h : s.onlyMe t sp) (h' : t.onlyMe u sp) : s.onlyMe u sp := by
  obtain ⟨ht, hothers⟩ := h
  obtain ⟨hu, hothers'⟩ := h'
  refine ⟨?_, fun p hp => (hothers' p hp).trans (hothers p hp)⟩
  rw [hu, ht]

/-- The unit is changed and its next command follows: one command that completes at once. -/
def State.meDo (s : State) (sp : Nat) (f : Me → Me) : State := (s.modMe sp f).meNext sp

theorem State.meOf_meDo (s : State) (sp : Nat) (f : Me → Me) : (s.meDo sp f).meOf sp = (f (s.meOf sp)).at ((f (s.meOf sp)).pc + 8) := by
  rw [State.meDo, State.meOf_meNext, State.meOf_modMe]

theorem State.meDo_results (s : State) (sp : Nat) (f : Me → Me) (hf : (f (s.meOf sp)).pc = (s.meOf sp).pc) :
    s.onlyMe (s.meDo sp f) sp ∧ s.meWentOn (s.meDo sp f) sp := by
  refine ⟨(s.onlyMe_modMe sp f).trans ((s.modMe sp f).onlyMe_modMe sp (fun e => e.at (e.pc + 8))), ?_⟩
  rw [State.meWentOn, State.meOf_meDo, hf]
  exact ⟨rfl, rfl⟩

/-! ## Accumulators (11 R197) -/

theorem Me.get_zeroAcc (e : Me) (k q m n : Nat) (hm : m < 64) (hn : n < 64) :
    (e.zeroAcc k).acc.get (4096 * q + 64 * m + n) = if q = k then 0 else e.acc.get (4096 * q + 64 * m + n) := by
  have hq : (4096 * q + 64 * m + n) / 4096 = q := by omega
  refine (SMap.get_filter_key e.acc (fun i => i / 4096 != k) _).trans ?_
  rw [hq]
  by_cases h : q = k
  · simp [h]
  · simp [h]

/-! ## The commands -/

theorem exec_mxcfg_f32 {s : State} {sp : Nat} (a b k : Nat) (ha : (s.meSlot sp a).kind = .flt .f32) : exec (.mxcfg sp a b false k) s = .next (s.meStop sp 2) := by
  show execMxcfg sp a b false k s = _
  simp [execMxcfg, ha, slotBytes]

section
variable {s : State} {sp : Nat} (h : ((s.meOf sp).configured && (s.meOf sp).paired) = false)
include h

theorem exec_mxcfg_alone (a b k : Nat) (ha : (slotBytes (s.meSlot sp a).kind).isSome = true) (hb : (slotBytes (s.meSlot sp b).kind).isSome = true) :
    exec (.mxcfg sp a b false k) s = .next (s.meDo sp (fun e =>
      { e with configured := true, aSlot := a, bSlot := b, paired := false, k, idx := List.replicate 16 0 })) := by
  show execMxcfg sp a b false k s = _
  simp only [execMxcfg, State.combineAll_alone h, State.unpair_alone h]
  simp [Option.isNone_iff_eq_none, Option.isSome_iff_ne_none.mp ha, Option.isSome_iff_ne_none.mp hb, State.meDo]

theorem exec_mxzero_alone (acc : Nat) :
    exec (.mxzero sp acc) s = .next (s.meDo sp (fun e => { (e.zeroAcc acc) with idx := e.idx.set acc 0 })) := by
  show execMxzero sp acc s = _
  simp [execMxzero, h, State.meDo]

theorem exec_mxend_alone : exec (.mxend sp) s = .next (s.modMe sp (fun e => { e with state := 3, word := none })) := by
  show execMxend sp s = _
  rw [execMxend, State.combineAll_alone h, State.unpair_alone h]

end

theorem exec_mxsig (s : State) (sp k : Nat) :
    exec (.mxsig sp k) s = .next (s.meDo sp (fun e => { e with sig := e.sig ||| BitVec.ofNat 8 (2 ^ k) })) := rfl

/-- One pass of MXLOOP over a stack `l :: rest` whose top is its own: a branch back, or the entry leaves the stack (11 R201). -/
def State.meLoop (s : State) (sp back : Nat) (l : Loop) (rest : List Loop) : State :=
  if 0 < l.left then
    s.modMe sp (fun e => Me.at { e with loops := { l with left := l.left - 1 } :: rest } (e.pc - BitVec.ofNat 64 (8 * back)))
  else s.meDo sp (fun e => { e with loops := rest })

section
variable {s : State} {sp back k : Nat}

/-- MXLOOP on an empty stack puts an entry of its own there. -/
theorem exec_mxloop_empty (h : (s.meOf sp).loops = []) :
    exec (.mxloop sp k back) s = .next (s.meLoop sp back ⟨(s.meOf sp).pc, k - 1⟩ []) := by
  show execMxloop sp k back s = _
  simp [execMxloop, h, State.meLoop, State.meDo]

theorem exec_mxloop_own {l : Loop} (h : (s.meOf sp).loops = [l]) (hl : l.addr = (s.meOf sp).pc) :
    exec (.mxloop sp k back) s = .next (s.meLoop sp back l []) := by
  show execMxloop sp k back s = _
  simp [execMxloop, h, hl, State.meLoop, State.meDo]

/-- A loop with iterations left branches back by its offset. -/
theorem State.meLoop_back (l : Loop) (hl : 0 < l.left) : s.onlyMe (s.meLoop sp back l []) sp ∧
    ((s.meLoop sp back l []).meOf sp).pc = (s.meOf sp).pc - BitVec.ofNat 64 (8 * back) ∧
    ((s.meLoop sp back l []).meOf sp).loops = [{ l with left := l.left - 1 }] ∧ ((s.meLoop sp back l []).meOf sp).state = 1 := by
  rw [State.meLoop, if_pos hl]
  refine ⟨s.onlyMe_modMe sp _, ?_⟩
  rw [State.meOf_modMe]
  exact ⟨rfl, rfl, rfl⟩

end

theorem exec_mxdrain_noTile {s : State} {sp acc slot tile : Nat} (h : ((s.meTeam sp).tile tile).isNone = true) :
    exec (.mxdrain sp acc slot false tile) s = .next (s.meStop sp 5) := by
  show execMxdrain sp acc slot false tile s = _
  simp [execMxdrain, Option.isNone_iff_eq_none.mp h]

/-- Bit `k` joins the signals (11 R202). -/
theorem getLsbD_or_signal (x : BitVec 8) {k : Nat} (hk : k < 8) (j : Nat) :
    (x ||| BitVec.ofNat 8 (2 ^ k)).getLsbD j = (x.getLsbD j || j == k) := by
  have hbit : BitVec.ofNat 8 (2 ^ k) = BitVec.twoPow 8 k := BitVec.eq_of_toNat_eq (by simp [BitVec.toNat_twoPow])
  rw [BitVec.getLsbD_or, hbit, BitVec.getLsbD_twoPow, decide_eq_true hk, Bool.true_and]
  exact congrArg (x.getLsbD j || ·) (decide_eq_decide.mpr eq_comm)

end Sys2Proof.Machine

open Sys2Proof Sys2Proof.Machine

/-- Settles O38: a command of a unit that is not paired changes its unit alone, and its next command follows or its program stops. -/
theorem matrixCommandResults : Obligations.MatrixCommandResults := by
  unfold Obligations.MatrixCommandResults
  rintro s sp acc slot a b k w ⟨-, -, h⟩ hacc
  refine ⟨fun ha hb => ?_, fun ha => ?_, fun hidx => ?_, fun hk => ?_, ?_, ?_, ?_, fun hl hk hone => ?_, fun hl hk => ?_, fun l hl => ?_,
    fun hno => ?_⟩
  · obtain ⟨honly, hwent⟩ := s.meDo_results sp (fun e =>
      { e with configured := true, aSlot := a, bSlot := b, paired := false, k, idx := List.replicate 16 0 }) rfl
    refine ⟨_, exec_mxcfg_alone h a b k ha hb, honly, hwent, ?_⟩
    rw [State.meOf_meDo]
    exact ⟨rfl, rfl, rfl, rfl, rfl, fun j hj => congrArg (·.getD 0) (List.getElem?_replicate_of_lt hj), rfl⟩
  · exact ⟨_, exec_mxcfg_f32 a b k ha, s.meStop_meStopped sp 2⟩
  · obtain ⟨honly, hwent⟩ := s.meDo_results sp (fun e => { (e.zeroAcc acc) with idx := e.idx.set acc 0 }) rfl
    refine ⟨_, exec_mxzero_alone h acc, honly, hwent, ?_⟩
    rw [State.meOf_meDo]
    exact ⟨by simp [Me.at, hidx, hacc], fun q m n hm hn => (s.meOf sp).get_zeroAcc acc q m n hm hn⟩
  · obtain ⟨honly, hwent⟩ := s.meDo_results sp (fun e => { e with sig := e.sig ||| BitVec.ofNat 8 (2 ^ k) }) rfl
    refine ⟨_, exec_mxsig s sp k, honly, hwent, ?_⟩
    rw [State.meOf_meDo]
    exact ⟨rfl, fun j _ => getLsbD_or_signal _ hk j⟩
  · refine ⟨s.meNext sp, rfl, s.onlyMe_modMe sp _, ?_⟩
    rw [State.meWentOn, State.meOf_meNext]
    exact ⟨⟨rfl, rfl⟩, rfl⟩
  · refine ⟨_, exec_mxend_alone h, s.onlyMe_modMe sp _, ?_⟩
    rw [State.meOf_modMe]
    exact ⟨rfl, rfl⟩
  · refine ⟨_, rfl, ?_, s.meStop_meStopped sp 1, ?_⟩
    · rw [State.meStop_alone h]
      exact s.onlyMe_modMe sp _
    · rw [State.meStop_alone h, State.meOf_modMe]
  · obtain ⟨honly, hwent⟩ := s.meDo_results sp (fun e => { e with loops := [] }) rfl
    refine ⟨_, (exec_mxloop_empty hl).trans (congrArg _ (if_neg (by simp [hone]))), honly, hwent, ?_⟩
    rw [State.meOf_meDo]
    rfl
  · obtain ⟨honly, hpc, hloops, hstate⟩ := State.meLoop_back (s := s) (sp := sp) (back := b) ⟨(s.meOf sp).pc, k - 1⟩ (Nat.sub_pos_of_lt hk)
    exact ⟨_, exec_mxloop_empty hl, honly, hpc, hloops, hstate⟩
  · obtain ⟨honly, hpc, hloops, -⟩ := State.meLoop_back (s := s) (sp := sp) (back := b) ⟨(s.meOf sp).pc, l + 1⟩ (Nat.succ_pos l)
    exact ⟨_, exec_mxloop_own hl rfl, honly, hpc, hloops⟩
  · exact ⟨_, exec_mxdrain_noTile hno, s.meStop_meStopped sp 5⟩
end

section
/-! PROOF. A tile on a bank past the part's 256 cores (O30, O31, O32, O39). The terms of a ready tile bound the keys of its elements by the
first byte of the SRAM window from below alone. The keys of a bank that is numbered past the last core reach those of peer memory, where a
write without the peer's world key is discarded (22 R379, R381): such a tile keeps its bytes, whatever a word writes to it. -/

namespace Sys2Proof.Machine

/-! ## Writes that are discarded (22 R381) -/

theorem State.keyless_of_noOwner {s : State} {key : Nat} (ho : s.owners = []) (hk : 2 ^ 57 ≤ key) : s.keyless key = true := by
  rw [State.keyless, ho, decide_eq_true hk]
  rfl

theorem State.writeKey_keyless {s : State} {key : Nat} (bs : List (BitVec 8)) (hk : s.keyless key = true) : s.writeKey key bs = s :=
  if_pos (by simp [hk])

theorem State.foldl_setElem_keyless {s : State} (tm : Team) (tl : Tile) (f : Nat × Nat → Nat) (cells : List (Nat × Nat))
    (h : ∀ x ∈ cells, s.keyless (localKey tm (tl.at x.1 x.2)) = true) : cells.foldl (fun u x => u.setElem tm tl x.1 x.2 (f x)) s = s :=
  List.foldlRecOn (motive := fun u : State => u = s) _ _ rfl (fun u hu x hx => by
    rw [hu]
    exact State.writeKey_keyless _ (h x hx))

/-! ## The state -/

/-- The tile of `n` × `n` words at the start of the team's local window. -/
def strayTile (n : Nat) : Tile := { num := 1, base := 0x01E0000000000000, rows := n, cols := n, pitch := 256, kind := 0 }

/-- A team whose one bank is numbered as the first of core 2^30. -/
def strayTeam (n : Nat) : Team :=
  { Team.none with tid := 1, banks := [48 * 2 ^ 30], tiles := [strayTile n], rings := [⟨2, 0, 16, 1, 0, 0, 0⟩, ⟨3, 0, 16, 1, 0, 0, 0⟩] }

/-- A group of that team in the issue slot, one lane of which issues; s(0):s(1) holds the first address of the global window. The first
element of the tile holds 1, and the unit of SP 0 runs a program of the team. -/
def strayState (n : Nat) : State :=
  { State.reset with
    cur := { Group.empty with team := 1, iss := 1, s := [(1, 0x01F00000)] }, teams := [strayTeam n]
    sps := [{ Sp.down with me := { Me.idle with configured := true, team := 1 } }], mem := [(2 ^ 57, 1)] }

theorem whereIs_firstBank {t : Team} {va : DWord} {b x : Nat} (hb : t.banks[0]? = some b) (hx : x < 65536) (hva : va.toNat = sramBase + x) :
    whereIs t va = .bank b x := by
  have hin : ¬ vaTop ≤ sramBase + x ∧ ¬ sramBase + x < sramBase ∧ sramBase + x < globalBase ∧ x < 0x300000 ∧ x / 65536 = 0 ∧ x % 65536 = x := by
    simp only [vaTop, sramBase, globalBase]
    omega
  obtain ⟨htop, hlow, hglobal, hown, hdiv, hmod⟩ := hin
  simp only [whereIs, hva, htop, hlow, hglobal, hown, hdiv, hmod, hb, Nat.add_sub_cancel_left, if_true, if_false]

theorem Team.holds_firstBank {t : Team} {va : DWord} {b x k : Nat} (hb : t.banks[0]? = some b) (hk : 0 < k) (hx : x + k ≤ 65536)
    (hva : va.toNat = sramBase + x) : t.holds va k = true := by
  have hlo : (BitVec.ofNat 64 (sramBase + x)).toNat = sramBase + x := by
    rw [BitVec.toNat_ofNat, sramBase]
    omega
  have hhi : (BitVec.ofNat 64 (sramBase + x + k - 1)).toNat = sramBase + (x + k - 1) := by
    rw [BitVec.toNat_ofNat, sramBase]
    omega
  have hwindow : sramBase ≤ sramBase + x ∧ sramBase + x + k - 1 < globalBase ∧
      (sramBase + x) / 0x400000 = (sramBase + x + k - 1) / 0x400000 := by
    simp only [sramBase, globalBase]
    omega
  simp only [Team.holds, hva, whereIs_firstBank hb (by omega) hlo, whereIs_firstBank hb (by omega) hhi]
  simp [hwindow]

theorem strayTile_at {n r c : Nat} (hr : r < 64) (hc : c < 64) : ((strayTile n).at r c).toNat = sramBase + (256 * r + 4 * c) := by
  show ((0x01E0000000000000 : DWord) + BitVec.ofNat 64 (r * 256 + c * 4)).toNat = 0x01E0000000000000 + (256 * r + 4 * c)
  rw [BitVec.toNat_add, BitVec.toNat_ofNat]
  show (0x01E0000000000000 + _) % _ = _
  omega

theorem strayTile_key {n r c : Nat} (hr : r < 64) (hc : c < 64) :
    localKey (strayTeam n) ((strayTile n).at r c) = 2 ^ 57 + (256 * r + 4 * c) := by
  rw [localKey, whereIs_firstBank (b := 48 * 2 ^ 30) rfl (by omega) (strayTile_at hr hc)]
  exact congrArg (· + (256 * r + 4 * c)) (show globalBase + 48 * 2 ^ 30 / 48 * 0x400000 + 48 * 2 ^ 30 % 48 * 0x10000 = 2 ^ 57 by decide)

/-- The tile meets every term of a ready tile. -/
theorem strayState_tileReady {n : Nat} (hpos : 0 < n) (hn : n ≤ 64) : (strayState n).tileReady 1 (strayTile n) := by
  have hbank : (strayTeam n).banks[0]? = some (48 * 2 ^ 30) := rfl
  have hin : ∀ {r}, r < n → r < 64 := fun hr => Nat.lt_of_lt_of_le hr hn
  refine ⟨rfl, rfl, ?_, fun r (hr : r < n) => ?_, fun r c (hr : r < n) (hc : c < n) => ?_, fun r c (hr : r < n) (hc : c < n) => ?_,
    fun r c r' c' (hr : r < n) (hc : c < n) (hr' : r' < n) (hc' : c' < n) hne => ?_⟩
  · refine Team.holds_firstBank (x := 0) hbank ?_ ?_ rfl
    · show 0 < (n - 1) * 256 + n * 4
      omega
    · show 0 + ((n - 1) * 256 + n * 4) ≤ 65536
      omega
  · refine Bool.or_eq_true_iff.mpr (.inr (Team.holds_firstBank hbank ?_ ?_ (strayTile_at (hin hr) (by decide))))
    · show 0 < n * 4
      omega
    · show 256 * r + 4 * 0 + n * 4 ≤ 65536
      omega
  · refine Team.holds_firstBank hbank (show 0 < 4 by decide) ?_ (strayTile_at (hin hr) (hin hc))
    show 256 * r + 4 * c + 4 ≤ 65536
    omega
  · show globalBase ≤ localKey (strayTeam n) _
    rw [strayTile_key (hin hr) (hin hc), globalBase]
    omega
  · have hdiff : ¬ (r = r' ∧ c = c') := fun ⟨hr, hc⟩ => hne (by rw [hr, hc])
    show localKey (strayTeam n) _ + 4 ≤ localKey (strayTeam n) _ ∨ localKey (strayTeam n) _ + 4 ≤ localKey (strayTeam n) _
    rw [strayTile_key (hin hr) (hin hc), strayTile_key (hin hr') (hin hc')]
    omega

/-! ## What words of the tile leave in memory

Each word below goes on, and its writes to the tile are discarded. -/

theorem tzero_strayState : ∃ t, exec (.tzero ⟨false, 7⟩ 1) (strayState 1) = .next t ∧ t.mem = (strayState 1).mem := ⟨_, rfl, by decide +kernel⟩

theorem tload_strayState : ∃ t, exec (.tload ⟨false, 7⟩ 1 0) (strayState 1) = .next t ∧ t.mem = (strayState 1).mem := ⟨_, rfl, by decide +kernel⟩

theorem vtwr_strayState : ∃ t, exec (.vtwr ⟨false, 7⟩ 1 false 2 0 0) (strayState 1) = .next t ∧ t.mem = (strayState 1).mem :=
  ⟨_, rfl, by decide +kernel⟩

theorem State.drainTile_keyless {s : State} (sp acc : Nat) (sl : Slot) (tl : Tile)
    (h : ∀ x ∈ tl.cells, s.keyless (localKey (s.meTeam sp) (tl.at x.1 x.2)) = true) : (s.drainTile sp acc sl tl).mem = s.mem := by
  unfold State.drainTile
  simp only [State.foldl_setElem_keyless _ _ _ _ h]
  rfl

theorem mxdrain_strayState : ∃ t, exec (.mxdrain 0 0 0 false 1) (strayState 64) = .next t ∧ t.mem = (strayState 64).mem := by
  refine ⟨(strayState 64).drainTile 0 0 ((strayState 64).meSlot 0 0) (strayTile 64), rfl, State.drainTile_keyless _ _ _ _ (fun x hx => ?_)⟩
  obtain ⟨r, hr, hx⟩ := List.mem_flatMap.mp hx
  obtain ⟨c, hc, rfl⟩ := List.mem_map.mp hx
  refine State.keyless_of_noOwner rfl ?_
  show 2 ^ 57 ≤ localKey (strayTeam 64) _
  rw [strayTile_key (List.mem_range.mp hr) (List.mem_range.mp hc)]
  exact Nat.le_add_right _ _

/-- The first element of the tile holds 1 as long as memory stays as it is. -/
theorem elem_strayTile {n : Nat} {t : State} (ht : t.mem = (strayState n).mem) : t.elem (strayState n).curTeam (strayTile n) 0 0 = 1 := by
  show leNat (Memory.bytes t.mem (localKey (strayTeam n) ((strayTile n).at 0 0)) 4) = 1
  rw [ht, strayTile_key (by decide) (by decide)]
  rfl

end Sys2Proof.Machine

open Sys2Proof Sys2Proof.Machine

/-- Refutes O30: TZERO of a tile whose bank number lies past the part's cores, so that its element's key is one of peer memory: the write
of the zero is discarded, and the element keeps its 1. -/
theorem not_tileFillResults : ¬ Obligations.TileFillResults := by
  unfold Obligations.TileFillResults
  intro h
  obtain ⟨t, ht, hmem⟩ := tzero_strayState
  obtain ⟨hzero, -⟩ := h (strayState 1) ⟨false, 7⟩ 1 0 0 (strayTile 1) rfl rfl rfl (strayState_tileReady (by decide) (by decide))
  obtain ⟨u, hu, ⟨helem, -⟩, -⟩ := hzero (by decide)
  obtain rfl : t = u := Host.Outcome.next.inj (ht.symm.trans hu)
  exact absurd ((elem_strayTile hmem).symm.trans (helem 0 0 (by decide) (by decide))) (by decide)

/-- Refutes O31: TLOAD of a word 0 into a tile whose bank number lies past the part's cores: the write is discarded, and the element keeps
its 1. -/
theorem not_tileTransferResults : ¬ Obligations.TileTransferResults := by
  unfold Obligations.TileTransferResults
  intro h
  obtain ⟨t, ht, hmem⟩ := tload_strayState
  obtain ⟨hmoves, -⟩ := h (strayState 1) ⟨false, 7⟩ 1 0 (strayTile 1) (fun _ => globalBase) rfl rfl rfl (by decide) (by decide)
  obtain ⟨hload, -⟩ := hmoves (strayState_tileReady (by decide) (by decide)) rfl rfl (by decide) (fun i _ r c hr hc => .inl (by
    obtain rfl : r = 0 := Nat.lt_one_iff.mp hr
    obtain rfl : c = 0 := Nat.lt_one_iff.mp hc
    decide))
  obtain ⟨u, hu, -, -, -, helem, -⟩ := hload (fun i hi => by
    obtain rfl : i = 0 := Nat.lt_one_iff.mp hi
    exact ⟨by decide +kernel, by decide +kernel⟩)
  obtain rfl : t = u := Host.Outcome.next.inj (ht.symm.trans hu)
  exact absurd ((elem_strayTile hmem).symm.trans (helem 0 0 (by decide) (by decide))) (by decide +kernel)

/-- Refutes O32: VTWR of a word 0 to a tile whose bank number lies past the part's cores: the write is discarded, and the element keeps
its 1. -/
theorem not_sliceResults : ¬ Obligations.SliceResults := by
  unfold Obligations.SliceResults
  intro h
  obtain ⟨t, ht, hmem⟩ := vtwr_strayState
  obtain ⟨-, hwrite, -⟩ := h (strayState 1) ⟨false, 7⟩ 1 false 2 0 0 0 (strayTile 1) rfl rfl (by decide) (by decide)
    (strayState_tileReady (by decide) (by decide)) (by decide) (by decide) (by decide) (by decide)
  obtain ⟨u, hu, -, ⟨helem, -⟩⟩ := hwrite (.inl rfl)
  obtain rfl : t = u := Host.Outcome.next.inj (ht.symm.trans hu)
  exact absurd ((elem_strayTile hmem).symm.trans (helem 0 0 (by decide) (by decide))) (by decide +kernel)

/-- Refutes O39: MXDRAIN of an accumulator of zeros to an F32 tile whose bank number lies past the part's cores: the writes are discarded,
and the tile's first element keeps its 1. -/
theorem not_matrixProductAndDrain : ¬ Obligations.MatrixProductAndDrain := by
  unfold Obligations.MatrixProductAndDrain
  intro h
  obtain ⟨t, ht, hmem⟩ := mxdrain_strayState
  obtain ⟨-, -, hdrain⟩ := h (strayState 64) 0 0 2 3 1 ⟨2, 0, 16, 1, 0, 0, 0⟩ ⟨3, 0, 16, 1, 0, 0, 0⟩ _ _ ⟨List.mem_cons_self, rfl, rfl⟩
    (by decide) (by decide) rfl rfl rfl rfl rfl rfl
  obtain ⟨u, hu, -, -, helem, -⟩ := hdrain 0 1 (strayTile 64) rfl rfl rfl rfl (by decide) rfl (strayState_tileReady (by decide) (by decide))
  obtain rfl : t = u := Host.Outcome.next.inj (ht.symm.trans hu)
  exact absurd ((elem_strayTile hmem).symm.trans (helem 0 0 (by decide) (by decide))) (by decide +kernel)
end

section
/-! PROOF. Every step keeps memory in its canonical form (O56). First, shared operation by shared operation, what leaves every byte of
memory as it was. -/

namespace Sys2Proof.Machine

/-! ## Choices and passes over a list -/

@[simp] theorem State.mem_ite (c : Prop) [Decidable c] (s t : State) : (if c then s else t).mem = if c then s.mem else t.mem :=
  apply_ite _ _ _ _

theorem State.foldl_mem {α : Type} {f : State → α → State} (hf : ∀ t a, (f t a).mem = t.mem) (l : List α) (s : State) :
    (l.foldl f s).mem = s.mem :=
  List.foldlRecOn (motive := fun t : State => t.mem = s.mem) l f rfl (fun t ht a _ => (hf t a).trans ht)

section
variable (s : State)

/-! ## Groups and their lanes (01 R11; 06 R122-R131) -/

@[simp] theorem State.focus_mem (gid : Nat) : (s.focus gid).mem = s.mem := by
  simp only [State.focus]
  repeat' split
  all_goals rfl

@[simp] theorem State.onGroup_mem (gid : Nat) (f : State → State) : (s.onGroup gid f).mem = (f (s.focus gid)).mem :=
  State.focus_mem _ _

@[simp] theorem State.releaseFrames_mem (back : Bool) (hit : OutRes → Bool) : (s.releaseFrames back hit).1.mem = s.mem := by
  simp only [State.releaseFrames]
  split <;> rfl

@[simp] theorem State.releaseServed_mem (g : Group) (lanes : Mask) : (s.releaseServed g lanes).mem = s.mem := by
  simp only [State.releaseServed]
  repeat' split
  all_goals rfl

@[simp] theorem State.returnRows_mem (g : Group) : (s.returnRows g).mem = s.mem := by simp [State.returnRows]
@[simp] theorem State.groupEnd_mem : s.groupEnd.mem = s.mem := by simp [State.groupEnd]
@[simp] theorem State.dropLanes_mem (m : Mask) : (s.dropLanes m).mem = s.mem := by simp [State.dropLanes, State.withdrawLanes_mem]
@[simp] theorem State.cancelFaults_mem (gid : Nat) (m : Mask) : (s.cancelFaults gid m).mem = s.mem := rfl
@[simp] theorem State.cutService_mem (gid : Nat) (m : Mask) : (s.cutService gid m).mem = s.mem := rfl
@[simp] theorem State.retireGroup_mem : s.retireGroup.mem = s.mem := by simp [State.retireGroup]

/-! ## Causes (01 R11; 18 R316; 19 R338) -/

@[simp] theorem State.haltOwner_mem (owner kind detail : Nat) (addr pc : DWord) (cause reason : Word) (sp : Nat) (slot : Bool) :
    (s.haltOwner owner kind detail addr pc cause reason sp slot).mem = s.mem := by
  simp only [State.haltOwner]
  split <;> simp

@[simp] theorem State.recursiveFault_mem (detail : Nat) (addr : DWord) : (s.recursiveFault detail addr).mem = s.mem :=
  State.haltOwner_mem ..

@[simp] theorem State.terminate_mem (c : Cause) (tval : DWord) (lanes : Mask) : (s.terminate c tval lanes).mem = s.mem := by
  simp [State.terminate]

@[simp] theorem State.raise_mem (c : Cause) (tval : DWord) (lanes : Mask) : (s.raise c tval lanes).mem = s.mem := by simp [State.raise]
@[simp] theorem State.raiseWord_mem (c : Cause) : (s.raiseWord c).mem = s.mem := State.raise_mem ..

@[simp] theorem State.unwind_mem (c : Cause) (tval : DWord) (lanes : Mask) : (s.unwind c tval lanes).mem = s.mem := by
  simp only [State.unwind]
  repeat' split
  all_goals simp [State.withdrawLanes_mem]

@[simp] theorem State.moveLanes_mem (m : Mask) (f : Nat → DWord) : (s.moveLanes m f).mem = s.mem := by simp [State.moveLanes]

@[simp] theorem State.raiseTwo_mem (m m' : Mask) (c c' : Cause) : (s.raiseTwo m c m' c').mem = s.mem := by simp [State.raiseTwo]

/-! ## Lane words and uniform words (03 R40; 05 R74, R75) -/

@[simp] theorem State.laneAlu_mem (h : Hdr) (ok : Bool) (d : Nat) (f : Nat → Word) (len : Nat) : (s.laneAlu h ok d f len).mem = s.mem := by
  simp [State.laneAlu]

@[simp] theorem State.lanePred_mem (h : Hdr) (ok : Bool) (d : Nat) (x : Mask) : (s.lanePred h ok d x).mem = s.mem := by
  simp [State.lanePred]

@[simp] theorem State.lane2_mem (h : Hdr) (d a b : Nat) (f : Word → Word → Word) : (s.lane2 h d a b f).mem = s.mem := State.laneAlu_mem ..
@[simp] theorem State.lane1_mem (h : Hdr) (d a : Nat) (f : Word → Word) : (s.lane1 h d a f).mem = s.mem := State.laneAlu_mem ..

@[simp] theorem State.laneFloat_mem (h : Hdr) (ok : Bool) (d : Nat) (f : Nat → Word × Flags) : (s.laneFloat h ok d f).mem = s.mem := by
  simp [State.laneFloat]

theorem State.float2_mem (h : Hdr) (d a b : Nat) (k : FmtK) (f : FVal → FVal → FVal × Flags) : (s.float2 h d a b k f).mem = s.mem :=
  State.laneFloat_mem ..

theorem State.float1_mem (h : Hdr) (d a : Nat) (k : FmtK) (f : FK → Nat → Nat × Flags) : (s.float1 h d a k f).mem = s.mem :=
  State.laneFloat_mem ..

theorem State.special_mem (h : Hdr) (d a : Nat) (f : FVal → FVal × Flags) : (s.special h d a f).mem = s.mem := State.laneFloat_mem ..

theorem State.laneCmp_mem (h : Hdr) (d a b : Nat) (k : CmpK) (f : Int → Bool) (un sig : Bool) :
    (s.laneCmp h d a b k f un sig).mem = s.mem := by
  simp [State.laneCmp]

theorem State.permute_mem (h : Hdr) (ok : Bool) (d a : Nat) (src : Nat → Nat) : (s.permute h ok d a src).mem = s.mem := by
  simp [State.permute]

/-- The effect of a uniform word comes when its registers are allocated and its guard holds. -/
@[simp] theorem State.uniOp_mem (h : Hdr) (ok : Bool) (f : State → State) (len : Nat) :
    (s.uniOp h ok f len).mem = if ok && s.uguard h then (f s).mem else s.mem := by
  cases ok <;> simp [State.uniOp]

@[simp] theorem State.uniAlu_mem (h : Hdr) (ok : Bool) (f : Group → Group) (len : Nat) : (s.uniAlu h ok f len).mem = s.mem := by
  simp [State.uniAlu]

theorem State.uni2_mem (h : Hdr) (d a b : Nat) (f : Word → Word → Word) : (s.uni2 h d a b f).mem = s.mem := State.uniAlu_mem ..
theorem State.uni1_mem (h : Hdr) (d a : Nat) (f : Word → Word) : (s.uni1 h d a f).mem = s.mem := State.uniAlu_mem ..
theorem State.uniPair_mem (h : Hdr) (d a b : Nat) (f : DWord → DWord → DWord) : (s.uniPair h d a b f).mem = s.mem := State.uniAlu_mem ..

theorem State.scmp_mem (h : Hdr) (d a b : Nat) (k : SCmpK) (f : Int → Int → Bool) : (s.scmp h d a b k f).mem = s.mem := by
  cases k <;> exact State.uniAlu_mem ..

theorem State.call_mem (h : Hdr) (target : Nat → DWord) : (s.call h target).mem = s.mem := by simp [State.call]

/-! ## Poison, rows and what is logged (13 R223; 22 R404, R407) -/

@[simp] theorem State.moveStale_mem (old new : Nat) : (s.moveStale old new).mem = s.mem := rfl
@[simp] theorem State.setFlow_mem (f : Flow) : (s.setFlow f).mem = s.mem := rfl
@[simp] theorem State.badRow_mem (bank row : Nat) : (s.badRow bank row).mem = s.mem := rfl
@[simp] theorem State.countWord_mem (bank : Nat) : (s.countWord bank).mem = s.mem := rfl

@[simp] theorem State.quarantine_mem (sp : Nat) : (s.quarantine sp).mem = s.mem := by
  simp only [State.quarantine]
  split <;> rfl

/-! ## Accesses that do not come through (14 R247, R248; 18 R313-R315) -/

@[simp] theorem State.named_mem (va : DWord) (t : State) :
    (s.named va t).mem = if s.cur.hlv && !(s.inReserve s.curOwner s.curCore va) then s.mem else t.mem := by
  simp [State.named]

theorem State.namedAll_mem {t : State} (vas : List DWord) (h : t.mem = s.mem) : (s.namedAll vas t).mem = s.mem := by
  simp only [State.namedAll]
  split <;> simp [h]

@[simp] theorem State.park_mem (m : Mask) : (s.park m).mem = s.mem := by simp [State.park, State.withdrawLanes_mem]

@[simp] theorem State.parkWalk_mem (m : Mask) (page : Nat → Nat) (write fetch : Bool) : (s.parkWalk m page write fetch).mem = s.mem := by
  simp only [State.parkWalk]
  repeat' split
  · rfl
  · simp
  · rw [State.foldl_mem (fun _ _ => by split <;> simp)]
    rfl

@[simp] theorem State.parkPage_mem (m : Mask) (va : Nat → DWord) (write fetch : Bool) : (s.parkPage m va write fetch).mem = s.mem := by
  simp [State.parkPage]

@[simp] theorem State.logFences_mem (m : Mask) (va : Nat → DWord) : (s.logFences m va).mem = s.mem :=
  State.foldl_mem (fun _ _ => by rfl) _ _

@[simp] theorem State.parkAccess_mem (act : Mask) (cls : Nat → LaneClass) (va : Nat → DWord) (write : Bool) :
    (s.parkAccess act cls va write).mem = s.mem := by
  simp [State.parkAccess]

@[simp] theorem State.stallAccess_mem (act : Mask) (cls : Nat → LaneClass) (va : Nat → DWord) (write cause : Bool) :
    (s.stallAccess act cls va write cause).mem = s.mem := by
  simp only [State.stallAccess]
  rw [State.foldl_mem (fun _ _ => by rfl), State.foldl_mem (fun _ _ => by rfl)]
  simp

@[simp] theorem State.finishAccess_mem (act pois : Mask) (cls : Nat → LaneClass) (va : Nat → DWord) (counts : Nat → Bool) (write : Bool) :
    (s.finishAccess act pois cls va counts write).mem = s.mem := by
  simp [State.finishAccess]

@[simp] theorem State.noteHost_mem (words : Nat → Option HostWord) (l : List OutRes) : (s.noteHost words l).mem = s.mem :=
  State.foldl_mem (fun _ _ => by rfl) _ _

@[simp] theorem State.addResults_mem (words : Nat → Option HostWord) (l : List OutRes) : (s.addResults words l).mem = s.mem := by
  simp [State.addResults]

@[simp] theorem State.fencedAt_mem (va : DWord) (m : Mask) : (s.fencedAt va m).mem = s.mem := by simp [State.fencedAt]

/-- The state that a plain read leaves, whatever it answers. -/
def UniRead.state : UniRead → State
  | .got _ t => t
  | .stop t => t

@[simp] theorem UniRead.state_got (bs : List (BitVec 8)) (t : State) : (UniRead.got bs t).state = t := rfl
@[simp] theorem UniRead.state_stop (t : State) : (UniRead.stop t).state = t := rfl

theorem State.readUni_mem (va : DWord) (n al : Nat) : (s.readUni va n al).state.mem = s.mem := by
  simp only [State.readUni]
  repeat' split
  all_goals simp

theorem State.jtabTraffic_mem (tab : DWord) (m : Mask) (idx : Nat → Nat) (count : Nat) : (s.jtabTraffic tab m idx count).mem = s.mem :=
  State.foldl_mem (fun _ _ => by dsimp only; split <;> simp) _ _

/-! ## Bins (17 R291-R303) -/

@[simp] theorem State.modBin_mem (tid n : Nat) (f : Bin → Bin) : (s.modBin tid n f).mem = s.mem := rfl

@[simp] theorem State.editBin_mem (tid bn w : Nat) (f : Bin → Bin) : (s.editBin tid bn w f).mem = s.mem := by
  simp only [State.editBin]
  split <;> rfl

@[simp] theorem State.askFor_mem (owner : Nat) (m : Miss) (va : DWord) : (s.askFor owner m va).mem = s.mem := by simp [State.askFor]

@[simp] theorem State.binAsks_mem (tm : Team) (x : EngAcc) (va : DWord) (write : Bool) : (s.binAsks tm x va write).mem = s.mem := by
  simp only [State.binAsks]
  split <;> simp

@[simp] theorem State.fencedRow_mem (tm : Team) (va : DWord) : (s.fencedRow tm va).mem = s.mem := rfl
@[simp] theorem State.freshId_mem : s.freshId.2.mem = s.mem := rfl

@[simp] theorem State.deliverHeld_mem (m : Mask) : (s.deliverHeld m).mem = s.mem := by simp [State.deliverHeld]

@[simp] theorem State.placed_mem (d i : Nat) (r : Placed) (acc : Places) : (s.placed d i r acc).1.mem = s.mem := by cases r <;> rfl

/-! ## Cards (15 R264-R273) -/

@[simp] theorem State.pruneChains_mem (owner core : Nat) : (s.pruneChains owner core).mem = s.mem := rfl
@[simp] theorem State.submit_mem (va : DWord) (fork : Bool) (promReg : Option Nat) : (s.submit va fork promReg).1.mem = s.mem := rfl

@[simp] theorem State.cardWants_mem (c : Chain) (va : DWord) (write : Bool) (x : CardAcc) : (s.cardWants c va write x).mem = s.mem := by
  simp only [State.cardWants]
  split <;> simp

@[simp] theorem State.cardTraffic_mem (c : Chain) (va : DWord) (n : Nat) : (s.cardTraffic c va n).mem = s.mem :=
  State.foldl_mem (fun _ _ => by split <;> simp) _ _

@[simp] theorem State.endChain_mem (cid st : Nat) : (s.endChain cid st).mem = s.mem := rfl
@[simp] theorem State.endCard_mem (cid : Nat) (c : Card) (st : Nat) : (s.endCard cid c st).mem = s.mem := by simp [State.endCard]

@[simp] theorem State.finishStream_mem (cid : Nat) (c : Card) (stream : List Byte) : (s.finishStream cid c stream).mem = s.mem := by
  simp only [State.finishStream]
  split <;> simp

/-- A halted owner's steep jobs and cards are held back, and their bytes stay. -/
@[simp] theorem State.holdJobs_mem (owner : Nat) (t : State) : (s.holdJobs owner t).mem = t.mem := by simp [State.holdJobs]

@[simp] theorem State.descTraffic_mem (ch : Chain) (c : Card) : (s.descTraffic ch c).mem = s.mem := by
  simp only [State.descTraffic]
  split <;> simp

@[simp] theorem State.writePromise_mem (ch : Chain) (p : DWord) : (s.writePromise ch p).mem = s.mem := by
  simp only [State.writePromise]
  split <;> rfl

@[simp] theorem State.cardWaits_mem (ch : Chain) (p : Prog) (x : CardAcc) (va : DWord) (write : Bool) :
    (s.cardWaits ch p x va write).mem = s.mem := by
  simp [State.cardWaits]

/-- The state that a step of reading a card leaves. -/
def CardStep.state : CardStep → State
  | .run t _ => t
  | .wait t => t
  | .stop t _ _ => t

@[simp] theorem CardStep.state_run (t : State) (c : Card) : (CardStep.run t c).state = t := rfl
@[simp] theorem CardStep.state_wait (t : State) : (CardStep.wait t).state = t := rfl
@[simp] theorem CardStep.state_stop (t : State) (st : Nat) (c : Option Card) : (CardStep.stop t st c).state = t := rfl

@[simp] theorem State.readFails_mem (ch : Chain) (va : DWord) (c : Option Card) (r : CardRead) : (s.readFails ch va c r).state.mem = s.mem := by
  cases r <;> simp [State.readFails]

@[simp] theorem State.fetchShape_mem (ch : Chain) (bs : List Byte) : (s.fetchShape ch bs).state.mem = s.mem := by
  simp only [State.fetchShape]
  repeat' split
  all_goals simp

theorem State.fetchCard_mem (ch : Chain) : (s.fetchCard ch).state.mem = s.mem := by
  simp only [State.fetchCard]
  repeat' split
  all_goals simp

theorem State.readChain_mem (cid n : Nat) : (s.readChain cid n).1.mem = s.mem := by
  induction n generalizing s with
  | zero => rfl
  | succ n ih =>
    simp only [State.readChain]
    split
    · rfl
    next ch _ =>
    have hcard := s.fetchCard_mem ch.reading
    split
    · rfl
    split <;> (rename_i e; rw [e] at hcard)
    · exact hcard
    · exact hcard
    split
    · exact hcard
    split
    · simpa using hcard
    · simpa [ih] using hcard

/-! ## Sealed cards (15 R272; 21 R372-R375) -/

@[simp] theorem State.modKey_mem (n : Nat) (f : KeySlot → KeySlot) : (s.modKey n f).mem = s.mem := rfl
@[simp] theorem State.useIv_mem (ch : Chain) (c : Card) (held : List Held) : (s.useIv ch c held).mem = s.mem := by simp [State.useIv]

@[simp] theorem State.poisonAll_mem (ws : List (Nat × List Byte)) : (s.poisonAll ws).mem = s.mem :=
  State.foldl_mem (fun _ _ => State.poisonRange_mem ..) _ _

@[simp] theorem State.sealedTraffic_mem (ch : Chain) (c : Card) (held : List Held) : (s.sealedTraffic ch c held).mem = s.mem :=
  State.foldl_mem (fun _ _ => by split <;> simp) _ _

theorem State.sealedGo_mem {chain : Nat} {c : Card} {ch : Chain} {t : State} (e : s.sealedGo chain c ch = .inl t) : t.mem = s.mem := by
  simp only [State.sealedGo] at e
  repeat' split at e
  all_goals cases e
  all_goals simp

@[simp] theorem State.nextKey_mem (slot : Nat) : (s.nextKey slot).mem = s.mem := by
  simp only [State.nextKey]
  split <;> simp

@[simp] theorem State.poisonVa_mem (ch : Chain) (va : DWord) (n : Nat) : (s.poisonVa ch va n).mem = s.mem := by
  simp only [State.poisonVa]
  split <;> simp

/-! ## Steep commands and the matrix unit (15 R276; 11 R182-R205) -/

@[simp] theorem State.steepDone_mem (j : SteepJob) (st : Word) (sum : Option Word) : (s.steepDone j st sum).mem = s.mem := rfl
@[simp] theorem State.meNext_mem (sp : Nat) : (s.meNext sp).mem = s.mem := rfl
@[simp] theorem State.meWait_mem (sp : Nat) : (s.meWait sp).mem = s.mem := rfl
@[simp] theorem State.unpair_mem (sp : Nat) : (s.unpair sp).mem = s.mem := by simp [State.unpair]
@[simp] theorem State.meStop_mem (sp code : Nat) : (s.meStop sp code).mem = s.mem := by simp [State.meStop]
@[simp] theorem State.meStart_mem (va : DWord) : (s.meStart va).mem = s.mem := rfl
@[simp] theorem State.combine_mem (sp k : Nat) : (s.combine sp k).mem = s.mem := by simp [State.combine]

@[simp] theorem State.combineAll_mem (sp : Nat) : (s.combineAll sp).mem = s.mem :=
  State.foldl_mem (fun _ _ => State.combine_mem ..) _ _

@[simp] theorem State.meSpoil_mem (sp acc code : Nat) : (s.meSpoil sp acc code).mem = s.mem := by simp [State.meSpoil]
@[simp] theorem State.meFenced_mem (sp code : Nat) (va : DWord) : (s.meFenced sp code va).mem = s.mem := by simp [State.meFenced]

@[simp] theorem State.mmaBlock_mem (sp acc : Nat) (ra rb : Ring) (ka kb : SlotKind) (q k : Nat) :
    (s.mmaBlock sp acc ra rb ka kb q k).mem = s.mem := by
  simp only [State.mmaBlock]
  split <;> simp

/-- The state that the fetch of a command leaves. -/
def MeFetch.state : MeFetch → State
  | .run t _ => t
  | .wait t => t
  | .stop t => t

@[simp] theorem MeFetch.state_run (t : State) (i : Instr) : (MeFetch.run t i).state = t := rfl
@[simp] theorem MeFetch.state_wait (t : State) : (MeFetch.wait t).state = t := rfl
@[simp] theorem MeFetch.state_stop (t : State) : (MeFetch.stop t).state = t := rfl

theorem State.fetchMx_mem (sp : Nat) : (s.fetchMx sp).state.mem = s.mem := by
  simp only [State.fetchMx]
  repeat' split
  all_goals simp

end
end Sys2Proof.Machine
end

section
/-! PROOF. What the device, its engines, its host and its links do without a write to memory (O56). -/

namespace Sys2Proof.Machine

section
variable {s t : State}

/-! ## Pages the command processor asks for (15 R275; 19 R344) -/

theorem State.cpReady_mem {owner grid sp : Nat} {m : Mode} {absentOnly : Bool} {ps : List Nat}
    (e : s.cpReady owner grid sp m absentOnly ps = some t) : t.mem = s.mem := by
  induction ps with
  | nil => cases e
  | cons p ps ih =>
    simp only [State.cpReady] at e
    split at e
    · cases e; rfl
    · cases e; rfl
    · split at e
      · cases e; rfl
      · split at e
        · exact ih e
        · cases e; rfl
    · exact ih e

theorem State.areaReady_mem {owner : Nat} {m : Mode} {ps : List Nat} (e : s.areaReady owner m ps = some t) : t.mem = s.mem := by
  induction ps with
  | nil => cases e
  | cons p ps ih =>
    simp only [State.areaReady] at e
    split at e
    · exact ih e
    · cases e; rfl
    · cases e; rfl
    · cases e; simp
    · split at e
      · cases e; simp
      · exact ih e

theorem State.imagesReady_mem {l : List Saved} (e : s.imagesReady l = some t) : t.mem = s.mem := by
  induction l with
  | nil => cases e
  | cons x l ih =>
    simp only [State.imagesReady] at e
    split at e
    next u ha => cases e; exact State.areaReady_mem ha
    · exact ih e

theorem State.writesReady_mem {owner : Nat} {l : List (DWord × Nat)} (e : s.writesReady owner l = .wait t) : t.mem = s.mem := by
  induction l with
  | nil => cases e
  | cons x l ih =>
    simp only [State.writesReady] at e
    split at e
    next u ha => cases e; exact State.areaReady_mem ha
    · split at e
      · exact ih e
      · cases e

theorem State.cpWriteReady_mem {owner : Nat} {va : DWord} {n : Nat} (e : s.cpWriteReady owner va n = .wait t) : t.mem = s.mem := by
  simp only [State.cpWriteReady] at e
  repeat' split at e
  all_goals cases e
  next hc => exact State.cpReady_mem hc

theorem State.stallWaits_mem {owner : Nat} (e : s.stallWaits owner = some t) : t.mem = s.mem := by
  simp only [State.stallWaits] at e
  split at e <;> cases e
  next hw => exact State.cpWriteReady_mem hw

theorem State.ringSlot_mem {owner seq : Nat} (e : s.ringSlot owner seq = .wait t) : t.mem = s.mem := by
  simp only [State.ringSlot] at e
  repeat' split at e
  all_goals cases e
  next hc => exact State.cpReady_mem hc
  next hc => exact State.cpReady_mem hc

end

section
variable (s : State)

@[simp] theorem State.cpDone_mem (owner : Nat) : (s.cpDone owner).mem = s.mem := rfl

@[simp] theorem State.cpTraffic_mem (owner : Nat) (m : Mode) (va : DWord) (n : Nat) : (s.cpTraffic owner m va n).mem = s.mem :=
  State.foldl_mem (fun _ _ => by split <;> simp) _ _

/-! ## Launches (17 R305-R312) -/

theorem State.accRead_mem {s t : State} {owner grid sp : Nat} {va : DWord} {n : Nat} (e : s.accRead owner grid sp va n = .wait t) :
    t.mem = s.mem := by
  simp only [State.accRead] at e
  repeat' split at e
  all_goals cases e
  · rfl
  · rfl

theorem State.accArgs_mem {s t : State} {owner grid sp : Nat} {va : DWord} {n : Nat} (e : s.accArgs owner grid sp va n = .wait t) :
    t.mem = s.mem := by
  simp only [State.accArgs] at e
  repeat' split at e
  all_goals cases e
  next hc => exact State.cpReady_mem hc

/-- The state that the acceptance of a launch leaves. -/
def Accepted.leaves (s : State) : Accepted → Prop
  | .wait t => t.mem = s.mem
  | .refuse _ => True
  | .ok t => t.mem = s.mem

theorem State.accept_mem (owner grid sp : Nat) (device : Bool) (va : DWord) : (s.accept owner grid sp device va).leaves s := by
  simp only [State.accept]
  split
  · trivial
  split
  next e => exact State.accRead_mem e
  · trivial
  · trivial
  split
  · trivial
  split
  · rfl
  split
  · trivial
  split
  next e => exact State.accArgs_mem e
  next e _ => exact State.accRead_mem e
  next e _ _ => exact State.accRead_mem e
  next e _ _ _ => exact State.accRead_mem e
  · split
    · trivial
    split
    · trivial
    split
    next e => exact State.cpReady_mem e
    · show State.mem _ = s.mem
      simp only [State.modOwner_mem, State.freshId_mem]
      rw [State.foldl_mem (fun _ _ => State.cpTraffic_mem ..), State.cpDone_mem]
  · trivial

@[simp] theorem State.queueRecord_mem (owner : Nat) (gid : Option Nat) (bytes : Nat → List (BitVec 8)) :
    (s.queueRecord owner gid bytes).mem = s.mem := rfl

@[simp] theorem State.logRefusal_mem (owner who : Nat) (va : DWord) (code : Nat) : (s.logRefusal owner who va code).mem = s.mem := by
  simp [State.logRefusal]

theorem State.devLaunch_mem (owner : Nat) : (s.devLaunch owner).mem = s.mem := by
  simp only [State.devLaunch]
  split
  · rfl
  next l _ _ =>
  have ha := s.accept_mem owner l.grid l.sp true l.va
  split <;> (rename_i e; rw [e] at ha)
  · exact ha
  · simp
  · exact ha

theorem State.hostLaunch_mem (owner : Nat) : (s.hostLaunch owner).mem = s.mem := by
  simp only [State.hostLaunch]
  split
  · rfl
  next va _ _ =>
  have ha := s.accept_mem owner 0 4096 false va
  split <;> (rename_i e; rw [e] at ha)
  · exact ha
  · exact ha
  · simp

@[simp] theorem State.retryEngines_mem (owner : Nat) : (s.retryEngines owner).mem = s.mem := rfl
@[simp] theorem State.takeSp_mem (owner sp : Nat) : (s.takeSp owner sp).mem = s.mem := by simp [State.takeSp]
@[simp] theorem State.dropContexts_mem (tid : Nat) : (s.dropContexts tid).mem = s.mem := rfl
@[simp] theorem State.releaseGrid_mem (grid : Nat) : (s.releaseGrid grid).mem = s.mem := rfl

/-! ## Handlers and translation entries (18 R314; 19 R325-R331; 20 R358-R361) -/

@[simp] theorem State.parkQueued_mem (page : Nat) (g : Group) : (s.parkQueued page g).mem = s.mem := by simp [State.parkQueued]

@[simp] theorem State.handlerGroup_mem (owner grid sp : Nat) (kind : GroupKind) (c : Cause) (width n gnum : Nat) (tnum : DWord) :
    (s.handlerGroup owner grid sp kind c width n gnum tnum).1.mem = s.mem := rfl

@[simp] theorem State.resumeParked_mem (gid : Nat) (m : Mask) (dest : Option DWord) : (s.resumeParked gid m dest).mem = s.mem := rfl
@[simp] theorem State.hretTeam_mem (a : Nat) (k : HretK) : (s.hretTeam a k).mem = s.mem := by simp [State.hretTeam]

@[simp] theorem State.hretSlot_mem (a : Nat) (k : HretK) : (s.hretSlot a k).mem = s.mem := by
  simp only [State.hretSlot]
  split
  · simp
  · simp only [State.endRun_mem, State.dropLanes_mem, State.settle_mem, State.mem_ite, State.modCur_mem]
    rw [State.foldl_mem (fun _ _ => by split <;> rfl), ite_self, ite_self]

@[simp] theorem State.writeEntry_mem (owner : Nat) (e : Tlb) : (s.writeEntry owner e).mem = s.mem := rfl
@[simp] theorem State.dropEntries_mem (owner : Nat) (p : Tlb → Bool) : (s.dropEntries owner p).mem = s.mem := rfl
@[simp] theorem State.status_mem (d x : Nat) : (s.status d x).mem = s.mem := rfl

/-! ## Contexts and images (19 R341-R345) -/

@[simp] theorem State.endGroup_mem (gid : Nat) (va : DWord) : (s.endGroup gid va).mem = s.mem := by simp [State.endGroup]

@[simp] theorem State.endTeamGroups_mem (tid : Nat) (va : DWord) : (s.endTeamGroups tid va).mem = s.mem :=
  (State.foldl_mem (fun _ _ => State.endGroup_mem ..) _ _).trans rfl

@[simp] theorem State.endBad_mem (s0 : State) (l : List Saved) (read : List (Group × Option DWord)) : (s.endBad s0 l read).mem = s.mem := by
  simp only [State.endBad]
  rw [State.foldl_mem, State.foldl_mem]
  · intro t x
    split <;> simp
  · intro t x
    split <;> simp

@[simp] theorem State.takeRecords_mem (l : List Saved) : (s.takeRecords l).mem = s.mem := State.foldl_mem (fun _ _ => by rfl) l s

@[simp] theorem State.joinSp_mem (sp : Nat) (gs : List Group) : (s.joinSp sp gs).mem = s.mem := State.foldl_mem (fun _ _ => by rfl) gs s

@[simp] theorem State.recall_mem (team : Nat) : (s.recall team).mem = s.mem := by simp [State.recall]

@[simp] theorem State.markImage_mem (owner : Nat) (va : DWord) (off : Nat) (blocks : List Nat) : (s.markImage owner va off blocks).mem = s.mem :=
  State.foldl_mem (fun _ _ => by split <;> simp) _ _

theorem State.fillShadow_mem (sp ctx : Nat) : (s.fillShadow sp ctx).mem = s.mem := by
  simp only [State.fillShadow]
  split
  next e => exact State.imagesReady_mem e
  · simp

theorem State.fillActive_mem (sp : Nat) (x : Saved) : (s.fillActive sp x).mem = s.mem := by
  simp only [State.fillActive]
  split
  next e => exact State.imagesReady_mem e
  · split <;> simp

/-! ## The host link and the Kiln (22 R383-R393) -/

@[simp] theorem State.freshFree_mem : s.freshFree.mem = s.mem := rfl
@[simp] theorem State.haltOpen_mem (owner kind : Nat) : (s.haltOpen owner kind).mem = s.mem := by simp [State.haltOpen]
@[simp] theorem State.poisonRows_mem (p : Nat → Bool) : (s.poisonRows p).mem = s.mem := rfl
@[simp] theorem State.answerWith_mem (a : Answer) : (s.answerWith a).mem = s.mem := rfl
@[simp] theorem State.eraseOld_mem (owner : Nat) : (s.eraseOld owner).mem = s.mem := by simp [State.eraseOld]
@[simp] theorem State.pageViolation_mem (owner offset reason : Nat) : (s.pageViolation owner offset reason).mem = s.mem := rfl
@[simp] theorem State.submitLaunch_mem (owner : Nat) (va : DWord) : (s.submitLaunch owner va).mem = s.mem := by simp [State.submitLaunch]
@[simp] theorem State.refuseTo_mem (kind owner : Nat) : (s.refuseTo kind owner).mem = s.mem := rfl
@[simp] theorem State.kilnRefuse_mem (owner : Nat) : (s.kilnRefuse owner).mem = s.mem := rfl
@[simp] theorem State.granted_mem : s.granted.mem = s.mem := rfl

/-- A request is served when the Kiln is ready, and answered without a change of memory when it is not. -/
@[simp] theorem State.request_mem (f : State → State) : (s.request f).mem = if s.kilnReady then (f s).mem else s.mem := by
  simp [State.request]

theorem State.readDescriptor_mem (owner : Nat) : (s.readDescriptor owner).mem = s.mem := by simp [State.readDescriptor]

/-! ## Losses and tests (22 R403-R406, R414) -/

@[simp] theorem State.loseFrames_mem (p : Nat → Bool) (cause : Nat) : (s.loseFrames p cause).mem = s.mem := by
  refine State.foldl_mem (fun t o => ?_) _ _
  rw [State.foldl_mem (fun _ _ => State.queueRecord_mem ..)]
  rfl

@[simp] theorem State.retireBank_mem (bank : Nat) : (s.retireBank bank).mem = s.mem := by simp [State.retireBank]
@[simp] theorem State.correct_mem (bank row bond : Nat) : (s.correct bank row bond).mem = s.mem := rfl
@[simp] theorem State.failTraining_mem (bonds : List (Nat × Nat)) : (s.failTraining bonds).mem = s.mem := by simp [State.failTraining]

@[simp] theorem State.failTest_mem (banks sps : List Nat) : (s.failTest banks sps).mem = s.mem := by
  simp only [State.failTest]
  split
  · rfl
  · rw [State.foldl_mem (fun _ _ => by rfl), State.foldl_mem (fun _ _ => by rfl)]

/-! ## Peers, ports and flows (15 R280-R285; 22 R378-R381) -/

@[simp] theorem State.poisonExport_mem (o : Owner) (start len : Nat) : (s.poisonExport o start len).mem = s.mem := by
  simp only [State.poisonExport]
  split
  · rfl
  · exact State.foldl_mem (fun _ _ => by split <;> simp) _ _

@[simp] theorem State.losePeer_mem (dev cause : Nat) (only : Option Nat) : (s.losePeer dev cause only).mem = s.mem := by
  simp only [State.losePeer]
  split
  · rfl
  · rw [State.foldl_mem (fun _ _ => State.queueRecord_mem ..)]
    show State.mem (List.foldl _ _ _) = s.mem
    rw [State.foldl_mem (fun _ _ => State.poisonExport_mem ..)]
    cases only <;> rfl

@[simp] theorem State.modPort_mem (n : Nat) (f : Port → Port) : (s.modPort n f).mem = s.mem := rfl

@[simp] theorem State.loseUnrouted_mem : s.loseUnrouted.mem = s.mem := State.foldl_mem (fun _ _ => State.losePeer_mem ..) _ _

@[simp] theorem State.downPort_mem (port : Nat) : (s.downPort port).mem = s.mem := by simp [State.downPort]

@[simp] theorem State.badFlitAccess_mem (op : PeerOp) : (s.badFlitAccess op).mem = s.mem := by cases op <;> rfl

@[simp] theorem State.usePort_mem (port flow ctr : Nat) (sender : Bool) : (s.usePort port flow ctr sender).mem = s.mem := rfl

/-! ## The clock, and the fetch of a word (02 R18-R31; 03 R39) -/

@[simp] theorem State.tick_mem (d : Nat) : (s.tick d).mem = s.mem := rfl
@[simp] theorem State.catchUp_mem : s.catchUp.mem = s.mem := by simp [State.catchUp]
@[simp] theorem State.arrive_mem : s.arrive.mem = s.mem := rfl
@[simp] theorem State.stallWord_mem : s.stallWord.mem = s.mem := rfl

@[simp] theorem State.fetchUse_mem (va : DWord) : (s.fetchUse va).mem = s.mem := by
  simp only [State.fetchUse]
  split <;> simp

theorem State.fetchWordAt_mem {s t : State} {va : DWord} (e : s.fetchWordAt va = .inl t) : t.mem = s.mem := by
  simp only [State.fetchWordAt] at e
  repeat' split at e
  all_goals cases e
  all_goals simp [State.waitFor_mem]

/-- The state that a fetch, and what comes before the word's meaning, leaves. -/
def Fetched.state : Fetched → State
  | .run t _ => t
  | .stop t => t

@[simp] theorem Fetched.state_run (t : State) (i : Instr) : (Fetched.run t i).state = t := rfl
@[simp] theorem Fetched.state_stop (t : State) : (Fetched.stop t).state = t := rfl

theorem State.fetchIssue_mem : s.fetchIssue.state.mem = s.mem := by
  simp only [State.fetchIssue]
  split
  · rfl
  split
  · simp
  split
  next e => exact State.fetchWordAt_mem e
  · split
    · simp
    split
    next e => simpa using State.fetchWordAt_mem e
    · simp

theorem State.beforeWord_mem (i : Instr) : (s.beforeWord i).state.mem = s.mem := by
  have hset : (s.settleFrames i).1.mem = s.mem := State.releaseFrames_mem ..
  simp only [State.beforeWord]
  repeat' split
  all_goals simp [hset]

end
end Sys2Proof.Machine
end

section
/-! PROOF. The operations that write memory, and the canonical form that each of them keeps (O56). -/

namespace Sys2Proof.Machine

/-! ## Choices and passes over a list -/

@[simp] theorem Memory.wf_ite (c : Prop) [Decidable c] (m n : Memory) :
    Memory.wf (if c then m else n) = if c then Memory.wf m else Memory.wf n := apply_ite _ _ _ _

theorem State.ite_wf {c : Prop} [Decidable c] {s t : State} (hs : Memory.wf s.mem = true) (ht : Memory.wf t.mem = true) :
    Memory.wf (if c then s else t).mem = true := by
  simp [hs, ht]

theorem State.foldl_wf {α : Type} {f : State → α → State} (hf : ∀ t a, Memory.wf t.mem = true → Memory.wf (f t a).mem = true) (l : List α)
    {s : State} (hs : Memory.wf s.mem = true) : Memory.wf (l.foldl f s).mem = true :=
  List.foldlRecOn (motive := fun t : State => Memory.wf t.mem = true) l f hs (fun t ht a _ => hf t a ht)

theorem State.foldl_fst_wf {α β : Type} {f : State × β → α → State × β}
    (hf : ∀ p a, Memory.wf p.1.mem = true → Memory.wf (f p a).1.mem = true) (l : List α) {p : State × β}
    (hp : Memory.wf p.1.mem = true) : Memory.wf (l.foldl f p).1.mem = true :=
  List.foldlRecOn (motive := fun p : State × β => Memory.wf p.1.mem = true) l f hp (fun p hp a _ => hf p a hp)

section
variable {s : State} (hs : Memory.wf s.mem = true)
include hs

/-! ## Lane accesses (14 R249-R260) -/

omit hs in
/-- Performing a lane's access keeps the canonical form. -/
def LaneMem.KeepsMem (x : LaneMem) : Prop := ∀ (t : State) (i key : Nat), Memory.wf t.mem = true → Memory.wf (x.perform t i key).1.mem = true

theorem State.laneMem_wf (h : Hdr) (ok : Bool) {x : LaneMem} (hx : x.KeepsMem) : Memory.wf (s.laneMem h ok x).mem = true := by
  simp only [State.laneMem]
  split
  · simp [hs]
  split
  · simp [hs]
  split
  · simp [hs]
  simp only [State.finishAccess_mem, State.addResults_mem, State.mem_ite, State.clearCovered_mem, ite_self]
  refine State.foldl_fst_wf (fun p i hp => ?_) _ ?_
  · rw [State.foldl_mem (fun _ _ => by split <;> simp)]
    exact hx _ _ _ hp
  · rw [State.goOn_mem, State.foldl_mem (fun _ _ => by split <;> simp)]
    exact hs

omit hs in
theorem loadMem_keepsMem (s : State) (sz n d L : Nat) (va : Nat → DWord) : (loadMem s sz n d L va).KeepsMem := fun _ _ _ ht => ht

omit hs in
theorem storeMem_keepsMem (s : State) (sz : Nat) (va : Nat → DWord) (x : Nat → Nat) : (storeMem s sz va x).KeepsMem :=
  fun _ _ _ ht => State.writeKey_wf _ _ _ ht

omit hs in
theorem atomMem_keepsMem (s : State) (sz n d L : Nat) (op : Bool) (va : Nat → DWord) (upd : Nat → Nat → Option Nat) :
    (atomMem s sz n d L op va upd).KeepsMem := by
  intro t i key ht
  simp only [atomMem]
  split
  · exact State.writeKey_wf _ _ _ ht
  · exact ht

/-! ## Tiles (11 R206-R209) -/

@[simp] theorem State.setElem_wf (tm : Team) (t : Tile) (r c x : Nat) : Memory.wf (s.setElem tm t r c x).mem = true :=
  State.writeKey_wf _ _ _ hs

theorem State.tileOp_wf (h : Hdr) (ok : Bool) (d : Nat) (cells : Tile → List (Nat × Nat)) {f : Tile → State}
    (hf : ∀ t, Memory.wf (f t).mem = true) : Memory.wf (s.tileOp h ok d cells f).mem = true := by
  simp only [State.tileOp]
  split
  · simp [hs]
  split
  · simp [hs]
  split
  · simp [hs]
  split
  · simp [hs]
  · exact hf _

theorem State.tileAccess_wf (va : DWord) {t : State} (ht : Memory.wf t.mem = true) : Memory.wf (s.tileAccess va t).mem = true := by
  simp [State.tileAccess, hs, ht]

theorem State.moveElems_wf (load : Bool) (tm : Team) (t : Tile) (va : DWord) (n i : Nat) :
    Memory.wf (s.moveElems load tm t va n i).1.mem = true := by
  induction n generalizing s i with
  | zero => exact hs
  | succ n ih =>
    simp only [State.moveElems]
    repeat' split
    all_goals simp [ih, State.writeKey_wf, hs]

theorem State.tileMove_wf (h : Hdr) (d a : Nat) (load : Bool) : Memory.wf (s.tileMove h d a load).mem = true := by
  refine State.tileOp_wf hs _ _ _ _ (fun t => State.tileAccess_wf hs _ ?_)
  split
  · simp [hs]
  have hm := State.moveElems_wf hs load s.curTeam t (s.cur.spair a) (t.rows * t.cols - s.cur.xfer) s.cur.xfer
  split
  next hmove =>
  rw [hmove] at hm
  split
  · exact hm
  · simp [hm]

theorem State.slice_wf (h : Hdr) (tn : Nat) (col : Bool) (i n v : Nat) (fold reads stores : Bool)
    {perform : State → Tile → Nat → Nat → Nat → State} {beyond : State → Nat → State}
    (hp : ∀ u t r k l, Memory.wf u.mem = true → Memory.wf (perform u t r k l).mem = true)
    (hb : ∀ u l, Memory.wf u.mem = true → Memory.wf (beyond u l).mem = true) :
    Memory.wf (s.slice h tn col i n v fold reads stores perform beyond).mem = true := by
  unfold State.slice
  extract_lets act tm bad
  have hbad : Memory.wf bad.mem = true := by simp [bad, hs]
  refine State.ite_wf (by simp [hs]) (State.ite_wf (by simp [hs]) ?_)
  split
  · exact hbad
  next t _ =>
  extract_lets inside out pois good va s1 s1' s2 s3
  have hs1 : Memory.wf s1.mem = true := State.foldl_wf (fun u l => hp u t _ _ l) _ hs
  have hs2 : Memory.wf s2.mem = true := State.foldl_wf hb _ (State.ite_wf hs1 hs1)
  have hs3 : Memory.wf s3.mem = true := by simp [s3, hs2]
  exact State.ite_wf hbad (State.ite_wf (by simp [hs])
    (State.ite_wf hbad (State.ite_wf (by simp [hs3]) (State.ite_wf (by simp [hs3]) hs3))))

theorem State.foldl_setElem_wf {α : Type} (tm : Team) (t : Tile) (r c x : α → Nat) (l : List α) :
    Memory.wf (l.foldl (fun (u : State) a => u.setElem tm t (r a) (c a) (x a)) s).mem = true :=
  State.foldl_wf (fun _ _ hu => State.setElem_wf hu ..) l hs

theorem State.foldElem_wf (u : State) (conv : Bool) (tl : Tile) (r k : Nat) (f : FVal → FVal → FVal × Flags) (x : Word) :
    Memory.wf (u.foldElem s conv tl r k f x).mem = true :=
  State.setElem_wf hs ..

/-! ## Rows of bins (17 R293-R303) -/

theorem State.placeRow_wf (tid bn : Nat) (st : RowState) (col : Nat → Word) (pend : Option (Nat × Word × Bool)) (rid : Nat) :
    Memory.wf (s.placeRow tid bn st col pend rid).1.mem = true := by
  simp only [State.placeRow]
  split
  · exact hs
  split
  · exact hs
  split
  · split
    · exact hs
    · simpa using State.foldl_setElem_wf hs ..
  · split
    · simp only [State.modTeam_mem, State.markRacking_mem]
      split
      · split
        · exact State.writeKey_wf _ _ _ (State.writeKey_wf _ _ _ hs)
        · exact State.writeKey_wf _ _ _ hs
      · exact State.writeKey_wf _ _ _ hs
    · exact hs
    · exact hs
    · simp [hs]
  · exact hs

theorem State.refillOne_wf (tid bn : Nat) : Memory.wf (s.refillOne tid bn).1.mem = true := by
  simp only [State.refillOne]
  split
  · exact hs
  split
  · split
    · exact hs
    split
    · exact hs
    split
    · simpa using State.foldl_setElem_wf hs ..
    · simpa using State.foldl_setElem_wf hs ..
    · simpa using State.foldl_setElem_wf hs ..
    · simp [hs]
  · exact hs

theorem State.refillAll_wf (tid bn n : Nat) : Memory.wf (s.refillAll tid bn n).mem = true := by
  induction n generalizing s with
  | zero => exact hs
  | succ n ih =>
    have h1 := State.refillOne_wf hs tid bn
    exact State.ite_wf (ih h1) h1

/-! ## Cards (15 R264-R273) -/

theorem State.cardGo_wf (chain : Nat) (c : Card) {f : Chain → State} (hf : ∀ ch, Memory.wf (f ch).mem = true) :
    Memory.wf (s.cardGo chain c f).mem = true := by
  simp only [State.cardGo]
  split
  · exact hs
  · simp [hs, hf]

theorem State.copyMove_wf {ch : Chain} {c : Card} {fill : Bool} {p q : Prog} {m : CardMove} {t : State}
    (e : s.copyMove ch c fill p m = .on t q) : Memory.wf t.mem = true := by
  cases m with
  | rd i =>
    simp only [State.copyMove] at e
    repeat' split at e
    all_goals cases e
    all_goals simp [hs]
  | wr i =>
    simp only [State.copyMove] at e
    split at e
    · cases e
      simp [hs, State.writeKey_wf]
    · cases e
      exact hs
    · cases e

theorem State.copyRun_wf (ch : Chain) (c : Card) (fill : Bool) (p : Prog) (ms : List CardMove) :
    Memory.wf (s.copyRun ch c fill p ms).1.mem = true := by
  induction ms generalizing s p with
  | nil => exact hs
  | cons m ms ih =>
    simp only [State.copyRun]
    split
    next e => exact ih (State.copyMove_wf hs e) _
    · exact hs

theorem State.copyCard_wf (chain : Nat) (c : Card) (fill : Bool) : Memory.wf (s.copyCard chain c fill).mem = true := by
  refine State.cardGo_wf hs _ _ (fun ch => State.ite_wf (by simp [hs]) ?_)
  have hrun := State.copyRun_wf hs ch c fill (s.progOf ch) (s.movesLeft ch c (s.progOf ch))
  dsimp only
  split <;> (rename_i e; rw [e] at hrun; simpa using hrun)

theorem State.foldl_writeKey_wf {α : Type} (key : α → Nat) (bs : α → List (BitVec 8)) (l : List α) :
    Memory.wf (l.foldl (fun (u : State) x => u.writeKey (key x) (bs x)) s).mem = true :=
  State.foldl_wf (fun _ _ hu => State.writeKey_wf _ _ _ hu) l hs

@[simp] theorem State.putAll_wf (owner : Nat) (ws : List (Nat × List Byte)) : Memory.wf (s.putAll owner ws).mem = true :=
  State.foldl_wf (fun _ _ hu => by exact State.writeKey_wf _ _ _ hu) ws hs

theorem State.orKey_wf (ch : Chain) (va : DWord) (k x : Nat) : Memory.wf (s.orKey ch va k x).mem = true := by
  simpa [State.orKey] using State.writeKey_wf _ _ _ hs

theorem State.setAbsent_wf {ch : Chain} {c : Card} {rs : List Nat} {t : State} (e : s.setAbsent ch c rs = .inl t) :
    Memory.wf t.mem = true := by
  induction rs generalizing s with
  | nil => cases e; exact hs
  | cons r rs ih =>
    simp only [State.setAbsent] at e
    split at e
    · exact ih (State.orKey_wf hs ..) e
    · cases e
    · exact ih (by simpa using hs) e

theorem State.absentAt_wf {ch : Chain} {c : Card} {d : CollDesc} {st : Nat} {va : DWord} {t : State}
    (e : s.absentAt ch c d st va = .inl t) : Memory.wf t.mem = true := State.setAbsent_wf hs e

theorem State.collNext_wf {ch : Chain} {c : Card} {d : CollDesc} {members : List Nat} {stream : List (Byte × Bool)} {p q : Prog} {t : State}
    (e : s.collNext ch c d members stream p = .on t q) : Memory.wf t.mem = true := by
  simp only [State.collNext] at e
  split at e
  · split at e
    · cases e
      exact State.orKey_wf hs ..
    · cases e
      exact hs
    · split at e
      next ha => cases e; exact State.setAbsent_wf hs ha
      · cases e
    · cases e
  · split at e
    · cases e
      simp [hs, State.writeKey_wf]
    · cases e
      exact hs
    · split at e
      next ha => cases e; exact State.setAbsent_wf hs ha
      · cases e
    · cases e

theorem State.collOut_wf (ch : Chain) (c : Card) (d : CollDesc) (members : List Nat) (stream : List (Byte × Bool)) (p : Prog) (n : Nat) :
    Memory.wf (s.collOut ch c d members stream p n).1.mem = true := by
  induction n generalizing s p with
  | zero => exact hs
  | succ n ih =>
    simp only [State.collOut]
    split
    · exact hs
    split
    next e => exact ih (State.collNext_wf hs e) _
    · exact hs

@[simp] theorem State.putVa_wf (ch : Chain) (va : DWord) (bs : List Byte) : Memory.wf (s.putVa ch va bs).mem = true :=
  State.foldl_wf (fun _ _ hu => by simpa using State.writeKey_wf _ _ _ hu) _ hs

@[simp] theorem State.collEnd_wf (chain : Nat) (c : Card) (ch : Chain) (p : Prog) (st : Nat) :
    Memory.wf (s.collEnd chain c ch p st).mem = true := by
  simp only [State.collEnd]
  split
  · simp [hs]
  split
  · split
    next ha => simpa using State.absentAt_wf (by exact hs) ha
    · simp [hs]
  · simp [hs]
  · simp only [State.endCard_mem, State.mem_ite, State.poisonVa_mem, ite_self]
    exact State.putVa_wf (State.putVa_wf (by simpa only [State.cardTraffic_mem, State.clearCovered_mem] using hs) ..) ..

@[simp] theorem State.collGo_wf (chain : Nat) (c : Card) (ch : Chain) (p : Prog) : Memory.wf (s.collGo chain c ch p).mem = true := by
  simp only [State.collGo]
  split
  · exact State.collEnd_wf hs ..
  · exact State.collEnd_wf hs ..
  have hrun := State.copyRun_wf hs ch c false p (c.reads.drop p.pos)
  split <;> (rename_i e; rw [e] at hrun)
  · split
    next ha => exact State.collEnd_wf (by simpa using State.absentAt_wf hrun ha) ..
    · simpa using hrun
  · simpa using hrun
  next t q =>
  have hout := State.collOut_wf hrun ch c (collDesc p.desc) (collDesc p.desc).members (q.stream c.walk.length) q
    (((q.stream c.walk.length).length + 1) * (collDesc p.desc).members.length)
  split <;> (rename_i e; rw [e] at hout)
  · exact State.collEnd_wf (by simpa using hout) ..
  · simpa using hout
  next u r =>
  have hu : Memory.wf u.mem = true := hout
  exact State.ite_wf (State.collEnd_wf hu ..) (State.collEnd_wf (by simpa only [State.modChain_mem] using hu) ..)

theorem State.collBroken_wf (chain : Nat) (c : Card) (ch : Chain) (p : Prog) : Memory.wf (s.collBroken chain c ch p).mem = true := by
  simp only [State.collBroken]
  split
  · exact State.collEnd_wf hs ..
  split
  next ha => exact State.collEnd_wf (State.absentAt_wf hs ha) ..
  · simp [hs]

theorem State.withDesc_wf (chain : Nat) (c : Card) (ch : Chain) (fail : Option Nat) {f : State → Prog → State}
    (hf : ∀ t p, Memory.wf t.mem = true → Memory.wf (f t p).mem = true) : Memory.wf (s.withDesc chain c ch fail f).mem = true := by
  simp only [State.withDesc]
  split
  · exact hf _ _ hs
  split
  · simp [hs]
  · simp [hs]
  · simp [hs]
  · exact hf _ _ (by simp [hs])

theorem State.collCard_wf (chain : Nat) (c : Card) : Memory.wf (s.collCard chain c).mem = true := by
  simp only [State.collCard]
  split
  · exact hs
  refine State.ite_wf hs (State.ite_wf ?_ ?_)
  · exact State.withDesc_wf hs _ _ _ _ (fun _ _ ht => State.collBroken_wf ht ..)
  · exact State.cardGo_wf hs _ _ (fun ch => State.withDesc_wf hs _ _ _ _ (fun _ _ ht => State.collGo_wf ht ..))

/-! ## Cards that a halt stops (18 R316) -/

theorem State.cutCopy_wf (ch : Chain) (c : Card) (fill : Bool) : Memory.wf (s.cutCopy ch c fill).mem = true :=
  State.copyRun_wf hs ..

theorem State.cutColl_wf (ch : Chain) (c : Card) : Memory.wf (s.cutColl ch c).mem = true := by
  simp only [State.cutColl]
  split
  · exact hs
  next p _ =>
  split
  · exact hs
  have hrun := State.copyRun_wf hs ch c false p (c.reads.drop p.pos)
  split
  next e => rw [e] at hrun; exact State.collOut_wf hrun ..
  · exact hs

theorem State.cutSealed_wf (chain : Nat) (ch : Chain) (c : Card) : Memory.wf (s.cutSealed chain ch c).mem = true := by
  simp only [State.cutSealed]
  split
  · exact hs
  split
  · exact hs
  split
  · simp [hs]
  split
  · simp [hs]
  · simp [hs]

theorem State.cutCard_wf (chain : Nat) : Memory.wf (s.cutCard chain).mem = true := by
  simp only [State.cutCard]
  split
  · exact hs
  split
  · exact hs
  have h1 : ∀ f, Memory.wf (s.modChain chain f).mem = true := fun _ => hs
  split
  · exact h1 _
  split
  · exact h1 _
  split
  · rw [State.holdJobs_mem]
    exact State.cutSealed_wf (h1 _) ..
  · exact State.cutColl_wf (h1 _) ..
  · exact h1 _
  · exact State.ite_wf (h1 _) (State.cutCopy_wf (h1 _) ..)

/-! ## Steep commands and the matrix unit (15 R276-R279; 11 R200) -/

theorem State.steepGo_wf (job : Nat) {f : SteepJob → Nat → State} (hf : ∀ j k, Memory.wf (f j k).mem = true) :
    Memory.wf (s.steepGo job f).mem = true := by
  simp only [State.steepGo]
  split
  · exact hs
  split
  · exact hs
  rw [State.holdJobs_mem]
  split
  · split
    · exact hf _ _
    · exact hs
  · exact hs

theorem State.steepWords_wf (j : SteepJob) (k : Nat) (f : Word → Word × Flags) : Memory.wf (s.steepWords j k f).mem = true :=
  State.foldl_writeKey_wf hs ..

theorem State.drainTile_wf (sp acc : Nat) (sl : Slot) (t : Tile) : Memory.wf (s.drainTile sp acc sl t).mem = true :=
  State.foldl_setElem_wf hs ..

theorem State.drainRing_wf (sp acc : Nat) (sl : Slot) (r : Ring) : Memory.wf (s.drainRing sp acc sl r).mem = true :=
  State.foldl_writeKey_wf hs ..

end
end Sys2Proof.Machine
end

section
/-! PROOF. The device, its host and the Kiln: what they write, and the canonical form that each write keeps (O56). -/

namespace Sys2Proof.Machine

section
variable {s : State} (hs : Memory.wf s.mem = true)
include hs

/-! ## Writes of the command processor (15 R275; 20 R354, R355) -/

@[simp] theorem State.cpWrite_wf (owner : Nat) (va : DWord) (bs : List (BitVec 8)) : Memory.wf (s.cpWrite owner va bs).mem = true := by
  rw [State.cpWrite, State.cpTraffic_mem, State.clearCovered_mem]
  exact State.writeVa_wf _ _ _ _ _ _ hs

theorem State.copyStall_wf (owner : Nat) : Memory.wf (s.copyStall owner).mem = true := by simp [State.copyStall, hs]

theorem State.takeReply_wf (owner : Nat) : Memory.wf (s.takeReply owner).mem = true := by
  simp only [State.takeReply]
  split
  · exact hs
  split
  next e => rw [State.ringSlot_mem e]; exact hs
  · refine State.ite_wf ?_ ?_
    · simp [hs]
    · split <;> simp [hs]
  · exact hs

theorem State.pumpRing_wf (owner : Nat) : Memory.wf (s.pumpRing owner).mem = true := by
  simp only [State.pumpRing]
  split
  · exact hs
  split
  next e => rw [State.ringSlot_mem e]; exact hs
  · simp [hs]
  · exact hs

theorem State.writeImage_wf (x : Saved) (bs : List (BitVec 8)) : Memory.wf (s.writeImage x bs).mem = true :=
  State.cpWrite_wf hs ..

theorem State.fillBank_wf (x : Saved) (img : List (BitVec 8)) (off bank b : Nat) : Memory.wf (s.fillBank x img off bank b).mem = true := by
  simp only [State.fillBank]
  rw [State.foldl_mem]
  · exact State.writeKey_wf _ _ _ hs
  · intro t q
    split <;> simp

theorem State.copyLines_wf (owner old new : Nat) (lines : List Nat) : Memory.wf (s.copyLines owner old new lines).mem = true := by
  refine State.foldl_wf (fun t l ht => ?_) _ hs
  dsimp only
  rw [State.modOwner_mem, State.foldl_mem (fun _ _ => by simp)]
  exact State.writeKey_wf _ _ _ ht

/-! ## Host atomics in doubt, and ERROR (22 R387-R391) -/

theorem State.doubt_wf (r : HostReq) : Memory.wf (s.doubt r).mem = true := by
  simp only [State.doubt]
  split
  · exact State.ite_wf (State.writeKey_wf _ _ _ hs) hs
  · exact hs

@[simp] theorem State.toError_wf (owner : Nat) : Memory.wf (s.toError owner).mem = true := by
  refine State.ite_wf hs ?_
  simp only [State.haltOpen_mem, State.modOwner_mem, State.modContexts_mem, State.poisonRows_mem]
  exact State.foldl_wf (fun _ _ ht => State.doubt_wf ht _) _ hs

theorem State.undoWord_wf (r : HostReq) : Memory.wf (s.undoWord r).mem = true := by
  simp only [State.undoWord]
  split
  · exact State.ite_wf (State.writeKey_wf _ _ _ hs) hs
  · exact hs

theorem State.deliverHost_wf (r : HostReq) (poisoned : Bool) : Memory.wf (s.deliverHost r poisoned).mem = true := by
  have hu : Memory.wf (if poisoned then (s.poisonRows (· == r.rid)).undoWord r else s).mem = true :=
    State.ite_wf (State.undoWord_wf (by exact hs) r) hs
  simp only [State.deliverHost]
  generalize (if poisoned then (s.poisonRows (· == r.rid)).undoWord r else s) = u at hu ⊢
  split
  · exact hu
  split
  · simp [hu]
  · simp [hu]

theorem State.endRequest_wf (owner rid : Nat) (poisoned : Bool) : Memory.wf (s.endRequest owner rid poisoned).mem = true := by
  simp only [State.endRequest]
  split
  · exact hs
  · rw [State.eraseOld_mem]
    exact State.ite_wf (by exact hs) (State.deliverHost_wf (by exact hs) ..)

theorem State.writeHatom_wf (owner : Nat) (v : Word) : Memory.wf (s.writeHatom owner v).mem = true := by simp [State.writeHatom, hs]

/-! ## Frames and banks that are cleared (13 R221; 22 R376) -/

theorem State.zeroFrames_wf (fs : List Nat) : Memory.wf (s.zeroFrames fs).mem = true := SMap.wf_filter _ _ hs

theorem State.strange_wf (new : Nat → Bool) : Memory.wf (s.strange new).mem = true := SMap.wf_filter _ _ hs

theorem State.setGrants_wf (owner : Nat) (es : List Extent) : Memory.wf (s.setGrants owner es).mem = true := by
  rw [State.setGrants, State.modOwner_mem]
  exact State.strange_wf hs _

theorem State.allot_wf (owner : Nat) : Memory.wf (s.allot owner).mem = true := State.zeroFrames_wf hs _

theorem State.loaderPlaces_wf (owner frame : Nat) (bytes : List (BitVec 8)) : Memory.wf (s.loaderPlaces owner frame bytes).mem = true :=
  State.ite_wf hs (State.writeKey_wf _ _ _ hs)

theorem State.takeBank_wf (owner bank : Nat) : Memory.wf (s.takeBank owner bank).mem = true := SMap.wf_filter _ _ hs

theorem State.foldl_takeBank_wf {α : Type} (owner : Nat) (bank : α → Nat) (l : List α) :
    Memory.wf (l.foldl (fun (u : State) b => u.takeBank owner (bank b)) s).mem = true :=
  State.foldl_wf (fun _ _ hu => State.takeBank_wf hu ..) l hs

theorem State.startTeam_wf (gr : Grid) (num : Nat) (p : Site) (save : Nat) : Memory.wf (s.startTeam gr num p save).mem = true := by
  simp only [State.startTeam, State.modGrid_mem]
  rw [State.foldl_mem (fun _ _ => by rfl)]
  show Memory.wf (State.mem _) = true
  have h1 : Memory.wf (p.sps.foldl (fun (t : State) sp => t.takeSp gr.owner sp) s.freshId.2).mem = true := by
    rw [State.foldl_mem (fun _ _ => State.takeSp_mem ..)]
    exact hs
  refine State.ite_wf ?_ (State.foldl_takeBank_wf h1 ..)
  rw [State.foldl_mem (fun _ _ => State.modMe_mem ..)]
  exact State.foldl_takeBank_wf h1 ..

theorem State.placeGang_wf {grid n : Nat} {t : State} (e : s.placeGang grid n = some t) : Memory.wf t.mem = true := by
  induction n generalizing s with
  | zero => cases e; exact hs
  | succ n ih =>
    simp only [State.placeGang] at e
    split at e
    · exact ih (State.startTeam_wf hs ..) e
    · cases e

/-! ## Writes of a peer (15 R281) -/

theorem State.writeKeys_wf (owner : Nat) (ks : List Nat) (bs : List (BitVec 8)) : Memory.wf (s.writeKeys owner ks bs).mem = true :=
  State.foldl_wf (fun _ _ hu => by exact State.writeKey_wf _ _ _ hu) _ hs

end
end Sys2Proof.Machine
end

section
/-! PROOF. What the instructions and the events that write no memory leave of its canonical form (O56). -/

namespace Sys2Proof.Machine

/-- An outcome that goes on has its memory in canonical form. -/
def Out.MemInv : Out → Prop
  | .next t => Memory.wf t.mem = true
  | _ => True

@[simp] theorem Out.memInv_next (t : State) : Out.MemInv (.next t) ↔ Memory.wf t.mem = true := Iff.rfl

section
variable {s : State} (hs : Memory.wf s.mem = true)
include hs

/-- What leaves memory as it is keeps its form. -/
theorem Out.memInv_of_mem {t : State} (h : t.mem = s.mem) : Out.MemInv (.next t) := by rwa [Out.memInv_next, h]

/-! ## Lane words and uniform words (chapters 05 and 09) -/

theorem execVsel_memInv (h : Hdr) (d a b : Nat) : Out.MemInv (execVsel h d a b s) := by simp [execVsel, hs]
theorem execVballot_memInv (h : Hdr) (d a : Nat) : Out.MemInv (execVballot h d a s) := by simp [execVballot, hs]
theorem execVred_memInv (h : Hdr) (d a : Nat) (k : RedK) : Out.MemInv (execVred h d a k s) := by simp [execVred, hs]

theorem execVqnt_memInv (h : Hdr) (d a n f : Nat) : Out.MemInv (execVqnt h d a n f s) := by
  simp only [execVqnt]
  split <;> simp [hs]

theorem execSadd_memInv (h : Hdr) (d a b : Nat) (k : SAddK) : Out.MemInv (execSadd h d a b k s) := by
  cases k with
  | i32 | su32 => exact Out.memInv_of_mem hs (State.uni2_mem ..)
  | u64 => exact Out.memInv_of_mem hs (State.uniPair_mem ..)

theorem execSsub_memInv (h : Hdr) (d a b : Nat) (k : SAddK) : Out.MemInv (execSsub h d a b k s) := by
  cases k with
  | i32 | su32 => exact Out.memInv_of_mem hs (State.uni2_mem ..)
  | u64 => exact Out.memInv_of_mem hs (State.uniPair_mem ..)

theorem execSmul_memInv (h : Hdr) (d a b : Nat) (k : SMulK) : Out.MemInv (execSmul h d a b k s) := by
  cases k with
  | lo | hiI32 | hiU32 => exact Out.memInv_of_mem hs (State.uni2_mem ..)
  | u64lo => exact Out.memInv_of_mem hs (State.uniPair_mem ..)

theorem execXget_memInv (h : Hdr) (d a : Nat) (k : XgetK) : Out.MemInv (execXget h d a k s) := by
  cases k with
  | base | stride => exact Out.memInv_of_mem hs (State.uniAlu_mem ..)

theorem execSreadl_memInv (h : Hdr) (d a b : Nat) : Out.MemInv (execSreadl h d a b s) := by simp [execSreadl, hs]
theorem execCsrr_memInv (h : Hdr) (d : Nat) (csr : BitVec 12) : Out.MemInv (execCsrr h d csr s) := by simp [execCsrr, hs]
theorem execCsrw_memInv (h : Hdr) (d : Nat) (csr : BitVec 12) : Out.MemInv (execCsrw h d csr s) := by simp [execCsrw, hs]

/-! ## Control and synchronisation (chapter 06) -/

theorem execBra_memInv (h : Hdr) (off : BitVec 20) : Out.MemInv (execBra h off s) := by simp [execBra, hs]
theorem execBrx_memInv (h : Hdr) (a : Nat) : Out.MemInv (execBrx h a s) := by simp [execBrx, hs]
theorem execVbr_memInv (h : Hdr) (off : BitVec 20) : Out.MemInv (execVbr h off s) := by simp [execVbr, hs]
theorem execVret_memInv (h : Hdr) : Out.MemInv (execVret h s) := by simp [execVret, hs]
theorem execVexit_memInv (h : Hdr) : Out.MemInv (execVexit h s) := by simp [execVexit, hs]
theorem execEnd_memInv (h : Hdr) : Out.MemInv (execEnd h s) := by simp [execEnd, hs]
theorem execVyield_memInv (h : Hdr) : Out.MemInv (execVyield h s) := by simp [execVyield, hs]
theorem execWaitt_memInv (h : Hdr) (a : Nat) : Out.MemInv (execWaitt h a s) := by simp [execWaitt, hs]
theorem execBarg_memInv (h : Hdr) : Out.MemInv (execBarg h s) := by simp [execBarg, hs]
theorem execBar_memInv (h : Hdr) (nowait : Bool) (id : Nat) : Out.MemInv (execBar h nowait id s) := by simp [execBar, hs]
theorem execRdv_memInv (h : Hdr) (id : Nat) : Out.MemInv (execRdv h id s) := by simp [execRdv, hs]

theorem execFence_memInv (h : Hdr) (p : PathMask) (k : FenceK) (sc : Scope) : Out.MemInv (execFence h p k sc s) := by
  simp [execFence, hs]

theorem execVcallx_memInv (h : Hdr) (a : Nat) : Out.MemInv (execVcallx h a s) :=
  State.ite_wf (by rw [State.call_mem]; exact hs) (by simp [hs])

theorem execVjtab_memInv (h : Hdr) (a b : Nat) : Out.MemInv (execVjtab h a b s) := by
  unfold execVjtab
  extract_lets
  rename_i u moved left
  refine State.ite_wf (by simp [hs]) ?_
  split
  · simp [hs]
  refine State.ite_wf (by simp [hs]) (State.ite_wf (by simp [hs]) ?_)
  have hleft : left.mem = s.mem :=
    (State.logFences_mem ..).trans ((State.goTo_mem ..).trans (State.jtabTraffic_mem ..))
  refine State.ite_wf ?_ (State.ite_wf ?_ (State.ite_wf ?_ (State.ite_wf ?_ ?_)))
  · rwa [State.unwind_mem, hleft]
  · rwa [State.raise_mem, hleft]
  · rwa [State.raise_mem, hleft]
  · rwa [State.raise_mem, hleft]
  · exact ((State.parkWalk_mem ..).trans (State.parkPage_mem ..)).trans hleft ▸ hs

theorem execRunStart_memInv (sp : Nat) : Out.MemInv (execRunStart sp s) := by
  simp only [execRunStart, Out.memInv_next]
  split
  · exact hs
  split <;> simp [hs]

/-! ## Bins (chapter 17), and tile and ring bindings (chapter 11) -/

theorem execBincfg_memInv (h : Hdr) (d a b : Nat) : Out.MemInv (execBincfg h d a b s) := by simp [execBincfg, hs]
theorem execBinwake_memInv (h : Hdr) (d a : Nat) : Out.MemInv (execBinwake h d a s) := by simp [execBinwake, hs]
theorem execBinflush_memInv (h : Hdr) (d : Nat) : Out.MemInv (execBinflush h d s) := by simp [execBinflush, hs]

theorem execBinLaunch_memInv (team bin : Nat) : Out.MemInv (execBinLaunch team bin s) := by
  simp only [execBinLaunch, Out.memInv_next]
  split
  · exact hs
  refine State.ite_wf hs ?_
  split <;> simp [hs]

theorem execTbind_memInv (h : Hdr) (d a : Nat) : Out.MemInv (execTbind h d a s) := by
  have hread := s.readUni_mem (s.cur.spair a) 16 16
  simp only [execTbind, Out.memInv_next]
  refine State.ite_wf (by simp [hs]) (State.ite_wf (by simp [hs]) (State.ite_wf (by simp [hs]) ?_))
  split
  all_goals
    next e =>
    simp only [e, UniRead.state_stop, UniRead.state_got] at hread
    simp [hread, hs]

theorem execRbind_memInv (h : Hdr) (d a : Nat) : Out.MemInv (execRbind h d a s) := by
  have hread := s.readUni_mem (s.cur.spair a) 16 16
  simp only [execRbind, Out.memInv_next]
  refine State.ite_wf (by simp [hs]) (State.ite_wf (by simp [hs]) (State.ite_wf (by simp [hs]) ?_))
  split
  all_goals
    next e =>
    simp only [e, UniRead.state_stop, UniRead.state_got] at hread
    simp [hread, hs]

theorem execRpub_memInv (h : Hdr) (d n : Nat) : Out.MemInv (execRpub h d n s) := by
  refine State.ite_wf (by simp [hs]) ?_
  split <;> simp [hs]

theorem execRwaitf_memInv (h : Hdr) (d n : Nat) : Out.MemInv (execRwaitf h d n s) := by
  refine State.ite_wf (by simp [hs]) ?_
  split <;> simp [hs]

theorem execVtrd_memInv (h : Hdr) (t : Nat) (c : Bool) (i n v : Nat) : Out.MemInv (execVtrd h t c i n v s) :=
  State.slice_wf hs _ _ _ _ _ _ _ _ _ (fun _ _ _ _ _ hu => hu) (fun _ _ hu => hu)

/-! ## Work handed to the engines (chapter 15), and the matrix engine (chapter 11) -/

theorem execCpy_memInv (h : Hdr) (d a : Nat) : Out.MemInv (execCpy h d a s) := by simp [execCpy, hs]

theorem execCpyw_memInv (h : Hdr) (d a : Nat) : Out.MemInv (execCpyw h d a s) := by
  refine State.ite_wf (by simp [hs]) (State.ite_wf (by simp [hs]) ?_)
  dsimp only
  split
  · simp [hs]
  refine State.ite_wf (by simp [hs]) ?_
  split
  · simp [hs]
  split <;> simp [hs]

theorem execSteep_memInv (h : Hdr) (d a b : Nat) : Out.MemInv (execSteep h d a b s) := by simp [execSteep, hs]

theorem execFork_memInv (h : Hdr) (a b : Nat) (k : ForkK) : Out.MemInv (execFork h a b k s) := by
  refine State.ite_wf (by simp [hs]) (State.ite_wf (by simp [hs]) (State.ite_wf (by simp [hs]) ?_))
  rw [State.namedAll_mem]
  · exact hs
  · simp

theorem execPromiseMissed_memInv (gid : Nat) : Out.MemInv (execPromiseMissed gid s) := by
  simp only [execPromiseMissed, Out.memInv_next]
  split
  · exact hs
  split <;> simp [hs]

theorem execPromise_memInv (chain : Nat) : Out.MemInv (execPromise chain s) := by
  simp only [execPromise, Out.memInv_next]
  split
  · exact hs
  refine State.ite_wf hs ?_
  split
  · exact hs
  refine State.ite_wf ?_ ?_
  · rw [State.readChain_mem]
    exact hs
  split <;> simp [State.readChain_mem, hs]

theorem execSig_memInv (chain : Nat) (c : Card) : Out.MemInv (execSig chain c s) := State.cardGo_wf hs _ _ (fun _ => by simp [hs])
theorem execStpXsum_memInv (job : Nat) : Out.MemInv (execStpXsum job s) := State.steepGo_wf hs _ (fun _ _ => hs)

theorem execMxcfg_memInv (sp aSlot bSlot : Nat) (paired : Bool) (k : Nat) : Out.MemInv (execMxcfg sp aSlot bSlot paired k s) := by
  simp [execMxcfg, hs]

theorem execMxzero_memInv (sp acc : Nat) : Out.MemInv (execMxzero sp acc s) := by simp [execMxzero, hs]
theorem execMxend_memInv (sp : Nat) : Out.MemInv (execMxend sp s) := by simp [execMxend, hs]

theorem execMxwait_memInv (sp ring n : Nat) : Out.MemInv (execMxwait sp ring n s) := by
  simp only [execMxwait]
  split <;> simp [hs]

theorem execMxrel_memInv (sp ring n : Nat) : Out.MemInv (execMxrel sp ring n s) := by
  simp only [execMxrel]
  split <;> simp [hs]

theorem execMxmma_memInv (sp acc ra rb k : Nat) : Out.MemInv (execMxmma sp acc ra rb k s) := by
  refine State.ite_wf (by simp [hs]) ?_
  split
  · split <;> simp [hs]
  · simp [hs]

theorem execMxloop_memInv (sp count back : Nat) : Out.MemInv (execMxloop sp count back s) := by
  refine State.ite_wf (by simp [hs]) ?_
  dsimp only
  split <;> simp [hs]

/-! ## Handlers, traps and translation entries (chapters 19 and 20) -/

theorem execHret_memInv (h : Hdr) (a : Nat) (k : HretK) : Out.MemInv (execHret h a k s) := by simp [execHret, hs]
theorem execTrap_memInv (h : Hdr) (code : BitVec 14) : Out.MemInv (execTrap h code s) := by simp [execTrap, hs]
theorem execHalto_memInv (h : Hdr) (a : Nat) : Out.MemInv (execHalto h a s) := by simp [execHalto, hs]
theorem execCbegin_memInv (h : Hdr) (off : BitVec 20) : Out.MemInv (execCbegin h off s) := by simp [execCbegin, hs]
theorem execCend_memInv (h : Hdr) : Out.MemInv (execCend h s) := by simp [execCend, hs]
theorem execFramef_memInv (h : Hdr) (d a : Nat) : Out.MemInv (execFramef h d a s) := by simp [execFramef, hs]
theorem execDiscard_memInv (h : Hdr) (d a b : Nat) : Out.MemInv (execDiscard h d a b s) := by simp [execDiscard, hs]
theorem execMeas_memInv (h : Hdr) (d a b : Nat) : Out.MemInv (execMeas h d a b s) := by simp [execMeas, hs]

theorem execFramea_memInv (h : Hdr) (d : Nat) : Out.MemInv (execFramea h d s) := by
  refine State.ite_wf (by simp [hs]) (State.ite_wf (by simp [hs]) ?_)
  split <;> simp [hs]

theorem execTlbw_memInv (h : Hdr) (d a : Nat) : Out.MemInv (execTlbw h d a s) := by
  refine State.ite_wf (by simp [hs]) (State.ite_wf (by simp [hs]) ?_)
  dsimp only
  split
  · simp [hs]
  · rw [State.goOn_mem, State.modCur_mem, State.foldl_mem (fun _ _ => State.writeEntry_mem ..)]
    exact hs

theorem execTlbi_memInv (h : Hdr) (a : Nat) (k : TlbiK) : Out.MemInv (execTlbi h a k s) := by
  cases k with
  | one | all => simp [execTlbi, hs]

theorem execPgreq_memInv (h : Hdr) (d a : Nat) : Out.MemInv (execPgreq h d a s) := by
  refine State.ite_wf (by simp [hs]) (State.ite_wf (by simp [hs]) ?_)
  rw [State.goOn_mem, State.foldl_mem]
  · exact hs
  · intro t i
    dsimp only
    split
    · rfl
    split
    · rfl
    split <;> rfl

theorem execMissQueued_memInv (owner : Nat) : Out.MemInv (execMissQueued owner s) := by
  simp only [execMissQueued, Out.memInv_next]
  split
  · exact hs
  refine State.ite_wf hs ?_
  split
  · exact hs
  · rw [State.foldl_mem (fun _ _ => State.parkQueued_mem ..)]
    exact hs

theorem execWalkHandlerLaunch_memInv (owner : Nat) : Out.MemInv (execWalkHandlerLaunch owner s) := by
  simp only [execWalkHandlerLaunch, Out.memInv_next]
  split <;> simp [hs]

theorem execPageHandlerLaunch_memInv (sp : Nat) : Out.MemInv (execPageHandlerLaunch sp s) := by
  simp only [execPageHandlerLaunch, Out.memInv_next]
  split
  · exact hs
  split <;> simp [hs]

theorem execRequestHandlerLaunch_memInv (owner : Nat) : Out.MemInv (execRequestHandlerLaunch owner s) := by
  simp only [execRequestHandlerLaunch, Out.memInv_next]
  split
  · exact hs
  refine State.ite_wf hs (State.ite_wf hs ?_)
  split <;> simp [hs]

/-! ## Launches (chapter 17) and contexts (chapter 19) -/

theorem execLaunch_memInv (h : Hdr) (d a : Nat) : Out.MemInv (execLaunch h d a s) := by
  refine State.ite_wf (by simp [hs]) (State.ite_wf (by simp [hs]) (State.ite_wf (by simp [hs]) ?_))
  have hacc := State.accept_mem (s.settle s.cur.iss).cur.owner (s.settle s.cur.iss).cur.grid (s.settle s.cur.iss).cur.sp true
    ((s.settle s.cur.iss).cur.spair a) (s := s.settle s.cur.iss)
  refine State.ite_wf (by simp [hs]) ?_
  split
  all_goals
    next e =>
    rw [e] at hacc
    simp_all [Accepted.leaves]

theorem execLaunchAccept_memInv (owner : Nat) : Out.MemInv (execLaunchAccept owner s) := by
  refine State.ite_wf hs (State.ite_wf ?_ ?_)
  · rw [State.hostLaunch_mem]
    exact hs
  · rw [State.devLaunch_mem]
    exact hs

theorem execGangAgeing_memInv (owner : Nat) : Out.MemInv (execGangAgeing owner s) := by
  simp only [execGangAgeing, Out.memInv_next]
  split
  · exact State.ite_wf hs hs
  · exact hs

theorem execTeamRetire_memInv (team : Nat) : Out.MemInv (execTeamRetire team s) := by
  refine State.ite_wf hs ?_
  rw [State.dropContexts_mem, State.modGrid_mem, State.foldl_mem (fun _ _ => State.modBank_mem ..)]
  exact hs

theorem execPreemption_memInv (sp : Nat) (incoming : Option Nat) : Out.MemInv (execPreemption sp incoming s) := by
  simp [execPreemption, hs]

theorem execContextFill_memInv (sp ctx : Nat) : Out.MemInv (execContextFill sp ctx s) := by
  refine State.ite_wf ?_ ?_
  · rw [State.fillShadow_mem]
    exact hs
  · split
    · rw [State.fillActive_mem]
      exact hs
    · exact hs

theorem execBankSwap_memInv (sp : Nat) : Out.MemInv (execBankSwap sp s) := by simp [execBankSwap, hs]

/-! ## The host link and the Kiln (chapter 22) -/

theorem execLockInterface_memInv (owner : Nat) : Out.MemInv (execLockInterface owner s) := by simp [execLockInterface, hs]
theorem execStartInterface_memInv (owner : Nat) : Out.MemInv (execStartInterface owner s) := by simp [execStartInterface, hs]
theorem execStopInterface_memInv (owner : Nat) : Out.MemInv (execStopInterface owner s) := by simp [execStopInterface, hs]
theorem execKSetGo_memInv (owner : Nat) : Out.MemInv (execKSetGo owner s) := by simp [execKSetGo, hs]

theorem execTelemetryRead_memInv (owner offset width : Nat) : Out.MemInv (execTelemetryRead owner offset width s) := by
  simp [execTelemetryRead, hs]

theorem execSpdmRequest_memInv (request : Nat) : Out.MemInv (execSpdmRequest request s) := by simp [execSpdmRequest, hs]
theorem execPeer_memInv (owner : Nat) (table : List Nat) : Out.MemInv (execPeer owner table s) := by simp [execPeer, hs]
theorem execLogRead_memInv (violations : Bool) : Out.MemInv (execLogRead violations s) := by simp [execLogRead, hs]

theorem execSlotAssign_memInv (owner : Nat) (slots : List Nat) : Out.MemInv (execSlotAssign owner slots s) := by
  rw [execSlotAssign, Out.memInv_next, State.request_mem, State.mem_ite, State.granted_mem, State.foldl_mem (fun _ _ => State.modKey_mem ..)]
  simp [hs]

theorem execDiag_memInv (owner : Option Nat) : Out.MemInv (execDiag owner s) := by
  cases owner with
  | none => simp [execDiag, hs]
  | some id =>
    rw [execDiag, Out.memInv_next, State.request_mem]
    split
    · dsimp only
      split <;> exact hs
    · exact hs

theorem execSetReceiptRing_memInv (owner : Nat) (va : BitVec 64) (count : Nat) : Out.MemInv (execSetReceiptRing owner va count s) := by
  simp [execSetReceiptRing, hs]

theorem execKeyPut_memInv (owner slot : Nat) (key : BitVec 256) (authenticated : Bool) :
    Out.MemInv (execKeyPut owner slot key authenticated s) := by
  simp [execKeyPut, hs]

theorem execWorldShare_memInv (owner dev : Nat) (key : BitVec 256) : Out.MemInv (execWorldShare owner dev key s) := by
  simp [execWorldShare, hs]

theorem execFusedMinimumRaise_memInv (version : Nat) (signed : Bool) : Out.MemInv (execFusedMinimumRaise version signed s) := by
  simp [execFusedMinimumRaise, hs]

/-! ## The device (chapter 22) and its links (chapter 15) -/

theorem execRegulatorSetting_memInv (q : Regulator) (value : Nat) : Out.MemInv (execRegulatorSetting q value s) := by
  simp [execRegulatorSetting, hs]

theorem execRowRemap_memInv (bank row : Nat) (bad : List Nat) : Out.MemInv (execRowRemap bank row bad s) := by
  refine State.ite_wf hs (State.ite_wf (by simp [hs]) ?_)
  rw [State.logEvent_mem, State.foldl_mem (fun _ _ => State.addPoison_mem ..)]
  exact hs

theorem execBondSteering_memInv (channel bond : Nat) : Out.MemInv (execBondSteering channel bond s) := by simp [execBondSteering, hs]
theorem execCoreRetire_memInv (core : Nat) : Out.MemInv (execCoreRetire core s) := by simp [execCoreRetire, hs]
theorem execGovernorStep_memInv (die step : Nat) : Out.MemInv (execGovernorStep die step s) := by simp [execGovernorStep, hs]
theorem execSpStart_memInv (sp : Nat) : Out.MemInv (execSpStart sp s) := by simp [execSpStart, hs]

omit hs in
/-- RESET leaves no byte listed. -/
theorem execReset_memInv (imageOk : Bool) (version step : Nat) : Out.MemInv (execReset imageOk version step s) :=
  State.ite_wf rfl (State.ite_wf rfl rfl)

theorem execPeerLost_memInv (dev cause : Nat) : Out.MemInv (execPeerLost dev cause s) := by
  refine State.ite_wf ?_ (by simp [hs])
  rw [State.foldl_mem (fun _ _ => State.losePeer_mem ..)]
  exact hs

theorem execFlitReceive_memInv (port seq : Nat) (crcOk tagOk : Bool) (corrected : Nat) :
    Out.MemInv (execFlitReceive port seq crcOk tagOk corrected s) := by
  simp [execFlitReceive, hs]

theorem execPacketReceive_memInv (flow epoch ctr : Nat) (tagOk : Bool) (addr : Nat) (isWrite : Bool) :
    Out.MemInv (execPacketReceive flow epoch ctr tagOk addr isWrite s) := by
  simp [execPacketReceive, hs]

theorem execKeyRegisterLoad_memInv (port owner : Nat) : Out.MemInv (execKeyRegisterLoad port owner s) := by
  simp [execKeyRegisterLoad, hs]

end
end Sys2Proof.Machine
end

section
/-! PROOF. What the instructions and the events that write memory leave of its canonical form (O56). -/

namespace Sys2Proof.Machine

section
variable {s : State} (hs : Memory.wf s.mem = true)
include hs

/-! ## Loads, stores and atomics (chapter 14) -/

theorem execVld_memInv (h : Hdr) (d : Nat) (a : Adr) (l : Nat) (k : MemK) (t : Hint) : Out.MemInv (execVld h d a l k t s) :=
  State.laneMem_wf hs _ _ (loadMem_keepsMem _ _ _ _ _ _)

theorem execVldnf_memInv (h : Hdr) (d : Nat) (a : Adr) (l : Nat) (k : MemK) (t : Hint) : Out.MemInv (execVldnf h d a l k t s) :=
  State.laneMem_wf hs _ _ (fun _ _ _ ht => ht)

theorem execVldn_memInv (h : Hdr) (d : Nat) (a : Adr) (l : Nat) (k : PackK) (t : Hint) : Out.MemInv (execVldn h d a l k t s) :=
  State.laneMem_wf hs _ _ (fun _ _ _ ht => ht)

theorem execVldf_memInv (h : Hdr) (d : Nat) (a : Adr) (l : Nat) (t : Hint) : Out.MemInv (execVldf h d a l t s) := by
  refine State.laneMem_wf hs _ _ ?_
  split
  · exact loadMem_keepsMem _ _ _ _ _ _
  · exact fun _ _ _ ht => ht

theorem execVldxW_memInv (h : Hdr) (d x o l : Nat) : Out.MemInv (execVldxW h d x o l s) := State.laneMem_wf hs _ _ (loadMem_keepsMem _ _ _ _ _ _)
theorem execVldxD_memInv (h : Hdr) (d x o l : Nat) : Out.MemInv (execVldxD h d x o l s) := State.laneMem_wf hs _ _ (loadMem_keepsMem _ _ _ _ _ _)

theorem execVst_memInv (h : Hdr) (d : Nat) (a : Adr) (l : Nat) (k : MemK) (t : Hint) : Out.MemInv (execVst h d a l k t s) :=
  State.laneMem_wf hs _ _ (storeMem_keepsMem _ _ _ _)

theorem execVstxW_memInv (h : Hdr) (d x o l : Nat) : Out.MemInv (execVstxW h d x o l s) := State.laneMem_wf hs _ _ (storeMem_keepsMem _ _ _ _)
theorem execVstxD_memInv (h : Hdr) (d x o l : Nat) : Out.MemInv (execVstxD h d x o l s) := State.laneMem_wf hs _ _ (storeMem_keepsMem _ _ _ _)

/-- A packed block is written part by part, each part at its own key. -/
theorem execVstn_memInv (h : Hdr) (d : Nat) (a : Adr) (l : Nat) (k : PackK) (t : Hint) : Out.MemInv (execVstn h d a l k t s) := by
  refine State.laneMem_wf hs _ _ (fun t i key ht => ?_)
  dsimp only
  split
  · exact ht
  refine State.foldl_fst_wf (fun p x hp => ?_) _ ht
  exact State.ite_wf (by rw [State.markRacking_mem]; exact State.writeKey_wf _ _ _ hp) hp

theorem execVatadd_memInv (h : Hdr) (d : Nat) (a : Adr) (l : Nat) (k : AtAddK) (t : Hint) : Out.MemInv (execVatadd h d a l k t s) := by
  cases k with
  | i32 | u64 | f32 => exact State.laneMem_wf hs _ _ (atomMem_keepsMem _ _ _ _ _ _ _ _)

theorem execVatmm_memInv (h : Hdr) (d : Nat) (a : Adr) (l : Nat) (k : AtMmK) (t : Hint) : Out.MemInv (execVatmm h d a l k t s) :=
  State.laneMem_wf hs _ _ (atomMem_keepsMem _ _ _ _ _ _ _ _)

theorem execVatbit_memInv (h : Hdr) (d : Nat) (a : Adr) (l : Nat) (k : AtBitK) (t : Hint) : Out.MemInv (execVatbit h d a l k t s) :=
  State.laneMem_wf hs _ _ (atomMem_keepsMem _ _ _ _ _ _ _ _)

theorem execVcas_memInv (h : Hdr) (d : Nat) (a : Adr) (l : Nat) (k : CasK) (t : Hint) : Out.MemInv (execVcas h d a l k t s) := by
  cases k with
  | w32 | w64 => exact State.laneMem_wf hs _ _ (atomMem_keepsMem _ _ _ _ _ _ _ _)

/-! ## Tiles (11 R206-R209) -/

theorem execTzero_memInv (h : Hdr) (d : Nat) : Out.MemInv (execTzero h d s) :=
  State.tileOp_wf hs _ _ _ _ (fun t => State.tileAccess_wf hs _ (State.ite_wf (by simp [hs])
    (by rw [State.goOn_mem, State.clearCovered_mem]; exact State.foldl_setElem_wf hs ..)))

theorem execTcolop_memInv (h : Hdr) (d a b : Nat) (k : ColOpK) : Out.MemInv (execTcolop h d a b k s) := by
  refine State.tileOp_wf hs _ _ _ _ (fun t => ?_)
  refine State.ite_wf (by simp [hs]) (State.tileAccess_wf hs _ (State.ite_wf (by simp [hs]) ?_))
  split
  · simp [hs]
  · rw [State.goOn_mem, State.modCur_mem]
    exact State.foldl_setElem_wf hs ..

theorem execTacc_memInv (h : Hdr) (d a : Nat) : Out.MemInv (execTacc h d a s) := by
  refine State.ite_wf (by simp [hs]) (State.tileOp_wf hs _ _ _ _ (fun t => State.tileAccess_wf hs _ ?_))
  split
  · simp [hs]
  · rw [State.goOn_mem, State.modCur_mem, State.clearCovered_mem]
    exact State.foldl_setElem_wf hs ..

theorem execVtwr_memInv (h : Hdr) (t : Nat) (c : Bool) (i n v : Nat) : Out.MemInv (execVtwr h t c i n v s) :=
  State.slice_wf hs _ _ _ _ _ _ _ _ _
    (fun _ _ _ _ _ hu => by rw [State.modCur_mem]; exact State.setElem_wf hu ..) (fun _ _ hu => hu)

theorem execVtaddF32_memInv (h : Hdr) (t : Nat) (c : Bool) (i n v : Nat) : Out.MemInv (execVtaddF32 h t c i n v s) :=
  State.slice_wf hs _ _ _ _ _ _ _ _ _ (fun _ _ _ _ _ hu => State.foldElem_wf hu ..) (fun _ _ hu => hu)

theorem execVtmaxF32_memInv (h : Hdr) (t : Nat) (c : Bool) (i n v : Nat) : Out.MemInv (execVtmaxF32 h t c i n v s) :=
  State.slice_wf hs _ _ _ _ _ _ _ _ _ (fun _ _ _ _ _ hu => State.foldElem_wf hu ..) (fun _ _ hu => hu)

end
end Sys2Proof.Machine
end

section
/-! PROOF. What bins, cards, engines, paging, launches and saved contexts leave of memory's canonical form (O56). -/

namespace Sys2Proof.Machine

section
variable {s : State} (hs : Memory.wf s.mem = true)
include hs

/-! ## Bins (17 R293-R303) -/

theorem execVsusp_memInv (h : Hdr) (d a : Nat) (k : SuspK) : Out.MemInv (execVsusp h d a k s) := by
  unfold execVsusp
  extract_lets act s0 live
  refine State.ite_wf (by simp [hs]) (State.ite_wf (by simp [hs]) (State.ite_wf (by simp [hs]) ?_))
  split
  next s1 ps e =>
  have h1 : Memory.wf s1.mem = true := by
    rw [show s1 = (s1, ps).1 from rfl, ← e]
    exact State.foldl_fst_wf (fun p i hp => by rw [State.placed_mem]; exact State.placeRow_wf hp ..) _ (by exact hs)
  extract_lets done stay s2 s3 s4
  have h4 : Memory.wf s4.mem = true := State.ite_wf (by simp [s3, s2, h1]) (by simp [s3, s2, h1])
  split
  · simp [hs]
  · exact State.ite_wf (by simp [h4]) (by simp [h4])

theorem execVspawn_memInv (h : Hdr) (d a b : Nat) : Out.MemInv (execVspawn h d a b s) := by
  unfold execVspawn
  extract_lets act live s0
  refine State.ite_wf (by simp [hs]) (State.ite_wf (by simp [hs]) (State.ite_wf (by simp [hs])
    (State.ite_wf (by simp [hs]) (State.ite_wf (by simp [hs]) ?_))))
  split
  next s1 ps e =>
  have h1 : Memory.wf s1.mem = true := by
    rw [show s1 = (s1, ps).1 from rfl, ← e]
    exact State.foldl_fst_wf (fun p i hp => by rw [State.placed_mem]; exact State.placeRow_wf hp ..) _ (by simpa [s0] using hs)
  split
  · simp [hs]
  · exact State.ite_wf (by simp [h1]) (by simp [h1])

theorem execFrameld_memInv (h : Hdr) : Out.MemInv (execFrameld h s) := by
  unfold execFrameld
  extract_lets g tm off
  refine State.ite_wf (by simp [hs]) ?_
  split
  · simp [hs]
  next b _ =>
  split
  · simp [hs]
  extract_lets cols fen rows s1 bad s2 s3 s4 s5
  have h1 : Memory.wf s1.mem = true := by
    rw [State.foldl_mem (fun _ _ => State.modCur_mem ..)]
    exact hs
  have h4 : Memory.wf s4.mem = true := by
    rw [State.goOn_mem]
    exact State.refillAll_wf (by simpa [s2] using h1) ..
  have h5 : Memory.wf s5.mem = true := State.ite_wf (by simp [h4]) h4
  clear_value s5 bad fen
  split <;> simp [h5]

theorem execCaskRefill_memInv (team bin : Nat) : Out.MemInv (execCaskRefill team bin s) := by
  have h1 := State.refillAll_wf hs team bin 64
  exact State.ite_wf hs (State.ite_wf h1 (by simp [h1]))

theorem execVldfDelivery_memInv (team bin row : Nat) (inCask : Bool) : Out.MemInv (execVldfDelivery team bin row inCask s) := by
  simp only [execVldfDelivery, Out.memInv_next]
  split
  · exact hs
  split
  · split
    · refine State.ite_wf (by simp [hs]) ?_
      split
      · simp only [State.modBin_mem, State.markRacking_mem]
        exact State.writeKey_wf _ _ _ hs
      · simp [hs]
      · simp [hs]
    · rw [State.editBin_mem]
      exact State.ite_wf (by exact hs) (State.ite_wf (State.setElem_wf (by exact hs) ..) (by simp [hs]))
  · exact hs

/-! ## Cards (15 R264-R273) -/

theorem execCopyAead_memInv (chain : Nat) (c : Card) : Out.MemInv (execCopyAead chain c s) := by
  refine State.cardGo_wf hs _ _ (fun ch => ?_)
  dsimp only
  split
  next e => rwa [s.sealedGo_mem e]
  · rw [State.nextKey_mem]
    refine State.ite_wf (by simp [hs]) (State.ite_wf (by simp [hs]) (State.ite_wf ?_ ?_))
    · simp [hs]
    · simp [hs]

/-! ## Steep commands (15 R276-R279) and the matrix unit (11 R200) -/

theorem execStpFill_memInv (job : Nat) : Out.MemInv (execStpFill job s) :=
  State.steepGo_wf hs _ (fun _ _ => State.writeKey_wf _ _ _ hs)

theorem execStpAddF32_memInv (job : Nat) : Out.MemInv (execStpAddF32 job s) := State.steepGo_wf hs _ (fun _ _ => State.steepWords_wf hs ..)
theorem execStpScale_memInv (job : Nat) : Out.MemInv (execStpScale job s) := State.steepGo_wf hs _ (fun _ _ => State.steepWords_wf hs ..)
theorem execStpMaxfold_memInv (job : Nat) : Out.MemInv (execStpMaxfold job s) := State.steepGo_wf hs _ (fun _ _ => State.steepWords_wf hs ..)

theorem execStpCvt_memInv (job : Nat) : Out.MemInv (execStpCvt job s) := by
  refine State.steepGo_wf hs _ (fun j k => ?_)
  extract_lets sl n bad q blk put s1 s2 fl
  have hput : ∀ (u : State) a bs, Memory.wf u.mem = true → Memory.wf (put u a bs).mem = true := fun u a bs hu =>
    State.foldl_wf (fun _ _ ht => State.ite_wf ht (State.writeKey_wf _ _ _ ht)) _ hu
  split
  · exact State.steepWords_wf hs ..
  · exact State.ite_wf hs (hput _ _ _ (State.foldl_wf (fun _ _ hu => State.ite_wf hu (hput _ _ _ hu)) _ hs))

theorem execStpSumx_memInv (job : Nat) : Out.MemInv (execStpSumx job s) :=
  State.steepGo_wf hs _ (fun _ _ => State.ite_wf hs (State.ite_wf hs (State.writeKey_wf _ _ _ (State.writeKey_wf _ _ _ hs))))

theorem execMxdrain_memInv (sp acc slot : Nat) (ring : Bool) (target : Nat) : Out.MemInv (execMxdrain sp acc slot ring target s) := by
  have hc : Memory.wf (s.combine sp acc).mem = true := by simp [hs]
  refine State.ite_wf ?_ ?_
  · split
    · simp [hs]
    · simp [hs]
    · refine State.ite_wf (by simp [hs]) (State.ite_wf (by simp [hs]) ?_)
      split
      · simp [hs]
      · exact State.drainRing_wf hc ..
  · split
    · simp [hs]
    · refine State.ite_wf (by simp [hs]) (State.ite_wf (by simp [hs]) ?_)
      split
      · simp [hs]
      · exact State.drainTile_wf hc ..

/-! ## Pages that move (chapter 20) -/

theorem execMigr_memInv (h : Hdr) (d a b : Nat) : Out.MemInv (execMigr h d a b s) := by
  refine State.ite_wf (by simp [hs]) (State.ite_wf (by simp [hs]) (State.ite_wf (by simp [hs]) (State.ite_wf (by simp [hs])
    (State.ite_wf (by simp [hs]) (State.ite_wf (by simp [hs]) (State.ite_wf (by simp [hs]) ?_))))))
  split
  · simp [hs]
  refine State.ite_wf (by simp [hs]) (State.ite_wf (by simp [hs]) (State.ite_wf (by simp [hs]) ?_))
  rw [State.goOn_mem]
  exact State.ite_wf (by exact hs) (State.copyLines_wf (by exact hs) ..)

theorem execRackingEnd_memInv (owner : Nat) (va : BitVec 64) : Out.MemInv (execRackingEnd owner va s) := by
  simp only [execRackingEnd, Out.memInv_next]
  split
  · exact hs
  exact State.ite_wf hs (State.ite_wf (State.ite_wf (State.copyLines_wf hs ..) hs) (State.copyLines_wf hs ..))

/-! ## Launches (chapter 17) -/

theorem execTeamPlacement_memInv (grid : Nat) : Out.MemInv (execTeamPlacement grid s) := by
  refine State.ite_wf hs ?_
  split
  · exact State.startTeam_wf hs ..
  · exact hs

theorem execGangStart_memInv (grid : Nat) : Out.MemInv (execGangStart grid s) := by
  refine State.ite_wf hs ?_
  split
  next e =>
    rw [State.modGrid_mem]
    exact State.placeGang_wf hs e
  · dsimp only
    split <;> simp [hs]

theorem execGridCompletion_memInv (grid : Nat) : Out.MemInv (execGridCompletion grid s) := by
  refine State.ite_wf hs ?_
  extract_lets s0 items word w parts m s1
  have h0 : Memory.wf s0.mem = true := State.ite_wf hs hs
  have hwait : ∀ t, w = .wait t → Memory.wf t.mem = true := by
    intro t e
    simp only [w] at e
    split at e
    · cases e
    · rwa [State.cpWriteReady_mem e]
  split
  next e => rwa [State.cpReady_mem e]
  have h1 : Memory.wf s1.mem = true := by
    rw [State.foldl_mem (fun _ _ => State.cpTraffic_mem ..)]
    exact h0
  have hstall : Memory.wf ((s0.stallWaits (s.gridOf grid).owner).getD s0).mem = true := by
    cases e : s0.stallWaits (s.gridOf grid).owner with
    | none => exact h0
    | some u => exact State.stallWaits_mem e ▸ h0
  clear_value w
  cases w with
  | wait t => exact hwait t rfl
  | never =>
    refine State.ite_wf hstall ?_
    rw [State.modGrid_mem]
    exact State.copyStall_wf (by rw [State.cpDone_mem]; exact h1) _
  | go =>
    refine State.ite_wf hstall ?_
    rw [State.modGrid_mem]
    exact State.copyStall_wf (by rw [State.cpDone_mem]; exact State.cpWrite_wf h1 ..) _

theorem execReceiptWrite_memInv (grid : Nat) : Out.MemInv (execReceiptWrite grid s) := by
  refine State.ite_wf hs ?_
  extract_lets finish
  have hfinish : ∀ t va, Memory.wf t.mem = true → Memory.wf (finish t va).mem = true := fun t va ht => by
    rw [State.releaseGrid_mem, State.queueRecord_mem]
    exact ht
  refine State.ite_wf (hfinish _ _ hs) ?_
  split
  next e =>
    rw [State.cpWriteReady_mem e]
    exact hs
  · exact hfinish _ _ hs
  · exact hfinish _ _ (by rw [State.modOwner_mem]; exact State.cpWrite_wf hs ..)

/-! ## Records and replies (chapter 20) -/

theorem execReply_memInv (owner : Nat) (seq : BitVec 32) : Out.MemInv (execReply owner seq s) := State.takeReply_wf (by exact hs) _

theorem execSyscallSlotPoll_memInv (owner : Nat) : Out.MemInv (execSyscallSlotPoll owner s) :=
  State.ite_wf (State.takeReply_wf (State.pumpRing_wf hs _) _) hs

theorem execHaltRecord_memInv (owner : Nat) : Out.MemInv (execHaltRecord owner s) := by
  simp only [execHaltRecord, Out.memInv_next]
  split
  · exact hs
  · exact State.ite_wf hs (State.pumpRing_wf (by simp [hs]) _)

/-! ## Saved contexts (19 R341-R345) -/

theorem execContextSpill_memInv (sp : Nat) : Out.MemInv (execContextSpill sp s) := by
  refine State.ite_wf hs ?_
  split
  next ctx s1 e =>
  have h1 : Memory.wf s1.mem = true := by
    rw [show s1 = (ctx, s1).2 from rfl, ← e]
    exact hs
  extract_lets tids parts
  refine State.ite_wf hs ?_
  split
  next e => rwa [State.writesReady_mem e]
  · simp [hs]
  next e => rwa [State.stallWaits_mem e]
  · refine State.copyStall_wf ?_ _
    exact State.foldl_wf (fun _ _ hu => State.writeImage_wf hu ..) _ (by exact h1)

theorem execTeamEviction_memInv (team : Nat) : Out.MemInv (execTeamEviction team s) := by
  refine State.ite_wf hs ?_
  split
  next e => rwa [State.imagesReady_mem e]
  extract_lets r t gs mes bs
  split
  · exact hs
  extract_lets t' va
  split
  next e => rwa [State.writesReady_mem e]
  · simp [hs]
  next e => rwa [State.stallWaits_mem e]
  split
  next ctx s1 e =>
  have h1 : Memory.wf s1.mem = true := by
    rw [show s1 = (ctx, s1).2 from rfl, ← e]
    simpa [r] using hs
  extract_lets x s2 s3 s4
  have h2 : Memory.wf s2.mem = true := by
    rw [State.markImage_mem]
    exact State.writeImage_wf (by exact h1) ..
  have h3 : Memory.wf s3.mem = true := by
    rw [State.foldl_mem (fun _ _ => State.modBank_mem ..)]
    exact h2
  have h4 : Memory.wf s4.mem = true := by
    rw [State.dropContexts_mem, State.foldl_mem (fun _ _ => by split <;> rfl)]
    exact h3
  exact State.copyStall_wf (by exact h4) _

theorem execTeamRestore_memInv (team : Nat) : Out.MemInv (execTeamRestore team s) := by
  simp only [execTeamRestore, Out.memInv_next]
  split
  · exact hs
  refine State.ite_wf hs ?_
  split
  · exact hs
  split
  next e => rwa [State.imagesReady_mem e]
  · rw [State.endBad_mem, State.foldl_mem (fun _ _ => State.joinSp_mem ..)]
    show Memory.wf (State.mem _) = true
    rw [State.foldl_mem (fun _ _ => State.modMe_mem ..)]
    refine State.foldl_wf (fun _ _ hu => State.fillBank_wf hu ..) _ (State.foldl_takeBank_wf ?_ ..)
    rw [State.foldl_mem (fun _ _ => State.takeSp_mem ..), State.takeRecords_mem]
    exact hs

end
end Sys2Proof.Machine
end

section
/-! PROOF. What the host, the Kiln and the links leave of memory's canonical form, and so every instruction and event (O56). -/

namespace Sys2Proof.Machine

section
variable {s : State} (hs : Memory.wf s.mem = true)
include hs

/-! ## The host interface -/

theorem State.foldl_toError_wf (l : List Owner) : Memory.wf (l.foldl (fun (t : State) o => t.toError o.id) s).mem = true :=
  State.foldl_wf (fun _ _ ht => State.toError_wf ht _) l hs

theorem execLockWalker_memInv (owner : Nat) : Out.MemInv (execLockWalker owner s) := State.ite_wf (State.toError_wf hs _) hs

theorem execLockedRegisterWrite_memInv (owner reg : Nat) (v : BitVec 32) : Out.MemInv (execLockedRegisterWrite owner reg v s) :=
  State.ite_wf hs (State.ite_wf (State.ite_wf hs (State.toError_wf hs _)) (by simp [hs]))

theorem execHostCompletion_memInv (owner request : Nat) (kBit integrityOk linkOk errorStatus : Bool) :
    Out.MemInv (execHostCompletion owner request kBit integrityOk linkOk errorStatus s) := by
  have he : Memory.wf (s.eraseOld owner).mem = true := by simp [hs]
  exact State.ite_wf (State.foldl_toError_wf hs _)
    (State.ite_wf hs (State.ite_wf (State.toError_wf he _) (State.endRequest_wf he ..)))

theorem execCompletionTimeout_memInv (owner request : Nat) : Out.MemInv (execCompletionTimeout owner request s) := by
  simp only [execCompletionTimeout, Out.memInv_next]
  split
  · exact hs
  · exact State.ite_wf (State.endRequest_wf hs ..) hs

theorem execRegisterPageWrite_memInv (owner offset width : Nat) (v : BitVec 64) : Out.MemInv (execRegisterPageWrite owner offset width v s) :=
  State.ite_wf hs (State.ite_wf (by simp [hs]) (State.ite_wf (State.takeReply_wf (by exact hs) _)
    (State.ite_wf (State.writeHatom_wf hs ..) (by simp [hs]))))

/-! ## The Kiln -/

theorem State.request_wf {f : State → State} (hf : Memory.wf (f s).mem = true) : Memory.wf (s.request f).mem = true := by
  simp [hf, hs]

theorem execCreateOwner_memInv (desc tenantKey : List (BitVec 8)) : Out.MemInv (execCreateOwner desc tenantKey s) := by
  refine State.request_wf hs (State.ite_wf hs ?_)
  extract_lets s0 s1 s2
  have h1 : Memory.wf s1.mem = true := State.setGrants_wf (State.zeroFrames_wf (by exact hs) _) ..
  rw [State.granted_mem]
  exact State.allot_wf (s := s2) h1 _

theorem execDestroyOwner_memInv (owner : Nat) : Out.MemInv (execDestroyOwner owner s) := by
  refine State.request_wf hs (State.ite_wf hs ?_)
  rw [State.granted_mem]
  exact State.foldl_takeBank_wf (State.foldl_wf (fun _ _ ht => State.cutCard_wf ht _) _ hs) ..

theorem execGrant_memInv (owner : Nat) (extents : List Extent) : Out.MemInv (execGrant owner extents s) :=
  State.request_wf hs (State.ite_wf hs (State.allot_wf (State.setGrants_wf hs ..) _))

theorem execQuota_memInv (owner : Nat) (q : Quotas) : Out.MemInv (execQuota owner q s) := by
  refine State.request_wf hs (State.ite_wf hs ?_)
  rw [State.granted_mem]
  exact State.allot_wf (by rw [State.modOwner_mem]; exact hs) _

theorem execAllow_memInv (owner : Nat) (list : BitVec 32) (authenticated : Bool) : Out.MemInv (execAllow owner list authenticated s) := by
  refine State.request_wf hs (State.ite_wf hs (State.ite_wf ?_ (State.ite_wf hs ?_)))
  · rw [State.kilnRefuse_mem]
    exact State.toError_wf hs _
  · simp [hs]

/-! ## Accesses of a peer -/

theorem execPeerAccess_memInv (dev owner offset : Nat) (op : PeerOp) : Out.MemInv (execPeerAccess dev owner offset op s) := by
  refine State.ite_wf hs ?_
  extract_lets u s0
  have h0 : Memory.wf s0.mem = true := by simpa [s0, u] using hs
  split
  · simp [hs]
  next ks _ =>
  refine State.ite_wf (by simpa [u] using hs) (State.ite_wf (by simpa [u] using hs) ?_)
  extract_lets bs pois
  split
  · simpa using h0
  · exact State.writeKeys_wf h0 ..
  · dsimp only
    split
    · exact State.ite_wf (State.writeKeys_wf h0 ..) (State.writeKeys_wf h0 ..)
    · exact State.writeKeys_wf h0 ..
  · extract_lets s1 s2
    have h2 : Memory.wf s2.mem = true := by
      rw [State.answerWith_mem]
      simp only [s1]
      split
      · exact State.writeKeys_wf h0 ..
      · exact h0
    clear_value s2
    split
    · split <;> exact h2
    · exact h2

/-! ## Every instruction and event -/

theorem exec_memInv (i : Instr) : Out.MemInv (exec i s) := by
  cases i with
  | vadd | vsub | vmul | vand | vor | vxor | vandn | vshl | vshr | vmin | vmax => exact Out.memInv_of_mem hs (State.lane2_mem ..)
  | vaddi | vshi | vmov | vnot | vneg | vabs | vpopc | vclz | vbrev | vsext8 | vsext16 => exact Out.memInv_of_mem hs (State.lane1_mem ..)
  | vmad | vmovi | vmovl | vaff | vbcast => exact Out.memInv_of_mem hs (State.laneAlu_mem ..)
  | vfadd | vfsub | vfmul | vfmin | vfmax | vdiv => exact Out.memInv_of_mem hs (State.float2_mem ..)
  | vfabs | vfneg | vfrint | vfcls => exact Out.memInv_of_mem hs (State.float1_mem ..)
  | vfma | vfscl | vcvt | vcvt6 | vdqnt | vpkh | vupkh => exact Out.memInv_of_mem hs (State.laneFloat_mem ..)
  | vrcp | vrsq | vsqrt | vexp2 | vlog2 | vtanh => exact Out.memInv_of_mem hs (State.special_mem ..)
  | vcmpeq | vcmpne | vcmplt | vcmple => exact Out.memInv_of_mem hs (State.laneCmp_mem ..)
  | plog | pmov => exact Out.memInv_of_mem hs (State.lanePred_mem ..)
  | vshfl | vshflx | vshflu | vshfld => exact Out.memInv_of_mem hs (State.permute_mem ..)
  | vqnt => exact execVqnt_memInv hs ..
  | vsel => exact execVsel_memInv hs ..
  | vballot => exact execVballot_memInv hs ..
  | vred => exact execVred_memInv hs ..
  | sand | sor | sxor | sshl | sshr | smin | smax => exact Out.memInv_of_mem hs (State.uni2_mem ..)
  | saddi | smov | snot | spopc | sclz => exact Out.memInv_of_mem hs (State.uni1_mem ..)
  | smovi | smovl | slui | xset | xaddb | xaddbi | xstr | xadd | xmuls | qlog | qany | qmov | binq =>
    exact Out.memInv_of_mem hs (State.uniAlu_mem ..)
  | scmpeq | scmpne | scmplt | scmple => exact Out.memInv_of_mem hs (State.scmp_mem ..)
  | sadd => exact execSadd_memInv hs ..
  | ssub => exact execSsub_memInv hs ..
  | smul => exact execSmul_memInv hs ..
  | xget => exact execXget_memInv hs ..
  | sreadl => exact execSreadl_memInv hs ..
  | csrr => exact execCsrr_memInv hs ..
  | csrw => exact execCsrw_memInv hs ..
  | vld h d a l k t => exact execVld_memInv hs h d a l k t
  | vldnf h d a l k t => exact execVldnf_memInv hs h d a l k t
  | vldn h d a l k t => exact execVldn_memInv hs h d a l k t
  | vldf h d a l t => exact execVldf_memInv hs h d a l t
  | vldxW h d x o l => exact execVldxW_memInv hs h d x o l
  | vldxD h d x o l => exact execVldxD_memInv hs h d x o l
  | vst h d a l k t => exact execVst_memInv hs h d a l k t
  | vstn h d a l k t => exact execVstn_memInv hs h d a l k t
  | vstxW h d x o l => exact execVstxW_memInv hs h d x o l
  | vstxD h d x o l => exact execVstxD_memInv hs h d x o l
  | vatadd h d a l k t => exact execVatadd_memInv hs h d a l k t
  | vatmm h d a l k t => exact execVatmm_memInv hs h d a l k t
  | vatbit h d a l k t => exact execVatbit_memInv hs h d a l k t
  | vcas h d a l k t => exact execVcas_memInv hs h d a l k t
  | vtrd => exact execVtrd_memInv hs ..
  | vtwr => exact execVtwr_memInv hs ..
  | vtaddF32 => exact execVtaddF32_memInv hs ..
  | vtmaxF32 => exact execVtmaxF32_memInv hs ..
  | tbind => exact execTbind_memInv hs ..
  | tzero => exact execTzero_memInv hs ..
  | tcolop => exact execTcolop_memInv hs ..
  | tload | tstore => exact State.tileMove_wf hs ..
  | tacc => exact execTacc_memInv hs ..
  | rbind => exact execRbind_memInv hs ..
  | rpub => exact execRpub_memInv hs ..
  | rwaitf => exact execRwaitf_memInv hs ..
  | vbr => exact execVbr_memInv hs ..
  | bra => exact execBra_memInv hs ..
  | brx => exact execBrx_memInv hs ..
  | vcall => exact Out.memInv_of_mem hs (State.call_mem ..)
  | vcallx => exact execVcallx_memInv hs ..
  | vret => exact execVret_memInv hs ..
  | vjtab => exact execVjtab_memInv hs ..
  | vexit => exact execVexit_memInv hs ..
  | end_ => exact execEnd_memInv hs ..
  | vyield => exact execVyield_memInv hs ..
  | nop => exact Out.memInv_of_mem hs (State.goOn_mem ..)
  | waitt => exact execWaitt_memInv hs ..
  | barg => exact execBarg_memInv hs ..
  | bar => exact execBar_memInv hs ..
  | fence h p k sc => exact execFence_memInv hs h p k sc
  | rdv => exact execRdv_memInv hs ..
  | runStart => exact execRunStart_memInv hs ..
  | waittDeadline | gtcmpMatch | forcedRunBoundary => exact Out.memInv_of_mem hs (State.modGroups_mem ..)
  | memoryResult => exact Out.memInv_of_mem hs rfl
  | vsusp => exact execVsusp_memInv hs ..
  | vspawn => exact execVspawn_memInv hs ..
  | bincfg => exact execBincfg_memInv hs ..
  | binwake => exact execBinwake_memInv hs ..
  | binflush => exact execBinflush_memInv hs ..
  | frameld h => exact execFrameld_memInv hs h
  | vldfDelivery => exact execVldfDelivery_memInv hs ..
  | flushTimer => exact Out.memInv_of_mem hs (State.modBin_mem ..)
  | binLaunch => exact execBinLaunch_memInv hs ..
  | caskRefill => exact execCaskRefill_memInv hs ..
  | launch => exact execLaunch_memInv hs ..
  | launchAccept => exact execLaunchAccept_memInv hs ..
  | teamPlacement => exact execTeamPlacement_memInv hs ..
  | gangStart => exact execGangStart_memInv hs ..
  | gangAgeing => exact execGangAgeing_memInv hs ..
  | teamRetire => exact execTeamRetire_memInv hs ..
  | gridCompletion => exact execGridCompletion_memInv hs ..
  | receiptWrite => exact execReceiptWrite_memInv hs ..
  | cpy => exact execCpy_memInv hs ..
  | cpyw => exact execCpyw_memInv hs ..
  | steep => exact execSteep_memInv hs ..
  | fork => exact execFork_memInv hs ..
  | copy | fill => exact State.copyCard_wf hs ..
  | copyAead => exact execCopyAead_memInv hs ..
  | post | bcast => exact State.collCard_wf hs ..
  | sig => exact execSig_memInv hs ..
  | promise => exact execPromise_memInv hs ..
  | promiseMissed => exact execPromiseMissed_memInv hs ..
  | stpFill => exact execStpFill_memInv hs ..
  | stpAddF32 => exact execStpAddF32_memInv hs ..
  | stpScale => exact execStpScale_memInv hs ..
  | stpMaxfold => exact execStpMaxfold_memInv hs ..
  | stpSumx => exact execStpSumx_memInv hs ..
  | stpCvt => exact execStpCvt_memInv hs ..
  | stpXsum => exact execStpXsum_memInv hs ..
  | mxcfg => exact execMxcfg_memInv hs ..
  | mxzero => exact execMxzero_memInv hs ..
  | mxwait => exact execMxwait_memInv hs ..
  | mxrel => exact execMxrel_memInv hs ..
  | mxmma => exact execMxmma_memInv hs ..
  | mxdrain => exact execMxdrain_memInv hs ..
  | mxloop => exact execMxloop_memInv hs ..
  | mxsig | mxfence => exact Out.memInv_of_mem hs (State.meNext_mem ..)
  | mxend => exact execMxend_memInv hs ..
  | mxIllegalCommand => exact Out.memInv_of_mem hs (State.meStop_mem ..)
  | meWake => exact Out.memInv_of_mem hs (State.modMe_mem ..)
  | reservedOpcode => exact Out.memInv_of_mem hs (State.raiseWord_mem ..)
  | hret => exact execHret_memInv hs ..
  | trap => exact execTrap_memInv hs ..
  | halto => exact execHalto_memInv hs ..
  | cbegin => exact execCbegin_memInv hs ..
  | cend => exact execCend_memInv hs ..
  | missQueued => exact execMissQueued_memInv hs ..
  | walkHandlerLaunch => exact execWalkHandlerLaunch_memInv hs ..
  | pageHandlerLaunch => exact execPageHandlerLaunch_memInv hs ..
  | requestHandlerLaunch => exact execRequestHandlerLaunch_memInv hs ..
  | tlbw => exact execTlbw_memInv hs ..
  | tlbi => exact execTlbi_memInv hs ..
  | pgreq => exact execPgreq_memInv hs ..
  | framea => exact execFramea_memInv hs ..
  | framef => exact execFramef_memInv hs ..
  | discard => exact execDiscard_memInv hs ..
  | migr => exact execMigr_memInv hs ..
  | rackingEnd => exact execRackingEnd_memInv hs ..
  | meas => exact execMeas_memInv hs ..
  | haltRecord => exact execHaltRecord_memInv hs ..
  | trapRecord => exact State.pumpRing_wf hs ..
  | syscallSlotPoll => exact execSyscallSlotPoll_memInv hs ..
  | reply => exact execReply_memInv hs ..
  | preemption => exact execPreemption_memInv hs ..
  | bankSwap => exact execBankSwap_memInv hs ..
  | contextSpill => exact execContextSpill_memInv hs ..
  | contextFill => exact execContextFill_memInv hs ..
  | teamEviction => exact execTeamEviction_memInv hs ..
  | teamRestore => exact execTeamRestore_memInv hs ..
  | peerLost => exact execPeerLost_memInv hs ..
  | portDown => exact Out.memInv_of_mem hs (State.downPort_mem ..)
  | flitReceive => exact execFlitReceive_memInv hs ..
  | peerAccess => exact execPeerAccess_memInv hs ..
  | packetReceive => exact execPacketReceive_memInv hs ..
  | keyRegisterLoad => exact execKeyRegisterLoad_memInv hs ..
  | hostCompletion => exact execHostCompletion_memInv hs ..
  | completionTimeout => exact execCompletionTimeout_memInv hs ..
  | keySetErase => exact Out.memInv_of_mem hs (State.eraseOld_mem ..)
  | lockWalker => exact execLockWalker_memInv hs ..
  | lq => exact Out.memInv_of_mem hs (State.submitLaunch_mem ..)
  | hatom => exact State.writeHatom_wf hs ..
  | registerPageWrite => exact execRegisterPageWrite_memInv hs ..
  | lockedRegisterWrite => exact execLockedRegisterWrite_memInv hs ..
  | telemetryRead => exact execTelemetryRead_memInv hs ..
  | lockInterface => exact execLockInterface_memInv hs ..
  | startInterface => exact execStartInterface_memInv hs ..
  | stopInterface => exact execStopInterface_memInv hs ..
  | kSetGo => exact execKSetGo_memInv hs ..
  | spdmRequest => exact execSpdmRequest_memInv hs ..
  | createOwner => exact execCreateOwner_memInv hs ..
  | destroyOwner => exact execDestroyOwner_memInv hs ..
  | grant => exact execGrant_memInv hs ..
  | quota => exact execQuota_memInv hs ..
  | peer => exact execPeer_memInv hs ..
  | slotAssign => exact execSlotAssign_memInv hs ..
  | diag => exact execDiag_memInv hs ..
  | logRead => exact execLogRead_memInv hs ..
  | setReceiptRing => exact execSetReceiptRing_memInv hs ..
  | keyPut => exact execKeyPut_memInv hs ..
  | allow => exact execAllow_memInv hs ..
  | worldShare => exact execWorldShare_memInv hs ..
  | fusedMinimumRaise => exact execFusedMinimumRaise_memInv hs ..
  | regulatorSetting => exact execRegulatorSetting_memInv hs ..
  | kilnLockstepMismatch => exact State.foldl_toError_wf (s := { s with kilnStopped := true }) hs s.owners
  | rowRemap => exact execRowRemap_memInv hs ..
  | bondSteering => exact execBondSteering_memInv hs ..
  | coreRetire => exact execCoreRetire_memInv hs ..
  | governorStep => exact execGovernorStep_memInv hs ..
  | currentClamp => exact hs
  | thermtrip => exact rfl
  | reset => exact execReset_memInv ..
  | spStart => exact execSpStart_memInv hs ..

end
end Sys2Proof.Machine
end

section
/-! PROOF. Every turn of an agent, and so every step, keeps the canonical form of memory (O56). -/

namespace Sys2Proof.Machine

/-! ## The turns -/

/-- What a word that breaks the encoding or the allocation leaves (03 R47). -/
theorem State.badWord_mem {s t : State} {i : Instr} (e : s.badWord i = some t) : t.mem = s.mem := by
  unfold State.badWord at e
  split at e
  · cases e
    exact State.raiseWord_mem ..
  · extract_lets b at e
    split at e
    · split at e
      · cases e
        exact State.raiseWord_mem ..
      · cases e
    · cases e

theorem State.badWord_getD_mem (s : State) (i : Instr) {t : State} (h : t.mem = s.mem) : ((s.badWord i).getD t).mem = s.mem := by
  cases e : s.badWord i with
  | none => exact h
  | some u => exact State.badWord_mem e

theorem endTurn_memInv {o : Out} (h : o.MemInv) : (endTurn o).MemInv := by
  cases o with
  | next t => rwa [endTurn, Out.memInv_next, State.stepDone_mem]
  | fault | refused => trivial

theorem endEvent_memInv {o : Out} (h : o.MemInv) : (endEvent o).MemInv := by
  cases o with
  | next t => rwa [endEvent, Out.memInv_next, State.freshFree_mem]
  | fault | refused => trivial

section
variable {s : State} (hs : Memory.wf s.mem = true)
include hs

theorem State.issueWord_memInv : s.issueWord.MemInv := by
  unfold State.issueWord
  extract_lets c a gid sp
  have ha : Memory.wf a.mem = true := by simp [a, c, hs]
  split
  · simp [c, hs]
  split
  · simp [State.afterWord_mem, ha]
  have hfetch := a.fetchIssue_mem
  split
  next t e =>
    have ht : t.mem = a.mem := by simpa [e] using hfetch
    rwa [Out.memInv_next, State.afterWord_mem, ht]
  next a' i e =>
    have ha' : a'.mem = a.mem := by simpa [e] using hfetch
    have hbefore := a'.beforeWord_mem i
    split
    next t e =>
      have ht : t.mem = a'.mem := by simpa [e] using hbefore
      rwa [Out.memInv_next, State.afterWord_mem, State.badWord_getD_mem _ _ ht, ha']
    next b j e =>
      have hmem : b.mem = a'.mem := by simpa [e] using hbefore
      have hb : Memory.wf b.mem = true := by rwa [hmem, ha']
      have hj := exec_memInv hb j
      split
      next t e =>
        have ht : Memory.wf t.mem = true := by rwa [e] at hj
        rw [Out.memInv_next, State.afterWord_mem]
        split
        · exact ht
        · exact State.ite_wf (State.ite_wf ht (by simp [hb])) ht
      · exact hj

theorem State.issueOn_memInv (sp : Nat) : (s.issueOn sp).MemInv := by
  unfold State.issueOn
  split
  · exact State.issueWord_memInv (by simp [hs])
  · exact exec_memInv hs _

theorem State.meTurn_memInv (sp : Nat) : (s.meTurn sp).MemInv := by
  have hfetch := s.fetchMx_mem sp
  unfold State.meTurn
  split
  · exact hs
  split
  next t e => exact Out.memInv_of_mem hs (by simpa [e] using hfetch)
  next t e => exact Out.memInv_of_mem hs (by simpa [e] using hfetch)
  next t i e =>
    have ht : t.mem = s.mem := by simpa [e] using hfetch
    exact exec_memInv (by rwa [State.touchPort_mem, ht]) _

theorem State.cardTurn_memInv (cid : Nat) : (s.cardTurn cid).MemInv := by
  unfold State.cardTurn
  split
  · exact hs
  split
  · exact hs
  split
  · exact State.cutCard_wf hs _
  split
  · exact hs
  split
  · exact exec_memInv (by simp [hs]) _
  split
  · exact exec_memInv (by simp [hs]) _
  · simp [hs]

theorem State.steepTurn_memInv (jid : Nat) : (s.steepTurn jid).MemInv := by
  unfold State.steepTurn
  split
  · exact exec_memInv hs _
  · exact hs

/-- The world outside writes the bytes of the host and of peers alone (log entry 3). -/
theorem State.outside_memInv (key : Nat) (bytes : List (BitVec 8)) : (s.perform (.outside key bytes)).MemInv :=
  State.ite_wf (Memory.wf_write _ _ _ hs) hs

theorem State.perform_memInv (t : Turn) : (s.perform t).MemInv := by
  cases t with
  | issue sp =>
    have h := State.issueOn_memInv hs sp
    simp only [State.perform]
    split
    · exact h
    · exact endTurn_memInv h
  | me sp => exact endTurn_memInv (State.meTurn_memInv hs sp)
  | card cid => exact endTurn_memInv (State.cardTurn_memInv hs cid)
  | steep jid => exact endTurn_memInv (State.steepTurn_memInv hs jid)
  | event i =>
    simp only [State.perform]
    split
    · exact endEvent_memInv (exec_memInv hs i)
    · exact hs
  | upset u =>
    cases u with
    | uncorrectable a => simp [State.perform, hs]
    | _ => exact hs
  | outside key bytes => exact State.outside_memInv hs ..
  | load owner frame bytes => exact State.loaderPlaces_wf hs ..
  | routes r => simp [State.perform, hs]
  | idle | secded | sense | exportMap | session | worldEnd | register | corrected => exact hs
  | descriptor owner => exact Out.memInv_of_mem hs (State.readDescriptor_mem ..)
  | selfTest banks sps => exact Out.memInv_of_mem hs (State.failTest_mem ..)
  | training bonds => exact Out.memInv_of_mem hs (State.failTraining_mem ..)

/-! ## The step -/

theorem step_memInv : Out.MemInv (step s) := by
  have hturns : ∀ ts, Memory.wf ({ s with turns := ts } : State).mem = true := fun _ => hs
  unfold step
  split
  · split
    · trivial
    · exact State.perform_memInv hs _
  · split
    · exact State.perform_memInv (hturns _) _
    · trivial
    · exact State.perform_memInv (hturns _) _

end
end Sys2Proof.Machine

open Sys2Proof Sys2Proof.Machine

/-- Settles O56: of all that a turn can do, only the writes to memory touch its list, and each of them goes through `Memory.write`,
removes entries or empties the list. -/
theorem everyStepKeepsMemory : Obligations.EveryStepKeepsMemory := by
  unfold Obligations.EveryStepKeepsMemory
  intro s t hs hstep
  have hnext := step_memInv hs
  rwa [hstep] at hnext

end
